-- ==== Sys2Proof/Word.lean ====
section
/-! DEFINITION. The word types of the KM9 (spec 00_scope R3, 03_registers R65): no operation is defined here. -/
namespace Sys2Proof

/-- A byte, the unit of memory (R137: a location is one byte). -/
abbrev Byte := BitVec 8
/-- One lane's 32 bits of a `v` register (R65). -/
abbrev W32 := BitVec 32
/-- A `w` register, a handle, an address operand (R65, R115). -/
abbrev W64 := BitVec 64
/-- One bit per lane: a predicate, an active set, a vote (R4). -/
abbrev Mask := BitVec 32
/-- A whole `v` register: lane i stands at bits [32i+31:32i] (R65). -/
abbrev VReg := BitVec 1024
/-- A stream record `s0`-`s7` (R65). -/
abbrev SReg := BitVec 256

end Sys2Proof
end

