-- ==== Sys2Proof/Config.lean ====
section
/-! DEFINITION. What one implementation fixes and the spec leaves open. Every constant here is opaque: no proof can use a value. -/
namespace Sys2Proof.Config

/-- DESIGN CHOICE (log 6): the fixed function of a transcendental of major 0x14 outside its exact cases (R234), as `.f32` bits from
the minor opcode, the input's `.f32` bits and the FTZ bit. The spec gives limits of error and no values. -/
opaque transcendental : Nat → W32 → Bool → W32

/-- DESIGN CHOICE (log 7): the value name of a register's 1024 bits, "fixed for the device but not part of the architecture" (R76). -/
opaque valueName : VReg → W64

/-- DESIGN CHOICE (log 7): the set of a reuse table in which a key is looked up, of 32 (R78). -/
opaque reuseSet : List Nat → Nat

/-- DESIGN CHOICE (log 7): which entry of a full reuse set is replaced, from the free-value counter (R78: replacement is not architectural). -/
opaque reuseVictim : Nat → Nat

/-- DESIGN CHOICE (log 5): whether a read is of the present, and else the point of order up to which it sees what is visible to it (R139,
R140), from the free-value counter and the unit read. -/
opaque readsNow : Nat → Nat → Bool
opaque readCut : Nat → Nat → Nat

/-- DESIGN CHOICE (log 5): whether a read of the present passes a write that nothing orders before it (R131, R139, R142), from the free-value
counter, the unit read and the write. -/
opaque readsOld : Nat → Nat → Nat → Bool

/-- DESIGN CHOICE (log 5): whether a plain store of a scratchpad comes before another that nothing orders before it (R139, R140), from the free-value
counter and the other's place in the record. -/
opaque writesUnder : Nat → Nat → Bool

/-- DESIGN CHOICE (log 5): within how many periods a write is visible to all (R141), from the write's place in coherence order. -/
opaque visibleWithin : Nat → Nat

/-- DESIGN CHOICE (log 4): which entry leaves a full cache or TLB, from the free-value counter: their replacement is not architectural. -/
opaque cacheVictim : Nat → Nat

/-- DESIGN CHOICE (log 121): for how many periods the host leaves a raised vector pending (R421), from the free-value counter. -/
opaque irqTaken : Nat → Nat

/-- DESIGN CHOICE (log 78): how many flits a failing port has retried before it leaves service (R428), from the free-value counter. -/
opaque flitRetries : Nat → Nat

/-- DESIGN CHOICE (log 122): the page-table root and the save area that the firmware gives the service context of a die (R443 step 7). -/
opaque serviceRoot : Nat → W64
opaque serviceSave : Nat → Nat × Nat

/-- DESIGN CHOICE (log 14): the four fused public keys as numbers, whether each is revoked (R436), and the secret fused into the device, from which
its identity key pair comes (R439). -/
opaque fusedKey : Nat → Nat
opaque keyRevoked : Nat → Bool
opaque identitySecret : Nat

/-- DESIGN CHOICE (log 15): the order in which partial results meet in a reduction (R113), from the free-value counter: a number that
selects the next of n remaining terms. -/
opaque reduceNext : Nat → Nat

/-- DESIGN CHOICE (log 11): the `TVEC_H` that the ditchriders set for a context (R444). -/
opaque firmwareBase : W64

end Sys2Proof.Config
end

