-- ==== Sys2Proof/Syntax.lean ====
section
/-! DEFINITION. The instructions, commands and events of spec/opcode_table.json, one constructor a row. An instruction carries its
operand fields (07_encoding R162); an event or command carries what names it (an index of a message in flight, a core and slot, the
operands of a management command). -/
namespace Sys2Proof

/-- Element types, in the order of the TY field (R166). -/
inductive Ty
  | i8 | i16 | i32 | i64 | n8 | n16 | n32 | n64 | f16 | bf16 | f32 | f64 | e4m3 | e5m2 | e2m1s | e8m0
  deriving DecidableEq, Repr

/-- The RM field: dynamic (`FPENV`.RM) or a static rounding mode (R166). -/
inductive Rm
  | dyn | rne | rtz | rdn | rup
  deriving DecidableEq, Repr

/-- Scopes from narrowest to widest (R8), in the order of the SCOPE field (R166). -/
inductive Scope
  | thread | furrow | core | quad | die | pkg | pod | sys
  deriving DecidableEq, Repr

/-- Comparison conditions of major 0x12 (R222). -/
inductive Cc
  | eq | ne | lt | le | gt | ge | ord | uno
  deriving DecidableEq, Repr

/-- Conditions of `waita` (R255). -/
inductive WaitCc
  | eq | ne | lt | ge
  deriving DecidableEq, Repr

/-- Engine classes (R130). -/
inductive Cls
  | ls | mxe | txe | gxe | cxe
  deriving DecidableEq, Repr

/-- Second operand of format SU (R183). -/
inductive UOp
  | reg (n : Fin 64)
  | imm (b : BitVec 8)
  deriving DecidableEq, Repr

/-- Second operand of a long instruction, by BK (R162). -/
inductive BOp
  | v (n : Fin 128)
  | w (n : Fin 64)
  | imm (b : BitVec 8)
  deriving DecidableEq, Repr

/-- Format CH, the clause header (R162); SETA and SETB as coded, 12 to 15 naming none. -/
structure ClauseH where
  nr : Bool
  len : Fin 8
  seta : Fin 16
  setb : Fin 16
  wait : BitVec 12
  deriving DecidableEq, Repr
/-- Format SU (R162). -/
structure SU where
  c : Bool
  wd : Fin 64
  wa : Fin 64
  b : UOp
  deriving DecidableEq, Repr
/-- Format SU with BI = 1 (`uins8`, R187). -/
structure SUImm where
  c : Bool
  wd : Fin 64
  wa : Fin 64
  b : BitVec 8
  deriving DecidableEq, Repr
/-- Format SU with BI = 0 and B = 0 (`upopc`, `uclz`, R187). -/
structure SUUn where
  c : Bool
  wd : Fin 64
  wa : Fin 64
  deriving DecidableEq, Repr
/-- Format SB: target packet and guard (R162). -/
structure SB where
  c : Bool
  pkt : BitVec 21
  g : Fin 8
  deriving DecidableEq, Repr
/-- Format SC with a `w` source and a guard (`jmp`, `callr`; R190). -/
structure SCw where
  c : Bool
  wa : Fin 64
  g : Fin 8
  deriving DecidableEq, Repr
/-- Format SC with a guard alone (`ret`, `exit`, `yield`; R190). -/
structure SCg where
  c : Bool
  g : Fin 8
  deriving DecidableEq, Repr
/-- Format SC with a `w` source, a packet offset and a guard (`bwz`, `bwnz`, `loop`; R190). -/
structure SCb where
  c : Bool
  wa : Fin 64
  off : BitVec 8
  g : Fin 8
  deriving DecidableEq, Repr
/-- Format SC with a `w` source alone and G = 7 (`rcv` R192, `tret` R330, `dhalt` R334). -/
structure SCm where
  c : Bool
  wa : Fin 64
  deriving DecidableEq, Repr
/-- `sysc n, wA` (R195). -/
structure SCs where
  c : Bool
  wa : Fin 64
  n : BitVec 8
  g : Fin 8
  deriving DecidableEq, Repr
/-- `brk n` (R195). -/
structure SCn where
  c : Bool
  n : BitVec 8
  g : Fin 8
  deriving DecidableEq, Repr
/-- `cend n` (R336). -/
structure SCc where
  c : Bool
  n : BitVec 8
  deriving DecidableEq, Repr
/-- Format SP with two sources (R197). -/
structure SP3 where
  c : Bool
  pd : Fin 8
  pa : Fin 8
  pb : Fin 8
  g : Fin 8
  deriving DecidableEq, Repr
/-- `pnot` (R197). -/
structure SP2 where
  c : Bool
  pd : Fin 8
  pa : Fin 8
  g : Fin 8
  deriving DecidableEq, Repr
/-- `plt` (R197). -/
structure SPn where
  c : Bool
  pd : Fin 8
  n : BitVec 8
  g : Fin 8
  deriving DecidableEq, Repr
/-- Format SR (R162). -/
structure SR where
  c : Bool
  w : Fin 64
  srn : BitVec 12
  deriving DecidableEq, Repr
/-- `push` (R266). -/
structure SEpush where
  c : Bool
  q : Fin 4
  h : Fin 16
  wa : Fin 64
  sel : BitVec 8
  deriving DecidableEq, Repr
/-- `qpop` (R266); q counts from `q4`. -/
structure SEpop where
  c : Bool
  q : Fin 8
  d : Fin 128
  deriving DecidableEq, Repr
/-- `qclaim`, `qput` (R266); q counts from `q12`. -/
structure SEport where
  c : Bool
  q : Fin 4
  wa : Fin 64
  deriving DecidableEq, Repr
/-- `hwait`, `htest`, `hget`, `hset` (R266). -/
structure SEh where
  c : Bool
  h : Fin 16
  wa : Fin 64
  deriving DecidableEq, Repr
/-- `hcancel` (R266). -/
structure SEhc where
  c : Bool
  h : Fin 16
  deriving DecidableEq, Repr
/-- `sset`, `sget` (R261). -/
structure SEs where
  c : Bool
  n : Fin 8
  wa : Fin 64
  k : Fin 4
  deriving DecidableEq, Repr
/-- `winit`, `wexp` (R280). -/
structure SEw where
  c : Bool
  wa : Fin 64
  deriving DecidableEq, Repr
/-- `warr` (R280); the scope field 0 is none. -/
structure SEws where
  c : Bool
  wa : Fin 64
  scope : Scope
  deriving DecidableEq, Repr
/-- `wwait` (R280). -/
structure SEww where
  c : Bool
  wa : Fin 64
  p : Bool
  scope : Scope
  deriving DecidableEq, Repr
/-- Formats LA and LX of majors 0x10 to 0x15 (R162, R165, R208). -/
structure LV where
  c : Bool
  d : Fin 128
  a : Fin 128
  b : BOp
  c3 : Fin 128
  g : Fin 8
  ty : Ty
  rm : Rm
  sat : Bool
  deriving DecidableEq, Repr
/-- A long instruction whose only free fields are its guard and chain bit (`xacq`, `xrel` R206; `tlbinv.nong`, `tlbinv.all` R370). -/
structure LX0 where
  c : Bool
  g : Fin 8
  deriving DecidableEq, Repr
/-- Formats LA and LX of majors 0x16 to 0x18 (R235, R243): AM, SCL, X2 from OP; TY, SCOPE, VOL from MOD. -/
structure LM where
  c : Bool
  d : Fin 128
  a : Fin 128
  b : BOp
  c3 : Fin 128
  g : Fin 8
  am : Bool
  scl : Fin 4
  x2 : Bool
  ty : Ty
  scope : Scope
  vol : Bool
  deriving DecidableEq, Repr
/-- Major 0x19 (R249): ORD 0 relaxed, 1 acquire, 2 release, 3 both. -/
structure LA where
  c : Bool
  d : Fin 128
  a : Fin 128
  b : BOp
  c3 : Fin 128
  g : Fin 8
  am : Bool
  ord : Fin 4
  ty : Ty
  scope : Scope
  deriving DecidableEq, Repr
/-- An access to memory of this package from outside the cores: a read, a write of bytes, or one of the integer atomics of R250 by its minor opcode 0
to 7 with the operand and the second operand. -/
inductive OuterAccess
  | fill
  | write (bs : List Byte)
  | atomic (op : Fin 8) (ty : Ty) (b c : Nat)
  deriving DecidableEq, Repr
/-- What the fabric answers when a collective starts (R298, R300): a switch plane that has a reduction slot to give, and a rank of another package
whose command does not agree. -/
structure FabricStart where
  plane : Option Nat
  differs : Option Nat
  deriving DecidableEq, Repr
/-- A collective that may have lost a rank (R301, R431): whether a rank of another package was cancelled; else one has been silent. -/
structure RankLoss where
  coll : Nat
  cancelled : Bool
  deriving DecidableEq, Repr
/-- `waita` (R255). -/
structure LW where
  c : Bool
  d : Fin 128
  a : Fin 128
  b : BOp
  c3 : Fin 128
  g : Fin 8
  am : Bool
  cc : WaitCc
  ty : Ty
  scope : Scope
  deriving DecidableEq, Repr
/-- `pf` (R258): hold is LVL 1. -/
structure LP where
  c : Bool
  a : Fin 128
  b : BOp
  g : Fin 8
  am : Bool
  hold : Bool
  deriving DecidableEq, Repr
/-- `fence.acq`, `fence.rel`, `fence.full`, `fence.spec` (R259). -/
structure LF where
  c : Bool
  g : Fin 8
  scope : Scope
  deriving DecidableEq, Repr
/-- `fence.xp a, b` (R259): writing class and reading class. -/
structure LFx where
  c : Bool
  g : Fin 8
  wr : Cls
  rd : Cls
  deriving DecidableEq, Repr
/-- Major 0x1B (R283). -/
structure LC where
  c : Bool
  d : Fin 128
  a : Fin 128
  id : BitVec 8
  g : Fin 8
  deriving DecidableEq, Repr
/-- `tfr`, `tfw` (R329): FR and SEL from MOD. -/
structure LT where
  c : Bool
  d : Fin 128
  a : Fin 128
  b : BOp
  g : Fin 8
  fr : Fin 4
  sel : BitVec 6
  deriving DecidableEq, Repr
/-- A privileged instruction with one `w` source in A (`svcpost` R338, `tlbinv.asid` R370). -/
structure LR1 where
  c : Bool
  a : Fin 64
  g : Fin 8
  deriving DecidableEq, Repr
/-- A privileged instruction with a `w` destination (`svctake` R339, `fqtake` R359). -/
structure LRd where
  c : Bool
  d : Fin 64
  g : Fin 8
  deriving DecidableEq, Repr
/-- `fqdone wA, res` (R360): res is IMM8, 0 RETRY, 1 FAIL. -/
structure LRi where
  c : Bool
  a : Fin 64
  fail : Bool
  g : Fin 8
  deriving DecidableEq, Repr
/-- `tlbinv.page wA, wB` (R370). -/
structure LR2 where
  c : Bool
  a : Fin 64
  b : Fin 64
  g : Fin 8
  deriving DecidableEq, Repr
/-- `acrd wD, wA[, clr]` (R368). -/
structure LRda where
  c : Bool
  d : Fin 64
  a : Fin 64
  clr : Bool
  g : Fin 8
  deriving DecidableEq, Repr

/-- One constructor per row of spec/opcode_table.json, in its order. -/
inductive Instr
  /-- CLAUSE, R167. -/
  | clause (f : ClauseH)
  /-- NOP, R164. -/
  | nop (c : Bool)
  /-- UADD, R184. -/
  | uadd (f : SU)
  /-- USUB, R184. -/
  | usub (f : SU)
  /-- URSUB, R184. -/
  | ursub (f : SU)
  /-- UMUL, R184. -/
  | umul (f : SU)
  /-- UMULH_I64, R184. -/
  | umulhI64 (f : SU)
  /-- UMULH_N64, R184. -/
  | umulhN64 (f : SU)
  /-- UDIV_I64, R185. -/
  | udivI64 (f : SU)
  /-- UDIV_N64, R185. -/
  | udivN64 (f : SU)
  /-- UREM_I64, R185. -/
  | uremI64 (f : SU)
  /-- UREM_N64, R185. -/
  | uremN64 (f : SU)
  /-- UMIN_I64, R184. -/
  | uminI64 (f : SU)
  /-- UMAX_I64, R184. -/
  | umaxI64 (f : SU)
  /-- UMIN_N64, R184. -/
  | uminN64 (f : SU)
  /-- UMAX_N64, R184. -/
  | umaxN64 (f : SU)
  /-- UINS8, R184. -/
  | uins8 (f : SUImm)
  /-- UAND, R186. -/
  | uand (f : SU)
  /-- UOR, R186. -/
  | uor (f : SU)
  /-- UXOR, R186. -/
  | uxor (f : SU)
  /-- UANDN, R186. -/
  | uandn (f : SU)
  /-- USHL, R186. -/
  | ushl (f : SU)
  /-- USHR_N64, R186. -/
  | ushrN64 (f : SU)
  /-- USHR_I64, R186. -/
  | ushrI64 (f : SU)
  /-- UROT, R186. -/
  | urot (f : SU)
  /-- USEQ, R186. -/
  | useq (f : SU)
  /-- USNE, R186. -/
  | usne (f : SU)
  /-- USLT_I64, R186. -/
  | usltI64 (f : SU)
  /-- USLT_N64, R186. -/
  | usltN64 (f : SU)
  /-- USLE_I64, R186. -/
  | usleI64 (f : SU)
  /-- USLE_N64, R186. -/
  | usleN64 (f : SU)
  /-- UPOPC, R187. -/
  | upopc (f : SUUn)
  /-- UCLZ, R187. -/
  | uclz (f : SUUn)
  /-- BRA, R172. -/
  | bra (f : SB)
  /-- CALL, R189. -/
  | call (f : SB)
  /-- JMP, R190. -/
  | jmp (f : SCw)
  /-- CALLR, R190. -/
  | callr (f : SCw)
  /-- RET, R190. -/
  | ret (f : SCg)
  /-- BWZ, R190. -/
  | bwz (f : SCb)
  /-- BWNZ, R190. -/
  | bwnz (f : SCb)
  /-- RCV, R192. -/
  | rcv (f : SCm)
  /-- EXIT, R193. -/
  | exit (f : SCg)
  /-- YIELD, R194. -/
  | yield (f : SCg)
  /-- LOOP, R191. -/
  | loop (f : SCb)
  /-- SYSC, R196. -/
  | sysc (f : SCs)
  /-- BRK, R196. -/
  | brk (f : SCn)
  /-- TRET, R330. -/
  | tret (f : SCm)
  /-- FEND, R335. -/
  | fend (c : Bool)
  /-- CEND, R336. -/
  | cend (f : SCc)
  /-- DHALT, R334. -/
  | dhalt (f : SCm)
  /-- PAND, R197. -/
  | pand (f : SP3)
  /-- POR, R197. -/
  | por (f : SP3)
  /-- PXOR, R197. -/
  | pxor (f : SP3)
  /-- PANDN, R197. -/
  | pandn (f : SP3)
  /-- PNOT, R197. -/
  | pnot (f : SP2)
  /-- PLT, R197. -/
  | plt (f : SPn)
  /-- SRR, R198. -/
  | srr (f : SR)
  /-- SRW, R198. -/
  | srw (f : SR)
  /-- PUSH, R267. -/
  | push (f : SEpush)
  /-- QPOP, R274. -/
  | qpop (f : SEpop)
  /-- QCLAIM, R59. -/
  | qclaim (f : SEport)
  /-- QPUT, R59. -/
  | qput (f : SEport)
  /-- HWAIT, R270. -/
  | hwait (f : SEh)
  /-- HTEST, R271. -/
  | htest (f : SEh)
  /-- HCANCEL, R272. -/
  | hcancel (f : SEhc)
  /-- HGET, R273. -/
  | hget (f : SEh)
  /-- HSET, R273. -/
  | hset (f : SEh)
  /-- SSET, R261. -/
  | sset (f : SEs)
  /-- SGET, R261. -/
  | sget (f : SEs)
  /-- WINIT, R280. -/
  | winit (f : SEw)
  /-- WARR, R280. -/
  | warr (f : SEws)
  /-- WEXP, R280. -/
  | wexp (f : SEw)
  /-- WWAIT, R280. -/
  | wwait (f : SEww)
  /-- VADD, R214. -/
  | vadd (f : LV)
  /-- VSUB, R214. -/
  | vsub (f : LV)
  /-- VMUL, R214. -/
  | vmul (f : LV)
  /-- VMULH, R214. -/
  | vmulh (f : LV)
  /-- VMAD, R214. -/
  | vmad (f : LV)
  /-- VDIV, R215. -/
  | vdiv (f : LV)
  /-- VREM, R215. -/
  | vrem (f : LV)
  /-- VMIN, R214. -/
  | vmin (f : LV)
  /-- VMAX, R214. -/
  | vmax (f : LV)
  /-- VABS, R214. -/
  | vabs (f : LV)
  /-- VNEG, R214. -/
  | vneg (f : LV)
  /-- VABSD, R214. -/
  | vabsd (f : LV)
  /-- VAND, R214. -/
  | vand (f : LV)
  /-- VOR, R214. -/
  | vor (f : LV)
  /-- VXOR, R214. -/
  | vxor (f : LV)
  /-- VANDN, R214. -/
  | vandn (f : LV)
  /-- VNOT, R214. -/
  | vnot (f : LV)
  /-- VSHL, R216. -/
  | vshl (f : LV)
  /-- VSHR, R216. -/
  | vshr (f : LV)
  /-- VROT, R216. -/
  | vrot (f : LV)
  /-- VPOPC, R214. -/
  | vpopc (f : LV)
  /-- VCLZ, R214. -/
  | vclz (f : LV)
  /-- VBREV, R214. -/
  | vbrev (f : LV)
  /-- VBFE, R217. -/
  | vbfe (f : LV)
  /-- VBFI, R217. -/
  | vbfi (f : LV)
  /-- VMOV, R214. -/
  | vmov (f : LV)
  /-- VFADD, R218. -/
  | vfadd (f : LV)
  /-- VFSUB, R218. -/
  | vfsub (f : LV)
  /-- VFMUL, R218. -/
  | vfmul (f : LV)
  /-- VFMA, R218. -/
  | vfma (f : LV)
  /-- VFMS, R218. -/
  | vfms (f : LV)
  /-- VFNMA, R218. -/
  | vfnma (f : LV)
  /-- VFDIV, R218. -/
  | vfdiv (f : LV)
  /-- VFSQRT, R218. -/
  | vfsqrt (f : LV)
  /-- VFMIN, R203. -/
  | vfmin (f : LV)
  /-- VFMAX, R203. -/
  | vfmax (f : LV)
  /-- VFABS, R220. -/
  | vfabs (f : LV)
  /-- VFNEG, R220. -/
  | vfneg (f : LV)
  /-- VFRINT, R221. -/
  | vfrint (f : LV)
  /-- VFSCALE, R221. -/
  | vfscale (f : LV)
  /-- VCMP, R223. -/
  | vcmp (cc : Cc) (f : LV)
  /-- VSET, R223. -/
  | vset (cc : Cc) (f : LV)
  /-- VSEL, R223. -/
  | vsel (f : LV)
  /-- VFCLASS, R224. -/
  | vfclass (f : LV)
  /-- VCVT, R228. -/
  | vcvt (f : LV)
  /-- VPKLO, R229. -/
  | vpklo (f : LV)
  /-- VPKHI, R229. -/
  | vpkhi (f : LV)
  /-- VUPKLO, R230. -/
  | vupklo (f : LV)
  /-- VUPKHI, R230. -/
  | vupkhi (f : LV)
  /-- VSCL, R231. -/
  | vscl (f : LV)
  /-- VRCP, R232. -/
  | vrcp (f : LV)
  /-- VRSQRT, R232. -/
  | vrsqrt (f : LV)
  /-- VEXP2, R232. -/
  | vexp2 (f : LV)
  /-- VLOG2, R232. -/
  | vlog2 (f : LV)
  /-- VSINPI, R232. -/
  | vsinpi (f : LV)
  /-- VCOSPI, R232. -/
  | vcospi (f : LV)
  /-- VTANH, R232. -/
  | vtanh (f : LV)
  /-- VFIRST, R200. -/
  | vfirst (f : LV)
  /-- VBALLOT, R200. -/
  | vballot (f : LV)
  /-- PSETW, R200. -/
  | psetw (f : LV)
  /-- VALL, R200. -/
  | vall (f : LV)
  /-- VANY, R200. -/
  | vany (f : LV)
  /-- VUNI, R200. -/
  | vuni (f : LV)
  /-- VLANE, R200. -/
  | vlane (f : LV)
  /-- SHFL_IDX, R201. -/
  | shflIdx (f : LV)
  /-- SHFL_UP, R201. -/
  | shflUp (f : LV)
  /-- SHFL_DOWN, R201. -/
  | shflDown (f : LV)
  /-- SHFL_XOR, R201. -/
  | shflXor (f : LV)
  /-- VRED_ADD, R202. -/
  | vredAdd (f : LV)
  /-- VRED_MIN, R202. -/
  | vredMin (f : LV)
  /-- VRED_MAX, R202. -/
  | vredMax (f : LV)
  /-- VRED_AND, R202. -/
  | vredAnd (f : LV)
  /-- VRED_OR, R202. -/
  | vredOr (f : LV)
  /-- VRED_XOR, R202. -/
  | vredXor (f : LV)
  /-- VSCAN_ADD, R204. -/
  | vscanAdd (f : LV)
  /-- VSCAN_MIN, R204. -/
  | vscanMin (f : LV)
  /-- VSCAN_MAX, R204. -/
  | vscanMax (f : LV)
  /-- VSCANX_ADD, R204. -/
  | vscanxAdd (f : LV)
  /-- VSCANX_MIN, R204. -/
  | vscanxMin (f : LV)
  /-- VSCANX_MAX, R204. -/
  | vscanxMax (f : LV)
  /-- XACQ, R71. -/
  | xacq (f : LX0)
  /-- XREL, R69. -/
  | xrel (f : LX0)
  /-- LD, R243. -/
  | ld (f : LM)
  /-- LD_ACQ, R243. -/
  | ldAcq (f : LM)
  /-- LDW, R243. -/
  | ldw (f : LM)
  /-- LDW_ACQ, R243. -/
  | ldwAcq (f : LM)
  /-- ST, R246. -/
  | st (f : LM)
  /-- ST_REL, R246. -/
  | stRel (f : LM)
  /-- STW, R246. -/
  | stw (f : LM)
  /-- STW_REL, R246. -/
  | stwRel (f : LM)
  /-- GTH, R248. -/
  | gth (f : LM)
  /-- SCT, R248. -/
  | sct (f : LM)
  /-- ATOM_ADD, R250. -/
  | atomAdd (f : LA)
  /-- ATOM_MIN, R250. -/
  | atomMin (f : LA)
  /-- ATOM_MAX, R250. -/
  | atomMax (f : LA)
  /-- ATOM_AND, R250. -/
  | atomAnd (f : LA)
  /-- ATOM_OR, R250. -/
  | atomOr (f : LA)
  /-- ATOM_XOR, R250. -/
  | atomXor (f : LA)
  /-- ATOM_EXCH, R250. -/
  | atomExch (f : LA)
  /-- ATOM_CAS, R250. -/
  | atomCas (f : LA)
  /-- ATOM_FADD, R251. -/
  | atomFadd (f : LA)
  /-- WAITA, R256. -/
  | waita (f : LW)
  /-- PF, R258. -/
  | pf (f : LP)
  /-- FENCE_ACQ, R144. -/
  | fenceAcq (f : LF)
  /-- FENCE_REL, R144. -/
  | fenceRel (f : LF)
  /-- FENCE_FULL, R144. -/
  | fenceFull (f : LF)
  /-- FENCE_SPEC, R145. -/
  | fenceSpec (f : LF)
  /-- FENCE_XP, R150. -/
  | fenceXp (f : LFx)
  /-- CSET, R283. -/
  | cset (f : LC)
  /-- CCLR, R283. -/
  | cclr (f : LC)
  /-- CGET, R283. -/
  | cget (f : LC)
  /-- TFR, R329. -/
  | tfr (f : LT)
  /-- TFW, R329. -/
  | tfw (f : LT)
  /-- SVCPOST, R338. -/
  | svcpost (f : LR1)
  /-- SVCTAKE, R339. -/
  | svctake (f : LRd)
  /-- FQTAKE, R359. -/
  | fqtake (f : LRd)
  /-- FQDONE, R360. -/
  | fqdone (f : LRi)
  /-- TLBINV_ASID, R364. -/
  | tlbinvAsid (f : LR1)
  /-- TLBINV_PAGE, R364. -/
  | tlbinvPage (f : LR2)
  /-- TLBINV_NONG, R364. -/
  | tlbinvNong (f : LX0)
  /-- TLBINV_ALL, R364. -/
  | tlbinvAll (f : LX0)
  /-- ACRD, R368. -/
  | acrd (f : LRda)
  /-- RD, R378. -/
  | rd (n : Nat)
  /-- WR, R378. -/
  | wr (n : Nat)
  /-- TOK, R378. -/
  | tok (n : Nat)
  /-- PREQ, R310. -/
  | preq (n : Nat)
  /-- PACT, R310. -/
  | pact (n : Nat)
  /-- PDEACT, R310. -/
  | pdeact (n : Nat)
  /-- LOST, R383. -/
  | lost (n : Nat)
  /-- RECOVER, R384. -/
  | recover (n : Nat)
  /-- REISSUE, R385. -/
  | reissue (n : Nat)
  /-- TRANSIENT_TIMEOUT, R380. -/
  | transientTimeout (agent sector : Nat)
  /-- PERSISTENT_TIMEOUT, R383. -/
  | persistentTimeout (sector : Nat)
  /-- ORDERED_TIMEOUT, R389. -/
  | orderedTimeout (agent sector : Nat)
  /-- RECOVERY_WINDOW_END, R384. -/
  | recoveryWindowEnd (sector : Nat)
  /-- MESSAGE_DROP, R376. -/
  | messageDrop (n : Nat)
  /-- ISSUE_SELECTION, R35. -/
  | issueSelection (core quarter dt : Nat)
  /-- INSTRUCTION_COMPLETE, R80. -/
  | instructionComplete (core slot : Nat)
  /-- FENCE_COMPLETE, R144. -/
  | fenceComplete (core slot : Nat)
  /-- TXE_CHUNK_LAND, R293. -/
  | txeChunkLand (cmd chunk : Nat)
  /-- GXE_ROW_DELIVER, R263. -/
  | gxeRowDeliver (cmd : Nat)
  /-- CXE_CHUNK_ARRIVE, R302. -/
  | cxeChunkArrive (coll rank chunk : Nat) (ext : List (Nat × List Byte))
  /-- ENGINE_COMPLETE, R282. -/
  | engineComplete (cmd : Nat)
  /-- SQ_ENTRY_LAUNCH, R420. -/
  | sqEntryLaunch (vf q : Nat)
  /-- SQ_ENTRY_CANCEL, R420. -/
  | sqEntryCancel (vf q : Nat)
  /-- FIELD_PLACE, R399. -/
  | fieldPlace (part : Nat)
  /-- SCHEME_EVALUATE, R401. -/
  | schemeEvaluate (scheme : Nat)
  /-- PREEMPT_REQUEST, R402. -/
  | preemptRequest (part : Nat)
  /-- PREEMPT_COLLECT_COMPLETE, R404. -/
  | preemptCollectComplete (field : Nat)
  /-- SCHEME_TIMEOUT, R398. -/
  | schemeTimeout (scheme : Nat)
  /-- SCRUB_COMPLETE, R414. -/
  | scrubComplete (quad : Nat)
  /-- CTX_CREATE, R423. -/
  | ctxCreate (pf vf descr : Nat)
  /-- CTX_DESTROY, R422. -/
  | ctxDestroy (pf vf : Nat)
  /-- GROUP_SET, R430. -/
  | groupSet (pf vf gid ranks timeout table : Nat)
  /-- QUEUE_RESET, R426. -/
  | queueReset (pf vf q : Nat)
  /-- QUAD_ASSIGN, R414. -/
  | quadAssign (pf quad part : Nat)
  /-- COUNTERS_READ, R434. -/
  | countersRead (pf die : Nat)
  /-- FW_OFFER, R437. -/
  | fwOffer (pf addr size : Nat)
  /-- ATTEST, R439. -/
  | attest (pf addr : Nat) (nonce : List Byte)
  /-- DBG_WRITE, R440. -/
  | dbgWrite (pf vf : Nat) (msg : List Byte)
  /-- LINK_STATUS, R422. -/
  | linkStatus (pf : Nat)
  /-- VF_BIND, R416. -/
  | vfBind (pf vf ld : Nat)
  /-- SQ_CLAIM, R426. -/
  | sqClaim (vf q gen : Nat)
  /-- TASID_S_WRITE, R349. -/
  | tasidSWrite (ctx asid : Nat)
  /-- REGISTER_WRITE, R418. -/
  | registerWrite (vf off val : Nat)
  /-- LD_DETACH, R424. -/
  | ldDetach (ld : Nat)
  /-- LD_REATTACH, R426. -/
  | ldReattach (ld : Nat)
  /-- ORPHAN_TIMEOUT, R427. -/
  | orphanTimeout (ctx : Nat)
  /-- MAILBOX_TAIL_OBSERVE, R440. -/
  | mailboxTailObserve (ctx : Nat)
  /-- HOLDER_EVICT, R378. -/
  | holderEvict (agent sector : Nat)
  /-- TOKEN_STATE_ERROR, R383. -/
  | tokenStateError (agent sector : Nat) (unreadable : Bool)
  /-- SNPDATA, R393. -/
  | snpdata (sector : Nat)
  /-- SNPINV, R393. -/
  | snpinv (sector : Nat) (data : Option (List Byte))
  /-- SNPCUR, R393. -/
  | snpcur (sector : Nat)
  /-- BACK_INVALIDATE_RESPONSE, R394. -/
  | backInvalidateResponse (sector : Nat)
  /-- COH_MODE_WRITE, R390. -/
  | cohModeWrite (mode : Bool)
  /-- COH_MODE_DRAIN_END, R390. -/
  | cohModeDrainEnd
  /-- LINK_FAILURE, R428. -/
  | linkFailure (port : Nat)
  /-- POWER_LIMIT, R442. -/
  | powerLimit (island : Nat)
  /-- THERMAL_THROTTLE, R442. -/
  | thermalThrottle (die : Nat)
  /-- THERMAL_HALT, R442. -/
  | thermalHalt
  /-- POWER_ON_RESET, R443. -/
  | powerOnReset
  /-- CXL_MEM_REQUEST, R394. -/
  | cxlMemRequest (host pa : Nat) (data : Option (List Byte))
  /-- CXL_CACHE_RESPONSE, R393. -/
  | cxlCacheResponse (sector : Nat)
  /-- POD_AGENT_REQUEST, R392. -/
  | podAgentRequest (pkg pa : Nat) (access : OuterAccess)
  /-- PEER_LINE_REREAD, R256. -/
  | peerLineReread (core slot : Nat)
  /-- RECOVER_RECORD_EXPIRY, R386. -/
  | recoverRecordExpiry (agent sector : Nat)
  /-- FM_API_REQUEST, R416. -/
  | fmApiRequest (grant : Bool) (ld host : Nat)
  /-- MODULE_POWER_REMOVAL, R441. -/
  | modulePowerRemoval
  /-- TRAP_PERMIT_RETRY, R323. -/
  | trapPermitRetry (core slot : Nat)
  /-- WATCHDOG, R47. -/
  | watchdog (core slot : Nat)
  /-- HALT_REQUEST_ARRIVE, R334. -/
  | haltRequestArrive (n : Nat)
  /-- XACQ_GRANT, R71. -/
  | xacqGrant (core quarter : Nat)
  /-- REGISTER_RELOAD, R73. -/
  | registerReload (core slot : Nat)
  /-- FIELD_RETIRE, R53. -/
  | fieldRetire (field : Nat)
  /-- MMA, R288. -/
  | mma (cmd : Nat)
  /-- COPY, R293. -/
  | copy (cmd : Nat)
  /-- STREAM, R297. -/
  | stream (cmd : Nat)
  /-- ALLREDUCE, R299. -/
  | allreduce (cmd : Nat)
  /-- REDUCE_SCATTER, R299. -/
  | reduceScatter (cmd : Nat)
  /-- ALLGATHER, R299. -/
  | allgather (cmd : Nat)
  /-- BROADCAST, R299. -/
  | broadcast (cmd : Nat)
  /-- SEND, R299. -/
  | send (cmd : Nat)
  /-- MXE_KSTEP, R291. -/
  | mxeKstep (cmd : Nat)
  /-- COLLECTIVE_START, R300. -/
  | collectiveStart (ctx gid : Nat) (fabric : FabricStart)
  /-- COLLECTIVE_TIMEOUT, R301. -/
  | collectiveTimeout (loss : RankLoss)
  /-- COLLECTIVE_REDO, R433. -/
  | collectiveRedo (coll : Nat) (plane : Option Nat)
  /-- PAGE_WALK, R351. -/
  | pageWalk (n : Nat)
  /-- SQ_TAIL, R419. -/
  | sqTail (vf q tail : Nat)
  deriving DecidableEq, Repr

/-- The rows that are no instruction of a furrow: commands an engine starts, events and management commands. -/
def Instr.isEvent : Instr → Bool
  | .issueSelection _ _ _ => true
  | .instructionComplete _ _ => true
  | .fenceComplete _ _ => true
  | .trapPermitRetry _ _ => true
  | .watchdog _ _ => true
  | .haltRequestArrive _ => true
  | .xacqGrant _ _ => true
  | .registerReload _ _ => true
  | .fieldRetire _ => true
  | .mma _ => true
  | .copy _ => true
  | .stream _ => true
  | .allreduce _ => true
  | .reduceScatter _ => true
  | .allgather _ => true
  | .broadcast _ => true
  | .send _ => true
  | .mxeKstep _ => true
  | .txeChunkLand _ _ => true
  | .gxeRowDeliver _ => true
  | .cxeChunkArrive _ _ _ _ => true
  | .engineComplete _ => true
  | .collectiveStart _ _ _ => true
  | .collectiveTimeout _ => true
  | .collectiveRedo _ _ => true
  | .pageWalk _ => true
  | .sqTail _ _ _ => true
  | .sqEntryLaunch _ _ => true
  | .sqEntryCancel _ _ => true
  | .fieldPlace _ => true
  | .schemeEvaluate _ => true
  | .preemptRequest _ => true
  | .preemptCollectComplete _ => true
  | .schemeTimeout _ => true
  | .scrubComplete _ => true
  | .ctxCreate _ _ _ => true
  | .ctxDestroy _ _ => true
  | .groupSet _ _ _ _ _ _ => true
  | .queueReset _ _ _ => true
  | .quadAssign _ _ _ => true
  | .countersRead _ _ => true
  | .fwOffer _ _ _ => true
  | .attest _ _ _ => true
  | .dbgWrite _ _ _ => true
  | .linkStatus _ => true
  | .vfBind _ _ _ => true
  | .sqClaim _ _ _ => true
  | .tasidSWrite _ _ => true
  | .registerWrite _ _ _ => true
  | .ldDetach _ => true
  | .ldReattach _ => true
  | .orphanTimeout _ => true
  | .mailboxTailObserve _ => true
  | .rd _ => true
  | .wr _ => true
  | .tok _ => true
  | .preq _ => true
  | .pact _ => true
  | .pdeact _ => true
  | .lost _ => true
  | .recover _ => true
  | .reissue _ => true
  | .transientTimeout _ _ => true
  | .persistentTimeout _ => true
  | .orderedTimeout _ _ => true
  | .recoveryWindowEnd _ => true
  | .messageDrop _ => true
  | .holderEvict _ _ => true
  | .tokenStateError _ _ _ => true
  | .snpdata _ => true
  | .snpinv _ _ => true
  | .snpcur _ => true
  | .backInvalidateResponse _ => true
  | .cohModeWrite _ => true
  | .cohModeDrainEnd => true
  | .linkFailure _ => true
  | .powerLimit _ => true
  | .thermalThrottle _ => true
  | .thermalHalt => true
  | .powerOnReset => true
  | .cxlMemRequest _ _ _ => true
  | .cxlCacheResponse _ => true
  | .podAgentRequest _ _ _ => true
  | .peerLineReread _ _ => true
  | .recoverRecordExpiry _ _ => true
  | .fmApiRequest _ _ _ => true
  | .modulePowerRemoval => true
  | _ => false

end Sys2Proof
end

