-- ==== Sys2Proof/Decode.lean ====
section
/-! DEFINITION. Words to instructions and back (07_encoding R156, R161 to R166, R171 and each family's encoding table), the forms an
instruction word accepts, and what a chain may hold (R158, R159). A word is a natural number below 2^32. -/
namespace Sys2Proof

/-! ### Element types -/

/-- Width in bits of an element (R7, R209); 4 for a block element. -/
def Ty.width : Ty → Nat
  | .i8 | .n8 | .e4m3 | .e5m2 | .e8m0 => 8
  | .i16 | .n16 | .f16 | .bf16 => 16
  | .i32 | .n32 | .f32 => 32
  | .i64 | .n64 | .f64 => 64
  | .e2m1s => 4

/-- `.i8` to `.n64`. -/
def Ty.isInt : Ty → Bool
  | .i8 | .i16 | .i32 | .i64 | .n8 | .n16 | .n32 | .n64 => true
  | _ => false

/-- `.i8` to `.i64`. -/
def Ty.isSigned : Ty → Bool
  | .i8 | .i16 | .i32 | .i64 => true
  | _ => false

/-- The four arithmetic float types of major 0x11 (R218). -/
def Ty.isFloat : Ty → Bool
  | .f16 | .bf16 | .f32 | .f64 => true
  | _ => false

/-- `.n8` to `.n64`. -/
def Ty.isUnsigned (t : Ty) : Bool := t.isInt && !t.isSigned

/-- 32- or 64-bit integer types. -/
def Ty.isWideInt (t : Ty) : Bool := t.isInt && decide (32 ≤ t.width)

/-- The float types that `vcvt` accepts on both sides (R227). -/
def Ty.isConvFloat (t : Ty) : Bool := t.isFloat || t == .e4m3 || t == .e5m2

/-- The TY field (R166). -/
def Ty.code : Ty → Nat
  | .i8 => 0 | .i16 => 1 | .i32 => 2 | .i64 => 3 | .n8 => 4 | .n16 => 5 | .n32 => 6 | .n64 => 7
  | .f16 => 8 | .bf16 => 9 | .f32 => 10 | .f64 => 11 | .e4m3 => 12 | .e5m2 => 13 | .e2m1s => 14 | .e8m0 => 15

/-- The type a TY field names, its low four bits. -/
def Ty.ofCode (n : Nat) : Ty :=
  match n % 16 with
  | 0 => .i8 | 1 => .i16 | 2 => .i32 | 3 => .i64 | 4 => .n8 | 5 => .n16 | 6 => .n32 | 7 => .n64
  | 8 => .f16 | 9 => .bf16 | 10 => .f32 | 11 => .f64 | 12 => .e4m3 | 13 => .e5m2 | 14 => .e2m1s | _ => .e8m0

/-- The RM field (R166). -/
def Rm.code : Rm → Nat
  | .dyn => 0 | .rne => 1 | .rtz => 2 | .rdn => 3 | .rup => 4

/-- The rounding mode an RM field names; 5 to 7 are reserved. -/
def Rm.ofCode (n : Nat) : Option Rm :=
  match n % 8 with
  | 0 => some .dyn | 1 => some .rne | 2 => some .rtz | 3 => some .rdn | 4 => some .rup | _ => none

/-- The SCOPE field (R166). -/
def Scope.code : Scope → Nat
  | .thread => 0 | .furrow => 1 | .core => 2 | .quad => 3 | .die => 4 | .pkg => 5 | .pod => 6 | .sys => 7

/-- The scope a SCOPE field names, its low three bits. -/
def Scope.ofCode (n : Nat) : Scope :=
  match n % 8 with
  | 0 => .thread | 1 => .furrow | 2 => .core | 3 => .quad | 4 => .die | 5 => .pkg | 6 => .pod | _ => .sys

/-- The condition field of major 0x12 (R222). -/
def Cc.code : Cc → Nat
  | .eq => 0 | .ne => 1 | .lt => 2 | .le => 3 | .gt => 4 | .ge => 5 | .ord => 6 | .uno => 7

/-- The condition its low three bits name. -/
def Cc.ofCode (n : Nat) : Cc :=
  match n % 8 with
  | 0 => .eq | 1 => .ne | 2 => .lt | 3 => .le | 4 => .gt | 5 => .ge | 6 => .ord | _ => .uno

/-- The condition field of `waita` (R255). -/
def WaitCc.code : WaitCc → Nat
  | .eq => 0 | .ne => 1 | .lt => 2 | .ge => 3

/-- The condition its low two bits name. -/
def WaitCc.ofCode (n : Nat) : WaitCc :=
  match n % 4 with
  | 0 => .eq | 1 => .ne | 2 => .lt | _ => .ge

/-- The class number of `fence.xp` (R130, R259). -/
def Cls.code : Cls → Nat
  | .ls => 0 | .mxe => 1 | .txe => 2 | .gxe => 3 | .cxe => 4

/-- The class a number names; 5 to 15 are reserved. -/
def Cls.ofCode (n : Nat) : Option Cls :=
  match n % 16 with
  | 0 => some .ls | 1 => some .mxe | 2 => some .txe | 3 => some .gxe | 4 => some .cxe | _ => none

/-! ### Register alignment (R67, R163) -/

/-- An even register names a pair. -/
def evenReg (n : Fin 128) : Bool := n.val % 2 == 0
/-- A multiple of four names a quadruple. -/
def quadReg (n : Fin 128) : Bool := n.val % 4 == 0
/-- A register that may hold an operand of the given width. -/
def fitsReg (width : Nat) (n : Fin 128) : Bool :=
  if width = 64 then evenReg n else if width = 128 then quadReg n else true
/-- A 7-bit field that names a `w` register. -/
def wField (n : Fin 128) : Bool := decide (n.val < 64)
/-- A 7-bit field that names a predicate. -/
def pField (n : Fin 128) : Bool := decide (n.val < 8)

/-- BK of an operand: 0 `v`, 1 `w`, 2 IMM8. -/
def BOp.kind : BOp → Nat
  | .v _ => 0 | .w _ => 1 | .imm _ => 2

/-- An absent second operand is `v0` with BK = 0: all of B, BX and BK zero. -/
def BOp.isNone : BOp → Bool
  | .v n => n == 0
  | _ => false

/-- A `v` operand of the given width is aligned; other kinds always fit. -/
def BOp.fits (width : Nat) : BOp → Bool
  | .v n => fitsReg width n
  | _ => true

/-! ### What each row accepts (R163, R166, R171, R212 and the rows' own tables) -/

/-- A vector row: the type is accepted, RM is 0 unless the row rounds, SAT only where the row saturates, b of an accepted kind. -/
def LV.basic (f : LV) (tyOk rmOk satOk immOk : Bool) : Bool :=
  tyOk && (rmOk || f.rm == .dyn) && (satOk || !f.sat) && (immOk || f.b.kind != 2)

/-- A binary row of R214, R218: aligned `v` operands, no third source. -/
def LV.binary (f : LV) (tyOk rmOk satOk : Bool) : Bool :=
  f.basic tyOk rmOk satOk true && fitsReg f.ty.width f.d && fitsReg f.ty.width f.a && f.b.fits f.ty.width && f.c3 == 0

/-- A unary row (R210): BK = 0 and B = 0. -/
def LV.unary (f : LV) (tyOk rmOk satOk : Bool) : Bool :=
  f.basic tyOk rmOk satOk true && fitsReg f.ty.width f.d && fitsReg f.ty.width f.a && f.b.isNone && f.c3 == 0

/-- A row with a third `v` source. -/
def LV.ternary (f : LV) (tyOk rmOk satOk immOk : Bool) : Bool :=
  f.basic tyOk rmOk satOk immOk && fitsReg f.ty.width f.d && fitsReg f.ty.width f.a && f.b.fits f.ty.width
    && fitsReg f.ty.width f.c3

/-- A row of major 0x15 whose TY, RM and SAT are all marked "—" (R199). -/
def LV.plain (f : LV) : Bool := f.ty == .i8 && f.rm == .dyn && !f.sat && f.b.isNone && f.c3 == 0

/-- A position names an element of the type (R226). -/
def posOk (t : Ty) (p : Nat) : Bool := decide (p * t.width < 32) || p == 0

/-- The source type, source position and destination position of a `vcvt` immediate (R226). -/
def cvtParts (imm : BitVec 8) : Ty × Nat × Nat := (Ty.ofCode imm.toNat, imm.toNat / 16 % 4, imm.toNat / 64)

/-- The accepted pairs of `vcvt`, with their RM and SAT (R227). -/
def cvtOk (src dst : Ty) (rm : Rm) (sat : Bool) : Bool :=
  if src == dst then false
  else if src == .e8m0 then dst.isFloat && !sat
  else if src.isConvFloat && dst.isConvFloat then !sat || dst == .e4m3 || dst == .e5m2
  else if src.isConvFloat && dst.isInt then !sat
  else if src.isInt && dst.isConvFloat then !sat
  else if src.isInt && dst.isInt then rm == .dyn
  else false

/-- Forms of `vcvt` (R226, R227). -/
def LV.cvt (f : LV) : Bool :=
  match f.b with
  | .imm i =>
    let (src, sp, dp) := cvtParts i
    cvtOk src f.ty f.rm f.sat && posOk src sp && posOk f.ty dp && fitsReg src.width f.a && fitsReg f.ty.width f.d && f.c3 == 0
  | _ => false

/-- The types of the furrow reductions and scans with arithmetic order (R202, R204). -/
def Ty.isFold (t : Ty) : Bool := t.isWideInt || t == .f32 || t == .f64

/-- A load's TY and X2 (R238). -/
def loadTy (t : Ty) (x2 : Bool) : Bool :=
  match t with
  | .i8 | .i16 | .n8 | .n16 | .n32 => !x2
  | .n64 => true
  | _ => false

/-- A store's TY and X2 (R238). -/
def storeTy (t : Ty) (x2 : Bool) : Bool :=
  match t with
  | .n8 | .n16 | .n32 => !x2
  | .n64 => true
  | _ => false

/-- Width in bits of a lane's memory operand (R238). -/
def memWidth (t : Ty) (x2 : Bool) : Nat := if x2 then 128 else t.width

/-- The address operand of R236: base by AM, offset kinds, SCL only with a `v` offset. -/
def addrOk (am : Bool) (a : Fin 128) (b : BOp) (scl : Fin 4) : Bool :=
  (if am then evenReg a else wField a) && (scl == 0 || b.kind == 0)

/-- Loads and gathers into `v` registers (R243, R247). -/
def LM.load (f : LM) (acq volOk : Bool) : Bool :=
  loadTy f.ty f.x2 && addrOk f.am f.a f.b f.scl && fitsReg (memWidth f.ty f.x2) f.d && f.c3 == 0
    && (acq == (f.scope != .thread)) && (volOk || !f.vol)

/-- Stores and scatters from `v` registers (R246, R247). -/
def LM.store (f : LM) (rel : Bool) : Bool :=
  storeTy f.ty f.x2 && addrOk f.am f.a f.b f.scl && fitsReg (memWidth f.ty f.x2) f.c3 && f.d == 0
    && (rel == (f.scope != .thread)) && !f.vol

/-- Uniform loads (R243). -/
def LM.loadW (f : LM) (acq volOk : Bool) : Bool :=
  f.ty.isInt && f.ty != .i64 && !f.x2 && !f.am && f.b.kind != 0 && wField f.a && f.scl == 0 && wField f.d && f.c3 == 0
    && (acq == (f.scope != .thread)) && (volOk || !f.vol)

/-- Uniform stores (R246). -/
def LM.storeW (f : LM) (rel : Bool) : Bool :=
  f.ty.isUnsigned && !f.x2 && !f.am && f.b.kind != 0 && wField f.a && f.scl == 0 && wField f.c3 && f.d == 0
    && (rel == (f.scope != .thread)) && !f.vol

/-- Atomics: address, SCOPE by ORD, alignment (R249, R250); a `cas` operand is twice as wide. -/
def LA.ok (f : LA) (tyOk cas : Bool) : Bool :=
  tyOk && addrOk f.am f.a f.b 0 && ((f.ord == 0) == (f.scope == .thread)) && fitsReg f.ty.width f.d
    && fitsReg (if cas then 2 * f.ty.width else f.ty.width) f.c3

/-- The selectors of R329. -/
def frameSelOk (sel : BitVec 6) : Bool := sel == 0 || sel == 1 || sel == 2 || sel.toNat / 16 == 1
/-- A 64-bit selector. -/
def frameSelWide (sel : BitVec 6) : Bool := sel == 1 || sel == 2

/-- Whether the fields of an instruction hold only values its row accepts: every other value is reserved and raises the
illegal-instruction trap (R6, R163, R166, R212). An event has no encoding and is no word. -/
def Instr.accepts : Instr → Bool
  | .clause f => f.len != 0
  | .nop _ => true
  | .uadd _ => true
  | .usub _ => true
  | .ursub _ => true
  | .umul _ => true
  | .umulhI64 _ => true
  | .umulhN64 _ => true
  | .udivI64 _ => true
  | .udivN64 _ => true
  | .uremI64 _ => true
  | .uremN64 _ => true
  | .uminI64 _ => true
  | .umaxI64 _ => true
  | .uminN64 _ => true
  | .umaxN64 _ => true
  | .uins8 _ => true
  | .uand _ => true
  | .uor _ => true
  | .uxor _ => true
  | .uandn _ => true
  | .ushl _ => true
  | .ushrN64 _ => true
  | .ushrI64 _ => true
  | .urot _ => true
  | .useq _ => true
  | .usne _ => true
  | .usltI64 _ => true
  | .usltN64 _ => true
  | .usleI64 _ => true
  | .usleN64 _ => true
  | .upopc _ => true
  | .uclz _ => true
  | .bra f => decide (f.pkt.toNat ≤ 1398100)
  | .call f => decide (f.pkt.toNat ≤ 1398100)
  | .jmp _ => true
  | .callr _ => true
  | .ret _ => true
  | .bwz _ => true
  | .bwnz _ => true
  | .rcv _ => true
  | .exit _ => true
  | .yield _ => true
  | .loop _ => true
  | .sysc _ => true
  | .brk _ => true
  | .tret _ => true
  | .fend _ => true
  | .cend _ => true
  | .dhalt _ => true
  | .pand _ => true
  | .por _ => true
  | .pxor _ => true
  | .pandn _ => true
  | .pnot _ => true
  | .plt f => decide (f.n.toNat ≤ 32)
  | .srr _ => true
  | .srw _ => true
  | .push f => decide (f.wa.val ≤ (if f.q.val % 2 == 0 then 60 else 56)) && (f.q == 0 || f.sel == 0)
  | .qpop _ => true
  | .qclaim _ => true
  | .qput _ => true
  | .hwait _ => true
  | .htest _ => true
  | .hcancel _ => true
  | .hget _ => true
  | .hset _ => true
  | .sset _ => true
  | .sget _ => true
  | .winit f => f.wa != 63
  | .warr _ => true
  | .wexp f => f.wa != 63
  | .wwait _ => true
  | .vadd f => f.binary f.ty.isInt false true
  | .vsub f => f.binary f.ty.isInt false true
  | .vmul f => f.binary f.ty.isInt false true
  | .vmulh f => f.binary f.ty.isInt false false
  | .vmad f => f.ternary f.ty.isInt false true true
  | .vdiv f => f.binary f.ty.isWideInt false false
  | .vrem f => f.binary f.ty.isWideInt false false
  | .vmin f => f.binary f.ty.isInt false false
  | .vmax f => f.binary f.ty.isInt false false
  | .vabs f => f.unary f.ty.isSigned false true
  | .vneg f => f.unary f.ty.isSigned false true
  | .vabsd f => f.binary f.ty.isInt false true
  | .vand f => f.binary (f.ty == .n32 || f.ty == .n64) false false
  | .vor f => f.binary (f.ty == .n32 || f.ty == .n64) false false
  | .vxor f => f.binary (f.ty == .n32 || f.ty == .n64) false false
  | .vandn f => f.binary (f.ty == .n32 || f.ty == .n64) false false
  | .vnot f => f.unary (f.ty == .n32 || f.ty == .n64) false false
  | .vshl f => f.binary f.ty.isInt false false
  | .vshr f => f.binary f.ty.isInt false false
  | .vrot f => f.binary f.ty.isUnsigned false false
  | .vpopc f => f.unary f.ty.isUnsigned false false
  | .vclz f => f.unary f.ty.isUnsigned false false
  | .vbrev f => f.unary (f.ty == .n32 || f.ty == .n64) false false
  | .vbfe f => f.binary f.ty.isWideInt false false && f.b.kind != 2
  | .vbfi f => f.ternary (f.ty == .n32 || f.ty == .n64) false false false
  | .vmov f => f.binary (f.ty == .n32 || f.ty == .n64) false false && f.a == 0
  | .vfadd f => f.binary f.ty.isFloat true false
  | .vfsub f => f.binary f.ty.isFloat true false
  | .vfmul f => f.binary f.ty.isFloat true false
  | .vfma f => f.ternary f.ty.isFloat true false true
  | .vfms f => f.ternary f.ty.isFloat true false true
  | .vfnma f => f.ternary f.ty.isFloat true false true
  | .vfdiv f => f.binary f.ty.isFloat true false
  | .vfsqrt f => f.unary f.ty.isFloat true false
  | .vfmin f => f.binary f.ty.isFloat false false
  | .vfmax f => f.binary f.ty.isFloat false false
  | .vfabs f => f.unary f.ty.isFloat false false
  | .vfneg f => f.unary f.ty.isFloat false false
  | .vfrint f => f.unary f.ty.isFloat true false
  | .vfscale f => f.binary f.ty.isFloat true false
  | .vcmp cc f => (cc != .ord && cc != .uno || f.ty.isFloat) && f.basic f.ty.isFold false false true && pField f.d
      && fitsReg f.ty.width f.a && f.b.fits f.ty.width && f.c3 == 0
  | .vset cc f => (cc != .ord && cc != .uno || f.ty.isFloat) && f.binary (f.ty.isInt || f.ty.isFloat) false false
  | .vsel f => f.basic (f.ty == .n32 || f.ty == .n64) false false true && fitsReg f.ty.width f.d && fitsReg f.ty.width f.a
      && f.b.fits f.ty.width && pField f.c3
  | .vfclass f => f.unary f.ty.isFloat false false
  | .vcvt f => f.cvt
  | .vpklo f => f.basic (f.ty == .f32) false false true && quadReg f.a && f.c3 == 0
  | .vpkhi f => f.basic (f.ty == .f32) false false true && quadReg f.a && f.c3 == 0
  | .vupklo f => f.basic (f.ty == .f32) true false true && quadReg f.d && f.c3 == 0
  | .vupkhi f => f.basic (f.ty == .f32) true false true && quadReg f.d && f.c3 == 0
  | .vscl f => f.basic (f.ty == .e8m0) false false true && f.c3 == 0 && (f.b == .imm 12 || f.b == .imm 13 || f.b == .imm 14)
  | .vrcp f => f.unary (f.ty == .f32 || f.ty == .f16) false false
  | .vrsqrt f => f.unary (f.ty == .f32 || f.ty == .f16) false false
  | .vexp2 f => f.unary (f.ty == .f32 || f.ty == .f16) false false
  | .vlog2 f => f.unary (f.ty == .f32 || f.ty == .f16) false false
  | .vsinpi f => f.unary (f.ty == .f32 || f.ty == .f16) false false
  | .vcospi f => f.unary (f.ty == .f32 || f.ty == .f16) false false
  | .vtanh f => f.unary (f.ty == .f32 || f.ty == .f16) false false
  | .vfirst f => f.basic f.ty.isFold false false true && wField f.d && fitsReg f.ty.width f.a && f.b.isNone && f.c3 == 0
  | .vballot f => f.plain && wField f.d && pField f.a
  | .psetw f => f.plain && pField f.d && wField f.a
  | .vall f => f.plain && pField f.d && pField f.a
  | .vany f => f.plain && pField f.d && pField f.a
  | .vuni f => f.basic (f.ty == .n32 || f.ty == .n64) false false true && pField f.d && fitsReg f.ty.width f.a && f.b.isNone && f.c3 == 0
  | .vlane f => f.plain && f.a == 0
  | .shflIdx f => f.basic (f.ty == .n32 || f.ty == .n64) false false true && fitsReg f.ty.width f.d
      && fitsReg f.ty.width f.a && f.c3 == 0
  | .shflUp f => f.basic (f.ty == .n32 || f.ty == .n64) false false true && fitsReg f.ty.width f.d
      && fitsReg f.ty.width f.a && f.c3 == 0
  | .shflDown f => f.basic (f.ty == .n32 || f.ty == .n64) false false true && fitsReg f.ty.width f.d
      && fitsReg f.ty.width f.a && f.c3 == 0
  | .shflXor f => f.basic (f.ty == .n32 || f.ty == .n64) false false true && fitsReg f.ty.width f.d
      && fitsReg f.ty.width f.a && f.c3 == 0
  | .vredAdd f => f.unary f.ty.isFold f.ty.isFloat f.ty.isInt
  | .vredMin f => f.unary f.ty.isFold false false
  | .vredMax f => f.unary f.ty.isFold false false
  | .vredAnd f => f.unary (f.ty == .n32 || f.ty == .n64) false false
  | .vredOr f => f.unary (f.ty == .n32 || f.ty == .n64) false false
  | .vredXor f => f.unary (f.ty == .n32 || f.ty == .n64) false false
  | .vscanAdd f => f.unary f.ty.isFold f.ty.isFloat false
  | .vscanMin f => f.unary f.ty.isFold false false
  | .vscanMax f => f.unary f.ty.isFold false false
  | .vscanxAdd f => f.unary f.ty.isFold f.ty.isFloat false
  | .vscanxMin f => f.unary f.ty.isFold false false
  | .vscanxMax f => f.unary f.ty.isFold false false
  | .xacq _ => true
  | .xrel _ => true
  | .ld f => f.load false true
  | .ldAcq f => f.load true false
  | .ldw f => f.loadW false true
  | .ldwAcq f => f.loadW true false
  | .st f => f.store false
  | .stRel f => f.store true
  | .stw f => f.storeW false
  | .stwRel f => f.storeW true
  | .gth f => f.load false true
  | .sct f => f.store false
  | .atomAdd f => f.ok f.ty.isWideInt false
  | .atomMin f => f.ok f.ty.isWideInt false
  | .atomMax f => f.ok f.ty.isWideInt false
  | .atomAnd f => f.ok (f.ty == .n32 || f.ty == .n64) false
  | .atomOr f => f.ok (f.ty == .n32 || f.ty == .n64) false
  | .atomXor f => f.ok (f.ty == .n32 || f.ty == .n64) false
  | .atomExch f => f.ok (f.ty == .n32 || f.ty == .n64) false
  | .atomCas f => f.ok (f.ty == .n32 || f.ty == .n64) true
  | .atomFadd f => f.ok (f.ty == .f32 || f.ty == .f64) false
  | .waita f => f.ty.isWideInt && addrOk f.am f.a f.b 0 && fitsReg f.ty.width f.d && fitsReg f.ty.width f.c3
  | .pf f => addrOk f.am f.a f.b 0
  | .fenceAcq f => f.scope != .thread
  | .fenceRel f => f.scope != .thread
  | .fenceFull f => f.scope != .thread
  | .fenceSpec f => f.scope != .thread
  | .fenceXp _ => true
  | .cset f => f.d == 0 && decide (1 ≤ f.a.val ∧ f.a.val ≤ 57) && decide (f.id.toNat < 64)
  | .cclr f => f.d == 0 && f.a == 0 && decide (f.id.toNat < 64)
  | .cget f => wField f.d && decide (f.a.val ≤ 6) && decide (f.id.toNat < 64)
  | .tfr f => f.a == 0 && frameSelOk f.sel && f.fr != 3 && fitsReg (if frameSelWide f.sel then 64 else 32) f.d
  | .tfw f => f.d == 0 && (f.sel == 0 || f.sel == 1) && f.fr != 3 && fitsReg (if frameSelWide f.sel then 64 else 32) f.a
  | .svcpost _ => true
  | .svctake f => decide (1 ≤ f.d.val ∧ f.d.val ≤ 62)
  | .fqtake f => decide (1 ≤ f.d.val ∧ f.d.val ≤ 60)
  | .fqdone _ => true
  | .tlbinvAsid _ => true
  | .tlbinvPage _ => true
  | .tlbinvNong _ => true
  | .tlbinvAll _ => true
  | .acrd f => f.d != 0
  | _ => false

/-! ### Fields of a word -/

/-- Why bytes are no instruction; each raises the illegal-instruction trap of the whole chain (R173). -/
inductive DecodeErr
  | reservedMajor | reservedMinor | reservedField | brokenLong | misplacedHeader | illegalChain | short
  deriving DecidableEq, Repr

/-- Bits [lo + n - 1 : lo] of a word (R2). -/
def fld (w lo n : Nat) : Nat := (w >>> lo) % 2 ^ n

/-- The chain bit (R156). -/
def chainBit (w : Nat) : Bool := w.testBit 31

/-- The major opcode (R156). -/
def majorOf (w : Nat) : Nat := fld w 25 6

/-- An instruction, or the reserved field that stops it. -/
def need (ok : Bool) (i : Instr) : Except DecodeErr Instr := if ok then .ok i else .error .reservedField

/-- The majors whose instructions take two words (R171). -/
def isLongMajor (m : Nat) : Bool := decide (0x10 ≤ m ∧ m ≤ 0x1C)

/-- Guard field of a word. -/
def gOf (w : Nat) : Fin 8 := Fin.ofNat 8 w

/-! ### One-word formats (R162) -/

/-- Format CH. -/
def decodeCH (w : Nat) : Except DecodeErr Instr :=
  need (!chainBit w && fld w 0 1 == 0)
    (.clause ⟨w.testBit 24, Fin.ofNat 8 (w >>> 21), Fin.ofNat 16 (w >>> 17), Fin.ofNat 16 (w >>> 13), BitVec.ofNat 12 (w >>> 1)⟩)

/-- Format SU (R183). -/
def parseSU (w : Nat) : SU :=
  ⟨chainBit w, Fin.ofNat 64 (w >>> 19), Fin.ofNat 64 (w >>> 13),
    if w.testBit 8 then .imm (BitVec.ofNat 8 w) else .reg (Fin.ofNat 64 w)⟩

/-- With BI = 0, B[7:6] must be 0. -/
def suOk (w : Nat) : Bool := w.testBit 8 || fld w 6 2 == 0

/-- A row of R184 or R186 with both kinds of second operand. -/
def decodeSU (mk : SU → Instr) (w : Nat) : Except DecodeErr Instr := need (suOk w) (mk (parseSU w))

/-- `upopc` and `uclz` (R187): BI and B zero. -/
def decodeSUUn (mk : SUUn → Instr) (w : Nat) : Except DecodeErr Instr :=
  need (fld w 0 9 == 0) (mk ⟨chainBit w, Fin.ofNat 64 (w >>> 19), Fin.ofNat 64 (w >>> 13)⟩)

/-- Major 0x02 (R184). -/
def decode02 (w : Nat) : Except DecodeErr Instr :=
  match fld w 9 4 with
  | 0 => decodeSU .uadd w
  | 1 => decodeSU .usub w
  | 2 => decodeSU .ursub w
  | 3 => decodeSU .umul w
  | 4 => decodeSU .umulhI64 w
  | 5 => decodeSU .umulhN64 w
  | 6 => decodeSU .udivI64 w
  | 7 => decodeSU .udivN64 w
  | 8 => decodeSU .uremI64 w
  | 9 => decodeSU .uremN64 w
  | 10 => decodeSU .uminI64 w
  | 11 => decodeSU .umaxI64 w
  | 12 => decodeSU .uminN64 w
  | 13 => decodeSU .umaxN64 w
  | 14 => need (w.testBit 8) (.uins8 ⟨chainBit w, Fin.ofNat 64 (w >>> 19), Fin.ofNat 64 (w >>> 13), BitVec.ofNat 8 w⟩)
  | _ => .error .reservedMinor

/-- Major 0x03 (R186). -/
def decode03 (w : Nat) : Except DecodeErr Instr :=
  match fld w 9 4 with
  | 0 => decodeSU .uand w
  | 1 => decodeSU .uor w
  | 2 => decodeSU .uxor w
  | 3 => decodeSU .uandn w
  | 4 => decodeSU .ushl w
  | 5 => decodeSU .ushrN64 w
  | 6 => decodeSU .ushrI64 w
  | 7 => decodeSU .urot w
  | 8 => decodeSU .useq w
  | 9 => decodeSU .usne w
  | 10 => decodeSU .usltI64 w
  | 11 => decodeSU .usltN64 w
  | 12 => decodeSU .usleI64 w
  | 13 => decodeSU .usleN64 w
  | 14 => decodeSUUn .upopc w
  | _ => decodeSUUn .uclz w

/-- Majors 0x04 and 0x05 (R172). -/
def decodeSB (mk : SB → Instr) (w : Nat) : Except DecodeErr Instr :=
  need (fld w 3 1 == 0) (mk ⟨chainBit w, BitVec.ofNat 21 (w >>> 4), gOf w⟩)

/-- Format SC with a `w` source and no immediate. -/
def decodeSCw (mk : SCw → Instr) (w : Nat) : Except DecodeErr Instr :=
  need (fld w 11 8 == 0) (mk ⟨chainBit w, Fin.ofNat 64 (w >>> 19), gOf w⟩)

/-- Format SC with a guard alone. -/
def decodeSCg (mk : SCg → Instr) (w : Nat) : Except DecodeErr Instr :=
  need (fld w 11 14 == 0) (mk ⟨chainBit w, gOf w⟩)

/-- Format SC with a `w` source and a packet offset. -/
def decodeSCb (mk : SCb → Instr) (w : Nat) : Except DecodeErr Instr :=
  .ok (mk ⟨chainBit w, Fin.ofNat 64 (w >>> 19), BitVec.ofNat 8 (w >>> 11), gOf w⟩)

/-- Format SC with a `w` source, IMM8 = 0 and G = 7. -/
def decodeSCm (mk : SCm → Instr) (w : Nat) : Except DecodeErr Instr :=
  need (fld w 11 8 == 0 && fld w 0 3 == 7) (mk ⟨chainBit w, Fin.ofNat 64 (w >>> 19)⟩)

/-- Major 0x06 (R190). -/
def decode06 (w : Nat) : Except DecodeErr Instr :=
  match fld w 3 8 with
  | 0 => decodeSCw .jmp w
  | 1 => decodeSCw .callr w
  | 2 => decodeSCg .ret w
  | 3 => decodeSCb .bwz w
  | 4 => decodeSCb .bwnz w
  | 5 => decodeSCm .rcv w
  | 6 => decodeSCg .exit w
  | 7 => decodeSCg .yield w
  | 8 => decodeSCb .loop w
  | _ => .error .reservedMinor

/-- Major 0x07 (R195, R336). -/
def decode07 (w : Nat) : Except DecodeErr Instr :=
  match fld w 3 8 with
  | 0 => .ok (.sysc ⟨chainBit w, Fin.ofNat 64 (w >>> 19), BitVec.ofNat 8 (w >>> 11), gOf w⟩)
  | 1 => need (fld w 19 6 == 0) (.brk ⟨chainBit w, BitVec.ofNat 8 (w >>> 11), gOf w⟩)
  | 8 => decodeSCm .tret w
  | 9 => need (fld w 11 14 == 0 && fld w 0 3 == 7) (.fend (chainBit w))
  | 10 => need (fld w 19 6 == 0 && fld w 0 3 == 7) (.cend ⟨chainBit w, BitVec.ofNat 8 (w >>> 11)⟩)
  | 11 => decodeSCm .dhalt w
  | _ => .error .reservedMinor

/-- A predicate row with two sources (R197): IMM8 unused. -/
def decodeSP (mk : SP3 → Instr) (w : Nat) : Except DecodeErr Instr :=
  need (fld w 8 8 == 0)
    (mk ⟨chainBit w, Fin.ofNat 8 (w >>> 22), Fin.ofNat 8 (w >>> 19), Fin.ofNat 8 (w >>> 16), gOf w⟩)

/-- Major 0x08 (R197). -/
def decode08 (w : Nat) : Except DecodeErr Instr :=
  match fld w 3 5 with
  | 0 => decodeSP .pand w
  | 1 => decodeSP .por w
  | 2 => decodeSP .pxor w
  | 3 => decodeSP .pandn w
  | 4 => need (fld w 8 11 == 0) (.pnot ⟨chainBit w, Fin.ofNat 8 (w >>> 22), Fin.ofNat 8 (w >>> 19), gOf w⟩)
  | 5 => need (fld w 16 6 == 0) (.plt ⟨chainBit w, Fin.ofNat 8 (w >>> 22), BitVec.ofNat 8 (w >>> 8), gOf w⟩)
  | _ => .error .reservedMinor

/-- Major 0x09 (R198). -/
def decode09 (w : Nat) : Except DecodeErr Instr :=
  match fld w 3 4 with
  | 0 => need (fld w 0 3 == 0) (.srr ⟨chainBit w, Fin.ofNat 64 (w >>> 19), BitVec.ofNat 12 (w >>> 7)⟩)
  | 1 => need (fld w 0 3 == 0) (.srw ⟨chainBit w, Fin.ofNat 64 (w >>> 19), BitVec.ofNat 12 (w >>> 7)⟩)
  | _ => .error .reservedMinor

/-- A handle row with a `w` operand and Q = IMM8 = 0 (R266). -/
def decodeSEh (mk : SEh → Instr) (imm : Nat) (w : Nat) : Except DecodeErr Instr :=
  need (fld w 21 4 == 0 && fld w 3 8 == imm) (mk ⟨chainBit w, Fin.ofNat 16 (w >>> 17), Fin.ofNat 64 (w >>> 11)⟩)

/-- Major 0x0A (R266). -/
def decode0A (w : Nat) : Except DecodeErr Instr :=
  match fld w 0 3 with
  | 0 => need (decide (fld w 21 4 < 4))
      (.push ⟨chainBit w, Fin.ofNat 4 (w >>> 21), Fin.ofNat 16 (w >>> 17), Fin.ofNat 64 (w >>> 11), BitVec.ofNat 8 (w >>> 3)⟩)
  | 1 => need (decide (4 ≤ fld w 21 4 ∧ fld w 21 4 < 12) && fld w 17 4 == 0 && fld w 11 6 == 0 && fld w 10 1 == 0)
      (.qpop ⟨chainBit w, Fin.ofNat 8 (fld w 21 4 - 4), Fin.ofNat 128 (w >>> 3)⟩)
  | 2 => need (decide (12 ≤ fld w 21 4) && fld w 17 4 == 0 && fld w 3 8 == 0)
      (.qclaim ⟨chainBit w, Fin.ofNat 4 (fld w 21 4 - 12), Fin.ofNat 64 (w >>> 11)⟩)
  | 3 => need (decide (12 ≤ fld w 21 4) && fld w 17 4 == 0 && fld w 3 8 == 0)
      (.qput ⟨chainBit w, Fin.ofNat 4 (fld w 21 4 - 12), Fin.ofNat 64 (w >>> 11)⟩)
  | 4 => decodeSEh .hwait 0 w
  | 5 => decodeSEh .htest 0 w
  | 6 => need (fld w 21 4 == 0 && fld w 3 14 == 0) (.hcancel ⟨chainBit w, Fin.ofNat 16 (w >>> 17)⟩)
  | _ => if w.testBit 3 then decodeSEh .hset 1 w else decodeSEh .hget 0 w

/-- A stream-record row (R261). -/
def decodeSEs (mk : SEs → Instr) (w : Nat) : Except DecodeErr Instr :=
  need (fld w 24 1 == 0 && fld w 17 4 == 0 && fld w 5 6 == 0)
    (mk ⟨chainBit w, Fin.ofNat 8 (w >>> 21), Fin.ofNat 64 (w >>> 11), Fin.ofNat 4 (w >>> 3)⟩)

/-- Major 0x0B (R261, R280). -/
def decode0B (w : Nat) : Except DecodeErr Instr :=
  match fld w 0 3 with
  | 0 => decodeSEs .sset w
  | 1 => decodeSEs .sget w
  | 2 => need (fld w 17 8 == 0 && fld w 3 8 == 0) (.winit ⟨chainBit w, Fin.ofNat 64 (w >>> 11)⟩)
  | 3 => need (fld w 17 8 == 0 && fld w 6 5 == 0) (.warr ⟨chainBit w, Fin.ofNat 64 (w >>> 11), Scope.ofCode (w >>> 3)⟩)
  | 4 => need (fld w 17 8 == 0 && fld w 3 8 == 0) (.wexp ⟨chainBit w, Fin.ofNat 64 (w >>> 11)⟩)
  | 5 => need (fld w 17 8 == 0 && fld w 7 4 == 0)
      (.wwait ⟨chainBit w, Fin.ofNat 64 (w >>> 11), w.testBit 6, Scope.ofCode (w >>> 3)⟩)
  | _ => .error .reservedMinor

/-- A word of a one-word format (R171). -/
def decodeShort (w : Nat) : Except DecodeErr Instr :=
  match majorOf w with
  | 0x01 => decodeCH w
  | 0x02 => decode02 w
  | 0x03 => decode03 w
  | 0x04 => decodeSB .bra w
  | 0x05 => decodeSB .call w
  | 0x06 => decode06 w
  | 0x07 => decode07 w
  | 0x08 => decode08 w
  | 0x09 => decode09 w
  | 0x0A => decode0A w
  | 0x0B => decode0B w
  | 0x0C => need (fld w 0 25 == 0) (.nop (chainBit w))
  | 0x3F => .error .brokenLong
  | _ => .error .reservedMajor

/-! ### Two-word formats: `a` is the LA word, `x` the LX word (R162) -/

/-- Operand D of the LA word. -/
def laD (a : Nat) : Fin 128 := Fin.ofNat 128 (a >>> 18)
/-- Operand A of the LA word. -/
def laA (a : Nat) : Fin 128 := Fin.ofNat 128 (a >>> 11)
/-- IMM8 of the LA word, B and BX together. -/
def laImm (a : Nat) : BitVec 8 := BitVec.ofNat 8 (a >>> 3)
/-- Operand C3 of the LX word. -/
def lxC3 (x : Nat) : Fin 128 := Fin.ofNat 128 (x >>> 18)
/-- OP of the LX word. -/
def lxOp (x : Nat) : Nat := fld x 10 8
/-- MOD of the LX word. -/
def lxMod (x : Nat) : Nat := fld x 2 8
/-- BK of the LX word. -/
def lxBk (x : Nat) : Nat := fld x 0 2

/-- The second operand by BK (R162, R210): none for BK = 3 or a reserved bit. -/
def laB (a x : Nat) : Option BOp :=
  match lxBk x with
  | 0 => if fld a 3 1 == 0 then some (.v (Fin.ofNat 128 (a >>> 4))) else none
  | 1 => if fld a 3 1 == 0 && fld a 10 1 == 0 then some (.w (Fin.ofNat 64 (a >>> 4))) else none
  | 2 => some (.imm (laImm a))
  | _ => none

/-- A row of majors 0x10 to 0x15 (R208, R199). -/
def decodeLV (mk : LV → Instr) (a x : Nat) : Except DecodeErr Instr :=
  match laB a x, Rm.ofCode (lxMod x / 2) with
  | some b, some rm =>
    .ok (mk ⟨chainBit x, laD a, laA a, b, lxC3 x, gOf a, Ty.ofCode (lxMod x / 16), rm, (lxMod x).testBit 0⟩)
  | _, _ => .error .reservedField

/-- A row whose fields other than MAJ, OP, C and G are fixed: MOD as given, all others 0. -/
def decodeLX0 (mk : LX0 → Instr) (mod : Nat) (a x : Nat) : Except DecodeErr Instr :=
  need (fld a 3 22 == 0 && fld x 18 7 == 0 && lxMod x == mod && lxBk x == 0) (mk ⟨chainBit x, gOf a⟩)

/-- Major 0x10 (R214). -/
def decode10 (a x : Nat) : Except DecodeErr Instr :=
  match lxOp x with
  | 0x0 => decodeLV .vadd a x
  | 0x1 => decodeLV .vsub a x
  | 0x2 => decodeLV .vmul a x
  | 0x3 => decodeLV .vmulh a x
  | 0x4 => decodeLV .vmad a x
  | 0x5 => decodeLV .vdiv a x
  | 0x6 => decodeLV .vrem a x
  | 0x7 => decodeLV .vmin a x
  | 0x8 => decodeLV .vmax a x
  | 0x9 => decodeLV .vabs a x
  | 0xa => decodeLV .vneg a x
  | 0xb => decodeLV .vabsd a x
  | 0x10 => decodeLV .vand a x
  | 0x11 => decodeLV .vor a x
  | 0x12 => decodeLV .vxor a x
  | 0x13 => decodeLV .vandn a x
  | 0x14 => decodeLV .vnot a x
  | 0x15 => decodeLV .vshl a x
  | 0x16 => decodeLV .vshr a x
  | 0x17 => decodeLV .vrot a x
  | 0x18 => decodeLV .vpopc a x
  | 0x19 => decodeLV .vclz a x
  | 0x1a => decodeLV .vbrev a x
  | 0x1b => decodeLV .vbfe a x
  | 0x1c => decodeLV .vbfi a x
  | 0x1d => decodeLV .vmov a x
  | _ => .error .reservedMinor

/-- Major 0x11 (R218). -/
def decode11 (a x : Nat) : Except DecodeErr Instr :=
  match lxOp x with
  | 0x0 => decodeLV .vfadd a x
  | 0x1 => decodeLV .vfsub a x
  | 0x2 => decodeLV .vfmul a x
  | 0x3 => decodeLV .vfma a x
  | 0x4 => decodeLV .vfms a x
  | 0x5 => decodeLV .vfnma a x
  | 0x6 => decodeLV .vfdiv a x
  | 0x7 => decodeLV .vfsqrt a x
  | 0x8 => decodeLV .vfmin a x
  | 0x9 => decodeLV .vfmax a x
  | 0xa => decodeLV .vfabs a x
  | 0xb => decodeLV .vfneg a x
  | 0xc => decodeLV .vfrint a x
  | 0xd => decodeLV .vfscale a x
  | _ => .error .reservedMinor

/-- Major 0x12 (R222, R223). -/
def decode12 (a x : Nat) : Except DecodeErr Instr :=
  match lxOp x with
  | 0x0 => decodeLV (.vcmp .eq) a x
  | 0x1 => decodeLV (.vcmp .ne) a x
  | 0x2 => decodeLV (.vcmp .lt) a x
  | 0x3 => decodeLV (.vcmp .le) a x
  | 0x4 => decodeLV (.vcmp .gt) a x
  | 0x5 => decodeLV (.vcmp .ge) a x
  | 0x6 => decodeLV (.vcmp .ord) a x
  | 0x7 => decodeLV (.vcmp .uno) a x
  | 0x10 => decodeLV (.vset .eq) a x
  | 0x11 => decodeLV (.vset .ne) a x
  | 0x12 => decodeLV (.vset .lt) a x
  | 0x13 => decodeLV (.vset .le) a x
  | 0x14 => decodeLV (.vset .gt) a x
  | 0x15 => decodeLV (.vset .ge) a x
  | 0x16 => decodeLV (.vset .ord) a x
  | 0x17 => decodeLV (.vset .uno) a x
  | 0x20 => decodeLV .vsel a x
  | 0x21 => decodeLV .vfclass a x
  | _ => .error .reservedMinor

/-- Major 0x13 (R225). -/
def decode13 (a x : Nat) : Except DecodeErr Instr :=
  match lxOp x with
  | 0x0 => decodeLV .vcvt a x
  | 0x8 => decodeLV .vpklo a x
  | 0x9 => decodeLV .vpkhi a x
  | 0xa => decodeLV .vupklo a x
  | 0xb => decodeLV .vupkhi a x
  | 0x10 => decodeLV .vscl a x
  | _ => .error .reservedMinor

/-- Major 0x14 (R232). -/
def decode14 (a x : Nat) : Except DecodeErr Instr :=
  match lxOp x with
  | 0x0 => decodeLV .vrcp a x
  | 0x1 => decodeLV .vrsqrt a x
  | 0x2 => decodeLV .vexp2 a x
  | 0x3 => decodeLV .vlog2 a x
  | 0x4 => decodeLV .vsinpi a x
  | 0x5 => decodeLV .vcospi a x
  | 0x6 => decodeLV .vtanh a x
  | _ => .error .reservedMinor

/-- Major 0x15 (R199). -/
def decode15 (a x : Nat) : Except DecodeErr Instr :=
  match lxOp x with
  | 0x0 => decodeLV .vfirst a x
  | 0x1 => decodeLV .vballot a x
  | 0x2 => decodeLV .psetw a x
  | 0x3 => decodeLV .vall a x
  | 0x4 => decodeLV .vany a x
  | 0x5 => decodeLV .vuni a x
  | 0x6 => decodeLV .vlane a x
  | 0x8 => decodeLV .shflIdx a x
  | 0x9 => decodeLV .shflUp a x
  | 0xa => decodeLV .shflDown a x
  | 0xb => decodeLV .shflXor a x
  | 0x10 => decodeLV .vredAdd a x
  | 0x11 => decodeLV .vredMin a x
  | 0x12 => decodeLV .vredMax a x
  | 0x13 => decodeLV .vredAnd a x
  | 0x14 => decodeLV .vredOr a x
  | 0x15 => decodeLV .vredXor a x
  | 0x18 => decodeLV .vscanAdd a x
  | 0x19 => decodeLV .vscanMin a x
  | 0x1a => decodeLV .vscanMax a x
  | 0x1c => decodeLV .vscanxAdd a x
  | 0x1d => decodeLV .vscanxMin a x
  | 0x1e => decodeLV .vscanxMax a x
  | 0x30 => decodeLX0 .xacq 0 a x
  | 0x31 => decodeLX0 .xrel 0 a x
  | _ => .error .reservedMinor

/-- A load, store, gather or scatter of majors 0x16 to 0x18 (R236, R243). -/
def decodeLM (mk : LM → Instr) (a x : Nat) : Except DecodeErr Instr :=
  match laB a x with
  | some b =>
    need (decide (lxOp x < 128))
      (mk ⟨chainBit x, laD a, laA a, b, lxC3 x, gOf a, (lxOp x).testBit 6, Fin.ofNat 4 (lxOp x >>> 4), (lxOp x).testBit 3,
        Ty.ofCode (lxMod x / 16), Scope.ofCode (lxMod x / 2), (lxMod x).testBit 0⟩)
  | none => .error .reservedField

/-- Major 0x16 (R243). -/
def decode16 (a x : Nat) : Except DecodeErr Instr :=
  match lxOp x % 8 with
  | 0 => decodeLM .ld a x
  | 1 => decodeLM .ldAcq a x
  | 2 => decodeLM .ldw a x
  | 3 => decodeLM .ldwAcq a x
  | _ => .error .reservedMinor

/-- Major 0x17 (R246). -/
def decode17 (a x : Nat) : Except DecodeErr Instr :=
  match lxOp x % 8 with
  | 0 => decodeLM .st a x
  | 1 => decodeLM .stRel a x
  | 2 => decodeLM .stw a x
  | 3 => decodeLM .stwRel a x
  | _ => .error .reservedMinor

/-- Major 0x18 (R247). -/
def decode18 (a x : Nat) : Except DecodeErr Instr :=
  match lxOp x % 8 with
  | 0 => decodeLM .gth a x
  | 1 => decodeLM .sct a x
  | _ => .error .reservedMinor

/-- An atomic (R249): VOL must be 0. -/
def decodeLA (mk : LA → Instr) (a x : Nat) : Except DecodeErr Instr :=
  match laB a x with
  | some b =>
    need (decide (lxOp x < 128) && !(lxMod x).testBit 0)
      (mk ⟨chainBit x, laD a, laA a, b, lxC3 x, gOf a, (lxOp x).testBit 6, Fin.ofNat 4 (lxOp x >>> 4),
        Ty.ofCode (lxMod x / 16), Scope.ofCode (lxMod x / 2)⟩)
  | none => .error .reservedField

/-- Major 0x19 (R250). -/
def decode19 (a x : Nat) : Except DecodeErr Instr :=
  match lxOp x % 16 with
  | 0 => decodeLA .atomAdd a x
  | 1 => decodeLA .atomMin a x
  | 2 => decodeLA .atomMax a x
  | 3 => decodeLA .atomAnd a x
  | 4 => decodeLA .atomOr a x
  | 5 => decodeLA .atomXor a x
  | 6 => decodeLA .atomExch a x
  | 7 => decodeLA .atomCas a x
  | 8 => decodeLA .atomFadd a x
  | _ => .error .reservedMinor

/-- A fence of kinds 0 to 3 (R259): D, A, B, BX, C3, OP[7:4], TY, VOL and BK are 0. -/
def decodeLF (mk : LF → Instr) (a x : Nat) : Except DecodeErr Instr :=
  need (fld a 3 22 == 0 && fld x 18 7 == 0 && decide (lxOp x < 16) && decide (lxMod x < 16) && !(lxMod x).testBit 0 && lxBk x == 0)
    (mk ⟨chainBit x, gOf a, Scope.ofCode (lxMod x / 2)⟩)

/-- `fence.xp` (R259): SCOPE 2, BK 2, the classes in IMM8. -/
def decodeXp (a x : Nat) : Except DecodeErr Instr :=
  match Cls.ofCode (fld a 7 4), Cls.ofCode (fld a 3 4) with
  | some wr, some rd =>
    need (fld a 11 14 == 0 && fld x 18 7 == 0 && lxOp x == 4 && lxMod x == 4 && lxBk x == 2) (.fenceXp ⟨chainBit x, gOf a, wr, rd⟩)
  | _, _ => .error .reservedField

/-- `waita` (R255): VOL 0. -/
def decodeWaita (a x : Nat) : Except DecodeErr Instr :=
  match laB a x with
  | some b =>
    need (decide (lxOp x < 128) && !(lxMod x).testBit 0)
      (.waita ⟨chainBit x, laD a, laA a, b, lxC3 x, gOf a, (lxOp x).testBit 6, WaitCc.ofCode (lxOp x >>> 4),
        Ty.ofCode (lxMod x / 16), Scope.ofCode (lxMod x / 2)⟩)
  | none => .error .reservedField

/-- `pf` (R258): D, C3, TY, SCOPE and VOL are 0; LVL 0 or 1. -/
def decodePf (a x : Nat) : Except DecodeErr Instr :=
  match laB a x with
  | some b =>
    need (decide (lxOp x < 128) && !(lxOp x).testBit 5 && fld a 18 7 == 0 && fld x 18 7 == 0 && lxMod x == 0)
      (.pf ⟨chainBit x, laA a, b, gOf a, (lxOp x).testBit 6, (lxOp x).testBit 4⟩)
  | none => .error .reservedField

/-- Major 0x1A (R255, R258, R259). -/
def decode1A (a x : Nat) : Except DecodeErr Instr :=
  match lxOp x % 16 with
  | 0 => decodeLF .fenceAcq a x
  | 1 => decodeLF .fenceRel a x
  | 2 => decodeLF .fenceFull a x
  | 3 => decodeLF .fenceSpec a x
  | 4 => decodeXp a x
  | 8 => decodeWaita a x
  | 12 => decodePf a x
  | _ => .error .reservedMinor

/-- A caddy row (R283): C3 and MOD 0, BK 2. -/
def decodeLC (mk : LC → Instr) (a x : Nat) : Except DecodeErr Instr :=
  need (fld x 18 7 == 0 && lxMod x == 0 && lxBk x == 2) (mk ⟨chainBit x, laD a, laA a, laImm a, gOf a⟩)

/-- Major 0x1B (R283). -/
def decode1B (a x : Nat) : Except DecodeErr Instr :=
  match lxOp x with
  | 0 => decodeLC .cset a x
  | 1 => decodeLC .cclr a x
  | 2 => decodeLC .cget a x
  | _ => .error .reservedMinor

/-- `tfr` and `tfw` (R329): C3 0. -/
def decodeLT (mk : LT → Instr) (a x : Nat) : Except DecodeErr Instr :=
  match laB a x with
  | some b =>
    need (fld x 18 7 == 0) (mk ⟨chainBit x, laD a, laA a, b, gOf a, Fin.ofNat 4 (lxMod x >>> 6), BitVec.ofNat 6 (lxMod x)⟩)
  | none => .error .reservedField

/-- A privileged row with one `w` source in A and no other operand. -/
def decodeLR1 (mk : LR1 → Instr) (a x : Nat) : Except DecodeErr Instr :=
  need (fld a 17 8 == 0 && fld a 3 8 == 0 && fld x 18 7 == 0 && lxMod x == 0 && lxBk x == 0)
    (mk ⟨chainBit x, Fin.ofNat 64 (a >>> 11), gOf a⟩)

/-- A privileged row with a `w` destination and no other operand. -/
def decodeLRd (mk : LRd → Instr) (a x : Nat) : Except DecodeErr Instr :=
  need (fld a 24 1 == 0 && fld a 3 15 == 0 && fld x 18 7 == 0 && lxMod x == 0 && lxBk x == 0)
    (mk ⟨chainBit x, Fin.ofNat 64 (a >>> 18), gOf a⟩)

/-- `tlbinv.page` (R370): kind 1, BK 1. -/
def decodeLR2 (mk : LR2 → Instr) (a x : Nat) : Except DecodeErr Instr :=
  need (fld a 17 8 == 0 && fld a 10 1 == 0 && fld a 3 1 == 0 && fld x 18 7 == 0 && lxMod x == 1 && lxBk x == 1)
    (mk ⟨chainBit x, Fin.ofNat 64 (a >>> 11), Fin.ofNat 64 (a >>> 4), gOf a⟩)

/-- `tlbinv` by its kind in MOD (R370). -/
def decodeTlbinv (a x : Nat) : Except DecodeErr Instr :=
  match lxMod x with
  | 0 => decodeLR1 .tlbinvAsid a x
  | 1 => decodeLR2 .tlbinvPage a x
  | 2 => decodeLX0 .tlbinvNong 2 a x
  | 3 => decodeLX0 .tlbinvAll 3 a x
  | _ => .error .reservedField

/-- Major 0x1C (R339, R370). -/
def decode1C (a x : Nat) : Except DecodeErr Instr :=
  match lxOp x with
  | 0 => decodeLT .tfr a x
  | 1 => decodeLT .tfw a x
  | 2 => decodeLR1 .svcpost a x
  | 3 => decodeLRd .svctake a x
  | 0x20 => decodeLRd .fqtake a x
  | 0x21 => need (fld a 17 8 == 0 && fld a 4 7 == 0 && fld x 18 7 == 0 && lxMod x == 0 && lxBk x == 2)
      (.fqdone ⟨chainBit x, Fin.ofNat 64 (a >>> 11), a.testBit 3, gOf a⟩)
  | 0x22 => decodeTlbinv a x
  | 0x23 => need (fld a 24 1 == 0 && fld a 17 1 == 0 && fld a 4 7 == 0 && fld x 18 7 == 0 && lxMod x == 0 && lxBk x == 2)
      (.acrd ⟨chainBit x, Fin.ofNat 64 (a >>> 18), Fin.ofNat 64 (a >>> 11), a.testBit 3, gOf a⟩)
  | _ => .error .reservedMinor

/-- A long instruction of major m from its two words (R171). -/
def decodeLong (m a x : Nat) : Except DecodeErr Instr :=
  match m with
  | 0x10 => decode10 a x
  | 0x11 => decode11 a x
  | 0x12 => decode12 a x
  | 0x13 => decode13 a x
  | 0x14 => decode14 a x
  | 0x15 => decode15 a x
  | 0x16 => decode16 a x
  | 0x17 => decode17 a x
  | 0x18 => decode18 a x
  | 0x19 => decode19 a x
  | 0x1A => decode1A a x
  | 0x1B => decode1B a x
  | 0x1C => decode1C a x
  | _ => .error .reservedMajor

/-- Keeps an instruction only when its row accepts its operands. -/
def checkAccepts (r : Except DecodeErr Instr) : Except DecodeErr Instr :=
  match r with
  | .ok i => if i.accepts then .ok i else .error .reservedField
  | .error e => .error e

/-- The instruction at the head of a list of words, all of one packet, and how many words it takes (R161). -/
def decode : List Nat → Except DecodeErr (Instr × Nat)
  | [] => .error .short
  | w :: ws =>
    if isLongMajor (majorOf w) then
      match ws with
      | [] => .error .brokenLong
      | x :: _ =>
        if chainBit w && majorOf x == 0x3F then (checkAccepts (decodeLong (majorOf w) w x)).map (fun i => (i, 2))
        else .error .brokenLong
    else (checkAccepts (decodeShort w)).map (fun i => (i, 1))

/-- The instruction that a word of the opcode table holds, its bits numbered as the table numbers them: the first word in bits 31 to
0, the second in bits 63 to 32, every further bit 0. -/
def decodeTableWord (_nbits w : Nat) : Option Instr :=
  match decode [w % 2 ^ 32, w / 2 ^ 32 % 2 ^ 32, w / 2 ^ 64 % 2 ^ 32] with
  | .ok (i, _) => some i
  | .error _ => none

/-! ### The encoder, from the same tables -/

/-- A word of major m: chain bit, major, and the 25 bits below. -/
def word (c : Bool) (m rest : Nat) : Nat := c.toNat * 2 ^ 31 + m * 2 ^ 25 + rest

/-- Second operand of format SU: BI and B. -/
def UOp.bits : UOp → Nat
  | .reg n => n.val
  | .imm b => 2 ^ 8 + b.toNat

/-- Format SU. -/
def encodeSU (m op : Nat) (f : SU) : List Nat := [word f.c m (f.wd.val * 2 ^ 19 + f.wa.val * 2 ^ 13 + op * 2 ^ 9 + f.b.bits)]
/-- `upopc`, `uclz`. -/
def encodeSUUn (op : Nat) (f : SUUn) : List Nat := [word f.c 3 (f.wd.val * 2 ^ 19 + f.wa.val * 2 ^ 13 + op * 2 ^ 9)]
/-- Format SB. -/
def encodeSB (m : Nat) (f : SB) : List Nat := [word f.c m (f.pkt.toNat * 2 ^ 4 + f.g.val)]
/-- Format SC: WA, IMM8, OP, G. -/
def encodeSC (m op : Nat) (c : Bool) (wa imm g : Nat) : List Nat := [word c m (wa * 2 ^ 19 + imm * 2 ^ 11 + op * 2 ^ 3 + g)]
/-- Format SP: PD, PA, PB, IMM8, OP, G. -/
def encodeSP (op : Nat) (c : Bool) (pd pa pb imm g : Nat) : List Nat :=
  [word c 8 (pd * 2 ^ 22 + pa * 2 ^ 19 + pb * 2 ^ 16 + imm * 2 ^ 8 + op * 2 ^ 3 + g)]
/-- Format SR. -/
def encodeSR (op : Nat) (f : SR) : List Nat := [word f.c 9 (f.w.val * 2 ^ 19 + f.srn.toNat * 2 ^ 7 + op * 2 ^ 3)]
/-- Format SE: Q, H, WA, IMM8, OP. -/
def encodeSE (m op : Nat) (c : Bool) (q h wa imm : Nat) : List Nat :=
  [word c m (q * 2 ^ 21 + h * 2 ^ 17 + wa * 2 ^ 11 + imm * 2 ^ 3 + op)]

/-- BK. -/
def BOp.bk (b : BOp) : Nat := b.kind
/-- B and BX, bits [10:3] of the LA word without their place. -/
def BOp.field : BOp → Nat
  | .v n => n.val * 2
  | .w n => n.val * 2
  | .imm b => b.toNat

/-- Formats LA and LX: D, A, B with BX, G; C, C3, OP, MOD, BK. -/
def encodeLong (m d a bbx g : Nat) (c : Bool) (c3 op mod bk : Nat) : List Nat :=
  [word true m (d * 2 ^ 18 + a * 2 ^ 11 + bbx * 2 ^ 3 + g), word c 0x3F (c3 * 2 ^ 18 + op * 2 ^ 10 + mod * 2 ^ 2 + bk)]

/-- MOD of majors 0x10 to 0x15 (R165). -/
def modV (t : Ty) (rm : Rm) (sat : Bool) : Nat := t.code * 16 + rm.code * 2 + sat.toNat
/-- MOD of majors 0x16 to 0x1A (R165). -/
def modM (t : Ty) (s : Scope) (vol : Bool) : Nat := t.code * 16 + s.code * 2 + vol.toNat

/-- A row of majors 0x10 to 0x15. -/
def encodeLV (m op : Nat) (f : LV) : List Nat :=
  encodeLong m f.d.val f.a.val f.b.field f.g.val f.c f.c3.val op (modV f.ty f.rm f.sat) f.b.bk
/-- A row whose other fields are fixed. -/
def encodeLX0 (m op mod : Nat) (f : LX0) : List Nat := encodeLong m 0 0 0 f.g.val f.c 0 op mod 0
/-- A row of majors 0x16 to 0x18: AM, SCL, X2 above the kind. -/
def encodeLM (m kind : Nat) (f : LM) : List Nat :=
  encodeLong m f.d.val f.a.val f.b.field f.g.val f.c f.c3.val (f.am.toNat * 64 + f.scl.val * 16 + f.x2.toNat * 8 + kind)
    (modM f.ty f.scope f.vol) f.b.bk
/-- A row of major 0x19: AM, ORD above the operation. -/
def encodeLA (op : Nat) (f : LA) : List Nat :=
  encodeLong 0x19 f.d.val f.a.val f.b.field f.g.val f.c f.c3.val (f.am.toNat * 64 + f.ord.val * 16 + op) (modM f.ty f.scope false) f.b.bk
/-- A fence of kinds 0 to 3. -/
def encodeLF (kind : Nat) (f : LF) : List Nat := encodeLong 0x1A 0 0 0 f.g.val f.c 0 kind (f.scope.code * 2) 0
/-- A caddy row. -/
def encodeLC (op : Nat) (f : LC) : List Nat := encodeLong 0x1B f.d.val f.a.val f.id.toNat f.g.val f.c 0 op 0 2
/-- `tfr`, `tfw`. -/
def encodeLT (op : Nat) (f : LT) : List Nat :=
  encodeLong 0x1C f.d.val f.a.val f.b.field f.g.val f.c 0 op (f.fr.val * 64 + f.sel.toNat) f.b.bk
/-- A privileged row with `w` fields alone. -/
def encodeLR (op d a bbx g : Nat) (c : Bool) (mod bk : Nat) : List Nat := encodeLong 0x1C d a bbx g c 0 op mod bk

/-- The words of an instruction, in order; an event has none. -/
def encode : Instr → List Nat
  | .clause f => [word false 1 (f.nr.toNat * 2 ^ 24 + f.len.val * 2 ^ 21 + f.seta.val * 2 ^ 17 + f.setb.val * 2 ^ 13 + f.wait.toNat * 2)]
  | .nop c => [word c 0x0C 0]
  | .uadd f => encodeSU 2 0 f
  | .usub f => encodeSU 2 1 f
  | .ursub f => encodeSU 2 2 f
  | .umul f => encodeSU 2 3 f
  | .umulhI64 f => encodeSU 2 4 f
  | .umulhN64 f => encodeSU 2 5 f
  | .udivI64 f => encodeSU 2 6 f
  | .udivN64 f => encodeSU 2 7 f
  | .uremI64 f => encodeSU 2 8 f
  | .uremN64 f => encodeSU 2 9 f
  | .uminI64 f => encodeSU 2 10 f
  | .umaxI64 f => encodeSU 2 11 f
  | .uminN64 f => encodeSU 2 12 f
  | .umaxN64 f => encodeSU 2 13 f
  | .uins8 f => encodeSU 2 14 ⟨f.c, f.wd, f.wa, .imm f.b⟩
  | .uand f => encodeSU 3 0 f
  | .uor f => encodeSU 3 1 f
  | .uxor f => encodeSU 3 2 f
  | .uandn f => encodeSU 3 3 f
  | .ushl f => encodeSU 3 4 f
  | .ushrN64 f => encodeSU 3 5 f
  | .ushrI64 f => encodeSU 3 6 f
  | .urot f => encodeSU 3 7 f
  | .useq f => encodeSU 3 8 f
  | .usne f => encodeSU 3 9 f
  | .usltI64 f => encodeSU 3 10 f
  | .usltN64 f => encodeSU 3 11 f
  | .usleI64 f => encodeSU 3 12 f
  | .usleN64 f => encodeSU 3 13 f
  | .upopc f => encodeSUUn 14 f
  | .uclz f => encodeSUUn 15 f
  | .bra f => encodeSB 4 f
  | .call f => encodeSB 5 f
  | .jmp f => encodeSC 6 0 f.c f.wa.val 0 f.g.val
  | .callr f => encodeSC 6 1 f.c f.wa.val 0 f.g.val
  | .ret f => encodeSC 6 2 f.c 0 0 f.g.val
  | .bwz f => encodeSC 6 3 f.c f.wa.val f.off.toNat f.g.val
  | .bwnz f => encodeSC 6 4 f.c f.wa.val f.off.toNat f.g.val
  | .rcv f => encodeSC 6 5 f.c f.wa.val 0 7
  | .exit f => encodeSC 6 6 f.c 0 0 f.g.val
  | .yield f => encodeSC 6 7 f.c 0 0 f.g.val
  | .loop f => encodeSC 6 8 f.c f.wa.val f.off.toNat f.g.val
  | .sysc f => encodeSC 7 0 f.c f.wa.val f.n.toNat f.g.val
  | .brk f => encodeSC 7 1 f.c 0 f.n.toNat f.g.val
  | .tret f => encodeSC 7 8 f.c f.wa.val 0 7
  | .fend c => encodeSC 7 9 c 0 0 7
  | .cend f => encodeSC 7 10 f.c 0 f.n.toNat 7
  | .dhalt f => encodeSC 7 11 f.c f.wa.val 0 7
  | .pand f => encodeSP 0 f.c f.pd.val f.pa.val f.pb.val 0 f.g.val
  | .por f => encodeSP 1 f.c f.pd.val f.pa.val f.pb.val 0 f.g.val
  | .pxor f => encodeSP 2 f.c f.pd.val f.pa.val f.pb.val 0 f.g.val
  | .pandn f => encodeSP 3 f.c f.pd.val f.pa.val f.pb.val 0 f.g.val
  | .pnot f => encodeSP 4 f.c f.pd.val f.pa.val 0 0 f.g.val
  | .plt f => encodeSP 5 f.c f.pd.val 0 0 f.n.toNat f.g.val
  | .srr f => encodeSR 0 f
  | .srw f => encodeSR 1 f
  | .push f => encodeSE 10 0 f.c f.q.val f.h.val f.wa.val f.sel.toNat
  | .qpop f => encodeSE 10 1 f.c (f.q.val + 4) 0 0 f.d.val
  | .qclaim f => encodeSE 10 2 f.c (f.q.val + 12) 0 f.wa.val 0
  | .qput f => encodeSE 10 3 f.c (f.q.val + 12) 0 f.wa.val 0
  | .hwait f => encodeSE 10 4 f.c 0 f.h.val f.wa.val 0
  | .htest f => encodeSE 10 5 f.c 0 f.h.val f.wa.val 0
  | .hcancel f => encodeSE 10 6 f.c 0 f.h.val 0 0
  | .hget f => encodeSE 10 7 f.c 0 f.h.val f.wa.val 0
  | .hset f => encodeSE 10 7 f.c 0 f.h.val f.wa.val 1
  | .sset f => encodeSE 11 0 f.c f.n.val 0 f.wa.val f.k.val
  | .sget f => encodeSE 11 1 f.c f.n.val 0 f.wa.val f.k.val
  | .winit f => encodeSE 11 2 f.c 0 0 f.wa.val 0
  | .warr f => encodeSE 11 3 f.c 0 0 f.wa.val f.scope.code
  | .wexp f => encodeSE 11 4 f.c 0 0 f.wa.val 0
  | .wwait f => encodeSE 11 5 f.c 0 0 f.wa.val (f.p.toNat * 8 + f.scope.code)
  | .vadd f => encodeLV 0x10 0x0 f
  | .vsub f => encodeLV 0x10 0x1 f
  | .vmul f => encodeLV 0x10 0x2 f
  | .vmulh f => encodeLV 0x10 0x3 f
  | .vmad f => encodeLV 0x10 0x4 f
  | .vdiv f => encodeLV 0x10 0x5 f
  | .vrem f => encodeLV 0x10 0x6 f
  | .vmin f => encodeLV 0x10 0x7 f
  | .vmax f => encodeLV 0x10 0x8 f
  | .vabs f => encodeLV 0x10 0x9 f
  | .vneg f => encodeLV 0x10 0xa f
  | .vabsd f => encodeLV 0x10 0xb f
  | .vand f => encodeLV 0x10 0x10 f
  | .vor f => encodeLV 0x10 0x11 f
  | .vxor f => encodeLV 0x10 0x12 f
  | .vandn f => encodeLV 0x10 0x13 f
  | .vnot f => encodeLV 0x10 0x14 f
  | .vshl f => encodeLV 0x10 0x15 f
  | .vshr f => encodeLV 0x10 0x16 f
  | .vrot f => encodeLV 0x10 0x17 f
  | .vpopc f => encodeLV 0x10 0x18 f
  | .vclz f => encodeLV 0x10 0x19 f
  | .vbrev f => encodeLV 0x10 0x1a f
  | .vbfe f => encodeLV 0x10 0x1b f
  | .vbfi f => encodeLV 0x10 0x1c f
  | .vmov f => encodeLV 0x10 0x1d f
  | .vfadd f => encodeLV 0x11 0x0 f
  | .vfsub f => encodeLV 0x11 0x1 f
  | .vfmul f => encodeLV 0x11 0x2 f
  | .vfma f => encodeLV 0x11 0x3 f
  | .vfms f => encodeLV 0x11 0x4 f
  | .vfnma f => encodeLV 0x11 0x5 f
  | .vfdiv f => encodeLV 0x11 0x6 f
  | .vfsqrt f => encodeLV 0x11 0x7 f
  | .vfmin f => encodeLV 0x11 0x8 f
  | .vfmax f => encodeLV 0x11 0x9 f
  | .vfabs f => encodeLV 0x11 0xa f
  | .vfneg f => encodeLV 0x11 0xb f
  | .vfrint f => encodeLV 0x11 0xc f
  | .vfscale f => encodeLV 0x11 0xd f
  | .vcmp cc f => encodeLV 0x12 cc.code f
  | .vset cc f => encodeLV 0x12 (0x10 + cc.code) f
  | .vsel f => encodeLV 0x12 0x20 f
  | .vfclass f => encodeLV 0x12 0x21 f
  | .vcvt f => encodeLV 0x13 0x0 f
  | .vpklo f => encodeLV 0x13 0x8 f
  | .vpkhi f => encodeLV 0x13 0x9 f
  | .vupklo f => encodeLV 0x13 0xa f
  | .vupkhi f => encodeLV 0x13 0xb f
  | .vscl f => encodeLV 0x13 0x10 f
  | .vrcp f => encodeLV 0x14 0x0 f
  | .vrsqrt f => encodeLV 0x14 0x1 f
  | .vexp2 f => encodeLV 0x14 0x2 f
  | .vlog2 f => encodeLV 0x14 0x3 f
  | .vsinpi f => encodeLV 0x14 0x4 f
  | .vcospi f => encodeLV 0x14 0x5 f
  | .vtanh f => encodeLV 0x14 0x6 f
  | .vfirst f => encodeLV 0x15 0x0 f
  | .vballot f => encodeLV 0x15 0x1 f
  | .psetw f => encodeLV 0x15 0x2 f
  | .vall f => encodeLV 0x15 0x3 f
  | .vany f => encodeLV 0x15 0x4 f
  | .vuni f => encodeLV 0x15 0x5 f
  | .vlane f => encodeLV 0x15 0x6 f
  | .shflIdx f => encodeLV 0x15 0x8 f
  | .shflUp f => encodeLV 0x15 0x9 f
  | .shflDown f => encodeLV 0x15 0xa f
  | .shflXor f => encodeLV 0x15 0xb f
  | .vredAdd f => encodeLV 0x15 0x10 f
  | .vredMin f => encodeLV 0x15 0x11 f
  | .vredMax f => encodeLV 0x15 0x12 f
  | .vredAnd f => encodeLV 0x15 0x13 f
  | .vredOr f => encodeLV 0x15 0x14 f
  | .vredXor f => encodeLV 0x15 0x15 f
  | .vscanAdd f => encodeLV 0x15 0x18 f
  | .vscanMin f => encodeLV 0x15 0x19 f
  | .vscanMax f => encodeLV 0x15 0x1a f
  | .vscanxAdd f => encodeLV 0x15 0x1c f
  | .vscanxMin f => encodeLV 0x15 0x1d f
  | .vscanxMax f => encodeLV 0x15 0x1e f
  | .xacq f => encodeLX0 0x15 0x30 0 f
  | .xrel f => encodeLX0 0x15 0x31 0 f
  | .ld f => encodeLM 0x16 0 f
  | .ldAcq f => encodeLM 0x16 1 f
  | .ldw f => encodeLM 0x16 2 f
  | .ldwAcq f => encodeLM 0x16 3 f
  | .st f => encodeLM 0x17 0 f
  | .stRel f => encodeLM 0x17 1 f
  | .stw f => encodeLM 0x17 2 f
  | .stwRel f => encodeLM 0x17 3 f
  | .gth f => encodeLM 0x18 0 f
  | .sct f => encodeLM 0x18 1 f
  | .atomAdd f => encodeLA 0 f
  | .atomMin f => encodeLA 1 f
  | .atomMax f => encodeLA 2 f
  | .atomAnd f => encodeLA 3 f
  | .atomOr f => encodeLA 4 f
  | .atomXor f => encodeLA 5 f
  | .atomExch f => encodeLA 6 f
  | .atomCas f => encodeLA 7 f
  | .atomFadd f => encodeLA 8 f
  | .waita f => encodeLong 0x1A f.d.val f.a.val f.b.field f.g.val f.c f.c3.val (f.am.toNat * 64 + f.cc.code * 16 + 8) (modM f.ty f.scope false) f.b.bk
  | .pf f => encodeLong 0x1A 0 f.a.val f.b.field f.g.val f.c 0 (f.am.toNat * 64 + f.hold.toNat * 16 + 12) 0 f.b.bk
  | .fenceAcq f => encodeLF 0 f
  | .fenceRel f => encodeLF 1 f
  | .fenceFull f => encodeLF 2 f
  | .fenceSpec f => encodeLF 3 f
  | .fenceXp f => encodeLong 0x1A 0 0 (f.wr.code * 16 + f.rd.code) f.g.val f.c 0 4 4 2
  | .cset f => encodeLC 0 f
  | .cclr f => encodeLC 1 f
  | .cget f => encodeLC 2 f
  | .tfr f => encodeLT 0 f
  | .tfw f => encodeLT 1 f
  | .svcpost f => encodeLR 2 0 f.a.val 0 f.g.val f.c 0 0
  | .svctake f => encodeLR 3 f.d.val 0 0 f.g.val f.c 0 0
  | .fqtake f => encodeLR 0x20 f.d.val 0 0 f.g.val f.c 0 0
  | .fqdone f => encodeLR 0x21 0 f.a.val f.fail.toNat f.g.val f.c 0 2
  | .tlbinvAsid f => encodeLR 0x22 0 f.a.val 0 f.g.val f.c 0 0
  | .tlbinvPage f => encodeLR 0x22 0 f.a.val (f.b.val * 2) f.g.val f.c 1 1
  | .tlbinvNong f => encodeLX0 0x1C 0x22 2 f
  | .tlbinvAll f => encodeLX0 0x1C 0x22 3 f
  | .acrd f => encodeLR 0x23 f.d.val f.a.val f.clr.toNat f.g.val f.c 0 2
  | _ => []

/-! ### Pipes, solo instructions and chains (R37, R158, R159) -/

/-- The five pipes (R158). -/
inductive Pipe
  | u | v | x | m | e
  deriving DecidableEq, Repr

/-- The pipe of a major (R158, R171); none for the clause header and `nop`. -/
def pipeOfMajor (m : Nat) : Option Pipe :=
  if 2 ≤ m ∧ m ≤ 9 ∨ m = 0x1C then some .u
  else if 0x10 ≤ m ∧ m ≤ 0x13 ∨ m = 0x15 then some .v
  else if m = 0x14 then some .x
  else if 0x16 ≤ m ∧ m ≤ 0x1A then some .m
  else if m = 0x0A ∨ m = 0x0B ∨ m = 0x1B then some .e
  else none

/-- The major of an instruction's first word (R171); 0 for an event, which has none. -/
def Instr.major : Instr → Nat
  | .clause _ => 1
  | .nop _ => 0xc
  | .uadd _ | .usub _ | .ursub _ | .umul _ | .umulhI64 _ | .umulhN64 _ | .udivI64 _ | .udivN64 _ | .uremI64 _
  | .uremN64 _ | .uminI64 _ | .umaxI64 _ | .uminN64 _ | .umaxN64 _ | .uins8 _ => 2
  | .uand _ | .uor _ | .uxor _ | .uandn _ | .ushl _ | .ushrN64 _ | .ushrI64 _ | .urot _ | .useq _ | .usne _
  | .usltI64 _ | .usltN64 _ | .usleI64 _ | .usleN64 _ | .upopc _ | .uclz _ => 3
  | .bra _ => 4
  | .call _ => 5
  | .jmp _ | .callr _ | .ret _ | .bwz _ | .bwnz _ | .rcv _ | .exit _ | .yield _ | .loop _ => 6
  | .sysc _ | .brk _ | .tret _ | .fend _ | .cend _ | .dhalt _ => 7
  | .pand _ | .por _ | .pxor _ | .pandn _ | .pnot _ | .plt _ => 8
  | .srr _ | .srw _ => 9
  | .push _ | .qpop _ | .qclaim _ | .qput _ | .hwait _ | .htest _ | .hcancel _ | .hget _ | .hset _ => 0xa
  | .sset _ | .sget _ | .winit _ | .warr _ | .wexp _ | .wwait _ => 0xb
  | .vadd _ | .vsub _ | .vmul _ | .vmulh _ | .vmad _ | .vdiv _ | .vrem _ | .vmin _ | .vmax _ | .vabs _ | .vneg _
  | .vabsd _ | .vand _ | .vor _ | .vxor _ | .vandn _ | .vnot _ | .vshl _ | .vshr _ | .vrot _ | .vpopc _ | .vclz _
  | .vbrev _ | .vbfe _ | .vbfi _ | .vmov _ => 0x10
  | .vfadd _ | .vfsub _ | .vfmul _ | .vfma _ | .vfms _ | .vfnma _ | .vfdiv _ | .vfsqrt _ | .vfmin _ | .vfmax _
  | .vfabs _ | .vfneg _ | .vfrint _ | .vfscale _ => 0x11
  | .vcmp _ _ | .vset _ _ => 0x12
  | .vsel _ | .vfclass _ => 0x12
  | .vcvt _ | .vpklo _ | .vpkhi _ | .vupklo _ | .vupkhi _ | .vscl _ => 0x13
  | .vrcp _ | .vrsqrt _ | .vexp2 _ | .vlog2 _ | .vsinpi _ | .vcospi _ | .vtanh _ => 0x14
  | .vfirst _ | .vballot _ | .psetw _ | .vall _ | .vany _ | .vuni _ | .vlane _ | .shflIdx _ | .shflUp _ | .shflDown _
  | .shflXor _ | .vredAdd _ | .vredMin _ | .vredMax _ | .vredAnd _ | .vredOr _ | .vredXor _ | .vscanAdd _
  | .vscanMin _ | .vscanMax _ | .vscanxAdd _ | .vscanxMin _ | .vscanxMax _ | .xacq _ | .xrel _ => 0x15
  | .ld _ | .ldAcq _ | .ldw _ | .ldwAcq _ => 0x16
  | .st _ | .stRel _ | .stw _ | .stwRel _ => 0x17
  | .gth _ | .sct _ => 0x18
  | .atomAdd _ | .atomMin _ | .atomMax _ | .atomAnd _ | .atomOr _ | .atomXor _ | .atomExch _ | .atomCas _
  | .atomFadd _ => 0x19
  | .waita _ | .pf _ | .fenceAcq _ | .fenceRel _ | .fenceFull _ | .fenceSpec _ | .fenceXp _ => 0x1a
  | .cset _ | .cclr _ | .cget _ => 0x1b
  | .tfr _ | .tfw _ | .svcpost _ | .svctake _ | .fqtake _ | .fqdone _ | .tlbinvAsid _ | .tlbinvPage _ | .tlbinvNong _
  | .tlbinvAll _ | .acrd _ => 0x1c
  | _ => 0
/-- The pipe of an instruction. -/
def Instr.pipe (i : Instr) : Option Pipe := pipeOfMajor i.major

/-- `nop` and the clause header count as no instruction (R164, R170). -/
def Instr.counts (i : Instr) : Bool := i.pipe.isSome

/-- The instructions that issue alone (R37; R195, R198, R199, R171). -/
def Instr.isSolo (i : Instr) : Bool :=
  match i with
  | .push _ | .qput _ | .hcancel _ | .fenceAcq _ | .fenceRel _ | .fenceFull _ | .fenceSpec _ | .fenceXp _ => true
  | i => i.major == 7 || i.major == 9 || i.major == 0x15 || i.major == 0x1C

/-- Control transfers stand last in their chain (R159, R191). -/
def Instr.isControl (i : Instr) : Bool := i.major == 4 || i.major == 5 || i.major == 6

/-- A register as the tests of R159 name it. -/
inductive RegName
  | v (n : Nat) | w (n : Nat) | p (n : Nat) | s (n : Nat) | h (n : Nat)
  deriving DecidableEq, Repr

/-- The v registers an operand of the given width in bits covers (R67). -/
def vSpan (n : Fin 128) (width : Nat) : List RegName :=
  if width = 64 then [.v n.val, .v (n.val + 1)]
  else if width = 128 then [.v n.val, .v (n.val + 1), .v (n.val + 2), .v (n.val + 3)]
  else [.v n.val]

/-- The registers of a second operand. -/
def BOp.regs (width : Nat) : BOp → List RegName
  | .v n => vSpan n width
  | .w n => [.w n.val]
  | .imm _ => []

/-- Consecutive `w` registers. -/
def wSpan (n : Fin 64) (count : Nat) : List RegName := (List.range count).map (fun k => .w (n.val + k))

/-- The registers of the second operand of format SU. -/
def UOp.regs : UOp → List RegName
  | .reg n => [.w n.val]
  | .imm _ => []

/-- The address operand's registers (R236). -/
def addrRegs (am : Bool) (a : Fin 128) (b : BOp) : List RegName := (if am then vSpan a 64 else [.w a.val]) ++ b.regs 32

/-- The registers an instruction reads and those it writes, its guard aside, as the tests of R159 count them. -/
def Instr.readsWrites : Instr → List RegName × List RegName
  | .upopc f | .uclz f => ([.w f.wa.val], [.w f.wd.val])
  | .uins8 f => ([.w f.wa.val], [.w f.wd.val])
  | .uadd f | .usub f | .ursub f | .umul f | .umulhI64 f | .umulhN64 f | .udivI64 f | .udivN64 f | .uremI64 f
  | .uremN64 f | .uminI64 f | .umaxI64 f | .uminN64 f | .umaxN64 f | .uand f | .uor f | .uxor f | .uandn f | .ushl f
  | .ushrN64 f | .ushrI64 f | .urot f | .useq f | .usne f | .usltI64 f | .usltN64 f | .usleI64 f | .usleN64 f =>
    ([.w f.wa.val] ++ f.b.regs, [.w f.wd.val])
  | .jmp f | .callr f => ([.w f.wa.val], [])
  | .bwz f | .bwnz f => ([.w f.wa.val], [])
  | .loop f => ([.w f.wa.val], [.w f.wa.val])
  | .rcv f | .tret f | .dhalt f => ([.w f.wa.val], [])
  | .sysc f => ([.w f.wa.val], [])
  | .pand f | .por f | .pxor f | .pandn f => ([.p f.pa.val, .p f.pb.val], [.p f.pd.val])
  | .pnot f => ([.p f.pa.val], [.p f.pd.val])
  | .plt f => ([], [.p f.pd.val])
  | .srr f => ([], [.w f.w.val])
  | .srw f => ([.w f.w.val], [])
  | .push f => (wSpan f.wa (if f.q.val % 2 = 0 then 4 else 8), [.h f.h.val])
  | .qpop f => ([], if f.d.val % 2 = 0 then vSpan f.d 64 else vSpan f.d 32)
  | .qclaim f => ([], [.w f.wa.val])
  | .qput f => ([.w f.wa.val], [])
  | .hwait f | .htest f | .hget f => ([.h f.h.val], [.w f.wa.val])
  | .hset f => ([.w f.wa.val], [.h f.h.val])
  | .hcancel f => ([.h f.h.val], [])
  | .sset f => ([.w f.wa.val], [.s f.n.val])
  | .sget f => ([.s f.n.val], [.w f.wa.val])
  | .winit f | .wexp f => (wSpan f.wa 2, [])
  | .warr f => ([.w f.wa.val], [])
  | .wwait f => ([.w f.wa.val], [])
  | .vadd f | .vsub f | .vmul f | .vmulh f | .vdiv f | .vrem f | .vmin f | .vmax f | .vabsd f | .vand f | .vor f
  | .vxor f | .vandn f | .vshl f | .vshr f | .vrot f | .vbfe f | .vfadd f | .vfsub f | .vfmul f | .vfdiv f | .vfmin f
  | .vfmax f | .vfscale f => (vSpan f.a f.ty.width ++ f.b.regs f.ty.width, vSpan f.d f.ty.width)
  | .vabs f | .vneg f | .vnot f | .vpopc f | .vclz f | .vbrev f | .vfsqrt f | .vfabs f | .vfneg f | .vfrint f
  | .vfclass f | .vrcp f | .vrsqrt f | .vexp2 f | .vlog2 f | .vsinpi f | .vcospi f | .vtanh f | .vredAdd f
  | .vredMin f | .vredMax f | .vredAnd f | .vredOr f | .vredXor f | .vscanAdd f | .vscanMin f | .vscanMax f
  | .vscanxAdd f | .vscanxMin f | .vscanxMax f => (vSpan f.a f.ty.width, vSpan f.d f.ty.width)
  | .vmad f | .vbfi f | .vfma f | .vfms f | .vfnma f =>
    (vSpan f.a f.ty.width ++ f.b.regs f.ty.width ++ vSpan f.c3 f.ty.width, vSpan f.d f.ty.width)
  | .vmov f => (f.b.regs f.ty.width, vSpan f.d f.ty.width)
  | .vcmp _ f => (vSpan f.a f.ty.width ++ f.b.regs f.ty.width, [.p f.d.val])
  | .vset _ f => (vSpan f.a f.ty.width ++ f.b.regs f.ty.width, vSpan f.d f.ty.width)
  | .vsel f => (vSpan f.a f.ty.width ++ f.b.regs f.ty.width ++ [.p f.c3.val], vSpan f.d f.ty.width)
  | .vcvt f =>
    ((match f.b with
      | .imm i => vSpan f.a (cvtParts i).1.width
      | _ => []) ++ (if f.ty.width < 32 then vSpan f.d 32 else []), vSpan f.d f.ty.width)
  | .vpklo f | .vpkhi f => (vSpan f.a 128 ++ f.b.regs 32 ++ vSpan f.d 32, vSpan f.d 32)
  | .vupklo f | .vupkhi f => (vSpan f.a 32 ++ f.b.regs 32, vSpan f.d 128)
  | .vscl f => (vSpan f.a 32, vSpan f.d 32)
  | .vfirst f => (vSpan f.a f.ty.width, [.w f.d.val])
  | .vballot f => ([.p f.a.val], [.w f.d.val])
  | .psetw f => ([.w f.a.val], [.p f.d.val])
  | .vall f | .vany f => ([.p f.a.val], [.p f.d.val])
  | .vuni f => (vSpan f.a f.ty.width, [.p f.d.val])
  | .vlane f => ([], vSpan f.d 32)
  | .shflIdx f | .shflUp f | .shflDown f | .shflXor f => (vSpan f.a f.ty.width ++ f.b.regs 32, vSpan f.d f.ty.width)
  | .ld f | .ldAcq f | .gth f => (addrRegs f.am f.a f.b, vSpan f.d (memWidth f.ty f.x2))
  | .ldw f | .ldwAcq f => (addrRegs f.am f.a f.b, [.w f.d.val])
  | .st f | .stRel f | .sct f => (addrRegs f.am f.a f.b ++ vSpan f.c3 (memWidth f.ty f.x2), [])
  | .stw f | .stwRel f => (addrRegs f.am f.a f.b ++ [.w f.c3.val], [])
  | .atomAdd f | .atomMin f | .atomMax f | .atomAnd f | .atomOr f | .atomXor f | .atomExch f | .atomFadd f =>
    (addrRegs f.am f.a f.b ++ vSpan f.c3 f.ty.width, vSpan f.d f.ty.width)
  | .atomCas f => (addrRegs f.am f.a f.b ++ vSpan f.c3 (2 * f.ty.width), vSpan f.d f.ty.width)
  | .waita f => (addrRegs f.am f.a f.b ++ vSpan f.c3 f.ty.width, vSpan f.d f.ty.width)
  | .pf f => (addrRegs f.am f.a f.b, [])
  | .cset f => ((List.range 7).map (fun k => RegName.w (f.a.val + k)), [])
  | .cget f => ([], [.w f.d.val])
  | .tfr f => (f.b.regs 32, vSpan f.d (if frameSelWide f.sel then 64 else 32))
  | .tfw f => (vSpan f.a (if frameSelWide f.sel then 64 else 32) ++ f.b.regs 32, [])
  | .svcpost f | .tlbinvAsid f => ([.w f.a.val], [])
  | .svctake f => ([], wSpan f.d 2)
  | .fqtake f => ([], wSpan f.d 4)
  | .fqdone f => ([.w f.a.val], [])
  | .tlbinvPage f => ([.w f.a.val, .w f.b.val], [])
  | .acrd f => ([.w f.a.val], [.w f.d.val])
  | _ => ([], [])

/-- The guard an instruction carries; 7 for one without a guard (R156). -/
def Instr.guard : Instr → Fin 8
  | .bra f | .call f => f.g
  | .jmp f | .callr f => f.g
  | .ret f | .exit f | .yield f => f.g
  | .bwz f | .bwnz f | .loop f => f.g
  | .sysc f => f.g
  | .brk f => f.g
  | .pand f | .por f | .pxor f | .pandn f => f.g
  | .pnot f => f.g
  | .plt f => f.g
  | .vadd f | .vsub f | .vmul f | .vmulh f | .vmad f | .vdiv f | .vrem f | .vmin f | .vmax f | .vabs f | .vneg f
  | .vabsd f | .vand f | .vor f | .vxor f | .vandn f | .vnot f | .vshl f | .vshr f | .vrot f | .vpopc f | .vclz f
  | .vbrev f | .vbfe f | .vbfi f | .vmov f | .vfadd f | .vfsub f | .vfmul f | .vfma f | .vfms f | .vfnma f | .vfdiv f
  | .vfsqrt f | .vfmin f | .vfmax f | .vfabs f | .vfneg f | .vfrint f | .vfscale f | .vsel f | .vfclass f | .vcvt f
  | .vpklo f | .vpkhi f | .vupklo f | .vupkhi f | .vscl f | .vrcp f | .vrsqrt f | .vexp2 f | .vlog2 f | .vsinpi f
  | .vcospi f | .vtanh f | .vfirst f | .vballot f | .psetw f | .vall f | .vany f | .vuni f | .vlane f | .shflIdx f
  | .shflUp f | .shflDown f | .shflXor f | .vredAdd f | .vredMin f | .vredMax f | .vredAnd f | .vredOr f | .vredXor f
  | .vscanAdd f | .vscanMin f | .vscanMax f | .vscanxAdd f | .vscanxMin f | .vscanxMax f => f.g
  | .xacq f | .xrel f | .tlbinvNong f | .tlbinvAll f => f.g
  | .ld f | .ldAcq f | .ldw f | .ldwAcq f | .st f | .stRel f | .stw f | .stwRel f | .gth f | .sct f => f.g
  | .atomAdd f | .atomMin f | .atomMax f | .atomAnd f | .atomOr f | .atomXor f | .atomExch f | .atomCas f
  | .atomFadd f => f.g
  | .waita f => f.g
  | .pf f => f.g
  | .fenceAcq f | .fenceRel f | .fenceFull f | .fenceSpec f => f.g
  | .fenceXp f => f.g
  | .cset f | .cclr f | .cget f => f.g
  | .tfr f | .tfw f => f.g
  | .svcpost f | .tlbinvAsid f => f.g
  | .svctake f | .fqtake f => f.g
  | .fqdone f => f.g
  | .tlbinvPage f => f.g
  | .acrd f => f.g
  | .vcmp _ f | .vset _ f => f.g
  | _ => 7

/-- Registers read, the guard among them; `w0` and `p7` are constants and count as none (R65). -/
def Instr.reads (i : Instr) : List RegName :=
  (i.readsWrites.1 ++ [RegName.p i.guard.val]).filter (fun r => decide (r ≠ RegName.w 0 ∧ r ≠ RegName.p 7))
/-- Registers written. -/
def Instr.writes (i : Instr) : List RegName := i.readsWrites.2.filter (fun r => decide (r ≠ RegName.w 0 ∧ r ≠ RegName.p 7))

/-- Whether any `v` register it names lies in the extended block (R69). -/
def Instr.usesExtended (i : Instr) : Bool :=
  (i.readsWrites.1 ++ i.readsWrites.2).any (fun r => match r with
    | .v n => decide (48 ≤ n)
    | _ => false)

/-- Words an instruction takes (R161): two for a long one. -/
def Instr.words (i : Instr) : Nat := if isLongMajor i.major then 2 else 1

/-- The chain bit of an instruction (R156, R161); an event and the clause header have none. -/
def Instr.chained : Instr → Bool
  | .nop c | .fend c => c
  | .uadd f | .usub f | .ursub f | .umul f | .umulhI64 f | .umulhN64 f | .udivI64 f | .udivN64 f | .uremI64 f |
    .uremN64 f | .uminI64 f | .umaxI64 f | .uminN64 f | .umaxN64 f | .uand f | .uor f | .uxor f | .uandn f | .ushl
    f | .ushrN64 f | .ushrI64 f | .urot f | .useq f | .usne f | .usltI64 f | .usltN64 f | .usleI64 f | .usleN64 f
    => f.c
  | .uins8 f => f.c
  | .upopc f | .uclz f => f.c
  | .bra f | .call f => f.c
  | .jmp f | .callr f => f.c
  | .ret f | .exit f | .yield f => f.c
  | .bwz f | .bwnz f | .loop f => f.c
  | .rcv f | .tret f | .dhalt f => f.c
  | .sysc f => f.c
  | .brk f => f.c
  | .cend f => f.c
  | .pand f | .por f | .pxor f | .pandn f => f.c
  | .pnot f => f.c
  | .plt f => f.c
  | .srr f | .srw f => f.c
  | .push f => f.c
  | .qpop f => f.c
  | .qclaim f | .qput f => f.c
  | .hwait f | .htest f | .hget f | .hset f => f.c
  | .hcancel f => f.c
  | .sset f | .sget f => f.c
  | .winit f | .wexp f => f.c
  | .warr f => f.c
  | .wwait f => f.c
  | .vadd f | .vsub f | .vmul f | .vmulh f | .vmad f | .vdiv f | .vrem f | .vmin f | .vmax f | .vabs f | .vneg f
    | .vabsd f | .vand f | .vor f | .vxor f | .vandn f | .vnot f | .vshl f | .vshr f | .vrot f | .vpopc f | .vclz
    f | .vbrev f | .vbfe f | .vbfi f | .vmov f | .vfadd f | .vfsub f | .vfmul f | .vfma f | .vfms f | .vfnma f |
    .vfdiv f | .vfsqrt f | .vfmin f | .vfmax f | .vfabs f | .vfneg f | .vfrint f | .vfscale f | .vsel f | .vfclass
    f | .vcvt f | .vpklo f | .vpkhi f | .vupklo f | .vupkhi f | .vscl f | .vrcp f | .vrsqrt f | .vexp2 f | .vlog2
    f | .vsinpi f | .vcospi f | .vtanh f | .vfirst f | .vballot f | .psetw f | .vall f | .vany f | .vuni f |
    .vlane f | .shflIdx f | .shflUp f | .shflDown f | .shflXor f | .vredAdd f | .vredMin f | .vredMax f | .vredAnd
    f | .vredOr f | .vredXor f | .vscanAdd f | .vscanMin f | .vscanMax f | .vscanxAdd f | .vscanxMin f |
    .vscanxMax f => f.c
  | .vcmp _ f | .vset _ f => f.c
  | .xacq f | .xrel f | .tlbinvNong f | .tlbinvAll f => f.c
  | .ld f | .ldAcq f | .ldw f | .ldwAcq f | .st f | .stRel f | .stw f | .stwRel f | .gth f | .sct f => f.c
  | .atomAdd f | .atomMin f | .atomMax f | .atomAnd f | .atomOr f | .atomXor f | .atomExch f | .atomCas f |
    .atomFadd f => f.c
  | .waita f => f.c
  | .pf f => f.c
  | .fenceAcq f | .fenceRel f | .fenceFull f | .fenceSpec f => f.c
  | .fenceXp f => f.c
  | .cset f | .cclr f | .cget f => f.c
  | .tfr f | .tfw f => f.c
  | .svcpost f | .tlbinvAsid f => f.c
  | .svctake f | .fqtake f => f.c
  | .fqdone f => f.c
  | .tlbinvPage f => f.c
  | .acrd f => f.c
  | _ => false

/-- The instructions of R79 whose only effects are writes of `v` registers and sticky flags; loads have rules of their own. -/
def Instr.reuseEligible (i : Instr) : Bool :=
  match i with
  | .vcmp _ _ => false
  | .vfirst _ | .vballot _ | .psetw _ | .vall _ | .vany _ | .vuni _ | .vlane _ | .xacq _ | .xrel _ => false
  | i => decide (0x10 ≤ i.major ∧ i.major ≤ 0x15)

/-- An ordinary load into `v` registers (R79, R82): neither volatile nor an acquire. -/
def Instr.isPlainLoad : Instr → Bool
  | .ld f => !f.vol
  | _ => false

/-- No instruction of a list shares a pipe with an earlier one, reads or writes a register an earlier one writes (R159). -/
def chainRegsOk : List Instr → List Pipe → List RegName → Bool
  | [], _, _ => true
  | i :: is, ps, ws =>
    (match i.pipe with
      | some p => !ps.contains p
      | none => true)
    && i.reads.all (fun r => !ws.contains r) && i.writes.all (fun r => !ws.contains r)
    && chainRegsOk is (i.pipe.toList ++ ps) (i.writes ++ ws)

/-- A control transfer stands last (R159). -/
def controlLast : List Instr → Bool
  | [] => true
  | [_] => true
  | i :: is => !i.isControl && controlLast is

/-- Whether a chain is legal: R159 over its instructions without its `nop`s (R164). -/
def chainLegal (is : List Instr) : Bool :=
  let real := is.filter Instr.counts
  chainRegsOk real [] [] && controlLast real && (decide (real.length ≤ 1) || real.all (fun i => !i.isSolo))

/-- The instructions of the chain that begins at word k of a packet, each with the word at which it stands; `ws` holds the packet's
words from word k on. A clause header stands alone at word 0 (R167, R170). -/
def decodeChainWords : Nat → Nat → List Nat → Except DecodeErr (List (Nat × Instr))
  | 0, _, _ => .error .illegalChain
  | _, _, [] => .error .illegalChain
  | fuel + 1, k, w :: ws =>
    match decode (w :: ws) with
    | .error e => .error e
    | .ok (i, n) =>
      let last := if n = 2 then (ws.headD 0) else w
      if majorOf w = 1 then
        if k = 0 then .ok [(0, i)] else .error .misplacedHeader
      else if chainBit last then
        match decodeChainWords fuel (k + n) (ws.drop (n - 1)) with
        | .ok rest => if (rest.head?.elim false (fun r => r.2.major == 1)) then .error .misplacedHeader else .ok ((k, i) :: rest)
        | .error e => .error e
      else .ok [(k, i)]

/-- The chain that a group at word k of a packet is about to issue, or why it is none (R158, R173). -/
def decodeChain (k : Nat) (ws : List Nat) : Except DecodeErr (List (Nat × Instr)) :=
  match decodeChainWords 3 k ws with
  | .error e => .error e
  | .ok c => if chainLegal (c.map Prod.snd) then .ok c else .error .illegalChain

/-! ### Launch patches (R177) -/

/-- The word with its IMM8 replaced, given its successor; none where its format at that place has no IMM8. -/
def patchWord (w next byte : Nat) : Option Nat :=
  let m := majorOf w
  let put (lo : Nat) : Nat := w - fld w lo 8 * 2 ^ lo + byte * 2 ^ lo
  if m = 6 ∨ m = 7 then some (put 11)
  else if m = 8 then some (put 8)
  else if m = 0x0A ∨ m = 0x0B then some (put 3)
  else if (m = 2 ∨ m = 3) ∧ w.testBit 8 then some (put 0)
  else if isLongMajor m ∧ majorOf next = 0x3F ∧ lxBk next = 2 then some (put 3)
  else none

end Sys2Proof
end

