-- ==== Sys2Proof/Machine/State.lean ====
section
/-! DEFINITION. The state of one package, as plain data; why a step stops; and the state after power-on reset (R443 steps 1 to 3).
Cores are named by their package core number 0 to 287 (R16), furrows by core and slot, physical locations by their 52-bit PA (R119). -/
namespace Sys2Proof.Machine

/-- Why the machine stops without a next state. -/
inductive Fault
  /-- Raised by the meaning of an instruction of the table executed while no group is issuing; a step never does that. Safe. -/
  | noIssuingGroup
  /-- Raised by a step after THERMAL_HALT: "no instruction issues further" and only a package reset restarts it (R442). Safe. -/
  | packageHalted
  /-- Raised by a step after module power was removed: no state is kept (R441). Safe. -/
  | powerRemoved
  deriving DecidableEq, Repr

/-- Why the model gives an instruction no meaning. -/
inductive Refusal
  /-- An instruction of the table that has no meaning yet; none is left. Safe. -/
  | notModelled (mnemonic : String)
  deriving DecidableEq, Repr

/-! ### Furrows -/

/-- Lane states (R28). -/
inductive LaneStatus
  | absent | live | held | exited
  deriving DecidableEq, Repr

/-- One lane's own state: its status, the user and privileged call stacks with their depths (R188, R311), DSKIP (R332). -/
structure Lane where
  status : LaneStatus := .absent
  ustack : Vector (BitVec 24) 16 := Vector.replicate 16 0
  udepth : Nat := 0
  pstack : Vector (BitVec 24) 16 := Vector.replicate 16 0
  pdepth : Nat := 0
  dskip : Bool := false
  /-- for each scope the point of order up to which its later reads see what is visible (R139), by `Scope.code` -/
  floor : Vector Nat 8 := Vector.replicate 8 0
  deriving DecidableEq, Repr

/-- A group's clause instance or clause rest (R168): NR, the header's LEN, the packet past its span, and the flags of a live
instance. A rest has no instance. -/
structure Clause where
  nr : Bool
  len : Nat
  clend : Nat
  inst : Option Nat
  seta : Option (Fin 12)
  setb : Option (Fin 12)
  deriving DecidableEq, Repr

/-- An access a group watches while it waits on an address or a weir (R256, R281): a sector of memory or a scratchpad word. -/
inductive Watch
  | sector (pa : Nat)
  | scratch (field word : Nat)
  | peerLine (pa deadline : Nat)
  deriving DecidableEq, Repr

/-- A place an access reaches: a field's scratchpad, or pieces of physical memory. -/
inductive Spot
  | scratch (field off : Nat)
  | global (ps : List (Nat × Nat))
  deriving DecidableEq, Repr

/-- A part of a lane's access, in one sector or one scratchpad: the lane's address, and the part's offset from it and size. -/
structure Part where
  lane : Nat
  ea : Nat
  off : Nat
  size : Nat
  spot : Spot
  deriving DecidableEq, Repr

/-- A part performed: what it read, and whether that was poisoned. -/
structure Got where
  part : Part
  val : Nat
  poison : Bool
  deriving DecidableEq, Repr

/-- What a group waits for before its next instruction may issue (R33). -/
inductive Wait
  /-- a clause header's flags (R167) -/
  | flags (m : BitVec 12)
  /-- an unresolved handle (R270), with the status once its command has completed, and the handle -/
  | handle (n : Fin 16) (got : Option (BitVec 64 × BitVec 64))
  /-- an empty basin port (R59) -/
  | basin (q : Fin 4)
  /-- an `xacq` that cannot be granted, with its order of issue (R71) -/
  | xacq (order : Nat)
  /-- an address or weir wait; woken when a watched place may have changed; the values of the lanes already satisfied (R256, R281) -/
  | address (watch : List Watch) (woken : Bool) (kept : List (Nat × Nat))
  /-- tokens not yet held: agent, sectors, and whether all are needed (R378) -/
  | tokens (agent : Nat) (sectors : List Nat) (write : Bool)
  /-- an issued load or atomic (R242, R378): its active set, the parts not yet performed for want of tokens, those performed, and the
  instruction; it completes by itself (INSTRUCTION_COMPLETE) -/
  | access (write : Bool) (m : BitVec 32) (todo : List Part) (got : List Got) (i : Instr)
  /-- earlier stores of the group not yet performed (R144); earlier accesses of the furrow not yet completed (R60) -/
  | drain
  | furrowDrain
  /-- a fence that FENCE_COMPLETE ends (R144, R364) -/
  | fence
  /-- the same for a speculative fence that has rolled back (R147): its PC, its scope and its lanes -/
  | rolledFence (pc : BitVec 24) (scope : Scope) (lanes : BitVec 32)
  /-- an engine queue or the field's command slots full (R267) -/
  | pushRoom (q : Fin 4)
  /-- an empty operand queue (R274) -/
  | row (q : Fin 8)
  /-- a full or empty service queue (R338, R339) -/
  | svcRoom | svcEntry
  /-- an empty fault queue (R359) -/
  | fqEntry
  /-- a `tret` that waits for its level's instructions (R330) -/
  | levelDrain
  /-- an instruction that a running-ahead speculative fence holds back (R145) -/
  | specHold
  /-- a vector write that would retain too many registers (R72), with its destinations -/
  | retain (ds : List Nat) (kept : List (Nat × Nat))
  deriving DecidableEq, Repr

/-- A trap's cause and what it carries (R318): lanes, class code, INFO, ARG, trap PCs and fault addresses by lane; and whether its instruction has
had its effect: a floating-point trap (R102), or the memory error of an atomic (R241). -/
structure TrapReq where
  lanes : BitVec 32
  code : Nat
  info : Nat
  arg : BitVec 64
  pcs : Vector (BitVec 24) 32
  eaddr : Vector (BitVec 64) 32
  late : Bool := false
  deriving DecidableEq, Repr

/-- A trap-permit back-off (R323): the trap to enter (none when the instruction was withdrawn and issues again), the length of the
present back-off in cycles, failed retries so far, and when it ends. -/
structure Backoff where
  trap : Option TrapReq
  length : Nat
  failed : Nat
  deadline : Nat
  deriving DecidableEq, Repr

/-- A PC group (R27, R30), of the lanes of one level. -/
structure Group where
  lanes : BitVec 32
  pc : BitVec 24
  level : Nat
  age : Nat := 0
  active : Bool := true
  /-- when it last issued, for step 2 of R35 -/
  issuedAt : Nat := 0
  wdog : Nat := 0
  clause : Option Clause := none
  /-- a clause header fetched and not yet entered (R167) -/
  header : Option ClauseH := none
  /-- part of a chain has issued (R160) -/
  midChain : Bool := false
  /-- the mask M of a reconvergence hold (R192) -/
  rcv : Option (BitVec 32) := none
  /-- a trap pending on the group (R326), with its cause -/
  pend : Option TrapReq := none
  backoff : Option Backoff := none
  /-- excluded from the next slot's choices by `yield` (R194) -/
  yielded : Bool := false
  wait : Option Wait := none
  deriving DecidableEq, Repr

/-- A lane record of a frame (R328). -/
structure LaneRec where
  state : Nat := 0
  t : Bool := false
  nr : Bool := false
  dskip : Bool := false
  clen : Nat := 0
  csd : Nat := 0
  clend : Nat := 0
  pc : BitVec 24 := 0
  deriving DecidableEq, Repr

/-- A frame (R319, R327). -/
structure Frame where
  code : Nat
  info : Nat
  fromLevel : Nat
  arg : BitVec 64
  val : BitVec 64
  tlane : BitVec 32
  lrec : Vector LaneRec 32
  eaddr : Vector (BitVec 64) 32
  deriving DecidableEq, Repr

/-- A row of an operand queue (R263): its first element's index, and 64 bits for each of 32 lanes, wide when the ETY is 64-bit. -/
structure OpRow where
  first : Nat
  cmd : Nat
  wide : Bool
  vals : Vector (BitVec 64) 32
  deriving DecidableEq, Repr

/-- The extended block of a furrow (R69, R71): none, held by right, or by an unreserved grant with its order. -/
inductive Ext
  | none
  | right
  | unreserved (order : Nat)
  deriving DecidableEq, Repr

/-- A replay-pending furrow (R337) or a BUSY waiter (R356): whether it is a replay and whether the whole furrow is suspended (R353); die
and SEQ of each unresolved entry with its page; pages not yet posted (R358); the lanes that issue again with their access kind, PCs
and fault addresses; and the pages whose entry failed so far. -/
structure FaultWait where
  replay : Bool
  whole : Bool
  entries : List (Nat × Nat × Nat)
  unposted : List Nat
  lanes : BitVec 32
  kind : Nat
  pcs : Vector (BitVec 24) 32
  eaddr : Vector (BitVec 64) 32
  reports : List (Nat × Bool × Bool × Nat)
  failed : List Nat
  /-- each lane with the page it faults on -/
  lanePages : List (Nat × Nat)
  deriving DecidableEq, Repr

/-- One lane's bytes of a store in one sector: physical address, 4 KiB virtual page, bytes, the lane, and whether the lane's access is one
unit of R135. -/
structure PostWrite where
  pa : Nat
  vpage : Nat
  bytes : List (BitVec 8)
  lane : Nat
  unit : Bool
  deriving DecidableEq, Repr

/-- A store of a furrow that waits for tokens (R141, R378): its writes still to be performed, the scope of its release (0 for none), and its lanes
whose furrow has been on diverged paths since it issued (R142). -/
structure Posted where
  lanes : BitVec 32
  level : Nat
  writes : List PostWrite
  rel : Nat
  diverged : BitVec 32
  clauseInst : Option Nat
  deriving DecidableEq, Repr

/-- An uncompleted speculative fence that runs ahead (R145 to R148): the registers as they stood, which of them had no name and which have been
written since, the flags, the group's clause. -/
structure SpecFence where
  v : Vector (BitVec 1024) 128
  unnamed : List Nat
  kept : List Nat
  clause : Option Clause
  fpenv : BitVec 32
  fencePc : BitVec 24
  nextPc : BitVec 24
  scope : Scope
  lanes : BitVec 32
  readSet : List Nat
  heldTrap : Option TrapReq
  deriving DecidableEq, Repr

/-- An issue slot that an access waiting for tokens has stopped in: the lanes of its group, whose chain goes on once it has completed, the lanes of
the group chosen with it that issues afterwards, and the trap to take at the end (R158, R160, R325). -/
structure OpenSlot where
  lanes : BitVec 32
  second : Option (BitVec 32) := none
  deferred : Option TrapReq := none
  deriving DecidableEq, Repr

/-- One resident furrow (R28, R65, R311 to R314). -/
structure Furrow where
  core : Nat
  slot : Nat
  field : Nat
  ix : Nat
  lanes : Vector Lane 32 := Vector.replicate 32 {}
  groups : List Group := []
  v : Vector (BitVec 1024) 128 := Vector.replicate 128 0
  /-- `w0` to `w55`; `w0` is never written -/
  w : Vector (BitVec 64) 56 := Vector.replicate 56 0
  /-- `w56` to `w63` of each level -/
  wbank : Vector (Vector (BitVec 64) 8) 4 := Vector.replicate 4 (Vector.replicate 8 0)
  /-- `p0` to `p5` -/
  p : Vector (BitVec 32) 6 := Vector.replicate 6 0
  /-- `p6` of each level -/
  pbank : Vector (BitVec 32) 4 := Vector.replicate 4 0
  s : Vector (BitVec 256) 8 := Vector.replicate 8 0
  opq : Vector (List OpRow) 8 := Vector.replicate 8 []
  h : Vector (BitVec 64) 16 := Vector.replicate 16 0
  flags : BitVec 12 := 0
  /-- hidden counts of the flags (R169) -/
  counts : Vector Nat 12 := Vector.replicate 12 0
  /-- clause instances not yet completed: number, whether closed, SETA and SETB -/
  clauses : List (Nat × Bool × List (Fin 12)) := []
  ext : Ext := .none
  spilled : Bool := false
  /-- registers a name collision left unnamed (R76) -/
  unnamed : List Nat := []
  fpenv : BitVec 32 := 0
  level : Nat := 0
  frames : Vector (Option Frame) 3 := Vector.replicate 3 none
  /-- a stepped return: the level that executed the `tret`, the lanes of g, and whether their chain has issued (R331) -/
  step : Option (Nat × BitVec 32 × Bool) := none
  /-- the chain that issues is that of a step -/
  stepping : Bool := false
  /-- its issue slot that has not ended -/
  openSlot : Option OpenSlot := none
  faultWaits : List FaultWait := []
  permit : Bool := false
  /-- resumed above level 0 and waiting for a permit (R340) -/
  needPermit : Option Backoff := none
  haltPend : Bool := false
  /-- its field has ended: only what has issued completes (R335) -/
  ending : Bool := false
  /-- a context fault has stopped it in a service context, where its field does not end (R18, R321) -/
  dead : Bool := false
  posted : List Posted := []
  spec : Option SpecFence := none
  /-- selections of its quarter that it has waited through with an eligible group since it was last selected (R34) -/
  waited : Nat := 0
  deriving DecidableEq, Repr

/-! ### Fields, kernels, commands -/

/-- What a kernel header and its tables give a field (R175 to R178), with the constants already taken from the parameter block. -/
structure Kernel where
  codeBase : Nat
  codePkts : Nat
  threads : Nat
  scratch : Nat
  tiles : Nat
  bslice : Nat
  extRegs : Nat
  noReuse : Bool
  consts : List (Nat × BitVec 64)
  /-- word index and byte (R177) -/
  patches : List (Nat × BitVec 8)
  tensors : List (Nat × Vector (BitVec 64) 7)
  deriving DecidableEq, Repr

/-- A store of bytes of its own: a scratchpad allocation, a tile store, a B-slice. Unlisted bytes read 0 (R412). -/
structure Store where
  size : Nat
  cells : List (Nat × BitVec 8) := []
  poison : List Nat := []
  deriving DecidableEq, Repr

/-- Where a field stands (R43, R404, R411); `ending` once `fend`, `cend` or another end has stopped its furrows (R335). -/
inductive FieldStatus
  | waiting | resident | collecting | saved | ending | retired
  deriving DecidableEq, Repr

/-- A command slot of a field (R268): push number, kind 1 to 4, and the handle status once completed. -/
structure CmdSlot where
  seq : Nat
  kind : Nat
  cmd : Nat
  status : Option (BitVec 64)
  doneAt : Nat
  deriving DecidableEq, Repr

/-- A basin slot claimed by a furrow (R59): port 0 to 3 for `q12` to `q15`, basin, slot number, and the claiming furrow's index. -/
structure Claim where
  port : Nat
  basin : Nat
  slot : Nat
  furrowIx : Nat
  deriving DecidableEq, Repr

/-- One field (R43 to R45, R52, R402). -/
structure Field where
  id : Nat
  ctx : Nat
  /-- for a service field the version of its firmware image (R438) -/
  scheme : Nat
  service : Bool := false
  reach : Nat := 0
  fieldIx : Nat := 0
  fcount : Nat := 1
  /-- terrace member count minus one, and member (R55) -/
  tsize : Nat := 0
  member : Nat := 0
  cls : Nat := 3
  core : Nat := 0
  qoff : Nat := 0
  status : FieldStatus := .waiting
  kernel : Kernel
  sp : Store
  tile : Store
  bsl : Store
  caddy : Vector (Vector (BitVec 64) 7) 64 := Vector.replicate 64 (Vector.replicate 7 0)
  slots : Vector (Option CmdSlot) 64 := Vector.replicate 64 none
  pushNo : Nat := 0
  claims : List Claim := []
  /-- input-port reads return 0 from now on (R61) -/
  withdrawn : Bool := false
  /-- order of placement, 0 while it is on no core (R402), and image slot offset in the save area (R410) -/
  placedAt : Nat := 0
  image : Option Nat := none
  /-- `LOC_ID` of furrow 0 where it last ran (R410), and the collection that it is a victim of (R404) -/
  loc0 : BitVec 64 := 0
  collection : Nat := 0
  /-- furrows of a field that is saved; offsets 0 to 0x4487 of their images come from memory at resumption (R412) -/
  saved : List Furrow := []
  /-- bytes of the command area as written (R412) -/
  area : List (BitVec 8) := []
  deriving DecidableEq, Repr

/-- A run of bytes an engine reaches: memory (space 0, a physical address with its virtual page), a field's scratchpad (1), its tile store
(2) or its B-slice (3, part j from j × BSLICE). -/
structure Piece where
  space : Nat
  field : Nat
  addr : Nat
  len : Nat
  vpage : Nat := 0
  deriving DecidableEq, Repr

/-- Why an engine's access is not made: a translation fault, or an end with a code (for ABSENT_PEER with the member's mask). -/
inductive EStop
  | fault (va code : Nat) (busy badPte : Bool) (wlevel kind : Nat)
  | ends (code mask : Nat)
  deriving DecidableEq, Repr

/-- A write an engine still has to perform: which value it takes and from which half of its byte, where it goes and to which half. -/
structure Put where
  item : Nat
  half : Option Bool := none
  pieces : List Piece
  high : Option Bool := none
  deriving DecidableEq, Repr

/-- A chunk of a TXE command that has issued and not yet landed (R361): its sources, elements before block metadata, the bytes read so far, and
the writes to come; the receivers it lands at. -/
structure Flight where
  chunk : Nat
  src : List (List Piece)
  got : List (Option (List (BitVec 8)))
  puts : List Put
  receivers : List Nat
  deriving DecidableEq, Repr

/-- A unit of an engine's transfer that has been read (R135): the transfer's key, the place and the bytes, and the words of it that were poisoned. -/
structure Had where
  key : Nat
  space : Nat
  field : Nat
  addr : Nat
  bytes : List (BitVec 8)
  bad : List Nat
  deriving DecidableEq, Repr

/-- What a party that meets a fault reports. -/
structure FaultReport where
  vaddr : Nat
  ctx : Nat
  asid : Nat
  cause : Nat
  level : Nat
  origin : Nat
  busy : Bool
  badPte : Bool
  wlevel : Nat
  kind : Nat
  first : BitVec 64
  deriving DecidableEq, Repr

/-- How an engine command's run stands. -/
inductive CmdPhase
  | queued | running | suspended | draining | done
  deriving DecidableEq, Repr

/-- A receiver of a command's weir contributions (R282, R294, R295): the terrace member that receives (none: as addressed), the bytes its
base moves by, bytes still due at its weir, bytes landed but not yet counted there, whether it is absent, whether its weir still counts,
and whether its final contribution is made. -/
structure Receiver where
  member : Option Nat
  shift : BitVec 64
  due : Nat
  owed : Nat := 0
  absent : Bool := false
  weirOk : Bool := true
  paid : Bool := false
  deriving DecidableEq, Repr

/-- An engine command (R267 to R301) from its push to its completion. -/
structure Command where
  id : Nat
  /-- 0 MXE, 1 TXE, 2 GXE, 3 CXE -/
  engine : Fin 4
  core : Nat
  field : Nat
  furrowIx : Nat
  /-- level of the pushing furrow at its push (R346), and `LOC_ID`[39:0] of it -/
  level : Nat
  loc : Nat
  slot : Nat
  seq : Nat
  words : Vector (BitVec 64) 8
  /-- caddy entries captured, in the order of word 0 -/
  entries : List (Nat × Vector (BitVec 64) 7)
  records : Vector (BitVec 256) 8
  scales : Vector (BitVec 1024) 4
  sel : BitVec 8
  extHeld : Bool
  phase : CmdPhase := .queued
  /-- units done: K-steps, chunks, elements, fabric chunks -/
  units : Nat := 0
  /-- of a TXE command: chunks that have landed, the next to issue (R361), and those in flight -/
  landed : List Nat := []
  next : Nat := 0
  flights : List Flight := []
  /-- what stops a TXE command once its chunks in flight have landed: the unit and why -/
  stop : Option (Nat × EStop) := none
  /-- of a GXE command: the elements of its next row read so far, and whether it has completed and is kept for its rows that no furrow has
  popped (R297) -/
  row : List (BitVec 64) := []
  reported : Bool := false
  flags : Nat := 0
  receivers : List Receiver := []
  /-- the end decided but not yet reported: code and detail; the code and unit of a lost contribution (R282) -/
  ended : Option (Nat × Nat) := none
  lost : Option (Nat × Nat) := none
  cancelled : Bool := false
  /-- the unit at which it is suspended, and the receiver when that is one of its contributions -/
  failAt : Nat := 0
  atWeir : Option Nat := none
  /-- the fault entry it is suspended at: die and SEQ; SEQ 0 while unposted (R358) -/
  entry : Option (Nat × Nat) := none
  /-- what is to be posted for it once an entry frees (R358) -/
  unposted : Option FaultReport := none
  coll : Nat := 0
  /-- sectors that its present event lacks tokens for and whether for a write, and those its earlier events lacked, each event to be tried again once
  they are there (R378) -/
  need : List (Nat × Bool) := []
  retry : List (Instr × List (Nat × Bool)) := []
  /-- the units that its transfers under way have read so far (R135) -/
  had : List Had := []
  deriving DecidableEq, Repr

/-- One rank of a running collective (R298 to R301, R433). -/
structure Rank where
  ix : Nat
  /-- 0: not of this package; otherwise the command -/
  cmd : Nat
  buf : List (Nat × BitVec 8)
  arrived : List Nat
  /-- while its result is committed, the writes to come (R301) -/
  todo : Option (List Put) := none
  committed : Bool
  lastChunk : Nat
  /-- the destination entry that its command gives, for a SEND with several senders (R299) -/
  dest : Option (Vector (BitVec 64) 7) := none
  deriving DecidableEq, Repr

/-- A collective from its first push (R298 to R301). -/
structure Collective where
  id : Nat
  ctx : Nat
  gid : Nat
  /-- when its last rank of this package pushed (R300) -/
  readyAt : Option Nat
  started : Bool
  ring : Bool
  /-- the switch plane on which it holds a reduction slot (R432) -/
  slot : Option Nat
  redone : Bool
  aborted : Bool
  ranks : List Rank
  deriving DecidableEq, Repr

/-! ### Cores, dies, contexts -/

/-- The life of a reuse entry (R83): Filling and Doomed for the load of the group of a slot. -/
inductive ReusePhase
  | valid
  | filling (slot : Nat) (lanes : BitVec 32)
  | doomed (slot : Nat) (lanes : BitVec 32)
  deriving DecidableEq, Repr

/-- A reuse-table entry (R78): its set, the context and level, the key as numbers, the values that its key and results name, the results it
denotes, its flags, for a load the 4 KiB region and the sectors, and its state. -/
structure ReuseEntry where
  set : Nat
  ctx : Nat
  level : Nat
  key : List Nat
  names : List (BitVec 1024)
  results : List (BitVec 1024)
  flags : Nat
  load : Bool
  region : Nat
  sectors : List Nat
  phase : ReusePhase := .valid
  deriving DecidableEq, Repr

/-- The six counters of a context on a core (R86, R149). -/
structure Counters where
  hit : BitVec 64 := 0
  ldhit : BitVec 64 := 0
  kill : BitVec 64 := 0
  share : BitVec 64 := 0
  coll : BitVec 64 := 0
  roll : BitVec 64 := 0
  deriving DecidableEq, Repr

/-- A TLB entry (R350): virtual base and size of what it covers, its physical base, ASID and leaf attributes. -/
structure TlbEntry where
  asid : Nat
  vbase : Nat
  size : Nat
  pbase : Nat
  g : Bool
  u : Bool
  x : Bool
  w : Bool
  r : Bool
  deriving DecidableEq, Repr

/-- What a core holds beside its furrows; a core not listed holds the defaults. -/
structure Core where
  ix : Nat
  /-- groups waiting for a permit in order: slot and lanes (R323) -/
  reserve : List (Nat × BitVec 32) := []
  /-- reuse tables of the four quarters (R78) -/
  reuse : Vector (List ReuseEntry) 4 := Vector.replicate 4 []
  /-- sectors in the L1 (R125) -/
  l1 : List Nat := []
  /-- the L0 TLBs of the four quarters and the L1 TLB (R350) -/
  tlb0 : Vector (List TlbEntry) 4 := Vector.replicate 4 []
  tlb : List TlbEntry := []
  counters : List (Nat × Counters) := []
  deriving DecidableEq, Repr

/-- Who waits for a fault entry (R360). -/
inductive Waiter
  | furrow (core slot : Nat)
  | command (id : Nat)
  | hint
  deriving DecidableEq, Repr

/-- A fault-queue entry (R355): unresolved from its posting until its `fqdone`; queued until an `fqtake`. -/
structure FaultEntry where
  seq : Nat
  queued : Bool
  vaddr : BitVec 64
  ctx : Nat
  asid : Nat
  cause : Nat
  level : Nat
  origin : Nat
  busy : Bool
  badPte : Bool
  wlevel : Nat
  kind : Nat
  count : Nat
  first : BitVec 64
  waiters : List Waiter
  deriving DecidableEq, Repr

/-- A walk of a prefetch that has not ended (R258, R351): the core, the context with its partition and level, the class of its field, whether the
prefetch keeps out of the L1, the address, and the partition whose walker has taken it. -/
structure Walk where
  core : Nat
  ctx : Nat
  partition : Nat
  level : Nat
  cls : Nat
  hold : Bool
  va : Nat
  on : Option Nat := none
  deriving DecidableEq, Repr

/-- The eight error counters of a die (R434). -/
structure ErrCounters where
  corrected : Nat := 0
  rebuilt : Nat := 0
  poisoned : Nat := 0
  recoveries : Nat := 0
  recreated : Nat := 0
  dropped : Nat := 0
  retries : Nat := 0
  redos : Nat := 0
  deriving DecidableEq, Repr

/-- What a compute die holds (R338, R350, R351, R355, R391, R434). -/
structure Die where
  svc : List (BitVec 64 × BitVec 64) := []
  faults : List FaultEntry := []
  /-- next SEQ (R355) -/
  nextSeq : Nat := 1
  /-- the L2 TLB, and the walks pending or under way in order of arrival -/
  tlb : List TlbEntry := []
  walks : List Walk := []
  /-- peer-page list of the RDC in order of filling, and the untracked sectors it holds with the point of order of the fill and the bytes read (R391) -/
  peerPages : List Nat := []
  peerLines : List (Nat × Nat × List (BitVec 8)) := []
  errs : ErrCounters := {}
  /-- excluded by bring-up tests (R443) -/
  excluded : Bool := false
  deriving DecidableEq, Repr

/-- A rank-table entry (R430). -/
structure RankEntry where
  kind : Nat
  pkg : Nat
  ctx : Nat
  reach : Nat
  fieldIx : Nat
  dqpn : Nat
  addr : Nat
  deriving DecidableEq, Repr

/-- How a context ended (R398): the completion code, its DETAIL and LOC. -/
structure CtxEnd where
  code : Nat
  detail : Nat
  loc : BitVec 64
  deriving DecidableEq, Repr

/-- One context with its registers (R316, R348, R417, R423). -/
structure Ctx where
  ctx : Nat
  service : Bool := false
  part : Nat := 0
  classMin : Nat := 0
  orphan : Nat := 0
  save : Nat := 0
  saveSize : Nat := 0
  mbox : BitVec 64 := 0
  troot : BitVec 64 := 0
  tasid : BitVec 16 := 0
  tvecS : BitVec 64 := 0
  tvecH : BitVec 64 := 0
  tresp : BitVec 32 := 0
  fwdog : BitVec 32 := 12
  reuseCtl : BitVec 32 := 3
  hctl : BitVec 64 := 1
  hdeleg : BitVec 64 := 0
  bpt : Vector (BitVec 64) 4 := Vector.replicate 4 0
  wpt : Vector (BitVec 64) 2 := Vector.replicate 2 0
  hpar : Vector (BitVec 64) 16 := Vector.replicate 16 0
  ended : Option CtxEnd := none
  groups : List (Nat × Nat × List RankEntry) := []
  /-- messages the ditchriders have copied from its mailbox (R440) -/
  mboxSeen : Nat := 0
  deriving DecidableEq, Repr

/-! ### Schemes -/

/-- A basin (R59): slots by state, full ones in the order published. -/
structure Basin where
  base : BitVec 64
  depth : Nat
  slotBytes : Nat
  empty : List Nat
  filling : List Nat
  full : List Nat
  reading : List Nat
  ended : Bool := false
  deriving DecidableEq, Repr

/-- A reach of a scheme (R58, R396). -/
structure Reach where
  kernel : Kernel
  kind : Nat
  cls : Nat
  /-- terrace member count, 0 for none -/
  tsize : Nat
  minFields : Nat
  maxFields : Nat
  arm : Nat
  /-- q12 to q15: none, or output and basin number -/
  ports : Vector (Option (Bool × Nat)) 4
  nextIx : Nat := 0
  /-- fields started, over the run -/
  startedFields : Nat := 0
  counter : Int := 0
  /-- a dispatch of a counter-triggered reach is running -/
  running : Bool := false
  final : Bool := false
  ended : Bool := false
  deriving DecidableEq, Repr

/-- A scheme (R58, R396, R398). -/
structure Scheme where
  id : Nat
  ctx : Nat
  queue : Nat
  reaches : List Reach
  basins : List Basin
  tag : BitVec 64
  dseq : Nat
  done : BitVec 64
  /-- TLIMIT in microseconds and when the record was accepted -/
  tlimit : Nat
  acceptedAt : Nat
  ended : Option (Nat × Nat × BitVec 64) := none
  deriving DecidableEq, Repr

/-! ### Coherence -/

/-- A transient request of a holder (R374, R378, R380): read or write, attempt, when sent, ordered-mode age, requesting core, the holder's tag. -/
structure TransReq where
  write : Bool
  attempt : Nat
  sentAt : Nat
  age : Nat
  core : Nat
  tag : Nat := 0
  deriving DecidableEq, Repr

/-- What one agent keeps of a sector (R377, R386). -/
structure Holder where
  agent : Nat
  n : Nat := 0
  own : Bool := false
  valid : Bool := false
  dirty : Bool := false
  req : Option TransReq := none
  /-- it has raised a persistent request (R381) -/
  preq : Option Bool := none
  /-- active requester recorded from a PACT -/
  bound : Option Nat := none
  /-- recovery: between RECOVER and REISSUE, with the serial recorded -/
  recovering : Bool := false
  serial : Nat := 0
  /-- until when a RECOVER record is kept (R386) -/
  recordUntil : Option Nat := none
  /-- queued forwards of ordered mode: agent, write, age (R389) -/
  forwards : List (Nat × Bool × Nat) := []
  pred : List Nat := []
  /-- cores whose L1 a prefetch fills when it gets its token (R258) -/
  fills : List Nat := []
  deriving DecidableEq, Repr

/-- The host-side state of a host-homed line (R393). -/
inductive HostState
  | nh | sh | ex
  deriving DecidableEq, Repr

/-- A host transaction in progress at the CXL agent: 0 SnpData, 1 SnpInv, 3 a back-invalidate before it sends its tokens, 4 a RdShared, 5 a
RdOwn, 6 a CleanEvict, 7 a DirtyEvict; the data the host line takes after a snoop; the agent to answer and whether it writes. -/
structure HostOp where
  kind : Nat
  data : Option (List (BitVec 8)) := none
  requester : Nat := 0
  write : Bool := false
  deriving DecidableEq, Repr

/-- A message in flight (R374, R375), one for each receiving agent. -/
structure Message where
  typ : Nat
  src : Nat
  dst : Nat
  sector : Nat
  serial : Nat := 0
  count : Nat := 0
  own : Bool := false
  data : Bool := false
  dirty : Bool := false
  att : Nat := 0
  core : Nat := 0
  tag : Nat := 0
  age : Nat := 0
  sentAt : Nat := 0
  /-- the receivers it was sent to, by agent, and the 64 bytes that follow the header where `data` is set -/
  dmask : Nat := 0
  bytes : List (BitVec 8) := []
  deriving DecidableEq, Repr

/-- The token state of a sector (R372, R379, R384). A sector not listed has 8 tokens at its home under serial 0. -/
structure Sector where
  pa : Nat
  serial : Nat := 0
  current : Bool := true
  holders : List Holder
  /-- pending persistent requests in arrival order: agent, write, when they came -/
  pending : List (Nat × Bool × Nat) := []
  active : Option (Nat × Bool × Nat) := none
  /-- a recovery: when it began, tokens got, owner seen -/
  recovery : Option (Nat × Nat × Bool) := none
  heldMsgs : List Message := []
  /-- after a deactivation: the agent and the requests that must be served before it may raise another (R310) -/
  barred : List (Nat × List Nat) := []
  /-- host-homed lines: the state of R393; lines of this package: the hosts that hold a copy through the CXL agent (R394) -/
  host : HostState := .nh
  hosts : List Nat := []
  hostOps : List HostOp := []
  /-- what the host's memory still holds of a host-homed line that this package has written (R424) -/
  homeCopy : Option (List (BitVec 8)) := none
  deriving DecidableEq, Repr

/-- Who makes an access from outside the cores, and through which agent (R371, R392, R394): the base die at the line's home, another package through
the pod agent, a host through the CXL agent. -/
inductive OuterKind
  | base
  | pod (pkg : Nat)
  | cxl (host : Nat)
  deriving DecidableEq, Repr

/-- An access from outside the cores, to one sector, not yet performed for want of tokens; with the interrupt that follows it. -/
structure OuterOp where
  agent : Nat
  kind : OuterKind
  pa : Nat
  access : OuterAccess
  irq : Option (Nat × Nat) := none
  deriving DecidableEq, Repr

/-! ### Soft errors (R124, R127) -/

/-- Where a soft error strikes: a flit of an agent's die-to-die link (R434), a line at its home, a die's copy of a sector, a core's L1 copy, or a word of a
field's scratchpad (space 1), tile store (2) or B-slice (3). -/
inductive UpsetAt
  | link (agent : Nat)
  | home (pa : Nat)
  | holder (die pa : Nat)
  | l1 (core pa : Nat)
  | word (space field addr : Nat)
  deriving DecidableEq, Repr

/-- A soft error to come: when it is met, where, and how bad: corrected, rebuilt from parity (scratchpad words only), or uncorrectable. -/
structure Upset where
  time : Nat
  place : UpsetAt
  level : Fin 3
  deriving DecidableEq, Repr

/-! ### Hosts and management -/

/-- One submission queue of a VF (R418, R420). -/
structure Sq where
  base : BitVec 64 := 0
  en : Bool := false
  log2n : Nat := 0
  tail : Nat := 0
  head : Nat := 0
  gen : Nat := 0
  claimst : Nat := 0
  consumed : Nat := 0
  orphaned : Bool := false
  deriving DecidableEq, Repr

/-- A completion record kept back for a detached host (R425): queue, DONE address and its 32 bytes; and its physical address, once its context is gone. -/
structure Retained where
  queue : Nat
  done : BitVec 64
  bytes : List (BitVec 8)
  pa : Option Nat := none
  deriving DecidableEq, Repr

/-- One virtual function (R416, R418, R421). A VF not listed has these defaults. -/
structure Vf where
  ix : Nat
  ld : Option Nat := none
  event : BitVec 7 := 0
  queues : Vector Sq 8 := Vector.replicate 8 {}
  /-- the queue served last (R419) -/
  turn : Nat := 7
  /-- interrupts raised, vector 0 to 8, each with the time up to which it is pending in the host (R421) -/
  irqs : List (Nat × Nat) := []
  retained : List Retained := []
  deriving DecidableEq, Repr

/-- One logical device with its PF (R416, R422, R437). -/
structure Ld where
  ix : Nat
  /-- the host that the fabric manager has bound it to -/
  host : Option Nat := none
  attached : Bool := false
  usable : Bool := false
  detachedAt : Nat := 0
  result : Vector (BitVec 64) 16 := Vector.replicate 16 0
  seq : BitVec 32 := 0
  /-- `PF_CMD` (R422), and the command in service that waits to complete -/
  cmd : Vector (BitVec 64) 8 := Vector.replicate 8 0
  serving : Option Instr := none
  deriving DecidableEq, Repr

/-- The firmware image that runs (R436, R437). -/
structure Firmware where
  version : Nat
  secver : Nat
  digest : Nat
  deriving DecidableEq, Repr

/-- A service field of the firmware image (R18, R443 step 7), as the environment names it: die, the context registers of the service
context, and the kernel; the image's own layout is not architectural (R436). -/
structure ServiceSpec where
  /-- VERSION of the image it belongs to (R438) -/
  version : Nat
  die : Nat
  troot : BitVec 64
  save : Nat
  saveSize : Nat
  kernel : Kernel
  deriving DecidableEq, Repr

/-- What bring-up meets outside the package (R443 steps 5 and 6), as the environment has it: the index and the pod that the fabric manager
assigns, the Ronmeaz and Ethernet ports that train, and the dies that fail their tests with the faults that these count; and the Ronmeaz ports over which a
package is reached, where not all (R428). -/
structure Fabric where
  pkg : Nat := 0
  pod : List Nat := []
  links : BitVec 16 := 0xFFFF
  ether : BitVec 16 := 0xFFFF
  failed : List (Nat × ErrCounters) := []
  paths : List (Nat × BitVec 16) := []
  deriving DecidableEq, Repr

/-- A quad with its partition and whether its scrub is pending (R413, R414); `next` is what the scrub leads to. -/
structure Quad where
  ix : Nat
  part : Option Nat := none
  scrub : Option (Option Nat × Nat) := none
  deriving DecidableEq, Repr

/-! ### The issue register and the whole state -/

/-- Whether a slot's choice is to be made again, because a group that was chosen has an unmet wait (R33, R35): the whole of it, or that of the second
group. -/
inductive Redo
  | no | all | second
  deriving DecidableEq, Repr

/-- The groups selected for one slot (R35) and how far their chains have come. -/
structure Issue where
  core : Nat
  slot : Nat
  /-- lanes of the group whose chain is issuing -/
  lanes : BitVec 32
  /-- false before the first word of the chain -/
  inChain : Bool := false
  second : Option (BitVec 32) := none
  /-- an access under way that completes, of a group of any level: the furrow's own level, to which it goes back -/
  back : Option Nat := none
  /-- the first group's trap, taken after the second has issued (R325) -/
  deferred : Option TrapReq := none
  /-- the furrow before this selection, and before this chain closed a clause, to undo them for a group that turns out to wait -/
  undo : Option Furrow := none
  reopen : Option Furrow := none
  /-- the groups before this selection, whose ages a group that turns out to wait keeps -/
  before : List Group := []
  /-- the lanes of the group chosen first -/
  first : BitVec 32 := 0
  /-- the second group's chain uses a register that an access of the first group's writes (R38, R65) -/
  follows : Bool := false
  redo : Redo := .no
  deriving DecidableEq, Repr

/-- Who reads or writes memory (R133): some lanes of a furrow with the core it is on, or an engine class's agent on a core (field and
index 0, lane 0). -/
structure Party where
  cls : Cls
  core : Nat
  field : Nat := 0
  ix : Nat := 0
  lanes : BitVec 32 := 1
  deriving DecidableEq, Repr

/-- A scope at which a write is visible: the scope and the core of its writer then (R8), the point of order since when; the reader through which it
became visible to everybody (R140); and whether it is visible to plain reads too, its writer's fence having completed (R142, R144). -/
structure Shown where
  scope : Nat
  since : Nat
  core : Nat
  via : Option Party := none
  firm : Bool := false
  deriving DecidableEq, Repr

/-- A write performed that some reader may still read past (R131, R137, R140 to R142): its place in coherence order, the instruction or
engine event that made it, space (0 memory, 1 a field's scratchpad, 2 its tile store, 3 its B-slice), field and address, what a reader past it
finds (none where a later write is seen by everyone), the writer with its command (0 for none), whether it is a status word, whether a plain store of
a scratchpad, and the scope of its own release (0 for none). -/
structure Write where
  seq : Nat
  op : Nat
  space : Nat
  field : Nat
  addr : Nat
  old : List (Option (BitVec 8))
  by_ : Party
  cmd : Nat
  status : Bool
  plain : Bool := false
  rel : Nat := 0
  /-- scopes of the writer at which it is visible -/
  vis : List Shown := []
  /-- when every reader sees it (R141); none while its group is on a diverged path (R142) -/
  till : Option Nat
  /-- readers bound to it (R137, R150), and lanes that observed its command's completion on a weir (R150) -/
  seen : List Party := []
  obs : List Party := []
  /-- lanes whose later commands of a class see it, and the commands that do (R150, R152) -/
  push : List (Party × Cls) := []
  cmds : List Nat := []
  /-- the fields of a scheme's reach that see it without a fence (R302) -/
  cen : Option (Nat × Nat) := none
  deriving DecidableEq, Repr

/-- A command's contribution at a weir (R151, R152): the weir's space, field and address, and whether the phase has flipped since. -/
structure Contrib where
  space : Nat
  field : Nat
  addr : Nat
  cmd : Nat
  flipped : Bool
  deriving DecidableEq, Repr

/-- The package. -/
structure State where
  /-- the model's own: time in periods of 0.25 ns; the environment's inputs and choices in order; the issue register; the counter of
  free values; points of order, writes not yet seen by all, the newest first, and contributions at weirs -/
  cycles : Nat
  agenda : List Instr
  issue : Option Issue
  freeCtr : Nat
  order : Nat
  recent : List Write
  contribs : List Contrib
  /-- physical memory of every region (R119) and its poisoned words -/
  mem : List Host.Cell
  poison : List Nat
  /-- installed LPDDR6 bytes (R119) -/
  lpddr : Nat
  furrows : List Furrow
  fields : List Field
  cores : List Core
  dies : Vector Die 6
  /-- the base die's error counters -/
  baseErrs : ErrCounters
  ctxs : List Ctx
  commands : List Command
  colls : List Collective
  schemes : List Scheme
  sectors : List Sector
  net : List Message
  /-- accesses from outside the cores that wait for tokens, in order; soft errors still to be met, which the environment lays down -/
  outer : List OuterOp
  upsets : List Upset
  /-- events that wait for tokens of what the base die reads for them, with the sectors; completion records whose address translation waits so:
  context, queue, DONE and the record -/
  deferred : List (Instr × List Nat)
  records : List (Nat × Nat × BitVec 64 × List (BitVec 8))
  vfs : List Vf
  lds : List Ld
  /-- the LD that holds the management right (R416) -/
  mgmt : Nat
  quads : List Quad
  /-- `COH_MODE`.MODE and, while a change drains, the mode to come (R388, R390) -/
  cohMode : Bool
  cohNext : Option Bool
  /-- `ACCFG_H` (R348) and the access counters of each 2 MiB region (R366) -/
  accfg : BitVec 32
  access : List (Nat × Vector Nat 6)
  /-- package index in its pod and the other packages reachable (R428) -/
  pkg : Nat
  pod : List Nat
  /-- Ronmeaz and Ethernet ports up (R422) -/
  links : BitVec 16
  ether : BitVec 16
  /-- what the next bring-up meets -/
  fabric : Fabric
  /-- clock of each island in MHz (R441, R442) -/
  islands : Vector Nat 16
  /-- cycles each island's clock has made since the last reset, in units of 1/4000 (R317) -/
  islandTime : Vector Nat 16
  firmware : Option Firmware
  /-- firmware a die's service code still lags behind (R438) -/
  fwDies : Vector Bool 6
  /-- service fields of the next firmware image to start -/
  service : List ServiceSpec
  fusedMin : Nat
  ready : Bool
  halted : Bool
  powered : Bool
  /-- the model's own: the next identifier of a field, command, collective, scheme or order of waiting -/
  nextId : Nat
  deriving DecidableEq, Repr

/-- The machine after power-on reset: R443 steps 1 to 3 are done, READY is 0, `COH_MODE` 1, no image runs, no context exists, every
token lies at its home. -/
def State.reset : State where
  cycles := 0
  agenda := []
  issue := none
  freeCtr := 0
  order := 0
  recent := []
  contribs := []
  mem := []
  poison := []
  lpddr := 2 ^ 41
  furrows := []
  fields := []
  cores := []
  dies := Vector.replicate 6 {}
  baseErrs := {}
  ctxs := []
  commands := []
  colls := []
  schemes := []
  sectors := []
  net := []
  outer := []
  upsets := []
  deferred := []
  records := []
  vfs := []
  lds := []
  mgmt := 0
  quads := []
  cohMode := true
  cohNext := none
  accfg := 512
  access := []
  pkg := 0
  pod := []
  links := 0
  ether := 0
  fabric := {}
  islands := Vector.ofFn (fun i : Fin 16 => if i.val < 12 then 4000 else 2000)
  islandTime := Vector.replicate 16 0
  firmware := none
  fwDies := Vector.replicate 6 false
  service := []
  fusedMin := 0
  ready := false
  halted := false
  powered := true
  nextId := 1

end Sys2Proof.Machine
end

