-- ==== Sys2Proof/Machine/Bits.lean ====
section
/-! DEFINITION. Bits, lanes, little-endian numbers and sorted address lists: the helpers the machine's operations share. -/
namespace Sys2Proof.Machine

/-! ### Bit fields and byte order (R2, R3) -/

/-- Bits [lo + n - 1 : lo] of a number. -/
def bitsOf (x lo n : Nat) : Nat := (x >>> lo) % 2 ^ n

/-- Sign extension of the low n bits (R9 helpers `sext`). -/
def sext (x n : Nat) : Int := let y := x % 2 ^ n; if n ≠ 0 ∧ 2 ^ (n - 1) ≤ y then (y : Int) - 2 ^ n else y

/-- `wrap(x, n)`: the low n bits of an integer as a number. -/
def wrap (x : Int) (n : Nat) : Nat := (x % (2 ^ n : Nat)).toNat

/-- A number from its bytes, the first the least significant. -/
def leNat : List Byte → Nat
  | [] => 0
  | b :: bs => b.toNat + 256 * leNat bs

/-- The n low bytes of a number, the least significant first. -/
def leBytes : Nat → Nat → List Byte
  | 0, _ => []
  | n + 1, x => BitVec.ofNat 8 x :: leBytes n (x / 256)

/-- Ceiling of a quotient. -/
def ceilDiv (a b : Nat) : Nat := (a + b - 1) / b

/-- Number of set bits among the low n. -/
def popCount (x n : Nat) : Nat := ((List.range n).filter (fun k => x.testBit k)).length

/-- Leading zero bits of a number of n bits; n when it is 0. -/
def leadingZeros (x n : Nat) : Nat := if x = 0 then n else n - (Nat.log2 x + 1)

/-! ### Lanes and masks (R4, R65, R67) -/

/-- Bit i of a mask. -/
def inMask (m : Mask) (i : Nat) : Bool := m.getLsbD i

/-- The mask of the lanes for which a test holds. -/
def maskOf (t : Nat → Bool) : Mask := (List.range 32).foldl (fun m i => if t i then m ||| (1 <<< i) else m) 0

/-- Lanes of a mask in ascending order. -/
def lanesOf (m : Mask) : List Nat := (List.range 32).filter (inMask m)

/-- Number of lanes. -/
def laneCount (m : Mask) : Nat := (lanesOf m).length

/-- Lowest lane of a mask; 0 when it is empty. -/
def lowestLane (m : Mask) : Nat := (lanesOf m).headD 0

/-- Lane i of a `v` register. -/
def laneV (r : VReg) (i : Nat) : W32 := r.extractLsb' (32 * i) 32

/-- A register from its lanes. -/
def vOfLanes (f : Nat → W32) : VReg := (List.range 32).foldl (fun r i => r ||| ((f i).setWidth 1024 <<< (32 * i))) 0

/-- A vector write (R68): the lanes of the mask take the new value, every other lane keeps its own. -/
def mergeV (old : VReg) (m : Mask) (f : Nat → W32) : VReg := vOfLanes (fun i => if inMask m i then f i else laneV old i)

/-- The lane values of a per-lane table. -/
def tableOf {α : Type} (f : Nat → α) : Vector α 32 := Vector.ofFn (fun i : Fin 32 => f i.val)

/-- Entry i of a per-lane table, by the lane's number. -/
def laneAt {α : Type} (t : Vector α 32) (i : Nat) : α := t[Fin.ofNat 32 i]

/-! ### Canonical byte lists: addresses strictly rising, no entry equal to the value an unlisted address reads as, 0 -/

/-- The byte at an address; an unlisted address reads 0. -/
def cellsGet : List (Nat × Byte) → Nat → Byte
  | [], _ => 0
  | (a, b) :: cs, x => if x < a then 0 else if x = a then b else cellsGet cs x

/-- The list with the byte at an address set: zero removes the entry. -/
def cellsSet : List (Nat × Byte) → Nat → Byte → List (Nat × Byte)
  | [], x, v => if v = 0 then [] else [(x, v)]
  | (a, b) :: cs, x, v =>
    if x < a then (if v = 0 then (a, b) :: cs else (x, v) :: (a, b) :: cs)
    else if x = a then (if v = 0 then cs else (x, v) :: cs)
    else (a, b) :: cellsSet cs x v

/-- The form holds: strictly rising from a lower bound, no zero byte. -/
def cellsOk : Nat → List (Nat × Byte) → Bool
  | _, [] => true
  | lo, (a, b) :: cs => decide (lo ≤ a) && b != 0 && cellsOk (a + 1) cs

/-- Consecutive bytes from an address. -/
def cellsRead (cs : List (Nat × Byte)) : Nat → Nat → List Byte
  | _, 0 => []
  | a, n + 1 => cellsGet cs a :: cellsRead cs (a + 1) n

/-- Consecutive bytes written from an address. -/
def cellsWrite (cs : List (Nat × Byte)) : Nat → List Byte → List (Nat × Byte)
  | _, [] => cs
  | a, b :: bs => cellsWrite (cellsSet cs a b) (a + 1) bs

/-- A set of numbers as a strictly rising list: insertion. -/
def setInsert : List Nat → Nat → List Nat
  | [], x => [x]
  | a :: as, x => if x < a then x :: a :: as else if x = a then a :: as else a :: setInsert as x

/-- Removal. -/
def setRemove (l : List Nat) (x : Nat) : List Nat := l.filter (fun a => a != x)

/-- Poison after a write of n bytes at an address (R127): a word written whole loses its poison, one written in part keeps it. -/
def poisonAfter (p : List Nat) (a n : Nat) : List Nat := p.filter (fun w => !(decide (a ≤ w ∧ w + 4 ≤ a + n)))

/-- Whether any of n bytes at an address lies in a poisoned word. -/
def poisonHit (p : List Nat) (a n : Nat) : Bool := p.any (fun w => decide (w < a + n ∧ a < w + 4))

/-- The list with the elements that meet a test replaced. -/
def mapIf {α : Type} (l : List α) (t : α → Bool) (f : α → α) : List α := l.map (fun x => if t x then f x else x)

/-- The element at a place. -/
def nth? {α : Type} (l : List α) (n : Nat) : Option α := l[n]?

/-- The list without the element at a place. -/
def dropNth {α : Type} (l : List α) (n : Nat) : List α := l.take n ++ l.drop (n + 1)

/-- The element with the largest key among those given, the earliest winning a tie; the key is compared as a list of numbers. -/
def bestBy {α : Type} (better : α → α → Bool) : List α → Option α
  | [] => none
  | x :: xs => some (xs.foldl (fun b y => if better y b then y else b) x)

/-- An element put into a sorted list, after those that do not come later. -/
def insertBy {α : Type} (before : α → α → Bool) (x : α) : List α → List α
  | [] => [x]
  | y :: ys => if before x y then x :: y :: ys else y :: insertBy before x ys

/-- A list sorted, elements of equal rank in the order in which they stood. -/
def sortBy {α : Type} (before : α → α → Bool) (l : List α) : List α := l.foldl (fun r x => insertBy before x r) []

end Sys2Proof.Machine
end

