-- ==== Sys2Proof/Machine/Access.lean ====
section
/-! DEFINITION. Named reads and writes of the parts of the state: memory bytes, furrows, fields, cores, dies, contexts, registers. -/
namespace Sys2Proof.Machine

/-! ### Memory bytes (R127, R137) -/

/-- The canonical form of a memory: addresses strictly rising, no entry equal to what an unlisted address reads as, 0 (log 1). -/
def Memory.wf (m : List Host.Cell) : Bool := cellsOk 0 m

/-- The byte at a physical address. -/
def State.byteAt (s : State) (pa : Nat) : Byte := cellsGet s.mem pa

/-- Consecutive bytes at a physical address. -/
def State.bytesAt (s : State) (pa n : Nat) : List Byte := cellsRead s.mem pa n

/-- The little-endian number of n bytes at a physical address. -/
def State.numAt (s : State) (pa n : Nat) : Nat := leNat (s.bytesAt pa n)

/-- Bytes written at a physical address; words written whole lose their poison. -/
def State.writeBytes (s : State) (pa : Nat) (bs : List Byte) : State :=
  { s with mem := cellsWrite s.mem pa bs, poison := poisonAfter s.poison pa bs.length }

/-- Whether bytes at a physical address meet poison. -/
def State.poisoned (s : State) (pa n : Nat) : Bool := poisonHit s.poison pa n

/-- Every word of a 64-byte sector poisoned (R127, R384). -/
def State.poisonSector (s : State) (pa : Nat) : State :=
  { s with poison := (List.range 16).foldl (fun p k => setInsert p (pa + 4 * k)) s.poison }

/-! ### A field's own stores (R122, R128, R129) -/

/-- Bytes of a store. -/
def Store.bytesAt (t : Store) (a n : Nat) : List Byte := cellsRead t.cells a n
/-- A store with bytes written. -/
def Store.writeBytes (t : Store) (a : Nat) (bs : List Byte) : Store :=
  { t with cells := cellsWrite t.cells a bs, poison := poisonAfter t.poison a bs.length }
/-- Whether bytes of a store meet poison. -/
def Store.poisoned (t : Store) (a n : Nat) : Bool := poisonHit t.poison a n

/-! ### Places (R16) -/

/-- Compute die of a package core. -/
def dieOf (core : Nat) : Nat := core / 48
/-- Core within its die. -/
def coreInDie (core : Nat) : Nat := core % 48
/-- Package quad of a package core. -/
def quadOf (core : Nat) : Nat := core / 4
/-- Quarter of a furrow slot. -/
def quarterOf (slot : Nat) : Nat := slot / 16
/-- Core 0 of each die is its service core (R17). -/
def isServiceCore (core : Nat) : Bool := core % 48 == 0

/-- `LOC_ID` (R25) of a furrow at a core and slot. -/
def locId (pkg core slot : Nat) : BitVec 64 :=
  BitVec.ofNat 64 (pkg % 256 * 2 ^ 32 + dieOf core * 2 ^ 24 + coreInDie core * 2 ^ 16 + (coreInDie core / 16) * 2 ^ 14
    + (coreInDie core / 4) * 2 ^ 10 + quarterOf slot * 2 ^ 8 + slot)

/-! ### Look-ups and replacements -/

/-- The furrow in a slot of a core. -/
def State.furrow? (s : State) (core slot : Nat) : Option Furrow := s.furrows.find? (fun f => f.core == core && f.slot == slot)

/-- The furrow put back in its slot. -/
def State.setFurrow (s : State) (f : Furrow) : State :=
  { s with furrows := s.furrows.map (fun g => if g.core == f.core && g.slot == f.slot then f else g) }

/-- A change of the furrow in a slot. -/
def State.onFurrow (s : State) (core slot : Nat) (k : Furrow → Furrow) : State :=
  { s with furrows := s.furrows.map (fun g => if g.core == core && g.slot == slot then k g else g) }

/-- The field of an identifier. -/
def State.field? (s : State) (id : Nat) : Option Field := s.fields.find? (fun f => f.id == id)
/-- A change of a field. -/
def State.onField (s : State) (id : Nat) (k : Field → Field) : State := { s with fields := mapIf s.fields (fun f => f.id == id) k }

/-- The context of an identifier. -/
def State.ctx? (s : State) (c : Nat) : Option Ctx := s.ctxs.find? (fun x => x.ctx == c)
/-- A change of a context. -/
def State.onCtx (s : State) (c : Nat) (k : Ctx → Ctx) : State := { s with ctxs := mapIf s.ctxs (fun x => x.ctx == c) k }

/-- The core of a package core number; a core not listed holds the defaults. -/
def State.core (s : State) (c : Nat) : Core := (s.cores.find? (fun x => x.ix == c)).getD { ix := c }
/-- A change of a core. -/
def State.onCore (s : State) (c : Nat) (k : Core → Core) : State :=
  { s with cores := if s.cores.any (fun x => x.ix == c) then mapIf s.cores (fun x => x.ix == c) k else k { ix := c } :: s.cores }

/-- A compute die. -/
def State.die (s : State) (d : Nat) : Die := s.dies[Fin.ofNat 6 d]
/-- A change of a die. -/
def State.onDie (s : State) (d : Nat) (k : Die → Die) : State :=
  { s with dies := s.dies.set (Fin.ofNat 6 d) (k s.dies[Fin.ofNat 6 d]) }

/-- The scheme of an identifier. -/
def State.scheme? (s : State) (id : Nat) : Option Scheme := s.schemes.find? (fun x => x.id == id)
/-- A change of a scheme. -/
def State.onScheme (s : State) (id : Nat) (k : Scheme → Scheme) : State := { s with schemes := mapIf s.schemes (fun x => x.id == id) k }

/-- The command of an identifier. -/
def State.cmd? (s : State) (id : Nat) : Option Command := s.commands.find? (fun x => x.id == id)
/-- A change of a command. -/
def State.onCmd (s : State) (id : Nat) (k : Command → Command) : State :=
  { s with commands := mapIf s.commands (fun x => x.id == id) k }

/-- The collective of an identifier. -/
def State.coll? (s : State) (id : Nat) : Option Collective := s.colls.find? (fun x => x.id == id)
/-- A change of a collective. -/
def State.onColl (s : State) (id : Nat) (k : Collective → Collective) : State := { s with colls := mapIf s.colls (fun x => x.id == id) k }

/-- A virtual function; one not listed holds the defaults (R418). -/
def State.vf (s : State) (n : Nat) : Vf := (s.vfs.find? (fun x => x.ix == n)).getD { ix := n }
/-- A change of a virtual function. -/
def State.onVf (s : State) (n : Nat) (k : Vf → Vf) : State :=
  { s with vfs := if s.vfs.any (fun x => x.ix == n) then mapIf s.vfs (fun x => x.ix == n) k else k { ix := n } :: s.vfs }

/-- A logical device. -/
def State.ld (s : State) (n : Nat) : Ld := (s.lds.find? (fun x => x.ix == n)).getD { ix := n }
/-- A change of a logical device. -/
def State.onLd (s : State) (n : Nat) (k : Ld → Ld) : State :=
  { s with lds := if s.lds.any (fun x => x.ix == n) then mapIf s.lds (fun x => x.ix == n) k else k { ix := n } :: s.lds }

/-- A quad. -/
def State.quad (s : State) (n : Nat) : Quad := (s.quads.find? (fun x => x.ix == n)).getD { ix := n }
/-- A change of a quad. -/
def State.onQuad (s : State) (n : Nat) (k : Quad → Quad) : State :=
  { s with quads := if s.quads.any (fun x => x.ix == n) then mapIf s.quads (fun x => x.ix == n) k else k { ix := n } :: s.quads }

/-- Whether the package core lies in a partition (R413). -/
def State.coreInPart (s : State) (part core : Nat) : Bool := (s.quad (quadOf core)).part == some part

/-- A fresh identifier. -/
def State.fresh (s : State) : Nat × State := (s.nextId, { s with nextId := s.nextId + 1 })

/-- The counter of free values, advanced. -/
def State.tickFree (s : State) : State := { s with freeCtr := s.freeCtr + 1 }

/-! ### Registers of a furrow (R65, R314) -/

/-- `w` register n as read at a level: `w0` reads 0, `w56` to `w63` are the level's bank. -/
def Furrow.readW (f : Furrow) (n : Nat) : W64 :=
  if n % 64 = 0 then 0 else if n % 64 < 56 then f.w[Fin.ofNat 56 (n % 64)] else (f.wbank[Fin.ofNat 4 f.level])[Fin.ofNat 8 (n % 64 - 56)]

/-- `w` register n written: `w0` discards. -/
def Furrow.writeW (f : Furrow) (n : Nat) (x : W64) : Furrow :=
  if n % 64 = 0 then f
  else if n % 64 < 56 then { f with w := f.w.set (Fin.ofNat 56 (n % 64)) x }
  else { f with wbank := f.wbank.set (Fin.ofNat 4 f.level) ((f.wbank[Fin.ofNat 4 f.level]).set (Fin.ofNat 8 (n % 64 - 56)) x) }

/-- Predicate n: `p7` reads all ones, `p6` is the level's bank. -/
def Furrow.readP (f : Furrow) (n : Nat) : Mask :=
  if n % 8 = 7 then 0xFFFFFFFF else if n % 8 = 6 then f.pbank[Fin.ofNat 4 f.level] else f.p[Fin.ofNat 6 (n % 8)]

/-- Predicate n written in the lanes of a mask (R68, R197): `p7` discards. -/
def Furrow.writeP (f : Furrow) (n : Nat) (m x : Mask) : Furrow :=
  let y := (f.readP n &&& ~~~m) ||| (x &&& m)
  if n % 8 = 7 then f
  else if n % 8 = 6 then { f with pbank := f.pbank.set (Fin.ofNat 4 f.level) y }
  else { f with p := f.p.set (Fin.ofNat 6 (n % 8)) y }

/-- `v` register n. -/
def Furrow.readV (f : Furrow) (n : Nat) : VReg := f.v[Fin.ofNat 128 n]

/-- Lane i of `v` register n. -/
def Furrow.laneOf (f : Furrow) (n i : Nat) : W32 := laneV (f.readV n) i

/-- Lane i of the pair v(n):v(n+1) (R67). -/
def Furrow.pairOf (f : Furrow) (n i : Nat) : W64 := f.laneOf (n + 1) i ++ f.laneOf n i

/-- `v` register n written in the lanes of a mask (R68). -/
def Furrow.writeV (f : Furrow) (n : Nat) (m : Mask) (x : Nat → W32) : Furrow :=
  { f with v := f.v.set (Fin.ofNat 128 n) (mergeV (f.readV n) m x) }

/-- The pair at n written in the lanes of a mask. -/
def Furrow.writePair (f : Furrow) (n : Nat) (m : Mask) (x : Nat → W64) : Furrow :=
  (f.writeV n m (fun i => (x i).setWidth 32)).writeV (n + 1) m (fun i => (x i >>> 32).setWidth 32)

/-- Handle register n. -/
def Furrow.readH (f : Furrow) (n : Fin 16) : W64 := f.h[n]

/-! ### Accesses under way (R242) -/

/-- Whether the group's instruction is a load or an atomic that has issued and not completed. -/
def Group.accessing (g : Group) : Bool :=
  match g.wait with
  | some (.access ..) => true
  | _ => false

/-- Whether some part of that access has been performed, so that it can no longer be withdrawn. -/
def Group.underway (g : Group) : Bool :=
  match g.wait with
  | some (.access _ _ _ got _) => !got.isEmpty
  | _ => false

/-- Whether an access of the furrow has issued and not completed (R60). -/
def Furrow.busy (f : Furrow) : Bool := !f.posted.isEmpty || f.groups.any Group.accessing

/-- The wait of a group whose next instruction is abandoned: an access that has issued goes on (R242). -/
def Group.keptWait (g : Group) : Option Wait := if g.accessing then g.wait else none

/-! ### Lanes -/

/-- The lanes in a status. -/
def Furrow.lanesIn (f : Furrow) (st : LaneStatus) : Mask := maskOf (fun i => (laneAt f.lanes i).status == st)

/-- Live lanes, held ones included (R28, R192). -/
def Furrow.liveLanes (f : Furrow) : Mask := f.lanesIn .live ||| f.lanesIn .held

/-- The lanes running at the furrow's level: those of its groups of that level (R311). -/
def Furrow.running (f : Furrow) : Mask := (f.groups.filter (fun g => g.level == f.level)).foldl (fun m g => m ||| g.lanes) 0

/-- A change of the lanes of a mask. -/
def Furrow.onLanes (f : Furrow) (m : Mask) (k : Nat → Lane → Lane) : Furrow :=
  { f with lanes := tableOf (fun i => if inMask m i then k i (laneAt f.lanes i) else laneAt f.lanes i) }

/-- The running group that holds exactly these lanes. -/
def Furrow.group? (f : Furrow) (m : Mask) : Option Group := f.groups.find? (fun g => g.level == f.level && g.lanes == m)

/-- A change of the running group that holds these lanes. -/
def Furrow.onGroup (f : Furrow) (m : Mask) (k : Group → Group) : Furrow :=
  { f with groups := mapIf f.groups (fun g => g.level == f.level && g.lanes == m) k }

/-- The frame of level n (R327). -/
def Furrow.frame? (f : Furrow) (n : Nat) : Option Frame := if n = 0 then none else f.frames[Fin.ofNat 3 (n - 1)]

/-- The frame of level n set. -/
def Furrow.setFrame (f : Furrow) (n : Nat) (fr : Option Frame) : Furrow :=
  if n = 0 then f else { f with frames := f.frames.set (Fin.ofNat 3 (n - 1)) fr }

/-- The privileged stack's floor for lane i at the furrow's level (R311, R324): the depth recorded at entry, 0 from level 0. -/
def Furrow.floorOf (f : Furrow) (i : Nat) : Nat :=
  match f.frame? f.level with
  | some fr => if fr.fromLevel = 0 then 0 else (laneAt fr.lrec i).csd
  | none => 0

/-- Depth of lane i's call stack at a level: the user stack at level 0, else the privileged one (R311). -/
def Lane.depthAt (l : Lane) (level : Nat) : Nat := if level = 0 then l.udepth else l.pdepth

/-- Entry j of lane's call stack at a level. -/
def Lane.stackAt (l : Lane) (level j : Nat) : BitVec 24 := if level = 0 then l.ustack[Fin.ofNat 16 j] else l.pstack[Fin.ofNat 16 j]

/-- A return address pushed on the stack of a level (R189). -/
def Lane.pushPc (l : Lane) (level : Nat) (pc : BitVec 24) : Lane :=
  if level = 0 then { l with ustack := l.ustack.set (Fin.ofNat 16 l.udepth) pc, udepth := l.udepth + 1 }
  else { l with pstack := l.pstack.set (Fin.ofNat 16 l.pdepth) pc, pdepth := l.pdepth + 1 }

/-- The top of the stack of a level removed. -/
def Lane.popPc (l : Lane) (level : Nat) : Lane :=
  if level = 0 then { l with udepth := l.udepth - 1 } else { l with pdepth := l.pdepth - 1 }

/-! ### Identity of a furrow -/

/-- The context a furrow belongs to; 0 when its field is unknown. -/
def State.ctxOf (s : State) (f : Furrow) : Nat := ((s.field? f.field).map Field.ctx).getD 0

/-- Whether a furrow belongs to a service field (R18). -/
def State.isService (s : State) (f : Furrow) : Bool := ((s.field? f.field).map Field.service).getD false

/-- Partition of a context. -/
def State.partOf (s : State) (ctx : Nat) : Nat := ((s.ctx? ctx).map Ctx.part).getD 0

/-- Class of a furrow's field. -/
def State.classOf (s : State) (f : Furrow) : Nat := ((s.field? f.field).map Field.cls).getD 3

/-- `WORK_ID` (R45). -/
def workId (fl : Field) (ix : Nat) : BitVec 64 :=
  BitVec.ofNat 64 (fl.tsize * 2 ^ 56 + fl.reach * 2 ^ 52 + fl.member * 2 ^ 48 + ix * 2 ^ 40 + fl.fcount * 2 ^ 32 + fl.fieldIx)

/-- The resident furrows of a quarter. -/
def State.quarterFurrows (s : State) (core quarter : Nat) : List Furrow :=
  s.furrows.filter (fun f => f.core == core && quarterOf f.slot == quarter)

/-- Pool entries a furrow holds (R31, R32): one for each active group, at least one while it has a live lane. -/
def Furrow.poolEntries (f : Furrow) : Nat :=
  let k := (f.groups.filter Group.active).length
  if f.liveLanes == 0 then 0 else max 1 k

/-- Free entries of a quarter's pool of 24 (R31). -/
def State.poolFree (s : State) (core quarter : Nat) : Nat :=
  24 - ((s.quarterFurrows core quarter).map Furrow.poolEntries).sum

/-- Trap permits of a core now free, of four (R322). -/
def State.permitsFree (s : State) (core : Nat) : Nat := 4 - (s.furrows.filter (fun f => f.core == core && f.permit)).length

/-- The counters of a context on a core (R86). -/
def Core.countersOf (c : Core) (ctx : Nat) : Counters := ((c.counters.find? (fun x => x.1 == ctx)).map Prod.snd).getD {}

/-- A change of the counters of a context on a core. -/
def Core.onCounters (c : Core) (ctx : Nat) (k : Counters → Counters) : Core :=
  if c.counters.any (fun x => x.1 == ctx) then { c with counters := c.counters.map (fun x => if x.1 == ctx then (x.1, k x.2) else x) }
  else { c with counters := (ctx, k {}) :: c.counters }

end Sys2Proof.Machine
end

