-- ==== Sys2Proof/Machine/Numbers.lean ====
section
/-! DEFINITION. Number formats and arithmetic (04_numbers R88 to R114, R203, R219 to R224, R231): exact values, rounding, flags,
conversions, E2M1S blocks, the matrix engine's group sum. -/
namespace Sys2Proof.Machine

/-! ### Values, formats, rounding modes -/

/-- A decoded value: a NaN with its signalling state, an infinity, or ±m × 2^e; zero is m = 0 with its sign. -/
inductive Num
  | nan (signalling : Bool)
  | inf (neg : Bool)
  | fin (neg : Bool) (m : Nat) (e : Int)
  deriving DecidableEq, Repr

/-- The rounding modes of R103, in the order of `FPENV`.RM. -/
inductive Mode
  | rne | rtz | rdn | rup
  deriving DecidableEq, Repr

/-- The mode an RM field of `FPENV` names (R100). -/
def Mode.ofCode (n : Nat) : Mode :=
  match n % 4 with
  | 0 => .rne | 1 => .rtz | 2 => .rdn | _ => .rup

/-- Flag bits of FLAGS (R100). -/
def flNX : Nat := 1
def flUF : Nat := 2
def flOF : Nat := 4
def flDZ : Nat := 8
def flNV : Nat := 16
def flSAT : Nat := 32

/-- A format of R90: exponent and mantissa bits, bias, the largest finite value's exponent field and mantissa, and whether it has
infinities. -/
structure Fmt where
  ebits : Nat
  mbits : Nat
  bias : Nat
  emax : Nat
  mmax : Nat
  hasInf : Bool
  deriving DecidableEq, Repr

/-- The format of a float type (R90). -/
def fmtOf : Ty → Fmt
  | .f64 => { ebits := 11, mbits := 52, bias := 1023, emax := 2046, mmax := 2 ^ 52 - 1, hasInf := true }
  | .f16 => { ebits := 5, mbits := 10, bias := 15, emax := 30, mmax := 2 ^ 10 - 1, hasInf := true }
  | .bf16 => { ebits := 8, mbits := 7, bias := 127, emax := 254, mmax := 2 ^ 7 - 1, hasInf := true }
  | .e5m2 => { ebits := 5, mbits := 2, bias := 15, emax := 30, mmax := 3, hasInf := true }
  | .e4m3 => { ebits := 4, mbits := 3, bias := 7, emax := 15, mmax := 6, hasInf := false }
  | .e2m1s => { ebits := 2, mbits := 1, bias := 1, emax := 3, mmax := 1, hasInf := false }
  | _ => { ebits := 8, mbits := 23, bias := 127, emax := 254, mmax := 2 ^ 23 - 1, hasInf := true }

/-- The canonical NaN of a type (R98). -/
def canonicalNan (t : Ty) : Nat :=
  match t with
  | .f64 => 0x7FF8000000000000
  | .f16 => 0x7E00
  | .bf16 => 0x7FC0
  | .e4m3 => 0x7F
  | .e5m2 => 0x7E
  | .e8m0 => 0xFF
  | _ => 0x7FC00000

/-- The exact value of an integer. -/
def Num.ofInt (x : Int) : Num := .fin (decide (x < 0)) x.natAbs 0

/-- decode(fmt, bits) of R114: R90 to R92. -/
def decodeNum (t : Ty) (bits : Nat) : Num :=
  if t = .e8m0 then (if bits % 256 = 255 then .nan false else .fin false 1 ((bits % 256 : Nat) - 127 : Int))
  else
    let f := fmtOf t
    let neg := bits.testBit (f.ebits + f.mbits)
    let ef := bitsOf bits f.mbits f.ebits
    let mf := bitsOf bits 0 f.mbits
    if f.hasInf ∧ ef = 2 ^ f.ebits - 1 then
      (if mf = 0 then .inf neg else .nan (t != .e5m2 && !bits.testBit (f.mbits - 1)))
    else if t = .e4m3 ∧ ef = 15 ∧ mf = 7 then .nan false
    else if ef = 0 then .fin neg mf (1 - (f.bias : Int) - f.mbits)
    else .fin neg (mf + 2 ^ f.mbits) ((ef : Int) - f.bias - f.mbits)

/-- Types on which FTZ acts (R104). -/
def ftzActs (t : Ty) : Bool := t == .f32 || t == .f16 || t == .bf16

/-- operand(fmt, bits) of R114: subnormals read as signed zero where FTZ applies. -/
def operandNum (t : Ty) (ftz : Bool) (bits : Nat) : Num :=
  let f := fmtOf t
  if ftz && ftzActs t && bitsOf bits f.mbits f.ebits == 0 then .fin (bits.testBit (f.ebits + f.mbits)) 0 0 else decodeNum t bits

/-- An integer operand as its value (R88). -/
def intOf (t : Ty) (bits : Nat) : Int := if t.isSigned then sext bits t.width else ((bits % 2 ^ t.width : Nat) : Int)

def Num.isNan : Num → Bool
  | .nan _ => true
  | _ => false
def Num.isSnan : Num → Bool
  | .nan s => s
  | _ => false
def Num.isInf : Num → Bool
  | .inf _ => true
  | _ => false
def Num.isZero : Num → Bool
  | .fin _ m _ => m == 0
  | _ => false
def Num.negative : Num → Bool
  | .nan _ => false
  | .inf n => n
  | .fin n _ _ => n
/-- The value negated, exactly; a NaN stays. -/
def Num.opp : Num → Num
  | .nan s => .nan s
  | .inf n => .inf (!n)
  | .fin n m e => .fin (!n) m e
/-- Whether an operand of a list is a signalling NaN. -/
def anySnan (l : List Num) : Bool := l.any Num.isSnan

/-- floor_log2 of m × 2^e for m ≠ 0. -/
def floorLog2 (m : Nat) (e : Int) : Int := (Nat.log2 m : Int) + e

/-- m × 2^sh rounded to an integer in a mode, for a magnitude of the given sign: the integer and whether it is inexact (R103). -/
def roundInt (m : Nat) (sh : Int) (neg : Bool) (rm : Mode) : Nat × Bool :=
  if 0 ≤ sh then (m <<< sh.toNat, false)
  else
    let k := min (-sh).toNat (Nat.log2 m + 3)
    let q := m >>> k
    let r := m % 2 ^ k
    let half := 2 ^ (k - 1)
    let up := match rm with
      | .rne => decide (half < r ∨ r = half ∧ q % 2 = 1)
      | .rtz => false
      | .rdn => neg
      | .rup => !neg
    if r = 0 then (q, false) else (if up then q + 1 else q, true)

/-- The sign bit of a type, in place. -/
def signBit (t : Ty) (neg : Bool) : Nat := let f := fmtOf t; if neg then 2 ^ (f.ebits + f.mbits) else 0

/-- Bits of an infinity. -/
def infBits (t : Ty) (neg : Bool) : Nat := let f := fmtOf t; signBit t neg + (2 ^ f.ebits - 1) * 2 ^ f.mbits

/-- Bits of the largest finite value. -/
def maxBits (t : Ty) (neg : Bool) : Nat := let f := fmtOf t; signBit t neg + f.emax * 2 ^ f.mbits + f.mmax

/-- The overflow result of a finite value (R103) with its flags; clamped under `.sat` (R105). -/
def overflowNum (t : Ty) (neg : Bool) (rm : Mode) (sat : Bool) : Nat × Nat :=
  if sat then (maxBits t neg, flSAT ||| flNX)
  else
    let toInf := match rm with
      | .rne => true | .rtz => false | .rdn => neg | .rup => !neg
    (if toInf then (if (fmtOf t).hasInf then infBits t neg else canonicalNan t) else maxBits t neg, flOF ||| flNX)

/-- Whether a non-zero finite magnitude lies below the smallest normal one of a format after rounding with unbounded exponent (R101), as IEEE 754-2019
names it. DEDUCED (log 20). -/
def tinyFin (neg : Bool) (m : Nat) (e : Int) (t : Ty) (rm : Mode) : Bool :=
  let f := fmtOf t
  let ev := floorLog2 m e
  let emin : Int := 1 - f.bias
  decide (ev < emin) && !(ev == emin - 1 && decide (2 ^ (f.mbits + 1) ≤ (roundInt m (e - (ev - f.mbits)) neg rm).1))

/-- Rounding of a non-zero finite magnitude (R101, R103, R104). -/
def roundFin (neg : Bool) (m : Nat) (e : Int) (t : Ty) (rm : Mode) (ftz sat : Bool) : Nat × Nat :=
  let f := fmtOf t
  let ev := floorLog2 m e
  let emin : Int := 1 - f.bias
  if (f.emax : Int) + 1 - f.bias < ev then overflowNum t neg rm sat
  else
    let q := max ev emin - f.mbits
    let r := roundInt m (e - q) neg rm
    let carried := decide (2 ^ (f.mbits + 1) ≤ r.1)
    let mant := if carried then r.1 / 2 else r.1
    let normal := decide (2 ^ f.mbits ≤ mant)
    let ef := if normal then ((q + f.mbits + f.bias).toNat + carried.toNat) else 0
    let mf := if normal then mant - 2 ^ f.mbits else mant
    if normal && (decide (f.emax < ef) || (ef == f.emax && decide (f.mmax < mf))) then overflowNum t neg rm sat
    else if ftz && ftzActs t && mant != 0 && !normal then (signBit t neg, flUF ||| flNX)
    else
      (signBit t neg + ef * 2 ^ f.mbits + mf, if r.2 then (if tinyFin neg m e t rm then flUF ||| flNX else flNX) else 0)

/-- round(x, fmt, m) and round_sat of R114: bits and flags. -/
def roundNum (x : Num) (t : Ty) (rm : Mode) (ftz sat : Bool) : Nat × Nat :=
  let sat := sat && (t == .e4m3 || t == .e5m2)
  match x with
  | .nan s => (canonicalNan t, if s then flNV else 0)
  | .inf n =>
    if sat then (maxBits t n, flSAT ||| flNX)
    else if (fmtOf t).hasInf then (infBits t n, 0) else (canonicalNan t, flNV)
  | .fin n m e => if m = 0 then (signBit t n, 0) else roundFin n m e t rm ftz sat

/-! ### Arithmetic (R99, R218, R219) -/

/-- The exact sum of two finite values; exact zero sums by R99. -/
def addFin (na : Bool) (ma : Nat) (ea : Int) (nb : Bool) (mb : Nat) (eb : Int) (rm : Mode) : Num :=
  if ma = 0 ∧ mb = 0 then .fin (if na = nb then na else rm == .rdn) 0 0
  else if ma = 0 then .fin nb mb eb
  else if mb = 0 then .fin na ma ea
  else
    let e := min ea eb
    let x : Int := (if na then -1 else 1) * ((ma <<< (ea - e).toNat : Nat) : Int) + (if nb then -1 else 1) * ((mb <<< (eb - e).toNat : Nat) : Int)
    if x = 0 then .fin (rm == .rdn) 0 0 else .fin (decide (x < 0)) x.natAbs e

/-- The exact product with the NV flag of 0 × ∞ (R219). -/
def mulNum (a b : Num) : Num × Nat :=
  let nv := if anySnan [a, b] then flNV else 0
  match a, b with
  | .nan _, _ => (.nan false, nv)
  | _, .nan _ => (.nan false, nv)
  | .inf x, .inf y => (.inf (x != y), 0)
  | .inf x, .fin y m _ => if m = 0 then (.nan false, flNV) else (.inf (x != y), 0)
  | .fin x m _, .inf y => if m = 0 then (.nan false, flNV) else (.inf (x != y), 0)
  | .fin x m e, .fin y k g => (.fin (x != y) (m * k) (e + g), 0)

/-- The exact sum with the NV flag of ∞ − ∞ (R219). -/
def addNum (a b : Num) (rm : Mode) : Num × Nat :=
  let nv := if anySnan [a, b] then flNV else 0
  match a, b with
  | .nan _, _ => (.nan false, nv)
  | _, .nan _ => (.nan false, nv)
  | .inf x, .inf y => if x = y then (.inf x, 0) else (.nan false, flNV)
  | .inf x, .fin .. => (.inf x, 0)
  | .fin .., .inf y => (.inf y, 0)
  | .fin x m e, .fin y k g => (addFin x m e y k g rm, 0)

/-- A value with flags, rounded. -/
def finish (x : Num × Nat) (t : Ty) (rm : Mode) (ftz : Bool) : Nat × Nat :=
  let r := roundNum x.1 t rm ftz false
  (r.1, r.2 ||| x.2)

/-- fma(a, b, c, fmt, m) of R114: one rounding; 0 × ∞ raises NV whatever c holds (R219). -/
def fmaNum (a b c : Num) (t : Ty) (rm : Mode) (ftz : Bool) : Nat × Nat :=
  let p := mulNum a b
  let s := addNum p.1 c rm
  finish (s.1, s.2 ||| p.2) t rm ftz

/-- a / b (R218, R219): the quotient with a sticky bit below 120 bits. -/
def divNum (a b : Num) (t : Ty) (rm : Mode) (ftz : Bool) : Nat × Nat :=
  let nv := if anySnan [a, b] then flNV else 0
  match a, b with
  | .nan _, _ => (canonicalNan t, nv)
  | _, .nan _ => (canonicalNan t, nv)
  | .inf _, .inf _ => (canonicalNan t, flNV)
  | .inf x, .fin y _ _ => (infBits t (x != y), 0)
  | .fin x _ _, .inf y => (signBit t (x != y), 0)
  | .fin x m e, .fin y k g =>
    if k = 0 then (if m = 0 then (canonicalNan t, flNV) else (infBits t (x != y), flDZ))
    else if m = 0 then (signBit t (x != y), 0)
    else
      let sh := 120 + Nat.log2 k
      let n := m <<< sh
      roundNum (.fin (x != y) (2 * (n / k) + (if n % k = 0 then 0 else 1)) (e - g - sh - 1)) t rm ftz false

/-- The integer square root of a number below 2^(2 × bits). -/
def isqrt (bits n : Nat) : Nat :=
  (List.range bits).foldr (fun k r => if (r + 2 ^ k) * (r + 2 ^ k) ≤ n then r + 2 ^ k else r) 0

/-- √a (R218, R219). -/
def sqrtNum (a : Num) (t : Ty) (rm : Mode) (ftz : Bool) : Nat × Nat :=
  match a with
  | .nan s => (canonicalNan t, if s then flNV else 0)
  | .inf n => if n then (canonicalNan t, flNV) else (infBits t false, 0)
  | .fin n m e =>
    if m = 0 then (signBit t n, 0)
    else if n then (canonicalNan t, flNV)
    else
      let sh : Nat := 200 - Nat.log2 m
      let sh := if (e - sh) % 2 = 0 then sh else sh + 1
      let big := m <<< sh
      let r := isqrt 102 big
      roundNum (.fin false (2 * r + (if r * r = big then 0 else 1)) ((e - sh) / 2 - 1)) t rm ftz false

/-! ### Comparison, minimum and maximum, class (R203, R222, R224) -/

/-- The value as an integer at a common exponent below both. -/
def Num.scaled (x : Num) (e0 : Int) : Int :=
  match x with
  | .fin n m e => (if n then -1 else 1) * ((m <<< (e - e0).toNat : Nat) : Int)
  | _ => 0

/-- Order of two values that are no NaN; −0 equals +0. -/
def cmpNum (a b : Num) : Ordering :=
  match a, b with
  | .inf x, .inf y => if x = y then .eq else if x then .lt else .gt
  | .inf x, _ => if x then .lt else .gt
  | _, .inf y => if y then .gt else .lt
  | .fin x m e, .fin y k g =>
    if m = 0 ∧ k = 0 then .eq
    else if m = 0 then (if y then .gt else .lt)
    else if k = 0 then (if x then .lt else .gt)
    else if x ≠ y then (if x then .lt else .gt)
    else
      let e0 := min e g
      if floorLog2 m e ≠ floorLog2 k g then (if decide (floorLog2 m e < floorLog2 k g) != x then .lt else .gt)
      else compare ((Num.fin x m e).scaled e0) ((Num.fin y k g).scaled e0)
  | _, _ => .eq

/-- The smaller or larger of two values with NV for a signalling NaN (R203). -/
def minMaxNum (a b : Num) (wantMax : Bool) : Num × Nat :=
  let nv := if anySnan [a, b] then flNV else 0
  if a.isNan && b.isNan then (.nan false, nv)
  else if a.isNan then (b, nv)
  else if b.isNan then (a, nv)
  else
    let less := match cmpNum a b with
      | .lt => true
      | .gt => false
      | .eq => a.isZero && a.negative
    (if less != wantMax then a else b, nv)

/-- A comparison of floats with its NV flag (R222). -/
def fcmpNum (cc : Cc) (a b : Num) : Bool × Nat :=
  let nan := a.isNan || b.isNan
  let nv := if anySnan [a, b] || (nan && (cc == .lt || cc == .le || cc == .gt || cc == .ge)) then flNV else 0
  let o := cmpNum a b
  (match cc with
    | .eq => !nan && o == .eq
    | .ne => nan || o != .eq
    | .lt => !nan && o == .lt
    | .le => !nan && o != .gt
    | .gt => !nan && o == .gt
    | .ge => !nan && o != .lt
    | .ord => !nan
    | .uno => nan, nv)

/-- A comparison of integers (R222). -/
def icmp (cc : Cc) (a b : Int) : Bool :=
  match cc with
  | .eq => a == b
  | .ne => a != b
  | .lt => decide (a < b)
  | .le => decide (a ≤ b)
  | .gt => decide (b < a)
  | .ge => decide (b ≤ a)
  | .ord | .uno => false

/-- The class mask of R224. -/
def fclassBits (t : Ty) (bits : Nat) : Nat :=
  match decodeNum t bits with
  | .nan s => if s then 1 else 2
  | .inf n => if n then 4 else 512
  | .fin n m _ =>
    if m = 0 then (if n then 32 else 64)
    else if bitsOf bits (fmtOf t).mbits (fmtOf t).ebits = 0 then (if n then 16 else 128)
    else (if n then 8 else 256)

/-! ### Rows of major 0x11 -/

/-- `vfrint` (R221). -/
def rintNum (a : Num) (t : Ty) (rm : Mode) : Nat × Nat :=
  match a with
  | .nan s => (canonicalNan t, if s then flNV else 0)
  | .inf n => (infBits t n, 0)
  | .fin n m e =>
    let r := roundInt m e n rm
    ((roundNum (.fin n r.1 0) t rm false false).1, if r.2 then flNX else 0)

/-- `vfscale` (R221). -/
def scaleNum (a : Num) (k : Int) (t : Ty) (rm : Mode) (ftz : Bool) : Nat × Nat :=
  match a with
  | .fin n m e => roundNum (.fin n m (e + k)) t rm ftz false
  | x => roundNum x t rm ftz false

/-! ### Integers and conversions (R89, R105, R106) -/

/-- The range of an integer type. -/
def intRange (t : Ty) : Int × Int :=
  if t.isSigned then (-(2 ^ (t.width - 1)), 2 ^ (t.width - 1) - 1) else (0, 2 ^ t.width - 1)

/-- sat_i and sat_n of R114: the clamped value's bits, and SAT with the NX that R101 raises with every clamp (DEDUCED, log 125). -/
def satInt (x : Int) (t : Ty) : Nat × Nat :=
  let r := intRange t
  if x < r.1 then (wrap r.1 t.width, flSAT ||| flNX) else if r.2 < x then (wrap r.2 t.width, flSAT ||| flNX) else (wrap x t.width, 0)

/-- An exact integer result written wrapped or clamped (R214). -/
def intResult (sat : Bool) (t : Ty) (x : Int) : Nat × Nat := if sat then satInt x t else (wrap x t.width, 0)

/-- f_to_int of R114. -/
def floatToInt (v : Num) (t : Ty) (rm : Mode) : Nat × Nat :=
  let lo := (intRange t).1
  let hi := (intRange t).2
  match v with
  | .nan _ => (0, flNV)
  | .inf n => (wrap (if n then lo else hi) t.width, flNV)
  | .fin n m e =>
    let r := roundInt m e n rm
    let x : Int := if n then -(r.1 : Int) else r.1
    if x < lo then (wrap lo t.width, flNV) else if hi < x then (wrap hi t.width, flNV) else (wrap x t.width, if r.2 then flNX else 0)

/-- The element result of `vcvt` (R228). -/
def convertNum (src dst : Ty) (x : Nat) (rm : Mode) (sat : Bool) : Nat × Nat :=
  if src = .e8m0 then roundNum (decodeNum .e8m0 x) dst rm false false
  else if src.isConvFloat then
    (if dst.isInt then floatToInt (decodeNum src x) dst rm else roundNum (decodeNum src x) dst rm false sat)
  else if dst.isInt then intResult sat dst (intOf src x)
  else roundNum (Num.ofInt (intOf src x)) dst rm false false

/-! ### E2M1S (R93 to R97, R107, R108) -/

/-- decode_e2m1s(code, p, c) of R95. -/
def decodeE2m1s (code p c : Nat) : Num :=
  if c = 255 then .nan false
  else
    match (if code = 8 then decodeNum .e4m3 p else decodeNum .e2m1s code) with
    | .fin n m e => .fin n m (e + (c : Int) - 127)
    | x => x

/-- A candidate of R107: its code, and its value as an integer at a common exponent. -/
def e2m1sCandidates (p c : Nat) (e0 : Int) : List (Nat × Int) :=
  let plain := ((List.range 16).filter (fun k => k != 8)).map (fun k => (k, (decodeE2m1s k p c).scaled e0))
  let sp := (decodeE2m1s 8 p c).scaled e0
  if (decodeE2m1s 8 p c).isNan || plain.any (fun q => q.2 == sp) then plain else plain ++ [(8, sp)]

/-- Whether a candidate is chosen before another for a value x (R108 step 3). -/
def e2m1sBefore (x : Int) (a b : Nat × Int) : Bool :=
  let da := (a.2 - x).natAbs
  let db := (b.2 - x).natAbs
  decide (da < db) || (da == db && (decide (a.1 % 2 < b.1 % 2) || (a.1 % 2 == b.1 % 2 && decide (a.2.natAbs < b.2.natAbs))))

/-- The least candidate of a list. -/
def e2m1sNearest (x : Int) (cs : List (Nat × Int)) : Nat × Int :=
  cs.foldl (fun b c => if e2m1sBefore x c b then c else b) (cs.headD (0, 0))

/-- encode_e2m1s(x, p, c) of R108: code and flags. -/
def encodeE2m1s (x : Num) (p c : Nat) : Nat × Nat :=
  if c = 255 then (0, flNV)
  else
    let spNan := (decodeNum .e4m3 p).isNan
    match x with
    | .nan s => if spNan then (8, if s then flNV else 0) else (0, flNV)
    | .inf n =>
      let cs := (e2m1sCandidates p c ((c : Int) - 140)).filter (fun q => decide (q.2 < 0) == n && q.2 != 0)
      let big := cs.foldl (fun b q => if b.2.natAbs < q.2.natAbs then q else b) (0, 0)
      (big.1, flNX ||| flSAT)
    | .fin n m e =>
      let e0 := min e ((c : Int) - 140)
      let v := (Num.fin n m e).scaled e0
      let cs := e2m1sCandidates p c e0
      let top := (cs.filter (fun q => decide (q.2 < 0) == n)).foldl (fun b q => max b q.2.natAbs) 0
      let pick := e2m1sNearest v cs
      (if pick.2 = 0 then 0 else pick.1, (if pick.2 = v then 0 else flNX) ||| (if top < v.natAbs then flSAT else 0))

/-- `vscl` (R231): the E8M0 code for a `.f32` value and a format's emax. -/
def scaleCode (a : Num) (emax : Int) : Nat × Nat :=
  match a with
  | .nan s => (255, if s then flNV else 0)
  | .inf _ => (255, flNV)
  | .fin _ m e => if m = 0 then (127, 0) else ((max 0 (min 254 (floorLog2 m e - emax + 127))).toNat, 0)

/-! ### Reductions and scans (R202 to R204) -/

/-- The three arithmetic kinds of a reduction or a scan. -/
inductive Fold
  | add | min | max
  deriving DecidableEq, Repr

/-- identity(k, ty) of R114, as bits. -/
def foldIdentity (k : Fold) (t : Ty) : Nat :=
  match k with
  | .add => 0
  | .min => if t.isFloat then infBits t false else wrap (intRange t).2 t.width
  | .max => if t.isFloat then infBits t true else wrap (intRange t).1 t.width

/-- combine(k, ty, y, x) of R114, on bits. -/
def combineBits (k : Fold) (t : Ty) (rm : Mode) (ftz : Bool) (y x : Nat) : Nat × Nat :=
  if t.isFloat then
    match k with
    | .add => fmaNum (.fin false 1 0) (operandNum t ftz y) (operandNum t ftz x) t rm ftz
    | .min => finish (minMaxNum (operandNum t ftz y) (operandNum t ftz x) false) t .rne false
    | .max => finish (minMaxNum (operandNum t ftz y) (operandNum t ftz x) true) t .rne false
  else
    match k with
    | .add => (wrap (intOf t y + intOf t x) t.width, 0)
    | .min => (wrap (min (intOf t y) (intOf t x)) t.width, 0)
    | .max => (wrap (max (intOf t y) (intOf t x)) t.width, 0)

/-- One pass of the fixed pairwise tree of R202. -/
def pairwise (t : Ty) (rm : Mode) (ftz : Bool) : List Num → List Num × Nat
  | a :: b :: rest =>
    let r := fmaNum (.fin false 1 0) a b t rm ftz
    let q := pairwise t rm ftz rest
    (decodeNum t r.1 :: q.1, r.2 ||| q.2)
  | xs => (xs, 0)

/-- The tree, from at most 2^fuel values. -/
def treeSum (t : Ty) (rm : Mode) (ftz : Bool) : Nat → List Num → Nat × Nat
  | 0, xs => roundNum (xs.headD (.fin false 0 0)) t rm false false
  | fuel + 1, xs =>
    if xs.length ≤ 1 then roundNum (xs.headD (.fin false 0 0)) t rm false false
    else
      let q := pairwise t rm ftz xs
      let r := treeSum t rm ftz fuel q.1
      (r.1, r.2 ||| q.2)

/-- `vred.add/min/max` over the values of the active lanes in order (R202). -/
def reduceBits (k : Fold) (t : Ty) (rm : Mode) (ftz sat : Bool) (xs : List Nat) : Nat × Nat :=
  match k with
  | .add =>
    if t.isFloat then treeSum t rm ftz 6 (xs.map (operandNum t ftz))
    else intResult sat t ((xs.map (intOf t)).sum)
  | k =>
    match xs with
    | [] => (0, 0)
    | x :: rest =>
      if t.isFloat then rest.foldl (fun a y => let r := combineBits k t rm ftz a.1 y; (r.1, r.2 ||| a.2))
        (finish (operandNum t ftz x, 0) t .rne false)
      else (rest.foldl (fun a y => (combineBits k t rm ftz a y).1) x, 0)

/-- The running results of a scan and its flags (R204). -/
def scanBits (k : Fold) (t : Ty) (rm : Mode) (ftz exclusive : Bool) : Nat → List Nat → List Nat × Nat
  | _, [] => ([], 0)
  | y, x :: rest =>
    let c := combineBits k t rm ftz y x
    let q := scanBits k t rm ftz exclusive c.1 rest
    ((if exclusive then y else c.1) :: q.1, c.2 ||| q.2)

/-! ### The matrix engine (R109 to R112) -/

/-- W of R109. -/
def mxeWidth (t : Ty) : Nat := if t = .f32 then 50 else if t = .f64 then 108 else 30

/-- A term truncated toward zero at 2^q. -/
def truncAt (q : Int) : Num → Int
  | .fin n m e =>
    let a : Nat := if q ≤ e then m <<< (e - q).toNat else m >>> (q - e).toNat
    if n then -(a : Int) else a
  | _ => 0

/-- floor_log2 of a finite non-zero value. -/
def Num.top : Num → Int
  | .fin _ m e => floorLog2 m e
  | _ => 0

/-- mxe_group_sum(terms, W, accfmt) of R111, R114: bits and the events NV, OF, NX. -/
def groupSum (terms : List Num) (w : Nat) (acc : Ty) : Nat × Nat :=
  let pos := terms.any (fun t => t == .inf false)
  let neg := terms.any (fun t => t == .inf true)
  if terms.any Num.isNan || (pos && neg) then (canonicalNan acc, flNV)
  else if pos then (infBits acc false, 0)
  else if neg then (infBits acc true, 0)
  else
    let nz := terms.filter (fun t => !t.isZero)
    match nz.map Num.top with
    | [] => (signBit acc (terms.all Num.negative), 0)
    | e0 :: es =>
      let q := es.foldl max e0 - w
      let s := (nz.map (truncAt q)).sum
      if s = 0 then (0, 0)
      else
        let r := roundNum (.fin (decide (s < 0)) s.natAbs q) acc .rne false false
        (r.1, r.2 &&& (flNV ||| flOF ||| flNX))

/-- Groups of 16 products along K, each with the accumulator as one more term (R110). -/
def mxeGroups (w : Nat) (acc : Ty) : Nat → Nat → List (Num × Num) → Nat × Nat
  | 0, c, _ => (c, 0)
  | fuel + 1, c, ps =>
    match ps with
    | [] => (c, 0)
    | _ =>
      let r := groupSum (decodeNum acc c :: (ps.take 16).map (fun p => (mulNum p.1 p.2).1)) w acc
      let q := mxeGroups w acc fuel r.1 (ps.drop 16)
      (q.1, r.2 ||| q.2)

/-- The `.i8` accumulation of R112. -/
def mxeInt (c : Nat) (ps : List (Int × Int)) : Nat := wrap ((c : Int) + (ps.map (fun p => p.1 * p.2)).sum) 32

end Sys2Proof.Machine
end

