-- ==== Sys2Proof/Machine/Flags.lean ====
section
/-! DEFINITION. The floating-point environment of a furrow (R100 to R104) and the flags an instruction raises; the flag of each arithmetic
result is computed with the result, in Numbers. -/
namespace Sys2Proof.Machine

/-- The bits of `FPENV` that hold a field; every other bit reads 0 (R100, R6). -/
def fpenvMask : BitVec 32 := 0x3F3BF#32

/-- `FPENV`.TE: trap enables in the order of FLAGS. -/
def Furrow.trapEnables (f : Furrow) : Nat := bitsOf f.fpenv.toNat 12 6

/-- `FPENV`.FTZ. -/
def Furrow.ftz (f : Furrow) : Bool := f.fpenv.getLsbD 7

/-- rmode(insn) of R114: the static mode, else `FPENV`.RM. -/
def Furrow.rmode (f : Furrow) (rm : Rm) : Mode :=
  match rm with
  | .dyn => Mode.ofCode (bitsOf f.fpenv.toNat 8 2)
  | .rne => .rne
  | .rtz => .rtz
  | .rdn => .rdn
  | .rup => .rup

/-- raise(flags) of R114: FLAGS with more raised; only a write to `FPENV` clears one (R101). -/
def Furrow.raise (f : Furrow) (fl : Nat) : Furrow := { f with fpenv := f.fpenv ||| BitVec.ofNat 32 (fl % 64) }

/-- The flags of every element of every active lane together (R101, R211). -/
def flagsOver (m : Mask) (fl : Nat → Nat) : Nat := (lanesOf m).foldl (fun a i => a ||| fl i) 0

end Sys2Proof.Machine
end

