-- ==== Sys2Proof/Machine/Visibility.lean ====
section
/-! DEFINITION. Who sees which write (R131, R133 to R143, R150 to R152): scope instances, what a read returns of the writes that not
everybody sees yet, and the points at which they become visible. -/
namespace Sys2Proof.Machine

/-! ### Parties and scope instances (R8, R133, R134) -/

/-- Some lanes of a furrow. -/
def Furrow.party (f : Furrow) (lanes : Mask) : Party := { cls := .ls, core := f.core, field := f.field, ix := f.ix, lanes := lanes }

/-- The agent of an engine class that belongs to a core. -/
def agentOf (cls : Cls) (core : Nat) : Party := { cls := cls, core := core }

/-- Whether two parties share a thread, or are one agent. -/
def Party.meets (a b : Party) : Bool :=
  a.cls == b.cls && (if a.cls == .ls then a.field == b.field && a.ix == b.ix && a.lanes &&& b.lanes != 0 else a.core == b.core)

/-- Whether two parties are of one furrow. -/
def Party.sameFurrow (a b : Party) : Bool := a.cls == .ls && b.cls == .ls && a.field == b.field && a.ix == b.ix

/-- Whether b lies in inst(a, s), the scope given by its code (R134): a scope holds every narrower one that holds a (R8). -/
def Party.near (a b : Party) (scope : Nat) : Bool :=
  match scope with
  | 0 => a.meets b
  | 1 => a.sameFurrow b
  | 2 => a.sameFurrow b || a.core == b.core
  | 3 => a.sameFurrow b || quadOf a.core == quadOf b.core
  | 4 => a.sameFurrow b || dieOf a.core == dieOf b.core
  | _ => true

/-- A party that reads: its floors, the command it reads for (0 for none), the scheme and reach of its field, and whether it sees every write. -/
structure Reader where
  party : Party
  floor : Vector Nat 8 := Vector.replicate 8 0
  cmd : Nat := 0
  reach : Option (Nat × Nat) := none
  all : Bool := false
  deriving DecidableEq, Repr

/-- A lane of a furrow as a reader; one that runs ahead of a speculative fence sees every write performed, so that the fence orders its loads
as a full fence does (R147). -/
def State.laneReader (s : State) (f : Furrow) (l : Nat) : Reader :=
  { party := f.party (1 <<< l), floor := (laneAt f.lanes l).floor, reach := (s.field? f.field).map (fun fl => (fl.scheme, fl.reach)),
    all := f.spec.isSome }

/-- An engine as a reader for one of its commands, whose field may be one of a reach that sees a collective's writes (R302). -/
def State.cmdReader (s : State) (c : Command) (cls : Cls) : Reader :=
  { party := agentOf cls c.core, cmd := c.id, reach := (s.field? c.field).map (fun fl => (fl.scheme, fl.reach)) }

/-! ### Which writes a reader is bound to see -/

/-- Whether an entry of a write's visibility reaches a party: it lies in the scope as the writer stood when it released (R134). -/
def Shown.reaches (v : Shown) (by_ p : Party) : Bool := ({ by_ with core := v.core } : Party).near p v.scope

/-- The point of order since which a write is visible to a party. -/
def Write.visTo (w : Write) (p : Party) : Option Nat :=
  (w.vis.filter (fun v => v.reaches w.by_ p)).foldl (fun o v => match o with
    | none => some v.since
    | some n => some (min n v.since)) none

/-- Whether a reader of class LS that an entry reaches is bound by it: the writer's fence at that scope has completed (R142, R144), or the reader
has since acquired at a scope that holds the writer and the reader through which it knows of the write, so that its annotation counts (R134,
R139, R140). -/
def Shown.binds (v : Shown) (by_ : Party) (r : Reader) : Bool :=
  v.reaches by_ r.party && (v.firm || (List.range 8).any (fun c =>
    r.party.near by_ c && v.via.all (fun p => r.party.near p c) && decide (v.since ≤ r.floor[Fin.ofNat 8 c])))

/-- Whether a reader must see a write: its own (R137), one it has read or a fence has ordered before it (R137, R150, R152), one visible to
everybody by now (R141), one of a collective that marks its fields (R302), or one visible at a scope at which it has acquired since (R139). -/
def Write.binds (w : Write) (now : Nat) (r : Reader) : Bool :=
  r.all || w.by_.meets r.party || w.seen.any (fun p => p.meets r.party) || w.till.any (fun t => decide (t ≤ now))
    || (r.cmd != 0 && w.cmds.contains r.cmd) || (w.cen.isSome && w.cen == r.reach)
    || (r.party.cls == .ls && w.vis.any (fun v => v.binds w.by_ r))

/-- Whether a write touches some bytes of a space. -/
def Write.touches (w : Write) (space field addr n : Nat) : Bool :=
  w.space == space && w.field == field && decide (addr < w.addr + w.old.length) && decide (w.addr < addr + n)

/-- What a reader past the write finds at an address. -/
def Write.oldAt (w : Write) (addr : Nat) : Option Byte := if addr < w.addr then none else (w.old[addr - w.addr]?).join

/-! ### Reading (R131, R135, R137, R140) -/

/-- The units of an access of a furrow (R135): the whole of an aligned one, else its bytes. -/
def lsUnits (whole : Bool) (addr n : Nat) : List (Nat × Nat) := if whole then [(addr, n)] else (List.range n).map (fun j => (addr + j, 1))

/-- The units of an engine's access (R135): the naturally aligned 8-byte units that it covers whole, else bytes. -/
def engineUnits : Nat → Nat → Nat → List (Nat × Nat)
  | 0, _, _ => []
  | fuel + 1, addr, n =>
    if n = 0 then []
    else if addr % 8 = 0 ∧ 8 ≤ n then (addr, 8) :: engineUnits fuel (addr + 8) (n - 8)
    else (addr, 1) :: engineUnits fuel (addr + 1) (n - 1)

/-- One write met on the way back in coherence order: seen, with every earlier write of its bytes, or read past. -/
def Write.meet (w : Write) (sees : Bool) (addr : Nat) (x : List Byte × List Bool × List Nat) : List Byte × List Bool × List Nat :=
  let live := (List.range x.1.length).map (fun j => (w.oldAt (addr + j)).isSome)
  if !live.any id then x
  else if sees || (live.zip x.2.1).any (fun p => p.1 && p.2) then
    (x.1, (live.zip x.2.1).map (fun p => p.1 || p.2), w.seq :: x.2.2)
  else (x.1.mapIdx (fun j b => (w.oldAt (addr + j)).getD b), x.2.1, x.2.2)

/-- The point of order of the copy of a peer package's line that a reader's die holds: it shows no later write (R153, R391). The TXE reads at the
home (R395). -/
def State.copyPoint (s : State) (r : Reader) (space addr : Nat) : Option Nat :=
  if space ≠ 0 ∨ r.party.cls = .txe then none
  else ((s.die (dieOf r.party.core)).peerLines.find? (fun l => l.1 == addr / 64 * 64)).map (fun l => l.2.1)

/-- One unit as a reader sees it, and the writes it sees (log 5): a read of the present sees every visible write and some of the others; any
other read sees what was visible at a point in the past, and what binds it. -/
def State.readUnit (s : State) (r : Reader) (space field addr : Nat) (bs : List Byte) : List Byte × List Nat :=
  let ws := s.recent.filter (fun w => w.touches space field addr bs.length && (s.copyPoint r space addr).all (fun o => decide (w.seq ≤ o)))
  let key := addr * 32 + lowestLane r.party.lanes
  let sees := fun (w : Write) => w.binds s.cycles r ||
    (if Config.readsNow s.freeCtr key then (w.visTo r.party).isSome || !Config.readsOld s.freeCtr key w.seq
     else (w.visTo r.party).any (fun v => decide (v ≤ Config.readCut s.freeCtr key)))
  let x := ws.foldl (fun x w => w.meet (sees w) addr x) (bs, List.replicate bs.length false, [])
  (x.1, x.2.2)

/-- The units of bytes from an address as a reader sees them. -/
def State.readUnits (s : State) (r : Reader) (space field addr : Nat) (us : List (Nat × Nat)) (bs : List Byte) : List (List Byte × List Nat) :=
  us.map (fun u => s.readUnit r space field u.1 ((bs.drop (u.1 - addr)).take u.2))

/-- Consecutive bytes as a reader sees them. -/
def State.seenBytes (s : State) (r : Reader) (space field addr : Nat) (us : List (Nat × Nat)) (bs : List Byte) : List Byte :=
  if s.recent.isEmpty then bs else ((s.readUnits r space field addr us bs).map Prod.fst).flatten

/-- The writes that such a read returns. -/
def State.seenWrites (s : State) (r : Reader) (space field addr : Nat) (us : List (Nat × Nat)) (bs : List Byte) : List Nat :=
  if s.recent.isEmpty then [] else ((s.readUnits r space field addr us bs).map Prod.snd).flatten

/-- A write that a party has read: it stays bound to it (R137), and every store being multi-copy atomic, it is visible from here on through that
party (R140). -/
def Write.readBy (w : Write) (p : Party) (at_ : Nat) : Write :=
  if w.by_.meets p then w
  else { w with seen := if w.seen.any (fun x => x.meets p && x.lanes &&& p.lanes == p.lanes) then w.seen else p :: w.seen,
                vis := if w.vis.any (fun v => v.via.any (fun x => x.cls == p.cls && x.core == p.core && x.field == p.field && x.ix == p.ix)) then w.vis
                  else { scope := 7, since := at_, core := w.by_.core, via := some p } :: w.vis }

/-- Some writes read by a party. -/
def State.noteReads (s : State) (p : Party) (seqs : List Nat) : State :=
  if seqs.isEmpty then s
  else { s with order := s.order + 1, recent := mapIf s.recent (fun w => seqs.contains w.seq) (fun w => w.readBy p (s.order + 1)) }

/-- The last writes of some bytes read by a party, as a read-modify-write reads them (R138). -/
def State.noteLast (s : State) (p : Party) (space field addr n : Nat) : State :=
  s.noteReads p ((s.recent.filter (fun w => w.touches space field addr n)).map Write.seq)

/-! ### Waking (R256, R281) -/

/-- Whether a group's watch names a place. -/
def Wait.watches (w : Wait) (t : Watch → Bool) : Bool :=
  match w with
  | .address l _ _ => l.any t
  | _ => false

/-- A group woken from its address or weir wait when it watches a place that may have changed. -/
def Group.wake (t : Watch → Bool) (g : Group) : Group :=
  match g.wait with
  | some (.address l woken kept) => { g with wait := some (.address l (woken || l.any t) kept) }
  | _ => g

/-- Every waiting group that watches such a place is woken. -/
def State.wake (s : State) (t : Watch → Bool) : State :=
  { s with furrows := s.furrows.map (fun f => { f with groups := f.groups.map (Group.wake t) }) }

/-- Whether a watch names bytes that a write touched. -/
def Watch.names (x : Watch) (w : Write) : Bool :=
  match x with
  | .sector pa | .peerLine pa _ => w.touches 0 0 pa 64
  | .scratch fd word => w.touches 1 fd (4 * word) 4

/-! ### Writing -/

/-- Some bytes of a write seen by everybody. -/
def Write.settle (w : Write) (addr n : Nat) : Write :=
  { w with old := w.old.mapIdx (fun j b => if addr ≤ w.addr + j ∧ w.addr + j < addr + n then none else b) }

/-- Bytes written with everybody seeing it: no earlier write of them can be read past. -/
def State.settleBytes (s : State) (space field addr n : Nat) : State :=
  { s with recent := (mapIf s.recent (fun w => w.touches space field addr n) (fun w => w.settle addr n)).filter (fun w => w.old.any Option.isSome) }

/-- What a write is, beside its bytes: the writer, the instruction or event, its command, and how it becomes visible. -/
structure Origin where
  by_ : Party
  op : Nat
  cmd : Nat := 0
  status : Bool := false
  diverged : Bool := false
  plain : Bool := false
  rel : Nat := 0
  cen : Option (Nat × Nat) := none
  deriving DecidableEq, Repr

/-- One unit written over `old`, entered as the last of coherence order. A reader past several lanes of one instruction finds what stood
before the instruction (R136, R308). -/
def State.noteUnit (s : State) (o : Origin) (space field addr : Nat) (old : List Byte) : State :=
  let n := old.length
  let mine := s.recent.filter (fun w => w.op == o.op && w.touches space field addr n)
  let w : Write :=
    { seq := s.order + 1, op := o.op, space := space, field := field, addr := addr, by_ := o.by_, cmd := o.cmd, status := o.status,
      plain := o.plain, rel := o.rel, cen := o.cen,
      old := old.mapIdx (fun j b => match mine.find? (fun w => decide (w.addr ≤ addr + j ∧ addr + j < w.addr + w.old.length)) with
        | some w => w.oldAt (addr + j)
        | none => some b),
      till := if o.diverged then none else some (s.cycles + Config.visibleWithin (s.order + 1)) }
  { s with order := s.order + 1,
           recent := w :: (mapIf s.recent (fun w => w.op == o.op && w.touches space field addr n) (fun w => w.settle addr n)).filter
             (fun w => w.old.any Option.isSome) }

/-- The write under which a plain store of a unit may come in coherence order: the last one of just these bytes, itself a plain store, that nothing
has ordered before the storing lane and nobody else has read. Stores of one furrow to a scratchpad keep no order of their own (R139, R140; log 5). -/
def State.underWrite (s : State) (o : Origin) (space field addr n : Nat) : Option Write :=
  (s.recent.find? (fun w => w.touches space field addr n)).filter (fun w =>
    o.plain && w.plain && w.addr == addr && w.old.length == n && w.old.all Option.isSome && w.op != o.op && !w.by_.meets o.by_
      && w.seen.isEmpty && (w.visTo o.by_).isNone && !w.till.any (fun t => decide (t ≤ s.cycles)) && Config.writesUnder s.freeCtr w.seq)

/-- A unit of bytes entered just under a write of the same bytes: what stood before that write stood before it, and its bytes before that write. -/
def State.noteUnder (s : State) (o : Origin) (w : Write) (bs : List Byte) : State :=
  let x : Write := { w with seq := s.order + 1, op := o.op, by_ := o.by_, rel := o.rel, vis := [], obs := [], push := [], cmds := [],
                            till := if o.diverged then none else some (s.cycles + Config.visibleWithin (s.order + 1)) }
  { s with order := s.order + 1,
           recent := (s.recent.map (fun y => if y.seq == w.seq then [{ y with old := bs.map some }, x] else [y])).flatten }

/-- A write of bytes over `old`, by its units. -/
def State.noteWrite (s : State) (o : Origin) (space field addr : Nat) (us : List (Nat × Nat)) (old : List Byte) : State :=
  us.foldl (fun s u => s.noteUnit o space field u.1 ((old.drop (u.1 - addr)).take u.2)) s

/-- The aligned 8-byte unit of a write. -/
def Write.unit (w : Write) : Nat × Nat × Nat := (w.space, w.field, w.addr / 8)

/-- Two writes of one engine event made one. -/
def Write.fuse (a b : Write) : Write :=
  let lo := min a.addr b.addr
  { a with addr := lo, vis := a.vis ++ b.vis, seen := a.seen ++ b.seen,
           old := (List.range (max (a.addr + a.old.length) (b.addr + b.old.length) - lo)).map (fun j => (a.oldAt (lo + j)).or (b.oldAt (lo + j))) }

/-- The writes of one engine event to an aligned 8-byte unit that they cover whole are one write, seen whole or not at all (R135). -/
def State.fuse (s : State) (op : Nat) : State :=
  let mine := s.recent.filter (fun w => w.op == op)
  let whole := fun (w : Write) => (List.range 8).all (fun j => mine.any (fun k => k.unit == w.unit && (k.oldAt (w.addr / 8 * 8 + j)).isSome))
  { s with recent := s.recent.foldr (fun w acc =>
      if w.op == op && whole w then
        match acc.find? (fun k => k.op == op && k.unit == w.unit) with
        | some k => w.fuse k :: acc.filter (fun x => x != k)
        | none => w :: acc
      else w :: acc) [] }

/-! ### Becoming visible (R139, R141 to R144) -/

/-- A write visible at a scope, as its writer stands on a core, from a point of order on, `firm` when a fence has completed; a scope of `.furrow` or
wider ends a diverged path's exception (R142). -/
def Write.publish (w : Write) (scope core at_ till : Nat) (firm : Bool) : Write :=
  { w with vis := if w.vis.any (fun v => v.via.isNone && v.core == core && decide (scope ≤ v.scope) && (v.firm || !firm)) then w.vis
                  else { scope := scope, since := at_, core := core, firm := firm } :: w.vis,
           till := if scope = 0 then w.till else some (w.till.getD till) }

/-- A release of a scope by some lanes: their performed writes are visible to its instance (R139), and once a fence has completed to its plain reads
too (R144). -/
def State.publish (s : State) (p : Party) (scope : Nat) (firm : Bool := false) : State :=
  { s with order := s.order + 1,
           recent := mapIf s.recent (fun w => w.by_.meets p)
             (fun w => w.publish scope p.core (s.order + 1) (s.cycles + Config.visibleWithin w.seq) firm) }

/-- The writes of some lanes by their own releases, each visible at its scope (R265). -/
def State.publishReleases (s : State) (p : Party) : State :=
  { s with order := s.order + 1,
           recent := mapIf s.recent (fun w => w.rel != 0 && w.by_.meets p)
             (fun w => w.publish w.rel p.core (s.order + 1) (s.cycles + Config.visibleWithin w.seq) true) }

/-- A point of R142 that orders nothing: the lanes' writes, performed or to come, become visible within finite time. -/
def State.undiverge (s : State) (p : Party) : State :=
  { s with recent := mapIf s.recent (fun w => w.till.isNone && w.by_.meets p) (fun w => { w with till := some (s.cycles + Config.visibleWithin w.seq) }),
           furrows := s.furrows.map (fun f => if f.field = p.field ∧ f.ix = p.ix then
             { f with posted := f.posted.map (fun x => { x with diverged := x.diverged &&& ~~~p.lanes }) } else f) }

/-- An acquire of a scope: from here on the lanes see what is visible now (R139). -/
def State.raiseFloor (s : State) (f : Furrow) (lanes : Mask) (scope : Nat) : State :=
  s.onFurrow f.core f.slot (fun f => f.onLanes lanes (fun _ l => { l with floor := l.floor.set (Fin.ofNat 8 scope) s.order }))

/-- Whether one write of the record comes after another in coherence order. -/
def State.later (s : State) (w d : Write) : Bool := (s.recent.takeWhile (fun x => x.seq != w.seq)).any (fun x => x.seq == d.seq)

/-- The writes that everybody sees by now leave the record, and what stood before them with them, and wake who waits on their bytes (R141); a
write of a furrow that has left its slot becomes visible in finite time (R142); contributions with nothing left to order go. -/
def State.expire (s : State) : State :=
  let gone := s.recent.filter (fun w => w.till.any (fun t => decide (t ≤ s.cycles)))
  let rest := (s.recent.filter (fun w => !w.till.any (fun t => decide (t ≤ s.cycles)))).map (fun w =>
    (gone.filter (s.later w)).foldl (fun (w : Write) d => if w.touches d.space d.field d.addr d.old.length then w.settle d.addr d.old.length else w)
      (if w.till.isNone && !s.furrows.any (fun f => f.field == w.by_.field && f.ix == w.by_.ix)
       then { w with till := some (s.cycles + Config.visibleWithin w.seq) } else w))
  let left := rest.filter (fun w => w.old.any Option.isSome)
  let s1 := if gone.isEmpty then s else s.wake (fun x => gone.any x.names)
  { s1 with recent := left, contribs := s.contribs.filter (fun k => left.any (fun w => w.cmd == k.cmd)) }

/-! ### Cross-path order (R150 to R152) -/

/-- Some lanes bound to the writes that meet a test; those are then visible to the threads that acquire from them (R140). -/
def State.bindLanes (s : State) (p : Party) (t : Write → Bool) : State :=
  s.noteReads p ((s.recent.filter t).map Write.seq)

/-- A write that the later commands of a class pushed by a party see. -/
def Write.pushesTo (w : Write) (p : Party) (cls : Cls) : Write :=
  { w with push := if w.push.contains (p, cls) then w.push else (p, cls) :: w.push }

/-- The later commands of a class that some lanes push bound to the writes that meet a test. -/
def State.bindPushes (s : State) (p : Party) (cls : Cls) (t : Write → Bool) : State :=
  { s with recent := mapIf s.recent t (fun w => w.pushesTo p cls) }

/-- A command pushed by some lanes takes over what they are bound to for its class. -/
def State.bindCommand (s : State) (p : Party) (cls : Cls) (cmd : Nat) : State :=
  { s with recent := mapIf s.recent (fun w => w.push.any (fun x => x.2 == cls && x.1.meets p)) (fun w => { w with cmds := cmd :: w.cmds }) }

/-- Class of an engine (R130). -/
def engineCls (e : Fin 4) : Cls := if e = 0 then .mxe else if e = 1 then .txe else if e = 2 then .gxe else .cxe

/-- R152: a furrow has observed that some commands have completed: what they wrote binds the commands of their class that it pushes from here
on, where the scope holds the core that pushed them. -/
def State.observed (s : State) (f : Furrow) (scope : Nat) (cmds : List Nat) : State :=
  let p := f.party 0xFFFFFFFF
  { s with recent := mapIf s.recent (fun w => cmds.contains w.cmd && p.near w.by_ scope) (fun w => w.pushesTo p w.by_.cls) }

/-- R150, R152, R270: a group has observed that some commands have completed; its cross-path fences can order their writes from here on. -/
def State.learned (s : State) (f : Furrow) (lanes : Mask) (scope : Nat) (cmds : List Nat) : State :=
  let p := f.party lanes
  ({ s with recent := mapIf s.recent (fun w => cmds.contains w.cmd) (fun w => { w with obs := p :: w.obs }) } : State).observed f scope cmds

/-- The commands whose contributions to a weir's phases that have flipped a wait observes (R152). -/
def State.contributors (s : State) (space field addr : Nat) : List Nat :=
  (s.contribs.filter (fun k => k.flipped && k.space == space && k.field == field && k.addr == addr)).map Contrib.cmd

/-- R150 to R152: some lanes of a furrow have seen a weir's phase flip: the status words are visible to them, and what the contributing
commands wrote can be ordered by their cross-path fences. -/
def State.sawFlip (s : State) (f : Furrow) (lanes : Mask) (scope space field addr : Nat) : State :=
  let cs := s.contributors space field addr
  let p := f.party lanes
  (s.bindLanes p (fun w => w.status && cs.contains w.cmd)).learned f lanes scope cs

/-- A weir's phase has flipped: the contributions made so far belong to phases that have ended. -/
def State.flipAt (s : State) (space field addr : Nat) : State :=
  { s with contribs := mapIf s.contribs (fun k => k.space == space && k.field == field && k.addr == addr) (fun k => { k with flipped := true }) }

/-- R150: the writes of class A that some lanes know of bind their later accesses of class B: for class LS the writes that bind the lanes
themselves, else those whose completion they have observed on a weir. -/
def State.crossPath (s : State) (f : Furrow) (lanes : Mask) (a b : Cls) : State :=
  let p := f.party lanes
  let known := fun (w : Write) => w.by_.cls == a &&
    (if a == .ls then (lanesOf lanes).any (fun l => w.binds s.cycles (s.laneReader f l)) else w.obs.any (fun x => x.meets p))
  if a == b then s
  else if b == .ls then s.bindLanes p known
  else s.bindPushes p b known

end Sys2Proof.Machine
end

