-- ==== Sys2Proof/Machine/Names.lean ====
section
/-! DEFINITION. Physical registers, value names and shared registers (R72, R73, R76, R77), and the reuse entries that lose a register (R78). -/
namespace Sys2Proof.Machine

/-! ### Physical registers (R73, R76, R77) -/

/-- The `v` registers of a list of names. -/
def vNames (l : List RegName) : List Nat :=
  l.filterMap (fun r => match r with
    | .v n => if n < 128 then some n else none
    | _ => none)

/-- Architectural registers that map to physical ones: the base block, and the extended block while it is held and not spilled. -/
def Furrow.mapped (f : Furrow) : List Nat :=
  List.range 48 ++ (if f.ext = .none ∨ f.spilled then [] else (List.range 80).map (fun k => 48 + k))

/-- Contents that a furrow's named registers map to. -/
def Furrow.mappedContents (f : Furrow) : List VReg := (f.mapped.filter (fun n => !f.unnamed.contains n)).map f.readV

/-- Contents of the named registers retained for a speculative fence (R72): those its furrow has written since. -/
def SpecFence.retained (sf : SpecFence) : List VReg :=
  (sf.kept.filter (fun n => !sf.unnamed.contains n)).map (fun n => sf.v[Fin.ofNat 128 n])

/-- Contents of all named registers that a furrow refers to. -/
def Furrow.namedContents (f : Furrow) : List VReg :=
  f.mappedContents ++ (match f.spec with
    | some sf => sf.retained
    | none => [])

/-- Unnamed registers that a furrow refers to. -/
def Furrow.unnamedCount (f : Furrow) : Nat :=
  (f.unnamed.filter (fun n => f.mapped.contains n)).length + (match f.spec with
    | some sf => (sf.kept.filter (fun n => sf.unnamed.contains n)).length
    | none => 0)

/-- The `v` registers that a load or atomic of a group, issued and not landed, will write (R72). -/
def Group.pendingDests (g : Group) : List Nat :=
  match g.wait with
  | some (.access _ _ _ _ i) => vNames i.readsWrites.2
  | _ => []

/-- The `v` registers of a furrow with a write allocated and not landed. -/
def Furrow.pendingDests (f : Furrow) : List Nat := (f.groups.map Group.pendingDests).flatten

/-- Registers allocated for loads of a furrow that have not landed. -/
def Furrow.inFlight (f : Furrow) : Nat := f.pendingDests.length

/-- Physical registers that a furrow retains beyond those its architectural registers map to, with writes of `ds` allocated besides those under way
(R72): the old mappings of such writes, and those kept for a speculative fence, named ones once for each value that nothing maps to. -/
def Furrow.retainedWith (f : Furrow) (ds : List Nat) : Nat :=
  let open_ := (f.pendingDests ++ ds).dedup
  let stay := ((f.mapped.filter (fun n => !open_.contains n && !f.unnamed.contains n)).map f.readV)
  let old := (open_.filter (fun n => !f.unnamed.contains n)).map f.readV
  let kept := match f.spec with
    | some sf => (sf.kept.filter (fun n => !sf.unnamed.contains n)).map (fun n => sf.v[Fin.ofNat 128 n])
    | none => []
  let loose := match f.spec with
    | some sf => (sf.kept.filter (fun n => sf.unnamed.contains n)).length
    | none => 0
  ((0 :: stay).foldl (fun l x => l.filter (fun y => y != x)) (old ++ kept).dedup).length + (open_.filter (fun n => f.unnamed.contains n)).length + loose

/-- Whether an instruction's vector writes would need a 17th retained register (R72). -/
def Furrow.overRetained (f : Furrow) (ds : List Nat) : Bool := !ds.isEmpty && (f.spec.isSome || !f.pendingDests.isEmpty) && decide (16 < f.retainedWith ds)

/-- Contents of the live named registers of a context in a quarter, the zero register among them. -/
def State.liveNamed (s : State) (core quarter ctx : Nat) : List VReg :=
  0 :: (((s.quarterFurrows core quarter).filter (fun f => s.ctxOf f == ctx)).map Furrow.namedContents).flatten

/-- Contents of every live named register of a quarter (R76). -/
def State.liveAll (s : State) (core quarter : Nat) : List VReg := 0 :: ((s.quarterFurrows core quarter).map Furrow.namedContents).flatten

/-- Physical registers in use in a quarter: the zero register, one for each context's distinct other value, one for each unnamed one, and
those of loads that have not landed. -/
def State.physUsed (s : State) (core quarter : Nat) : Nat :=
  let fs := s.quarterFurrows core quarter
  let named := (fs.map (fun f => (f.namedContents.filter (fun x => x != 0)).map (fun x => (s.ctxOf f, x)))).flatten
  1 + named.dedup.length + (fs.map Furrow.unnamedCount).sum + (fs.map Furrow.inFlight).sum

/-- Free physical registers of a quarter's 1024. -/
def State.physFree (s : State) (core quarter : Nat) : Nat := 1024 - s.physUsed core quarter

/-! ### Names (R76) -/

/-- What writing destination registers does to their names (R76): the furrow's unnamed list, and how many were shared or collided, each register
of a pair or quadruple counted by itself (DESIGN CHOICE, log 7: R86 says "vector writes", R76 names each register separately). A value that a live
register of another context holds, with which it may not be shared, takes the name too (DESIGN CHOICE, log 7: R76's cases leave it open). `own` are
the live values of the context, `all` those of the quarter. -/
def nameWrites (own all : List VReg) (f : Furrow) : List Nat → List Nat → Nat → Nat → List Nat × Nat × Nat
  | [], un, sh, co => (un, sh, co)
  | n :: ns, un, sh, co =>
    let x := f.readV n
    if own.contains x then nameWrites own all f ns (setRemove un n) (sh + 1) co
    else if all.any (fun y => y != x && Config.valueName y == Config.valueName x) then nameWrites own all f ns (setInsert un n) sh (co + 1)
    else nameWrites (x :: own) (x :: all) f ns (setRemove un n) sh co

/-- Registers of a furrow that stand in its quarter again are named as they are written (R75, R76); no instruction writes them, so no counter of R86
rises (DESIGN CHOICE, log 7). -/
def State.rename (s : State) (f : Furrow) (ns : List Nat) : Furrow :=
  let q := quarterOf f.slot
  { f with unnamed := (nameWrites (s.liveNamed f.core q (s.ctxOf f)) (s.liveAll f.core q) f ns f.unnamed 0 0).1 }

/-! ### Reuse entries that lose a register (R78) -/

/-- A reuse table changed. -/
def State.onReuse (s : State) (core quarter : Nat) (k : List ReuseEntry → List ReuseEntry) : State :=
  s.onCore core (fun c => { c with reuse := c.reuse.set (Fin.ofNat 4 quarter) (k (c.reuse[Fin.ofNat 4 quarter])) })

/-- Whether every value an entry names is still live in the quarter (R78). -/
def liveEntry (live : Nat → List VReg) (e : ReuseEntry) : Bool := (e.names ++ e.results).all (fun x => (live e.ctx).contains x)

/-- Reuse entries of a quarter that name a value no longer live leave it (R78). -/
def State.purgeReuse (s : State) (core quarter : Nat) : State :=
  let t := ((s.core core).reuse[Fin.ofNat 4 quarter]).filter (liveEntry (fun x => s.liveNamed core quarter x))
  s.onCore core (fun c => { c with reuse := c.reuse.set (Fin.ofNat 4 quarter) t })

end Sys2Proof.Machine
end

