-- ==== Sys2Proof/Machine/Tokens.lean ====
section
/-! DEFINITION. The physical map (R119 to R121), token holders and their messages (R371 to R390), the L1 copies and load reuse entries
that a token loss kills (R83, R125), the rollback of a speculative fence (R147), and the persistent requests of a home (R310, R381). -/
namespace Sys2Proof.Machine

/-! ### The physical map (R119, R120) -/

/-- What a physical address names. -/
inductive Place
  | bonded (die : Nat)
  | lpddr
  | host (h : Nat)
  | peer (p : Nat)
  | bad
  deriving DecidableEq, Repr

/-- A PA that names the package's own index in region 0b01 reaches the same byte as region 0b00 (R120). -/
def State.canonPa (s : State) (pa : Nat) : Nat :=
  if bitsOf pa 50 2 = 1 ∧ bitsOf pa 42 8 = s.pkg then bitsOf pa 0 42 else pa

/-- The local map of a package with some bytes of LPDDR6 installed (R119). -/
def localMap (lpddr a : Nat) : Place :=
  if a < 0x6000000000 then (if bitsOf a 0 36 < 0xC00000000 then .bonded (a / 2 ^ 36) else .bad)
  else if 0x20000000000 ≤ a ∧ a < 0x20000000000 + lpddr then .lpddr
  else .bad

/-- The local map of this package. -/
def State.localPlace (s : State) (a : Nat) : Place := localMap s.lpddr a

/-- The local map of another package: the same ranges, its LPDDR6 up to the largest size, which this package is not told (R119, log 107). -/
def peerMapped (a : Nat) : Bool := localMap (2 ^ 41) a != .bad

/-- The logical device bound to a host (R119, R415). -/
def State.hostLd (s : State) (h : Nat) : Option Ld := s.lds.find? (fun l => l.host == some h)

/-- Whether a host's logical device is bound and attached. -/
def State.hostUp (s : State) (h : Nat) : Bool := (s.hostLd h).any Ld.attached

/-- Where a PA lies: reserved ranges, uninstalled LPDDR6, packages outside the pod and unbound hosts are bad (R120, R424, R428). -/
def State.place (s : State) (pa0 : Nat) : Place :=
  let pa := s.canonPa pa0
  match bitsOf pa 50 2 with
  | 0 => if bitsOf pa 42 8 = 0 then s.localPlace (bitsOf pa 0 42) else .bad
  | 1 => if s.pod.contains (bitsOf pa 42 8) ∧ peerMapped (bitsOf pa 0 42) then .peer (bitsOf pa 42 8) else .bad
  | 2 => if s.hostUp (bitsOf pa 46 4) then .host (bitsOf pa 46 4) else .bad
  | _ => .bad

/-- Memory of this package (R119): bonded DRAM or LPDDR6. -/
def State.isLocal (s : State) (pa : Nat) : Bool :=
  match s.place pa with
  | .bonded _ | .lpddr => true
  | _ => false

/-- Whether a PA is homed in a peer package (R121). -/
def State.isPeer (s : State) (pa : Nat) : Bool :=
  match s.place pa with
  | .peer _ => true
  | _ => false

/-- The home agent of a sector (R371). A peer's line has none here. -/
def State.homeAgent (s : State) (pa : Nat) : Nat :=
  match s.place pa with
  | .bonded e => 8 + e
  | .lpddr => 7
  | _ => 14

/-- The sector of a physical address: 64 bytes. -/
def sectorOf (pa : Nat) : Nat := pa / 64 * 64

/-- The sectors that n bytes at an address touch. -/
def sectorsOf (pa n : Nat) : List Nat :=
  if n = 0 then [] else (List.range ((sectorOf (pa + n - 1) - sectorOf pa) / 64 + 1)).map (fun k => sectorOf pa + 64 * k)

/-! ### Token state -/

/-- The token record of a sector; one not listed has all 8 tokens at its home under serial 0 (R379). -/
def State.sector (s : State) (pa : Nat) : Sector :=
  (s.sectors.find? (fun x => x.pa == sectorOf pa)).getD
    { pa := sectorOf pa, holders := [{ agent := s.homeAgent pa, n := 8, own := true, valid := true }] }

/-- A token record put back. -/
def State.setSector (s : State) (x : Sector) : State :=
  { s with sectors := x :: s.sectors.filter (fun y => y.pa != x.pa) }

/-- What an agent keeps of a sector; an agent with nothing keeps the empty record (R377). -/
def Sector.holder (x : Sector) (a : Nat) : Holder := (x.holders.find? (fun h => h.agent == a)).getD { agent := a }

/-- A holder put back. -/
def Sector.setHolder (x : Sector) (h : Holder) : Sector := { x with holders := h :: x.holders.filter (fun k => k.agent != h.agent) }

/-- A change of a holder. -/
def State.onHolder (s : State) (pa a : Nat) (k : Holder → Holder) : State :=
  s.setSector ((s.sector pa).setHolder (k ((s.sector pa).holder a)))

/-- A read is allowed: at least one token and valid data (R372, R377). -/
def Holder.canRead (h : Holder) : Bool := decide (0 < h.n) && h.valid
/-- A write is allowed: all 8 tokens (R372). -/
def Holder.canWrite (h : Holder) : Bool := h.n == 8 && h.valid

/-- Whether a holder's tokens allow an access to a sector now; in recovery none is allowed beyond what it holds (R385). -/
def State.mayAccess (s : State) (a pa : Nat) (write : Bool) : Bool :=
  let h := (s.sector pa).holder a
  if write then h.canWrite else h.canRead

/-! ### Losing a token: L1 copies, load reuse entries, speculative fences, address waits -/

/-- A kill event on one quarter's table (R83, R86): the load entries that it meets leave it when Valid and are doomed when Filling, each counted
in `REUSE_KILL` of its context. -/
def Core.killQuarter (c : Core) (q : Nat) (t : ReuseEntry → Bool) : Core :=
  let table := c.reuse[Fin.ofNat 4 q]
  let hit := fun (e : ReuseEntry) => e.load && t e
  let dead := table.filter (fun e => hit e && (match e.phase with
    | .doomed .. => false
    | _ => true))
  let left := table.filterMap (fun e => if hit e then (match e.phase with
    | .valid => none
    | .filling n m => some { e with phase := .doomed n m }
    | .doomed .. => some e) else some e)
  dead.foldl (fun c e => c.onCounters e.ctx (fun k => { k with kill := k.kill + 1 })) { c with reuse := c.reuse.set (Fin.ofNat 4 q) left }

/-- The same in every quarter of the core. -/
def Core.kill (c : Core) (t : ReuseEntry → Bool) : Core := (List.range 4).foldl (fun c q => c.killQuarter q t) c

/-- A kill event on some cores (R83). -/
def State.killLoads (s : State) (onCore : Nat → Bool) (t : ReuseEntry → Bool) : State :=
  { s with cores := s.cores.map (fun c => if onCore c.ix then c.kill t else c) }

/-- The rollback of a furrow's speculative fence (R147): registers with their names and FLAGS as at the fence, every lane at the instruction after
it in the clause it was in, and that fence instance completes as a full fence. -/
def Furrow.rollback (f : Furrow) (sf : SpecFence) (pc : BitVec 24) (w : Option Wait) : Furrow :=
  { f with v := sf.v, unnamed := sf.unnamed, fpenv := (f.fpenv &&& ~~~0x3F#32) ||| (sf.fpenv &&& 0x3F#32), spec := none, openSlot := none,
           groups := f.groups.map (fun g => if g.level == f.level then
             { g with pc := pc, wait := w, clause := sf.clause, header := none, midChain := false } else g) }

/-- A rollback with its counter and the death of the quarter's load entries (R83, R147, R149). -/
def State.rollbackSpec (s : State) (f : Furrow) (sf : SpecFence) (pc : BitVec 24) (w : Option Wait) : State :=
  let s1 := (s.setFurrow (f.rollback sf pc w)).purgeReuse f.core (quarterOf f.slot)
  s1.onCore f.core (fun c =>
    (c.onCounters (s.ctxOf f) (fun k => { k with roll := k.roll + 1 })).killQuarter (quarterOf f.slot) (fun _ => true))

/-- The furrows of some cores whose speculative fence has read a sector roll back (R146). -/
def State.rollbackReaders (s : State) (onCore : Nat → Bool) (pa : Nat) : State :=
  s.furrows.foldl (fun s f =>
    match f.spec with
    | some sf => if onCore f.core && sf.readSet.contains pa then s.rollbackSpec f sf sf.nextPc (some (.rolledFence sf.fencePc sf.scope sf.lanes)) else s
    | none => s) s

/-- A sector leaves the L1s of some cores (R125): its load entries die, its readers roll back, its watchers wake. -/
def State.dropL1 (s : State) (onCore : Nat → Bool) (pa : Nat) : State :=
  let s1 := { s with cores := s.cores.map (fun (c : Core) => if onCore c.ix then { c with l1 := setRemove c.l1 pa } else c) }
  ((s1.killLoads onCore (fun e => e.sectors.contains pa)).rollbackReaders onCore pa).wake (fun w => w == Watch.sector pa)

/-- A die's holder loses a token of a sector (R83, R146, R256); with none left its L1 copies are gone too (R372). -/
def State.tokenLost (s : State) (die pa : Nat) (last : Bool) : State :=
  let on := fun c : Nat => dieOf c == die
  if last then s.dropL1 on pa
  else ((s.killLoads on (fun e => e.sectors.contains pa)).rollbackReaders on pa).wake (fun w => w == Watch.sector pa)

/-- The same for any agent: only agents 0 to 5 are dies. -/
def State.agentLost (s : State) (a pa : Nat) (last : Bool) : State := if a < 6 then s.tokenLost a pa last else s

/-- A change of the error counters of an agent's die: a compute die for its holder and its memory's home, else the base die (R434). -/
def State.onAgentErrs (s : State) (a : Nat) (k : ErrCounters → ErrCounters) : State :=
  if a < 6 then s.onDie a (fun d => { d with errs := k d.errs })
  else if 8 ≤ a ∧ a < 14 then s.onDie (a - 8) (fun d => { d with errs := k d.errs })
  else { s with baseErrs := k s.baseErrs }

/-! ### Messages (R374 to R376) -/

/-- The 128-bit header of a message (R374). -/
def Message.header (m : Message) : BitVec 128 :=
  BitVec.ofNat 4 m.typ ++ BitVec.ofNat 4 m.src ++ BitVec.ofNat 16 m.dmask ++ BitVec.ofNat 46 (m.sector / 64) ++ BitVec.ofNat 16 m.serial
    ++ BitVec.ofNat 4 m.count ++ BitVec.ofBool m.own ++ BitVec.ofBool m.data ++ BitVec.ofBool m.dirty ++ BitVec.ofNat 2 m.att
    ++ BitVec.ofNat 6 m.core ++ BitVec.ofNat 7 m.tag ++ BitVec.ofNat 20 m.age

/-- Whether a header holds a reserved TYPE or field value (R371, R374, R375). -/
def reservedHeader (h : BitVec 128) : Bool :=
  decide (8 < bitsOf h.toNat 124 4) || bitsOf h.toNat 120 4 == 15 || h.getLsbD 119 || decide (8 < bitsOf h.toNat 38 4)
    || bitsOf h.toNat 33 2 == 3 || decide (47 < bitsOf h.toNat 27 6)

/-- A message sent now; 64 bytes of data follow when it says so. -/
def State.send (s : State) (m : Message) : State :=
  { s with net := s.net ++ [{ m with sentAt := s.cycles, dmask := if m.dmask = 0 then 2 ^ m.dst else m.dmask,
                                     bytes := if m.data then s.bytesAt m.sector 64 else [] }] }

/-- Every holder of R371 and the home of a sector (R376). -/
def State.everyAgent (s : State) (pa : Nat) : List Nat :=
  let h := s.homeAgent pa
  [0, 1, 2, 3, 4, 5, 6] ++ (if h = 14 then [14] else [h, 14])

/-- A message sent to several agents, the sender aside. -/
def State.sendTo (s : State) (dsts : List Nat) (m : Message) : State :=
  let to_ := (dsts.filter (fun a => a != m.src)).dedup
  to_.foldl (fun s a => s.send { m with dst := a, dmask := (to_.map (fun b => 2 ^ b)).sum }) s

/-- The tag of an agent's request for a sector, which tokens sent to it carry (R374). -/
def Sector.tagOf (x : Sector) (a : Nat) : Nat := (((x.holder a).req).map TransReq.tag).getD 0

/-- All tokens of an agent sent to another (R373, R378). Data travel with the owner token, except to the home when it is clean. -/
def State.giveAll (s : State) (pa src dst : Nat) : State :=
  let x := s.sector pa
  let h := x.holder src
  let home := s.homeAgent pa
  if h.n = 0 then s
  else
    let x1 := x.setHolder { h with n := 0, own := false, valid := false, dirty := false, pred := [dst] }
    let x2 := if src = home ∧ h.own then { x1 with current := false } else x1
    ((s.setSector x2).agentLost src pa true).send
      { typ := 2, src := src, dst := dst, sector := pa, serial := if src = home then x.serial else h.serial, count := h.n, own := h.own,
        data := h.own && (dst != home || h.dirty), dirty := h.dirty, tag := x.tagOf dst }

/-- One plain token with data (R378). -/
def State.giveOne (s : State) (pa src dst : Nat) : State :=
  let x := s.sector pa
  let h := x.holder src
  ((s.setSector (x.setHolder { h with n := h.n - 1, pred := [dst] })).agentLost src pa false).send
    { typ := 2, src := src, dst := dst, sector := pa, serial := if src = s.homeAgent pa then x.serial else h.serial, count := 1,
      own := false, data := true, tag := x.tagOf dst }

/-- Access counters of a region (R366): the home counts a request from die d; at the threshold a hint is due. Answers the new state and
whether the hint is due. -/
def State.countAccess (s : State) (pa d : Nat) : State × Bool :=
  let r := pa / 2 ^ 21
  let v := ((s.access.find? (fun x => x.1 == r)).map Prod.snd).getD (Vector.replicate 6 0)
  let n := min 1023 (v[Fin.ofNat 6 d] + 1)
  let v1 := v.set (Fin.ofNat 6 d) n
  let thr := bitsOf s.accfg.toNat 0 10
  let away := match s.place pa with
    | .bonded e => e != d
    | .peer _ | .bad => false
    | _ => true
  ({ s with access := (r, v1) :: s.access.filter (fun x => x.1 != r) }, thr != 0 && n == thr && away)

/-- A request outstanding anywhere, or a persistent one not yet deactivated (R390). -/
def State.anyRequest (s : State) : Bool :=
  s.sectors.any (fun x => x.active.isSome || !x.pending.isEmpty || x.holders.any (fun h => h.req.isSome || h.preq.isSome))

/-- The lowest tag that no outstanding request of an agent has (R374; the order of tags is the model's, log 10). -/
def State.freeTag (s : State) (a : Nat) : Nat :=
  let used := s.sectors.filterMap (fun x => ((x.holder a).req).map TransReq.tag)
  ((List.range 128).find? (fun t => !used.contains t)).getD 127

/-- A first attempt of a holder's transient request (R378, R380): to the predictor's agents and the home, or with no entry to the home
and the home die's L2 holder. -/
def State.firstAttempt (s : State) (a pa : Nat) (write : Bool) (core : Nat) : State :=
  let x := s.sector pa
  let h := x.holder a
  let home := s.homeAgent pa
  let age := s.cycles / 128 % 2 ^ 20
  let tag := s.freeTag a
  let dsts := if h.pred.isEmpty then (match s.place pa with
      | .bonded e => [home, e]
      | _ => [home]) else home :: h.pred.filter (fun b => b != home)
  (s.onHolder pa a (fun h => { h with req := some { write := write, attempt := 0, sentAt := s.cycles, age := age, core := core, tag := tag } })).sendTo
    dsts { typ := if write then 1 else 0, src := a, dst := 0, sector := x.pa, core := coreInDie core, tag := tag, age := if s.cohMode then age else 0 }

/-- Whether a holder may raise a request for a sector now: none of its is outstanding, but for a read request where it is to write (R309, R378), the
sector is not in recovery for it, and no mode change drains (R385, R390). -/
def State.canRequest (s : State) (a pa : Nat) (write : Bool) : Bool :=
  let x := s.sector pa
  let h := x.holder a
  h.req.all (fun r => write && !r.write) && h.preq.isNone && !h.recovering && !(a == s.homeAgent pa && x.recovery.isSome) && s.cohNext.isNone

/-- A request of a holder, where it may raise one. -/
def State.request (s : State) (a pa : Nat) (write : Bool) (core : Nat) : State :=
  if s.canRequest a pa write then s.firstAttempt a pa write core else s

/-- Request a is older than request b (R388). -/
def olderReq (ageA srcA ageB srcB : Nat) : Bool :=
  let d := (ageB + 2 ^ 20 - ageA) % 2 ^ 20
  if d = 0 then decide (srcA < srcB) else decide (1 ≤ d ∧ d ≤ 2 ^ 19 - 1)

/-! ### Answers (R378, R382, R393, R394) -/

/-- A host transaction begun for a sector, once for each requester. -/
def State.startHostOp (s : State) (pa : Nat) (op : HostOp) : State :=
  let x := s.sector pa
  if x.hostOps.contains op then s else s.setSector { x with hostOps := x.hostOps ++ [op] }

/-- Whether the CXL agent is giving a host's line back: it keeps every token till the host has answered (R393). -/
def Sector.evicting (x : Sector) : Bool := x.hostOps.any (fun o => decide (6 ≤ o.kind))

/-- All tokens of an agent sent to another, the CXL agent first taking what it needs from the host (R393, R394). -/
def State.forward (s : State) (pa a r : Nat) : State :=
  let x := s.sector pa
  if (x.holder a).n = 0 ∨ a = r then s
  else if a = 14 ∧ s.homeAgent pa = 14 ∧ (x.host ≠ .ex ∨ x.evicting) then s.startHostOp pa { kind := 5, requester := r, write := true }
  else if a = 14 ∧ s.homeAgent pa ≠ 14 ∧ !x.hosts.isEmpty then s.startHostOp pa { kind := 3, requester := r, write := true }
  else s.giveAll pa a r

/-- What a holder or home sends on a request of another agent: nothing while an activation binds it (R378, R382). -/
def State.answer (s : State) (pa a src : Nat) (write : Bool) : State :=
  let x := s.sector pa
  let h := x.holder a
  let hosted := a == 14 && s.homeAgent pa == 14
  if h.n = 0 ∨ h.bound.isSome ∨ a = src then s
  else if write then s.forward pa a src
  else if !h.own then s
  else if hosted ∧ (x.host = .nh ∨ x.evicting) then s.startHostOp pa { kind := 4, requester := src }
  else if 2 ≤ h.n then s.giveOne pa a src
  else if hosted ∧ x.host ≠ .ex then s.startHostOp pa { kind := 5, requester := src }
  else if a = 14 ∧ !hosted ∧ !x.hosts.isEmpty then s.startHostOp pa { kind := 3, requester := src }
  else s.giveAll pa a src

/-- After an access of an agent is performed, `wr` for a write: its transient request is done, and an active persistent request of its deactivates (R378,
R310); a read does not end a request to write. With no request left it answers its queued forwards (R389). -/
def State.accessDone (s : State) (a pa : Nat) (wr : Bool) : State :=
  let x := s.sector pa
  let h := x.holder a
  let mine := x.active.any (fun p => p.1 == a && (!p.2.1 || (wr && h.canWrite)))
  let left := if h.req.any (fun r => r.write && !(wr && h.canWrite)) then h.req else none
  let s1 := s.onHolder pa a (fun h => { h with req := left, preq := if mine then none else h.preq })
  let s2 := if mine && h.preq.isSome then s1.send { typ := 5, src := a, dst := s.homeAgent pa, sector := x.pa } else s1
  if h.forwards.isEmpty || left.isSome then s2
  else
    let s3 := s2.onHolder pa a (fun h => { h with forwards := [] })
    (sortBy (fun p q => olderReq p.2.2 p.1 q.2.2 q.1) h.forwards).foldl (fun s q => s.answer pa a q.1 q.2.1) s3

/-! ### Persistent requests at the home (R309, R310, R381) -/

/-- Rank of a requester: recalls first, then dies in ascending order, then the pod agent (R310, R381); a home's request for an access of the base die
comes last (DESIGN CHOICE, log 117: the rules give it no rank). -/
def requesterRank (a : Nat) : Nat := if a = 14 then 0 else a + 1

/-- Sectors of a home that have an active persistent request: at most 8 (R381). -/
def State.activeAt (s : State) (home : Nat) : Nat := (s.sectors.filter (fun x => x.active.isSome && s.homeAgent x.pa == home)).length

/-- The pending requests of a sector that may be activated (R310): those of a requester that must first let others be served are not. -/
def Sector.ready (x : Sector) : List (Nat × Bool × Nat) := x.pending.filter (fun p => !x.barred.any (fun b => b.1 == p.1))

/-- An agent has performed an access to a sector that it has tokens of: a request of its that is outstanding there is over (R378). -/
def State.readHeld (s : State) (a pa : Nat) : State :=
  let h := (s.sector pa).holder a
  if h.req.isSome || h.preq.isSome || !h.forwards.isEmpty then s.accessDone a (sectorOf pa) false else s

/-- The home activates the pending request that comes first, when none is active (R310, R381). -/
def State.activateNext (s : State) (pa : Nat) : State :=
  let x := s.sector pa
  let home := s.homeAgent pa
  if x.active.isSome ∨ x.recovery.isSome ∨ 8 ≤ s.activeAt home then s
  else
    match bestBy (fun (a b : Nat × Bool × Nat) => decide (requesterRank a.1 < requesterRank b.1)) x.ready with
    | none => s
    | some r =>
      let s1 := s.setSector { x with pending := x.pending.filter (fun p => p.1 != r.1), active := some (r.1, r.2.1, s.cycles) }
      let s2 := (s1.onHolder pa home (fun h => { h with bound := some r.1 })).sendTo (s.everyAgent pa)
        { typ := 4, src := home, dst := 0, sector := x.pa, serial := x.serial, att := 2, tag := r.1 }
      s2.forward pa home r.1

/-- A persistent request added at the home. -/
def State.addPending (s : State) (pa a : Nat) (write : Bool) : State :=
  let x := s.sector pa
  if x.pending.any (fun p => p.1 == a) ∨ x.active.any (fun p => p.1 == a) then s
  else (s.setSector { x with pending := x.pending ++ [(a, write, s.cycles)] }).activateNext pa

/-- When the first recall of a sector was raised, if one is pending. -/
def Sector.recallAt (x : Sector) : Option Nat := (x.pending.find? (fun p => p.1 == 14)).map (fun p => p.2.2)

/-- The order in which a home's sectors get an activation (R381): those with a recall first, the earliest raised before later ones, then the
one whose first request came earliest (log 37). -/
def sectorBefore (x y : Sector) : Bool :=
  match x.recallAt, y.recallAt with
  | some a, some b => decide (a < b)
  | some _, none => true
  | none, some _ => false
  | none, none => decide (((x.pending.map (fun p => p.2.2)).headD 0) < ((y.pending.map (fun p => p.2.2)).headD 0))

/-- The home after a deactivation (R310): holders are told, whoever was pending must be served before the requester may raise another, and
the next requests are activated. -/
def State.deactivate (s : State) (pa a : Nat) : State :=
  let x := s.sector pa
  let home := s.homeAgent pa
  if !x.active.any (fun p => p.1 == a) then s
  else
    let waits := x.pending.map Prod.fst
    let old := (x.barred.map (fun b => (b.1, b.2.filter (fun q => q != a)))).filter (fun b => b.1 != a && !b.2.isEmpty)
    let s1 := s.setSector { x with active := none, barred := if waits.isEmpty then old else (a, waits) :: old }
    let s2 := (s1.onHolder pa home (fun h => { h with bound := none })).sendTo (s.everyAgent pa)
      { typ := 5, src := home, dst := 0, sector := x.pa, serial := x.serial }
    (sortBy sectorBefore (s2.sectors.filter (fun y => !y.pending.isEmpty && s2.homeAgent y.pa == home))).foldl (fun s y => s.activateNext y.pa) s2

/-! ### Capacity (R23, R121) -/

/-- The sectors that a die's agent holds tokens of in the store that would hold a sector: the L2 slice for its own die's lines, else the RDC. -/
def State.heldWith (s : State) (die pa : Nat) : List Nat :=
  let mine := s.place pa == Place.bonded die
  (s.sectors.filter (fun x => (x.holder die).n != 0 && (if mine then s.place x.pa == Place.bonded die && bitsOf x.pa 6 30 % 48 == bitsOf pa 6 30 % 48
    else s.place x.pa != Place.bonded die))).map Sector.pa

/-- Sectors of that store: an L2 slice of 2 MiB, or the RDC of 32 MiB. -/
def State.roomFor (s : State) (die pa : Nat) : Nat := if s.place pa = Place.bonded die then 32768 else 524288

/-- The agent through which a die's furrows and engines reach a line (R121). -/
def dieAgent (core : Nat) : Nat := dieOf core

/-! ### Performing a write -/

/-- Before the package first writes a host-homed line: what the host's memory holds of it (R393, R424). -/
def State.keepHome (s : State) (sec : Nat) : State :=
  match s.place sec with
  | .host _ => if (s.sector sec).homeCopy.isSome then s else s.setSector { s.sector sec with homeCopy := some (s.bytesAt sec 64) }
  | _ => s

/-- A write of bytes at a physical address, performed (R125, R137): other L1 copies go, the writer's own load entries of the region die
(R83), waiters wake. `vpage` is the 4 KiB virtual page written, where a furrow or engine of a core writes; a write of the base die, a host or
another package is seen by everybody at once. -/
def State.performWrite (s : State) (pa : Nat) (bs : List Byte) (writer : Option (Nat × Nat)) : State :=
  let s0 := (sectorsOf pa bs.length).foldl State.keepHome (if writer.isNone then s.settleBytes 0 0 pa bs.length else s)
  let s1 := s0.writeBytes pa bs
  let s2 := match writer with
    | some (c, vpage) => s1.killLoads (fun k => k == c) (fun e => e.region == vpage)
    | none => s1
  (sectorsOf pa bs.length).foldl (fun s sec =>
    let s := s.dropL1 (fun k => match writer with
      | some (c, _) => k != c
      | none => true) sec
    let h := (s.sector sec).holder (match writer with
      | some (c, _) => dieAgent c
      | none => s.homeAgent sec)
    let s := if h.n = 8 ∧ h.agent ≠ s.homeAgent sec then s.onHolder sec h.agent (fun h => { h with dirty := true }) else s
    s.wake (fun w => w == Watch.sector sec)) s2

/-- A write of bytes into a field's scratchpad, performed: waiters on its words wake (R256). -/
def State.writeScratch (s : State) (field a : Nat) (bs : List Byte) : State :=
  (s.onField field (fun f => { f with sp := f.sp.writeBytes a bs })).wake (fun w =>
    match w with
    | .scratch fd word => fd == field && decide (word * 4 < a + bs.length ∧ a < word * 4 + 4)
    | _ => false)

end Sys2Proof.Machine
end

