-- ==== Sys2Proof/Machine/Translate.lean ====
section
/-! DEFINITION. Translation contexts, page-table walks, TLBs, permissions, physical range checks (R341 to R350) and the fault queue
(R355 to R358). -/
namespace Sys2Proof.Machine

/-- Kind of an access: fetch, read-modify-write, write (INFO of R318: [2] fetch, [1] read-modify-write, [0] write). -/
structure AccessKind where
  fetch : Bool := false
  rmw : Bool := false
  write : Bool := false
  deriving DecidableEq, Repr

/-- The INFO bits of an access kind (R318). A read-modify-write is not also coded as a write. -/
def AccessKind.info (k : AccessKind) : Nat := k.fetch.toNat * 4 + k.rmw.toNat * 2 + k.write.toNat

/-- The kind that INFO bits name. -/
def AccessKind.ofInfo (n : Nat) : AccessKind := { fetch := n.testBit 2, rmw := n.testBit 1, write := n.testBit 0 }

/-- How a translation ends: a physical address, or a cause with what the fault queue records of it (R355). -/
inductive Xlat
  | ok (pa : Nat)
  | fail (code : Nat) (busy badPte : Bool) (wlevel : Nat)
  /-- a walk reads a sector of which the die holds no token yet -/
  | wait (sector : Nat)
  deriving DecidableEq, Repr

/-- How a walk ends: the TLB entry it fills, or why it stops (R345, R347). -/
inductive WalkEnd
  | leaf (e : TlbEntry)
  | stop (code : Nat) (busy badPte : Bool) (wlevel : Nat)
  deriving DecidableEq, Repr

/-- Whether a PA lies in an enabled hypervisor range; with none enabled every PA passes (R347, R348). -/
def Ctx.paAllowed (c : Ctx) (pa : Nat) : Bool :=
  let rs := c.hpar.toList.filter (fun r => r.getLsbD 63)
  rs.isEmpty || rs.any (fun r => decide (bitsOf r.toNat 0 31 ≤ bitsOf pa 21 31 ∧ bitsOf pa 21 31 ≤ bitsOf r.toNat 31 31))

/-- Page size of a leaf at a table level (R342). -/
def pageSize (level : Nat) : Nat := if level = 2 then 2 ^ 30 else if level = 1 then 2 ^ 21 else 2 ^ 12

/-- Number of entries in a contiguous run (R342). -/
def runLength (level : Nat) : Nat := if level = 2 then 32 else 16

/-- The TLB entry filled from a leaf (R343, R344): the whole run when C is set and the run's base is aligned. -/
def leafEntry (asid va level e : Nat) : TlbEntry :=
  let size := pageSize level
  let pa := bitsOf e 12 40 * 4096
  let n := runLength level
  let j := va / size % n
  let run := size * n
  let useRun := e.testBit 7 && decide (level ≠ 1) && decide (j * size ≤ pa) && (pa - j * size) % run == 0
  { asid := asid, vbase := if useRun then va / run * run else va / size * size, size := if useRun then run else size,
    pbase := if useRun then pa - j * size else pa / size * size, g := e.testBit 6, u := e.testBit 5, x := e.testBit 4,
    w := e.testBit 3, r := e.testBit 2 }

/-- Whether a valid entry is malformed (R343, R345). -/
def State.malformed (s : State) (level e : Nat) : Bool :=
  let pa := bitsOf e 12 40 * 4096
  let leaf := e.testBit 1
  bitsOf e 9 3 != 0
    || (leaf && decide (3 ≤ level)) || (!leaf && level == 0)
    || (leaf && e.testBit 7 && level == 1)
    || (leaf && pa % pageSize level != 0)
    || (leaf && !e.testBit 2 && e.testBit 3)
    || (!leaf && bitsOf e 2 7 != 0)
    || (!leaf && !s.isLocal pa)

/-- A walk from a table at a level (R342, R345, R347): at most five reads of 8 bytes. -/
def State.walkFrom (s : State) (c : Ctx) (va : Nat) : Nat → Nat → WalkEnd
  | level, table =>
    let a := table + 8 * bitsOf va (12 + 9 * level) 9
    if !c.paAllowed a then .stop 0x12 false false 0
    else if s.poisoned (s.canonPa a) 8 then .stop 0x1C false false 0
    else
      let e := s.numAt (s.canonPa a) 8
      if !e.testBit 0 then .stop 0x10 (e.testBit 8) false level
      else if s.malformed level e then .stop 0x10 false true level
      else if e.testBit 1 then .leaf (leafEntry c.tasid.toNat va level e)
      else match level with
        | 0 => .stop 0x10 false true 0
        | l + 1 => s.walkFrom c va l (bitsOf e 12 40 * 4096)

/-- The alias window of a service context (R369): PA of regions 0b00 to 0b10 at 2^56 + PA, readable and writable, not executable, not
for level 0. -/
def aliasEntry (c : Ctx) (va : Nat) : Option TlbEntry :=
  if c.service && decide (2 ^ 56 ≤ va ∧ va < 2 ^ 56 + 3 * 2 ^ 50) then
    some { asid := c.tasid.toNat, vbase := va / 4096 * 4096, size := 4096, pbase := (va - 2 ^ 56) / 4096 * 4096, g := false, u := false,
           x := false, w := true, r := true }
  else none

/-- A whole walk of a context for a virtual address (R342, R348). -/
def State.walk (s : State) (c : Ctx) (va : Nat) : WalkEnd :=
  match aliasEntry c va with
  | some e => .leaf e
  | none =>
    let root := bitsOf c.troot.toNat 12 40 * 4096
    if !s.isLocal root then .stop 0x10 false true 4 else s.walkFrom c va 4 root

/-- The addresses of the entries that a walk reads, in order. -/
def State.walkReadsFrom (s : State) (c : Ctx) (va : Nat) : Nat → Nat → List Nat
  | level, table =>
    let a := table + 8 * bitsOf va (12 + 9 * level) 9
    if !c.paAllowed a then []
    else
      let p := s.canonPa a
      let e := s.numAt p 8
      if s.poisoned p 8 || !e.testBit 0 || s.malformed level e || e.testBit 1 then [p]
      else match level with
        | 0 => [p]
        | l + 1 => p :: s.walkReadsFrom c va l (bitsOf e 12 40 * 4096)

/-- The sectors that a whole walk reads. -/
def State.walkReads (s : State) (c : Ctx) (va : Nat) : List Nat :=
  match aliasEntry c va with
  | some _ => []
  | none =>
    let root := bitsOf c.troot.toNat 12 40 * 4096
    if !s.isLocal root then [] else ((s.walkReadsFrom c va 4 root).map sectorOf).dedup

/-- The first sector of a walk that an agent may not read yet: entries are global accesses, read one after another under its tokens (R341, R372; log 9). -/
def State.walkLack (s : State) (a : Nat) (c : Ctx) (va : Nat) : Option Nat := (s.walkReads c va).find? (fun x => !s.mayAccess a x false)

/-- A TLB entry of an ASID that covers an address (R350). -/
def TlbEntry.hits (e : TlbEntry) (asid va : Nat) : Bool := (e.g || e.asid == asid) && decide (e.vbase ≤ va ∧ va < e.vbase + e.size)

/-- Whether a leaf permits an access at a level (R346). -/
def TlbEntry.permits (e : TlbEntry) (k : AccessKind) (level : Nat) : Bool :=
  if k.fetch then e.x && (if level = 0 then e.u else !e.u)
  else (if k.rmw then e.r && e.w else if k.write then e.w else e.r) && (level != 0 || e.u)

/-- Whether a physical address passes the range and map checks (R120, R347). -/
def State.rangeOk (s : State) (c : Ctx) (pa : Nat) : Bool := c.paAllowed pa && s.place pa != .bad

/-- The physical address that an entry gives: the frame of the address's 4 KiB page, the low 12 bits as they are (R342). -/
def TlbEntry.frame (e : TlbEntry) (va : Nat) : Nat := (e.pbase + (va - e.vbase)) / 4096 * 4096 + va % 4096

/-- Permission, then range and map checks of a translated address (R239 checks 4 and 5, R346, R347, R120). -/
def State.checkLeaf (s : State) (c : Ctx) (e : TlbEntry) (va : Nat) (k : AccessKind) (level : Nat) : Xlat :=
  if !e.permits k level then .fail 0x11 false false 0
  else if !s.rangeOk c (e.frame va) then .fail 0x12 false false 0
  else .ok (s.canonPa (e.frame va))

/-! ### TLBs (R23, R350) -/

/-- The quarter of a core whose furrow is issuing: its L0 TLB serves the access. Engines and events use none. -/
def State.issuingQuarter (s : State) (core : Nat) : Option Nat :=
  match s.issue with
  | some q => if q.core = core then some (quarterOf q.slot) else none
  | none => none

/-- An entry put into a TLB with room for so many; a full one first loses an entry (log 4). -/
def tlbInsert (room ctr : Nat) (e : TlbEntry) (l : List TlbEntry) : List TlbEntry :=
  e :: (if l.length < room then l else dropNth l (Config.cacheVictim ctr % l.length))

/-- A translation found in the issuing quarter's L0 TLB, the core's L1 TLB or the die's L2 TLB, in that order. -/
def State.tlbFind (s : State) (core asid va : Nat) : Option TlbEntry :=
  let t := fun (e : TlbEntry) => e.hits asid va
  match (s.issuingQuarter core).bind (fun q => ((s.core core).tlb0[Fin.ofNat 4 q]).find? t) with
  | some e => some e
  | none =>
    match (s.core core).tlb.find? t with
    | some e => some e
    | none => (s.die (dieOf core)).tlb.find? t

/-- A walk's leaf put into the TLBs of the access: 32, 512 and 16,384 entries. -/
def State.tlbFill (s : State) (core : Nat) (e : TlbEntry) : State :=
  let s1 := s.onCore core (fun c => { c with
    tlb := tlbInsert 512 s.freeCtr e c.tlb,
    tlb0 := match s.issuingQuarter core with
      | some q => c.tlb0.set (Fin.ofNat 4 q) (tlbInsert 32 s.freeCtr e (c.tlb0[Fin.ofNat 4 q]))
      | none => c.tlb0 })
  s1.onDie (dieOf core) (fun d => { d with tlb := tlbInsert 16384 s.freeCtr e d.tlb })

/-- Translation of a global address for a core (R341, R350): a TLB entry, or a walk that fills the TLBs unless the address fails its range
check. -/
def State.translateNow (s : State) (ctx core va : Nat) (k : AccessKind) (level : Nat) : State × Xlat :=
  match s.ctx? ctx with
  | none => (s, .fail 0x10 false true 4)
  | some c =>
    match s.tlbFind core c.tasid.toNat va with
    | some e => (s, s.checkLeaf c e va k level)
    | none =>
      match s.walk c va with
      | .stop code busy bad wl => (s, .fail code busy bad wl)
      | .leaf e => (if s.rangeOk c (e.frame va) then s.tlbFill core e else s, s.checkLeaf c e va k level)

/-- The sector for which the translation of an address for a core waits, where its walk reads one that the die has no token of. -/
def State.xlatLack (s : State) (ctx core va : Nat) : Option Nat :=
  match s.ctx? ctx with
  | none => none
  | some c => if (s.tlbFind core c.tasid.toNat va).isSome then none else s.walkLack (dieAgent core) c va

/-- The translation once the die holds the tokens that its walk needs, which it requests (R372, R378). -/
def State.translate (s : State) (ctx core va : Nat) (k : AccessKind) (level : Nat) : State × Xlat :=
  match s.xlatLack ctx core va with
  | some sec => (s.request (dieAgent core) sec false core, .wait sec)
  | none =>
    let secs := match s.ctx? ctx with
      | none => []
      | some c => if (s.tlbFind core c.tasid.toNat va).isSome then [] else s.walkReads c va
    (secs.foldl (fun s x => s.readHeld (dieAgent core) x) s).translateNow ctx core va k level

/-- The pieces of n bytes at a virtual address that lie in single 4 KiB pages: address and length. -/
def pagePieces (va n : Nat) : List (Nat × Nat) :=
  let n1 := min n (4096 - va % 4096)
  if n = 0 then [] else if n1 = n then [(va, n)] else (va, n1) ::
    (List.range (ceilDiv (n - n1) 4096)).map (fun k => (va + n1 + 4096 * k, min 4096 (n - n1 - 4096 * k)))

/-- Translations that match a test leave every TLB of the package, and every load reuse entry dies (R83, R364). -/
def State.tlbDrop (s : State) (t : TlbEntry → Bool) : State :=
  let keep := fun (l : List TlbEntry) => l.filter (fun e => !t e)
  let s1 := { s with dies := Vector.ofFn (fun i : Fin 6 => { s.dies[i] with tlb := keep s.dies[i].tlb }),
                     cores := s.cores.map (fun (c : Core) => { c with tlb := keep c.tlb, tlb0 := Vector.ofFn (fun q : Fin 4 => keep c.tlb0[q]) }) }
  s1.killLoads (fun _ => true) (fun _ => true)

/-- Whether a test of TLB entries may hold of the entry through which a page of an ASID has been translated: an entry of any size that covers it (R342,
R364). -/
def dropsPage (t : TlbEntry → Bool) (asid va : Nat) : Bool :=
  [2 ^ 12, 2 ^ 16, 2 ^ 21, 2 ^ 30, 2 ^ 35].any (fun size =>
    let e : TlbEntry := { asid := asid, vbase := va / size * size, size := size, pbase := 0, g := false, u := false, x := false, w := false, r := false }
    t e || t { e with g := true })

/-- The virtual addresses through which a furrow's stores and accesses that have issued are still to be performed. -/
def Furrow.outstanding (f : Furrow) : List Nat :=
  (f.posted.map (fun p => p.writes.map PostWrite.vpage)).flatten ++ (f.groups.map (fun g => match g.wait with
    | some (.access _ _ todo _ _) => todo.map Part.ea
    | _ => [])).flatten

/-- Whether an access translated through an entry of a test is still to be performed, or an engine's chunk to land or to be committed (R364). -/
def State.outstanding (s : State) (t : TlbEntry → Bool) : Bool :=
  let asid := fun (field : Nat) => (((s.field? field).bind (fun fl => s.ctx? fl.ctx)).map (fun c => c.tasid.toNat)).getD 0
  let through := fun (field : Nat) (p : Piece) => p.space == 0 && dropsPage t (asid field) p.vpage
  s.furrows.any (fun f => f.outstanding.any (dropsPage t (asid f.field)))
    || s.commands.any (fun c => c.flights.any (fun x => (x.src.flatten ++ (x.puts.map Put.pieces).flatten).any (through c.field)))
    || s.colls.any (fun k => k.ranks.any (fun r => r.todo.any (fun ps =>
          (ps.map Put.pieces).flatten.any (fun p => (s.cmd? r.cmd).any (fun c => through c.field p)))))

/-! ### The fault queue (R355 to R358) -/

/-- The number after a SEQ: 0 is never given (R355). -/
def nextSeqOf (n : Nat) : Nat := if n + 1 < 2 ^ 32 then n + 1 else 1

/-- The first number from n that no unresolved entry holds. -/
def freeSeq (es : List FaultEntry) : Nat → Nat → Nat
  | 0, n => n
  | fuel + 1, n => if es.any (fun e => e.seq == n) then freeSeq es fuel (nextSeqOf n) else n

/-- Whether a report merges into an entry (R357). -/
def FaultEntry.merges (e : FaultEntry) (r : FaultReport) : Bool :=
  e.ctx == r.ctx && e.asid == r.asid && e.vaddr.toNat == r.vaddr / 4096 * 4096 && e.cause == r.cause && e.origin != 15

/-- A fault posted to a die's queue or merged into an unresolved entry; no SEQ when the queue is full (R356 to R358). -/
def State.postFault (s : State) (die : Nat) (r : FaultReport) (w : Waiter) : State × Option Nat :=
  let d := s.die die
  match d.faults.find? (fun e => e.merges r) with
  | some e =>
    (s.onDie die (fun d => { d with faults := d.faults.map (fun x => if x.seq == e.seq then
      { x with count := min (x.count + 1) (2 ^ 32 - 1), kind := x.kind ||| r.kind, busy := x.busy || r.busy, waiters := x.waiters ++ [w] } else x) }),
      some e.seq)
  | none =>
    if 1024 ≤ (d.faults.filter FaultEntry.queued).length then (s, none)
    else
      let q := freeSeq d.faults d.faults.length d.nextSeq
      (s.onDie die (fun d => { d with nextSeq := nextSeqOf q, faults := d.faults ++
        [{ seq := q, queued := true, vaddr := BitVec.ofNat 64 (r.vaddr / 4096 * 4096), ctx := r.ctx, asid := r.asid, cause := r.cause,
           level := r.level, origin := r.origin, busy := r.busy, badPte := r.badPte, wlevel := r.wlevel, kind := r.kind, count := 1,
           first := r.first, waiters := [w] }] }), some q)

/-- A migration hint posted to a die's queue (R358, R366): merged into an unresolved hint of the region, dropped when fewer than 256
free entries would be left, and the counters cleared in every case. -/
def State.postHint (s : State) (die pa : Nat) : State :=
  let r := pa / 2 ^ 21
  let v := ((s.access.find? (fun x => x.1 == r)).map Prod.snd).getD (Vector.replicate 6 0)
  let packed := (List.range 6).foldl (fun n d => n + v[Fin.ofNat 6 d] * 2 ^ (10 * d)) 0
  let s1 := { s with access := s.access.filter (fun x => x.1 != r) }
  let d := s1.die die
  let region := BitVec.ofNat 64 (r * 2 ^ 21)
  match d.faults.find? (fun e => e.origin == 15 && e.vaddr == region) with
  | some e => s1.onDie die (fun d => { d with faults := d.faults.map (fun x => if x.seq == e.seq then
      { x with count := min (x.count + 1) (2 ^ 32 - 1) } else x) })
  | none =>
    if 1024 < (d.faults.filter FaultEntry.queued).length + 1 + 256 then s1
    else
      let q := freeSeq d.faults d.faults.length d.nextSeq
      s1.onDie die (fun d => { d with nextSeq := nextSeqOf q, faults := d.faults ++
        [{ seq := q, queued := true, vaddr := region, ctx := 0, asid := 0, cause := 0x30, level := 0, origin := 15, busy := false,
           badPte := false, wlevel := 0, kind := 0, count := 1, first := BitVec.ofNat 64 packed, waiters := [.hint] }] })

/-- A request of a die for a line that reaches its home: counted, and at the threshold a hint is posted to that die's queue (R366). -/
def State.noteRequest (s : State) (pa die : Nat) : State :=
  let r := s.countAccess pa die
  if r.2 then r.1.postHint die pa else r.1

/-- The four words of an entry (R355). -/
def FaultEntry.words (e : FaultEntry) : List (BitVec 64) :=
  [ e.vaddr,
    BitVec.ofNat 64 (e.ctx * 2 ^ 48 + e.asid * 2 ^ 32 + e.cause * 2 ^ 24 + e.level * 2 ^ 20 + e.origin * 2 ^ 16 + e.busy.toNat * 2 ^ 15
      + e.badPte.toNat * 2 ^ 14 + e.wlevel * 2 ^ 11 + e.kind * 2 ^ 8),
    BitVec.ofNat 64 (e.count * 2 ^ 32 + e.seq),
    e.first ]

end Sys2Proof.Machine
end

