-- ==== Sys2Proof/Machine/Ends.lean ====
section
/-! DEFINITION. Reads and writes of the base die, interrupts, and how schemes, reaches and contexts end (R63, R64, R321, R335, R336,
R398, R421, R425). -/
namespace Sys2Proof.Machine

/-! ### Interrupts (R421) -/

/-- A vector of a VF raised (R421): it merges with one still pending in the host, which takes it in its own time (log 121); none is sent while the LD is
detached (R424). -/
def State.raiseIrq (s : State) (vf vec : Nat) : State :=
  match (s.vf vf).ld with
  | some l =>
    if (s.ld l).attached then
      (s.onVf vf (fun v =>
        let left := v.irqs.filter (fun x => decide (s.cycles < x.2))
        { v with irqs := if left.any (fun x => x.1 == vec) then left else left ++ [(vec, s.cycles + Config.irqTaken s.freeCtr + 1)] })).tickFree
    else s
  | none => s

/-- A `VF_EVENT` bit set, with vector 8 (R421). -/
def State.setEvent (s : State) (vf bit : Nat) : State :=
  (s.onVf vf (fun v => { v with event := v.event ||| (1#7 <<< bit) })).raiseIrq vf 8

/-! ### Accesses from outside the cores (R371, R379, R392, R394)

The base die reads and writes at a line's home, other packages through the pod agent, hosts through the CXL agent (log 10). An access is performed
once its agent holds the tokens it needs, and waits for them in `State.outer` till then. -/

/-- The value that one of the integer atomics leaves (R250). -/
def outerAtomic (op : Fin 8) (t : Ty) (old b c : Nat) : Nat :=
  let n := t.width
  let num := fun (x : Nat) => if t.isSigned then sext x n else ((x % 2 ^ n : Nat) : Int)
  match op.val with
  | 0 => wrap (num old + num b) n
  | 1 => wrap (min (num old) (num b)) n
  | 2 => wrap (max (num old) (num b)) n
  | 3 => old &&& b
  | 4 => old ||| b
  | 5 => old ^^^ b
  | 6 => b
  | _ => if old = b then c else old

/-- Whether an access from outside leaves its sector as it is. -/
def OuterOp.reads (o : OuterOp) : Bool := o.access == .fill

/-- Whether an access can be performed: its agent holds the tokens (R372), and no other host has a copy (R394). A peer package's line is written
through. -/
def State.outerHeld (s : State) (o : OuterOp) : Bool :=
  let x := s.sector o.pa
  s.isPeer o.pa || (if o.reads then (x.holder o.agent).canRead else (x.holder o.agent).canWrite
    && (match o.kind with
      | .cxl h => x.hosts.all (fun k => k == h)
      | _ => true))

/-- The bytes that an access writes; an atomic at a poisoned location leaves it as it is (R241). -/
def State.outerBytes (s : State) (o : OuterOp) : List Byte :=
  match o.access with
  | .fill => []
  | .write bs => bs.take (sectorOf o.pa + 64 - o.pa)
  | .atomic op t b c =>
    if s.poisoned o.pa (t.width / 8) then [] else leBytes (t.width / 8) (outerAtomic op t (s.numAt o.pa (t.width / 8)) b c)

/-- An access performed, with what its agent then does: the pod agent returns its tokens to the home (R392), a host has its copy (R394), a line of a
host that the base die has written is no longer cached here (R393). -/
def State.performOuter (s : State) (o : OuterOp) : State :=
  let bs := s.outerBytes o
  let s0 := if bs.isEmpty then s else s.performWrite o.pa bs none
  let s1 := if bs.isEmpty ∨ s.isPeer o.pa ∨ o.agent = s.homeAgent o.pa then s0 else s0.onHolder o.pa o.agent (fun h => { h with dirty := true })
  let s2 := if s.isPeer o.pa then s1 else match o.kind with
    | .pod _ => (s1.accessDone 6 (sectorOf o.pa) (!o.reads)).giveAll (sectorOf o.pa) 6 (s.homeAgent o.pa)
    | .cxl h => (s1.setSector { s1.sector o.pa with hosts := setInsert (s1.sector o.pa).hosts h }).accessDone 14 o.pa (!o.reads)
    | .base =>
      if o.agent = 14 then
        let x := s1.sector o.pa
        ((s1.setSector { x with host := .nh, pending := x.pending.filter (fun p => p.1 != 14) }).onHolder o.pa 14 (fun h =>
          { h with preq := none })).deactivate (sectorOf o.pa) 14
      else s1.accessDone o.agent (sectorOf o.pa) (!o.reads)
  match o.irq with
  | some (vf, vec) => s2.raiseIrq vf vec
  | none => s2

/-- Accesses performed in order as far as tokens allow: those of the base die one after another, the others of each sector. -/
def runOuter : List OuterOp → Bool → List Nat → State → State × List OuterOp
  | [], _, _, s => (s, [])
  | o :: os, stop, secs, s =>
    let base := o.kind == .base
    if !(base && stop) && !secs.contains (sectorOf o.pa) && s.outerHeld o then runOuter os stop secs (s.performOuter o)
    else let r := runOuter os (stop || base) (sectorOf o.pa :: secs) s; (r.1, o :: r.2)

/-- The request of an access that waits: a recall for a host's line (R381, R393), a back-invalidate where the CXL agent holds every token (R394), else
a request of R378. -/
def State.requestOuter (s : State) (o : OuterOp) : State :=
  let sec := sectorOf o.pa
  let h := (s.sector sec).holder o.agent
  if s.isPeer sec then s
  else if o.agent = 14 ∧ s.homeAgent sec = 14 then (s.onHolder sec 14 (fun h => { h with preq := some true })).addPending sec 14 true
  else if o.agent = 14 ∧ h.canWrite then s.startHostOp sec { kind := 3, requester := 14, write := true }
  else s.request o.agent sec (!o.reads) 0

/-- What waits performed as far as tokens allow, and requested where they lack. -/
def State.settleOuter (s : State) : State :=
  if s.outer.isEmpty then s
  else
    let r := runOuter s.outer false [] s
    r.2.foldl (fun s o => s.requestOuter o) { r.1 with outer := r.2 }

/-- Accesses from outside that come now. -/
def State.addOuter (s : State) (os : List OuterOp) : State := ({ s with outer := s.outer ++ os } : State).settleOuter

/-- A byte as the base die has written it: its own writes still to be performed stand before memory. -/
def State.baseByte (s : State) (pa : Nat) : Byte :=
  s.outer.foldl (fun b o => match o.kind, o.access with
    | .base, .write bs => if o.pa ≤ pa then (bs[pa - o.pa]?).getD b else b
    | _, _ => b) (s.byteAt pa)

/-- Sectors of some that the base die may not read yet: their home's agent has no token with data (R371, R372). -/
def State.baseLacking (s : State) (secs : List Nat) : List Nat :=
  secs.filter (fun x => !s.isPeer x && !s.mayAccess (s.homeAgent x) x false)

/-- A sector requested for the base die at its home, a host's line by a recall (R381, R393). -/
def State.requestBase (s : State) (sec : Nat) : State :=
  if s.homeAgent sec = 14 then (s.onHolder sec 14 (fun h => { h with preq := some true })).addPending sec 14 true
  else s.request (s.homeAgent sec) sec false 0

/-- A sector read by the base die: its request there is over. -/
def State.baseReadDone (s : State) (sec : Nat) : State :=
  if s.homeAgent sec = 14 ∧ ((s.sector sec).holder 14).preq.isSome then
    let x := s.sector sec
    if x.hostOps.isEmpty then
      ((s.setSector { x with pending := x.pending.filter (fun p => p.1 != 14) }).onHolder sec 14 (fun h => { h with preq := none })).deactivate sec 14
    else s
  else s.readHeld (s.homeAgent sec) sec

/-- An event in which the base die reads some sectors: it happens once their homes hold tokens, and waits for them till then (R372, log 10). -/
def State.whenRead (s : State) (i : Instr) (secs : List Nat) (k : State → State) : State :=
  let lack := s.baseLacking secs
  if lack.isEmpty then k (secs.foldl State.baseReadDone s)
  else lack.foldl State.requestBase { s with deferred := s.deferred ++ [(i, secs)] }

/-- Bytes as the base die reads them. -/
def State.baseBytes (s : State) (pa n : Nat) : List Byte :=
  if s.outer.isEmpty then s.bytesAt pa n else (List.range n).map (fun j => s.baseByte (pa + j))

/-- The little-endian number of n bytes as the base die reads it. -/
def State.baseNum (s : State) (pa n : Nat) : Nat := leNat (s.baseBytes pa n)

/-- The base die's writes of bytes at physical pieces, by sector. -/
def State.baseOps (s : State) : List (Nat × Nat) → List Byte → List OuterOp
  | [], _ => []
  | (pa, n) :: ps, bs =>
    (sectorsOf pa n).map (fun x =>
      { agent := s.homeAgent x, kind := .base, pa := max pa x,
        access := .write ((bs.drop (max pa x - pa)).take (min (pa + n) (x + 64) - max pa x)) }) ++ s.baseOps ps (bs.drop n)

/-- A write by the base die. -/
def State.baseWrite (s : State) (pa : Nat) (bs : List Byte) : State := s.addOuter (s.baseOps [(pa, bs.length)] bs)

/-- Bytes of physical pieces in order, as the base die reads them. -/
def State.readPieces (s : State) : List (Nat × Nat) → List Byte
  | [] => []
  | (pa, n) :: ps => s.baseBytes pa n ++ s.readPieces ps

/-- Whether any piece meets poison. -/
def State.poisonedPieces (s : State) (ps : List (Nat × Nat)) : Bool := ps.any (fun p => s.poisoned p.1 p.2)

/-- Whether an address lies in the global window (R115). -/
def isGlobal (va : Nat) : Bool := decide (va < 0x01FFFF0000000000)

/-- Translation by the base die under a context: a walk, with no TLB of a die. No level of a furrow stands behind it, so no U bit is asked for,
but a word read as code is checked as the kernel's own fetch (R346, log 23). -/
def State.baseXlat (s : State) (ctx va : Nat) (k : AccessKind) : Option Nat :=
  match s.ctx? ctx with
  | none => none
  | some c =>
    match s.walk c va with
    | .leaf e => (match s.checkLeaf c e va k (if k.fetch then 0 else 1) with
      | .ok pa => some pa
      | .fail .. | .wait _ => none)
    | .stop .. => none

/-- The physical pieces of virtual pieces, where all of them translate. -/
def State.baseSpan (s : State) (ctx : Nat) (k : AccessKind) : List (Nat × Nat) → Option (List (Nat × Nat))
  | [] => some []
  | (va, n) :: rest =>
    match s.baseXlat ctx va k, s.baseSpan ctx k rest with
    | some pa, some ps => some ((pa, n) :: ps)
    | _, _ => none

/-- A read of the base die at a virtual address of a context; none at a fault or poison (R397). -/
def State.baseRead (s : State) (ctx va n : Nat) (k : AccessKind) : Option (List Byte) :=
  if !(isGlobal va && isGlobal (va + n - 1)) then none
  else match s.baseSpan ctx k (pagePieces va n) with
    | some ps => if s.poisonedPieces ps then none else some (s.readPieces ps)
    | none => none

/-- The sectors that the base die reads for n bytes at a virtual address of a context: the entries of its walks, and the bytes where they translate. -/
def State.baseFoot (s : State) (ctx : Nat) (r : Nat × Nat × AccessKind) : List Nat :=
  if !(isGlobal r.1 && isGlobal (r.1 + r.2.1 - 1)) then []
  else match s.ctx? ctx with
  | none => []
  | some c => ((pagePieces r.1 r.2.1).map (fun p => s.walkReads c p.1 ++ (match s.baseXlat ctx p.1 r.2.2 with
    | some pa => sectorsOf pa p.2
    | none => []))).flatten.dedup

/-- Those of several reads. -/
def State.baseFeet (s : State) (ctx : Nat) (rs : List (Nat × Nat × AccessKind)) : List Nat := ((rs.map (s.baseFoot ctx)).flatten).dedup

/-- Physical pieces written in order by the base die, a vector raised once the last of them is. -/
def State.baseWriteIrq (s : State) (ps : List (Nat × Nat)) (bs : List Byte) (vf vec : Nat) : State :=
  let ops := s.baseOps ps bs
  s.addOuter (ops.dropLast ++ (ops.getLast?).toList.map (fun o => { o with irq := some (vf, vec) }))

/-- The virtual function of a user context (R417). -/
def vfOfCtx (ctx : Nat) : Nat := ctx - 1

/-! ### Completion records (R398, R425) -/

/-- The 32 bytes of a completion record; DSEQ comes last. -/
def recordBytes (sc : Scheme) (code detail : Nat) (loc : BitVec 64) : List Byte :=
  leBytes 8 sc.tag.toNat ++ leBytes 4 code ++ leBytes 4 detail ++ leBytes 8 loc.toNat ++ leBytes 8 sc.dseq

/-- The sectors that the translation of a record's address reads. -/
def State.recordFoot (s : State) (ctx : Nat) (done : BitVec 64) : List Nat :=
  match s.ctx? ctx with
  | none => []
  | some c => if done = 0 ∨ done.toNat % 32 ≠ 0 ∨ !isGlobal done.toNat then [] else s.walkReads c done.toNat

/-- Stands for a DONE that could not be read: it breaks the alignment that every DONE has (R396, R398). -/
def unknownDone : BitVec 64 := 1

/-- The physical address of a record kept back: its DONE address lies with a detached host (R425). -/
def State.heldAt (s : State) (ctx : Nat) (done : BitVec 64) : Option Nat :=
  if done = 0 ∨ done.toNat % 32 ≠ 0 ∨ !isGlobal done.toNat then none
  else match s.ctx? ctx with
  | none => none
  | some c =>
    match s.walk c done.toNat with
    | .stop .. => none
    | .leaf e =>
      let pa := e.frame done.toNat
      if e.permits { write := true } 1 && bitsOf pa 50 2 == 2 && (s.hostLd (bitsOf pa 46 4)).any (fun (l : Ld) => !l.attached) then some pa else none

/-- The record written, its vector raised; kept back while the DONE address lies with a detached host (R425). -/
def State.recordNow (s : State) (ctx queue : Nat) (done : BitVec 64) (bs : List Byte) : State :=
  let vf := vfOfCtx ctx
  if done = 0 then s.raiseIrq vf queue
  else if done.toNat % 32 ≠ 0 ∨ !isGlobal done.toNat then (s.setEvent vf 6).raiseIrq vf queue
  else if (s.heldAt ctx done).isSome then
    s.onVf vf (fun v => { v with retained := v.retained ++ [{ queue := queue, done := done, bytes := bs }] })
  else match s.baseSpan ctx { write := true } (pagePieces done.toNat 32) with
  | some ps =>
    if s.poisonedPieces ps then (s.setEvent vf 6).raiseIrq vf queue
    else s.baseWriteIrq ps bs vf queue
  | none => (s.setEvent vf 6).raiseIrq vf queue

/-- Records that a VF retains at most (R425). -/
def retainRoom : Nat := 4096

/-- A record written, once the base die may read the page-table entries of its address (R372) and, where it is kept back, its VF has room for it (R425);
a context's records go in their order. -/
def State.writeRecord (s : State) (ctx queue : Nat) (done : BitVec 64) (bs : List Byte) : State :=
  let secs := s.recordFoot ctx done
  let lack := s.baseLacking secs
  let full := (s.heldAt ctx done).isSome && decide (retainRoom ≤ (s.vf (vfOfCtx ctx)).retained.length)
  if s.records.any (fun r => r.1 == ctx) || !lack.isEmpty || full then
    lack.foldl State.requestBase { s with records := s.records ++ [(ctx, queue, done, bs)] }
  else (secs.foldl State.baseReadDone s).recordNow ctx queue done bs

/-- The records that waited, as far as tokens and room now allow. -/
def State.settleRecords (s : State) : State :=
  if s.records.isEmpty then s
  else s.records.foldl (fun s r => s.writeRecord r.1 r.2.1 r.2.2.1 r.2.2.2) { s with records := [] }

/-- What waits for tokens at a home goes on: accesses from outside, then records. -/
def State.settleBase (s : State) : State := s.settleOuter.settleRecords

/-! ### Schemes and reaches -/

/-- Every basin ended and every counter-triggered reach over (R63, R64, R398). -/
def Scheme.shut (sc : Scheme) : Scheme :=
  { sc with basins := sc.basins.map (fun b => { b with ended := true }), reaches := sc.reaches.map (fun r => { r with ended := true }) }

/-- A scheme ends: its record is written once (R398). -/
def State.endScheme (s : State) (id code detail : Nat) (loc : BitVec 64) : State :=
  match s.scheme? id with
  | none => s
  | some sc =>
    if sc.ended.isSome then s
    else
      let s1 := s.onScheme id (fun sc => { sc.shut with ended := some (code, detail, loc) })
      s1.writeRecord sc.ctx sc.queue sc.done (recordBytes sc code detail loc)

/-- A furrow stopped for good (R52, R335): every live lane has exited, its frames and permit are gone, and only the accesses that have issued go
on; it stays until they have completed and its posted writes have landed, and holds its block until the writes to its registers have. -/
def Furrow.stop (f : Furrow) : Furrow :=
  { f with lanes := tableOf (fun i => let l := laneAt f.lanes i
                                     if l.status = .absent then l else { l with status := .exited }),
           groups := f.groups.filter Group.accessing, ending := true, permit := false, frames := Vector.replicate 3 none, step := none,
           faultWaits := [], needPermit := none, haltPend := false, spec := none, openSlot := none, stepping := false,
           ext := if f.groups.any Group.accessing then f.ext else .none, level := 0 }

/-- Whether a furrow has retired: no live lane and nothing outstanding (R52). -/
def Furrow.retired (f : Furrow) : Bool := f.groups.isEmpty && f.posted.isEmpty

/-- Retired furrows leave their slots (R52). -/
def State.sweep (s : State) : State := { s with furrows := s.furrows.filter (fun (f : Furrow) => !f.retired) }

/-- A command cancelled (R272, R362): a suspended one ends at once with ABORTED, but a rank that has committed keeps its end (R301); any other stops at
its next stop point. -/
def Command.cancel (c : Command) : Command :=
  if c.phase = .suspended then
    { c with cancelled := true, phase := .draining, ended := if c.engine = 3 ∧ c.ended.isSome then c.ended else some (2, c.units),
             entry := none, atWeir := none }
  else { c with cancelled := true }

/-- A field ends as under `fend` (R335): its furrows stop, each of them being at an instruction boundary when this is called (log 22). A
field that is saved or being saved does not resume, and its commands end (R408). -/
def State.endField (s : State) (id : Nat) : State :=
  match s.field? id with
  | none => s
  | some fl =>
    if fl.status = .retired ∨ fl.status = .ending then s
    else
      let s1 := s.onField id (fun f => { f with status := .ending, saved := [] })
      let s2 := { s1 with furrows := s1.furrows.map (fun (f : Furrow) => if f.field == id then f.stop else f) }
      let s3 := if fl.status = .collecting ∨ fl.status = .saved then
          { s2 with commands := s2.commands.map (fun (c : Command) => if c.field == id then c.cancel else c) } else s2
      s3.sweep

/-- Every field of a scheme ends without DONE: TIMEOUT or CANCELLED (R398). -/
def State.endSchemeNow (s : State) (id code : Nat) : State :=
  let fs := s.fields.filter (fun f => f.scheme == id && !f.service)
  (fs.foldl (fun s f => s.endField f.id) s).endScheme id code 0 0

/-- A context ends (R321, R336): every field on every core, every scheme with the given code; a context fault sets CFAULT (R421). A service
context does not end: its fields end only at a firmware switch or a reset (R18, log 99). -/
def State.endContext (s : State) (ctx : Nat) (e : CtxEnd) : State :=
  match s.ctx? ctx with
  | none => s
  | some c =>
    if c.ended.isSome || c.service then s
    else
      let s1 := s.onCtx ctx (fun c => { c with ended := some e })
      let s2 := (s1.fields.filter (fun f => f.ctx == ctx)).foldl (fun s f => s.endField f.id) s1
      let s3 := (s2.schemes.filter (fun x => x.ctx == ctx)).foldl (fun s x => s.endScheme x.id e.code e.detail e.loc) s2
      if e.code = 3 then s3.setEvent (vfOfCtx ctx) 1 else s3

/-- A context fault (R321): the furrow in a slot issues nothing more, and its context ends with the cause, FROM 3, and where it happened. A service
field does not end by it (R18, log 99): its furrow only stops. -/
def State.contextFault (s : State) (core slot ctx cause : Nat) (loc : BitVec 64) : State :=
  if (s.ctx? ctx).any Ctx.service then s.onFurrow core slot (fun f => { f with dead := true })
  else (s.onFurrow core slot Furrow.stop).endContext ctx { code := 3, detail := 3 * 256 + cause, loc := loc }

end Sys2Proof.Machine
end

