-- ==== Sys2Proof/Machine/Groups.lean ====
section
/-! DEFINITION. PC groups: clause instances and flags (R167 to R169), pool entries (R31, R32), splits, merges and reconvergence
(R30, R31, R192), and lanes that exit (R193). -/
namespace Sys2Proof.Machine

/-! ### Clause instances (R168, R169) -/

/-- Hidden counts of the named flags changed. -/
def Furrow.bumpFlags (f : Furrow) (fs : List (Fin 12)) (k : Nat → Nat) : Furrow :=
  { f with counts := fs.foldl (fun (v : Vector Nat 12) (i : Fin 12) => v.set i (k v[i])) f.counts }

/-- A number no clause instance has. -/
def Furrow.freshClause (f : Furrow) : Nat := f.clauses.foldl (fun n c => max n (c.1 + 1)) 0

/-- Flags of an instance. -/
def Furrow.clauseFlags (f : Furrow) (n : Nat) : List (Fin 12) := ((f.clauses.find? (fun c => c.1 == n)).map (fun c => c.2.2)).getD []

/-- Instances that have closed and whose instructions have all completed leave, each with its counts; a flag whose count falls to 0
becomes 1 (R169). -/
def Furrow.settleClauses (f : Furrow) : Furrow :=
  let done := f.clauses.filter (fun c => c.2.1 && !f.posted.any (fun p => p.clauseInst == some c.1))
  let f1 := { f with clauses := f.clauses.filter (fun c => !(c.2.1 && !f.posted.any (fun p => p.clauseInst == some c.1))) }
  done.foldl (fun f c =>
    let f1 := f.bumpFlags c.2.2 (fun n => n - 1)
    c.2.2.foldl (fun f i => if f.counts[i] = 0 then { f with flags := f.flags ||| (1#12 <<< i.val) } else f) f1) f1

/-- An instance closed (R168). -/
def Furrow.closeInst (f : Furrow) (inst : Option Nat) : Furrow :=
  match inst with
  | none => f
  | some n => ({ f with clauses := f.clauses.map (fun c => if c.1 == n then (c.1, true, c.2.2) else c) } : Furrow).settleClauses

/-- The instance of a group's clause. -/
def Group.inst (g : Group) : Option Nat :=
  match g.clause with
  | some c => c.inst
  | none => none

/-- A clause reduced to its rest: NR and the span, with no instance (R168). -/
def Clause.rest (c : Clause) : Clause := { c with inst := none, seta := none, setb := none }

/-- A copy of an instance for a group that a split made (R169): the counts rise by 1. -/
def Furrow.copyInst (f : Furrow) (c : Option Clause) : Furrow × Option Clause :=
  match c with
  | none => (f, none)
  | some c =>
    match c.inst with
    | none => (f, some c)
    | some n =>
      let k := f.freshClause
      let fs := f.clauseFlags n
      ({ f.bumpFlags fs (fun n => n + 1) with clauses := f.clauses ++ [(k, false, fs)] }, some { c with inst := some k })

/-- Instance b joined into instance a at a merge (R169): flags both name count once less. -/
def Furrow.joinInst (f : Furrow) (a b : Nat) : Furrow :=
  if a = b then f
  else
    let fa := f.clauseFlags a
    let fb := f.clauseFlags b
    let f1 := f.bumpFlags (fb.filter (fun i => fa.contains i)) (fun n => n - 1)
    { f1 with
      clauses := (f1.clauses.filter (fun c => c.1 != b)).map (fun c =>
        if c.1 == a then (a, c.2.1, fa ++ fb.filter (fun i => !fa.contains i)) else c),
      posted := f1.posted.map (fun (p : Posted) => if p.clauseInst == some b then { p with clauseInst := some a } else p) }

/-! ### Splits (R31) -/

/-- A lane put into the class of its PC; classes stand in ascending PC order. -/
def addToClass (pc : BitVec 24) (i : Nat) : List (BitVec 24 × Mask) → List (BitVec 24 × Mask)
  | [] => [(pc, 1 <<< i)]
  | (p, m) :: rest =>
    if pc.toNat < p.toNat then (pc, 1 <<< i) :: (p, m) :: rest
    else if pc = p then (p, m ||| (1 <<< i)) :: rest
    else (p, m) :: addToClass pc i rest

/-- The lanes of a mask by PC, in ascending PC order. -/
def classesOf (m : Mask) (pc : Nat → BitVec 24) : List (BitVec 24 × Mask) := (lanesOf m).foldl (fun l i => addToClass (pc i) i l) []

/-- The class that keeps the entry: most lanes, then the lower PC. -/
def keptClass (cs : List (BitVec 24 × Mask)) : BitVec 24 × Mask :=
  cs.foldl (fun b c => if laneCount b.2 < laneCount c.2 then c else b) (cs.headD (0, 0))

/-- One further group of a split, with its own clause instance; active when an entry is free. -/
def Furrow.addSplit (g : Group) (fk : Furrow × Nat) (c : BitVec 24 × Mask) : Furrow × Nat :=
  let r := fk.1.copyInst g.clause
  let act := g.active && decide (0 < fk.2)
  ({ r.1 with groups := r.1.groups ++ [{ g with lanes := c.2, pc := c.1, age := 0, active := act, issuedAt := 0, clause := r.2, midChain := false, rcv := none,
                                                pend := none, backoff := none, yielded := false, wait := none }] },
   if act then fk.2 - 1 else fk.2)

/-- The lanes of the issuing group g sent to their PCs (R31): `free` entries are free in the quarter. -/
def Furrow.regroup (f : Furrow) (g : Group) (free : Nat) (pc : Nat → BitVec 24) : Furrow :=
  let m := g.lanes &&& f.liveLanes
  let others := f.groups.filter (fun h => !(h.level == g.level && h.lanes == g.lanes))
  match classesOf m pc with
  | [] => ({ f with groups := others } : Furrow).closeInst g.inst
  | cs =>
    let k := keptClass cs
    let f1 := { f with groups := others ++ [{ g with lanes := k.2, pc := k.1, midChain := false }] }
    ((cs.filter (fun c => c.1 != k.1)).foldl (Furrow.addSplit g) (f1, free)).1

/-! ### Collections (R404) -/

/-- Whether the collector holds a furrow's field: nothing of it issues any more (R404). -/
def State.heldBack (s : State) (f : Furrow) : Bool := (s.field? f.field).any (fun fl => fl.status == .collecting)

/-! ### Merges and reconvergence (R30, R192) -/

/-- The values that the lanes of a group already satisfied at its `waita` (R256). -/
def keptOf (w : Option Wait) : List (Nat × Nat) :=
  match w with
  | some (.address _ _ kept) => kept
  | some (.retain _ kept) => kept
  | _ => []

/-- What a merged group keeps of its parts' waits: a handle's status already read (R270) and values already satisfied (R256); it tries its
instruction again. -/
def mergedWait (a b : Option Wait) : Option Wait :=
  match a, b with
  | some (.handle n (some st)), _ => some (.handle n (some st))
  | _, some (.handle n (some st)) => some (.handle n (some st))
  | some (.address ..), _ => some (.address [] true (keptOf a ++ keptOf b))
  | _, some (.address ..) => some (.address [] true (keptOf a ++ keptOf b))
  | some (.retain ds _), _ => some (.retain ds (keptOf a ++ keptOf b))
  | _, some (.retain ds _) => some (.retain ds (keptOf a ++ keptOf b))
  | _, _ => none

/-- The clause of a merged group (R169): an instance of either part, else a rest. Where both stand in instances they are joined, and the group goes
on under the first one's span and NR (DESIGN CHOICE, log 98: R169 speaks only of instances of one header). -/
def mergedClause (g h : Group) : Option Clause := if g.inst.isSome || h.inst.isNone then g.clause.or h.clause else h.clause

/-- Group h merged into g: largest age, smallest watchdog, an entry if either has one, joined clauses. It issued last when the later of the two did
(DESIGN CHOICE, log 29: R35 step 2 does not say); it stands inside a chain when both do. -/
def mergeGroups (f : Furrow) (g h : Group) : Furrow × Group :=
  let f1 := match g.inst, h.inst with
    | some a, some b => f.joinInst a b
    | _, _ => f
  (f1, { g with lanes := g.lanes ||| h.lanes, age := max g.age h.age, wdog := min g.wdog h.wdog, active := g.active || h.active,
                issuedAt := max g.issuedAt h.issuedAt, yielded := g.yielded && h.yielded, wait := mergedWait g.wait h.wait, rcv := none,
                clause := mergedClause g h, header := g.header.or h.header, midChain := g.midChain && h.midChain })

/-- Whether a group takes part in merging by PC. -/
def Group.mergeable (g : Group) : Bool := g.rcv.isNone && g.pend.isNone && !g.accessing && g.backoff.all (fun b => b.trap.isNone)

/-- One group added to a list of merged groups. -/
def mergeOne (fl : Furrow × List Group) (h : Group) : Furrow × List Group :=
  match fl.2.find? (fun g => g.level == h.level && g.pc == h.pc && g.mergeable && h.mergeable) with
  | none => (fl.1, fl.2 ++ [h])
  | some g =>
    let r := mergeGroups fl.1 g h
    (r.1, fl.2.map (fun x => if x.level == g.level && x.lanes == g.lanes then r.2 else x))

/-- Groups of equal level and PC merged (R30). -/
def Furrow.merge (f : Furrow) : Furrow :=
  let r := f.groups.foldl mergeOne (f, [])
  { r.1 with groups := r.2 }

/-- The lanes held at a `rcv` at a PC. -/
def Furrow.heldAt (f : Furrow) (pc : BitVec 24) : Mask :=
  (f.groups.filter (fun g => g.level == f.level && g.rcv.isSome && g.pc == pc)).foldl (fun m g => m ||| g.lanes) 0

/-- Whether a held group's condition holds: every live lane of its mask is held at this PC (R192), and what the held lanes stored before they
arrived has been performed, the release being a full fence among them (R143). -/
def Furrow.rcvMet (f : Furrow) (g : Group) : Bool :=
  match g.rcv with
  | some m => g.level == f.level && (m &&& f.liveLanes &&& ~~~(f.heldAt g.pc)) == 0
      && !f.posted.any (fun p => p.lanes &&& f.heldAt g.pc != 0)
  | none => false

/-- Every hold whose condition holds is released: the groups of one PC become one group at the word after the `rcv`, which retires
(R192, R46). -/
def Furrow.release (f : Furrow) : Furrow :=
  let go := f.groups.filter f.rcvMet
  let stay := f.groups.filter (fun g => !f.rcvMet g)
  let r := go.foldl (fun (fl : Furrow × List Group) h =>
    match fl.2.find? (fun g => g.pc == h.pc) with
    | none => (fl.1, fl.2 ++ [h])
    | some g => let r := mergeGroups fl.1 g h; (r.1, fl.2.map (fun x => if x.pc == g.pc then r.2 else x))) (f, [])
  { r.1 with groups := stay ++ r.2.map (fun (g : Group) => { g with pc := g.pc + 4, rcv := none, wait := none, wdog := 0, backoff := none }) }

/-! ### Lanes that exit (R193) -/

/-- Lanes moved to the exited state; groups that lose their last lane close their instances and go. -/
def Furrow.exitLanes (f : Furrow) (m : Mask) : Furrow :=
  let gone := f.groups.filter (fun g => g.lanes &&& ~~~m == 0)
  let f1 := { f.onLanes m (fun _ l => if l.status = .absent then l else { l with status := .exited }) with
    groups := (f.groups.filter (fun g => g.lanes &&& ~~~m != 0)).map (fun (g : Group) => { g with lanes := g.lanes &&& ~~~m }) }
  gone.foldl (fun f g => f.closeInst g.inst) f1

/-! ### Pool entries (R31, R32) -/

/-- Whether parked group (slot, g) comes before another for a freed entry: larger age, lower slot, lower PC. -/
def parkedBefore (a b : Nat × Group) : Bool :=
  decide (b.2.age < a.2.age) || (a.2.age == b.2.age && (decide (a.1 < b.1) || (a.1 == b.1 && decide (a.2.pc.toNat < b.2.pc.toNat))))

/-- An entry given to a group of the furrow. -/
def Furrow.activate (f : Furrow) (g : Group) : Furrow :=
  { f with groups := f.groups.map (fun (h : Group) => if h.level == g.level && h.lanes == g.lanes then { h with active := true } else h) }

/-- A furrow whose groups are all parked gives its own entry to the parked group with the largest age, then the lower PC (R32). -/
def Furrow.ownEntry (f : Furrow) : Furrow :=
  if f.groups.any Group.active then f
  else match bestBy (fun a b => parkedBefore (0, a) (0, b)) f.groups with
    | some g => f.activate g
    | none => f

/-- Free entries of a quarter given to its parked groups, oldest first. -/
def State.handoutFree (core quarter : Nat) : Nat → State → State
  | 0, s => s
  | n + 1, s =>
    let parked := ((s.quarterFurrows core quarter).map (fun f => (f.groups.filter (fun g => !g.active)).map (fun g => (f.slot, g)))).flatten
    match bestBy parkedBefore parked with
    | some (slot, g) => State.handoutFree core quarter n (s.onFurrow core slot (fun f => f.activate g))
    | none => s

/-- Entries given out in a quarter: each furrow's own, then the free ones (R31, R32). -/
def State.handout (s : State) (core quarter : Nat) : State :=
  let s1 := { s with furrows := s.furrows.map (fun (f : Furrow) => if f.core == core && quarterOf f.slot == quarter then f.ownEntry else f) }
  State.handoutFree core quarter (s1.poolFree core quarter) s1

end Sys2Proof.Machine
end

