-- ==== Sys2Proof/Machine/Reuse.lean ====
section
/-! DEFINITION. The reuse tables and their counters (R78 to R86), the extended block's rights, unreserved grants and spills (R69 to R73). None of it
changes a value (R87): it is seen in counters and in unreserved grants only. -/
namespace Sys2Proof.Machine

/-! ### Rights (R70, R71) -/

/-- Rights that a field's declaration gives one quarter. -/
def Field.rightsIn (fl : Field) (quarter : Nat) : Nat :=
  fl.kernel.extRegs / 4 + (if (quarter + 4 - fl.qoff % 4) % 4 < fl.kernel.extRegs % 4 then 1 else 0)

/-- Rights of a field that its furrows hold in a quarter. -/
def State.rightsHeld (s : State) (field core quarter : Nat) : Nat :=
  ((s.quarterFurrows core quarter).filter (fun f => f.field == field && f.ext == .right)).length

/-- Whether a right of a field is free in a quarter. -/
def State.rightFree (s : State) (field core quarter : Nat) : Bool :=
  match s.field? field with
  | some fl => decide (s.rightsHeld field core quarter < fl.rightsIn quarter)
  | none => false

/-- The order of an unreserved grant. -/
def Ext.order? : Ext → Option Nat
  | .unreserved n => Option.some n
  | _ => Option.none

/-- A freed right goes at once to the earliest unreserved grant of its field in the quarter (R71). -/
def State.passRight (s : State) (field core quarter : Nat) : State :=
  if !s.rightFree field core quarter then s
  else
    let gs := (s.quarterFurrows core quarter).filter (fun f => f.field == field && f.ext.order?.isSome)
    match bestBy (fun (a b : Furrow) => decide (a.ext.order?.getD 0 < b.ext.order?.getD 0)) gs with
    | some f => s.onFurrow core f.slot (fun f => { f with ext := .right })
    | none => s

/-- The block granted: 80 registers map to zero (R69). -/
def Furrow.grantExt (f : Furrow) (e : Ext) : Furrow :=
  { f with ext := e, spilled := false,
           v := Vector.ofFn (fun i : Fin 128 => if i.val < 48 then f.v[i] else 0),
           unnamed := f.unnamed.filter (fun n => decide (n < 48)) }

/-- The block dropped; its values are lost (R69). -/
def Furrow.dropExt (f : Furrow) : Furrow := f.grantExt .none

/-! ### The reuse table (R78 to R83) -/

/-- A source's value as a number (R78). -/
def Furrow.valueOf (f : Furrow) : RegName → Nat
  | .v n => (f.readV n).toNat
  | .w n => (f.readW n).toNat
  | .p n => (f.readP n).toNat
  | .s n => f.s[Fin.ofNat 8 n].toNat
  | .h n => f.h[Fin.ofNat 16 n].toNat

/-- An opcode with its modifiers and its immediate: the words without chain bits, register fields and guard (R78). -/
def opcodeKey (i : Instr) : List Nat :=
  match encode i with
  | la :: lx :: _ => [majorOf la, lxOp lx, lxMod lx, lxBk lx, if lxBk lx = 2 then (laImm la).toNat else 0]
  | _ => []

/-- The dynamic rounding mode where it is in force (R78): an instruction with a static mode has that mode in its opcode part. -/
def Furrow.roundingKey (f : Furrow) (i : Instr) : Nat :=
  match encode i with
  | la :: lx :: _ => if 0x10 ≤ majorOf la ∧ majorOf la ≤ 0x15 ∧ bitsOf (lxMod lx) 1 3 ≠ 0 then 0 else bitsOf f.fpenv.toNat 8 2
  | _ => 0

/-- The registers whose old values an instruction's key names: its destinations when its mask is not full (R78). -/
def oldDests (i : Instr) (m : Mask) : List Nat := if m = 0xFFFFFFFF then [] else vNames i.readsWrites.2

/-- The key of an instruction (R78): opcode part, FTZ and rounding mode in force, active mask, source values, and the old destinations
when the mask is not full. -/
def Furrow.reuseKey (f : Furrow) (i : Instr) (m : Mask) : List Nat :=
  opcodeKey i ++ [bitsOf f.fpenv.toNat 7 1, f.roundingKey i, m.toNat] ++ i.readsWrites.1.map f.valueOf
    ++ (oldDests i m).map (fun n => (f.readV n).toNat)

/-- The values that such a key names. -/
def Furrow.keyNames (f : Furrow) (i : Instr) (m : Mask) : List VReg := (vNames i.readsWrites.1 ++ oldDests i m).map f.readV

/-- Whether reuse is enabled for an instruction (R84, R85). -/
def State.reuseOn (s : State) (f : Furrow) (g : Group) (load : Bool) : Bool :=
  let ctl := ((s.ctx? (s.ctxOf f)).map Ctx.reuseCtl).getD 0
  ctl.getLsbD 0 && (!load || ctl.getLsbD 1) && !((s.field? f.field).map (fun fl => fl.kernel.noReuse)).getD true
    && (match g.clause with
      | some c => !c.nr
      | none => true)

/-- Whether an entry that is not Valid still has its load outstanding (R83). -/
def State.ownerWaits (s : State) (core : Nat) (e : ReuseEntry) : Bool :=
  match e.phase with
  | .valid => true
  | .filling slot lanes | .doomed slot lanes =>
    (s.furrow? core slot).any (fun f => f.level == e.level && (f.group? lanes).any Group.accessing)

/-- A new entry in its set of 8, whose entries in use alone count (R78, R305); which entry of a full set goes is not architectural (log 7). -/
def addEntry (free : Nat) (t : List ReuseEntry) (e : ReuseEntry) : List ReuseEntry :=
  let row := t.filter (fun x => x.set == e.set)
  let rest := t.filter (fun x => x.set != e.set)
  e :: (if row.length < 8 then row else dropNth row (Config.reuseVictim free % 8)) ++ rest

/-- What an instruction finds in the table when it issues (R80): its key, the Valid entry it hits, and whether its key has no entry. -/
structure Lookup where
  key : List Nat
  hit : Option ReuseEntry
  free : Bool
  deriving DecidableEq, Repr

/-- The look-up of an eligible instruction; none when reuse is off for it or a value its key needs has no name (R78, R84). -/
def State.lookup (s : State) (i : Instr) (f : Furrow) (g : Group) (m : Mask) (load : Bool) : Option Lookup :=
  if s.reuseOn f g load && !(vNames i.readsWrites.1 ++ oldDests i m).any (fun n => f.unnamed.contains n) then
    let key := f.reuseKey i m
    let es := ((s.core f.core).reuse[Fin.ofNat 4 (quarterOf f.slot)]).filter (fun e => e.ctx == s.ctxOf f && e.level == f.level && e.key == key
      && liveEntry (fun c => s.liveNamed f.core (quarterOf f.slot) c) e)
    some { key := key, hit := es.find? (fun e => e.phase == .valid), free := es.isEmpty }
  else none

/-- The entry of an instruction in a state (R78). -/
def State.entryFor (s : State) (i : Instr) (f0 : Furrow) (m : Mask) (key : List Nat) (load : Option (Nat × List Nat)) (results : List VReg) (fl : Nat)
    (phase : ReusePhase) : ReuseEntry :=
  { set := Config.reuseSet key % 32, ctx := s.ctxOf f0, level := f0.level, key := key, names := f0.keyNames i m, results := results, flags := fl,
    load := load.isSome, region := (load.map Prod.fst).getD 0, sectors := (load.map Prod.snd).getD [], phase := phase }

/-- The entry of a load that traps before it completes is discarded (R80, R83). -/
def State.dropFilling (s : State) (core slot : Nat) (lanes : Mask) : State :=
  s.onReuse core (quarterOf slot) (fun t => t.filter (fun e => e.phase != .filling slot lanes && e.phase != .doomed slot lanes))

/-- A load that issues, misses and waits: its entry is Filling where its key has none (R80, R83). -/
def State.startFilling (s : State) (i : Instr) (f : Furrow) (g : Group) (m : Mask) (load : Option (Nat × List Nat)) : State :=
  match load, s.lookup i f g m true with
  | some _, some k =>
    if k.free then s.onReuse f.core (quarterOf f.slot) (fun t => addEntry s.freeCtr t (s.entryFor i f m k.key load [] 0 (.filling f.slot g.lanes))) else s
  | _, _ => s

/-! ### Spills and reloads (R73) -/

/-- The unreserved block granted most recently that is not yet spilled. -/
def State.lastUnreserved (s : State) (core quarter : Nat) : Option Furrow :=
  bestBy (fun (a b : Furrow) => decide (b.ext.order?.getD 0 < a.ext.order?.getD 0))
    ((s.quarterFurrows core quarter).filter (fun f => f.ext.order?.isSome && !f.spilled))

/-- Bytes of registers n to n + k - 1 of a furrow, as an image holds them (R411). -/
def Furrow.regBytes (f : Furrow) (n k : Nat) : List Byte :=
  ((List.range k).map (fun j => leBytes 128 (f.readV (n + j)).toNat)).flatten

/-- Physical base of a furrow's image in its context's save area (R409 to R411), when the area and the field's slot exist. -/
def State.imageBase (s : State) (f : Furrow) : Option Nat :=
  match s.field? f.field with
  | none => none
  | some fl =>
    match s.ctx? fl.ctx, fl.image with
    | some c, some off => some (c.save + off + 0x12000 + 0x6000 * f.ix)
    | _, _ => none

/-- A furrow spilled: its extended values go to the save area, and it issues nothing until they are reloaded (R73). -/
def State.spillOne (s : State) (f : Furrow) : State :=
  let s1 := (s.onFurrow f.core f.slot (fun f => { f with spilled := true, unnamed := f.unnamed.filter (fun n => decide (n < 48)) })).purgeReuse
    f.core (quarterOf f.slot)
  match s.imageBase f with
  | some a => s1.baseWrite (a + 0x1800) (f.regBytes 48 80)
  | none => s1

/-- The extended values of a spilled furrow back in its quarter (R73). -/
def State.reload (s : State) (f : Furrow) : State :=
  let f1 := s.rename f ((List.range 80).map (fun k => 48 + k))
  s.onFurrow f.core f.slot (fun f => { f with spilled := false, unnamed := f1.unnamed })

/-- Unreserved blocks spilled, the latest first, until a quarter has k free registers (R73). -/
def State.spill (core quarter k : Nat) : Nat → State → State
  | 0, s => s
  | n + 1, s =>
    match s.lastUnreserved core quarter with
    | none => s
    | some f => if s.physUsed core quarter + k ≤ 1024 then s else State.spill core quarter k n (s.spillOne f)

/-- k registers made free in a quarter for a vector write (R73): the blocks spilled can only be unreserved ones. -/
def State.makeRoomFor (s : State) (core quarter k : Nat) : State :=
  if (s.lastUnreserved core quarter).isSome then State.spill core quarter k 16 s else s

/-! ### What a vector write does -/

/-- The furrow after a hit: its destinations map onto the entry's results, and its flags are raised (R80). -/
def Furrow.onHit (f f0 : Furrow) (dests : List Nat) (e : ReuseEntry) : Furrow :=
  { f with
    v := Vector.ofFn (fun n : Fin 128 => match dests.findIdx? (fun d => d == n.val) with
      | some j => e.results.getD j f.v[n]
      | none => f.v[n]),
    fpenv := f0.fpenv ||| BitVec.ofNat 32 (e.flags % 64), unnamed := f0.unnamed.filter (fun n => !dests.contains n) }

/-- A furrow's spilled values written again to their save area, where an instruction that issued before the spill has written one of them (R73). -/
def State.respill (s : State) (f : Furrow) (dests : List Nat) : State :=
  if f.spilled && dests.any (fun n => decide (48 ≤ n)) then
    match s.imageBase f with
    | some a => s.baseWrite (a + 0x1800) (f.regBytes 48 80)
    | none => s
  else s

/-- The furrow put back after an instruction that wrote `v` registers in the lanes of m: the spills that free registers for it, names, sharing, the
reuse look-up and its counters (R73, R76, R78 to R83, R86). `load` is a plain load's region and sectors, when R82 lets it make an entry; `begun` says
that it issued before and has its registers and its entry, if any. Answers the flags raised: a hit gives its entry's results and flags (R80). -/
def State.afterVector (s : State) (i : Instr) (f0 f : Furrow) (g : Group) (m : Mask) (fl : Nat) (load : Option (Nat × List Nat)) (begun : Bool) :
    State × Nat :=
  let ctx := s.ctxOf f0
  let q := quarterOf f.slot
  let dests := vNames i.readsWrites.2
  let look := if begun || !(i.reuseEligible || load.isSome) then none else s.lookup i f0 g m load.isSome
  let kept := { f with spec := f.spec.map (fun (sf : SpecFence) => { sf with kept := dests.foldl setInsert sf.kept }) }
  match look.bind Lookup.hit with
  | some e =>
    (((s.setFurrow (kept.onHit f0 dests e)).purgeReuse f.core q).onCore f.core (fun c => c.onCounters ctx (fun k =>
      { k with hit := k.hit + 1, ldhit := k.ldhit + (if load.isSome then 1 else 0) })), e.flags)
  | none =>
    let s0 := if begun then s else s.makeRoomFor f.core q dests.length
    let own := (s0.furrow? f.core f.slot).getD f0
    let nm := nameWrites (s0.liveNamed f.core q ctx) (s0.liveAll f.core q) f dests own.unnamed 0 0
    let f1 := { kept with unnamed := nm.1, spilled := own.spilled }
    let s1 := (s0.setFurrow f1).respill f1 dests
    let live := liveEntry (fun c => s1.liveNamed f.core q c)
    let named := !dests.any (fun n => f1.unnamed.contains n)
    let results := dests.map f.readV
    let s2 := s1.onReuse f.core q (fun t =>
      let t1 := if begun && named && load.isSome then
          mapIf t (fun e => e.phase == .filling f.slot g.lanes) (fun e => { e with results := results, flags := fl, phase := .valid }) else t
      let t2 := t1.filter (fun e =>
        e.phase != .filling f.slot g.lanes && e.phase != .doomed f.slot g.lanes && live e && s1.ownerWaits f.core e)
      match look with
      | some k =>
        let e := s.entryFor i f0 m k.key load results fl .valid
        if k.free && named && live e then addEntry s.freeCtr t2 e else t2
      | none => t2)
    (s2.onCore f.core (fun c => c.onCounters ctx (fun k =>
      { k with share := k.share + BitVec.ofNat 64 nm.2.1, coll := k.coll + BitVec.ofNat 64 nm.2.2 })), fl)

end Sys2Proof.Machine
end

