-- ==== Sys2Proof/Machine/Ops.lean ====
section
/-! DEFINITION. The operations every instruction shares: which group issues, its code, how an instruction completes, waits or traps, taking a
trap (R318 to R326) and returning from one (R328, R330, R331), and how a furrow leaves its slot (R52). -/
namespace Sys2Proof.Machine

/-- What executing an instruction answers. -/
abbrev Out := Host.Outcome State Fault Refusal

/-! ### The issuing group and its code -/

/-- The issuing group of the state with its furrow; none of it exists outside an issue. -/
def issued (s : State) (k : Issue → Furrow → Group → Out) : Out :=
  match s.issue with
  | none => .fault .noIssuingGroup
  | some q =>
    match s.furrow? q.core q.slot with
    | none => .fault .noIssuingGroup
    | some f =>
      match f.group? q.lanes with
      | none => .fault .noIssuingGroup
      | some g => k q f g

/-- Code base and code length in packets of a furrow's level (R313). -/
def State.codeOf (s : State) (f : Furrow) : Nat × Nat :=
  match s.field? f.field with
  | none => (0, 0)
  | some fl =>
    if f.level = (if fl.service then 1 else 0) then (fl.kernel.codeBase, fl.kernel.codePkts)
    else
      match s.ctx? fl.ctx with
      | none => (0, 0)
      | some c =>
        let tv := (if f.level = 3 then c.tvecH else c.tvecS).toNat
        (bitsOf tv 12 45 * 4096, (bitsOf tv 0 12 + 1) * 4096 / 12)

/-- The PC n words on. -/
def nextPc (pc : BitVec 24) (n : Nat) : BitVec 24 := pc + BitVec.ofNat 24 (4 * n)

/-- Packet of a PC (R155). -/
def packetOf (pc : BitVec 24) : Nat := pc.toNat / 12

/-- PC of a packet. -/
def pcOfPacket (p : Nat) : BitVec 24 := BitVec.ofNat 24 (12 * p)

/-- `LOC_ID` of a furrow. -/
def State.locOf (s : State) (f : Furrow) : BitVec 64 := locId s.pkg f.core f.slot

/-! ### Furrows that retire (R52) -/

/-- A furrow with no live lane, or of a field that has ended, is released: its permit, block and rights; it leaves its slot once nothing of it
is outstanding. -/
def State.reap (s : State) (core slot : Nat) : State :=
  match s.furrow? core slot with
  | none => s
  | some f =>
    if !f.groups.isEmpty && !f.ending then s
    else
      let s1 := (s.setFurrow f.stop).sweep
      ((s1.purgeReuse core (quarterOf slot)).passRight f.field core (quarterOf slot)).handout core (quarterOf slot)

/-! ### Causes and routing (R318, R320, R444) -/

/-- The class of a cause code (R318). -/
def causeClass (c : Nat) : Nat :=
  if c = 1 then 0
  else if c ≤ 6 then 1
  else if c = 7 then 2
  else if c ≤ 0x12 then 3
  else if c ≤ 0x1E then 4
  else if c ≤ 0x24 then 5
  else 6

/-- route(c, L) of R320, with the redirection of R444 while `TVEC_S`.BASE is 0. -/
def routeTrap (c : Ctx) (code level : Nat) : Option Nat :=
  let n :=
    if level = 3 then none
    else if level = 0 ∧ !c.hctl.getLsbD 0 then some 3
    else if code < 64 ∧ c.hdeleg.getLsbD code then some 3
    else if level = 0 then some 1
    else if level = 1 ∧ (code = 1 ∨ code = 2) then some 3
    else if level = 1 then some 2
    else some 3
  if bitsOf c.tvecS.toNat 12 45 = 0 then n.map (fun _ => 3) else n

/-- Causes whose trap stays pending when no permit is free; every other one withdraws its instruction (R323). -/
def keptPending (code : Nat) : Bool := code == 0x28 || code == 4 || code == 6 || code == 7

/-- A trap of some lanes at one PC, with no fault address. -/
def trapAt (lanes : Mask) (code info : Nat) (pc : BitVec 24) : TrapReq :=
  { lanes := lanes, code := code, info := info, arg := 0, pcs := Vector.replicate 32 pc, eaddr := Vector.replicate 32 0 }

/-! ### Trap permits (R322, R323) -/

/-- The running group that holds a lane. -/
def Furrow.groupOf? (f : Furrow) (i : Nat) : Option Group := f.groups.find? (fun g => g.level == f.level && inMask g.lanes i)

/-- Whether an entry of a core's reservation list still stands for a group that waits with eight failed retries behind it (R323), or for a furrow
that resumes (R340). -/
def State.reserved (s : State) (core : Nat) (r : Nat × Mask) : Bool :=
  (s.furrow? core r.1).any (fun f => f.needPermit.any (fun b => decide (8 ≤ b.failed))
    || f.groups.any (fun g => g.level == f.level && g.lanes &&& r.2 != 0 && g.backoff.any (fun b => decide (8 ≤ b.failed))))

/-- Place of a group in its core's reservation list; the list's length when it is not there. -/
def State.reservePlace (s : State) (f : Furrow) (lanes : Mask) : Nat :=
  ((s.core f.core).reserve.filter (s.reserved f.core)).findIdx (fun r => r.1 == f.slot && r.2 &&& lanes != 0)

/-- A group or furrow at the end of its core's reservation list, unless it is there already; entries of those that wait no longer leave. -/
def State.reserveFor (s : State) (core slot : Nat) (lanes : Mask) : State :=
  s.onCore core (fun c =>
    let l := c.reserve.filter (s.reserved core)
    { c with reserve := if l.any (fun r => r.1 == slot && r.2 &&& lanes != 0) then l else l ++ [(slot, lanes)] })

/-- Whether a permit is free for a group: those ahead of it in the reservation list come first. -/
def State.permitFor (s : State) (f : Furrow) (lanes : Mask) : Bool := decide (s.reservePlace f lanes < s.permitsFree f.core)

/-- A permit taken by a furrow. -/
def State.takePermit (s : State) (f : Furrow) (lanes : Mask) : State :=
  (s.onFurrow f.core f.slot (fun f => { f with permit := true })).onCore f.core (fun c =>
    { c with reserve := c.reserve.filter (fun r => !(r.1 == f.slot && r.2 &&& lanes != 0)) })

/-- The next back-off of a group: 128 cycles, doubled by each failed retry up to 8192 (R323). -/
def nextBackoff (now : Nat) (b : Option Backoff) (t : Option TrapReq) : Backoff :=
  match b with
  | some b => { trap := t, length := min 8192 (2 * b.length), failed := b.failed + 1, deadline := now + min 8192 (2 * b.length) }
  | none => { trap := t, length := 128, failed := 0, deadline := now + 128 }

/-- A back-off of the group that holds the lowest trapping lane; after its eighth failed retry it joins the reservation list. Where the lanes of a
HALT or STEP stand in several groups, only that group backs off, and the others issue meanwhile (DESIGN CHOICE, log 111: R323 speaks of one
group). -/
def State.backOff (s : State) (f : Furrow) (r : TrapReq) : State :=
  match f.groupOf? (lowestLane r.lanes) with
  | none => s
  | some g =>
    let b := nextBackoff s.cycles g.backoff (if keptPending r.code || r.late then some r else none)
    let s0 := if b.failed = 8 then s.reserveFor f.core f.slot g.lanes else s
    s0.onFurrow f.core f.slot (fun f => f.onGroup g.lanes (fun g => { g with backoff := some b, wait := none }))

/-! ### Trap entry (R324) -/

/-- The PC that a running group's lanes are recorded at: past an access that has issued (R324, R340), and past a load whose memory error is pending
(R326). -/
def Group.recordPc (g : Group) : BitVec 24 :=
  match g.wait with
  | some (.access _ _ _ _ i) => nextPc g.pc i.words
  | _ => g.pc

/-- The lane record of lane i at a trap of lanes T from a furrow's level (R324, R328). DSKIP ends when the lane's chain has issued to its end, so
a trap of a later instruction of the chain keeps it (DESIGN CHOICE, log 100: R332 says when the lane issues the chain). -/
def Furrow.laneRec (f : Furrow) (r : TrapReq) (i : Nat) : LaneRec :=
  let l := laneAt f.lanes i
  match f.groupOf? i with
  | some g =>
    let t := inMask r.lanes i
    { state := 1, t := t, pc := if t then laneAt r.pcs i else g.recordPc,
      nr := g.clause.any Clause.nr, clen := (g.clause.map Clause.len).getD 0, clend := (g.clause.map Clause.clend).getD 0,
      csd := l.depthAt f.level, dskip := if t then r.code == 3 || r.code == 5 else l.dskip }
  | none => { state := if l.status = .absent then 0 else if l.status = .exited then 3 else 2 }

/-- The frame written at entry. -/
def Furrow.frameFor (f : Furrow) (r : TrapReq) : Frame :=
  { code := r.code, info := r.info, fromLevel := f.level, arg := r.arg, val := laneAt r.eaddr (lowestLane r.lanes), tlane := r.lanes,
    lrec := tableOf (f.laneRec r), eaddr := tableOf (fun i => if inMask r.lanes i then laneAt r.eaddr i else 0) }

/-- What a trap of lanes T leaves of a group: its other lanes in a clause rest, held at their PC; a group that lost lanes has no entry of
its own left. An access of another group that has issued goes on while the group is held (R324, R340). -/
def Group.lessTrapping (t : Mask) (g : Group) : Option Group :=
  if g.lanes &&& t = 0 then some { g with wait := g.keptWait }
  else if g.lanes &&& ~~~t = 0 then none
  else some { g with lanes := g.lanes &&& ~~~t, active := false, clause := g.clause.map Clause.rest, header := none, midChain := false,
                     backoff := none, wait := none }

/-- The furrow at level n after the entry (R324). -/
def Furrow.enter (f : Furrow) (n : Nat) (r : TrapReq) : Furrow :=
  let t := r.lanes
  let act := (f.groupOf? (lowestLane t)).any Group.active
  let hit := f.groups.filter (fun g => g.level == f.level && g.lanes &&& t != 0)
  let f1 := hit.foldl (fun (f : Furrow) g => f.closeInst g.inst) f
  let running := f.running
  let f2 := { (f1.setFrame n (some (f.frameFor r))).onLanes (running &&& ~~~t) (fun _ l => { l with status := .held }) with
    level := n, step := none,
    groups := (f1.groups.filterMap (fun g => if g.level = f.level then g.lessTrapping t else some g))
      ++ [{ lanes := t, pc := pcOfPacket (8 * causeClass r.code), level := n, active := act }] }
  f2

/-- A trap that enters level n (R324), its permit taken when it comes from level 0. -/
def State.enterLevel (s : State) (f : Furrow) (n : Nat) (r : TrapReq) : State :=
  let s1 := if f.level = 0 ∧ !f.permit then s.takePermit f r.lanes else s
  (s1.onFurrow f.core f.slot (fun f => f.enter n r)).handout f.core (quarterOf f.slot)

/-- Taking a trap (R320 to R324): a context fault, a back-off, or the entry. The lanes that have exited meanwhile take no part. -/
def State.enterTrap (s : State) (core slot : Nat) (r0 : TrapReq) : State :=
  match s.furrow? core slot with
  | none => s
  | some f =>
    let r := { r0 with lanes := r0.lanes &&& f.running }
    if r.lanes = 0 then s
    else
      match s.ctx? (s.ctxOf f) with
      | none => s
      | some c =>
        match routeTrap c r.code f.level with
        | none => s.contextFault core slot (s.ctxOf f) r.code (s.locOf f)
        | some n => if f.level = 0 ∧ !f.permit ∧ !s.permitFor f r.lanes then s.backOff f r else s.enterLevel f n r

/-- STEP of the lanes in T (R331): each at its own next PC. -/
def Furrow.stepTrap (f : Furrow) (t : Mask) : TrapReq :=
  { lanes := t, code := 4, info := 0, arg := 0, pcs := tableOf (fun i => ((f.groupOf? i).map Group.pc).getD 0), eaddr := Vector.replicate 32 0 }

/-- STEP enters the level that executed the `tret` (R331): every live lane that was in g. It stays pending while no permit is free (R323); with no
lane left a furrow at level 0 gives its permit up (R322). -/
def State.takeStep (s : State) (core slot : Nat) : State :=
  match s.furrow? core slot with
  | none => s
  | some f =>
    match f.step with
    | none => s
    | some (n, m, _) =>
      let t := m &&& f.running
      if t = 0 then s.onFurrow core slot (fun f => { f with step := none, permit := f.permit && f.level != 0 })
      else if f.level = 0 ∧ !f.permit ∧ !s.permitFor f t then s.backOff f (f.stepTrap t)
      else (s.onFurrow core slot (fun f => { f with step := none })).enterLevel f n (f.stepTrap t)

/-! ### How an issue ends -/

/-- An access of a furrow whose field has ended has completed: what is left of the furrow retires. -/
def State.settleEnding (s : State) (core slot : Nat) : State :=
  if (s.furrow? core slot).any Furrow.ending then
    (s.onFurrow core slot (fun f => { f with groups := f.groups.filter Group.accessing, level := 0 })).reap core slot
  else s

/-- The issue of an access that completes by itself is left: the furrow is back at its own level. -/
def State.leaveIssue (s : State) (q : Issue) (n : Nat) : State :=
  (({ s with issue := none } : State).onFurrow q.core q.slot (fun f => { f with level := n })).settleEnding q.core q.slot

/-- A slot goes on with its second group, or ends with the trap deferred behind it (R325). -/
def State.nextInSlot (s : State) (q : Issue) : State :=
  match q.second with
  | some m => { s with issue := some { q with lanes := m, second := none, inChain := false, undo := none, reopen := none, redo := .no } }
  | none =>
    let s1 := { s with issue := none }
    match q.deferred with
    | some r => s1.enterTrap q.core q.slot r
    | none => s1

/-- The issue slot that an access of some lanes had stopped in, when it goes on now that the access has completed. -/
def Furrow.stopped? (f : Furrow) (lanes : Mask) : Option OpenSlot := f.openSlot.filter (fun o => o.lanes == lanes)

/-- The issue register of a slot that goes on. -/
def Issue.resumed (q : Issue) (o : OpenSlot) : Issue :=
  { core := q.core, slot := q.slot, lanes := o.lanes, second := o.second, deferred := o.deferred, first := o.lanes }

/-- A furrow's open slot closed. -/
def State.closeSlot (s : State) (q : Issue) : State := s.onFurrow q.core q.slot (fun f => { f with openSlot := none })

/-- A stepped return whose chain has completed takes its STEP (R331). -/
def State.settleStep (s : State) (core slot : Nat) : State :=
  if (s.furrow? core slot).any (fun f => f.step.any (fun t => t.2.2) && f.posted.isEmpty && !f.groups.any Group.accessing) then s.takeStep core slot
  else s

/-- The turn of the issuing group is over. After an access that completed by itself the furrow is back at its own level, and the slot it had stopped
in goes on. -/
def State.endIssue (s : State) (q : Issue) : State :=
  match q.back with
  | some n =>
    let s1 := s.leaveIssue q n
    match (s1.furrow? q.core q.slot).bind (fun f => f.stopped? q.lanes) with
    | some o => (s1.closeSlot q).nextInSlot (q.resumed o)
    | none => s1.settleStep q.core q.slot
  | none => s.nextInSlot q

/-- Groups of some lanes whose chain is over. -/
def Furrow.chainOver (f : Furrow) (lanes : Mask) : Furrow :=
  { f with groups := f.groups.map (fun (g : Group) => if g.level = f.level ∧ g.lanes &&& ~~~lanes = 0 then { g with midChain := false } else g) }

/-- The chain of the lanes given has issued: DSKIP of its lanes ends (R332), the step whose chain it is is due (R331), entries are given out. -/
def State.endChain (s : State) (q : Issue) (lanes : Mask) : State :=
  let s1 := s.onFurrow q.core q.slot (fun f =>
    { (f.chainOver lanes).onLanes lanes (fun _ l => { l with dskip := false }) with
      step := match f.step with
        | some (n, m, done) => some (n, m, done || (f.stepping && m &&& lanes != 0))
        | none => none })
  let s2 := if q.back.isNone then s1.settleStep q.core q.slot else s1
  ((s2.reap q.core q.slot).handout q.core (quarterOf q.slot)).endIssue q

/-- A group that retired an instruction (R46): its watchdog restarts, unless it runs ahead of a speculative fence, and its back-off is over. -/
def Group.retire (ahead : Bool) (g : Group) : Group := { g with wdog := if ahead then g.wdog else 0, backoff := none, wait := none }

/-- The chain of some lanes goes on with their next word, in this slot, or in the one that an access has stopped in (R158). -/
def State.chainOn (s : State) (q : Issue) (lanes : Mask) : State :=
  let s1 := s.onFurrow q.core q.slot (fun f => f.onGroup lanes (fun g => { g with midChain := true }))
  match q.back with
  | none => { s1 with issue := some { q with lanes := lanes, inChain := true, undo := none, reopen := none } }
  | some n =>
    let s2 := s1.leaveIssue q n
    match (s2.furrow? q.core q.slot).bind (fun f => f.stopped? q.lanes) with
    | some o => { s2.closeSlot q with issue := some { q.resumed o with lanes := lanes, inChain := true } }
    | none => s2

/-- The issuing group at its next word, the chain going on or over. -/
def State.stepOver (s : State) (q : Issue) (g : Group) (pc : BitVec 24) (chained : Bool) : State :=
  let s1 := s.onFurrow q.core q.slot (fun f => f.onGroup g.lanes (fun g => { g.retire f.spec.isSome with pc := pc }))
  if chained then s1.chainOn q g.lanes else s1.endChain q g.lanes

/-- A trap that arose after its group's instruction had issued (R326): pending on the group, which stands past the instruction. -/
def Group.pending (g : Group) (r : TrapReq) : Group := { g with pend := some r, pc := g.recordPc, wait := none, midChain := false }

/-- A group at the entry of its pending trap: at the load again whose reply was poisoned, which wrote nothing and which its other lanes issue again
(R240, R241). -/
def Group.unpend (g : Group) (r : TrapReq) : Group :=
  { g with pend := none, pc := if r.code = 0x1C ∧ !r.late then laneAt r.pcs (lowestLane r.lanes) else g.pc }

/-- A trap in a slot (R325): the first of a pair lets the second take its whole effect; the second of a pair whose first has trapped has none, but a
trap taken after its effect is kept pending. -/
def State.trapInSlot (s : State) (q : Issue) (r : TrapReq) : State :=
  match q.second, q.deferred with
  | some m, _ => { s with issue := some { q with lanes := m, second := none, inChain := false, deferred := some r, undo := none, reopen := none } }
  | none, some first =>
    let s1 := if r.late then
        s.onFurrow q.core q.slot (fun f => { f with groups := f.groups.map (fun (g : Group) =>
          if g.level = f.level ∧ inMask g.lanes (lowestLane r.lanes) then { g with pend := some r } else g) })
      else s
    ({ s1 with issue := none }).enterTrap q.core q.slot first
  | none, none => ({ s with issue := none }).enterTrap q.core q.slot r

/-- A trap of the issuing group (R324, R325): behind a running-ahead speculative fence it is held (R148). A trap of an access that completes by itself
is pending on its group (R326), unless the slot that it has stopped goes on. -/
def State.trapIssue (s : State) (q : Issue) (r : TrapReq) : State :=
  let u := s.furrow? q.core q.slot
  if u.any (fun f => f.spec.isSome) then
    (s.onFurrow q.core q.slot (fun f =>
      { f with openSlot := none, spec := f.spec.map (fun sf => { sf with heldTrap := some r }),
               groups := f.groups.map (fun (g : Group) => if g.level = f.level then { g with wait := some .specHold } else g) })).endIssue q
  else
    match q.back with
    | none => s.trapInSlot q r
    | some n =>
      let s1 := s.dropFilling q.core q.slot q.lanes
      match u.bind (fun f => f.stopped? q.lanes) with
      | some o => ((s1.closeSlot q).onFurrow q.core q.slot (fun f => f.onGroup q.lanes (fun g => { g with wait := none }))).trapInSlot (q.resumed o) r
      | none => ((s1.onFurrow q.core q.slot (fun f => f.onGroup q.lanes (fun g => g.pending r))).leaveIssue q n).settleStep q.core q.slot

/-- The issuing group traps before its instruction takes any effect: T lanes, cause, INFO. The trap PC is the instruction's, for an illegal
instruction found when it executes as for every other cause (R160; DEDUCED, log 87: R318's column names the chain's first word). -/
def trapNow (s : State) (q : Issue) (g : Group) (lanes : Mask) (code info : Nat) : Out :=
  .next (s.trapIssue q (trapAt lanes code info g.pc))

/-- The group that turns out to have an unmet wait (R33). One that has issued nothing in this slot leaves it as though it had not been eligible, and
the choice is made again without it (R35); one that waits at a later word of its chain has issued, and keeps age 0. -/
def State.standBack (s : State) (q : Issue) (g : Group) (w : Wait) (k : Furrow → Furrow) : State :=
  let wait := fun (f : Furrow) => (k f).onGroup g.lanes (fun g => { g with wait := some w })
  if q.inChain then (s.onFurrow q.core q.slot wait).endIssue q
  else
    match q.undo with
    | some u => { s.onFurrow q.core q.slot (fun _ => wait u) with issue := some { q with redo := .all } }
    | none =>
      let old := (q.before.find? (fun h => h.level == g.level && h.lanes == g.lanes)).getD g
      let s1 := s.onFurrow q.core q.slot (fun f =>
        (wait (q.reopen.getD f)).onGroup g.lanes (fun h => { h with age := old.age, issuedAt := old.issuedAt }))
      if q.before.isEmpty then s1.endIssue q else { s1 with issue := some { q with redo := .second } }

/-- The instruction waits (R33): it has no effect but k. A stepped chain abandons the wait (R331). -/
def State.waitWith (s : State) (q : Issue) (g : Group) (w : Wait) (k : Furrow → Furrow) : State :=
  match q.back with
  | some n => s.leaveIssue q n
  | none =>
    if (s.furrow? q.core q.slot).any (fun f => f.stepping && f.step.any (fun t => !t.2.2)) then (s.onFurrow q.core q.slot k).endChain q g.lanes
    else s.standBack q g w k

/-- The wait of an access that has issued, for its tokens: registers are made for what it will write (R73). Where its chain goes on, or the group
chosen with it uses what it writes, the slot stops until it has completed (R158, R160, R38; DESIGN CHOICE, log 112); else the chain has issued, and
DSKIP ends (R332). -/
def State.waitAccess (s : State) (q : Issue) (g : Group) (i : Instr) (w : Wait) : State :=
  let s0 := if g.accessing then s else s.makeRoomFor q.core (quarterOf q.slot) (vNames i.readsWrites.2).length
  let s1 := s0.onFurrow q.core q.slot (fun f => f.onGroup g.lanes (fun g => { g with wait := some w }))
  match q.back with
  | some n => s1.leaveIssue q n
  | none =>
    if i.chained || (q.follows && q.second.isSome) then
      { s1.onFurrow q.core q.slot (fun f => { f with openSlot := some { lanes := g.lanes, second := q.second, deferred := q.deferred } }) with issue := none }
    else (s1.onFurrow q.core q.slot (fun f => f.onLanes g.lanes (fun _ l => { l with dskip := false }))).nextInSlot q

/-- The wait of an operation on a weir for its tokens: nothing of it has been performed, and it issues again. -/
def State.waitTokens (s : State) (q : Issue) (g : Group) (w : Wait) : State := s.standBack q g w id

/-- A wait with no other effect. -/
def State.waitOn (s : State) (q : Issue) (g : Group) (w : Wait) : State := s.waitWith q g w id

/-- After the effect of an instruction with active set m that raised flags fl: the next word, or the floating-point trap taken after
completion (R102, R160). -/
def State.advance (s : State) (i : Instr) (q : Issue) (f : Furrow) (g : Group) (m : Mask) (fl : Nat) : State :=
  let pc := nextPc g.pc i.words
  let te := f.trapEnables
  if te = 0 ∨ m = 0 then s.stepOver q g pc i.chained
  else if fl &&& te = 0 then s.stepOver q g pc i.chained
  else
    let s1 := s.onFurrow q.core q.slot (fun f =>
      (f.onGroup g.lanes (fun g => { g.retire f.spec.isSome with pc := pc, midChain := false })).onLanes g.lanes (fun _ l => { l with dskip := false }))
    s1.trapIssue q { trapAt m 0x28 (fl &&& te) pc with late := true }

/-- The furrow put back after the effect of an instruction that raised flags fl: names, sharing and reuse where it wrote `v` registers, and before
them the spills that free the registers it needs (R73, R76 to R83). Answers the flags raised, which are those of the entry on a hit. -/
def State.wrote (s : State) (i : Instr) (q : Issue) (f : Furrow) (g : Group) (m : Mask) (fl : Nat) (load : Option (Nat × List Nat)) : State × Nat :=
  let f1 := f.raise fl
  if (vNames i.readsWrites.2).isEmpty ∨ m = 0 then (s.setFurrow f1, fl)
  else s.afterVector i ((s.furrow? q.core q.slot).getD f) f1 g m fl load q.back.isSome

/-- An instruction that completes: f is the furrow after its effect; `load` is what a plain load's reuse entry needs (R82). -/
def State.doneWith (s : State) (i : Instr) (q : Issue) (f : Furrow) (g : Group) (m : Mask) (fl : Nat) (load : Option (Nat × List Nat)) : Out :=
  let r := s.wrote i q f g m fl load
  .next (r.1.advance i q f g m r.2)

/-- An instruction other than a load that completes. -/
def State.done (s : State) (i : Instr) (q : Issue) (f : Furrow) (g : Group) (m : Mask) (fl : Nat) : Out := s.doneWith i q f g m fl none

/-- The issuing lanes of T trap with no effect of the instruction, the cause's argument given (R318). -/
def trapWith (s : State) (q : Issue) (r : TrapReq) : Out := .next (s.trapIssue q r)

/-- An instruction that retires without any effect. -/
def State.skip (s : State) (i : Instr) (q : Issue) (g : Group) : Out := .next (s.stepOver q g (nextPc g.pc i.words) i.chained)

/-- A control transfer (R31, R35): every live lane of the group goes to its PC; f holds its other effects. Lanes that fall through go on with
the chain. -/
def State.transfer (s : State) (i : Instr) (q : Issue) (f : Furrow) (g : Group) (pcs : Nat → BitVec 24) : Out :=
  let s0 := s.setFurrow f
  let f1 := (f.onLanes g.lanes (fun _ l => { l with dskip := false })).regroup (g.retire f.spec.isSome)
    (s0.poolFree q.core (quarterOf q.slot)) pcs
  let nxt := nextPc g.pc i.words
  let s1 := s.setFurrow f1
  .next (match i.chained, f1.groups.find? (fun h => h.level == g.level && h.pc == nxt && h.lanes &&& ~~~g.lanes == 0) with
    | true, some h => s1.chainOn q h.lanes
    | _, _ => s1.endChain q g.lanes)

/-! ### Holds released (R192) -/

/-- The order that an annotation of a scope gives some lanes (R139, R144): a release makes their performed writes visible, an acquire makes
their later reads see what is visible. -/
def State.sync (s : State) (f : Furrow) (lanes : Mask) (rel acq : Bool) (c : Scope) : State :=
  let s1 := if rel then s.publish (f.party lanes) c.code else s
  if acq then s1.raiseFloor f lanes c.code else s1

/-- The order of a fence that completes: as an annotation gives it, and what some lanes have written is visible to every later read of the scope's
threads (R42, R142, R144). -/
def State.fenceSync (s : State) (f : Furrow) (lanes : Mask) (rel acq : Bool) (c : Scope) : State :=
  let s1 := if rel then s.publish (f.party lanes) c.code true else s
  if acq then s1.raiseFloor f lanes c.code else s1

/-- A step whose chain has not begun is that of the group that holds its lowest lane, where a release or a merge has made it larger (R331). -/
def Furrow.restep (f : Furrow) : Furrow :=
  { f with step := f.step.map (fun t =>
      if t.2.2 then t else (t.1, ((f.groupOf? (lowestLane (t.2.1 &&& f.running))).map Group.lanes).getD t.2.1, false)) }

/-- The holds whose conditions hold released (R192): a full fence of `.furrow` scope among the lanes released (R143). -/
def State.releaseHolds (s : State) (f : Furrow) : State :=
  let m := (f.groups.filter f.rcvMet).foldl (fun m g => m ||| g.lanes) 0
  if m = 0 then s else (s.fenceSync f m true true .furrow).onFurrow f.core f.slot (fun f => f.release.restep)

/-! ### Returning (R328, R330) -/

/-- A lane record's clause rest (R168). -/
def LaneRec.clause (r : LaneRec) : Option Clause :=
  if r.clen = 0 then none else some { nr := r.nr, len := r.clen, clend := r.clend, inst := none, seta := none, setb := none }

/-- Whether a held group comes back as it was: every lane of it returns at its own PC (R330). -/
def Group.keeps (fr : Frame) (g : Group) : Bool :=
  (lanesOf g.lanes).all (fun i => let r := laneAt fr.lrec i; r.state == 1 && r.pc == g.recordPc && !r.t)

/-- The furrow back at the frame's level (R330): held groups whose lanes kept their PCs stay as they were; every other returning lane joins
a new group by PC. Lanes of one PC whose records differ in NR, CLEN or CLEND take the record of the lowest of them (DESIGN CHOICE, log 113: R330
groups by PC alone, and a group has one clause rest). -/
def Furrow.returnFrom (f : Furrow) (fr : Frame) : Furrow :=
  let n := fr.fromLevel
  let ends := maskOf (fun i => (laneAt fr.lrec i).state == 3 && (laneAt f.lanes i).status != .absent && (laneAt f.lanes i).status != .exited)
  let back := maskOf (fun i => (laneAt fr.lrec i).state == 1)
  let kept := f.groups.filter (fun g => g.level == n && g.keeps fr)
  let other := f.groups.filter (fun g => g.level != n && g.level != f.level)
  let keptLanes := kept.foldl (fun m g => m ||| g.lanes) 0
  let fresh := (classesOf (back &&& ~~~keptLanes) (fun i => (laneAt fr.lrec i).pc)).map (fun c =>
    ({ lanes := c.2, pc := c.1, level := n, active := false, clause := (laneAt fr.lrec (lowestLane c.2)).clause } : Group))
  let gone := f.groups.filter (fun g => (g.level == n && !g.keeps fr) || g.level == f.level)
  let f1 := gone.foldl (fun (f : Furrow) g => f.closeInst g.inst) f
  let f2 := (f1.setFrame f.level none).onLanes back (fun i l => { l with status := .live, dskip := (laneAt fr.lrec i).dskip })
  { f2.onLanes ends (fun _ l => { l with status := .exited }) with level := n, groups := other ++ kept ++ fresh }

/-- A return of the furrow through the frame of its level (R330): the permit goes unless a step of the lanes in M begins (R331). A `tret` that is
itself stepped begins no step of its own (log 101): STEP of the stepped return is taken after it. -/
def State.returnTrap (s : State) (f : Furrow) (fr : Frame) (steps : Mask) : State :=
  let f1 := f.returnFrom fr
  let sel := if f.step.isSome then 0 else steps &&& f1.running
  let g := f1.groupOf? (lowestLane sel)
  let f2 := { f1 with stepping := f1.stepping && f.step.isSome, permit := f1.permit && (fr.fromLevel != 0 || sel != 0 || f.step.isSome),
                      step := match f.step with
                        | some (n, m, _) => some (n, m, true)
                        | none => if sel = 0 then none else some (f.level, (g.map Group.lanes).getD 0, false) }
  let s1 := s.setFurrow f2
  let s2 := if f.step.isSome then s1.takeStep f.core f.slot else s1
  (s2.reap f.core f.slot).handout f.core (quarterOf f.slot)

/-! ### Frames as software sees them (R319, R328) -/

/-- `TCAUSE` of a frame (R319). -/
def Frame.cause (fr : Frame) : W64 := BitVec.ofNat 64 (fr.info * 2 ^ 24 + fr.fromLevel * 2 ^ 16 + fr.code)

/-- A lane record's 64 bits (R328). -/
def LaneRec.bits (r : LaneRec) : Nat :=
  r.state * 2 ^ 62 + r.t.toNat * 2 ^ 61 + r.nr.toNat * 2 ^ 60 + r.dskip.toNat * 2 ^ 59 + r.clen * 2 ^ 56 + r.csd * 2 ^ 51
    + r.clend * 2 ^ 24 + r.pc.toNat

/-! ### Before an instruction's own effect -/

/-- The instructions that may run ahead of a speculative fence, plain loads aside (R145). -/
def Furrow.mayRunAhead (f : Furrow) (i : Instr) (g : Group) : Bool :=
  match i with
  | .nop _ => true
  | .ld x => !x.vol
  | .bra _ | .jmp _ | .bwz _ | .bwnz _ => let m := f.readP i.guard.val &&& g.lanes; m == 0 || m == g.lanes
  | i => i.reuseEligible

/-- A privileged instruction (R312). -/
def isPrivileged (i : Instr) : Bool :=
  match i with
  | .tret _ | .fend _ | .cend _ | .dhalt _ => true
  | i => i.major == 0x1C

/-- The tests that come before the effect of every instruction: a speculative fence ahead (R145), the extended block (R69), privilege
(R312). A `pf` that names the extended block without holding it traps like any other (R69; DEDUCED, log 110: R258 has `pf` trap only by R173). -/
def running (i : Instr) (s : State) (k : Issue → Furrow → Group → Out) : Out :=
  issued s (fun q f g =>
    if f.spec.isSome && !g.accessing && !f.mayRunAhead i g then .next (s.waitOn q g .specHold)
    else if i.usesExtended && f.ext == .none && !g.accessing then trapNow s q g g.lanes 0x23 0
    else if isPrivileged i && f.level == 0 then trapNow s q g g.lanes 0x22 0
    else k q f g)

/-- The active set: lanes of the group whose guard is true (R4), as they were when an access that is still to complete issued. -/
def Furrow.activeSet (f : Furrow) (i : Instr) (g : Group) : Mask :=
  match g.wait with
  | some (.access _ m _ _ _) => m
  | _ => g.lanes &&& f.readP i.guard.val

/-- Whether the group is the whole furrow at its level and every guard is true (R40, R315). -/
def Furrow.converged (f : Furrow) (i : Instr) (g : Group) : Bool := g.lanes == f.running && f.activeSet i g == g.lanes

end Sys2Proof.Machine
end

