-- ==== Sys2Proof/Machine/Operands.lean ====
section
/-! DEFINITION. Operand forms: format SU (R183), the second operand of long instructions (R210), elements of a lane (R209), the lane index
of shuffles and frame registers (R201, R329), offsets of address operands (R236), and the frame that vector instructions share (R211). -/
namespace Sys2Proof.Machine

/-! ### Format SU (R183) -/

/-- The second operand of format SU; the minor says how its immediate is read. -/
def Furrow.uop (f : Furrow) (b : UOp) (signed : Bool) : W64 :=
  match b with
  | .reg n => f.readW n.val
  | .imm x => if signed then x.signExtend 64 else x.setWidth 64

/-! ### Elements (R209, R210) -/

/-- Elements of one lane: 32 / n of them below 32 bits, one otherwise. -/
def perLane (t : Ty) : Nat := if t.width < 32 then 32 / t.width else 1

/-- The bits of a lane of a register or pair. -/
def Furrow.laneBits (f : Furrow) (t : Ty) (n i : Nat) : Nat := if t.width = 64 then (f.pairOf n i).toNat else (f.laneOf n i).toNat

/-- Element k of a lane's bits. -/
def elem (t : Ty) (x k : Nat) : Nat := bitsOf x (t.width * k) t.width

/-- An immediate as an element (R210). -/
def immElem (t : Ty) (b : BitVec 8) : Nat :=
  if t.isSigned then wrap (sext b.toNat 8) t.width
  else if t.isInt then b.toNat
  else (roundNum (Num.ofInt (sext b.toNat 8)) t .rne false false).1

/-- Element k of operand b in lane i. -/
def Furrow.bElem (f : Furrow) (t : Ty) (b : BOp) (i k : Nat) : Nat :=
  match b with
  | .v n => elem t (f.laneBits t n.val i) k
  | .w n => elem t (f.readW n.val).toNat k
  | .imm x => immElem t x

/-- b as a lane index or offset: lane i of a `v` register read unsigned, the whole of a `w` register read unsigned (DESIGN CHOICE, log 109: R201 does
not say how its 64 bits are read), or the immediate unsigned (R201, R329). -/
def Furrow.bIndex (f : Furrow) (b : BOp) (i : Nat) : Nat :=
  match b with
  | .v n => (f.laneOf n.val i).toNat
  | .w n => (f.readW n.val).toNat
  | .imm x => x.toNat

/-- Element results of one lane put together, with their flags. -/
def lanePack (t : Ty) (r : Nat → Nat × Nat) : Nat × Nat :=
  (List.range (perLane t)).foldl (fun a k => (a.1 + (r k).1 * 2 ^ (t.width * k), a.2 ||| (r k).2)) (0, 0)

/-- A register or pair written in the lanes of a mask with lane bits (R68). -/
def Furrow.writeLanes (f : Furrow) (t : Ty) (n : Nat) (m : Mask) (x : Nat → Nat) : Furrow :=
  if t.width = 64 then f.writePair n m (fun i => BitVec.ofNat 64 (x i)) else f.writeV n m (fun i => BitVec.ofNat 32 (x i))

/-! ### The frame of R211 -/

/-- The lanes of the active set written with per-lane results and their flags; nothing when the set is empty. -/
def vectorDone (s : State) (i : Instr) (q : Issue) (f : Furrow) (g : Group) (t : Ty) (d : Nat) (r : Nat → Nat × Nat) : Out :=
  let m := f.activeSet i g
  if m = 0 then s.skip i q g
  else
    let rs := tableOf r
    s.done i q (f.writeLanes t d m (fun j => (laneAt rs j).1)) g m (flagsOver m (fun j => (laneAt rs j).2))

/-- An element-wise instruction of majors 0x10 to 0x12 and 0x14 (R211): `op` gives an element's result and flags from those of a, b
and c. -/
def elementwise (i : Instr) (x : LV) (s : State) (op : Furrow → Nat → Nat → Nat → Nat × Nat) : Out :=
  running i s (fun q f g =>
    vectorDone s i q f g x.ty x.d.val (fun l =>
      let a := f.laneBits x.ty x.a.val l
      let c := f.laneBits x.ty x.c3.val l
      lanePack x.ty (fun k => op f (elem x.ty a k) (f.bElem x.ty x.b l k) (elem x.ty c k))))

end Sys2Proof.Machine
end

