-- ==== Sys2Proof/Machine/Faults.lean ====
section
/-! DEFINITION. The two fault responses of a furrow (R337, R356 to R360): a translation failure is vectored, or posted to the die's fault queue
while the furrow waits. -/
namespace Sys2Proof.Machine

/-- One lane's failed check: its cause, fault address (EADDR of R318), the address that failed, and what a walk met (R355). -/
structure LaneFault where
  lane : Nat
  code : Nat
  ea : Nat
  va : Nat
  busy : Bool
  badPte : Bool
  wlevel : Nat
  deriving DecidableEq, Repr

/-- The lanes of a list of faults. -/
def faultLanes (l : List LaneFault) : Mask := l.foldl (fun m x => m ||| (1 <<< x.lane)) 0

/-- Fault address of a lane. -/
def faultAddr (l : List LaneFault) (i : Nat) : BitVec 64 :=
  match l.find? (fun x => x.lane == i) with
  | some x => BitVec.ofNat 64 x.ea
  | none => 0

/-- The trap that these faults are, when vectored. -/
def faultTrap (l : List LaneFault) (info : Nat) (pc : BitVec 24) : TrapReq :=
  { lanes := faultLanes l, code := (l.map LaneFault.code).headD 0, info := info, arg := 0, pcs := Vector.replicate 32 pc,
    eaddr := tableOf (faultAddr l) }

/-- The distinct pages of a list of faults with what their walks met. -/
def faultPages (l : List LaneFault) : List (Nat × Bool × Bool × Nat) :=
  l.foldl (fun ps x => if ps.any (fun p => p.1 == x.va / 4096 * 4096) then ps else ps ++ [(x.va / 4096 * 4096, x.busy, x.badPte, x.wlevel)]) []

/-- The report of a furrow's fault on a page. -/
def State.reportOf (s : State) (f : Furrow) (kind : Nat) (p : Nat × Bool × Bool × Nat) : FaultReport :=
  { vaddr := p.1, ctx := s.ctxOf f, asid := ((s.ctx? (s.ctxOf f)).map (fun c => c.tasid.toNat)).getD 0, cause := 0x10, level := f.level,
    origin := 0, busy := p.2.1, badPte := p.2.2.1, wlevel := p.2.2.2, kind := kind,
    first := BitVec.ofNat 64 (bitsOf (s.locOf f).toNat 0 40) }

/-- Pages posted to the queue of the furrow's die: the entries that hold them, and the pages that found no room (R356 to R358). -/
def State.postPages (s : State) (f : Furrow) (kind : Nat) :
    List (Nat × Bool × Bool × Nat) → State × List (Nat × Nat × Nat) × List Nat
  | [] => (s, [], [])
  | p :: ps =>
    match s.postFault (dieOf f.core) (s.reportOf f kind p) (.furrow f.core f.slot) with
    | (s1, some q) => let r := s1.postPages f kind ps; (r.1, (dieOf f.core, q, p.1) :: r.2.1, r.2.2)
    | (s1, none) => let r := s1.postPages f kind ps; (r.1, r.2.1, p.1 :: r.2.2)

/-- A furrow that waits for its fault entries (R337, R356). -/
def State.suspend (s : State) (f : Furrow) (l : List LaneFault) (info : Nat) (pc : BitVec 24) (replay whole : Bool) : State :=
  let ps := faultPages l
  let r := s.postPages f info ps
  r.1.onFurrow f.core f.slot (fun f => { f with faultWaits := f.faultWaits ++
    [{ replay := replay, whole := whole, entries := r.2.1, unposted := r.2.2, lanes := faultLanes l, kind := info,
       pcs := Vector.replicate 32 pc, eaddr := tableOf (faultAddr l), reports := ps, failed := [],
       lanePages := l.map (fun x => (x.lane, x.va / 4096 * 4096)) }] })

/-- Whether the context replays level 0's absent pages (R337). -/
def State.replays (s : State) (f : Furrow) : Bool := f.level == 0 && (s.ctx? (s.ctxOf f)).any (fun c => c.tresp.getLsbD 0)

/-- Failed checks of one cause in the lanes of the issuing group (R337, R356): posted and waited for where the response says so, else a
trap. Under vectoring the lanes that met a page being moved wait, unless another lane's fault is vectored first. -/
def State.faultIssue (s : State) (q : Issue) (f : Furrow) (l : List LaneFault) (info : Nat) (pc : BitVec 24) (whole : Bool) : State :=
  let absent := l.all (fun x => x.code == 0x10)
  let still := l.filter (fun x => !x.busy)
  if f.spec.isSome && absent && (s.replays f || still.isEmpty) then
    match f.group? q.lanes with
    | some g => s.waitOn q g .specHold
    | none => s.endIssue q
  else if f.spec.isSome || q.deferred.isSome then s.trapIssue q (faultTrap l info pc)
  else if absent && s.replays f then (s.suspend f l info pc true true).endIssue q
  else if absent && still.isEmpty then (s.suspend f l info pc false whole).endIssue q
  else s.trapIssue q (faultTrap (if absent then still else l) info pc)

end Sys2Proof.Machine
end

