-- ==== Sys2Proof/Machine/Fetch.lean ====
section
/-! DEFINITION. Fetching: one word with its translation and patch (R157, R177, R354), the chain a group is about to issue with its legality
(R158, R173), leaving a clause (R168), breakpoints (R332), and what the issuing group executes next. -/
namespace Sys2Proof.Machine

/-- A word as fetched: its bits, a fault at the group's lanes, a sector of which the die has no token yet (R372), or a patched word whose format has no
IMM8 (R177). -/
inductive Fetched
  | word (w : Nat)
  | wait (sector : Nat)
  | fault (code va : Nat) (busy badPte : Bool) (wlevel : Nat)
  | noImm
  deriving DecidableEq, Repr

/-- The patch table in force at a furrow's level: that of the kernel at the level its fields run, none in handler code. -/
def State.patchesOf (s : State) (f : Furrow) : List (Nat × BitVec 8) :=
  match s.field? f.field with
  | none => []
  | some fl => if f.level = (if fl.service then 1 else 0) then fl.kernel.patches else []

/-- The word in memory at a PC of a furrow's level (R354), read through the die's holder under a token (R118, R341, R372). The later words of a chain have
been fetched with its first, and need none (log 9). -/
def State.rawWord (s : State) (f : Furrow) (pc : Nat) : State × Fetched :=
  let va := (s.codeOf f).1 + pc
  let again := s.issue.any Issue.inChain
  if !isGlobal va then (s, .fault 0x18 va false false 0)
  else
    match (if again then s.translateNow (s.ctxOf f) f.core va { fetch := true } f.level
           else s.translate (s.ctxOf f) f.core va { fetch := true } f.level) with
    | (s1, .fail code b p w) => (s1, .fault code va b p w)
    | (s1, .wait sec) => (s1, .wait sec)
    | (s1, .ok pa) =>
      if !again && !s1.isPeer pa && !s1.mayAccess (dieAgent f.core) pa false then (s1.request (dieAgent f.core) (sectorOf pa) false f.core, .wait (sectorOf pa))
      else
        let s2 := if again then s1 else s1.readHeld (dieAgent f.core) pa
        if s2.poisoned pa 4 then (s2, .fault 0x1C va false false 0) else (s2, .word (s2.numAt pa 4))

/-- The word with the launch's patch (R177). -/
def State.fetchWord (s : State) (f : Furrow) (pc : Nat) : State × Fetched :=
  match s.rawWord f pc with
  | (s1, .word w) =>
    match (s.patchesOf f).find? (fun p => p.1 == pc / 4) with
    | none => (s1, .word w)
    | some p =>
      if isLongMajor (majorOf w) && pc / 4 % 3 == 2 then (s1, .noImm)
      else if isLongMajor (majorOf w) then
        match s1.rawWord f (pc + 4) with
        | (s2, .word x) => (s2, ((patchWord w x p.2.toNat).map Fetched.word).getD .noImm)
        | r => r
      else (s1, ((patchWord w 0 p.2.toNat).map Fetched.word).getD .noImm)
  | r => r

/-- Words from a PC to the end of their chain, at most n of them (R156): those fetched, and how the next one failed. -/
def State.fetchChain (f : Furrow) : Nat → Nat → State → State × List Nat × Option Fetched
  | 0, _, s => (s, [], none)
  | n + 1, pc, s =>
    match s.fetchWord f pc with
    | (s1, .word w) =>
      if chainBit w then let r := State.fetchChain f n (pc + 4) s1; (r.1, w :: r.2.1, r.2.2) else (s1, [w], none)
    | (s1, e) => (s1, [], some e)

/-- The whole instructions that the fetched words of a broken-off chain hold. -/
def prefixInstrs : Nat → List Nat → Except DecodeErr (List Instr)
  | 0, _ => .ok []
  | _, [] => .ok []
  | n + 1, w :: ws =>
    if isLongMajor (majorOf w) && ws.isEmpty then .ok []
    else match decode (w :: ws) with
      | .error e => .error e
      | .ok (i, k) => (prefixInstrs n ((w :: ws).drop k)).map (fun is => i :: is)

/-- The first instruction of a chain from its words and from how the next word's fetch failed: none where that word belongs to it. A word that has no
IMM8 to patch makes the whole chain illegal (R177, R318). -/
def chainHead (k : Nat) (ws : List Nat) (failed : Option Fetched) : Except DecodeErr (Option Instr) :=
  match failed with
  | none => (decodeChain k ws).map (fun l => (l.head?).map Prod.snd)
  | some .noImm => .error .illegalChain
  | some _ =>
    match prefixInstrs 3 ws with
    | .error e => .error e
    | .ok is => if chainLegal is then .ok is.head? else .error .illegalChain

/-- The lanes of a group at a failed fetch (R354): the trap PC is the word and the fault address its virtual address; a word with no IMM8 field to
patch is illegal. -/
def State.fetchFault (s : State) (q : Issue) (f : Furrow) (g : Group) (e : Fetched) : State :=
  match e with
  | .fault code va b p w =>
    s.faultIssue q f ((lanesOf g.lanes).map (fun i => { lane := i, code := code, ea := va, va := va, busy := b, badPte := p, wlevel := w })) 4
      (BitVec.ofNat 24 (va - (s.codeOf f).1)) false
  | _ => s.trapIssue q (trapAt g.lanes 0x20 0 g.pc)

/-! ### Clauses and breakpoints before a chain -/

/-- Whether a PC lies in a clause's span (R168). -/
def Clause.covers (c : Clause) (pc : BitVec 24) : Bool :=
  decide (c.clend - c.len ≤ packetOf pc ∧ packetOf pc < c.clend) && (packetOf pc != c.clend - c.len || pc.toNat / 4 % 3 != 0)

/-- The flags a header names, each once (R170). -/
def headerFlags (f : ClauseH) : List (Fin 12) :=
  ([f.seta.val, f.setb.val].filterMap (fun n => if h : n < 12 then some (⟨n, h⟩ : Fin 12) else none)).dedup

/-- The group out of the clause it was in, that instance closed (R168). -/
def Furrow.closeClause (f : Furrow) (g : Group) : Furrow :=
  (f.onGroup g.lanes (fun g => { g with clause := none })).closeInst g.inst

/-- A group that issues its first chain after a clause header in a new instance of the clause (R167, R169). -/
def Furrow.openClause (f : Furrow) (h : ClauseH) (g : Group) : Furrow :=
  let n := f.freshClause
  let f1 := f.bumpFlags (headerFlags h) (fun k => k + 1)
  let f2 := { f1 with clauses := f1.clauses ++ [(n, false, (headerFlags h))],
                      flags := f1.flags &&& ~~~((headerFlags h).foldl (fun (m : BitVec 12) (i : Fin 12) => m ||| (1#12 <<< i.val)) 0) }
  f2.onGroup g.lanes (fun g => { g with
    header := none, wait := none,
    clause := some { nr := h.nr, len := h.len.val, clend := packetOf g.pc + h.len.val, inst := some n,
                     seta := (headerFlags h).head?, setb := ((headerFlags h).drop 1).head? } })

/-- A group that waits at a clause's flags stands at the header, which it fetches again (R167). -/
def Furrow.atHeader (f : Furrow) (g : Group) : Furrow :=
  f.onGroup g.lanes (fun h => { h with header := none, clause := none, pc := g.pc - 4 })

/-- Whether the group's chain is past the span of the clause it is in. -/
def Group.leaves (g : Group) : Bool := g.clause.any (fun c => !c.covers g.pc)

/-- The group leaves a clause whose span its chain is not in. -/
def Furrow.leaveClause (f : Furrow) (g : Group) : Furrow :=
  match g.clause with
  | none => f
  | some c => if c.covers g.pc then f else (f.onGroup g.lanes (fun g => { g with clause := none })).closeInst c.inst

/-- The lowest enabled breakpoint register that matches a PC (R332). -/
def Ctx.bptHit (c : Ctx) (pc : BitVec 24) : Option Nat :=
  (List.range 4).find? (fun k => let r := c.bpt[Fin.ofNat 4 k]; r.getLsbD 63 && r.setWidth 24 == pc)

/-- The breakpoint trap a group takes before its chain: the lanes whose DSKIP is 0. -/
def State.breakpoint (s : State) (f : Furrow) (g : Group) : Option (Mask × Nat) :=
  if f.level ≠ 0 then none
  else
    match (s.ctx? (s.ctxOf f)).bind (fun c => c.bptHit g.pc) with
    | none => none
    | some n =>
      let m := g.lanes &&& maskOf (fun i => !(laneAt f.lanes i).dskip)
      if m = 0 then none else some (m, n)

/-! ### What the issuing group executes -/

/-- What comes before the effect of a chain that is legal (R167, R168): a group past a clause's span leaves it, and one that has fetched a header waits
for the flags and enters. A flag could change by either, so both wait for a speculative fence (R145). -/
def State.beginChain (s : State) (q : Issue) (f : Furrow) (g : Group) (i : Instr) : State × Option Instr :=
  match g.header with
  | some h =>
    if h.wait &&& ~~~f.flags = 0 then
      ({ s.onFurrow q.core q.slot (fun f => f.openClause h g) with issue := some { q with reopen := some (f.atHeader g) } }, some i)
    else (s.waitWith q g (.flags h.wait) (fun u => (u.closeClause ((u.group? g.lanes).getD g)).atHeader g), none)
  | none =>
    if f.spec.isSome && g.inst.isSome && g.leaves then (s.waitOn q g .specHold, none)
    else ({ s.onFurrow q.core q.slot (fun f => f.leaveClause g) with issue := some { q with reopen := some f } }, some i)

/-- The first word of a chain, once every word of it can be read: a clause header executes by itself; else the breakpoint test, what comes before the chain, and its first
instruction. -/
def State.firstWord (s : State) (q : Issue) (f : Furrow) (g : Group) : State × Option Instr :=
  if (s.codeOf f).2 ≤ packetOf g.pc then (s.trapIssue q (trapAt g.lanes 0x20 0 g.pc), none)
  else
    let k := g.pc.toNat / 4 % 3
    let r := State.fetchChain f (3 - k) g.pc.toNat s
    match r.2.2 with
    | some (.wait sec) => (r.1.waitTokens q g (.tokens (dieAgent f.core) [sec] false), none)
    | _ =>
    match chainHead k r.2.1 r.2.2 with
    | .error _ => (r.1.trapIssue q (trapAt g.lanes 0x20 0 g.pc), none)
    | .ok none => (r.1.fetchFault q f g (r.2.2.getD .noImm), none)
    | .ok (some i) =>
      if i.major = 1 then (r.1, some i)
      else match r.1.breakpoint f g with
        | some b => (r.1.trapIssue q (trapAt b.1 3 b.2 g.pc), none)
        | none => r.1.beginChain q f g i

/-- A later word of a chain. -/
def State.laterWord (s : State) (q : Issue) (f : Furrow) (g : Group) : State × Option Instr :=
  let k := g.pc.toNat / 4 % 3
  let r := State.fetchChain f (3 - k) g.pc.toNat s
  match prefixInstrs 3 r.2.1 with
  | .ok (i :: _) => (r.1, some i)
  | .ok [] => (match r.2.2 with
    | some (.wait sec) => r.1.waitTokens q g (.tokens (dieAgent f.core) [sec] false)
    | e => r.1.fetchFault q f g (e.getD .noImm), none)
  | .error _ => (r.1.trapIssue q (trapAt g.lanes 0x20 0 g.pc), none)

/-- The instruction of the group, held back where it would retain a 17th register (R72). -/
def State.allocate (s : State) (q : Issue) (g : Group) (i : Instr) : State × Option Instr :=
  match s.furrow? q.core q.slot with
  | none => (s, some i)
  | some f =>
    let ds := vNames i.readsWrites.2
    if f.overRetained ds then (s.waitOn q g (.retain ds (keptOf g.wait)), none) else (s, some i)

/-- What the issue register leads to next: an instruction to execute, an access under way that completes, or the state after a trap, a fault or a
group that is gone. -/
def State.prepare (s : State) (q : Issue) : State × Option Instr :=
  match s.furrow? q.core q.slot with
  | none => ({ s with issue := none }, none)
  | some f =>
    match f.group? q.lanes with
    | none => (if q.back.isSome then s.endIssue q else { s with issue := none }, none)
    | some g =>
      if q.back.isSome then
        match g.wait with
        | some (.access _ _ _ _ i) => (s, some i)
        | _ => (s.endIssue q, none)
      else
        match if q.inChain || g.midChain then s.laterWord q f g else s.firstWord q f g with
        | (s1, some i) => s1.allocate q g i
        | r => r

end Sys2Proof.Machine
end

