-- ==== Sys2Proof/Machine/Memory.lean ====
section
/-! DEFINITION. What every memory access shares: effective addresses (R236), the checks of R239, watchpoints (R333), tokens and waits
(R377, R378), the bytes a lane reads (R131, R135, R137), performing writes (R125, R137, R392), acquires and releases (R83, R139, R153). -/
namespace Sys2Proof.Machine

/-! ### Effective addresses (R236) -/

/-- Register names of operand b. -/
def Furrow.offset (f : Furrow) (b : BOp) (scl size l : Nat) : Int :=
  match b with
  | .v n => sext (f.laneOf n.val l).toNat 32 * (2 ^ scl : Nat)
  | .w n => ((f.readW n.val).toNat : Int)
  | .imm x => sext x.toNat 8 * (size : Int)

/-- ea of a lane. -/
def Furrow.effAddr (f : Furrow) (am : Bool) (a : Nat) (b : BOp) (scl size l : Nat) : Nat :=
  wrap ((((if am then f.pairOf a l else f.readW a).toNat : Nat) : Int) + f.offset b scl size l) 64

/-! ### Where an access lies (R115 to R118) -/

/-- A failed check: its place in the order of R239, its cause, the address that failed, and what a walk met. -/
structure CheckFail where
  rank : Nat
  code : Nat
  va : Nat
  busy : Bool := false
  badPte : Bool := false
  wlevel : Nat := 0
  deriving DecidableEq, Repr

/-- Place in the order of R239 of a check that cannot be made yet, for want of a token of the sector `va` that a walk reads (R372). -/
def waitRank : Nat := 40

/-- Base of the own-scratchpad window. -/
def ownBase : Nat := 0x01FFFF0000000000
/-- Base of the peer-scratchpad window. -/
def peerBase : Nat := 0x01FFFF1000000000

/-- Whether an access lies in the own window, and in the peer window, by its first byte (R115). -/
def inOwn (va : Nat) : Bool := decide (ownBase ≤ va ∧ va < ownBase + 0x80000)
def inPeer (va : Nat) : Bool := decide (peerBase ≤ va ∧ va < peerBase + 0x100000000)

/-- Member m of a field's terrace, unless it has retired (R55, R56). -/
def State.memberField (s : State) (fl : Field) (m : Nat) : Option Field :=
  if fl.tsize = 0 ∨ fl.tsize < m then none
  else s.fields.find? (fun x => x.ctx == fl.ctx && x.scheme == fl.scheme && x.reach == fl.reach && !x.service
    && x.fieldIx + fl.member == fl.fieldIx + m && x.status != .retired)

/-- The scratchpad checks of R116 in their order. -/
def State.scratchSpot (s : State) (field va size : Nat) : Except CheckFail Spot :=
  match s.field? field with
  | none => .error { rank := 33, code := 0x1A, va := va }
  | some fl =>
    if inOwn va then
      if fl.sp.size < va - ownBase + size then .error { rank := 33, code := 0x1A, va := va } else .ok (.scratch field (va - ownBase))
    else
      let off := bitsOf va 0 24
      if 0x80000 ≤ off then .error { rank := 31, code := 0x18, va := va }
      else match s.memberField fl (bitsOf va 24 8) with
        | none => .error { rank := 32, code := 0x1B, va := va }
        | some x => if x.sp.size < off + size then .error { rank := 33, code := 0x1A, va := va } else .ok (.scratch x.id off)

/-- Place in the order of R239 of a translation failure: a walk read outside the enabled ranges comes before a bad physical address. -/
def State.xlatRank (s : State) (ctx core va code : Nat) : Nat :=
  if code = 0x10 then 41
  else if code = 0x11 then 42
  else if code = 0x1C then 44
  else
    match s.ctx? ctx with
    | none => 50
    | some c =>
      if (s.tlbFind core c.tasid.toNat va).isSome then 50
      else match s.walk c va with
        | .stop .. => 43
        | .leaf _ => 50

/-- The pieces of a global access translated, or the failure that comes first. -/
def State.globalSpot (s : State) (ctx core : Nat) (k : AccessKind) (level : Nat) : List (Nat × Nat) → State × Except CheckFail (List (Nat × Nat))
  | [] => (s, .ok [])
  | (va, n) :: rest =>
    match s.translate ctx core va k level with
    | (s1, .ok pa) =>
      match s1.globalSpot ctx core k level rest with
      | (s2, .ok ps) => (s2, .ok ((pa, n) :: ps))
      | (s2, .error e) => (s2, .error e)
    | (s1, x) =>
      let e : CheckFail := match x with
        | .fail code b p w => { rank := s.xlatRank ctx core va code, code := code, va := va, busy := b, badPte := p, wlevel := w }
        | .wait sec => { rank := waitRank, code := 0, va := sec }
        | .ok _ => { rank := 99, code := 0, va := va }
      match s1.globalSpot ctx core k level rest with
      | (s2, .ok _) => (s2, .error e)
      | (s2, .error e2) => (s2, .error (if e2.rank < e.rank then e2 else e))

/-- The checks of one lane in their order (R239). -/
def State.laneSpot (s : State) (f : Furrow) (va size align : Nat) (k : AccessKind) (unsup : Spot → Bool) : State × Except CheckFail Spot :=
  if !(isGlobal va && isGlobal (va + size - 1)) && !inOwn va && !inPeer va then (s, .error { rank := 10, code := 0x18, va := va })
  else if va % align ≠ 0 then (s, .error { rank := 20, code := 0x19, va := va })
  else
    let r : State × Except CheckFail Spot :=
      if inOwn va || inPeer va then (s, s.scratchSpot f.field va size)
      else match s.globalSpot (s.ctxOf f) f.core k f.level (pagePieces va size) with
        | (s1, .ok ps) => (s1, .ok (.global ps))
        | (s1, .error e) => (s1, .error e)
    match r with
    | (s1, .ok t) => if unsup t then (s1, .error { rank := 60, code := 0x1D, va := va }) else (s1, .ok t)
    | x => x

/-- A lane's address and the outcome of its checks. -/
structure LaneAcc where
  lane : Nat
  ea : Nat
  spot : Except CheckFail Spot

/-- The checks of some lanes, each at its address. -/
def State.checkLanes (f : Furrow) (size align : Nat) (k : AccessKind) (unsup : State → Spot → Bool) (ea : Nat → Nat) :
    List Nat → State → State × List LaneAcc
  | [], s => (s, [])
  | l :: ls, s =>
    let r := s.laneSpot f (ea l) size align k (unsup s)
    let t := State.checkLanes f size align k unsup ea ls r.1
    (t.1, { lane := l, ea := ea l, spot := r.2 } :: t.2)

/-- The failure of a lane. -/
def LaneAcc.fail? (a : LaneAcc) : Option CheckFail :=
  match a.spot with
  | .error e => some e
  | .ok _ => none

/-- The place reached by a lane that passed. -/
def LaneAcc.ok? (a : LaneAcc) : Option (Nat × Nat × Spot) :=
  match a.spot with
  | .ok t => some (a.lane, a.ea, t)
  | .error _ => none

/-- The earliest check that some lane failed. -/
def firstRank (as : List LaneAcc) : Option Nat :=
  (as.filterMap LaneAcc.fail?).foldl (fun (b : Option Nat) e => match b with
    | none => some e.rank
    | some n => some (min n e.rank)) none

/-- The sectors for which checks of some lanes wait. -/
def waitSectors (as : List LaneAcc) : List Nat :=
  as.filterMap (fun a => a.fail?.bind (fun e => if e.rank = waitRank then some e.va else none))

/-- The faults of the lanes whose failure has a place in the order. -/
def faultsAt (rank : Nat) (as : List LaneAcc) : List LaneFault :=
  as.filterMap (fun a => match a.fail? with
    | some e => if e.rank = rank then
        some { lane := a.lane, code := e.code, ea := a.ea, va := e.va, busy := e.busy, badPte := e.badPte, wlevel := e.wlevel } else none
    | none => none)

/-! ### Watchpoints (R333) -/

/-- Whether an access of a kind at some bytes matches a watchpoint register. -/
def watchHit (r : W64) (va size : Nat) (k : AccessKind) : Bool :=
  let x := r.toNat
  let n := bitsOf x 57 5
  let base := bitsOf x 0 57 / 2 ^ n * 2 ^ n
  decide (n ≤ 20) && ((x.testBit 63 && !k.write) || (x.testBit 62 && (k.write || k.rmw))) && decide (base < va + size ∧ va < base + 2 ^ n)

/-- The lanes of accesses that match watchpoint register j, in a context. -/
def Ctx.watched (c : Ctx) (f : Furrow) (as : List (Nat × Nat × Spot)) (size : Nat) (k : AccessKind) (j : Nat) : Mask :=
  as.foldl (fun (m : Mask) (a : Nat × Nat × Spot) =>
    if watchHit c.wpt[Fin.ofNat 2 j] a.2.1 size k && !(laneAt f.lanes a.1).dskip then m ||| (1 <<< a.1) else m) 0

/-- The lanes of accesses that passed every check and match some watchpoint. -/
def State.watchLanes (s : State) (f : Furrow) (as : List (Nat × Nat × Spot)) (size : Nat) (k : AccessKind) : Mask :=
  if f.level ≠ 0 then 0
  else match s.ctx? (s.ctxOf f) with
    | none => 0
    | some c => c.watched f as size k 0 ||| c.watched f as size k 1

/-- The watchpoint trap of accesses that passed every check: the lanes that match the lowest matching register, and INFO. -/
def State.watchTrap (s : State) (f : Furrow) (as : List (Nat × Nat × Spot)) (size : Nat) (k : AccessKind) : Option (Mask × Nat) :=
  if f.level ≠ 0 then none
  else
    match s.ctx? (s.ctxOf f) with
    | none => none
    | some c =>
      let lanes := c.watched f as size k
      let info := if k.write || k.rmw then 2 else 0
      if lanes 0 ≠ 0 then some (lanes 0, info) else if lanes 1 ≠ 0 then some (lanes 1, info + 1) else none

/-- Fault addresses of the lanes of an access. -/
def eaTable (as : List (Nat × Nat × Spot)) : Vector (BitVec 64) 32 :=
  tableOf (fun l => match as.find? (fun a => a.1 == l) with
    | some a => BitVec.ofNat 64 a.2.1
    | none => 0)

/-- The checks of an instruction that is exact as a whole (R240): a fault or a watchpoint of some lane leaves nothing done; else `k` goes on
with the place of every lane. A check that needs a walk waits for its tokens. -/
def withSpots (s : State) (q : Issue) (f : Furrow) (g : Group) (lanes : Mask) (size align : Nat) (kind : AccessKind)
    (unsup : State → Spot → Bool) (ea : Nat → Nat) (k : State → List (Nat × Nat × Spot) → Out) : Out :=
  let r := State.checkLanes f size align kind unsup ea (lanesOf lanes) s
  match firstRank r.2 with
  | some n =>
    if n = waitRank then .next (r.1.waitTokens q g (.tokens (dieAgent f.core) (waitSectors r.2) false))
    else .next (r.1.faultIssue q f (faultsAt n r.2) kind.info g.pc true)
  | none =>
    let as := r.2.filterMap LaneAcc.ok?
    match r.1.watchTrap f as size kind with
    | some t => .next (r.1.trapIssue q { trapAt t.1 5 t.2 g.pc with eaddr := eaTable as })
    | none => k r.1 as

/-! ### Tokens an access needs -/

/-- Physical pieces of a place. -/
def Spot.pieces : Spot → List (Nat × Nat)
  | .scratch _ _ => []
  | .global ps => ps

/-- Sectors of some physical pieces, each once. -/
def pieceSectors (ps : List (Nat × Nat)) : List Nat := (ps.map (fun p => sectorsOf p.1 p.2)).flatten.dedup

/-- Sectors of some places. -/
def spotSectors (ts : List Spot) : List Nat := pieceSectors ((ts.map Spot.pieces).flatten)

/-- Those of some sectors that an agent may not yet access: peer lines need no tokens (R391). -/
def State.lacking (s : State) (agent : Nat) (write : Bool) (secs : List Nat) : List Nat :=
  secs.filter (fun sec => !s.isPeer sec && !s.mayAccess agent sec write)

/-- Requests for some sectors (R378). -/
def State.requestAll (s : State) (agent core : Nat) (write : Bool) (secs : List Nat) : State :=
  secs.foldl (fun s sec => s.request agent sec write core) s

/-- Accesses of an agent to some sectors are performed (R378, R389). -/
def State.accessed (s : State) (agent : Nat) (secs : List Nat) (wr : Bool) : State :=
  secs.foldl (fun s sec => if s.isPeer sec then s else s.accessDone agent sec wr) s

/-- Whether an own store of some lanes to one of the sectors is still to be performed (R137). -/
def Furrow.ownStore (f : Furrow) (lanes : Mask) (secs : List Nat) : Bool :=
  f.posted.any (fun p => p.lanes &&& lanes != 0 && p.writes.any (fun w => (sectorsOf w.pa w.bytes.length).any (fun x => secs.contains x)))

/-- Whether any earlier store of some lanes is still to be performed (R139, R144). -/
def Furrow.storing (f : Furrow) (lanes : Mask) : Bool := f.posted.any (fun p => p.lanes &&& lanes != 0)

/-- An access of one sector goes on when the furrow's own stores to it are performed and its die holds the tokens; else it requests them and
waits. -/
def whenHeld (s : State) (q : Issue) (f : Furrow) (g : Group) (write : Bool) (ts : List Spot) (k : State → Out) : Out :=
  let secs := spotSectors ts
  let agent := dieAgent f.core
  let lack := s.lacking agent write secs
  if f.ownStore g.lanes secs then .next (s.waitOn q g .drain)
  else if !lack.isEmpty then .next ((s.requestAll agent f.core write lack).waitTokens q g (.tokens agent (secs.filter (fun x => !s.isPeer x)) write))
  else k s

/-! ### The parts of an access (R133, R135, R378) -/

/-- Sectors of a part. -/
def Part.secs (p : Part) : List Nat := spotSectors [p.spot]

/-- A physical piece cut where sectors meet. -/
def sectorPieces (pa n : Nat) : List (Nat × Nat) :=
  (sectorsOf pa n).map (fun x => (max pa x, min (pa + n) (x + 64) - max pa x))

/-- Parts of a lane's pieces from an offset on. -/
def partsFrom (lane ea : Nat) : Nat → List (Nat × Nat) → List Part
  | _, [] => []
  | off, (pa, n) :: ps => { lane := lane, ea := ea, off := off, size := n, spot := .global [(pa, n)] } :: partsFrom lane ea (off + n) ps

/-- The parts of some lanes' accesses of a size. -/
def partsOf (size : Nat) (as : List (Nat × Nat × Spot)) : List Part :=
  (as.map (fun a => match a.2.2 with
    | .scratch fd off => [{ lane := a.1, ea := a.2.1, off := 0, size := size, spot := .scratch fd off }]
    | .global ps => partsFrom a.1 a.2.1 0 ((ps.map (fun p => sectorPieces p.1 p.2)).flatten))).flatten

/-- Whether a part can be performed: the furrow's own stores to it are, and its die holds the tokens. -/
def State.partReady (s : State) (f : Furrow) (g : Group) (write : Bool) (p : Part) : Bool :=
  let secs := p.secs
  !f.ownStore g.lanes secs && (s.lacking (dieAgent f.core) write secs).isEmpty

/-- What the group's instruction has under way: parts to come, parts performed. -/
def Group.begun (g : Group) : List Part × List Got :=
  match g.wait with
  | some (.access _ _ todo got _) => (todo, got)
  | _ => ([], [])

/-- Parts performed in order, each with what it read. -/
def performParts (perform : State → Part → State × Nat × Bool) : List Part → State → State × List Got
  | [], s => (s, [])
  | p :: ps, s =>
    let r := perform s p
    let t := performParts perform ps r.1
    (t.1, { part := p, val := r.2.1, poison := r.2.2 } :: t.2)

/-- The accesses of an instruction of active set m: the parts whose tokens are held are performed between `pre` and `done` of their sectors; while
others remain, their tokens are requested and the instruction, which has issued, waits for them, `hold` marking what it left behind at its issue;
`k` ends it with all that it read. Where it ran ahead of a speculative fence that its own reads have rolled back, nothing of it is left (R147). -/
def withParts (i : Instr) (s : State) (q : Issue) (f : Furrow) (g : Group) (m : Mask) (write : Bool) (new : List Part)
    (pre : State → State) (perform : State → Part → State × Nat × Bool) (done : State → List Nat → State) (hold : State → State)
    (k : State → List Got → Out) : Out :=
  let all := g.begun.1 ++ new
  let ready := all.filter (s.partReady f g write)
  let todo := all.filter (fun p => !s.partReady f g write p)
  let r := performParts perform ready (if ready.isEmpty then s else pre s)
  let s1 := if ready.isEmpty then r.1 else done r.1 (spotSectors (ready.map Part.spot))
  let got := g.begun.2 ++ r.2
  if f.spec.isSome && !(s1.furrow? f.core f.slot).any (fun u => u.spec.isSome) then .next (s1.endIssue q)
  else if todo.isEmpty then k s1 got
  else
    let need := ((todo.filter (fun p => !f.ownStore g.lanes p.secs)).map Part.secs).flatten.dedup
    let s2 := s1.requestAll (dieAgent f.core) f.core write (s1.lacking (dieAgent f.core) write need)
    .next ((if g.accessing then s2 else hold s2).waitAccess q g i (.access write m todo got i))

/-- What a lane read, little-endian over its parts. -/
def gotOf (got : List Got) (lane : Nat) : Nat :=
  got.foldl (fun n x => if x.part.lane = lane then n + x.val * 256 ^ x.part.off else n) 0

/-- What each lane read. -/
def gotTable (got : List Got) : Vector Nat 32 := tableOf (gotOf got)

/-! ### Bytes (R127, R131, R391) -/

/-- The bytes of a peer sector as a die reads them: its P copy, else the home's (R391). -/
def State.peerByte (s : State) (die pa : Nat) : Byte :=
  match (s.die die).peerLines.find? (fun l => l.1 == sectorOf pa) with
  | some l => l.2.2.getD (pa - sectorOf pa) 0
  | none => s.byteAt pa

/-- Bytes of a physical piece as a core's accesses reach them. -/
def State.pieceBytes (s : State) (core : Nat) (p : Nat × Nat) : List Byte :=
  if s.isPeer p.1 then (List.range p.2).map (fun j => s.peerByte (dieOf core) (p.1 + j)) else s.bytesAt p.1 p.2

/-- A place as pieces: space, field, address and the bytes that stand there for a core. -/
def State.spotPieces (s : State) (core size : Nat) (t : Spot) : List (Nat × Nat × Nat × List Byte) :=
  match t with
  | .scratch fd off => [(1, fd, off, ((s.field? fd).map (fun fl => fl.sp.bytesAt off size)).getD [])]
  | .global ps => ps.map (fun p => (0, 0, p.1, s.pieceBytes core p))

/-- Bytes of a place as a reader sees them; `whole` when the access is one unit (R135). -/
def State.spotBytes (s : State) (core : Nat) (r : Reader) (whole : Bool) (size : Nat) (t : Spot) : List Byte :=
  ((s.spotPieces core size t).map (fun p => s.seenBytes r p.1 p.2.1 p.2.2.1 (lsUnits whole p.2.2.1 p.2.2.2.length) p.2.2.2)).flatten

/-- The writes that such a read returns. -/
def State.spotWrites (s : State) (core : Nat) (r : Reader) (whole : Bool) (size : Nat) (t : Spot) : List Nat :=
  ((s.spotPieces core size t).map (fun p => s.seenWrites r p.1 p.2.1 p.2.2.1 (lsUnits whole p.2.2.1 p.2.2.2.length) p.2.2.2)).flatten

/-- The little-endian number at a place, as a reader sees it. -/
def State.spotNum (s : State) (core : Nat) (r : Reader) (whole : Bool) (size : Nat) (t : Spot) : Nat := leNat (s.spotBytes core r whole size t)

/-- A place's space, field and address. -/
def Spot.place : Spot → Nat × Nat × Nat
  | .scratch fd off => (1, fd, off)
  | .global ps => (0, 0, (ps.headD (0, 0)).1)

/-- The last writes at a place read by a party (R138). -/
def State.noteLastSpot (s : State) (p : Party) (size : Nat) (t : Spot) : State :=
  match t with
  | .scratch fd off => s.noteLast p 1 fd off size
  | .global ps => ps.foldl (fun s x => s.noteLast p 0 0 x.1 x.2) s

/-- Whether a place meets poison. -/
def State.spotPoison (s : State) (size : Nat) (t : Spot) : Bool :=
  match t with
  | .scratch fd off => ((s.field? fd).map (fun fl => fl.sp.poisoned off size)).getD false
  | .global ps => s.poisonedPieces ps

/-- The sectors of a test that a die's RDC or its L1s hold. -/
def State.heldPeers (s : State) (die : Nat) (t : Nat → Bool) : List Nat :=
  (((s.die die).peerLines.map Prod.fst) ++ ((s.cores.filter (fun c => dieOf c.ix == die)).map Core.l1).flatten).dedup.filter t

/-- P copies of some sectors leave a die's RDC and L1s (R391, R392). -/
def State.dropPeer (s : State) (die : Nat) (secs : List Nat) : State :=
  let s1 := s.onDie die (fun d => { d with peerLines := d.peerLines.filter (fun l => !secs.contains l.1) })
  secs.foldl (fun s sec => s.dropL1 (fun c => dieOf c == die) sec) s1

/-- Room for a sector in the store of a die that would hold it: a full L2 slice or RDC first evicts one of its sectors (R23, R378, R391, log 4). -/
def State.makeRoom (s : State) (die pa : Nat) : State :=
  let all := s.heldWith die pa ++ (if s.place pa = .bonded die then [] else (s.die die).peerLines.map Prod.fst)
  if all.length < s.roomFor die pa then s
  else
    let v := all.getD (Config.cacheVictim s.freeCtr % all.length) 0
    if s.isPeer v then s.dropPeer die [v] else s.giveAll v die (s.homeAgent v)

/-- A P copy filled: its page goes to the end of the page list, and a 4097th page first drops the one filled longest ago with its L1 copies
(R391). -/
def State.fillPeer (s : State) (die sec : Nat) (bs : List Byte) : State :=
  if (s.die die).peerLines.any (fun l => l.1 == sec) then s
  else
    let page := sec / 4096 * 4096
    let rest := (s.die die).peerPages.filter (fun p => p != page)
    let s1 : State := match rest with
      | p :: ps => if 4096 ≤ rest.length
          then (s.dropPeer die (s.heldPeers die (fun x => x / 4096 * 4096 == p))).onDie die (fun d => { d with peerPages := ps })
          else s.onDie die (fun d => { d with peerPages := rest })
      | [] => s.onDie die (fun d => { d with peerPages := rest })
    (s1.makeRoom die sec).onDie die (fun d => { d with peerPages := d.peerPages ++ [page], peerLines := d.peerLines ++ [(sec, s.order, bs)] })

/-- Sectors the L1 of 192 KiB holds (R125). -/
def l1Room : Nat := 3072

/-- A sector put into a core's L1; a full L1 first evicts one of its sectors (R83, R125, R146, log 4). -/
def State.fillL1 (s : State) (core sec : Nat) : State :=
  let held := (s.core core).l1
  if held.contains sec then s
  else
    let s1 := if held.length < l1Room then s
      else s.dropL1 (fun c => c == core) (held.getD (Config.cacheVictim s.freeCtr % held.length) 0)
    s1.onCore core (fun c => { c with l1 := setInsert c.l1 sec })

/-- What a load leaves behind: P copies of peer sectors, L1 copies unless it is volatile (R125, R244). -/
def State.afterLoad (s : State) (core : Nat) (l1 : Bool) (secs : List Nat) : State :=
  let s1 := secs.foldl (fun s sec => if s.isPeer sec then s.fillPeer (dieOf core) sec (s.bytesAt sec 64) else s) s
  if l1 then secs.foldl (fun s sec => s.fillL1 core sec) s1 else s1

/-! ### Performing writes -/

/-- A write of bytes in physical memory for a core, performed; `vpage` is the virtual page written. -/
def State.putGlobal (s : State) (o : Origin) (core vpage pa : Nat) (us : List (Nat × Nat)) (bs : List Byte) : State :=
  let s1 := s.noteWrite o 0 0 pa us (s.bytesAt pa bs.length)
  let s2 := if s.isPeer pa then s1.dropPeer (dieOf core) (sectorsOf pa bs.length) else s1
  s2.performWrite pa bs (some (core, vpage))

/-- A write of bytes in a scratchpad. -/
def State.putScratch (s : State) (o : Origin) (field off : Nat) (us : List (Nat × Nat)) (bs : List Byte) : State :=
  let old := ((s.field? field).map (fun fl => fl.sp.bytesAt off bs.length)).getD []
  (s.noteWrite o 1 field off us old).writeScratch field off bs

/-- A plain store of a scratchpad, by its units: one that comes under another in coherence order leaves the bytes that stand (R137, R140). -/
def State.storeScratch (s : State) (o : Origin) (field off : Nat) (us : List (Nat × Nat)) (bs : List Byte) : State :=
  us.foldl (fun (s : State) u =>
    let x := (bs.drop (u.1 - off)).take u.2
    match s.underWrite o 1 field u.1 u.2 with
    | some w => s.noteUnder o w x
    | none => s.putScratch o field u.1 [u] x) s

/-- The origin of a lane's write by the instruction numbered op: a furrow of several groups is on diverged paths (R142). -/
def Furrow.origin (f : Furrow) (op lane : Nat) (diverged : Bool) : Origin := { by_ := f.party (1 <<< lane), op := op, diverged := diverged }

/-- The origin of a lane's write by a posted store. -/
def Furrow.storeOrigin (f : Furrow) (op : Nat) (p : Posted) (lane : Nat) : Origin := { f.origin op lane (inMask p.diverged lane) with rel := p.rel }

/-- Writes in order, each performed once its die holds every token of its sectors and no earlier write to them waits; those that remain,
their sectors, and the sectors written. -/
def State.performWrites (f : Furrow) (op : Nat) (p : Posted) : List PostWrite → List Nat → State → State × List PostWrite × List Nat × List Nat
  | [], blocked, s => (s, [], blocked, [])
  | w :: ws, blocked, s =>
    let secs := sectorsOf w.pa w.bytes.length
    if secs.all (fun x => !blocked.contains x) && (s.lacking (dieAgent f.core) true secs).isEmpty then
      let r := State.performWrites f op p ws blocked
        (s.putGlobal (f.storeOrigin op p w.lane) f.core w.vpage w.pa (lsUnits w.unit w.pa w.bytes.length) w.bytes)
      (r.1, r.2.1, r.2.2.1, secs ++ r.2.2.2)
    else
      let r := State.performWrites f op p ws (secs ++ blocked) s
      (r.1, w :: r.2.1, r.2.2)

/-- The posted stores of a furrow performed as far as tokens allow, in order; the lane sequence of one store is one access of a sector
(R378). -/
def State.performList (f : Furrow) : List Posted → List Nat → State → State × List Posted
  | [], _, s => (s, [])
  | p :: ps, blocked, s =>
    let r := State.performWrites f (s.order + 1) p p.writes blocked s
    let t := State.performList f ps r.2.2.1 (r.1.accessed (dieAgent f.core) r.2.2.2.dedup true)
    (t.1, if r.2.1.isEmpty then t.2 else { p with writes := r.2.1 } :: t.2)

/-- Posted stores of the furrow in a slot performed as far as tokens allow; completed clause instances settle (R168). -/
def State.performPosted (s : State) (core slot : Nat) : State :=
  match s.furrow? core slot with
  | none => s
  | some f =>
    if f.posted.isEmpty then s
    else
      let r := State.performList f f.posted [] s
      r.1.onFurrow core slot (fun f => ({ f with posted := r.2 } : Furrow).settleClauses)

/-- Whether a furrow is on diverged paths: it has more than one PC group (R142). -/
def Furrow.isDiverged (f : Furrow) : Bool := decide (1 < f.groups.length)

/-- A store of the issuing group: performed, or posted with requests for the tokens it lacks. -/
def State.storeWrites (s : State) (f : Furrow) (g : Group) (rel : Nat) (ws : List PostWrite) : State :=
  if ws.isEmpty then s
  else
    let agent := dieAgent f.core
    let secs := pieceSectors (ws.map (fun w => (w.pa, w.bytes.length)))
    let pages := ws.map PostWrite.vpage
    let s1 := s.killLoads (fun c => c == f.core) (fun e => pages.contains e.region)
    let s2 := s1.onFurrow f.core f.slot (fun f => { f with posted := f.posted ++
      [{ lanes := g.lanes, level := g.level, writes := ws, rel := rel, diverged := if f.isDiverged then g.lanes else 0, clauseInst := g.inst }] })
    let s3 := s2.performPosted f.core f.slot
    s3.requestAll agent f.core true (s3.lacking agent true secs)

/-- The writes of a lane's bytes at physical pieces, each in one sector. An access that crosses sectors is atomic by the byte only (R135). -/
def pieceWrites (lane : Nat) (unit : Bool) (ea : Nat) : List (Nat × Nat) → List Byte → List PostWrite
  | [], _ => []
  | (pa, n) :: ps, bs =>
    (sectorPieces pa n).map (fun p =>
      { pa := p.1, vpage := ea / 4096 * 4096, bytes := (bs.drop (p.1 - pa)).take p.2, lane := lane, unit := unit })
      ++ pieceWrites lane unit (ea + n) ps (bs.drop n)

/-- The stores of lanes in ascending order (R136, R246): scratchpad bytes at once, memory bytes as one posted store. -/
def State.storeLanes (s : State) (f : Furrow) (g : Group) (rel : Nat) (as : List (Nat × Nat × Spot)) (data : Nat → List Byte) : State :=
  let op := s.order + 1
  let unit := fun (a : Nat × Nat × Spot) => decide (a.2.1 % (data a.1).length = 0)
  let alone := fun (fd off n : Nat) => decide ((as.filter (fun b => match b.2.2 with
    | .scratch fe o => fe == fd && decide (o < off + n ∧ off < o + n)
    | .global _ => false)).length ≤ 1)
  let s1 := as.foldl (fun (s : State) a => match a.2.2 with
    | .scratch fd off => s.storeScratch { f.origin op a.1 f.isDiverged with plain := alone fd off (data a.1).length, rel := rel } fd off (lsUnits (unit a) off (data a.1).length) (data a.1)
    | .global _ => s) s
  s1.storeWrites f g rel ((as.map (fun a => match a.2.2 with
    | .scratch _ _ => []
    | .global ps => pieceWrites a.1 (unit a) a.2.1 ps (data a.1))).flatten)

/-! ### Acquires and fences (R83, R153) -/

/-- Whether a scope is `.core` or wider. -/
def Scope.atCore (c : Scope) : Bool := decide (2 ≤ c.code)

/-- Whether a scope is `.pod` or `.sys`. -/
def Scope.atPod (c : Scope) : Bool := decide (6 ≤ c.code)

/-- The load reuse entries of a quarter die at an acquire or fence of `.core` scope or wider (R83). -/
def State.forgetLoads (s : State) (core slot : Nat) : State := s.onCore core (fun c => c.killQuarter (quarterOf slot) (fun _ => true))

/-- Every peer-package line leaves a die (R153, R391). -/
def State.dropPeers (s : State) (die : Nat) : State :=
  (s.dropPeer die (s.heldPeers die s.isPeer)).onDie die (fun d => { d with peerPages := [] })

/-- What an acquire or fence of a scope does besides ordering. -/
def State.acquire (s : State) (f : Furrow) (acq : Bool) (c : Scope) : State :=
  let s1 := if acq && Scope.atPod c then s.dropPeers (dieOf f.core) else s
  if Scope.atCore c then s1.forgetLoads f.core f.slot else s1

end Sys2Proof.Machine
end

