-- ==== Sys2Proof/Machine/Loads.lean ====
section
/-! DEFINITION. Loads, uniform loads and stores, gathers and scatters: majors 0x16, 0x17 and 0x18 (R238 to R248). -/
namespace Sys2Proof.Machine

/-- The furrow of an issue as the state now holds it. -/
def State.again (s : State) (f : Furrow) : Furrow := (s.furrow? f.core f.slot).getD f

/-- Bytes of a lane's memory operand (R238). -/
def memBytes (x : LM) : Nat := memWidth x.ty x.x2 / 8

/-- Effective addresses of an access (R236). -/
def Furrow.eaOf (f : Furrow) (x : LM) : Nat → Nat := f.effAddr x.am x.a.val x.b x.scl.val (memBytes x)

/-- A loaded value of fewer than 64 bits as its lane holds it (R238). -/
def laneHeld (t : Ty) (x : Nat) : Nat := if t.isSigned then wrap (sext x t.width) 32 else x

/-- Loaded values written in the lanes of a mask: a lane, a pair or a quadruple (R238). -/
def Furrow.writeLoad (f : Furrow) (t : Ty) (x2 : Bool) (d : Nat) (m : Mask) (x : Nat → Nat) : Furrow :=
  if x2 then (List.range 4).foldl (fun f k => f.writeV (d + k) m (fun i => BitVec.ofNat 32 (bitsOf (x i) (32 * k) 32))) f
  else if t.width = 64 then f.writePair d m (fun i => BitVec.ofNat 64 (x i))
  else f.writeV d m (fun i => BitVec.ofNat 32 (laneHeld t (x i)))

/-- The memory-error trap of the lanes that read poison (R241). -/
def poisonTrap (bad : List (Nat × Nat × Spot)) (info : Nat) (pc : BitVec 24) : TrapReq :=
  { trapAt (maskOf (fun l => bad.any (fun a => a.1 == l))) 0x1C info pc with eaddr := eaTable bad }

/-- Places of some accesses. -/
def spotsOf (as : List (Nat × Nat × Spot)) : List Spot := as.map (fun a => a.2.2)

/-- Whether every place is global. -/
def allGlobal (as : List (Nat × Nat × Spot)) : Bool :=
  as.all (fun a => match a.2.2 with
    | .global _ => true
    | .scratch _ _ => false)

/-- What R82 asks of the places of a load before it may make a reuse entry: its region and sectors. -/
def reuseRegion (ps : List Part) : Option (Nat × List Nat) :=
  let at_ := fun (p : Part) => p.ea + p.off
  let region := (ps.map (fun p => at_ p / 4096 * 4096)).headD 0
  let secs := spotSectors (ps.map Part.spot)
  if ps.all (fun p => (match p.spot with
      | .global _ => true
      | .scratch _ _ => false) && at_ p / 4096 * 4096 == region && (at_ p + p.size - 1) / 4096 * 4096 == region)
    && decide (secs.length ≤ 4) then some (region, secs) else none

/-- Whether a load may run ahead of the furrow's speculative fence (R145, R146): global lines homed here or on a host, and room in the
read set. -/
def State.loadAhead (s : State) (f : Furrow) (as : List (Nat × Nat × Spot)) : Bool :=
  match f.spec with
  | none => true
  | some sf =>
    let secs := spotSectors (spotsOf as)
    allGlobal as && secs.all (fun x => !s.isPeer x) && decide ((secs.foldl setInsert sf.readSet).length ≤ 64)

/-- The sectors read join the read set of a speculative fence that runs ahead (R146). -/
def Furrow.noteRead (f : Furrow) (secs : List Nat) : Furrow :=
  { f with spec := f.spec.map (fun sf => { sf with readSet := secs.foldl setInsert sf.readSet }) }

/-- Reads of class LS performed: the sectors are held and kept in the caches. -/
def State.readsDone (s : State) (f : Furrow) (l1 : Bool) (secs : List Nat) : State :=
  ((s.afterLoad f.core l1 secs).accessed (dieAgent f.core) secs false).tickFree

/-- A part of a load of n bytes a lane performed: what the lane sees, an aligned access in one unit (R131, R135). -/
def State.readPart (f : Furrow) (n : Nat) (s : State) (p : Part) : State × Nat × Bool :=
  let r := s.laneReader f p.lane
  let whole := decide (p.ea % n = 0)
  (s.noteReads r.party (s.spotWrites f.core r whole p.size p.spot), s.spotNum f.core r whole p.size p.spot, s.spotPoison p.size p.spot)

/-- What follows parts of a load: the caches, and the read set of a fence that the furrow runs ahead of. -/
def State.partsRead (f : Furrow) (l1 : Bool) (s : State) (secs : List Nat) : State :=
  (s.readsDone f l1 secs).onFurrow f.core f.slot (fun f => f.noteRead secs)

/-- The acquire of a load or atomic that has one, before it reads. -/
def State.acquiring (f : Furrow) (acq : Option Scope) (s : State) : State :=
  match acq with
  | some c => s.acquire f true c
  | none => s

/-- What an acquire orders after it (R139): the later reads of some lanes. -/
def State.synced (s : State) (f : Furrow) (m : Mask) (acq : Option Scope) : State :=
  match acq with
  | some c => s.sync f m false true c
  | none => s

/-- Lanes that read poison, each with its address. -/
def poisonLanes (got : List Got) : List (Nat × Nat × Spot) := (got.filter Got.poison).map (fun x => (x.part.lane, x.part.ea, x.part.spot))

/-- R82 at a load's completion: what it read is what now stands at its sectors, and every one of them is in the core's L1. -/
def State.reusable (s : State) (f : Furrow) (got : List Got) : Option (Nat × List Nat) :=
  (reuseRegion (got.map Got.part)).filter (fun r => r.2.all (fun x => (s.core f.core).l1.contains x)
    && got.all (fun x => x.val == leNat ((s.spotPieces f.core x.part.size x.part.spot).map (fun p => p.2.2.2)).flatten))

/-- A reuse hit of a load makes no access (R80): its lanes take what the last writes of their bytes left. -/
def State.hitRead (s : State) (f : Furrow) (n : Nat) (as : List (Nat × Nat × Spot)) : State :=
  (as.foldl (fun s a => s.noteLastSpot (f.party (1 <<< a.1)) n a.2.2) s).onFurrow f.core f.slot (fun f => f.noteRead (spotSectors (spotsOf as)))

/-- R243: a load of each lane; `acq` is the scope of a load-acquire. -/
def loadLanes (i : Instr) (x : LM) (acq : Option Scope) (s : State) : Out :=
  running i s (fun q f g =>
    let m := f.activeSet i g
    if m = 0 then s.skip i q g
    else
      let n := memBytes x
      let plain := acq.isNone && !x.vol
      withSpots s q f g (if g.accessing then 0 else m) n 1 {} (fun _ _ => false) (f.eaOf x) (fun s as =>
        let load := if plain then reuseRegion (partsOf n as) else none
        if !s.loadAhead f as then .next (s.waitOn q g .specHold)
        else if !g.accessing && load.isSome && (s.lookup i f g m true).any (fun k => k.hit.isSome) then
          (s.hitRead f n as).doneWith i q (s.again f) g m 0 load
        else withParts i s q f g m false (partsOf n as) (State.acquiring f acq) (State.readPart f n) (State.partsRead f (!x.vol))
          (fun s => s.startFilling i f g m load) (fun s got =>
          let bad := poisonLanes got
          if !bad.isEmpty then trapWith s q (poisonTrap bad 0 g.pc)
          else (s.synced f m acq).doneWith i q ((s.synced f m acq).again f |>.writeLoad x.ty x.x2 x.d.val m (laneAt (gotTable got))) g m 0
            (if plain then s.reusable f got else none))))

/-- R243: one load for the group, into a `w` register; its event belongs to the lowest lane of A. -/
def loadUniform (i : Instr) (x : LM) (acq : Option Scope) (s : State) : Out :=
  running i s (fun q f g =>
    let m := f.activeSet i g
    if m = 0 then s.skip i q g
    else
      let n := memBytes x
      withSpots s q f g (if g.accessing then 0 else m) n 1 {} (fun _ _ => false) (f.eaOf x) (fun s as =>
        withParts i s q f g m false (partsOf n (as.take 1)) (State.acquiring f acq) (State.readPart f n) (State.partsRead f (!x.vol)) id (fun s got =>
          match poisonLanes got with
          | a :: _ => trapWith s q (poisonTrap ((lanesOf m).map (fun l => (l, a.2))) 0 g.pc)
          | [] =>
            let v := gotOf got (lowestLane m)
            let s1 := s.synced f (1 <<< lowestLane m) acq
            s1.done i q ((s1.again f).writeW x.d.val
              (if x.ty.isSigned then BitVec.ofInt 64 (sext v x.ty.width) else BitVec.ofNat 64 v)) g 0 0)))

/-- R243: a load. -/
def execLd (f : LM) (s : State) : Out := loadLanes (.ld f) f none s
/-- R243: a load-acquire. -/
def execLdAcq (f : LM) (s : State) : Out := loadLanes (.ldAcq f) f (some f.scope) s
/-- R243: a uniform load. -/
def execLdw (f : LM) (s : State) : Out := loadUniform (.ldw f) f none s
/-- R243: a uniform load-acquire. -/
def execLdwAcq (f : LM) (s : State) : Out := loadUniform (.ldwAcq f) f (some f.scope) s

/-! ### Stores -/

/-- The bytes that a lane stores (R238). -/
def Furrow.storeData (f : Furrow) (x : LM) (l : Nat) : List Byte :=
  leBytes (memBytes x) (if x.x2 then (f.pairOf (x.c3.val + 2) l ++ f.pairOf x.c3.val l).toNat
    else if x.ty.width = 64 then (f.pairOf x.c3.val l).toNat else (f.laneOf x.c3.val l).toNat)

/-- A release makes what some lanes have written visible at its scope (R139). -/
def State.releasing (s : State) (f : Furrow) (m : Mask) (rel : Bool) (c : Scope) : State := if rel then s.sync f m true false c else s

/-- R246: a store of each lane; a release first waits for the group's earlier stores (R139). -/
def storeLane (i : Instr) (x : LM) (rel : Bool) (s : State) : Out :=
  running i s (fun q f g =>
    let m := f.activeSet i g
    if m = 0 then s.skip i q g
    else
      let n := memBytes x
      withSpots s q f g m n 1 { write := true } (fun _ _ => false) (f.eaOf x) (fun s as =>
        if rel && f.storing g.lanes then .next (s.waitOn q g .drain)
        else ((s.releasing f m rel x.scope).storeLanes f g (if rel then x.scope.code else 0) as (f.storeData x)).skip i q g))

/-- R246: one store for the group from a `w` register; its event belongs to the lowest lane of A. -/
def storeUniform (i : Instr) (x : LM) (rel : Bool) (s : State) : Out :=
  running i s (fun q f g =>
    let m := f.activeSet i g
    if m = 0 then s.skip i q g
    else
      let n := memBytes x
      withSpots s q f g m n 1 { write := true } (fun _ _ => false) (f.eaOf x) (fun s as =>
        if rel && f.storing g.lanes then .next (s.waitOn q g .drain)
        else ((s.releasing f (1 <<< lowestLane m) rel x.scope).storeLanes f g (if rel then x.scope.code else 0) (as.take 1) (fun _ => leBytes n (f.readW x.c3.val).toNat)).skip i q g))

/-- R246: a store. -/
def execSt (f : LM) (s : State) : Out := storeLane (.st f) f false s
/-- R246: a store-release. -/
def execStRel (f : LM) (s : State) : Out := storeLane (.stRel f) f true s
/-- R246: a uniform store. -/
def execStw (f : LM) (s : State) : Out := storeUniform (.stw f) f false s
/-- R246: a uniform store-release. -/
def execStwRel (f : LM) (s : State) : Out := storeUniform (.stwRel f) f true s

/-! ### Gathers and scatters (R248) -/

/-- What stops some lanes of a gather or scatter: the failed checks that come first, or a watchpoint (R248, R333). -/
inductive Stop
  | none
  | faults (l : List LaneFault)
  | trap (r : TrapReq)

/-- The lanes of a gather or scatter that are performed, and what stops others: a lane that matches a watchpoint is a lane with a check that
comes after those of R239. -/
def State.laneSplit (s : State) (f : Furrow) (g : Group) (as : List LaneAcc) (size : Nat) (k : AccessKind) : List (Nat × Nat × Spot) × Stop :=
  let ok := as.filterMap LaneAcc.ok?
  let w := s.watchLanes f ok size k
  (ok.filter (fun a => !inMask w a.1),
    match firstRank as with
    | some n => .faults (faultsAt n as)
    | none => match s.watchTrap f ok size k with
      | some t => .trap { trapAt t.1 5 t.2 g.pc with eaddr := eaTable ok }
      | none => .none)

/-- The lanes of an access. -/
def accLanes (as : List (Nat × Nat × Spot)) : Mask := maskOf (fun l => as.any (fun a => a.1 == l))

/-- A group parted by a gather or scatter some of whose lanes are stopped: the performed lanes at the next word of their chain, the others at the
instruction (R248). Lanes whose guard is false stay there too (DEDUCED, log 42). -/
def State.splitOff (s : State) (i : Instr) (q : Issue) (f : Furrow) (g : Group) (done : Mask) : State :=
  let f1 := ((s.again f).onLanes done (fun _ l => { l with dskip := false })).regroup { g with wait := none }
    (s.poolFree q.core (quarterOf q.slot)) (fun l => if inMask done l then nextPc g.pc i.words else g.pc)
  s.setFurrow { f1 with
    groups := f1.groups.map (fun (h : Group) => if h.level == g.level && h.lanes == done then { h.retire false with midChain := i.chained } else h) }

/-- The stopped lanes of a gather or scatter trap or wait at the instruction. -/
def State.stopLanes (s : State) (q : Issue) (f : Furrow) (g : Group) (info : Nat) (t : Stop) : State :=
  match t with
  | .none => s.endIssue q
  | .faults l => s.faultIssue q (s.again f) l info g.pc true
  | .trap r => s.trapIssue q r

/-- A gather that has read everything its performed lanes name: their destinations are written; the lanes that read poison stay and, unless other
lanes are stopped, trap (R241, R248). -/
def gatherDone (x : LM) (q : Issue) (f : Furrow) (g : Group) (m : Mask) (stopped : Bool) (s : State) (got : List Got) : Out :=
  let bad := poisonLanes got
  let d := m &&& ~~~(accLanes bad)
  let f1 := (s.again f).writeLoad x.ty x.x2 x.d.val d (laneAt (gotTable got))
  if bad.isEmpty then s.done (.gth x) q f1 g m 0
  else
    let s1 := (s.wrote (.gth x) q f1 g d 0 none).1.splitOff (.gth x) q f1 g d
    .next (if stopped then s1.endIssue q else s1.trapIssue { q with lanes := g.lanes &&& ~~~d } (poisonTrap bad 0 g.pc))

/-- The reads of the performed lanes m of a gather. -/
def gatherReads (x : LM) (q : Issue) (f : Furrow) (g : Group) (m : Mask) (stopped : Bool) (as : List (Nat × Nat × Spot)) (s : State) : Out :=
  withParts (.gth x) s q f g m false (partsOf (memBytes x) as) id (State.readPart f (memBytes x)) (State.partsRead f (!x.vol)) id
    (gatherDone x q f g m stopped)

/-- R247, R248: a gather. Performed lanes whose data are still to come are a group of their own; the stopped lanes trap beside it. An earlier
store-release of the group is performed and visible first (R265). -/
def execGth (f : LM) (s : State) : Out :=
  running (.gth f) s (fun q u g =>
    let m := u.activeSet (.gth f) g
    if m = 0 then s.skip (.gth f) q g
    else if g.accessing then gatherReads f q u g m false [] s
    else if u.posted.any (fun p => p.rel != 0 && p.lanes &&& g.lanes != 0) then .next (s.waitOn q g .drain)
    else
      let n := memBytes f
      let c := State.checkLanes u n 1 {} (fun _ _ => false) (u.eaOf f) (lanesOf m) (s.publishReleases (u.party g.lanes))
      let sp := c.1.laneSplit u g c.2 n {}
      if !(waitSectors c.2).isEmpty then .next (c.1.waitTokens q g (.tokens (dieAgent u.core) (waitSectors c.2) false))
      else match sp.2 with
      | .none => gatherReads f q u g m false sp.1 c.1
      | t =>
        let d := accLanes sp.1
        if d = 0 then .next (c.1.stopLanes q u g 0 t)
        else
          let s1 := (c.1.splitOff (.gth f) q u g d).onFurrow q.core q.slot (fun v => v.onGroup d (fun h => { h with pc := g.pc, midChain := false }))
          let q1 := { q with lanes := d, back := some u.level, second := none, deferred := none }
          match ((s1.again u).group? d).map (fun h => gatherReads f q1 (s1.again u) h d true sp.1 s1) with
          | some (.next s2) => .next (s2.stopLanes q u g 0 t)
          | some o => o
          | none => .next (s1.stopLanes q u g 0 t))

/-- R247, R248: a scatter. -/
def execSct (f : LM) (s : State) : Out :=
  running (.sct f) s (fun q u g =>
    let m := u.activeSet (.sct f) g
    if m = 0 then s.skip (.sct f) q g
    else
      let n := memBytes f
      let c := State.checkLanes u n 1 { write := true } (fun _ _ => false) (u.eaOf f) (lanesOf m) s
      let sp := c.1.laneSplit u g c.2 n { write := true }
      if !(waitSectors c.2).isEmpty then .next (c.1.waitTokens q g (.tokens (dieAgent u.core) (waitSectors c.2) false))
      else
      let s1 := c.1.storeLanes u g 0 sp.1 (u.storeData f)
      let d := accLanes sp.1
      match sp.2 with
      | .none => s1.skip (.sct f) q g
      | t => .next ((if d = 0 then s1 else s1.splitOff (.sct f) q u g d).stopLanes q u g 1 t))

end Sys2Proof.Machine
end

