-- ==== Sys2Proof/Machine/Atomics.lean ====
section
/-! DEFINITION. Atomics: major 0x19 (R249 to R254, R136, R138, R241). -/
namespace Sys2Proof.Machine

/-- Whether an atomic's location does not support it (R253): 64-bit operations on a scratchpad, `fadd` in peer-package memory. -/
def atomUnsupported (wide fadd : Bool) (s : State) (t : Spot) : Bool :=
  match t with
  | .scratch _ _ => wide
  | .global ps => fadd && ps.any (fun p => s.isPeer p.1)

/-- The bytes that stand at an atomic's location, the home's where it is a peer package's (R252). -/
def State.homeBytes (s : State) (size : Nat) (t : Spot) : List Byte :=
  match t with
  | .scratch fd off => ((s.field? fd).map (fun fl => fl.sp.bytesAt off size)).getD []
  | .global ps => (ps.map (fun p => s.bytesAt p.1 p.2)).flatten

/-- Bytes written at a lane's location at once, as one unit. -/
def State.putSpot (s : State) (f : Furrow) (op lane ea : Nat) (t : Spot) (bs : List Byte) : State :=
  let o := f.origin op lane f.isDiverged
  match t with
  | .scratch fd off => s.putScratch o fd off [(off, bs.length)] bs
  | .global ps => (pieceWrites lane true ea ps bs).foldl (fun s w => s.putGlobal o f.core w.vpage w.pa [(w.pa, w.bytes.length)] w.bytes) s

/-- One lane's read-modify-write of the last write of its bytes (R136, R138); a poisoned location is left as it is (R241). -/
def State.atomicPart (f : Furrow) (op size : Nat) (new : Nat → Nat → Nat) (s : State) (p : Part) : State × Nat × Bool :=
  if s.spotPoison size p.spot then (s, 0, true)
  else
    let old := leNat (s.homeBytes size p.spot)
    ((s.noteLastSpot (f.party (1 <<< p.lane)) size p.spot).putSpot f op p.lane p.ea p.spot (leBytes size (new p.lane old)), old, false)

/-- An atomic (R250): `op` gives the new value from the old one and the lane's operand and second operand. -/
def atomic (i : Instr) (x : LA) (fadd : Bool) (op : Nat → Nat → Nat → Nat) (s : State) : Out :=
  running i s (fun q f g =>
    let m := f.activeSet i g
    if m = 0 then s.skip i q g
    else
      let n := x.ty.width / 8
      let acq := if x.ord = 1 ∨ x.ord = 3 then some x.scope else none
      withSpots s q f g (if g.accessing then 0 else m) n n { rmw := true } (atomUnsupported (x.ty.width == 64) fadd) (f.effAddr x.am x.a.val x.b 0 n)
        (fun s as =>
        if 2 ≤ x.ord.val ∧ !g.accessing ∧ f.storing g.lanes then .next (s.waitOn q g .drain)
        else
          let new := fun l old => op old (f.laneBits x.ty x.c3.val l) (f.laneBits x.ty (x.c3.val + x.ty.width / 32) l)
          withParts i (s.releasing f m (!g.accessing && decide (2 ≤ x.ord.val)) x.scope) q f g m true (partsOf n as) (State.acquiring f acq)
            (State.atomicPart f (s.order + 1) n new) (fun s secs => (s.accessed (dieAgent f.core) secs true).tickFree) id (fun s0 got =>
            let s1 := s0.synced f m acq
            let bad := poisonLanes got
            let d := m &&& ~~~(accLanes bad)
            let f1 := (s1.again f).writeLanes x.ty x.d.val d (laneAt (gotTable got))
            if bad.isEmpty then s1.done i q f1 g m 0
            else
              let pc := nextPc g.pc i.words
              let s2 := (s1.wrote i q f1 g d 0 none).1.onFurrow f.core f.slot (fun f =>
                (f.onGroup g.lanes (fun g => { g.retire false with pc := pc })).onLanes g.lanes (fun _ l => { l with dskip := false }))
              trapWith s2 q { poisonTrap bad 2 pc with late := true })))

/-- An integer result of the atomic's width. -/
def atomInt (t : Ty) (op : Int → Int → Int) (old b : Nat) : Nat := wrap (op (intOf t old) (intOf t b)) t.width

/-- R250: the sum. -/
def execAtomAdd (f : LA) (s : State) : Out := atomic (.atomAdd f) f false (fun old b _ => atomInt f.ty (· + ·) old b) s
/-- R250: the smaller. -/
def execAtomMin (f : LA) (s : State) : Out := atomic (.atomMin f) f false (fun old b _ => atomInt f.ty min old b) s
/-- R250: the larger. -/
def execAtomMax (f : LA) (s : State) : Out := atomic (.atomMax f) f false (fun old b _ => atomInt f.ty max old b) s
/-- R250: bitwise and. -/
def execAtomAnd (f : LA) (s : State) : Out := atomic (.atomAnd f) f false (fun old b _ => old &&& b) s
/-- R250: bitwise or. -/
def execAtomOr (f : LA) (s : State) : Out := atomic (.atomOr f) f false (fun old b _ => old ||| b) s
/-- R250: bitwise exclusive or. -/
def execAtomXor (f : LA) (s : State) : Out := atomic (.atomXor f) f false (fun old b _ => old ^^^ b) s
/-- R250: exchange. -/
def execAtomExch (f : LA) (s : State) : Out := atomic (.atomExch f) f false (fun _ b _ => b) s
/-- R250: compare and swap; a failed one writes the old value back. -/
def execAtomCas (f : LA) (s : State) : Out := atomic (.atomCas f) f false (fun old b c => if old = b then c else old) s
/-- R251: the sum rounded to nearest even, subnormals kept, `FPENV` ignored. -/
def execAtomFadd (f : LA) (s : State) : Out :=
  atomic (.atomFadd f) f true (fun old b _ => (finish (addNum (decodeNum f.ty old) (decodeNum f.ty b) .rne) f.ty .rne false).1) s

end Sys2Proof.Machine
end

