-- ==== Sys2Proof/Machine/Placement.lean ====
section
/-! DEFINITION. Placing fields: what fits on a core (R17, R43, R70, R399), image slots in the save area (R409, R410), furrow images (R411,
R412) and how a field becomes resident (R43, R44, R412). -/
namespace Sys2Proof.Machine

/-! ### What a core has left (R17, R18, R43, R70) -/

/-- Furrows of a kernel's field (R29). -/
def Kernel.furrows (k : Kernel) : Nat := ceilDiv k.threads 32

/-- Bytes rounded up to a multiple of 4 KiB. -/
def page4k (n : Nat) : Nat := ceilDiv n 4096 * 4096

/-- Fields that hold room on a core. -/
def State.fieldsOn (s : State) (core : Nat) : List Field :=
  s.fields.filter (fun f => f.core == core && f.placedAt != 0 && f.status != .retired)

/-- Free slots of a quarter for a field, in ascending order: on a service core every quarter's first slot is the service fields'. -/
def State.freeSlots (s : State) (core quarter : Nat) (service : Bool) : List Nat :=
  ((List.range 16).map (fun j => 16 * quarter + j)).filter (fun x =>
    (s.furrow? core x).isNone && (if service then x % 16 == 0 else !(isServiceCore core && x % 16 == 0)))

/-- Free slots of a core for user fields. -/
def State.freeCount (s : State) (core : Nat) : Nat := ((List.range 4).map (fun q => (s.freeSlots core q false).length)).sum

/-- The quarter offset b that the headworks chooses (R399): the quarter with the most free slots, the lower on a tie. -/
def State.offsetFor (s : State) (core : Nat) (service : Bool) : Nat :=
  (bestBy (fun a b => decide ((s.freeSlots core b service).length < (s.freeSlots core a service).length)) (List.range 4)).getD 0

/-- Furrows of n that fall in a quarter under an offset (R43). -/
def shareOf (n b quarter : Nat) : Nat := ((List.range n).filter (fun k => (k + b) % 4 == quarter)).length

/-- Whether furrows, registers and rights of a field fit in each quarter (R43, R70). -/
def State.quartersFit (s : State) (core b : Nat) (fl : Field) : Bool :=
  (List.range 4).all (fun q =>
    let n := shareOf fl.fcount b q
    let rights := ((s.fieldsOn core).map (fun f => f.rightsIn q)).sum + ({ fl with qoff := b } : Field).rightsIn q
    decide (n ≤ (s.freeSlots core q fl.service).length) && decide (64 * ((s.quarterFurrows core q).length + n) + 80 * rights ≤ 1024))

/-- Whether the allocations of a field fit beside those on a core (R17, R122, R128, R129). -/
def State.storesFit (s : State) (core : Nat) (fl : Field) : Bool :=
  let on := s.fieldsOn core
  let used := fun (t : Field → Bool) => ((on.filter t).map (fun f => page4k f.kernel.scratch)).sum
  let cap := if fl.service then 0x10000 else if isServiceCore core then 0x70000 else 0x80000
  decide (used (fun f => f.service == fl.service) + page4k fl.kernel.scratch ≤ cap)
    && decide ((on.map (fun f => f.kernel.tiles)).sum + fl.kernel.tiles ≤ 0x40000)
    && decide ((on.map (fun f => f.kernel.bslice)).sum + fl.kernel.bslice ≤ 0x10000)

/-! ### Image slots (R409, R410) -/

/-- Bytes of a field's image. -/
def Field.imageSize (fl : Field) : Nat :=
  page4k (0x12000 + 0x6000 * fl.fcount + fl.kernel.scratch + fl.kernel.tiles + 64 * fl.kernel.bslice)

/-- The images in use in a context's save area: offset and size. -/
def State.images (s : State) (ctx : Nat) : List (Nat × Nat) :=
  s.fields.filterMap (fun f => if f.ctx = ctx ∧ f.status ≠ .retired then f.image.map (fun o => (o, f.imageSize)) else none)

/-- The lowest place of a context's save area where an image fits. -/
def State.imageSlot (s : State) (ctx size : Nat) : Option Nat :=
  match s.ctx? ctx with
  | none => none
  | some c =>
    let used := s.images ctx
    let ok := fun o => decide (o + size ≤ c.saveSize) && used.all (fun u => decide (o + size ≤ u.1 ∨ u.1 + u.2 ≤ o))
    bestBy (fun a b => decide (a < b)) ((0x4000 :: used.map (fun u => u.1 + u.2)).filter ok)

/-- The chain of images in use written anew (R409, R410): FIRST, then NEXT of each in rising order. -/
def State.linkImages (s : State) (ctx : Nat) : State :=
  match s.ctx? ctx with
  | none => s
  | some c =>
    let os := ((s.images ctx).map Prod.fst).foldl setInsert []
    let s1 := s.baseWrite (c.save + 0x3600) (leBytes 8 (os.headD 0))
    (os.zip (os.drop 1 ++ [0])).foldl (fun s p => s.baseWrite (c.save + p.1 + 8) (leBytes 8 p.2)) s1

/-- Whether a save area with some slots in use has room for n more images of a size. -/
def roomIn (saveSize size : Nat) : Nat → List (Nat × Nat) → Bool
  | 0, _ => true
  | n + 1, used =>
    let ok := fun o => decide (o + size ≤ saveSize) && used.all (fun u => decide (o + size ≤ u.1 ∨ u.1 + u.2 ≤ o))
    match bestBy (fun a b => decide (a < b)) ((0x4000 :: used.map (fun u => u.1 + u.2)).filter ok) with
    | none => false
    | some o => roomIn saveSize size n ((o, size) :: used)

/-- Physical address of a field's image. -/
def State.imageAt (s : State) (fl : Field) : Option Nat :=
  match s.ctx? fl.ctx, fl.image with
  | some c, some o => some (c.save + o)
  | _, _ => none

/-- An image's descriptor written (R410), NEXT aside; its reserved bytes are 0 (R6). -/
def State.describe (s : State) (fl : Field) (st : Nat) : State :=
  match s.imageAt fl with
  | none => s
  | some a =>
    let tag := ((s.scheme? fl.scheme).map (fun sc => sc.tag.toNat)).getD 0
    (s.baseWrite a (leBytes 4 1 ++ leBytes 4 st)).baseWrite (a + 0x10)
      (leBytes 8 fl.imageSize ++ leBytes 8 (workId fl 0).toNat ++ leBytes 8 fl.loc0.toNat ++ leBytes 8 tag ++ List.replicate 208 0)

/-! ### Eligible cores (R399) -/

/-- Whether a field fits on a core as the core stands; `empty` asks it of a core with nothing on it but service fields. -/
def State.fitsOn (s : State) (core : Nat) (fl : Field) : Bool :=
  s.quartersFit core (s.offsetFor core fl.service) fl && s.storesFit core fl

/-- Whether a core is eligible for a user field. -/
def State.eligible (s : State) (fl : Field) (core : Nat) : Bool :=
  s.coreInPart (s.partOf fl.ctx) core && (s.quad (quadOf core)).scrub.isNone && !(s.die (dieOf core)).excluded && s.fitsOn core fl
    && (s.fieldsOn core).all (fun f => f.service || f.cls == fl.cls) && (fl.image.isSome || (s.imageSlot fl.ctx fl.imageSize).isSome)

/-- Package cores. -/
def allCores : List Nat := List.range 288

/-- The better of two cores (R399): fewer free slots, then the lower number. -/
def State.coreBefore (s : State) (a b : Nat) : Bool :=
  decide (s.freeCount a < s.freeCount b) || (s.freeCount a == s.freeCount b && decide (a < b))

/-- The core that a field in no terrace takes. -/
def State.chooseCore (s : State) (fl : Field) : Option Nat := bestBy s.coreBefore (allCores.filter (s.eligible fl))

/-- The n best eligible cores of a quad. -/
def State.bestInQuad (s : State) (fl : Field) (n quad : Nat) : List Nat :=
  let cs := ((List.range 4).map (fun j => 4 * quad + j)).filter (s.eligible fl)
  (sortBy s.coreBefore cs).take n

/-- The cores that a terrace of n members takes, in one quad (R399). -/
def State.chooseQuad (s : State) (fl : Field) (n : Nat) : Option (List Nat) :=
  let all := ((List.range 72).map (s.bestInQuad fl n)).filter (fun l => l.length == n)
  let cost := fun (l : List Nat) => (l.map s.freeCount).sum
  bestBy (fun a b => decide (cost a < cost b) || (cost a == cost b && decide (a.headD 0 < b.headD 0))) all

/-! ### Furrow images (R411, R412) -/

/-- The group records of a furrow's image. -/
def Group.record (g : Group) : Nat :=
  g.lanes.toNat * 2 ^ 96 + g.pc.toNat * 2 ^ 72 + min g.age 63 * 2 ^ 66 + g.active.toNat * 2 ^ 65
    + (g.clause.any Clause.nr).toNat * 2 ^ 64 + ((g.pend.map TrapReq.code).getD 0 % 64) * 2 ^ 58
    + ((g.clause.map Clause.len).getD 0) * 2 ^ 55 + ((g.clause.map Clause.clend).getD 0) * 2 ^ 34 + min g.wdog (2 ^ 34 - 1)

/-- A frame's 576 bytes (R319, R327). -/
def Furrow.frameBytes (f : Furrow) (n : Nat) : List Byte :=
  match (if f.level < n then none else f.frame? n) with
  | none => List.replicate 576 0
  | some fr =>
    let pend := f.groups.any (fun g => g.level == fr.fromLevel && g.pend.isSome)
    leBytes 8 fr.cause.toNat ++ leBytes 8 fr.val.toNat ++ leBytes 8 fr.arg.toNat ++ leBytes 4 fr.tlane.toNat
      ++ leBytes 4 (pend.toNat * 8 + f.step.isSome.toNat * 4 + fr.fromLevel) ++ List.replicate 32 0
      ++ ((List.range 32).map (fun i => leBytes 8 (laneAt fr.lrec i).bits)).flatten
      ++ ((List.range 32).map (fun i => leBytes 8 (laneAt fr.eaddr i).toNat)).flatten

/-- Lane state codes of an image. -/
def LaneStatus.code : LaneStatus → Nat
  | .absent => 0
  | .live => 1
  | .held => 2
  | .exited => 3

/-- The part of an image that level 3 or a service field may change while the field is saved: offsets 0 to 0x4487 (R412). -/
def Furrow.imageHead (f : Furrow) : List Byte :=
  f.regBytes 0 48 ++ (if f.ext = .none then List.replicate 10240 0 else f.regBytes 48 80)
    ++ ((List.range 56).map (fun n => leBytes 8 (if n = 0 then 0 else f.w[Fin.ofNat 56 n].toNat))).flatten
    ++ ((List.range 4).map (fun l => ((List.range 8).map (fun n => leBytes 8 ((f.wbank[Fin.ofNat 4 l])[Fin.ofNat 8 n]).toNat)).flatten)).flatten
    ++ (f.p.toList.map (fun x => leBytes 4 x.toNat)).flatten ++ (f.pbank.toList.map (fun x => leBytes 4 x.toNat)).flatten
    ++ List.replicate 24 0 ++ (f.s.toList.map (fun x => leBytes 32 x.toNat)).flatten
    ++ (f.h.toList.map (fun x => leBytes 8 x.toNat)).flatten ++ leBytes 4 f.fpenv.toNat ++ leBytes 4 f.flags.toNat

/-- A furrow's 24 KiB image. -/
def Furrow.imageBytes (f : Furrow) : List Byte :=
  f.imageHead
    ++ leBytes 4 (f.level + (f.ext != .none).toNat * 4 + (f.ext == .right).toNat * 8 + (f.faultWaits.any FaultWait.replay).toNat * 16
        + f.step.isSome.toNat * 32)
    ++ leBytes 4 f.groups.length ++ List.replicate 112 0
    ++ f.frameBytes 1 ++ f.frameBytes 2 ++ f.frameBytes 3 ++ List.replicate 64 0
    ++ (((f.groups.take 32).map (fun (g : Group) => leBytes 16 g.record)).flatten ++ List.replicate 512 0).take 512
    ++ (f.lanes.toList.map (fun (l : Lane) => (l.ustack.toList.map (fun x => leBytes 4 x.toNat)).flatten)).flatten
    ++ (f.lanes.toList.map (fun (l : Lane) => (l.pstack.toList.map (fun x => leBytes 4 x.toNat)).flatten)).flatten
    ++ (f.lanes.toList.map (fun (l : Lane) => leBytes 1 l.udepth)).flatten ++ (f.lanes.toList.map (fun (l : Lane) => leBytes 1 l.pdepth)).flatten
    ++ (f.lanes.toList.map (fun (l : Lane) => leBytes 1 l.status.code)).flatten ++ List.replicate 416 0

/-- A number of an image's bytes. -/
def imageNum (bs : List Byte) (off n : Nat) : Nat := leNat ((bs.drop off).take n)

/-- A saved furrow with what its image's changeable part now holds (R412). -/
def Furrow.fromImage (f : Furrow) (bs : List Byte) : Furrow :=
  { f with
    v := Vector.ofFn (fun i : Fin 128 => if f.ext = .none ∧ 48 ≤ i.val then f.v[i] else BitVec.ofNat 1024 (imageNum bs (128 * i.val) 128)),
    w := Vector.ofFn (fun i : Fin 56 => if i.val = 0 then 0 else BitVec.ofNat 64 (imageNum bs (0x4000 + 8 * i.val) 8)),
    wbank := Vector.ofFn (fun l : Fin 4 => Vector.ofFn (fun i : Fin 8 => BitVec.ofNat 64 (imageNum bs (0x41C0 + 64 * l.val + 8 * i.val) 8))),
    p := Vector.ofFn (fun i : Fin 6 => BitVec.ofNat 32 (imageNum bs (0x42C0 + 4 * i.val) 4)),
    pbank := Vector.ofFn (fun l : Fin 4 => BitVec.ofNat 32 (imageNum bs (0x42D8 + 4 * l.val) 4)),
    s := Vector.ofFn (fun i : Fin 8 => BitVec.ofNat 256 (imageNum bs (0x4300 + 32 * i.val) 32)),
    h := Vector.ofFn (fun i : Fin 16 => BitVec.ofNat 64 (imageNum bs (0x4400 + 8 * i.val) 8)),
    fpenv := BitVec.ofNat 32 (imageNum bs 0x4480 4) &&& 0x3F3BF#32,
    flags := BitVec.ofNat 12 (imageNum bs 0x4484 4) }

/-! ### Becoming resident (R43, R44, R412) -/

/-- A furrow at the start of its field (R44, R65, R176): every live lane at PC 0 in one group. -/
def launchFurrow (fl : Field) (core slot ix : Nat) : Furrow :=
  let live := maskOf (fun i => decide (32 * ix + i < fl.kernel.threads))
  let lv := if fl.service then 1 else 0
  let f : Furrow := { core := core, slot := slot, field := fl.id, ix := ix, level := lv,
                      lanes := tableOf (fun i => if inMask live i then { status := .live } else {}),
                      groups := [{ lanes := live, pc := 0, level := lv }] }
  fl.kernel.consts.foldl (fun f k => f.writeW k.1 k.2) f

/-- The slots of a field's furrows (R43): furrow k at the lowest free position of quarter (k + b) mod 4. -/
def State.slotsFor (s : State) (core b n : Nat) (service : Bool) : List Nat :=
  (List.range n).map (fun k => (s.freeSlots core ((k + b) % 4) service).getD (k / 4) 0)

/-- The counters of a context loaded when its first field comes to a core (R409). -/
def State.loadCounters (s : State) (ctx core : Nat) : State :=
  match s.ctx? ctx with
  | none => s
  | some c =>
    if (s.fieldsOn core).any (fun f => f.ctx == ctx) || (s.core core).counters.any (fun x => x.1 == ctx) then s
    else
      let n := fun k => BitVec.ofNat 64 (s.baseNum (c.save + 48 * core + 8 * k) 8)
      s.onCore core (fun x => x.onCounters ctx (fun _ => { hit := n 0, ldhit := n 1, kill := n 2, share := n 3, coll := n 4, roll := n 5 }))

/-- The counters written back when the context's last field leaves a core (R409). -/
def State.storeCounters (s : State) (ctx core : Nat) : State :=
  match s.ctx? ctx with
  | none => s
  | some c =>
    if (s.fieldsOn core).any (fun f => f.ctx == ctx) then s
    else
      let k := (s.core core).countersOf ctx
      let s1 := s.baseWrite (c.save + 48 * core)
        (leBytes 8 k.hit.toNat ++ leBytes 8 k.ldhit.toNat ++ leBytes 8 k.kill.toNat ++ leBytes 8 k.share.toNat ++ leBytes 8 k.coll.toNat
          ++ leBytes 8 k.roll.toNat)
      s1.onCore core (fun x => { x with counters := x.counters.filter (fun y => y.1 != ctx) })

/-- A field's own caddy at its start (R178); of two entries with one identifier the later stands (DESIGN CHOICE, log 123). -/
def Kernel.caddy (k : Kernel) : Vector (Vector W64 7) 64 :=
  k.tensors.foldl (fun v t => v.set (Fin.ofNat 64 t.1) t.2) (Vector.replicate 64 (Vector.replicate 7 0))

/-- A waiting field placed on a core: its image slot, its zeroed stores, its caddy and its furrows (R43, R44, R178, R410, R412). -/
def State.startField (s : State) (id core : Nat) : State :=
  match s.field? id with
  | none => s
  | some fl =>
    let b := s.offsetFor core fl.service
    let slots := s.slotsFor core b fl.fcount fl.service
    let img := if fl.service then none else s.imageSlot fl.ctx fl.imageSize
    let s1 := s.loadCounters fl.ctx core
    let k := fl.kernel
    let fl1 : Field := { fl with status := .resident, core := core, qoff := b, placedAt := s.cycles + 1, image := img, caddy := k.caddy,
                                 loc0 := locId s.pkg core (slots.headD 0),
                                 sp := { size := k.scratch }, tile := { size := k.tiles }, bsl := { size := 64 * k.bslice } }
    let fs := (List.range fl.fcount).map (fun i => launchFurrow fl1 core (slots.getD i 0) i)
    let s2 : State := { s1.onField id (fun _ => fl1) with furrows := s1.furrows ++ fs }
    if fl.service then s2 else (s2.describe fl1 1).linkImages fl.ctx

/-- A saved furrow at its new place (R340, R412): above level 0 it needs a permit before any lane issues; what it waited for is tried anew. -/
def Furrow.resumeAt (f : Furrow) (core slot : Nat) (free : Bool) (now : Nat) : Furrow :=
  let need := decide (0 < f.level) && !f.groups.isEmpty
  { f with core := core, slot := slot, faultWaits := [], waited := 0, permit := need && free,
           needPermit := if need && !free then some (nextBackoff now none none) else none }

/-- Furrows put back one by one, each taking a permit while its core has one that its reservation list does not claim (R323, R340). Their registers are
named anew among those of the quarter (R76). -/
def State.addSaved (s : State) (core : Nat) : List (Furrow × Nat) → State
  | [] => s
  | (f, slot) :: rest =>
    let free := decide (((s.core core).reserve.filter (s.reserved core)).length < s.permitsFree core)
    let f1 := f.resumeAt core slot free s.cycles
    ({ s with furrows := s.furrows ++ [s.rename { f1 with unnamed := [] } f1.mapped] } : State).addSaved core rest

/-- The writes of a field that resumes on a core, and of its commands, are from now on those of threads and agents of that core; its die drops the
peer packages' lines that it has copies of, which may be older than what the field has read (R137; DESIGN CHOICE, log 115). -/
def State.moveWrites (s : State) (id core : Nat) : State :=
  let cmds := (s.commands.filter (fun c => c.field == id)).map Command.id
  let s1 : State :=
    { s with recent := mapIf s.recent (fun w => (w.by_.cls == .ls && w.by_.field == id) || cmds.contains w.cmd)
               (fun w => { w with by_ := { w.by_ with core := core } }) }
  s1.dropPeers (dieOf core)

/-- The sectors that the placement of a field on a core reads: its context's counters there, and of a saved field its image (R409, R412). -/
def State.putReads (s : State) (fl : Field) (core : Nat) : List Nat :=
  let cs := match s.ctx? fl.ctx with
    | none => []
    | some c => sectorsOf (c.save + 48 * core) 48
  cs ++ (if fl.status = .saved then match s.imageAt fl with
    | none => []
    | some a => sectorsOf (a + 0x1400) fl.area.length ++ (fl.saved.map (fun f => sectorsOf (a + 0x12000 + 0x6000 * f.ix) 0x4488)).flatten else [])

/-- A saved field resumed on a core (R363, R412). A changed command area ends the context with MEMERR. -/
def State.resumeField (s : State) (id core : Nat) : State :=
  match s.field? id with
  | none => s
  | some fl =>
    match s.imageAt fl with
    | none => s
    | some a =>
      if s.baseBytes (a + 0x1400) fl.area.length ≠ fl.area then s.endContext fl.ctx { code := 3, detail := 3 * 256 + 0x1C, loc := locId s.pkg core 0 }
      else
        let b := s.offsetFor core fl.service
        let slots := s.slotsFor core b fl.fcount fl.service
        let loc := if fl.saved.any (fun f => f.ix == 0) then locId s.pkg core (slots.headD 0) else fl.loc0
        let fs := fl.saved.map (fun f => (f.fromImage (s.baseBytes (a + 0x12000 + 0x6000 * f.ix) 0x4488), slots.getD f.ix 0))
        let s1 := s.loadCounters fl.ctx core
        let s2 := s1.onField id (fun fl => { fl with status := .resident, core := core, qoff := b, placedAt := s.cycles + 1, saved := [], loc0 := loc })
        let s3 := s2.addSaved core fs
        let s4 : State := { s3 with commands := s3.commands.map (fun (c : Command) =>
          if c.field == id then { c with core := core, entry := none, atWeir := none,
                                         phase := if c.phase = .suspended then (if c.ended.isSome then .draining else .running) else c.phase } else c) }
        let s5 := (List.range 4).foldl (fun s q => s.makeRoomFor core q 0) (s4.moveWrites id core)
        s5.describe { fl with loc0 := loc } 1

end Sys2Proof.Machine
end

