-- ==== Sys2Proof/Machine/Waits.lean ====
section
/-! DEFINITION. Waits on an address, prefetches and fences: major 0x1A (R144 to R150, R255 to R260). -/
namespace Sys2Proof.Machine

/-! ### `waita` -/

/-- Whether a value satisfies a lane (R255). -/
def waitTest (cc : WaitCc) (t : Ty) (x v : Nat) : Bool :=
  match cc with
  | .eq => x == v
  | .ne => x != v
  | .lt => decide (intOf t x < intOf t v)
  | .ge => decide (intOf t v ≤ intOf t x)

/-- The values that the lanes of a group already satisfied at its wait (R256). -/
def Group.keptValues (g : Group) : List (Nat × Nat) := keptOf g.wait

/-- What an unsatisfied lane watches (R256): its scratchpad words, its sector, or a peer package's line until 2 µs from now. -/
def State.watchesOf (s : State) (size : Nat) (t : Spot) : List Watch :=
  match t with
  | .scratch fd off => (List.range (ceilDiv size 4)).map (fun k => .scratch fd (off / 4 + k))
  | .global ps => (pieceSectors ps).map (fun x => if s.isPeer x then .peerLine x (s.cycles + 8000) else .sector x)

/-- Whether a lane's place can be read now: no own store to it is still to be performed, and its die holds a token. -/
def State.readable (s : State) (f : Furrow) (g : Group) (t : Spot) : Bool :=
  let secs := spotSectors [t]
  !f.ownStore g.lanes secs && (s.lacking (dieAgent f.core) false secs).isEmpty

/-- R255 to R257: each lane reads until it is satisfied and keeps what it read then; the instruction completes when every lane is. At each re-read the
instruction is executed again: addresses are formed and checked for every lane of A, the satisfied ones included (DESIGN CHOICE, log 116: R256 says
only that the unsatisfied lanes are read again). -/
def execWaita (f : LW) (s : State) : Out :=
  running (.waita f) s (fun q u g =>
    let m := u.activeSet (.waita f) g
    if m = 0 then s.skip (.waita f) q g
    else
      let n := f.ty.width / 8
      let c := State.checkLanes u n n {} (fun _ _ => false) (u.effAddr f.am f.a.val f.b 0 n) (lanesOf m) s
      if firstRank c.2 = some waitRank then .next (c.1.waitOn q g (.address ((waitSectors c.2).map .sector) false g.keptValues))
      else withSpots s q u g m n n {} (fun _ _ => false) (u.effAddr f.am f.a.val f.b 0 n) (fun s as =>
        let due := as.filter (fun a => !(g.keptValues.any (fun k => k.1 == a.1)))
        let now := due.filter (fun a => s.readable u g a.2.2)
        let bad := now.filter (fun a => s.spotPoison n a.2.2)
        if !bad.isEmpty then trapWith s q (poisonTrap bad 0 g.pc)
        else
          let xs := tableOf (fun l => ((now.find? (fun a => a.1 == l)).map (fun a => s.spotNum u.core (s.laneReader u l) true n a.2.2)).getD 0)
          let good := now.filter (fun a => waitTest f.cc f.ty (laneAt xs a.1) (u.laneBits f.ty f.c3.val a.1))
          let kept := g.keptValues ++ good.map (fun a => (a.1, laneAt xs a.1))
          let s0 := now.foldl (fun (t : State) a =>
            let r := s.laneReader u a.1
            t.noteReads r.party (s.spotWrites u.core r true n a.2.2)) s
          let s1 := s0.readsDone u true (spotSectors (spotsOf now))
          if as.all (fun a => kept.any (fun k => k.1 == a.1)) then
            let s2 := if f.scope = .thread then s1 else (s1.acquire u true f.scope).sync u m false true f.scope
            s2.done (.waita f) q ((s2.again u).writeLanes f.ty f.d.val m
              (fun l => ((kept.find? (fun k => k.1 == l)).map Prod.snd).getD 0)) g m 0
          else
            let open_ := due.filter (fun a => !(kept.any (fun k => k.1 == a.1)))
            let lack := s1.lacking (dieAgent u.core) false (spotSectors (spotsOf (due.filter (fun a => !(s.readable u g a.2.2)))))
            let s2 := s1.requestAll (dieAgent u.core) u.core false lack
            .next (s2.waitOn q g (.address ((open_.map (fun a => s2.watchesOf n a.2.2)).flatten) false kept))))

/-! ### `pf` -/

/-! #### Walkers (R351, R406) -/

/-- The partitions with at least one field resident on a die, in ascending order. -/
def State.partsOn (s : State) (die : Nat) : List Nat :=
  ((s.fields.filter (fun f => !f.service && f.placedAt != 0 && f.status != .retired && f.status != .saved && dieOf f.core == die)).map (fun f => s.partOf f.ctx)).foldl
    setInsert []

/-- Walkers of partition number i of n: floor(64 / n), one more for the first 64 mod n. -/
def walkerShare (n i : Nat) : Nat := 64 / n + if i < 64 % n then 1 else 0

/-- The walk that a free walker of a partition takes: the head of its own queue, class 0 first, else the oldest of another partition. -/
def nextWalk (ws : List Walk) (part : Nat) : Option Nat :=
  let idx := (List.range ws.length).zip ws
  let mine := idx.filter (fun x => x.2.on.isNone && x.2.partition == part)
  match mine.find? (fun x => x.2.cls == 0) with
  | some x => some x.1
  | none => match mine.head? with
    | some x => some x.1
    | none => (idx.find? (fun x => x.2.on.isNone)).map Prod.fst

/-- Free walkers of a partition take walks, at most n of them. -/
def takeWalks (part : Nat) : Nat → List Walk → List Walk
  | 0, ws => ws
  | n + 1, ws =>
    match nextWalk ws part with
    | none => ws
    | some j => takeWalks part n (ws.mapIdx (fun i w => if i = j then { w with on := some part } else w))

/-- Free walkers of a die take what waits: each partition's its own queue, then what is left to any, walks of
service fields, which are in no partition (R18), among them; with no resident field all serve every partition. -/
def State.assignWalks (s : State) (die : Nat) : State :=
  let ps := match s.partsOn die with
    | [] => [0]
    | l => l
  s.onDie die (fun d =>
    let own := fun (keep : Bool) (ws : List Walk) => (ps.zip (List.range ps.length)).foldl (fun (ws : List Walk) p =>
      let free := walkerShare ps.length p.2 - (ws.filter (fun w => w.on == some p.1)).length
      let waiting := (ws.filter (fun w => w.on.isNone && w.partition == p.1)).length
      takeWalks p.1 (if keep then min free waiting else free) ws) ws
    { d with walks := own false (own true d.walks) })

/-- A prefetch of an address for a context on a core (R258): dropped when a check fails, else a read token requested; with no translation
cached, a walk of the die (R351). The core's L1 is filled when the token comes, unless only the holder is to be. -/
def State.prefetch (s : State) (core ctx level cls : Nat) (hold : Bool) (va : Nat) : State :=
  if !isGlobal va then s
  else
    match s.ctx? ctx with
    | none => s
    | some c =>
      match s.tlbFind core c.tasid.toNat va with
      | none =>
        (s.onDie (dieOf core) (fun d => { d with walks := d.walks ++
          [{ core := core, ctx := ctx, partition := c.part, level := level, cls := cls, hold := hold, va := va }] })).assignWalks (dieOf core)
      | some e =>
        match s.checkLeaf c e va {} level with
        | .fail .. | .wait _ => s
        | .ok pa =>
          let sec := sectorOf pa
          if s.isPeer sec then s.afterLoad core (!hold) [sec]
          else if s.mayAccess (dieAgent core) sec false then s.afterLoad core (!hold) [sec]
          else
            let s1 := s.request (dieAgent core) sec false core
            if hold then s1 else s1.onHolder sec (dieAgent core) (fun h => { h with fills := setInsert h.fills core })

/-- R258: a prefetch of each lane's sector; it never traps and makes no event. -/
def execPf (f : LP) (s : State) : Out :=
  running (.pf f) s (fun q u g =>
    ((lanesOf (u.activeSet (.pf f) g)).foldl (fun (s : State) l => s.prefetch u.core (s.ctxOf u) u.level (s.classOf u) f.hold (u.effAddr f.am f.a.val f.b 0 1 l)) s).skip
      (.pf f) q g)

/-! ### Fences -/

/-- A fence that waits until every earlier store of its group is performed (R144): FENCE_COMPLETE ends the wait. `k` is what it does for the lanes
of its active set. -/
def fenceWith (i : Instr) (s : State) (waits : Bool) (k : State → Furrow → Mask → State) : Out :=
  running i s (fun q f g =>
    if f.activeSet i g = 0 then s.skip i q g
    else if waits && f.storing g.lanes then .next (s.waitOn q g .fence)
    else (k s f (f.activeSet i g)).skip i q g)

/-- R144: loads bind when they execute, so an acquire fence completes at once. -/
def execFenceAcq (f : LF) (s : State) : Out :=
  fenceWith (.fenceAcq f) s false (fun s u m => (s.acquire u true f.scope).sync u m false true f.scope)

/-- R144: a release fence. -/
def execFenceRel (f : LF) (s : State) : Out :=
  fenceWith (.fenceRel f) s true (fun s u m => (s.acquire u false f.scope).fenceSync u m true false f.scope)

/-- What a full fence of a scope does for some lanes once their stores are performed. -/
def State.fullFence (s : State) (u : Furrow) (m : Mask) (c : Scope) : State := (s.acquire u true c).fenceSync u m true true c

/-- R144: a full fence. -/
def execFenceFull (f : LF) (s : State) : Out := fenceWith (.fenceFull f) s true (fun s u m => s.fullFence u m f.scope)

/-- R145, R148: a speculative fence runs ahead when its furrow is one group, no other of it is uncompleted, its scope is `.pkg` or
narrower and no single-step is under way. -/
def Furrow.mayStartAhead (f : Furrow) (c : Scope) : Bool :=
  f.groups.length == 1 && f.spec.isNone && decide (c.code ≤ 5) && f.step.isNone

/-- R145 to R148: a speculative fence that must wait runs ahead, keeping what to return to; in any other case it is a full fence. -/
def execFenceSpec (f : LF) (s : State) : Out :=
  running (.fenceSpec f) s (fun q u g =>
    let m := u.activeSet (.fenceSpec f) g
    if m = 0 then s.skip (.fenceSpec f) q g
    else if u.storing g.lanes && u.mayStartAhead f.scope then
      let s1 := (s.acquire u true f.scope).onFurrow u.core u.slot (fun u =>
        { u with spec := some { v := u.v, unnamed := u.unnamed, kept := [], clause := g.clause, fpenv := u.fpenv, fencePc := g.pc,
                                nextPc := nextPc g.pc 2, scope := f.scope, lanes := m, readSet := [], heldTrap := none } })
      s1.skip (.fenceSpec f) q g
    else if u.storing g.lanes then .next (s.waitOn q g .fence)
    else (s.fullFence u m f.scope).skip (.fenceSpec f) q g)

/-- R150, R260: a cross-path fence, a full fence of `.core` scope for the group's own events besides. -/
def execFenceXp (f : LFx) (s : State) : Out :=
  fenceWith (.fenceXp f) s true (fun s u m => (s.fullFence u m .core).crossPath u m f.wr f.rd)

end Sys2Proof.Machine
end

