-- ==== Sys2Proof/Machine/Ports.lean ====
section
/-! DEFINITION. Stream records (R261), engine pushes (R267, R268), operand queues (R274), basin ports (R59 to R61), handles (R269 to R273) and
caddy instructions (R283). -/
namespace Sys2Proof.Machine

/-! ### Stream records -/

/-- R261: word k of sN := w[WA]. -/
def execSset (f : SEs) (s : State) : Out :=
  running (.sset f) s (fun q u g =>
    let old := u.s[f.n]
    let sh := 64 * f.k.val
    let x := (old &&& ~~~((0xFFFFFFFFFFFFFFFF#256) <<< sh)) ||| (((u.readW f.wa.val).setWidth 256) <<< sh)
    s.done (.sset f) q { u with s := u.s.set f.n x } g 0 0)

/-- R261: w[WA] := word k of sN. -/
def execSget (f : SEs) (s : State) : Out :=
  running (.sget f) s (fun q u g => s.done (.sget f) q (u.writeW f.wa.val (u.s[f.n].extractLsb' (64 * f.k.val) 64)) g 0 0)

/-! ### Pushes -/

/-- Uncompleted commands each engine of a core accepts (R268). -/
def engineRoom (e : Fin 4) : Nat := if e = 0 then 8 else if e = 1 then 32 else if e = 2 then 64 else 16

/-- Whether an uncompleted command stands in an engine of a core: those of a saved field are with its image (R404). -/
def State.inEngine (s : State) (core : Nat) (e : Fin 4) (c : Command) : Bool :=
  c.core == core && c.engine == e && !c.reported && (s.field? c.field).any (fun fl => fl.status != .saved)

/-- Whether an engine of a core can take another command. -/
def State.engineFree (s : State) (core : Nat) (e : Fin 4) : Bool :=
  decide ((s.commands.filter (s.inEngine core e)).length < engineRoom e)

/-- The command slot a push takes (R268): the lowest free one, else that of the completed command with the oldest completion, the lowest slot among
those that completed in one cycle (DESIGN CHOICE, log 105). -/
def Field.slotFor (fl : Field) : Option Nat :=
  match (List.range 64).find? (fun k => fl.slots[Fin.ofNat 64 k].isNone) with
  | some k => some k
  | none =>
    (bestBy (fun (a b : Nat × CmdSlot) => decide (a.2.doneAt < b.2.doneAt))
      ((List.range 64).filterMap (fun k => match fl.slots[Fin.ofNat 64 k] with
        | some c => if c.status.isSome then some (k, c) else none
        | none => none))).map Prod.fst

/-- A handle's value (R269). -/
def handleOf (kind slot seq : Nat) : W64 := BitVec.ofNat 64 (kind * 2 ^ 60 + slot * 2 ^ 48 + seq)

/-- Words of a command of an engine. -/
def commandWords (e : Fin 4) : Nat := if e.val % 2 = 0 then 4 else 8

/-- Caddy identifiers that word 0 of a command names, in their order (R287, R292, R298). -/
def namedIds (e : Fin 4) (w0 : Nat) : List Nat :=
  if e = 0 then [bitsOf w0 50 6, bitsOf w0 44 6, bitsOf w0 38 6] else if e = 2 then [] else [bitsOf w0 50 6, bitsOf w0 44 6]

/-- First of the four scale registers that an MXE command captures (R289): S of the entry of A. -/
def scaleBase (a : Vector W64 7) : Nat := bitsOf a[4].toNat 0 7

/-- The command that a push makes (R267): words, caddy entries, stream records and scale registers as they stand. -/
def makeCommand (id : Nat) (f : SEpush) (u : Furrow) (fl : Field) (slot : Nat) (loc : BitVec 64) : Command :=
  let words : Vector W64 8 := Vector.ofFn (fun i : Fin 8 => if i.val < commandWords f.q then u.readW (f.wa.val + i.val) else 0)
  let ids := namedIds f.q words[0].toNat
  let base := scaleBase (fl.caddy[Fin.ofNat 64 (ids.headD 0)])
  { id := id, engine := f.q, core := u.core, field := u.field, furrowIx := u.ix, level := u.level, loc := bitsOf loc.toNat 0 40, slot := slot,
    seq := fl.pushNo + 1, words := words, entries := ids.map (fun k => (k, fl.caddy[Fin.ofNat 64 k])), records := u.s,
    scales := Vector.ofFn (fun i : Fin 4 => if f.q = 0 then u.readV (base + i.val) else 0), sel := f.sel, extHeld := u.ext != .none }

/-- R267, R268: a push captures a command and writes its handle. -/
def execPush (f : SEpush) (s : State) : Out :=
  running (.push f) s (fun q u g =>
    match s.field? u.field with
    | none => trapNow s q g g.lanes 0x1E 0
    | some fl =>
      if f.q = 0 ∧ g.lanes ≠ u.running then trapNow s q g g.lanes 0x21 0
      else
        match s.engineFree u.core f.q, fl.slotFor with
        | true, some k =>
          let c := makeCommand s.nextId f u fl k (s.locOf u)
          let s1 := ({ s with nextId := s.nextId + 1, commands := s.commands ++ [c] } : State).bindCommand (u.party g.lanes) (engineCls f.q) c.id
          let s2 := s1.onField fl.id (fun fl => { fl with
            pushNo := fl.pushNo + 1,
            slots := fl.slots.set (Fin.ofNat 64 k) (some { seq := c.seq, kind := f.q.val + 1, cmd := c.id, status := none, doneAt := 0 }) })
          s2.done (.push f) q { u with h := u.h.set f.h (handleOf (f.q.val + 1) k c.seq) } g 0 0
        | _, _ => .next (s.waitOn q g (.pushRoom f.q)))

/-! ### Operand queues -/

/-- Completed streams that are kept for rows no furrow holds any more, or whose furrow has retired, are forgotten (R297). -/
def State.sweepStreams (s : State) : State :=
  let owner := fun (c : Command) => s.furrows.any (fun f => f.field == c.field && f.ix == c.furrowIx && !f.groups.isEmpty)
    || s.fields.any (fun fl => fl.id == c.field && fl.saved.any (fun f => f.ix == c.furrowIx))
  let holds := fun (c : Command) => s.furrows.any (fun f => f.opq.toList.any (fun q => q.any (fun r => r.cmd == c.id)))
  { s with commands := s.commands.filter (fun c => !c.reported || (owner c && (holds c || decide (c.units < c.next)))) }

/-- R274: the next row of an operand queue, taken by every lane of the group. -/
def execQpop (f : SEpop) (s : State) : Out :=
  running (.qpop f) s (fun q u g =>
    match u.opq[f.q] with
    | [] => .next (s.waitOn q g (.row f.q))
    | r :: rest =>
      if r.wide && f.d.val % 2 == 1 then trapNow s q g g.lanes 0x1E 0
      else
        let u1 := { u with opq := u.opq.set f.q rest }
        let u2 := if r.wide then u1.writePair f.d.val g.lanes (laneAt r.vals)
          else u1.writeV f.d.val g.lanes (fun l => (laneAt r.vals l).setWidth 32)
        (s.setFurrow u1).sweepStreams.done (.qpop f) q u2 g g.lanes 0)

/-! ### Basin ports (R59 to R61, R401) -/

/-- The basin that a port of a furrow's reach binds: whether it is an output, the scheme and the basin's number. -/
def State.portOf (s : State) (u : Furrow) (p : Fin 4) : Option (Bool × Scheme × Nat × Basin) :=
  match s.field? u.field with
  | none => none
  | some fl =>
    if fl.service then none
    else match s.scheme? fl.scheme with
      | none => none
      | some sc =>
        match sc.reaches[fl.reach]? with
        | none => none
        | some r =>
          match r.ports[p] with
          | none => none
          | some (out, b) => (sc.basins[b]?).map (fun x => (out, sc, b, x))

/-- A change of a basin. -/
def State.onBasin (s : State) (scheme b : Nat) (k : Basin → Basin) : State :=
  s.onScheme scheme (fun sc => { sc with basins := sc.basins.mapIdx (fun j x => if j = b then k x else x) })

/-- Live fields of a reach. -/
def State.reachFields (s : State) (scheme reach : Nat) : List Field :=
  s.fields.filter (fun f => f.scheme == scheme && f.reach == reach && !f.service && f.status != .retired)

/-- Whether some field of a partition waits for a core (R400, R401). -/
def State.fieldWaits (s : State) (part : Nat) : Bool :=
  s.fields.any (fun f => (f.status == .waiting || f.status == .saved) && !f.service && s.partOf f.ctx == part)

/-- Whether the headworks withdraws a field that reads an input port whose basin has no full slot (R401). -/
def State.withdraws (s : State) (sc : Scheme) (fl : Field) : Bool :=
  match sc.reaches[fl.reach]? with
  | none => false
  | some r => r.kind == 1 && decide (r.minFields + max 1 r.tsize ≤ (s.reachFields sc.id fl.reach).length) && s.fieldWaits (s.partOf sc.ctx)

/-- What a port read finds: a slot to claim, 0 for no more input, 0 with a withdrawal, or nothing yet. -/
inductive PortRead
  | slot (out : Bool) (scheme basin n : Nat) (addr : W64)
  | ended
  | withdrawn
  | wait
  deriving DecidableEq, Repr

/-- A port read of a furrow whose port is bound. -/
def State.portRead (s : State) (u : Furrow) (p : Fin 4) : Option PortRead :=
  match s.portOf u p, s.field? u.field with
  | some (out, sc, b, x), some fl =>
    let addr := fun n => x.base + BitVec.ofNat 64 (n * x.slotBytes)
    if out then
      match x.empty with
      | n :: _ => some (.slot true sc.id b n (addr n))
      | [] => some .wait
    else if fl.withdrawn then some .ended
    else
      match x.full with
      | n :: _ => some (.slot false sc.id b n (addr n))
      | [] => if x.ended then some .ended else if s.withdraws sc fl then some .withdrawn else some .wait
  | _, _ => none

/-- A field withdrawn with its whole terrace (R61). -/
def State.withdraw (s : State) (fl : Field) : State :=
  { s with fields := s.fields.map (fun (x : Field) =>
      if x.scheme == fl.scheme && x.reach == fl.reach && !x.service && x.status != .retired && x.fieldIx + fl.member == fl.fieldIx + x.member
      then { x with withdrawn := true } else x) }

/-- R59 to R61, R275: a port read claims a slot, an acquire at `.pkg` scope; 0 when the field gets no more input. -/
def execQclaim (f : SEport) (s : State) : Out :=
  running (.qclaim f) s (fun q u g =>
    match s.portRead u f.q with
    | none => trapNow s q g g.lanes 0x1E 0
    | some .wait => .next (s.waitOn q g (.basin f.q))
    | some .ended => s.done (.qclaim f) q (u.writeW f.wa.val 0) g 0 0
    | some .withdrawn =>
      match s.field? u.field with
      | some fl => (s.withdraw fl).done (.qclaim f) q (u.writeW f.wa.val 0) g 0 0
      | none => trapNow s q g g.lanes 0x1E 0
    | some (.slot out sc b n addr) =>
      let s1 := s.onBasin sc b (fun x => if out then { x with empty := x.empty.drop 1, filling := x.filling ++ [n] }
        else { x with full := x.full.drop 1, reading := x.reading ++ [n] })
      let s2 := s1.onField u.field (fun fl => { fl with claims := fl.claims ++ [{ port := f.q.val, basin := b, slot := n, furrowIx := u.ix }] })
      let s3 := (s2.acquire u true .pkg).sync u g.lanes false true .pkg
      s3.done (.qclaim f) q ((s3.again u).writeW f.wa.val addr) g 0 0)

/-- The claim of a furrow on a port at an address. -/
def Field.claimAt (fl : Field) (u : Furrow) (p : Fin 4) (x : Basin) (addr : W64) : Option Claim :=
  fl.claims.find? (fun k => k.port == p.val && k.furrowIx == u.ix && x.base + BitVec.ofNat 64 (k.slot * x.slotBytes) == addr)

/-! ### Handles (R269 to R273) -/

/-- What a handle stands for: null, expired, or a slot of the field with its command. -/
inductive HandleView
  | null
  | expired
  | slot (k : Nat) (c : CmdSlot)
  deriving DecidableEq, Repr

/-- A handle as a field reads it (R269). One whose KIND is not its command's, or with a reserved bit set, is expired too: it is no handle that the field
pushed (DEDUCED, log 106: the rule names SLOT and SEQ only). -/
def Field.viewHandle (fl : Field) (h : W64) : HandleView :=
  if h = 0 then .null
  else
    let x := h.toNat
    match fl.slots[Fin.ofNat 64 (bitsOf x 48 6)] with
    | none => .expired
    | some c => if bitsOf x 54 6 = 0 ∧ bitsOf x 60 4 = c.kind ∧ bitsOf x 0 48 = c.seq then .slot (bitsOf x 48 6) c else .expired

/-- A resolved handle's status, with the slot that its reading frees (R268, R270); none while the command is pending. -/
def Field.readHandle (fl : Field) (h : W64) : Option (W64 × Option Nat) :=
  match fl.viewHandle h with
  | .null => some (0, none)
  | .expired => some (0x0D, none)
  | .slot k c => c.status.map (fun st => (st, some k))

/-- A command slot freed. -/
def State.freeSlot (s : State) (field : Nat) (k : Option Nat) : State :=
  match k with
  | none => s
  | some k => s.onField field (fun fl => { fl with slots := fl.slots.set (Fin.ofNat 64 k) none })

/-- A handle of the issuing furrow read; with no field there is no slot it could name. -/
def State.handleStatus (s : State) (u : Furrow) (h : Fin 16) : Option (W64 × Option Nat) :=
  match s.field? u.field with
  | some fl => fl.readHandle (u.readH h)
  | none => some (0x0D, none)

/-- The issuing group has observed the completion that a handle it read stands for (R152, R270: `.core` scope). -/
def State.sawHandle (s : State) (u : Furrow) (g : Group) (h : Fin 16) : State :=
  match (s.field? u.field).map (fun (fl : Field) => fl.viewHandle (u.readH h)) with
  | some (HandleView.slot _ c) => s.learned u g.lanes Scope.core.code [c.cmd]
  | _ => s

/-- R270: waits for a command's status; the slot freed is that of the status returned. -/
def execHwait (f : SEh) (s : State) : Out :=
  running (.hwait f) s (fun q u g =>
    match g.wait, s.handleStatus u f.h with
    | some (.handle _ (some (st, h))), _ =>
      (s.freeSlot u.field (((s.field? u.field).bind (fun fl => fl.readHandle h)).bind Prod.snd)).done (.hwait f) q (u.writeW f.wa.val st) g 0 0
    | _, none => .next (s.waitOn q g (.handle f.h none))
    | _, some r => ((s.sawHandle u g f.h).freeSlot u.field r.2).done (.hwait f) q (u.writeW f.wa.val r.1) g 0 0)

/-- R271: a command's status, or all ones while it is pending. -/
def execHtest (f : SEh) (s : State) : Out :=
  running (.htest f) s (fun q u g =>
    match s.handleStatus u f.h with
    | none => s.done (.htest f) q (u.writeW f.wa.val 0xFFFFFFFFFFFFFFFF) g 0 0
    | some r => ((s.sawHandle u g f.h).freeSlot u.field r.2).done (.htest f) q (u.writeW f.wa.val r.1) g 0 0)

/-- A group that waits for a handle of its field keeps the status at the moment the command completes (R270). -/
def Group.learn (f : Furrow) (h st : W64) (g : Group) : Group :=
  match g.wait with
  | some (.handle n none) => if f.readH n = h then { g with wait := some (.handle n (some (st, h))) } else g
  | _ => g

/-- Whether a group waits for a handle of its furrow. -/
def Group.awaits (f : Furrow) (h : W64) (g : Group) : Bool :=
  match g.wait with
  | some (.handle n none) => f.readH n == h
  | _ => false

/-- A command's slot completed with a handle status, which the groups that wait for it observe. -/
def State.resolveSlot (s : State) (c : Command) (st : W64) : State :=
  let h := handleOf (c.engine.val + 1) c.slot c.seq
  let s1 := s.onField c.field (fun fl => { fl with slots := Vector.ofFn (fun i : Fin 64 => fl.slots[i].map (fun (y : CmdSlot) =>
    if y.cmd == c.id then { y with status := some st, doneAt := s.cycles } else y)) })
  let mine := s1.furrows.filter (fun (f : Furrow) => f.field == c.field)
  let s2 := mine.foldl (fun s f => (f.groups.filter (Group.awaits f h)).foldl (fun s g => s.learned f g.lanes Scope.core.code [c.id]) s) s1
  { s2 with furrows := s2.furrows.map (fun (f : Furrow) =>
      if f.field == c.field then { f with groups := f.groups.map (Group.learn f h st) } else f) }

/-- A cancel (R272, R362): a queued command leaves its engine, a suspended one ends, a running one ends at its next stop point. -/
def State.cancelCmd (s : State) (id : Nat) : State :=
  match s.cmd? id with
  | none => s
  | some c =>
    match c.phase with
    | .queued => ({ s with commands := s.commands.filter (fun x => x.id != id) } : State).resolveSlot c 1
    | _ => s.onCmd id Command.cancel

/-- The uncompleted command that a handle of a furrow names. -/
def State.liveCommand (s : State) (u : Furrow) (h : Fin 16) : Option Nat :=
  match s.field? u.field with
  | none => none
  | some fl =>
    match fl.viewHandle (u.readH h) with
    | .slot _ c => if c.status.isNone then some c.cmd else none
    | _ => none

/-- R272: the cancel of a command; a completed, null or expired handle has no effect. -/
def execHcancel (f : SEhc) (s : State) : Out :=
  running (.hcancel f) s (fun q u g =>
    match s.liveCommand u f.h with
    | some id => (s.cancelCmd id).skip (.hcancel f) q g
    | none => s.skip (.hcancel f) q g)

/-- R273: w[WA] := h[H]. -/
def execHget (f : SEh) (s : State) : Out :=
  running (.hget f) s (fun q u g => s.done (.hget f) q (u.writeW f.wa.val (u.readH f.h)) g 0 0)

/-- R273: h[H] := w[WA]. -/
def execHset (f : SEh) (s : State) : Out :=
  running (.hset f) s (fun q u g => s.done (.hset f) q { u with h := u.h.set f.h (u.readW f.wa.val) } g 0 0)

/-! ### Caddy instructions (R283) -/

/-- R40, R283: entry id := w[A] to w[A + 6]. -/
def execCset (f : LC) (s : State) : Out :=
  running (.cset f) s (fun q u g =>
    if !u.converged (.cset f) g then trapNow s q g g.lanes 0x21 0
    else
      let e : Vector W64 7 := Vector.ofFn (fun k : Fin 7 => u.readW (f.a.val + k.val))
      (s.onField u.field (fun fl => { fl with caddy := fl.caddy.set (Fin.ofNat 64 f.id.toNat) e })).skip (.cset f) q g)

/-- R40, R283: entry id := an empty entry. -/
def execCclr (f : LC) (s : State) : Out :=
  running (.cclr f) s (fun q u g =>
    if !u.converged (.cclr f) g then trapNow s q g g.lanes 0x21 0
    else (s.onField u.field (fun fl => { fl with caddy := fl.caddy.set (Fin.ofNat 64 f.id.toNat) (Vector.replicate 7 0) })).skip (.cclr f) q g)

/-- R283: w[D] := word k of entry id, when some lane's guard is true. -/
def execCget (f : LC) (s : State) : Out :=
  running (.cget f) s (fun q u g =>
    if u.activeSet (.cget f) g = 0 then s.skip (.cget f) q g
    else
      let x := match s.field? u.field with
        | some fl => (fl.caddy[Fin.ofNat 64 f.id.toNat])[Fin.ofNat 7 f.a.val]
        | none => 0
      s.done (.cget f) q (u.writeW f.d.val x) g 0 0)

end Sys2Proof.Machine
end

