-- ==== Sys2Proof/Machine/Schemes.lean ====
section
/-! DEFINITION. The headworks' accounts of a scheme: field indices (R61), when a reach starts further fields (R61, R64, R401), how reaches and
schemes end (R63, R64), and what a retiring field leaves (R53, R62, R409, R410). -/
namespace Sys2Proof.Machine

/-! ### Reaches and their basins -/

/-- Basins a reach reads, or writes. -/
def Scheme.basinsOf (sc : Scheme) (r : Reach) (out : Bool) : List Basin :=
  r.ports.toList.filterMap (fun p => p.bind (fun x => if x.1 == out then sc.basins[x.2]? else none))

/-- A basin that is over: ended, with every slot empty (R61, R63). -/
def Basin.over (b : Basin) : Bool := b.ended && b.full.isEmpty && b.reading.isEmpty && b.filling.isEmpty

/-- At least ceiling(D / 4) slots of a list (R401). -/
def Basin.quarterFull (b : Basin) (l : List Nat) : Bool := decide (ceilDiv b.depth 4 ≤ l.length)

/-- Fields that start together: one, or a whole terrace (R55, R61). -/
def Reach.batch (r : Reach) : Nat := max 1 r.tsize

/-- Whether a reach is due to start a further field or terrace (R61, R64, R401). -/
def State.reachDue (s : State) (sc : Scheme) (ix : Nat) (r : Reach) : Bool :=
  let live := (s.reachFields sc.id ix).length
  if r.ended then false
  else if r.kind = 0 then
    decide (r.startedFields < r.maxFields) && (sc.basinsOf r true).all (fun b => b.quarterFull b.empty)
  else if r.kind = 1 then
    let ins := sc.basinsOf r false
    if ins.isEmpty then decide (r.startedFields < r.maxFields)
    else !ins.all Basin.over && (decide (live < r.minFields)
      || (decide (live + r.batch ≤ r.maxFields) && ins.all (fun b => b.quarterFull b.full)))
  else r.running && decide (r.startedFields < r.maxFields)

/-! ### Field indices (R61) -/

/-- The index that follows: whole terraces, below 2^32 − 1. -/
def Reach.afterIx (r : Reach) (n : Nat) : Nat := if n + r.batch + r.batch ≤ 2 ^ 32 - 1 then n + r.batch else 0

/-- The next index from n that no live field of the reach holds. -/
def freeIx (r : Reach) (used : List Nat) : Nat → Nat → Nat
  | 0, n => n
  | fuel + 1, n => if (List.range r.batch).any (fun k => used.contains (n + k)) then freeIx r used fuel (r.afterIx n) else n

/-- A field of a reach, waiting for a core. -/
def reachField (id : Nat) (sc : Scheme) (ix : Nat) (r : Reach) (fieldIx member : Nat) : Field :=
  { id := id, ctx := sc.ctx, scheme := sc.id, reach := ix, fieldIx := fieldIx, fcount := r.kernel.furrows, tsize := r.tsize - 1, member := member,
    cls := r.cls, kernel := r.kernel, sp := { size := r.kernel.scratch }, tile := { size := r.kernel.tiles },
    bsl := { size := 64 * r.kernel.bslice } }

/-- A reach of a scheme changed. -/
def State.onReach (s : State) (scheme ix : Nat) (k : Reach → Reach) : State :=
  s.onScheme scheme (fun sc => { sc with reaches := sc.reaches.mapIdx (fun j r => if j = ix then k r else r) })

/-- A further field or terrace of a reach, waiting (R61). -/
def State.openFields (s : State) (sc : Scheme) (ix : Nat) (r : Reach) : State :=
  let used := (s.reachFields sc.id ix).map Field.fieldIx
  let n := freeIx r used used.length r.nextIx
  let fs := (List.range r.batch).map (fun m => reachField (s.nextId + m) sc ix r (n + m) (if r.tsize = 0 then 0 else m))
  ({ s with nextId := s.nextId + r.batch, fields := s.fields ++ fs } : State).onReach sc.id ix
    (fun r => { r with nextIx := r.afterIx n, startedFields := r.startedFields + r.batch })

/-- A counter-triggered reach whose counter is 0 or less dispatches when no dispatch of it runs (R64). -/
def State.dispatch (s : State) (scheme ix : Nat) : State :=
  s.onReach scheme ix (fun r =>
    if r.kind = 2 ∧ !r.ended ∧ !r.running ∧ r.counter ≤ 0 then
      { r with running := true, startedFields := 0, nextIx := 0, counter := r.counter + r.arm } else r)

/-- Whether a reach has a field waiting for its first core. -/
def State.reachWaits (s : State) (scheme ix : Nat) : Bool := (s.reachFields scheme ix).any (fun f => f.status == .waiting)

/-- A scheme evaluated (R401): each reach that is due and has none waiting starts one more field or terrace. -/
def State.evaluate (s : State) (scheme : Nat) : State :=
  match s.scheme? scheme with
  | none => s
  | some sc =>
    if sc.ended.isSome ∨ (s.ctx? sc.ctx).any (fun c => c.ended.isSome) then s
    else
      (List.range sc.reaches.length).foldl (fun s ix =>
        match s.scheme? scheme with
        | none => s
        | some sc =>
          match sc.reaches[ix]? with
          | none => s
          | some r => if s.reachDue sc ix r && !s.reachWaits scheme ix then s.openFields sc ix r else s) s

/-! ### Ends (R63, R64) -/

/-- Whether a reach has come to its end. -/
def State.reachOver (s : State) (sc : Scheme) (ix : Nat) (r : Reach) : Bool :=
  let live := !(s.reachFields sc.id ix).isEmpty
  if r.kind = 0 then !live && decide (r.maxFields ≤ r.startedFields)
  else if r.kind = 1 then
    let ins := sc.basinsOf r false
    !live && (if ins.isEmpty then decide (r.maxFields ≤ r.startedFields) else ins.all Basin.over)
  else r.final && !r.running && decide (0 < r.counter)

/-- A dispatch whose fields have all retired is over, and the next one may start (R64). -/
def State.dispatchOver (s : State) (scheme ix : Nat) : State :=
  let s1 := s.onReach scheme ix (fun r =>
    if r.running && decide (r.maxFields ≤ r.startedFields) && (s.reachFields scheme ix).isEmpty then { r with running := false } else r)
  s1.dispatch scheme ix

/-- Reach ix ended: its output basins are ended with it (R63). -/
def State.endReach (s : State) (scheme ix : Nat) : State :=
  s.onScheme scheme (fun sc =>
    match sc.reaches[ix]? with
    | none => sc
    | some r =>
      let outs := r.ports.toList.filterMap (fun p => p.bind (fun x => if x.1 then some x.2 else none))
      { sc with reaches := sc.reaches.mapIdx (fun j r => if j = ix then { r with ended := true } else r),
                basins := sc.basins.mapIdx (fun b x => if outs.contains b then { x with ended := true } else x) })

/-- Reaches that are over end, one pass after another, as an ended basin may end its consumer. -/
def State.endReaches (scheme : Nat) : Nat → State → State
  | 0, s => s
  | n + 1, s =>
    match s.scheme? scheme with
    | none => s
    | some sc =>
      State.endReaches scheme n ((List.range sc.reaches.length).foldl (fun s ix =>
        match (s.scheme? scheme).bind (fun sc => (sc.reaches[ix]?).map (fun r => (sc, r))) with
        | none => s
        | some (sc, r) => if !r.ended && s.reachOver sc ix r then s.endReach scheme ix else s) s)

/-- A scheme settled after a field has retired or a counter has changed: dispatches, reach ends, DONE when all have ended (R63, R64, R398). -/
def State.settleScheme (s : State) (scheme : Nat) : State :=
  match s.scheme? scheme with
  | none => s
  | some sc =>
    if sc.ended.isSome then s
    else
      let s1 := (List.range sc.reaches.length).foldl (fun s ix => s.dispatchOver scheme ix) s
      let s2 := State.endReaches scheme 16 s1
      if (s2.scheme? scheme).any (fun sc => sc.reaches.all Reach.ended) then s2.endScheme scheme 0 0 0 else s2.evaluate scheme

/-! ### Retirement (R53, R62) -/

/-- A claim returned (R62): a slot being read to the head of its basin as full, one being filled as empty. -/
def State.returnClaim (s : State) (scheme : Nat) (k : Claim) : State :=
  s.onBasin scheme k.basin (fun b =>
    if b.reading.contains k.slot then { b with reading := setRemove b.reading k.slot, full := k.slot :: b.full }
    else if b.filling.contains k.slot then { b with filling := setRemove b.filling k.slot, empty := b.empty ++ [k.slot] } else b)

/-- Whether a field may retire: every furrow of it has retired and every command it pushed has completed (R53). -/
def State.mayRetire (s : State) (fl : Field) : Bool :=
  (((fl.status == .resident || fl.status == .collecting) && !fl.service) || fl.status == .ending)
    && !s.furrows.any (fun f => f.field == fl.id) && !s.commands.any (fun c => c.field == fl.id && !c.reported)

/-- A field gone: its claims returned, its image slot freed, the context's counters written back with its last field (R53, R62, R409). -/
def State.removeField (s : State) (fl : Field) : State :=
  let s1 := fl.claims.foldr (fun k s => s.returnClaim fl.scheme k) s
  let s2 := if fl.image.isSome then s1.describe fl 0 else s1
  let s3 := { s2 with fields := s2.fields.filter (fun f => f.id != fl.id), commands := s2.commands.filter (fun c => c.field != fl.id) }
  let s4 := if fl.image.isSome then s3.linkImages fl.ctx else s3
  if fl.placedAt ≠ 0 then s4.storeCounters fl.ctx fl.core else s4

/-! ### Launch counters (R64, R302) -/

/-- A fabric chunk counted at a reach; `last` is the last chunk of a transfer marked LAST (R64). Chunks after the reach's end count nothing. -/
def State.countChunk (s : State) (scheme ix : Nat) (last : Bool) : State :=
  let s1 := s.onReach scheme ix (fun r =>
    if r.kind = 2 ∧ !r.ended then { r with counter := r.counter - 1, final := r.final || last } else r)
  s1.settleScheme scheme

end Sys2Proof.Machine
end

