-- ==== Sys2Proof/Machine/Launch.lean ====
section
/-! DEFINITION. Launch records, kernel headers and their tables as the headworks reads them at acceptance (R175 to R178, R396, R397). -/
namespace Sys2Proof.Machine

/-! ### The record (R396) -/

/-- Bit 7 of a port byte: used; bit 6: output; bits 4 to 0: basin. -/
def portByte (b : Nat) : Option (Bool × Nat) := if b.testBit 7 then some (b.testBit 6, b % 32) else none

/-- Limits of a port byte. -/
def portOk (b : Nat) : Bool := if b.testBit 7 then !b.testBit 5 else b == 0

/-- A reach entry's fields. -/
structure ReachEntry where
  khdr : Nat
  nfield : Nat
  arm : Nat
  kind : Nat
  cls : Nat
  tsize : Nat
  ports : List Nat
  reserved : Nat
  deriving DecidableEq, Repr

/-- A reach entry from its 32 bytes. -/
def ReachEntry.ofBytes (bs : List Byte) : ReachEntry :=
  let n := imageNum bs
  { khdr := n 0 8, nfield := n 8 4, arm := n 12 4, kind := n 16 1, cls := n 17 1, tsize := n 18 1,
    ports := (List.range 4).map (fun k => n (0x14 + k) 1), reserved := n 0x13 1 + n 0x18 8 }

/-- Fewest and most fields of a reach. -/
def ReachEntry.minFields (e : ReachEntry) : Nat := if e.kind = 1 then e.nfield % 65536 else e.nfield
def ReachEntry.maxFields (e : ReachEntry) : Nat := if e.kind = 1 then e.nfield / 65536 else e.nfield

/-- Limits of a reach entry. -/
def ReachEntry.ok (e : ReachEntry) : Bool :=
  e.khdr % 64 == 0 && decide (e.kind ≤ 2) && decide (1 ≤ e.minFields ∧ e.minFields ≤ e.maxFields)
    && (e.kind != 2 || decide (e.nfield ≤ 65535)) && (if e.kind = 2 then decide (1 ≤ e.arm ∧ e.arm < 2 ^ 31) else e.arm == 0)
    && decide (e.cls ≤ 3) && decide (e.tsize ≠ 1 ∧ e.tsize ≤ 4)
    && (e.tsize == 0 || (e.minFields % e.tsize == 0 && e.maxFields % e.tsize == 0)) && e.ports.all portOk && e.reserved == 0

/-- A basin entry's fields: base, depth, slot bytes, and its reserved bytes. -/
structure BasinEntry where
  base : Nat
  depth : Nat
  slotBytes : Nat
  reserved : Nat
  deriving DecidableEq, Repr

/-- A basin entry from its 32 bytes. -/
def BasinEntry.ofBytes (bs : List Byte) : BasinEntry :=
  { base := imageNum bs 0 8, depth := imageNum bs 8 4, slotBytes := imageNum bs 12 4, reserved := imageNum bs 16 16 }

/-- Limits of a basin entry. -/
def BasinEntry.ok (e : BasinEntry) : Bool :=
  e.base % 64 == 0 && e.base != 0 && isGlobal e.base && decide (2 ≤ e.depth ∧ e.depth ≤ 65536) && e.slotBytes % 64 == 0
    && decide (64 ≤ e.slotBytes ∧ e.slotBytes ≤ 2 ^ 20) && e.reserved == 0

/-- A record's header fields. -/
structure RecordHead where
  version : Nat
  nreach : Nat
  nbasin : Nat
  param : Nat
  psize : Nat
  tlimit : Nat
  done : Nat
  tag : Nat
  reserved : Nat
  deriving DecidableEq, Repr

/-- A header from its 64 bytes. -/
def RecordHead.ofBytes (bs : List Byte) : RecordHead :=
  let n := imageNum bs
  { version := n 0 4, nreach := n 4 2, nbasin := n 6 1, param := n 8 8, psize := n 0x10 4, tlimit := n 0x14 4, done := n 0x18 8,
    tag := n 0x20 8, reserved := n 7 1 + n 0x28 24 }

/-- Limits of a header at an address. -/
def RecordHead.ok (h : RecordHead) (addr : Nat) : Bool :=
  addr % 64 == 0 && h.version == 1 && decide (1 ≤ h.nreach ∧ h.nreach ≤ 16) && decide (h.nbasin ≤ 32) && h.psize % 8 == 0
    && decide (h.psize ≤ 4096) && (if h.psize = 0 then h.param == 0 else h.param % 8 == 0) && h.done % 32 == 0 && h.reserved == 0

/-- Basin wiring (R396): every port names a basin of the record, and every basin has one output port and one input port. -/
def wiringOk (es : List ReachEntry) (nbasin : Nat) : Bool :=
  let ps := ((es.map (fun e => e.ports.filterMap portByte))).flatten
  ps.all (fun p => decide (p.2 < nbasin))
    && (List.range nbasin).all (fun b => (ps.filter (fun p => p.1 && p.2 == b)).length == 1 && (ps.filter (fun p => !p.1 && p.2 == b)).length == 1)

/-! ### Kernel headers and their tables (R175 to R178) -/

/-- Limits of a header's 64 bytes. -/
def headerOk (h : List Byte) : Bool :=
  let n := imageNum h
  n 0 4 == 1 && decide (1 ≤ n 4 4 ∧ n 4 4 ≤ 1398101) && decide (1 ≤ n 8 4 ∧ n 8 4 ≤ 2048) && n 12 4 % 256 == 0 && decide (n 12 4 ≤ 524288)
    && n 0x10 4 % 4096 == 0 && decide (n 0x10 4 ≤ 262144) && n 0x14 4 % 1024 == 0 && decide (n 0x14 4 ≤ 65536)
    && decide (1 ≤ n 0x18 1 ∧ n 0x18 1 ≤ 48) && decide (n 0x19 1 ≤ 64) && decide (n 0x1A 1 ≤ 1) && decide (n 0x1B 1 ≤ 63)
    && decide (n 0x1C 1 ≤ 32) && decide (n 0x1D 1 ≤ 64) && n 0x1E 2 == 0 && n 0x20 8 % 4096 == 0 && isGlobal (n 0x20 8) && n 0x28 24 == 0

/-- Entry k of a table of entries of n bytes. -/
def entryAt (bs : List Byte) (n k : Nat) : List Byte := (bs.drop (n * k)).take n

/-- A constant entry applied (R176); none where it breaks a rule. -/
def constOf (params : List Byte) (e : List Byte) : Option (Nat × W64) :=
  let n := imageNum e
  if n 0 1 = 0 ∨ 63 < n 0 1 ∨ 1 < n 1 1 ∨ n 2 6 ≠ 0 then none
  else if n 1 1 = 0 then some (n 0 1, BitVec.ofNat 64 (n 8 8))
  else if n 8 8 % 8 ≠ 0 ∨ 4088 < n 8 8 ∨ params.length ≤ n 8 8 then none
  else some (n 0 1, BitVec.ofNat 64 (imageNum params (n 8 8) 8))

/-- A patch entry (R177): the word, and the parameter byte's index; none where it breaks a rule that needs no word read. -/
def patchOf (pkts psize : Nat) (e : List Byte) : Option (Nat × Nat) :=
  let x := imageNum e 0 8
  if bitsOf x 22 10 ≠ 0 ∨ bitsOf x 44 20 ≠ 0 ∨ 3 * pkts ≤ bitsOf x 0 22 ∨ psize ≤ bitsOf x 32 12 then none
  else some (bitsOf x 0 22, bitsOf x 32 12)

/-- A tensor entry (R178). -/
def tensorEntry (e : List Byte) : Option (Nat × Vector W64 7) :=
  if 63 < imageNum e 0 1 ∨ imageNum e 1 7 ≠ 0 then none
  else some (imageNum e 0 1, Vector.ofFn (fun k : Fin 7 => BitVec.ofNat 64 (imageNum e (8 + 8 * k.val) 8)))

/-- Whether the word at an index has an IMM8 field (R177): none where it cannot be read. The word after a long word is read too, except where no long
word can stand: at word 2 of a packet and at the end of the code (R161). -/
def State.patchable (s : State) (ctx base pkts ix : Nat) : Option Bool :=
  match s.baseRead ctx (base + 4 * ix) 4 { fetch := true } with
  | none => none
  | some bs =>
    let w := leNat bs
    if !isLongMajor (majorOf w) then some (patchWord w 0 0).isSome
    else if ix % 3 = 2 ∨ 3 * pkts ≤ ix + 1 then some false
    else (s.baseRead ctx (base + 4 * (ix + 1)) 4 { fetch := true }).map (fun x => (patchWord w (leNat x) 0).isSome)

/-- A kernel read at acceptance: with a rule broken (reason 2), or with a read that failed (reason 7). -/
structure KernelRead where
  kernel : Kernel
  broken : Bool
  failed : Bool
  deriving DecidableEq, Repr

/-- A kernel with nothing in it. -/
def noKernel : Kernel :=
  { codeBase := 0, codePkts := 0, threads := 1, scratch := 0, tiles := 0, bslice := 0, extRegs := 0, noReuse := false, consts := [], patches := [],
    tensors := [] }

/-- A kernel's needs and code from its header's bytes. -/
def headKernel (h : List Byte) : Kernel :=
  let n := imageNum h
  { codeBase := n 0x20 8, codePkts := n 4 4, threads := n 8 4, scratch := n 12 4, tiles := n 0x10 4, bslice := n 0x14 4, extRegs := n 0x19 1,
    noReuse := n 0x1A 1 == 1, consts := [], patches := [], tensors := [] }

/-- A kernel from its header's and its tables' bytes. -/
def State.kernelOf (s : State) (ctx : Nat) (params h t : List Byte) : KernelRead :=
  let n := imageNum h
  let nc := n 0x1B 1
  let np := n 0x1C 1
  let cs := (List.range nc).map (fun k => constOf params (entryAt t 16 k))
  let ps := (List.range np).map (fun k => patchOf (n 4 4) params.length (entryAt (t.drop (16 * nc)) 8 k))
  let ts := (List.range (n 0x1D 1)).map (fun k => tensorEntry (entryAt (t.drop (16 * nc + 8 * np)) 64 k))
  let words := ps.filterMap (fun p => p.map Prod.fst)
  let reads := words.map (fun ix => s.patchable ctx (n 0x20 8) (n 4 4) ix)
  { kernel := { headKernel h with
      consts := cs.filterMap (fun x => x), tensors := ts.filterMap (fun x => x),
      patches := ps.filterMap (fun p => p.map (fun p => (p.1, BitVec.ofNat 8 (imageNum params p.2 1)))) },
    broken := cs.any Option.isNone || ps.any Option.isNone || ts.any Option.isNone || words.dedup.length != words.length
      || reads.any (fun r => r == some false),
    failed := reads.any Option.isNone }

/-- A kernel read from its header's address; where the parameter block of psize bytes could not be read, `params` is none. What could not be
read breaks no rule itself, and stands for the least that a kernel needs. -/
def State.readKernel (s : State) (ctx psize : Nat) (params : Option (List Byte)) (khdr : Nat) : KernelRead :=
  match s.baseRead ctx khdr 64 {} with
  | none => { kernel := noKernel, broken := false, failed := true }
  | some h =>
    if !headerOk h then { kernel := noKernel, broken := true, failed := false }
    else
      let n := 16 * imageNum h 0x1B 1 + 8 * imageNum h 0x1C 1 + 64 * imageNum h 0x1D 1
      match if n = 0 then some [] else s.baseRead ctx (khdr + 64) n {} with
      | none => { kernel := headKernel h, broken := false, failed := true }
      | some t =>
        let r := s.kernelOf ctx (params.getD (List.replicate psize 0)) h t
        { r with failed := r.failed || params.isNone }

/-! ### Acceptance (R397) -/

/-- A record as read: the reason of its rejection, DONE and TAG where the header could be read, and the scheme's reaches and basins. -/
structure LaunchRead where
  reason : Nat
  done : BitVec 64
  tag : BitVec 64
  tlimit : Nat
  reaches : List Reach
  basins : List Basin
  deriving DecidableEq, Repr

/-- A reach from its entry and kernel. -/
def reachOf (e : ReachEntry) (k : Kernel) : Reach :=
  { kernel := k, kind := e.kind, cls := e.cls, tsize := e.tsize, minFields := e.minFields, maxFields := e.maxFields, arm := e.arm,
    ports := Vector.ofFn (fun i : Fin 4 => portByte (e.ports.getD i.val 0)), counter := (e.arm : Int) }

/-- A basin at the start of a scheme: every slot empty. -/
def basinOf (e : BasinEntry) : Basin :=
  { base := BitVec.ofNat 64 e.base, depth := e.depth, slotBytes := e.slotBytes, empty := List.range e.depth, filling := [], full := [], reading := [] }

/-- A field of a reach, to ask where it would fit. -/
def protoField (ctx : Nat) (e : ReachEntry) (k : Kernel) : Field :=
  { id := 0, ctx := ctx, scheme := 0, fcount := k.furrows, tsize := e.tsize - 1, cls := e.cls, kernel := k, sp := { size := k.scratch },
    tile := { size := k.tiles }, bsl := { size := 64 * k.bslice } }

/-- The package with nothing on its cores but service fields. -/
def State.emptied (s : State) : State :=
  { s with fields := s.fields.filter (fun f => f.service), furrows := s.furrows.filter (fun f => s.isService f) }

/-- Whether some core, or for a terrace enough cores of one quad, of the context's partition would hold a field (R397 reason 5). -/
def State.fitsSomewhere (s : State) (fl : Field) (tsize : Nat) : Bool :=
  let e := s.emptied
  let ok := fun (core : Nat) => s.coreInPart (s.partOf fl.ctx) core && !(s.die (dieOf core)).excluded && e.fitsOn core fl
  if tsize = 0 then allCores.any ok
  else (List.range 72).any (fun q => decide (tsize ≤ ((List.range 4).filter (fun j => ok (4 * q + j))).length))

/-- The lowest reason that applies (R397), 0 for none, of a record whose entries could be read. -/
def State.reasonOf (s : State) (c : Ctx) (h : RecordHead) (es : List ReachEntry) (bs : List BasinEntry) (ks : List KernelRead) (noParams : Bool) : Nat :=
  let ps := (es.zip ks).map (fun x => (protoField c.ctx x.1 x.2.kernel, x.1.tsize))
  if !(es.all ReachEntry.ok && bs.all BasinEntry.ok) then 1
  else if ks.any KernelRead.broken then 2
  else if !wiringOk es h.nbasin then 3
  else if es.any (fun e => decide (e.cls < c.classMin)) then 4
  else if !ps.all (fun p => s.fitsSomewhere p.1 p.2) then 5
  else if decide (c.saveSize < 0x4000 + (ps.map (fun p => p.1.imageSize)).sum) then 6
  else if noParams || ks.any KernelRead.failed then 7
  else 0

/-- A launch record read under a context (R396, R397). -/
def State.readLaunch (s : State) (c : Ctx) (addr : Nat) : LaunchRead :=
  let none_ : LaunchRead := { reason := if addr % 64 = 0 ∧ isGlobal addr then 7 else 1, done := unknownDone, tag := 0, tlimit := 0, reaches := [], basins := [] }
  match s.baseRead c.ctx addr 64 {} with
  | none => none_
  | some hb =>
    let h := RecordHead.ofBytes hb
    let base : LaunchRead := { reason := 1, done := BitVec.ofNat 64 h.done, tag := BitVec.ofNat 64 h.tag, tlimit := h.tlimit, reaches := [], basins := [] }
    if !h.ok addr then base
    else match s.baseRead c.ctx (addr + 64) (32 * (h.nreach + h.nbasin)) {} with
    | none => { base with reason := 7 }
    | some t =>
      let es := (List.range h.nreach).map (fun k => ReachEntry.ofBytes (entryAt t 32 k))
      let bs := (List.range h.nbasin).map (fun k => BasinEntry.ofBytes (entryAt (t.drop (32 * h.nreach)) 32 k))
      let params := if h.psize = 0 then some [] else s.baseRead c.ctx h.param h.psize {}
      let ks := es.map (fun e => s.readKernel c.ctx h.psize params e.khdr)
      { base with
        reason := s.reasonOf c h es bs ks params.isNone, reaches := (es.zip ks).map (fun x => reachOf x.1 x.2.kernel), basins := bs.map basinOf }

/-! ### What acceptance reads (R372, R396, R397) -/

/-- The words of a patched place: its own, and the one after where that is read too (R177). -/
def State.wordReads (s : State) (ctx base pkts ix : Nat) : List (Nat × Nat × AccessKind) :=
  let k : AccessKind := { fetch := true }
  let wide := (s.baseRead ctx (base + 4 * ix) 4 k).any (fun bs => isLongMajor (majorOf (leNat bs)) && ix % 3 != 2 && decide (ix + 1 < 3 * pkts))
  (base + 4 * ix, 4, k) :: (if wide then [(base + 4 * (ix + 1), 4, k)] else [])

/-- The reads of a kernel: its header, its tables and the words that its patches name. -/
def State.kernelReads (s : State) (ctx psize khdr : Nat) : List (Nat × Nat × AccessKind) :=
  (khdr, 64, {}) :: (match s.baseRead ctx khdr 64 {} with
    | none => []
    | some h =>
      if !headerOk h then []
      else
        let n := imageNum h
        let nc := n 0x1B 1
        let np := n 0x1C 1
        let nt := 16 * nc + 8 * np + 64 * n 0x1D 1
        if nt = 0 then []
        else (khdr + 64, nt, {}) :: (match s.baseRead ctx (khdr + 64) nt {} with
          | none => []
          | some t => (((List.range np).filterMap (fun k => patchOf (n 4 4) psize (entryAt (t.drop (16 * nc)) 8 k))).map
              (fun p => s.wordReads ctx (n 0x20 8) (n 4 4) p.1)).flatten))

/-- The reads of a launch record: its header, its entries, the parameter block and its kernels. -/
def State.launchReads (s : State) (c : Ctx) (addr : Nat) : List (Nat × Nat × AccessKind) :=
  (addr, 64, {}) :: (match s.baseRead c.ctx addr 64 {} with
    | none => []
    | some hb =>
      let h := RecordHead.ofBytes hb
      let n := 32 * (h.nreach + h.nbasin)
      if !h.ok addr then []
      else (addr + 64, n, {}) :: (match s.baseRead c.ctx (addr + 64) n {} with
        | none => []
        | some t =>
          (if h.psize = 0 then [] else [(h.param, h.psize, {})])
            ++ (((List.range h.nreach).map (fun k => ReachEntry.ofBytes (entryAt t 32 k))).map (fun e => s.kernelReads c.ctx h.psize e.khdr)).flatten))

end Sys2Proof.Machine
end

