-- ==== Sys2Proof/Machine/Control.lean ====
section
/-! DEFINITION. Clause headers, `nop`, branches, calls, loops, reconvergence, `exit`, `yield`, system calls, and the mode transitions: majors
0x01, 0x04 to 0x07 and 0x0C (R164, R167 to R169, R172, R188 to R196, R315, R330 to R336). -/
namespace Sys2Proof.Machine

/-! ### Clauses -/

/-- R167 to R170: fetching the header closes the group's old instance; the group enters the new one with its first chain (State.beginChain). It
takes no slot: the same issue goes on with the next word. -/
def execClause (f : ClauseH) (s : State) : Out :=
  issued s (fun q u g =>
    if u.spec.isSome then .next (s.waitOn q g .specHold)
    else
      let u1 := (u.closeClause g).onGroup g.lanes (fun g => { g with pc := g.pc + 4, header := some f, wait := none })
      .next { s.setFurrow u1 with issue := some { q with reopen := none } })

/-- R164: no effect. -/
def execNop (c : Bool) (s : State) : Out := running (.nop c) s (fun q _ g => s.skip (.nop c) q g)

/-! ### Branches and calls -/

/-- The lanes of a mask sent to a packet, the others to the next word. -/
def branchTo (i : Instr) (s : State) (q : Issue) (u : Furrow) (g : Group) (m : Mask) (pc : BitVec 24) : Out :=
  s.transfer i q u g (fun l => if inMask m l then pc else nextPc g.pc i.words)

/-- R172: the lanes whose guard is true go to packet PKT. -/
def execBra (f : SB) (s : State) : Out :=
  running (.bra f) s (fun q u g => branchTo (.bra f) s q u g (u.activeSet (.bra f) g) (pcOfPacket f.pkt.toNat))

/-- R189: the lanes of the active set push their return address and go to a packet; lanes whose stack is full trap instead, and then no
lane calls. -/
def callTo (i : Instr) (s : State) (q : Issue) (u : Furrow) (g : Group) (pkt : Nat) : Out :=
  let m := u.activeSet i g
  let bad := m &&& maskOf (fun l => decide (16 ≤ (laneAt u.lanes l).depthAt u.level))
  if bad ≠ 0 then trapNow s q g bad 0x24 0
  else branchTo i s q (u.onLanes m (fun _ l => l.pushPc u.level (nextPc g.pc 1))) g m (pcOfPacket pkt)

/-- R189: `call`. -/
def execCall (f : SB) (s : State) : Out := running (.call f) s (fun q u g => callTo (.call f) s q u g f.pkt.toNat)

/-- R190: a computed target that is negative or not below the code length traps as illegal in the lanes whose guard is true. -/
def withTarget (i : Instr) (wa : Fin 64) (s : State) (k : Issue → Furrow → Group → Nat → Out) : Out :=
  running i s (fun q u g =>
    let t := (u.readW wa.val).toNat
    let m := u.activeSet i g
    if m ≠ 0 ∧ (s.codeOf u).2 ≤ t then trapNow s q g m 0x20 0 else k q u g t)

/-- R190: `jmp` to packet w[WA]. -/
def execJmp (f : SCw) (s : State) : Out :=
  withTarget (.jmp f) f.wa s (fun q u g t => branchTo (.jmp f) s q u g (u.activeSet (.jmp f) g) (pcOfPacket t))

/-- R190: `callr` to packet w[WA]. -/
def execCallr (f : SCw) (s : State) : Out := withTarget (.callr f) f.wa s (fun q u g t => callTo (.callr f) s q u g t)

/-- R190, R311: `ret` pops; at the floor of its level it traps instead, and then no lane returns. -/
def execRet (f : SCg) (s : State) : Out :=
  running (.ret f) s (fun q u g =>
    let m := u.activeSet (.ret f) g
    let bad := m &&& maskOf (fun l => decide ((laneAt u.lanes l).depthAt u.level ≤ u.floorOf l))
    if bad ≠ 0 then trapNow s q g bad 0x24 0
    else
      let top := fun l => let ln := laneAt u.lanes l; ln.stackAt u.level (ln.depthAt u.level - 1)
      s.transfer (.ret f) q (u.onLanes m (fun _ l => l.popPc u.level)) g (fun l => if inMask m l then top l else nextPc g.pc 1))

/-- The PC of a signed packet offset from the instruction's own packet (R190). -/
def offsetPc (pc : BitVec 24) (off : BitVec 8) : BitVec 24 := BitVec.ofInt 24 (12 * ((packetOf pc : Int) + off.toInt))

/-- `bwz` and `bwnz`: the lanes whose guard is true branch when the test holds. -/
def branchIf (i : Instr) (f : SCb) (test : W64 → Bool) (s : State) : Out :=
  running i s (fun q u g =>
    branchTo i s q u g (if test (u.readW f.wa.val) then u.activeSet i g else 0) (offsetPc g.pc f.off))

/-- R190: branch when w[WA] is 0. -/
def execBwz (f : SCb) (s : State) : Out := branchIf (.bwz f) f (fun x => x == 0) s

/-- R190: branch when w[WA] is not 0. -/
def execBwnz (f : SCb) (s : State) : Out := branchIf (.bwnz f) f (fun x => x != 0) s

/-- R191: the count falls once per group that has a true guard; those lanes branch while it is not 0. -/
def execLoop (f : SCb) (s : State) : Out :=
  running (.loop f) s (fun q u g =>
    let m := u.activeSet (.loop f) g
    if m = 0 then s.skip (.loop f) q g
    else
      let n := u.readW f.wa.val - 1
      branchTo (.loop f) s q (u.writeW f.wa.val n) g (if n = 0 then 0 else m) (offsetPc g.pc f.off))

/-! ### Reconvergence, exit, yield -/

/-- R192: the group is held at the `rcv` with the mask it read; ISSUE_SELECTION releases it. What it stored on a diverged path is promised to
become visible from here on (R142). -/
def execRcv (f : SCm) (s : State) : Out :=
  running (.rcv f) s (fun q u g =>
    let m := (u.readW f.wa.val).setWidth 32
    .next (((s.undiverge (u.party g.lanes)).onFurrow q.core q.slot (fun u => u.onGroup g.lanes (fun g =>
      { g with rcv := some (if m = 0 then 0xFFFFFFFF else m), wait := none, backoff := none }))).endChain q g.lanes))

/-- R193, R315: the lanes whose guard is true exit; the others advance. Above level 0 it is illegal. -/
def execExit (f : SCg) (s : State) : Out :=
  running (.exit f) s (fun q u g =>
    let m := u.activeSet (.exit f) g
    if m = 0 then s.skip (.exit f) q g
    else if u.level ≠ 0 then trapNow s q g m 0x20 0
    else
      let rest := g.lanes &&& ~~~m
      let u1 := (u.onGroup g.lanes (fun g => { g.retire u.spec.isSome with pc := nextPc g.pc 1 })).exitLanes m
      let s1 := s.setFurrow u1
      .next (if f.c && rest != 0 then s1.chainOn q rest else s1.endChain q g.lanes))

/-- R194: the group is excluded from the furrow's next slot. -/
def execYield (f : SCg) (s : State) : Out :=
  running (.yield f) s (fun q u g =>
    let on := u.activeSet (.yield f) g != 0
    (s.onFurrow q.core q.slot (fun u => u.onGroup g.lanes (fun g => { g with yielded := g.yielded || on }))).skip (.yield f) q g)

/-! ### System calls and breakpoints -/

/-- R195, R196: the lanes whose guard is true take SYSCALL at the next word, with w[WA] as its argument; at level 3 it is illegal. -/
def execSysc (f : SCs) (s : State) : Out :=
  running (.sysc f) s (fun q u g =>
    let m := u.activeSet (.sysc f) g
    if m = 0 then s.skip (.sysc f) q g
    else if u.level = 3 then trapNow s q g m 0x20 0
    else trapWith s q { trapAt m 1 f.n.toNat (nextPc g.pc 1) with arg := u.readW f.wa.val })

/-- R195, R196: the lanes whose guard is true take BREAK at the `brk` itself. -/
def execBrk (f : SCn) (s : State) : Out :=
  running (.brk f) s (fun q u g =>
    let m := u.activeSet (.brk f) g
    if m = 0 then s.skip (.brk f) q g
    else if u.level = 3 then trapNow s q g m 0x20 0
    else trapNow s q g m 2 f.n.toNat)

/-! ### Mode transitions -/

/-- R330: the return from a trap. -/
def execTret (f : SCm) (s : State) : Out :=
  running (.tret f) s (fun q u g =>
    match u.frame? u.level with
    | none => trapNow s q g g.lanes 0x20 0
    | some fr =>
      if g.lanes ≠ u.running then trapNow s q g g.lanes 0x21 0
      else if u.posted.any (fun p => p.level == u.level) then .next (s.waitOn q g .levelDrain)
      else .next ((s.returnTrap u fr ((u.readW f.wa.val).setWidth 32)).endIssue q))

/-- R335: the field ends. A service field ends only at a firmware switch or a reset (R18, log 99): there it only goes on. -/
def execFend (c : Bool) (s : State) : Out :=
  running (.fend c) s (fun q u g => if s.isService u then s.skip (.fend c) q g else .next ((s.endField u.field).endIssue q))

/-- R336: the context ends with code CEND and DETAIL n; with CENDH set it traps at levels 1 and 2. A service context does not end (R18, log 99). -/
def execCend (f : SCc) (s : State) : Out :=
  running (.cend f) s (fun q u g =>
    let held := (s.ctx? (s.ctxOf u)).any (fun c => c.hctl.getLsbD 1)
    if held ∧ u.level ≠ 3 then trapNow s q g g.lanes 0x22 0
    else if s.isService u then s.skip (.cend f) q g
    else .next ((s.endContext (s.ctxOf u) { code := 2, detail := f.n.toNat, loc := 0 }).endIssue q))

/-- The resident fields that a HALT request names (R334). -/
def State.haltTargets (s : State) (u : Furrow) (w : Nat) : List Nat :=
  let own := s.ctxOf u
  let x := bitsOf w 48 16
  let ctx := if x = 0 then own else x
  if bitsOf w 36 12 ≠ 0 ∨ (x ≠ 0 ∧ u.level ≠ 3 ∧ !s.isService u) then []
  else (s.fields.filter (fun fl => fl.ctx == ctx && !fl.service && fl.reach == bitsOf w 32 4 && fl.fieldIx == bitsOf w 0 32
      && (fl.status == .resident || fl.status == .collecting))).map Field.id

/-- R334: HALT becomes pending on every furrow of the fields named; each takes it at its next boundary at level 0
(HALT_REQUEST_ARRIVE, ISSUE_SELECTION). -/
def execDhalt (f : SCm) (s : State) : Out :=
  running (.dhalt f) s (fun q u g =>
    let ids := s.haltTargets u (u.readW f.wa.val).toNat
    ({ s with furrows := s.furrows.map (fun (v : Furrow) => if ids.contains v.field then { v with haltPend := true } else v) } : State).skip
      (.dhalt f) q g)

end Sys2Proof.Machine
end

