-- ==== Sys2Proof/Machine/Weirs.lean ====
section
/-! DEFINITION. Weirs: their layout (R278), contributions (R279) and the weir instructions of major 0x0B (R280, R281). -/
namespace Sys2Proof.Machine

/-! ### Layout and contributions -/

/-- A weir's fields (R278), as unsigned numbers of their widths; its reserved word reads as 0 (R6). -/
structure Weir where
  arr : Nat
  arrInit : Nat
  bytes : Nat
  bytesInit : Nat
  phase : Nat
  status : Nat
  deriving DecidableEq, Repr

/-- A weir from its 32 bytes. -/
def Weir.ofBytes (bs : List Byte) : Weir :=
  let n := leNat bs
  { arr := bitsOf n 0 32, arrInit := bitsOf n 32 32, bytes := bitsOf n 64 32, bytesInit := bitsOf n 96 32, phase := bitsOf n 128 32,
    status := bitsOf n 192 64 }

/-- The 32 bytes of a weir. -/
def Weir.toBytes (w : Weir) : List Byte :=
  leBytes 4 w.arr ++ leBytes 4 w.arrInit ++ leBytes 4 w.bytes ++ leBytes 4 w.bytesInit ++ leBytes 4 w.phase ++ leBytes 4 0
    ++ leBytes 8 w.status

/-- Bits [lo + n - 1 : lo] of a number replaced. -/
def putBits (x lo n y : Nat) : Nat := x - bitsOf x lo n * 2 ^ lo + y % 2 ^ n * 2 ^ lo

/-- A status word under a phase's tag (R276). -/
def withTag (st phase : Nat) : Nat := putBits st 48 8 (phase % 256)

/-- STATUS with a status word contributed: the first of a phase is taken, a later one adds its flags, and its code where none stands
(R279). -/
def Weir.addStatus (w : Weir) (st : Nat) : Nat :=
  if bitsOf w.status 48 8 ≠ w.phase % 256 then withTag st w.phase
  else
    let s1 := putBits w.status 40 3 (bitsOf w.status 40 3 ||| bitsOf st 40 3)
    if bitsOf w.status 0 8 = 0 then
      putBits (putBits (putBits s1 61 3 (bitsOf st 61 3)) 8 32 (bitsOf st 8 32)) 0 8 (bitsOf st 0 8)
    else s1

/-- A contribution (darr, dbytes, st) with at most one flip (R279). ARR and BYTES wrap to their 32 bits before the test (DESIGN CHOICE, log 102: R279
gives no wrap for them). -/
def Weir.contribute (w : Weir) (darr dbytes : Int) (st : Option Nat) : Weir :=
  let w1 : Weir := match st with
    | some x => { w with status := w.addStatus x }
    | none => w
  let a := sext (wrap ((w1.arr : Int) - darr) 32) 32
  let b := sext (wrap ((w1.bytes : Int) - dbytes) 32) 32
  if a ≤ 0 ∧ b ≤ 0 then
    { w1 with status := if bitsOf w1.status 48 8 ≠ w1.phase % 256 then withTag 0 w1.phase else w1.status,
              phase := wrap ((w1.phase : Int) + 1) 32, arr := wrap (a + w1.arrInit) 32, bytes := wrap (b + w1.bytesInit) 32 }
  else { w1 with arr := wrap a 32, bytes := wrap b 32 }

/-- Whether a weir lies where none may stand (R278, R281): host or peer-package memory. -/
def State.badWeir (s : State) (t : Spot) : Bool :=
  match t with
  | .scratch _ _ => false
  | .global ps => ps.any (fun p => !s.isLocal p.1)

/-- The weir at a place, as it stands in coherence order (R279). -/
def State.weirAt (s : State) (t : Spot) : Weir := Weir.ofBytes (s.homeBytes 32 t)

/-! ### Weir instructions -/

/-- A weir written by the group of a furrow at the place of one of its lanes; after a read-modify-write the group has seen the weir as it stood
(R138). -/
def State.putWeir (s : State) (f : Furrow) (g : Group) (rmw : Bool) (a : Nat × Nat × Spot) (w : Weir) : State :=
  let s1 := if rmw then s.noteLastSpot (f.party g.lanes) 32 a.2.2 else s
  let s2 := s1.putSpot f (s1.order + 1) a.1 a.2.1 a.2.2 w.toBytes
  let p := a.2.2.place
  if (s.weirAt a.2.2).phase = w.phase then s2 else s2.flipAt p.1 p.2.1 p.2.2

/-- A change of a weir (R278, R279): the checks of R281 for every lane of the group, then one access that needs every token, performed when they are
held (R378); poison traps every lane and changes nothing. A release first waits for the group's stores. `rmw` where the new weir rests on the old. -/
def weirChange (i : Instr) (wa : Fin 64) (rel : Scope) (rmw : Bool) (k : Furrow → Weir → Weir) (s : State) : Out :=
  running i s (fun q f g =>
    withSpots s q f g (if g.accessing then 0 else g.lanes) 32 32 { rmw := true } State.badWeir (fun _ => (f.readW wa.val).toNat) (fun s as =>
      if rel != .thread && !g.accessing && f.storing g.lanes then .next (s.waitOn q g .drain)
      else
        withParts i (s.releasing f g.lanes (!g.accessing && rel != .thread) rel) q f g g.lanes true (partsOf 32 (as.take 1)) id
          (fun s p =>
            if rmw && s.spotPoison 32 p.spot then (s, 0, true) else (s.putWeir f g rmw (p.lane, p.ea, p.spot) (k f (s.weirAt p.spot)), 0, false))
          (fun s secs => (s.accessed (dieAgent f.core) secs true).tickFree) id (fun s got =>
            match poisonLanes got with
            | [] => s.skip i q g
            | a :: _ => trapWith s q (poisonTrap ((lanesOf g.lanes).map (fun l => (l, a.2))) 2 g.pc))))

/-- R280: a plain write of the whole weir. -/
def execWinit (f : SEw) (s : State) : Out :=
  weirChange (.winit f) f.wa .thread false (fun u _ =>
    let x := (u.readW (f.wa.val + 1)).toNat
    { arr := bitsOf x 0 31, arrInit := bitsOf x 0 31, bytes := bitsOf x 32 31, bytesInit := bitsOf x 32 31, phase := 0, status := 0 }) s

/-- R280: one arrival; a release of its scope first waits for the group's stores. -/
def execWarr (f : SEws) (s : State) : Out :=
  weirChange (.warr f) f.wa f.scope true (fun _ w => w.contribute 1 0 none) s

/-- R280: the bytes still due rise by the signed low half of w[WA + 1]. -/
def execWexp (f : SEw) (s : State) : Out :=
  weirChange (.wexp f) f.wa .thread true (fun u w => w.contribute 0 (-(sext (u.readW (f.wa.val + 1)).toNat 32)) none) s

/-- The checks of R281 for every lane of the group, and the tokens that a read of the weir needs. -/
def weirRead (i : Instr) (wa : Fin 64) (s : State) (k : Issue → Furrow → Group → State → List (Nat × Nat × Spot) → Out) : Out :=
  running i s (fun q f g =>
    withSpots s q f g g.lanes 32 32 { rmw := true } State.badWeir (fun _ => (f.readW wa.val).toNat) (fun s as =>
      whenHeld s q f g false (spotsOf as) (fun s => k q f g s as)))

/-- R280, R281, R151: waits until PHASE[0] differs from P. -/
def execWwait (f : SEww) (s : State) : Out :=
  weirRead (.wwait f) f.wa s (fun q u g s as =>
    match as with
    | [] => s.skip (.wwait f) q g
    | a :: _ =>
      if s.spotPoison 32 a.2.2 then trapWith s q (poisonTrap as 2 g.pc)
      else
        let s1 := (s.noteLastSpot (u.party g.lanes) 32 a.2.2).readsDone u true (spotSectors [a.2.2])
        if ((s.weirAt a.2.2).phase % 2 == 1) != f.p then
          let p := a.2.2.place
          let s2 := s1.sawFlip u g.lanes f.scope.code p.1 p.2.1 p.2.2
          (if f.scope = .thread then s2 else (s2.acquire u true f.scope).sync u g.lanes false true f.scope).skip (.wwait f) q g
        else .next (s1.waitOn q g (.address (s1.watchesOf 32 a.2.2) false [])))

end Sys2Proof.Machine
end

