-- ==== Sys2Proof/Machine/EngineMem.lean ====
section
/-! DEFINITION. What the engines share: caddy entries (R284 to R286), the places their commands reach (R115, R130, R132), their reads and
writes by class (R131), fault suspension (R356, R361), weir contributions and status words (R276, R282). -/
namespace Sys2Proof.Machine

/-! ### Caddy entries (R284, R285) -/

/-- A caddy entry's fields. -/
structure Tensor where
  valid : Bool
  loc : Nat
  ty : Ty
  layout : Nat
  ssrc : Nat
  bdim : Nat
  base : Nat
  dim1 : Nat
  dim0 : Nat
  stride : Int
  sbase : Nat
  sstride : Int
  /-- whether a reserved field holds something (R286) -/
  reserved : Bool
  deriving DecidableEq, Repr

/-- An entry from its seven words. -/
def tensorOf (e : Vector W64 7) : Tensor :=
  let x := e[0].toNat
  let ssrc := bitsOf x 53 2
  { valid := x.testBit 63, loc := bitsOf x 61 2, ty := Ty.ofCode (bitsOf x 57 4), layout := bitsOf x 55 2, ssrc := ssrc,
    bdim := bitsOf x 52 1, base := e[1].toNat, dim1 := bitsOf e[2].toNat 32 32, dim0 := bitsOf e[2].toNat 0 32, stride := e[3].toInt,
    sbase := e[4].toNat, sstride := e[5].toInt,
    reserved := bitsOf x 0 52 != 0 || e[6] != 0 || (ssrc != 1 && e[5] != 0) || (ssrc == 0 && e[4] != 0)
      || (ssrc == 2 && bitsOf e[4].toNat 7 57 != 0) }

/-- Bytes that hold one element. -/
def Tensor.size (t : Tensor) : Nat := if t.ty.width < 8 then 1 else t.ty.width / 8

/-- Offset of an index along the contiguous dimension (R285). -/
def Tensor.along (t : Tensor) (x : Nat) : Int := if t.ty.width < 8 then ((x / 2 : Nat) : Int) else ((x * t.size : Nat) : Int)

/-- Offset of element (r, c) from BASE (R285); for the B-slice, within part c. -/
def Tensor.offset (t : Tensor) (r c : Nat) : Int :=
  if t.loc = 2 then t.along r
  else if t.layout = 0 then (r : Int) * t.stride + t.along c
  else (c : Int) * t.stride + t.along r

/-- Whether the element lies in the high nibble of its byte. -/
def Tensor.high (t : Tensor) (r c : Nat) : Bool := decide (t.ty.width < 8) && (if t.layout = 0 then c else r) % 2 == 1

/-- Address or offset of the metadata of the block that holds element (r, c), with SSRC 1. -/
def Tensor.metaOffset (t : Tensor) (r c : Nat) : Int :=
  let x := if t.layout = 0 then r else c
  let y := if t.layout = 0 then c else r
  (t.sbase : Int) + (x : Int) * t.sstride + ((2 * (y / 32) : Nat) : Int)

/-! ### Places -/

/-! ### Waiting for tokens (R378) -/

/-- An event of an engine begins: what it lacked when it was last tried is forgotten. -/
def State.beginEvent (s : State) (i : Instr) : State :=
  { s with commands := s.commands.map (fun (c : Command) => { c with need := [], retry := c.retry.filter (fun r => r.1 != i) }) }

/-- It ends: it is tried again once the tokens that it has lacked are there. -/
def State.endEvent (s : State) (i : Instr) : State :=
  { s with commands := s.commands.map (fun (c : Command) => if c.need.isEmpty then c else { c with need := [], retry := c.retry ++ [(i, c.need)] }) }

/-- An event of an engine, tried again as soon as the tokens that it lacks have come. -/
def engineEvent (i : Instr) (s : State) (k : State → State) : Out := .next ((k (s.beginEvent i)).endEvent i)

/-- A generic address as a command of a field reaches it: scratchpad checks of R116, or translation at the pusher's level (R132, R346), which may have
to wait for the tokens of its walk. -/
def State.engineAddr (s : State) (c : Command) (fl : Field) (k : AccessKind) (va n : Nat) : State × Except EStop (List Piece) :=
  if inOwn va || inPeer va then
    match s.scratchSpot fl.id va n with
    | .ok (.scratch fd off) => (s, .ok [{ space := 1, field := fd, addr := off, len := n }])
    | .ok (.global _) => (s, .error (.ends 6 0))
    | .error e => (s, .error (if e.code = 0x1B then .ends 8 (2 ^ bitsOf va 24 8 % 16) else .ends 6 0))
  else if isGlobal va && isGlobal (va + n - 1) then
    let vs := pagePieces va n
    match s.globalSpot fl.ctx c.core k c.level vs with
    | (s1, .ok ps) => (s1, .ok ((vs.zip ps).map (fun x => { space := 0, field := 0, addr := x.2.1, len := x.2.2, vpage := x.1.1 / 4096 * 4096 })))
    | (s1, .error e) =>
      if e.rank = waitRank then (s1.onCmd c.id (fun c => { c with need := c.need ++ [(e.va, false)] }), .error (.ends 0 0))
      else (s1, .error (if e.code = 0x1C then .ends 4 0 else .fault e.va e.code e.busy e.badPte e.wlevel k.info))
  else (s, .error (.ends 6 0))

/-- The place of n bytes of an entry, at an offset from its base in its own location (part c of the B-slice). -/
def State.entryPlace (s : State) (c : Command) (fl : Field) (t : Tensor) (k : AccessKind) (base : Int) (part n : Nat) :
    State × Except EStop (List Piece) :=
  if t.loc = 1 then (s, .ok [{ space := 2, field := fl.id, addr := base.toNat, len := n }])
  else if t.loc = 2 then (s, .ok [{ space := 3, field := fl.id, addr := part * fl.kernel.bslice + base.toNat, len := n }])
  else s.engineAddr c fl k (wrap base 64) n

/-- The place of element (r, c) of an entry whose base is moved by a rank's shift (R285, R295). -/
def State.elemPlace (s : State) (c : Command) (fl : Field) (t : Tensor) (shift : Int) (k : AccessKind) (r col : Nat) :
    State × Except EStop (List Piece) :=
  s.entryPlace c fl t k ((t.base : Int) + shift + t.offset r col) col t.size

/-- The place of the metadata of the block of element (r, c): an address for LOC 0, else a tile-store offset. A rank's entry has the SBASE of the
destination entry (R295). -/
def State.metaPlace (s : State) (c : Command) (fl : Field) (t : Tensor) (k : AccessKind) (r col : Nat) :
    State × Except EStop (List Piece) :=
  let x := t.metaOffset r col
  if t.loc = 0 then s.engineAddr c fl k (wrap x 64) 2 else (s, .ok [{ space := 2, field := fl.id, addr := x.toNat, len := 2 }])

/-- Places resolved one after another, to the first that stops. -/
def placesFrom {α : Type} (f : State → α → State × Except EStop (List Piece)) : List α → State → State × Except EStop (List (List Piece))
  | [], s => (s, .ok [])
  | x :: xs, s =>
    match f s x with
    | (s1, .error e) => (s1, .error e)
    | (s1, .ok p) =>
      match placesFrom f xs s1 with
      | (s2, .ok ps) => (s2, .ok (p :: ps))
      | (s2, .error e) => (s2, .error e)

/-! ### Tokens -/

/-- Sectors of memory that runs touch, peer packages' aside. -/
def State.runSectors (s : State) (ps : List Piece) : List Nat :=
  ((ps.filter (fun p => p.space == 0 && !s.isPeer p.addr)).map (fun p => sectorsOf p.addr p.len)).flatten.dedup

/-- Whether a die's agent holds the tokens that runs of a command need; those it lacks are requested, and the command wants them till then (R378). -/
def State.holdRuns (s : State) (id core : Nat) (write : Bool) (ps : List Piece) : State × Bool :=
  let secs := s.runSectors ps
  let lack := s.lacking (dieAgent core) write secs
  let s1 := s.onCmd id (fun c => { c with need := c.need.filter (fun x => !secs.contains x.1) ++ lack.map (fun x => (x, write)) })
  if lack.isEmpty then (s1, true) else (s1.requestAll (dieAgent core) core write lack, false)

/-! ### Reading by class (R121, R127, R131, R135) -/

/-- Class of a command's engine. -/
def Command.cls (c : Command) : Cls := engineCls c.engine

/-- The stores of a field by space: scratchpad 1, tile store 2, B-slice 3. -/
def Field.store (fl : Field) (space : Nat) : Store := if space = 1 then fl.sp else if space = 2 then fl.tile else fl.bsl

/-- Bytes of a run where coherence order has them: a peer's line at its home. -/
def State.pieceHome (s : State) (p : Piece) : List Byte :=
  if p.space = 0 then s.bytesAt p.addr p.len
  else ((s.field? p.field).map (fun fl => (fl.store p.space).bytesAt p.addr p.len)).getD (List.replicate p.len 0)

/-- Bytes of a run where a command reads them: a peer's line in the RDC (R121), but by the TXE at its home (R395; DEDUCED, log 10). -/
def State.pieceRaw (s : State) (c : Command) (p : Piece) : List Byte :=
  if p.space = 0 ∧ c.cls ≠ .txe then s.pieceBytes c.core (p.addr, p.len) else s.pieceHome p

/-- The units in which an engine reaches a run (R135). -/
def Piece.units (p : Piece) : List (Nat × Nat) := engineUnits p.len p.addr p.len

/-- Bytes of runs as a command sees them. -/
def State.runBytes (s : State) (c : Command) (ps : List Piece) : List Byte :=
  (ps.map (fun p => s.seenBytes (s.cmdReader c c.cls) p.space p.field p.addr p.units (s.pieceRaw c p))).flatten

/-- The writes that such a read returns. -/
def State.runWrites (s : State) (c : Command) (ps : List Piece) : List Nat :=
  (ps.map (fun p => s.seenWrites (s.cmdReader c c.cls) p.space p.field p.addr p.units (s.pieceRaw c p))).flatten

/-- Whether runs meet poison. -/
def State.runPoison (s : State) (ps : List Piece) : Bool :=
  ps.any (fun p => if p.space = 0 then s.poisoned p.addr p.len
    else (s.field? p.field).any (fun fl => (fl.store p.space).poisoned p.addr p.len))

/-- What reading does beside its value: the writes it returns bind the engine, tokens are used, a peer's lines fill the RDC, but for the TXE
(R121, R137, R378, R395). -/
def State.afterRuns (s : State) (c : Command) (ps : List Piece) : State :=
  let peers := ((ps.filter (fun p => p.space == 0 && s.isPeer p.addr && c.cls != .txe)).map (fun p => sectorsOf p.addr p.len)).flatten.dedup
  let s1 := (s.noteReads (agentOf c.cls c.core) (s.runWrites c ps)).accessed (dieAgent c.core) (s.runSectors ps) false
  peers.foldl (fun s sec => s.fillPeer (dieOf c.core) sec (s.bytesAt sec 64)) s1

/-- Words of a run that are poisoned. -/
def State.badWords (s : State) (p : Piece) : List Nat :=
  ((List.range (ceilDiv (p.addr % 4 + p.len) 4)).map (fun k => p.addr / 4 + k)).filter (fun w => s.runPoison [{ p with addr := 4 * w, len := 4 }])

/-- One unit read by a command for the transfer of a key; none while its tokens are lacking (R378). -/
def State.readHad (s : State) (c : Command) (key : Nat) (p : Piece) : State × Option Had :=
  match s.holdRuns c.id c.core false [p] with
  | (s1, false) => (s1, none)
  | (s1, true) => (s1.afterRuns c [p],
      some { key := key, space := p.space, field := p.field, addr := p.addr, bytes := s1.runBytes c [p], bad := s1.badWords p })

/-- Whether a unit that has been read is that of a place. -/
def Had.is (h : Had) (key : Nat) (p : Piece) : Bool := h.key == key && h.space == p.space && h.field == p.field && h.addr == p.addr

/-- Units of a transfer read, those that it has read already aside; none while one lacks tokens. Answers those read now. -/
def State.readUnitsOf (c : Command) (key : Nat) (old : List Had) : List Piece → State → State × List Had × Bool
  | [], s => (s, [], true)
  | p :: ps, s =>
    if old.any (fun h => h.is key p) then State.readUnitsOf c key old ps s
    else match s.readHad c key p with
    | (s1, none) => let r := State.readUnitsOf c key old ps s1; (r.1, r.2.1, false)
    | (s1, some h) => let r := State.readUnitsOf c key old ps s1; (r.1, h :: r.2.1, r.2.2)

/-- A transfer of a command read by its units, each once; what has been read is kept until it is whole (R135). Answers the units read so far, and
whether all of them are. -/
def State.readTransfer (s : State) (c : Command) (key : Nat) (us : List Piece) : State × List Had × Bool :=
  let old := ((s.cmd? c.id).map (fun c => c.had.filter (fun h => h.key == key))).getD []
  let r := State.readUnitsOf c key old us s
  (r.1.onCmd c.id (fun c => { c with had := c.had ++ r.2.1 }), old ++ r.2.1, r.2.2)

/-- A transfer over: its units are forgotten. -/
def State.endTransfer (s : State) (id key : Nat) : State := s.onCmd id (fun c => { c with had := c.had.filter (fun h => h.key != key) })

/-- A byte of the units that have been read. -/
def hadByte (hs : List Had) (space field a : Nat) : Option Byte :=
  (hs.find? (fun h => h.space == space && h.field == field && decide (h.addr ≤ a ∧ a < h.addr + h.bytes.length))).bind (fun h => h.bytes[a - h.addr]?)

/-- Bytes of runs among the units that have been read, once all of them are. -/
def hadBytes (hs : List Had) (ps : List Piece) : Option (List Byte) :=
  (ps.map (fun p => (List.range p.len).map (fun j => hadByte hs p.space p.field (p.addr + j)))).flatten.mapM id

/-- Whether a run meets a word that was poisoned when it was read. -/
def hadBad (hs : List Had) (ps : List Piece) : Bool :=
  let bad := hs.filter (fun h => !h.bad.isEmpty)
  ps.any (fun p => bad.any (fun h => h.space == p.space && h.field == p.field && h.bad.any (fun w => decide (4 * w < p.addr + p.len ∧ p.addr < 4 * w + 4))))

/-- A byte added to the aligned 8-byte slots that runs cover: each with its space, field, number and the bits of its bytes. -/
def addSlot (acc : List (Nat × Nat × Nat × Nat)) (space field a : Nat) : List (Nat × Nat × Nat × Nat) :=
  let same := fun (x : Nat × Nat × Nat × Nat) => x.1 == space && x.2.1 == field && x.2.2.1 == a / 8
  let more := fun (x : Nat × Nat × Nat × Nat) => (x.1, x.2.1, x.2.2.1, x.2.2.2 ||| 2 ^ (a % 8))
  match acc with
  | x :: xs => if same x then more x :: xs else if xs.any same then x :: mapIf xs same more else (space, field, a / 8, 2 ^ (a % 8)) :: acc
  | [] => [(space, field, a / 8, 2 ^ (a % 8))]

/-- The units of a transfer over runs (R135): the naturally aligned 8-byte units that it covers whole, and every other byte by itself. -/
def transferUnits (ps : List Piece) : List Piece :=
  ((ps.foldl (fun acc p => (List.range p.len).foldl (fun acc j => addSlot acc p.space p.field (p.addr + j)) acc) []).reverse.map (fun x =>
    if x.2.2.2 = 255 then [{ space := x.1, field := x.2.1, addr := 8 * x.2.2.1, len := 8 }]
    else ((List.range 8).filter x.2.2.2.testBit).map (fun b => ({ space := x.1, field := x.2.1, addr := 8 * x.2.2.1 + b, len := 1 } : Piece)))).flatten

/-- A number of bytes, or of a half of one byte. -/
def halfNat (h : Option Bool) (bs : List Byte) : Nat :=
  match h with
  | none => leNat bs
  | some h => bitsOf (leNat bs) (if h then 4 else 0) 4

/-- The half of its byte that holds an element, for a 4-bit type. -/
def Tensor.half (t : Tensor) (r c : Nat) : Option Bool := if t.ty.width < 8 then some (t.high r c) else none

/-! ### Writing by class (R131, R135, R151) -/

/-- A write of a command in the event numbered op. -/
def Command.origin (c : Command) (op : Nat) : Origin := { by_ := agentOf c.cls c.core, op := op, cmd := c.id }

/-- One run written. -/
def State.putPiece (s : State) (o : Origin) (core : Nat) (p : Piece) (bs : List Byte) : State :=
  if p.space = 0 then (s.putGlobal o core p.vpage p.addr p.units bs).accessed (dieAgent core) (sectorsOf p.addr bs.length) true
  else if p.space = 1 then s.putScratch o p.field p.addr p.units bs
  else
    (s.noteWrite o p.space p.field p.addr p.units (s.pieceHome p)).onField p.field (fun fl =>
      if p.space = 2 then { fl with tile := fl.tile.writeBytes p.addr bs } else { fl with bsl := fl.bsl.writeBytes p.addr bs })

/-- A value's bytes over the runs that hold them. -/
def pieceData : List Piece → List Byte → List (Piece × List Byte)
  | [], _ => []
  | p :: ps, bs => (p, bs.take p.len) :: pieceData ps (bs.drop p.len)

/-- Bytes written over runs. -/
def State.putRuns (s : State) (o : Origin) (core : Nat) (ps : List Piece) (bs : List Byte) : State :=
  (pieceData ps bs).foldl (fun s x => s.putPiece o core x.1 x.2) s

/-- The bytes a write leaves where `old` stood: all of them, or one half of a byte. -/
def Put.bytes (p : Put) (old : List Byte) (x : Nat) : List Byte :=
  match p.high with
  | none => leBytes old.length x
  | some true => leBytes 1 (bitsOf (leNat old) 0 4 + 16 * (x % 16))
  | some false => leBytes 1 (bitsOf (leNat old) 4 4 * 16 + x % 16)

/-- One write performed; with a reduction, one indivisible change of the element, which the engine has then read as it stood (R138, R293). Answers
the flags, and whether it met poison and was left out. -/
def State.performPut (s : State) (o : Origin) (core : Nat) (red : Option (Fold × Ty)) (p : Put) (x : Nat) : State × Nat × Bool :=
  let old := (p.pieces.map s.pieceHome).flatten
  match red with
  | none => (s.putRuns o core p.pieces (p.bytes old x), 0, false)
  | some (k, t) =>
    if s.runPoison p.pieces then (s, 0, true)
    else
      let r := combineBits k t .rne false (leNat old) x
      let s1 := p.pieces.foldl (fun s y => s.noteLast o.by_ y.space y.field y.addr y.len) s
      (s1.putRuns o core p.pieces (p.bytes old r.1), r.2, false)

/-- Writes performed in order as far as tokens allow; those that remain, the flags, and whether one met poison. -/
def State.performPuts (o : Origin) (core : Nat) (red : Option (Fold × Ty)) (val : Nat → Nat) : List Put → State → State × List Put × Nat × Bool
  | [], s => (s, [], 0, false)
  | p :: ps, s =>
    match s.holdRuns o.cmd core true p.pieces with
    | (s1, false) => let r := State.performPuts o core red val ps s1; (r.1, p :: r.2.1, r.2.2)
    | (s1, true) =>
      match s1.performPut o core red p (halfNat p.half (leBytes 8 (val p.item))) with
      | (s2, _, true) => (s2, [], 0, true)
      | (s2, fl, false) => let r := State.performPuts o core red val ps s2; (r.1, r.2.1, fl ||| r.2.2.1, r.2.2.2)

/-! ### Suspension (R356, R361) -/

/-- A command suspended at a unit with its fault posted. -/
def State.suspendCmd (s : State) (c : Command) (ctx unit va code : Nat) (busy badPte : Bool) (wlevel kind : Nat) : State :=
  let die := dieOf c.core
  let rep : FaultReport := { vaddr := va, ctx := ctx, asid := ((s.ctx? ctx).map (fun x => x.tasid.toNat)).getD 0, cause := code, level := c.level,
                             origin := c.engine.val + 1, busy := busy, badPte := badPte, wlevel := wlevel, kind := kind,
                             first := BitVec.ofNat 64 (c.loc + c.slot * 2 ^ 48) }
  let r := s.postFault die rep (.command c.id)
  r.1.onCmd c.id (fun c => { c with phase := .suspended, need := [], retry := [], failAt := unit, entry := some (die, r.2.getD 0), unposted := if r.2.isSome then none else some rep })

/-- A command that ends at a unit with a code: DETAIL is the unit for a memory error, the mask for absent peers, else 0 (R277). -/
def State.endCmd (s : State) (id code detail : Nat) : State :=
  s.onCmd id (fun c => { c with phase := .draining, need := [], retry := [], ended := some (code, detail) })

/-- What an access that stops does to its command at a unit; one that lacks tokens only waits. -/
def State.stopCmd (s : State) (c : Command) (ctx unit : Nat) (e : EStop) : State :=
  match e with
  | .ends 0 _ => s
  | .fault va code busy bad wl kind => s.suspendCmd c ctx unit va code busy bad wl kind
  | .ends code mask => s.endCmd c.id code (if code = 4 then unit else if code = 8 then mask else 0)

/-! ### Contributions (R282) -/

/-- A command's weir word. -/
def Command.weir (c : Command) : Nat := (if c.engine.val % 2 = 0 then c.words[3] else c.words[7]).toNat

/-- The field in whose windows a receiver's addresses lie (R294). -/
def State.receiverField (s : State) (fl : Field) (r : Receiver) : Option Field :=
  match r.member with
  | none => some fl
  | some m => s.memberField fl m

/-- How a contribution ends; `absent` when its receiver has retired (R56, R294). -/
inductive Paying
  | done (s : State)
  | absent (s : State)
  | fault (s : State) (va code : Nat) (busy badPte : Bool) (wlevel kind : Nat)
  | lost (s : State) (code : Nat)
  | busy (s : State)

/-- The words of a weir that an engine's event op has written are, but for PHASE, visible to LS before the flip (R151). -/
def State.statusFirst (s : State) (op phaseAt : Nat) : State :=
  { s with recent := mapIf s.recent (fun w => w.op == op && w.addr != phaseAt)
             (fun w => { w with vis := { scope := 7, since := s.order, core := w.by_.core } :: w.vis }) }

/-- A contribution at the runs of a weir (R279): poison and host or peer memory lose it (R278, R282). The engine has read the weir as it stood
(R138); a final contribution counts among those of its phase (R152). -/
def State.payAt (s : State) (c : Command) (ps : List Piece) (darr dbytes : Nat) (st : Option Nat) : Paying :=
  if ps.any (fun p => p.space == 0 && !s.isLocal p.addr) then .lost s 6
  else
    match s.holdRuns c.id c.core true ps with
    | (s1, false) => .busy s1
    | (s1, true) =>
      if s1.runPoison ps then .lost s1 4
      else
        let old := Weir.ofBytes ((ps.map s1.pieceHome).flatten)
        let w := old.contribute darr dbytes st
        let a := ps.headD { space := 0, field := 0, addr := 0, len := 0 }
        let s2 := ps.foldl (fun s p => s.noteLast (agentOf c.cls c.core) p.space p.field p.addr p.len) s1
        let s3 := s2.putRuns { c.origin (s2.order + 1) with status := true } c.core ps w.toBytes
        let s4 := if st.isNone then s3
          else { s3 with contribs := s3.contribs ++ [{ space := a.space, field := a.field, addr := a.addr, cmd := c.id, flipped := false }] }
        .done (if old.phase = w.phase then s4 else (s4.statusFirst (s2.order + 1) (a.addr + 16)).flipAt a.space a.field a.addr)

/-- A contribution of a command at a receiver; one that has retired is absent, though its bytes may all have landed before (DESIGN CHOICE, log 118). -/
def State.pay (s : State) (c : Command) (r : Receiver) (darr dbytes : Nat) (st : Option Nat) : Paying :=
  if c.weir = 0 then .done s
  else
    match s.field? c.field with
    | none => .lost s 6
    | some fl =>
      match s.receiverField fl r with
      | none => .absent s
      | some rf =>
        match s.engineAddr c rf { rmw := true } c.weir 32 with
        | (s1, .ok ps) => s1.payAt c ps darr dbytes st
        | (s1, .error (.fault va code b p w k)) => .fault s1 va code b p w k
        | (s1, .error (.ends 0 _)) => .busy s1
        | (s1, .error (.ends code _)) => .lost s1 (if code = 4 then 4 else 6)

/-- Receiver number i of a command changed. -/
def State.onReceiver (s : State) (id i : Nat) (k : Receiver → Receiver) : State :=
  s.onCmd id (fun c => { c with receivers := c.receivers.mapIdx (fun j r => if j = i then k r else r) })

/-- A weir that takes no further contribution: the receiver's, and with it every receiver that shares it (R282, R295). -/
def State.weirOff (s : State) (id i : Nat) : State :=
  s.onCmd id (fun c =>
    let shared := (c.receivers[i]?).any (fun r => r.member.isNone)
    { c with receivers := c.receivers.mapIdx (fun j r =>
        if j = i ∨ (shared ∧ r.member.isNone) then { r with weirOk := false, owed := 0 } else r) })

/-- Contributions of the receivers of a list: landed bytes, or with `fin` the final arrivals. Answers false when one is suspended or
waits. -/
def State.payList (id ctx unit : Nat) (fin : Option (Nat × Bool)) : List Nat → State → State × Bool
  | [], s => (s, true)
  | i :: is, s =>
    match s.cmd? id with
    | none => (s, true)
    | some c =>
      match c.receivers[i]? with
      | none => State.payList id ctx unit fin is s
      | some r =>
        let due := !r.absent && r.weirOk && (match fin with
          | some _ => !r.paid
          | none => decide (0 < r.owed))
        if !due then State.payList id ctx unit fin is s
        else
          let n := match fin with
            | some (_, whole) => if whole then r.due else 0
            | none => r.owed
          match s.pay c r (if fin.isSome then 1 else 0) n (fin.map Prod.fst) with
          | .done s1 =>
            State.payList id ctx unit fin is (s1.onReceiver id i (fun r =>
              if fin.isSome then { r with paid := true } else { r with due := r.due - r.owed, owed := 0 }))
          | .absent s1 => State.payList id ctx unit fin is (s1.onReceiver id i (fun r => { r with absent := true, owed := 0 }))
          | .fault s1 va code b p w k =>
            ((s1.suspendCmd c ctx unit va code b p w k).onCmd id (fun c => { c with atWeir := some i }), false)
          | .lost s1 code =>
            State.payList id ctx unit fin is ((s1.weirOff id i).onCmd id (fun c => { c with lost := some (c.lost.getD (code, unit)) }))
          | .busy s1 => (s1, false)

/-- Receivers' numbers. -/
def Command.receiverIds (c : Command) : List Nat := List.range c.receivers.length

/-- Bytes landed counted at every receiver that is owed some. -/
def State.flushOwed (s : State) (c : Command) (ctx unit : Nat) : State × Bool := State.payList c.id ctx unit none c.receiverIds s

/-! ### Status words and completion (R276 to R278, R282) -/

/-- Members that received nothing. -/
def Command.absentMask (c : Command) : Nat :=
  (c.receivers.filter (fun r => r.absent)).foldl (fun n r => n ||| 2 ^ (r.member.getD 0)) 0

/-- CODE and DETAIL of a command that has come to its end; a lost contribution stands in the place of OK (R282). -/
def Command.outcome (c : Command) : Nat × Nat :=
  match c.ended, c.lost with
  | some (0, _), some l => l
  | some e, _ => e
  | none, some l => l
  | none, none => if c.absentMask ≠ 0 then (8, c.absentMask) else (0, 0)

/-- Status bits of rounding events: NX, OF, NV at bits 40 to 42. -/
def statusFlags (fl : Nat) : Nat :=
  (if fl &&& flNX ≠ 0 then 1 else 0) + (if fl &&& flOF ≠ 0 then 2 else 0) + (if fl &&& flNV ≠ 0 then 4 else 0)

/-- A command's status word. -/
def Command.status (c : Command) : Nat :=
  (c.engine.val + 1) * 2 ^ 61 + statusFlags c.flags * 2 ^ 40 + c.outcome.2 % 2 ^ 32 * 2 ^ 8 + c.outcome.1

/-- Whether an operand queue of a furrow still holds a row of a command. -/
def State.rowsLeft (s : State) (id : Nat) : Bool := s.furrows.any (fun f => f.opq.toList.any (fun q => q.any (fun r => r.cmd == id)))

/-- The element up to which an ended stream is still to be read again, for rows that a pre-emption dropped (R297, R404). -/
def Command.streamLeft (c : Command) : Nat := if c.engine = 2 ∧ c.ended.isSome then c.next else 0

/-- A command that has ended leaves its engine with its handle's status; a stream stays as long as a furrow has rows of it to pop, which a
pre-emption would have it read again (R297). -/
def State.retireCmd (s : State) (c : Command) (st : Nat) : State :=
  (if s.rowsLeft c.id ∨ c.units < c.streamLeft then
      s.onCmd c.id (fun c => { c with reported := true, phase := .running, ended := none, cancelled := false, next := max c.units c.streamLeft, row := [] })
   else { s with commands := s.commands.filter (fun x => x.id != c.id) }).resolveSlot c (BitVec.ofNat 64 st)

/-- The receivers of a command that have retired by now are absent (R56, R294). -/
def State.markAbsent (s : State) (c : Command) : State :=
  match s.field? c.field with
  | none => s
  | some fl => s.onCmd c.id (fun c => { c with receivers := c.receivers.map (fun r => if (s.receiverField fl r).isNone then { r with absent := true, owed := 0 } else r) })

/-- The final contributions of a command and its completion; `unit` is its unit count (R282). -/
def State.finishCmd (s : State) (id ctx unit : Nat) : State :=
  match s.cmd? id with
  | none => s
  | some c =>
    if c.reported then { s with commands := s.commands.filter (fun x => x.id != id) }
    else match (s.markAbsent c).flushOwed c ctx unit with
    | (s1, false) => s1
    | (s1, true) =>
      match s1.cmd? id with
      | none => s1
      | some c1 =>
        let code := c1.outcome.1
        match State.payList id ctx unit (some (c1.status, !(code == 0 || code == 8))) c1.receiverIds s1 with
        | (s2, false) => s2
        | (s2, true) =>
          match s2.cmd? id with
          | none => s2
          | some c2 => s2.retireCmd c2 c2.status

/-! ### Fault resolution (R360, R362) -/

/-- A suspended command after RETRY: it goes on where it stood. -/
def State.retryCmd (s : State) (id : Nat) : State :=
  s.onCmd id (fun c => if c.phase = .suspended then
    { c with entry := none, atWeir := none, phase := if c.ended.isSome then .draining else .running } else c)

/-- A suspended command after FAIL: FAULT at the unit that failed; a weir whose contribution failed gets none (R282, R362). -/
def State.failCmd (s : State) (id : Nat) : State :=
  match s.cmd? id with
  | none => s
  | some c =>
    if c.phase ≠ .suspended then s
    else
      let s1 := match c.atWeir with
        | some i => s.weirOff id i
        | none => s
      s1.onCmd id (fun c => { c with entry := none, atWeir := none, phase := .draining, ended := some (3, c.failAt) })

end Sys2Proof.Machine
end

