-- ==== Sys2Proof/Machine/Services.lean ====
section
/-! DEFINITION. Service queues, fault queues and access counters (R338, R339, R359, R360, R368), and the firmware switch that `svctake` and
`fqtake` bring about (R438). -/
namespace Sys2Proof.Machine

/-! ### Service fields of the running image (R17, R18, R438) -/

/-- VERSION of the running image; 0 with none. -/
def State.version (s : State) : Nat := (s.firmware.map Firmware.version).getD 0

/-- Whether a service field runs code of an earlier image. -/
def State.isOld (s : State) (fl : Field) : Bool := fl.service && fl.scheme != s.version

/-- Whether every group of a service field waits in `svctake` or `fqtake`, but for one that may be given by slot and lanes (R438). -/
def State.takes (s : State) (fl : Field) (but : Option (Nat × Mask)) : Bool :=
  let fs := s.furrows.filter (fun f => f.field == fl.id)
  fs.all (fun f => f.groups.all (fun g => g.wait == some .svcEntry || g.wait == some .fqEntry || but == some (f.slot, g.lanes)))

/-- Service fields of a die that wait start where they fit. -/
def State.serviceStart (s : State) (die : Nat) : State :=
  (s.fields.filter (fun f => f.service && f.status == .waiting && dieOf f.core == die)).foldl
    (fun s f => if s.fitsOn f.core f then s.startField f.id f.core else s) s

/-- A service field of the new image, waiting for its place on core 0 of its die (R17). -/
def serviceField (id version ix : Nat) (x : ServiceSpec) : Field :=
  { id := id, ctx := 0xFFF0 + x.die, scheme := version, service := true, fieldIx := ix, fcount := x.kernel.furrows, core := 48 * x.die, kernel := x.kernel,
    sp := { size := x.kernel.scratch }, tile := { size := x.kernel.tiles }, bsl := { size := 64 * x.kernel.bslice } }

/-- The new image's service fields of a die listed. -/
def State.serviceAdd (s : State) (die : Nat) : State :=
  ((s.service.zip (List.range s.service.length)).filter (fun x => x.1.die == die && x.1.version == s.version)).foldl (fun s x =>
    { s with nextId := s.nextId + 1, fields := s.fields ++ [serviceField s.nextId s.version x.2 x.1] }) s

/-- A die whose old service fields have all ended has switched; when every die has, FWSWITCH is set on every VF with a context. -/
def State.switchDone (s : State) (die : Nat) : State :=
  if !s.fwDies[Fin.ofNat 6 die] ∨ s.fields.any (fun f => s.isOld f && dieOf f.core == die && f.status != .ending && f.status != .retired) then s
  else
    let s1 := { s with fwDies := s.fwDies.set (Fin.ofNat 6 die) false }
    if s1.fwDies.toList.any id then s1
    else (s1.ctxs.filter (fun c => !c.service)).foldl (fun s c => s.setEvent (vfOfCtx c.ctx) 4) s1

/-- An old service field ended: its die's new fields start where it stood. -/
def State.switchField (s : State) (fl : Field) : State :=
  let die := dieOf fl.core
  ((s.endField fl.id).serviceStart die).switchDone die

/-- What becomes of a take that is to be an old field's last (R438): the field ends once no other group of it is still at work on an entry that it took, and
waits for that till then. -/
def State.lastTake (s : State) (q : Issue) (u : Furrow) (g : Group) (fl : Field) (w : Wait) : State :=
  if s.takes fl (some (u.slot, g.lanes)) then (s.switchField fl).endIssue q else s.waitOn q g w

/-- Whether the taking field is to give way to its successor. -/
def State.switchDue (s : State) (u : Furrow) : Option Field :=
  match s.field? u.field with
  | some fl => if s.fwDies[Fin.ofNat 6 (dieOf u.core)] && s.isOld fl then some fl else none
  | none => none

/-! ### Service queues -/

/-- Entries a service queue holds (R338). -/
def serviceRoom : Nat := 256

/-- SRC of a posted entry (R338). -/
def State.serviceSrc (s : State) (u : Furrow) : W64 :=
  BitVec.ofNat 64 (s.ctxOf u * 2 ^ 48 + u.level * 2 ^ 40 + bitsOf (s.locOf u).toNat 0 40)

/-- R338: an entry appended, a release of `.die` scope; the group waits while the queue is full. -/
def execSvcpost (f : LR1) (s : State) : Out :=
  running (.svcpost f) s (fun q u g =>
    if u.activeSet (.svcpost f) g = 0 then s.skip (.svcpost f) q g
    else if u.storing g.lanes then .next (s.waitOn q g .drain)
    else if serviceRoom ≤ (s.die (dieOf u.core)).svc.length then .next (s.waitOn q g .svcRoom)
    else ((s.sync u g.lanes true false .die).onDie (dieOf u.core) (fun d =>
      { d with svc := d.svc ++ [(u.readW f.a.val, s.serviceSrc u)] })).skip (.svcpost f) q g)

/-- R339: the oldest entry taken, an acquire of `.die` scope; legal in the die's service fields only. -/
def execSvctake (f : LRd) (s : State) : Out :=
  running (.svctake f) s (fun q u g =>
    if u.activeSet (.svctake f) g = 0 then s.skip (.svctake f) q g
    else if !s.isService u then trapNow s q g g.lanes 0x20 0
    else
      match (s.die (dieOf u.core)).svc, s.switchDue u with
      | [], _ => .next (s.waitOn q g .svcEntry)
      | _ :: _, some fl => .next (s.lastTake q u g fl .svcEntry)
      | e :: _, none =>
        let s1 := ((s.onDie (dieOf u.core) (fun d => { d with svc := d.svc.drop 1 })).acquire u true .die).sync u g.lanes false true .die
        s1.done (.svctake f) q (((s1.again u).writeW f.d.val e.1).writeW (f.d.val + 1) e.2) g 0 0)

/-! ### Fault queues -/

/-- The oldest queued entry of a die (R359). -/
def Die.nextFault (d : Die) : Option FaultEntry := d.faults.find? FaultEntry.queued

/-- The waits of a furrow on one of a die's entries: the page is resolved, or has failed (R337, R360). -/
def FaultWait.resolve (die seq : Nat) (fail : Bool) (w : FaultWait) : FaultWait :=
  let mine := w.entries.filter (fun e => e.1 == die && e.2.1 == seq)
  { w with entries := w.entries.filter (fun e => !(e.1 == die && e.2.1 == seq)),
           failed := if fail then w.failed ++ mine.map (fun e => e.2.2) else w.failed }

/-- Whether every entry of a wait has resolved. -/
def FaultWait.over (w : FaultWait) : Bool := w.entries.isEmpty && w.unposted.isEmpty

/-- The lanes whose page failed (R337). -/
def FaultWait.failedLanes (w : FaultWait) : Mask :=
  w.lanes &&& maskOf (fun i => w.lanePages.any (fun p => p.1 == i && w.failed.contains p.2))

/-- The fault of a wait, vectored as PAGE_ABSENT (R337, R360). -/
def FaultWait.trap (w : FaultWait) : TrapReq :=
  { lanes := w.failedLanes, code := 0x10, info := w.kind, arg := 0, pcs := w.pcs, eaddr := w.eaddr }

/-- A furrow's resolved waits end: its groups issue again, or the fault is vectored, once an issue slot of it that is open has ended. -/
def State.endWaits (s : State) (core slot : Nat) : State :=
  match (s.furrow? core slot).filter (fun f => f.openSlot.isNone && f.faultWaits.any FaultWait.over) with
  | none => s
  | some f =>
    let s1 := s.onFurrow core slot (fun f => { f with faultWaits := f.faultWaits.filter (fun w => !w.over) })
    (f.faultWaits.filter (fun w => w.over && !w.failed.isEmpty)).foldl (fun s w => s.enterTrap core slot w.trap) s1

/-- A waiter's reaction to a resolution (R360). -/
def State.wakeWaiter (s : State) (die seq : Nat) (fail : Bool) (w : Waiter) : State :=
  match w with
  | .furrow core slot =>
    (s.onFurrow core slot (fun f => { f with faultWaits := f.faultWaits.map (fun x => x.resolve die seq fail) })).endWaits core slot
  | .command id =>
    if (s.cmd? id).any (fun c => c.entry == some (die, seq)) then (if fail then s.failCmd id else s.retryCmd id) else s
  | .hint => s

/-- A furrow's pages that found no room in its die's queue posted again (R358). -/
def State.repostFurrow (s : State) (f : Furrow) (w : FaultWait) : State :=
  let r := s.postPages f w.kind (w.reports.filter (fun p => w.unposted.contains p.1))
  r.1.onFurrow f.core f.slot (fun f => { f with faultWaits := f.faultWaits.map (fun x =>
    if x = w then { x with entries := x.entries ++ r.2.1, unposted := r.2.2 } else x) })

/-- A command's fault posted again, the command staying suspended (R358, R361). -/
def State.repostCmd (s : State) (c : Command) : State :=
  match c.unposted with
  | some rep =>
    if c.phase = .suspended ∧ c.entry.any (fun e => e.2 == 0) then
      let r := s.postFault (dieOf c.core) rep (.command c.id)
      r.1.onCmd c.id (fun c => { c with entry := some (dieOf c.core, r.2.getD 0), unposted := if r.2.isSome then none else c.unposted })
    else s
  | none => s

/-- Posts retried when an entry of a die frees (R358). -/
def State.repost (s : State) (die : Nat) : State :=
  let s1 := (s.furrows.filter (fun f => dieOf f.core == die)).foldl (fun s f =>
    (f.faultWaits.filter (fun w => !w.unposted.isEmpty)).foldl (fun s w => s.repostFurrow f w) s) s
  (s1.commands.filter (fun c => dieOf c.core == die)).foldl State.repostCmd s1

/-- An entry resolved (R360). -/
def State.resolveFault (s : State) (die seq : Nat) (fail : Bool) : State :=
  match (s.die die).faults.find? (fun e => e.seq == seq) with
  | none => s
  | some e =>
    let s1 := s.onDie die (fun d => { d with faults := d.faults.filter (fun x => x.seq != seq) })
    (e.waiters.foldl (fun s w => s.wakeWaiter die seq fail w) s1).repost die

/-- R359: the oldest entry taken, an acquire of `.die` scope; it stays unresolved. -/
def execFqtake (f : LRd) (s : State) : Out :=
  running (.fqtake f) s (fun q u g =>
    if u.activeSet (.fqtake f) g = 0 then s.skip (.fqtake f) q g
    else if !s.isService u then trapNow s q g g.lanes 0x20 0
    else
      let die := dieOf u.core
      match (s.die die).nextFault, s.switchDue u with
      | none, _ => .next (s.waitOn q g .fqEntry)
      | some _, some fl => .next (s.lastTake q u g fl .fqEntry)
      | some e, none =>
        let s1 := s.onDie die (fun d => { d with faults := mapIf d.faults (fun x => x.seq == e.seq) (fun x => { x with queued := false }) })
        let s2 := ((s1.acquire u true .die).sync u g.lanes false true .die).repost die
        let u1 := (e.words.zip (List.range 4)).foldl (fun (u : Furrow) x => u.writeW (f.d.val + x.2) x.1) (s2.again u)
        s2.done (.fqtake f) q u1 g 0 0)

/-- R360: the entry of w[A] resolved once the group's earlier stores are visible; the instruction itself has then retired. -/
def execFqdone (f : LRi) (s : State) : Out :=
  running (.fqdone f) s (fun q u g =>
    if u.activeSet (.fqdone f) g = 0 then s.skip (.fqdone f) q g
    else if !s.isService u then trapNow s q g g.lanes 0x20 0
    else if u.storing g.lanes then .next (s.waitOn q g .drain)
    else
      let seq := bitsOf (u.readW f.a.val).toNat 0 32
      .next (((s.sync u g.lanes true false .pkg).stepOver q g (nextPc g.pc 2) f.c).resolveFault (dieOf u.core) seq f.fail))

/-! ### Access counters -/

/-- The counters of a region packed (R368). -/
def State.accessWord (s : State) (region : Nat) : Nat :=
  match s.access.find? (fun x => x.1 == region) with
  | none => 0
  | some x => (List.range 6).foldl (fun n d => n + x.2[Fin.ofNat 6 d] * 2 ^ (10 * d)) 0

/-- R368: the counters of the region of PA w[A]; 0 where a region has none. -/
def execAcrd (f : LRda) (s : State) : Out :=
  running (.acrd f) s (fun q u g =>
    if u.activeSet (.acrd f) g = 0 then s.skip (.acrd f) q g
    else if !s.isService u ∧ u.level ≠ 3 then trapNow s q g g.lanes 0x22 0
    else
      let pa := s.canonPa (bitsOf (u.readW f.a.val).toNat 0 52)
      let counted : Bool := match s.place pa with
        | .bad | .peer _ => false
        | _ => true
      let region := pa / 2 ^ 21
      let x := if counted then s.accessWord region else 0
      let s1 := if counted ∧ f.clr then { s with access := s.access.filter (fun y => y.1 != region) } else s
      s1.done (.acrd f) q (u.writeW f.d.val (BitVec.ofNat 64 x)) g 0 0)

end Sys2Proof.Machine
end

