-- ==== Sys2Proof/Machine/SysReg.lean ====
section
/-! DEFINITION. System registers and their access: major 0x09 (R198, R316, R317, R319, R332, R333, R348, R349). -/
namespace Sys2Proof.Machine

/-- What a level may do with a register (R316). -/
inductive Right
  | none | r | rw
  deriving DecidableEq, Repr

/-- The rights of levels 0, 1 to 2, and 3 on the register of a number; none where the number names no register (R316, R349). -/
def sysRights (n : Nat) : Option (Right × Right × Right) :=
  if n = 0 then some (.rw, .rw, .rw)
  else if n ≤ 3 ∨ n = 5 ∨ (0x10 ≤ n ∧ n ≤ 0x15) then some (.r, .r, .r)
  else if n = 4 then some (.r, .rw, .rw)
  else if n = 0x100 ∨ n = 0x107 ∨ n = 0x108 ∨ (0x110 ≤ n ∧ n ≤ 0x113) ∨ n = 0x118 ∨ n = 0x119 ∨ n = 0x180 then some (.none, .rw, .rw)
  else if (0x101 ≤ n ∧ n ≤ 0x104) ∨ n = 0x109 ∨ n = 0x182 then some (.none, .r, .r)
  else if n = 0x181 then some (.none, .r, .rw)
  else if (0x200 ≤ n ∧ n ≤ 0x202) ∨ (0x280 ≤ n ∧ n ≤ 0x290) then some (.none, .none, .rw)
  else if 0x203 ≤ n ∧ n ≤ 0x206 then some (.none, .none, .r)
  else none

/-- The right of one level. -/
def rightAt (t : Right × Right × Right) (level : Nat) : Right := if level = 0 then t.1 else if level = 3 then t.2.2 else t.2.1

/-- Why a write is turned away, as a cause code (R198 check 3). -/
def writeCause (t : Right × Right × Right) (level : Nat) : Option Nat :=
  match rightAt t level with
  | .rw => none
  | .none => some 0x22
  | .r => if t.2.1 = .rw ∨ t.2.2 = .rw then some 0x22 else some 0x20

/-- The innermost supervisor frame (R316). -/
def Furrow.supFrame (f : Furrow) : Option Frame :=
  match f.frame? 2 with
  | some fr => some fr
  | none => f.frame? 1

/-- Register k of a frame: cause, lanes, fault address, argument; 0 without a frame. -/
def frameReg (fr : Option Frame) (k : Nat) : W64 :=
  match fr with
  | none => 0
  | some fr => if k = 0 then fr.cause else if k = 1 then fr.tlane.setWidth 64 else if k = 2 then fr.val else fr.arg

/-- Clock island of a core (R24): two on each compute die. -/
def islandOf (core : Nat) : Nat := 2 * dieOf core + (if 24 ≤ coreInDie core then 1 else 0)

/-- `CLOCK` of a core (R317): whole cycles of its island's clock. -/
def State.clockOf (s : State) (core : Nat) : Nat := s.islandTime[Fin.ofNat 16 (islandOf core)] / 4000

/-- The value a read of a register returns, zero-extended to 64 bits. -/
def State.readSys (s : State) (f : Furrow) (n : Nat) : W64 :=
  let c : Ctx := (s.ctx? (s.ctxOf f)).getD { ctx := 0 }
  let k := (s.core f.core).countersOf (s.ctxOf f)
  if n = 0 then f.fpenv.setWidth 64
  else if n = 1 then s.locOf f
  else if n = 2 then ((s.field? f.field).map (fun fl => workId fl f.ix)).getD 0
  else if n = 3 then BitVec.ofNat 64 (s.clockOf f.core)
  else if n = 4 then c.reuseCtl.setWidth 64
  else if n = 5 then BitVec.ofNat 64 f.level
  else if n = 0x10 then k.hit
  else if n = 0x11 then k.ldhit
  else if n = 0x12 then k.kill
  else if n = 0x13 then k.share
  else if n = 0x14 then k.coll
  else if n = 0x15 then k.roll
  else if n = 0x100 then c.tvecS
  else if 0x101 ≤ n ∧ n ≤ 0x104 then frameReg f.supFrame (n - 0x101)
  else if n = 0x107 then c.fwdog.setWidth 64
  else if n = 0x108 then c.tresp.setWidth 64
  else if n = 0x109 then BitVec.ofNat 64 (s.permitsFree f.core)
  else if 0x110 ≤ n ∧ n ≤ 0x113 then c.bpt[Fin.ofNat 4 (n - 0x110)]
  else if n = 0x118 ∨ n = 0x119 then c.wpt[Fin.ofNat 2 (n - 0x118)]
  else if n = 0x180 then c.troot
  else if n = 0x181 then c.tasid.setWidth 64
  else if n = 0x182 then BitVec.ofNat 64 ((s.die (dieOf f.core)).faults.filter FaultEntry.queued).length
  else if n = 0x200 then c.hctl
  else if n = 0x201 then c.hdeleg
  else if n = 0x202 then c.tvecH
  else if 0x203 ≤ n ∧ n ≤ 0x206 then frameReg (f.frame? 3) (n - 0x203)
  else if 0x280 ≤ n ∧ n ≤ 0x28F then c.hpar[Fin.ofNat 16 (n - 0x280)]
  else if n = 0x290 then s.accfg.setWidth 64
  else 0

/-- Whether a TLB entry belongs to an ASID alone (R364 kind 0). -/
def TlbEntry.ofAsid (asid : Nat) (e : TlbEntry) : Bool := !e.g && e.asid == asid

/-- The ASID a context holds. -/
def State.asidOf (s : State) (ctx : Nat) : Nat := ((s.ctx? ctx).map (fun c => c.tasid.toNat)).getD 0

/-- Whether a write to `TASID_S` takes effect (R349): no other context holds the ASID, and no service context reserves it. -/
def State.asidFree (s : State) (ctx : Nat) (a : BitVec 16) : Bool :=
  !s.ctxs.any (fun c => c.ctx != ctx && c.tasid == a) && !decide (0xFFF0 ≤ a.toNat ∧ a.toNat ≤ 0xFFF5)

/-- A write to `TASID_S` (R349): ignored when it takes no effect; else the old ASID's translations and every load reuse entry go. -/
def State.writeAsid (s : State) (ctx : Nat) (a : BitVec 16) : State :=
  if !s.asidFree ctx a then s else (s.onCtx ctx (fun c => { c with tasid := a })).tlbDrop (TlbEntry.ofAsid (s.asidOf ctx))

/-- Whether a write of a register must wait as a `tlbinv.asid` of the old ASID does (R349, R364): for the group's own stores, and for every access
translated through an entry it drops. -/
def State.asidWaits (s : State) (f : Furrow) (g : Group) (n : Nat) (x : W64) : Bool :=
  n == 0x181 && s.asidFree (s.ctxOf f) (x.setWidth 16) && (f.storing g.lanes || s.outstanding (TlbEntry.ofAsid (s.asidOf (s.ctxOf f))))

/-- A permitted write to a register; reserved fields are not written (R6). -/
def State.writeSys (s : State) (f : Furrow) (n : Nat) (x : W64) : State :=
  let ctx := s.ctxOf f
  if n = 0 then s.onFurrow f.core f.slot (fun f => { f with fpenv := x.setWidth 32 &&& fpenvMask })
  else if n = 4 then s.onCtx ctx (fun c => { c with reuseCtl := x.setWidth 32 &&& 3 })
  else if n = 0x100 then s.onCtx ctx (fun c => { c with tvecS := (x.setWidth 57).setWidth 64 })
  else if n = 0x107 then s.onCtx ctx (fun c => { c with fwdog := x.setWidth 32 &&& 15 })
  else if n = 0x108 then s.onCtx ctx (fun c => { c with tresp := x.setWidth 32 &&& 1 })
  else if 0x110 ≤ n ∧ n ≤ 0x113 then
    s.onCtx ctx (fun c => { c with bpt := c.bpt.set (Fin.ofNat 4 (n - 0x110)) (x &&& 0x8000000000FFFFFF#64) })
  else if n = 0x118 ∨ n = 0x119 then s.onCtx ctx (fun c => { c with wpt := c.wpt.set (Fin.ofNat 2 (n - 0x118)) x })
  else if n = 0x180 then s.onCtx ctx (fun c => { c with troot := x &&& 0x000FFFFFFFFFF000#64 })
  else if n = 0x181 then s.writeAsid ctx (x.setWidth 16)
  else if n = 0x200 then s.onCtx ctx (fun c => { c with hctl := x &&& 3 })
  else if n = 0x201 then s.onCtx ctx (fun c => { c with hdeleg := x })
  else if n = 0x202 then s.onCtx ctx (fun c => { c with tvecH := (x.setWidth 57).setWidth 64 })
  else if 0x280 ≤ n ∧ n ≤ 0x28F then
    s.onCtx ctx (fun c => { c with hpar := c.hpar.set (Fin.ofNat 16 (n - 0x280)) (x &&& 0xBFFFFFFFFFFFFFFF#64) })
  else if n = 0x290 then { s with accfg := x.setWidth 32 &&& 0x3FF }
  else s

/-- R198: `srr`, once per group, with its checks in order. -/
def execSrr (f : SR) (s : State) : Out :=
  running (.srr f) s (fun q u g =>
    match sysRights f.srn.toNat with
    | none => trapNow s q g g.lanes 0x20 0
    | some t =>
      if rightAt t u.level = .none then trapNow s q g g.lanes 0x22 0
      else s.done (.srr f) q (u.writeW f.w.val (s.readSys u f.srn.toNat)) g 0 0)

/-- R198: `srw`, once per group, with its checks in order. -/
def execSrw (f : SR) (s : State) : Out :=
  running (.srw f) s (fun q u g =>
    match sysRights f.srn.toNat with
    | none => trapNow s q g g.lanes 0x20 0
    | some t =>
      match writeCause t u.level with
      | some c => trapNow s q g g.lanes c 0
      | none =>
        let x := u.readW f.w.val
        if s.asidWaits u g f.srn.toNat x then .next (s.waitOn q g .fence)
        else
          let s1 := s.writeSys u f.srn.toNat x
          (if f.srn.toNat = 0x181 ∧ s.asidFree (s.ctxOf u) (x.setWidth 16) then s1.fullFence u g.lanes .pkg else s1).skip (.srw f) q g)

end Sys2Proof.Machine
end

