-- ==== Sys2Proof/Machine/Upsets.lean ====
section
/-! DEFINITION. Soft errors of the arrays (R124, R127): corrected, rebuilt from parity, refetched, or poison, each counted (R434). -/
namespace Sys2Proof.Machine

/-- The addresses of the words of a 64-byte line. -/
def lineWords (addr : Nat) : List Nat := (List.range 16).map (fun k => addr / 64 * 64 + 4 * k)

/-- Words of a store poisoned. -/
def Store.spoil (t : Store) (ws : List Nat) : Store := { t with poison := ws.foldl setInsert t.poison }

/-- Words of a field's scratchpad (space 1), tile store (2) or B-slice (3) poisoned. -/
def Field.spoil (fl : Field) (space : Nat) (ws : List Nat) : Field :=
  if space = 1 then { fl with sp := fl.sp.spoil ws } else if space = 2 then { fl with tile := fl.tile.spoil ws } else { fl with bsl := fl.bsl.spoil ws }

/-- The agent whose die counts an error at a place. -/
def State.upsetAgent (s : State) (p : UpsetAt) : Nat :=
  match p with
  | .link a => a
  | .home pa => s.homeAgent pa
  | .holder d _ => d
  | .l1 c _ => dieAgent c
  | .word _ fd _ => ((s.field? fd).map (fun fl => dieAgent fl.core)).getD 7

/-- Whether a line at its home is the only copy of its data (R127): no other holder has a copy, and no message carries one. -/
def State.homeOnly (s : State) (pa : Nat) : Bool :=
  let x := s.sector pa
  !x.holders.any (fun h => h.agent != s.homeAgent pa && h.n != 0 && h.valid)
    && !s.net.any (fun m => m.typ == 2 && m.data && sectorOf m.sector == x.pa)

/-- What an uncorrectable error does: a copy that is not the only one, which at a holder is one with DIRTY 0
(R373), is discarded and refetched when it is next read; the only copy is poisoned, a scratchpad by the word,
any other array by the line (R124, R127). Answers whether something was poisoned. -/
def State.spoil (s : State) (p : UpsetAt) : State × Bool :=
  match p with
  | .link _ => (s, false)
  | .home pa => if s.homeOnly pa then (s.poisonSector (sectorOf pa), true) else (s, false)
  | .holder d pa =>
    if s.isPeer pa then (s.dropPeer d [sectorOf pa], false)
    else
      let h := (s.sector pa).holder d
      if h.n = 0 ∨ !h.valid then (s, false)
      else if h.dirty then (s.poisonSector (sectorOf pa), true)
      else (s.dropL1 (fun c => dieOf c == d) (sectorOf pa), false)
  | .l1 c pa => (s.dropL1 (fun k => k == c) (sectorOf pa), false)
  | .word space fd a => (s.onField fd (fun fl => fl.spoil space (if space = 1 then [a / 4 * 4] else lineWords a)), true)

/-- One soft error met: a flit retried (R434), or a word or line corrected, rebuilt, or uncorrectable (log 108). An error of a discarded copy shows in `CORRECTED`. -/
def State.meetUpset (s : State) (u : Upset) : State :=
  let a := s.upsetAgent u.place
  if u.place = .link a then s.onAgentErrs a (fun e => { e with retries := e.retries + 1 })
  else if u.level = 0 then s.onAgentErrs a (fun e => { e with corrected := e.corrected + 1 })
  else if u.level = 1 then s.onAgentErrs a (fun e => { e with rebuilt := e.rebuilt + 1 })
  else
    let r := s.spoil u.place
    r.1.onAgentErrs a (fun e => if r.2 then { e with poisoned := e.poisoned + 1 } else { e with corrected := e.corrected + 1 })

/-- The soft errors that are met by now. -/
def State.meetUpsets (s : State) : State :=
  if s.upsets.isEmpty then s
  else
    (s.upsets.filter (fun u => decide (u.time ≤ s.cycles))).foldl State.meetUpset { s with upsets := s.upsets.filter (fun u => !decide (u.time ≤ s.cycles)) }

end Sys2Proof.Machine
end

