-- ==== Sys2Proof/Machine/Votes.lean ====
section
/-! DEFINITION. Votes, the read of the first active lane, and the extended block: major 0x15 (R199, R200, R206, R69 to R71). -/
namespace Sys2Proof.Machine

/-- An operation over the active set; nothing when the set is empty (R199). -/
def overActive (i : Instr) (s : State) (k : Furrow → Mask → Furrow) : Out :=
  running i s (fun q u g =>
    let m := u.activeSet i g
    if m = 0 then s.skip i q g else s.done i q (k u m) g m 0)

/-- R200: the lowest active lane's element, sign-extended for `.i32`. -/
def execVfirst (f : LV) (s : State) : Out :=
  overActive (.vfirst f) s (fun u m =>
    let x := u.laneBits f.ty f.a.val (lowestLane m)
    u.writeW f.d.val (if f.ty = .i32 then BitVec.ofInt 64 (sext x 32) else BitVec.ofNat 64 x))

/-- R200: one bit for each active lane where pA is true. -/
def execVballot (f : LV) (s : State) : Out :=
  overActive (.vballot f) s (fun u m => u.writeW f.d.val ((m &&& u.readP f.a.val).setWidth 64))

/-- R200: the active lanes of pD take their bits of w[A]. -/
def execPsetw (f : LV) (s : State) : Out :=
  overActive (.psetw f) s (fun u m => u.writeP f.d.val m ((u.readW f.a.val).setWidth 32))

/-- A vote: every active lane of pD takes one truth value. -/
def vote (u : Furrow) (d : Nat) (m : Mask) (b : Bool) : Furrow := u.writeP d m (if b then m else 0)

/-- R200: whether pA is true in every active lane. -/
def execVall (f : LV) (s : State) : Out := overActive (.vall f) s (fun u m => vote u f.d.val m (m &&& u.readP f.a.val == m))

/-- R200: whether pA is true in some active lane. -/
def execVany (f : LV) (s : State) : Out := overActive (.vany f) s (fun u m => vote u f.d.val m (m &&& u.readP f.a.val != 0))

/-- R200: whether the elements of the active lanes are all equal. -/
def execVuni (f : LV) (s : State) : Out :=
  overActive (.vuni f) s (fun u m =>
    let x := fun l => u.laneBits f.ty f.a.val l
    vote u f.d.val m ((lanesOf m).all (fun l => x l == x (lowestLane m))))

/-- R200: each active lane takes its own number. -/
def execVlane (f : LV) (s : State) : Out := overActive (.vlane f) s (fun u m => u.writeV f.d.val m (fun l => BitVec.ofNat 32 l))

/-! ### The extended block -/

/-- The order of a waiting `xacq`. -/
def Group.acqOrder (g : Group) : Option Nat :=
  match g.wait with
  | some (.xacq n) => some n
  | _ => none

/-- The furrows of a quarter that wait at an `xacq`, with the orders of their waits. -/
def State.acqWaiters (s : State) (core quarter : Nat) : List (Nat × Furrow) :=
  ((s.quarterFurrows core quarter).map (fun f => (f.groups.filterMap Group.acqOrder).map (fun n => (n, f)))).flatten

/-- How an `xacq` of a furrow is decided now (R71): a free right of its field unless an earlier one of the field waits; else an
unreserved grant with 144 free registers unless any other waits; else none. `before` says which waiters stand ahead. -/
def State.decideAcq (s : State) (f : Furrow) (before : List Furrow) : Option Ext :=
  let q := quarterOf f.slot
  if s.rightFree f.field f.core q && before.all (fun h => h.field != f.field) then some .right
  else if before.isEmpty && decide (144 ≤ s.physFree f.core q) then some (.unreserved s.nextId)
  else none

/-- How an `xacq` that issues is decided, behind those that wait. -/
def State.newAcq (s : State) (f : Furrow) : Option Ext :=
  s.decideAcq f (((s.acqWaiters f.core (quarterOf f.slot)).map Prod.snd).filter (fun h => h.slot != f.slot))

/-- R40, R69, R71, R206: the whole furrow acquires the block, or waits. -/
def execXacq (f : LX0) (s : State) : Out :=
  running (.xacq f) s (fun q u g =>
    if !u.converged (.xacq f) g then trapNow s q g g.lanes 0x21 0
    else if u.ext ≠ .none then s.skip (.xacq f) q g
    else
      match s.newAcq u with
      | some e => (({ s with nextId := s.nextId + 1 } : State).onFurrow u.core u.slot (fun u => u.grantExt e)).skip (.xacq f) q g
      | none => .next (({ s with nextId := s.nextId + 1 } : State).waitOn q g (.xacq s.nextId)))

/-- R40, R69, R71, R206: the whole furrow drops the block; its right goes to the earliest unreserved grant of its field. -/
def execXrel (f : LX0) (s : State) : Out :=
  running (.xrel f) s (fun q u g =>
    if !u.converged (.xrel f) g then trapNow s q g g.lanes 0x21 0
    else if u.ext = .none then s.skip (.xrel f) q g
    else
      let s1 := s.setFurrow u.dropExt
      ((s1.purgeReuse u.core (quarterOf u.slot)).passRight u.field u.core (quarterOf u.slot)).skip (.xrel f) q g)

end Sys2Proof.Machine
end

