-- ==== Sys2Proof/Machine/Scheduler.lean ====
section
/-! DEFINITION. The events of a core: issue selection (R30 to R37), the completion of instructions and fences, trap permits, the watchdog,
halting, the extended block and the retirement of fields. -/
namespace Sys2Proof.Machine

/-! ### Time (R46, R317) -/

/-- Whether a furrow's watchdog counters rise (R46, R73, R337, R363). -/
def State.counts (s : State) (f : Furrow) : Bool :=
  f.level == 0 && !s.isService f && !f.spilled && !f.faultWaits.any FaultWait.replay
    && !s.commands.any (fun c => c.field == f.field && c.phase == .suspended)

/-- Time passes: dt periods of 0.25 ns (log 2); writes become visible (R141), soft errors are met (R124, R127). -/
def State.tick (s : State) (dt : Nat) : State :=
  let s1 := { s with cycles := s.cycles + dt, islandTime := Vector.ofFn (fun i : Fin 16 => s.islandTime[i] + dt * s.islands[i]) }
  ({ s1 with furrows := s1.furrows.map (fun (f : Furrow) =>
      if s.counts f then
        let n := s1.clockOf f.core - s.clockOf f.core
        { f with groups := f.groups.map (fun (g : Group) => { g with wdog := g.wdog + n }) }
      else f) } : State).expire.meetUpsets

/-! ### Eligibility (R33) -/

/-- A furrow of which no group is chosen: spilled (R73), without the permit it resumes under (R340), stopped inside an issue slot (R158) or by a context
fault (R321), or suspended as a whole (R337, R353). -/
def Furrow.blocked (f : Furrow) : Bool :=
  f.spilled || f.needPermit.isSome || f.openSlot.isSome || f.dead || f.faultWaits.any FaultWait.whole

/-- Whether an access of a group that has issued can go on: some part of it can be performed, or can be asked for. -/
def State.accessReady (s : State) (f : Furrow) (g : Group) : Bool :=
  match g.wait with
  | some (.access write _ todo _ _) =>
    let free := todo.filter (fun p => !f.ownStore g.lanes p.secs)
    free.any (fun p => s.partReady f g write p)
      || (s.lacking (dieAgent f.core) write (free.map Part.secs).flatten).any (fun x => s.canRequest (dieAgent f.core) x write)
  | _ => false

/-- Whether what a group waits for has come; an access that has issued completes by itself. -/
def State.waitMet (s : State) (f : Furrow) (g : Group) (w : Wait) : Bool :=
  match w with
  | .flags m => m &&& ~~~f.flags == 0
  | .handle n got => got.isSome || (s.handleStatus f n).isSome
  | .basin p => s.portRead f p != some .wait
  | .xacq _ => false
  | .address _ woken _ => woken
  | .tokens agent secs write =>
    let lack := s.lacking agent write secs
    lack.isEmpty || lack.any (fun x => s.canRequest agent x write)
  | .access .. => false
  | .drain => !f.storing g.lanes
  | .furrowDrain => !f.busy
  | .fence | .rolledFence .. => false
  | .pushRoom e => s.engineFree f.core e && ((s.field? f.field).bind Field.slotFor).isSome
  | .row n => !(f.opq[n]).isEmpty
  | .svcRoom => decide ((s.die (dieOf f.core)).svc.length < serviceRoom)
  | .svcEntry => !(s.die (dieOf f.core)).svc.isEmpty
  | .fqEntry => (s.die (dieOf f.core)).nextFault.isSome
  | .levelDrain => !f.posted.any (fun p => p.level == f.level)
  | .specHold => f.spec.isNone
  | .retain ds _ => !f.overRetained ds

/-- Whether a back-off has run out, by time or by the core's reservation (R323). -/
def State.backoffOver (s : State) (f : Furrow) (lanes : Mask) (b : Backoff) : Bool :=
  decide (b.deadline ≤ s.cycles)
    || ((s.core f.core).reserve.any (fun r => r.1 == f.slot && r.2 &&& lanes != 0) && s.permitFor f lanes)

/-- Whether a group is eligible (R33); a stepped return leaves only its own group, until its chain has issued (R331). -/
def State.eligibleGroup (s : State) (f : Furrow) (g : Group) : Bool :=
  g.level == f.level && g.rcv.isNone && g.pend.isNone && !f.blocked && (g.midChain || !s.heldBack f)
    && !f.faultWaits.any (fun w => w.lanes &&& g.lanes != 0)
    && (match f.step with
      | none => true
      | some (_, m, gone) => !gone && m == g.lanes)
    && (match g.backoff with
      | none => true
      | some b => b.trap.isNone && s.backoffOver f g.lanes b)
    && (match g.wait with
      | none => true
      | some w => s.waitMet f g w)

/-- The eligible groups of a furrow. -/
def State.eligibleGroups (s : State) (f : Furrow) : List Group := f.groups.filter (s.eligibleGroup f)

/-! ### Before the choice: merges, releases, pending traps, halts -/

/-- HALT of every running lane of a furrow at its own next PC (R318, R334). -/
def Furrow.haltTrap (f : Furrow) : TrapReq :=
  { lanes := f.running, code := 6, info := 0, arg := 0, pcs := tableOf (fun i => ((f.groupOf? i).map Group.pc).getD 0),
    eaddr := Vector.replicate 32 0 }

/-- A group that waits for a fence that has rolled back, back at that fence (R147). -/
def Group.atFence (g : Group) : Group :=
  match g.wait with
  | some (.rolledFence pc _ _) => { g with pc := pc, wait := none }
  | _ => g

/-- A furrow that runs ahead of a speculative fence, or waits for one that has rolled back, at that fence again (R148). -/
def State.abandonSpec (s : State) (core slot : Nat) : State :=
  match s.furrow? core slot with
  | none => s
  | some f =>
    match f.spec with
    | none => s.onFurrow core slot (fun f => { f with groups := f.groups.map Group.atFence })
    | some sf => s.rollbackSpec f sf sf.fencePc none

/-- Whether a furrow can take its pending HALT now (R334): at level 0, with nothing of it suspended and no trap of it pending. One that waits for fault
entries takes it when that wait has ended (DESIGN CHOICE, log 114: R334 abandons waits as at pre-emption, which saves such a furrow as it waits). -/
def Furrow.haltDue (f : Furrow) : Bool :=
  f.haltPend && f.level == 0 && !f.groups.any (fun g => g.level == 0 && (g.accessing || (g.midChain && g.wait.isNone))) && f.faultWaits.isEmpty && f.step.isNone && !f.blocked && !f.groups.isEmpty
    && f.groups.all (fun g => g.pend.isNone && g.backoff.all (fun b => b.trap.isNone))

/-- A pending HALT taken at an instruction boundary at level 0; waits are abandoned (R334). -/
def State.takeHalt (s : State) (core slot : Nat) : State :=
  match s.furrow? core slot with
  | none => s
  | some f =>
    if !f.haltDue then s
    else
      let s1 := (s.abandonSpec core slot).onFurrow core slot (fun f => { f with haltPend := false })
      match s1.furrow? core slot with
      | none => s1
      | some f1 => s1.enterTrap core slot f1.haltTrap

/-- The pending trap of the group with the lowest lane entered (R326); during a step only the stepped group issues (R331). -/
def State.takePending (s : State) (core slot : Nat) : State :=
  match s.furrow? core slot with
  | none => s
  | some f =>
    if f.blocked then s
    else match bestBy (fun (a b : Group) => decide (lowestLane a.lanes < lowestLane b.lanes))
        (f.groups.filter (fun g => g.level == f.level && g.pend.isSome && f.step.all (fun t => t.2.1 &&& g.lanes != 0))) with
    | none => s
    | some g =>
      match g.pend with
      | none => s
      | some r => (s.onFurrow core slot (fun f => f.onGroup g.lanes (fun g => g.unpend r))).enterTrap core slot r

/-- Groups merged (R30); what merging groups stored on diverged paths is promised to become visible (R142). -/
def State.mergeFurrow (s : State) (f : Furrow) : State :=
  let f1 := f.merge
  let new := f1.groups.filter (fun g => !f.groups.any (fun h => h.level == g.level && h.lanes == g.lanes))
  new.foldl (fun s g => s.undiverge (f.party g.lanes)) (s.setFurrow f1)

/-- The instructions that stand at a PC, a clause header among them; none where they cannot be fetched. -/
def State.wordsAt (s : State) (f : Furrow) (pc : Nat) : List Instr :=
  match prefixInstrs 3 (State.fetchChain f (3 - pc / 4 % 3) pc s).2.1 with
  | .ok is => is
  | .error _ => []

/-- The next instruction of a group, where nothing comes before it: no fetch that fails, no illegal chain or PC (R157, R173), no breakpoint (R332), and
none of the tests that precede its effect. -/
def State.upcoming (s : State) (f : Furrow) (g : Group) : Option Instr :=
  let pc := g.pc.toNat
  let i := if g.midChain then (s.wordsAt f pc).head?
    else if (s.codeOf f).2 ≤ packetOf g.pc then none
    else
      let r := State.fetchChain f (3 - pc / 4 % 3) pc s
      match chainHead (pc / 4 % 3) r.2.1 r.2.2 with
      | .ok (some x) => if x.major ≠ 1 ∧ (s.breakpoint f g).isSome then none else some x
      | _ => none
  i.filter (fun x => !(x.usesExtended && f.ext == .none) && !(isPrivileged x && f.level == 0))

/-- The unmet wait of a group's next instruction (R33), of those that can be told before it issues: a clause header's flags, an unresolved handle, an
empty basin port, a full engine queue, an empty operand queue, a register acquire. At level 3 none: what the firmware's code does there is R445's
(`State.serveTrap`), whatever words its place holds. -/
def State.unmet (s : State) (f : Furrow) (g : Group) : Option Wait :=
  if f.level = 3 then none
  else match s.upcoming f g with
  | some (.clause h) =>
    if h.wait &&& ~~~(f.closeClause g).flags = 0 ∨ (s.upcoming f { g with pc := g.pc + 4 }).isNone then none else some (.flags h.wait)
  | some (.hwait x) => if (s.handleStatus f x.h).isNone then some (.handle x.h none) else none
  | some (.qclaim x) => if s.portRead f x.q = some .wait then some (.basin x.q) else none
  | some (.push x) =>
    if (x.q = 0 ∧ g.lanes ≠ f.running) ∨ (s.field? f.field).isNone then none
    else if s.engineFree f.core x.q && ((s.field? f.field).bind Field.slotFor).isSome then none else some (.pushRoom x.q)
  | some (.qpop x) => if (f.opq[x.q]).isEmpty then some (.row x.q) else none
  | some (.xacq x) => if f.converged (.xacq x) g && f.ext == .none && (s.newAcq f).isNone then some (.xacq s.nextId) else none
  | _ => none

/-- A group whose next instruction has an unmet wait waits from here on (R33). -/
def State.noteWait (s : State) (core slot : Nat) (lanes : Mask) : State :=
  match (s.furrow? core slot).bind (fun f => (f.group? lanes).map (fun g => (f, g))) with
  | none => s
  | some (f, g) =>
    if g.wait.isSome || !s.eligibleGroup f g then s
    else match s.unmet f g with
      | none => s
      | some w =>
        let f1 := match w with
          | .flags _ => f.closeClause g
          | _ => f
        { s.setFurrow (f1.onGroup lanes (fun g => { g with wait := some w })) with nextId := s.nextId + 1 }

/-- What comes before the choice in one furrow: releases and merges (R30, R192), a pending trap, a HALT, and what its groups wait for. -/
def State.prepareFurrow (s : State) (core slot : Nat) : State :=
  if (s.furrow? core slot).any s.heldBack then s
  else
    let s := s.endWaits core slot
    let free := (s.furrow? core slot).any (fun f => !f.blocked && f.step.isNone)
    let held := (s.furrow? core slot).any (fun f => !f.blocked && (f.step.isNone || !f.stepping))
    let s1 := if held then (s.furrow? core slot).elim s s.releaseHolds else s
    let s2 := if free then (s1.furrow? core slot).elim s1 s1.mergeFurrow else s1
    let s3 := (s2.takePending core slot).takeHalt core slot
    match s3.furrow? core slot with
    | some f => if f.step.isNone && f.spec.isNone then f.groups.foldl (fun s g => s.noteWait core slot g.lanes) s3 else s3
    | none => s3

/-! ### The choice of groups (R35 to R37, R194) -/

/-- Larger age, then lower PC. -/
def olderGroup (a b : Group) : Bool := decide (b.age < a.age) || (a.age == b.age && decide (a.pc.toNat < b.pc.toNat))

/-- Most lanes, then larger age, then lower PC. -/
def widerGroup (a b : Group) : Bool :=
  decide (laneCount b.lanes < laneCount a.lanes) || (laneCount a.lanes == laneCount b.lanes && olderGroup a b)

/-- Step 1 of R35. -/
def firstChoice (gs : List Group) : Option Group :=
  let due := gs.filter (fun g => decide (32 ≤ g.age))
  if !due.isEmpty then bestBy olderGroup due
  else if gs.all (fun g => !g.active) then bestBy olderGroup gs
  else bestBy widerGroup (gs.filter Group.active)

/-- Step 3 of R35 among the remaining groups. -/
def secondChoice (gs : List Group) : Option Group :=
  let act := gs.filter Group.active
  let due := act.filter (fun g => decide (32 ≤ g.age))
  if !due.isEmpty then bestBy olderGroup due else bestBy widerGroup act

/-- The instructions a group would issue next, a clause header before its chain aside; none where they cannot be fetched. -/
def State.peek (s : State) (f : Furrow) (g : Group) : List Instr :=
  match s.wordsAt f g.pc.toNat with
  | i :: rest => if i.major = 1 then (if rest.isEmpty then s.wordsAt f (g.pc.toNat + 4) else rest) else i :: rest
  | [] => []

/-- Whether a group's next instruction is solo (R37). -/
def State.isSolo (s : State) (f : Furrow) (g : Group) : Bool := (s.peek f g).any Instr.isSolo

/-- Registers that a list of instructions reads or writes. -/
def namesOf (is : List Instr) : List RegName := (is.map (fun i => i.readsWrites.1 ++ i.readsWrites.2)).flatten

/-- Whether the second group's chain uses a register that a load or atomic of the first group's chain writes (R38, R65). -/
def State.touches (s : State) (f : Furrow) (first second : Group) : Bool :=
  let w := ((s.peek f first).filter (fun i => i.major == 0x16 || i.major == 0x18 || i.major == 0x19)).map (fun i => i.readsWrites.2)
  w.flatten.any (fun r => (namesOf (s.peek f second)).contains r)

/-- The active group that gives its entry to a parked first group (R35 step 2). -/
def Furrow.giver (f : Furrow) : Option Group :=
  bestBy (fun a b => decide (b.issuedAt < a.issuedAt) || (a.issuedAt == b.issuedAt && decide (a.pc.toNat < b.pc.toNat)))
    (f.groups.filter Group.active)

/-- Whether two groups of a furrow are the same. -/
def sameGroup (a : Group) (b : Option Group) : Bool := b.any (fun b => a.level == b.level && a.lanes == b.lanes)

/-- A group after the slot for which `first` and `second` were chosen (R35 steps 2 and 4). -/
def Group.afterChoice (now : Nat) (eligible : Bool) (first second giver : Option Group) (g : Group) : Group :=
  let on := sameGroup g first || sameGroup g second
  { g with yielded := false, active := (g.active && !sameGroup g giver) || on,
           age := if on then 0 else if eligible then g.age + 1 else g.age, issuedAt := if on then now else g.issuedAt }

/-- The firmware's level-3 code serves the trap that reached it (R445). -/
def State.serveTrap (s : State) (f : Furrow) : State :=
  let ctx := s.ctxOf f
  match f.frame? 3, s.ctx? ctx with
  | some fr, some c =>
    let call := fr.code == 1 && fr.fromLevel == 0 && bitsOf c.tvecS.toNat 12 45 == 0
    let tv := (fr.arg.setWidth 57).setWidth 64
    if call ∧ fr.info = 0xF0 then (s.onCtx ctx (fun c => { c with tvecS := tv, hdeleg := 0xFFFFFFFFFFFFFF81 })).returnTrap f fr 0
    else if call ∧ fr.info = 0xF1 then (s.onCtx ctx (fun c => { c with tvecS := tv, hdeleg := 0 })).returnTrap f fr 0
    else if call ∧ fr.info = 0xF2 then (s.onCtx ctx (fun c => { c with tresp := fr.arg.setWidth 32 &&& 1 })).returnTrap f fr 0
    else s.contextFault f.core f.slot ctx fr.code (s.locOf f)
  | _, _ => s

/-- The groups of the selected furrow chosen (R35, R194). A group that has yielded stands back while another is eligible; where all of them have,
all compete, and a merged group has yielded when each of its parts has (DESIGN CHOICE, log 104: R194 speaks of one group). -/
def State.choose (s : State) (f : Furrow) : State :=
  if f.level = 3 then s.serveTrap f
  else
    let el := s.eligibleGroups f
    let ch := if el.all Group.yielded then el else el.filter (fun g => !g.yielded)
    match firstChoice ch with
    | none => s
    | some g =>
      let pair : Bool := g.active && f.step.isNone && !s.isSolo f g
      let second : Option Group := if pair then (secondChoice (ch.filter (fun h => !sameGroup h (some g)))).filter (fun h => !s.isSolo f h) else none
      let giver : Option Group := if g.active then none else f.giver
      let f1 := { f with
        stepping := f.step.isSome, groups := f.groups.map (fun h => h.afterChoice s.cycles (s.eligibleGroup f h) (some g) second giver) }
      let q : Issue := { core := f.core, slot := f.slot, lanes := g.lanes, second := second.map Group.lanes, undo := some f, before := f.groups,
                         first := g.lanes, follows := second.any (fun h => s.touches f g h) }
      { s.setFurrow f1 with issue := some q }

/-- A second group chosen instead of one that turned out to wait (R35 step 3): among those that were active and eligible at the choice and still are. -/
def State.chooseSecond (s : State) (f : Furrow) (q : Issue) : State :=
  let ch := q.before.filter (fun h => h.lanes &&& q.first = 0 && !h.yielded
    && (f.group? h.lanes).any (fun g => g.level == h.level && h.level == f.level && g.active && s.eligibleGroup f g && !s.isSolo f g))
  match secondChoice ch with
  | none => ({ s with issue := none } : State).nextInSlot { q with second := none }
  | some h =>
    let f1 := f.onGroup h.lanes (fun g => { g with age := 0, issuedAt := s.cycles })
    { s.setFurrow f1 with issue := some { q with lanes := h.lanes, second := none, inChain := false, undo := none, reopen := none, redo := .no } }

/-- The choice of a slot made again (R33, R35), since a group that was chosen has an unmet wait. -/
def State.rechoose (s : State) (q : Issue) : State :=
  let s1 := { s with issue := none }
  match s.furrow? q.core q.slot with
  | none => s1
  | some f => if q.redo = .all then s1.choose f else s1.chooseSecond f q

/-- The furrow that a quarter selects (R34): the one that has waited longest with an eligible group, the lower slot on a tie. -/
def State.selectFurrow (s : State) (core quarter : Nat) : Option Furrow :=
  bestBy (fun (a b : Furrow) => decide (b.waited < a.waited) || (a.waited == b.waited && decide (a.slot < b.slot)))
    ((s.quarterFurrows core quarter).filter (fun f => !(s.eligibleGroups f).isEmpty))

/-- A slot counted for the furrows of a quarter with an eligible group that were not selected (R34). -/
def State.countWait (s : State) (core quarter slot : Nat) : State :=
  { s with furrows := s.furrows.map (fun (f : Furrow) =>
      if f.core == core && quarterOf f.slot == quarter then
        (if f.slot = slot then { f with waited := 0 } else if (s.eligibleGroups f).isEmpty then f else { f with waited := f.waited + 1 })
      else f) }

/-- R30 to R37: dt periods pass, then a quarter selects a furrow and up to two of its groups. -/
def execIssueSelection (core quarter dt : Nat) (s : State) : Out :=
  let s1 := s.tick dt
  let s2 := (s1.quarterFurrows core quarter).foldl (fun s f => s.prepareFurrow core f.slot) s1
  let s3 := s2.handout core quarter
  .next (match s3.selectFurrow core quarter with
    | none => s3
    | some f =>
      let s4 := s3.countWait core quarter f.slot
      match s4.furrow? core f.slot with
      | none => s4
      | some f1 => s4.choose f1)

/-! ### Completion (R80, R144, R168, R331) -/

/-- The sectors that a furrow's posted stores still lack. -/
def State.lackedBy (s : State) (f : Furrow) : List Nat :=
  s.lacking (dieAgent f.core) true (pieceSectors ((f.posted.map (fun p => p.writes.map (fun w => (w.pa, w.bytes.length)))).flatten))

/-- Whether some of a furrow's posted writes can be performed now: its tokens are held and no earlier write of its sectors waits. -/
def State.writeReady (s : State) (agent : Nat) : List Nat → List PostWrite → Bool
  | _, [] => false
  | blocked, w :: ws =>
    let secs := sectorsOf w.pa w.bytes.length
    (secs.all (fun x => !blocked.contains x) && (s.lacking agent true secs).isEmpty) || s.writeReady agent (secs ++ blocked) ws

/-- Whether something of a furrow's posted stores can go on: a write performed, or tokens that it lacks requested (R141, R378, R385). -/
def State.postDue (s : State) (f : Furrow) : Bool :=
  s.writeReady (dieAgent f.core) [] ((f.posted.map Posted.writes).flatten) || (s.lackedBy f).any (fun x => s.canRequest (dieAgent f.core) x true)

/-- The group of a furrow whose access under way can go on, whatever its level. -/
def State.nextAccess (s : State) (f : Furrow) : Option Group :=
  bestBy (fun (a b : Group) => decide (lowestLane a.lanes < lowestLane b.lanes)) (f.groups.filter (s.accessReady f))

/-- R80, R168, R242, R331: what instructions of a furrow left outstanding is performed as far as tokens allow: stores, then one load or atomic, which
goes on at its own level; clause flags rise, a stepped return takes its STEP, a furrow with no live lane retires. -/
def execInstructionComplete (core slot : Nat) (s : State) : Out :=
  let s1 := s.performPosted core slot
  .next (match s1.furrow? core slot with
    | none => s1
    | some f =>
      let s2 := (s1.requestAll (dieAgent core) core true (s1.lackedBy f)).onFurrow core slot Furrow.settleClauses
      match s2.nextAccess f with
      | some g =>
        { s2.onFurrow core slot (fun f => { f with level := g.level }) with
          issue := some { core := core, slot := slot, lanes := g.lanes, inChain := true, back := some f.level } }
      | none =>
        (s2.settleStep core slot).reap core slot)

/-- A running-ahead speculative fence completes (R145 to R148): what ran ahead counts as retired, and a trap held behind it is taken. -/
def State.endSpec (s : State) (core slot : Nat) (f : Furrow) (sf : SpecFence) : State :=
  let s1 := (s.fullFence f sf.lanes sf.scope).onFurrow core slot (fun f => { f with
    spec := none,
    groups := f.groups.map (fun (g : Group) => if g.level = f.level then { g with wdog := 0, wait := if g.wait = some .specHold then none else g.wait } else g) })
  let s2 := s1.purgeReuse core (quarterOf slot)
  match sf.heldTrap with
  | some r => s2.enterTrap core slot r
  | none => s2

/-- A group whose fence has completed: the fence issues again and retires, or what follows a fence that rolled back issues. -/
def State.endFence (s : State) (f : Furrow) (g : Group) : State :=
  match g.wait with
  | some .fence => s.onFurrow f.core f.slot (fun f => f.onGroup g.lanes (fun g => { g with wait := none }))
  | some (.rolledFence _ c m) => (s.fullFence f m c).onFurrow f.core f.slot (fun f => f.onGroup g.lanes (fun g => { g with wait := none }))
  | _ => s

/-- R144, R145: the fences of a furrow whose earlier stores are all performed complete. -/
def execFenceComplete (core slot : Nat) (s : State) : Out :=
  .next (match s.furrow? core slot with
    | none => s
    | some f =>
      let s1 := (f.groups.filter (fun g => g.level == f.level && !f.storing g.lanes)).foldl (fun s g => s.endFence f g) s
      match f.spec with
      | some sf => if f.posted.isEmpty then s1.endSpec core slot f sf else s1
      | none => s1)

/-! ### Trap permits and the watchdog (R47, R323, R340) -/

/-- A furrow resumed above level 0 tries for its permit (R340). -/
def State.retryResume (s : State) (f : Furrow) (b : Backoff) : State :=
  let m := f.running
  if s.permitFor f m then (s.takePermit f m).onFurrow f.core f.slot (fun f => { f with needPermit := none })
  else
    let b1 := nextBackoff s.cycles (some b) none
    (if b1.failed = 8 then s.reserveFor f.core f.slot m else s).onFurrow f.core f.slot (fun f => { f with needPermit := some b1 })

/-- The trap retried after a back-off: HALT takes the lanes that run now, each at its present PC. -/
def Furrow.retried (f : Furrow) (r : TrapReq) : TrapReq := if r.code = 6 then f.haltTrap else r

/-- R323, R340: a back-off that has run out is retried. -/
def execTrapPermitRetry (core slot : Nat) (s : State) : Out :=
  .next (match s.furrow? core slot with
    | none => s
    | some f =>
      match f.needPermit with
      | some b => if s.backoffOver f f.running b then s.retryResume f b else s
      | none =>
        match f.groups.find? (fun g => g.level == f.level && g.backoff.any (fun b => b.trap.isSome && s.backoffOver f g.lanes b)) with
        | none => s
        | some g =>
          match g.backoff.bind Backoff.trap with
          | none => s
          | some r =>
            if f.openSlot.isSome then s else if r.code = 4 then s.takeStep core slot else s.enterTrap core slot (f.retried r))

/-- The watchdog interval of a context in cycles (R49). -/
def Ctx.interval (c : Ctx) : Nat := 2 ^ (20 + min 14 (bitsOf c.fwdog.toNat 0 4))

/-- R47: the group whose counter reached the interval first takes the watchdog trap at the instruction it is stalled on, the lower PC on a tie. An
access some part of which is performed is no longer stalled, and a group stopped inside its issue slot is past that slot's first instructions. During a
step only the stepped group issues (R331). -/
def execWatchdog (core slot : Nat) (s : State) : Out :=
  .next (match s.furrow? core slot with
    | none => s
    | some f =>
      let n := ((s.ctx? (s.ctxOf f)).map Ctx.interval).getD (2 ^ 34)
      if !s.counts f ∨ f.openSlot.isSome then s
      else
        match bestBy (fun (a b : Group) => decide (b.wdog < a.wdog) || (a.wdog == b.wdog && decide (a.pc.toNat < b.pc.toNat)))
            (f.groups.filter (fun g => g.level == 0 && decide (n ≤ g.wdog) && g.pend.isNone && !g.underway && g.backoff.all (fun b => b.trap.isNone)
              && f.step.all (fun t => t.2.1 == g.lanes))) with
        | none => s
        | some g =>
          let s1 := ((s.abandonSpec core slot).dropFilling core slot g.lanes).onFurrow core slot (fun f => f.onGroup g.lanes (fun g => { g with wdog := 0 }))
          match (s1.furrow? core slot).bind (fun f => f.group? g.lanes) with
          | none => s1
          | some h => s1.enterTrap core slot (trapAt h.lanes 7 0 h.pc))

/-- R334: a HALT request that has reached a furrow is taken at its next boundary at level 0. -/
def execHaltRequestArrive (n : Nat) (s : State) : Out :=
  .next (match nth? s.furrows n with
    | none => s
    | some f => (s.takePending f.core f.slot).takeHalt f.core f.slot)

/-! ### The extended block (R71, R73) -/

/-- R71: the `xacq` of a quarter that issued first is granted where it can be, and issues again to retire. -/
def execXacqGrant (core quarter : Nat) (s : State) : Out :=
  let ws := sortBy (fun a b => decide (a.1 < b.1)) (s.acqWaiters core quarter)
  .next (match ws.head?.bind (fun w => (s.decideAcq w.2 []).map (fun e => (w.2, e))) with
    | none => s
    | some (f, e) =>
      ({ s with nextId := s.nextId + 1 } : State).onFurrow core f.slot (fun f =>
        let f1 := f.grantExt e
        { f1 with groups := f1.groups.map (fun (g : Group) => if g.acqOrder.isSome then { g with wait := none } else g) }))

/-- R73: a spilled block is reloaded when its quarter has 144 free registers. -/
def execRegisterReload (core slot : Nat) (s : State) : Out :=
  .next (match s.furrow? core slot with
    | none => s
    | some f =>
      if f.spilled && decide (144 ≤ s.physFree core (quarterOf slot)) then s.reload f else s)

/-! ### Field retirement (R53, R62 to R64, R398, R438) -/

/-- R53: a field whose furrows have retired and whose commands have completed leaves; its reach and its scheme go on from there. -/
def execFieldRetire (field : Nat) (s : State) : Out :=
  .next (match s.field? field with
    | none => s
    | some fl =>
      if !s.mayRetire fl then s
      else if fl.service then ((s.removeField fl).serviceStart (dieOf fl.core)).switchDone (dieOf fl.core)
      else (s.removeField fl).settleScheme fl.scheme)

end Sys2Proof.Machine
end

