-- ==== Sys2Proof/Machine/Headworks.lean ====
section
/-! DEFINITION. The headworks: submission queues (R418 to R420), acceptance (R396 to R398), placement (R399 to R401), time limits, cancels, and
the choice of victims and the saving of a pre-empted field (R402 to R412). -/
namespace Sys2Proof.Machine

/-! ### Submission queues (R418 to R420, R425, R426) -/

/-- Whether a virtual function's host may use it: the package is ready and its LD attached and usable (R437, R443). -/
def State.vfUsable (s : State) (vf : Nat) : Bool := s.ready && (s.vf vf).ld.any (fun l => (s.ld l).attached && (s.ld l).usable)

/-- A queue of a virtual function. -/
def Vf.queue (v : Vf) (q : Nat) : Sq := v.queues[Fin.ofNat 8 q]

/-- A change of a queue. -/
def State.onQueue (s : State) (vf q : Nat) (k : Sq → Sq) : State :=
  s.onVf vf (fun v => { v with queues := v.queues.set (Fin.ofNat 8 q) (k (v.queue q)) })

/-- A write of `SQ_TAIL` (R418): ignored while the queue is orphaned or the package is not ready. -/
def State.writeTail (s : State) (vf q x : Nat) : State :=
  if 1024 ≤ vf ∨ 8 ≤ q ∨ !s.vfUsable vf ∨ ((s.vf vf).queue q).orphaned then s
  else s.onQueue vf q (fun k => { k with tail := x % 2 ^ k.log2n })

/-- R419: the host rings a queue's doorbell. -/
def execSqTail (vf q tail : Nat) (s : State) : Out := .next (s.writeTail vf q tail)

/-- Whether a queue holds an entry to consume. -/
def Sq.pending (k : Sq) : Bool := k.en && k.head != k.tail

/-- The queue that the headworks serves next: ascending, one entry from each in turn (R419). -/
def Vf.nextQueue (v : Vf) : Option Nat := ((List.range 8).map (fun k => (v.turn + 1 + k) % 8)).find? (fun q => (v.queue q).pending)

/-- The entry at the head of a queue: its address and kind, or none where its read faults; the ring lies in package memory (R419). -/
def State.ringEntry (s : State) (c : Ctx) (k : Sq) : Option (List Byte) :=
  let va := k.base.toNat + 16 * k.head
  match s.baseXlat c.ctx va {} with
  | some pa => if s.isLocal pa then s.baseRead c.ctx va 16 {} else none
  | none => none

/-- An entry consumed (R419, R420): the head moves on. -/
def State.consume (s : State) (vf q : Nat) : State :=
  (s.onQueue vf q (fun k => { k with head := (k.head + 1) % 2 ^ k.log2n, consumed := k.consumed + 1 })).onVf vf (fun v => { v with turn := q })

/-- The DSEQ of the entry just consumed (R420). -/
def dseqOf (k : Sq) (q : Nat) : Nat := k.gen % 65536 * 2 ^ 48 + q * 2 ^ 45 + k.consumed % 2 ^ 45

/-- A scheme accepted (R397): from now on it is evaluated, and its fields wait for cores. -/
def State.acceptLaunch (s : State) (c : Ctx) (q dseq : Nat) (l : LaunchRead) : State :=
  let sc : Scheme := { id := s.nextId, ctx := c.ctx, queue := q, reaches := l.reaches, basins := l.basins, tag := l.tag, dseq := dseq, done := l.done,
                       tlimit := l.tlimit, acceptedAt := s.cycles }
  ({ s with nextId := s.nextId + 1, schemes := s.schemes ++ [sc] } : State).evaluate sc.id

/-- A launch that starts nothing: its scheme has ended at once with a code (R397, R398). -/
def State.endedLaunch (s : State) (c : Ctx) (q dseq : Nat) (l : LaunchRead) (code detail : Nat) (loc : BitVec 64) : State :=
  let sc : Scheme := { id := s.nextId, ctx := c.ctx, queue := q, reaches := [], basins := [], tag := l.tag, dseq := dseq, done := l.done, tlimit := 0,
                       acceptedAt := s.cycles }
  ({ s with nextId := s.nextId + 1, schemes := s.schemes ++ [sc] } : State).endScheme sc.id code detail loc

/-- A launch entry's record taken (R397, R398): a context already ended by `cend` or a context fault starts no field. -/
def State.launch (s : State) (c : Ctx) (q dseq addr : Nat) : State :=
  let l := s.readLaunch c addr
  match c.ended with
  | some e => s.endedLaunch c q dseq l e.code e.detail e.loc
  | none => if l.reason ≠ 0 then s.endedLaunch c q dseq l 1 l.reason 0 else s.acceptLaunch c q dseq l

/-- A cancel of the scheme that a DSEQ names in a context (R420). -/
def State.cancelScheme (s : State) (ctx dseq : Nat) : State :=
  match s.schemes.find? (fun sc => sc.ctx == ctx && sc.dseq == dseq && sc.ended.isNone) with
  | none => s
  | some sc => s.endSchemeNow sc.id 5

/-- The next entry of a queue consumed where a test of its kind holds (R419): a read that faults sets QFAULT and clears EN, a reserved kind or
field is skipped. -/
def State.serveQueue (s : State) (vf q : Nat) (want : Nat → Bool) (k : State → Ctx → Sq → Nat → State) : State :=
  let v := s.vf vf
  match s.ctx? (vf + 1) with
  | none => s
  | some c =>
    if !s.ready ∨ v.nextQueue ≠ some q ∨ 4096 ≤ v.retained.length then s
    else
      match s.ringEntry c (v.queue q) with
      | none => (s.onQueue vf q (fun k => { k with en := false })).setEvent vf 5
      | some bs =>
        let kind := imageNum bs 8 8
        if !want kind then s
        else
          let s1 := s.consume vf q
          k s1 c ((s1.vf vf).queue q) (imageNum bs 0 8)

/-- The sectors that the headworks reads to consume the next entry of a queue (R372): the entry in package memory, and a launch's record. -/
def State.entryReads (s : State) (vf q : Nat) : List Nat :=
  let v := s.vf vf
  match s.ctx? (vf + 1) with
  | none => []
  | some c =>
    if !s.ready ∨ v.nextQueue ≠ some q then []
    else
      let k := v.queue q
      ((s.baseFoot c.ctx (k.base.toNat + 16 * k.head, 16, {})).filter s.isLocal) ++ (match s.ringEntry c k with
        | none => []
        | some bs => if imageNum bs 8 8 = 0 then s.baseFeet c.ctx (s.launchReads c (imageNum bs 0 8)) else [])

/-- R397, R398, R420: a launch entry is consumed; an entry with a reserved kind or field is skipped here. -/
def execSqEntryLaunch (vf q : Nat) (s : State) : Out :=
  .next (s.whenRead (.sqEntryLaunch vf q) (s.entryReads vf q) (fun s => s.serveQueue vf q (fun kind => kind != 1) (fun s1 c k addr =>
    if (s.ringEntry c ((s.vf vf).queue q)).any (fun bs => imageNum bs 8 8 == 0) then s1.launch c q (dseqOf k q) addr else s1)))

/-- R420: a cancel entry is consumed. -/
def execSqEntryCancel (vf q : Nat) (s : State) : Out :=
  .next (s.whenRead (.sqEntryCancel vf q) (s.entryReads vf q) (fun s =>
    s.serveQueue vf q (fun kind => kind == 1) (fun s1 c _ dseq => s1.cancelScheme c.ctx dseq)))

/-! ### Placement (R399, R400) -/

/-- Full slots and depth over a reach's input basins. -/
def State.occupancy (s : State) (fl : Field) : Nat × Nat :=
  match (s.scheme? fl.scheme).bind (fun sc => (sc.reaches[fl.reach]?).map (fun r => sc.basinsOf r false)) with
  | none => (0, 1)
  | some bs => if bs.isEmpty then (0, 1) else ((bs.map (fun b => b.full.length)).sum, (bs.map Basin.depth).sum)

/-- The order in which fields wait (R400): class, occupancy, submission, reach, field index. -/
def State.waitsBefore (s : State) (a b : Field) : Bool :=
  let x := s.occupancy a
  let y := s.occupancy b
  if a.cls ≠ b.cls then decide (a.cls < b.cls)
  else if x.1 * y.2 ≠ y.1 * x.2 then decide (y.1 * x.2 < x.1 * y.2)
  else if a.scheme ≠ b.scheme then decide (a.scheme < b.scheme)
  else if a.reach ≠ b.reach then decide (a.reach < b.reach)
  else decide (a.fieldIx < b.fieldIx)

/-- The members of a field's terrace; a field of no terrace alone. -/
def State.terraceOf (s : State) (fl : Field) : List Field :=
  if fl.tsize = 0 then [fl]
  else s.fields.filter (fun x => x.scheme == fl.scheme && x.reach == fl.reach && !x.service && x.status != .retired
    && x.fieldIx + fl.member == fl.fieldIx + x.member)

/-- The fields of a partition that wait, each terrace by its first member, once all its members wait. -/
def State.waitingFields (s : State) (part : Nat) : List Field :=
  s.fields.filter (fun f => !f.service && s.partOf f.ctx == part && (f.status == .waiting || f.status == .saved)
    && (f.tsize == 0 || ((s.terraceOf f).all (fun x => x.status == .waiting || x.status == .saved)
      && (s.terraceOf f).all (fun x => decide (f.member ≤ x.member)))))

/-- Whether the context's save area has room for the images of a field's terrace. -/
def State.imagesFit (s : State) (fl : Field) : Bool :=
  fl.image.isSome || (match s.ctx? fl.ctx with
    | none => false
    | some c => roomIn c.saveSize fl.imageSize (s.terraceOf fl).length (s.images fl.ctx))

/-- The cores that a waiting field, or its terrace, would take now (R399). -/
def State.coresFor (s : State) (fl : Field) : Option (List Nat) :=
  if !s.imagesFit fl then none
  else if fl.tsize = 0 then (s.chooseCore fl).map (fun c => [c])
  else s.chooseQuad fl (fl.tsize + 1)

/-- A field put on a core: afresh, or from its image. -/
def State.putField (s : State) (fl : Field) (core : Nat) : State :=
  if fl.status = .saved then s.resumeField fl.id core else s.startField fl.id core

/-- The fields that the headworks places next in a partition, each with its core: the first waiting one that fits, a terrace whole (R399, R400). -/
def State.nextPlaced (s : State) (part : Nat) : List (Field × Nat) :=
  match bestBy s.waitsBefore ((s.waitingFields part).filter (fun f => (s.coresFor f).isSome)) with
  | none => []
  | some fl => (s.terraceOf fl).zip ((s.coresFor fl).getD [])

/-- R43, R399, R400: the first waiting field of a partition that fits is placed, a terrace whole; then its scheme is evaluated again. -/
def execFieldPlace (part : Nat) (s : State) : Out :=
  .next (s.whenRead (.fieldPlace part) ((s.nextPlaced part).map (fun x => s.putReads x.1 x.2)).flatten.dedup (fun s =>
    match s.nextPlaced part with
    | [] => s
    | (fl, c) :: xs => (((fl, c) :: xs).foldl (fun s x => s.putField x.1 x.2) s).evaluate fl.scheme))

/-- R401: a scheme is evaluated. -/
def execSchemeEvaluate (scheme : Nat) (s : State) : Out := .next (s.evaluate scheme)

/-- R398: the time limit of a scheme has run out. -/
def execSchemeTimeout (scheme : Nat) (s : State) : Out :=
  .next (match s.scheme? scheme with
    | none => s
    | some sc =>
      if sc.ended.isNone ∧ sc.tlimit ≠ 0 ∧ sc.acceptedAt + 4000 * sc.tlimit ≤ s.cycles then s.endSchemeNow scheme 4 else s)

/-! ### Victims (R57, R402) -/

/-- The user fields on a core that a pre-emption would have to move. -/
def State.userFields (s : State) (core : Nat) : List Field := (s.fieldsOn core).filter (fun f => !f.service)

/-- The package without the fields given. -/
def State.without (s : State) (ids : List Nat) : State :=
  { s with fields := s.fields.map (fun (f : Field) => if ids.contains f.id then { f with placedAt := 0 } else f),
           furrows := s.furrows.filter (fun f => !ids.contains f.field) }

/-- The fields to move off some cores, whole terraces. -/
def State.victimsOf (s : State) (cores : List Nat) : List Field :=
  ((cores.map (fun c => ((s.userFields c).map s.terraceOf).flatten)).flatten).dedup

/-- Whether moving every user field off some cores, each of class k or less urgent, makes room there for a field. -/
def State.frees (s : State) (fl : Field) (k : Nat) (cores : List Nat) : Bool :=
  let vs := s.victimsOf cores
  let s1 := s.without (vs.map Field.id)
  vs.all (fun f => decide (k ≤ f.cls) && f.status == .resident) && !vs.isEmpty && cores.all (s1.eligible fl)

/-- When the youngest placement of a set of fields was made. -/
def youngest (l : List Field) : Nat := l.foldl (fun n f => max n f.placedAt) 0

/-- The most urgent class among some fields. -/
def urgent (l : List Field) : Nat := l.foldl (fun n f => min n f.cls) 3

/-- The order in which sets of victims are taken (R402): the least urgent class first, then the youngest placement. -/
def victimsBefore (a b : List Field) : Bool := decide (urgent b < urgent a) || (urgent a == urgent b && decide (youngest b < youngest a))

/-- The sets of cores that classes k to 3 could free for a field: single cores, or for a terrace the cores of a quad, those already eligible first, then
those whose fields are to be moved first. -/
def State.freeable (s : State) (fl : Field) (k : Nat) : List (List Nat) :=
  if fl.tsize = 0 then (allCores.filter (fun c => s.frees fl k [c])).map (fun c => [c])
  else (List.range 72).filterMap (fun q =>
    let cs := (List.range 4).map (fun j => 4 * q + j)
    let own := cs.filter (s.eligible fl)
    let rest := sortBy (fun a b => victimsBefore (s.victimsOf [a]) (s.victimsOf [b])) (cs.filter (fun c => !own.contains c && s.frees fl k [c]))
    let got := (own ++ rest).take (fl.tsize + 1)
    if got.length = fl.tsize + 1 then some (got.filter (fun c => !own.contains c)) else none)

/-- The victims for a waiting field (R402): the least urgent class first, then the youngest placement. -/
def State.victimsFor (s : State) (fl : Field) : Option (List Field) :=
  let best := fun (k : Nat) => bestBy victimsBefore ((s.freeable fl k).map s.victimsOf)
  ([3, 2, 1].filter (fun k => decide (fl.cls < k))).findSome? best

/-- Fields marked for one collection: their furrows issue nothing further (R404). -/
def State.collect (s : State) (ids : List Nat) : State :=
  { s with nextId := s.nextId + 1, fields := s.fields.map (fun (f : Field) => if ids.contains f.id ∧ f.status = .resident then { f with status := .collecting, collection := s.nextId } else f) }

/-- R402: the first waiting field of a partition that fits nowhere takes its victims; while a collection of the partition runs there is no
other. -/
def execPreemptRequest (part : Nat) (s : State) : Out :=
  let busy := s.fields.any (fun f => f.status == .collecting && s.partOf f.ctx == part)
  let ws := (s.waitingFields part).filter (fun f => (s.coresFor f).isNone && s.imagesFit f)
  .next (if busy then s
    else match bestBy s.waitsBefore (ws.filter (fun f => (s.victimsFor f).isSome)) with
      | none => s
      | some fl =>
        match s.victimsFor fl with
        | none => s
        | some vs => s.collect (vs.map Field.id))

/-! ### Saving (R340, R404 to R412) -/

/-- A group as its image keeps it: waits, holds and back-offs abandoned, a trap pending in one kept (R168, R340, R405). -/
def Group.atRest (g : Group) : Group :=
  { g with wait := none, rcv := none, backoff := none, clause := g.clause.map Clause.rest, yielded := false,
           pend := match g.pend with
             | some r => some r
             | none => (g.backoff.bind Backoff.trap).filter (fun r => r.code != 6) }

/-- A furrow as its image keeps it (R297, R340, R404): instances closed, queued rows dropped. -/
def Furrow.atRest (f : Furrow) : Furrow :=
  let f1 := f.groups.foldl (fun (f : Furrow) g => f.closeInst g.inst) f
  { f1 with
    groups := f1.groups.map Group.atRest,
    haltPend := f1.haltPend || f.groups.any (fun g => (g.backoff.bind Backoff.trap).any (fun r => r.code == 6)),
    opq := Vector.replicate 8 [],
    permit := false, needPermit := none, spilled := false, waited := 0 }

/-- A command as it is kept with a saved field: a stream back at its first element that was not popped (R297), a unit that failed its checks to be
translated again, a suspended command no longer bound to its fault entry (R363). -/
def rewind (fs : List Furrow) (c : Command) : Command :=
  let rows := ((fs.map (fun f => (f.opq.toList).flatten)).flatten).filter (fun r => r.cmd == c.id)
  { c with units := rows.foldl (fun n r => min n r.first) c.units, next := if c.engine = 2 ∧ c.ended.isSome then max c.units c.next else c.next, row := [],
           had := [], stop := none, entry := none, need := [], retry := [] }

/-- Whether something of a field has issued and not come to its stop point (R404): stores, accesses, a chain that can go on, chunks in flight. A chain
that waits or is suspended stands at an instruction that has not issued (R405). -/
def State.unsettled (s : State) (field : Nat) : Bool :=
  s.furrows.any (fun f => f.field == field && (!f.posted.isEmpty || f.groups.any (fun g => g.accessing || (g.midChain && s.eligibleGroup f g))))
    || s.commands.any (fun c => c.field == field && !c.flights.isEmpty)

/-- A command slot as the command area keeps it; its form is not architectural (R410). -/
def CmdSlot.bytes (o : Option CmdSlot) : List Byte :=
  match o with
  | none => List.replicate 24 0
  | some c => leBytes 8 c.seq ++ leBytes 4 c.kind ++ leBytes 4 (1 + c.status.isSome.toNat) ++ leBytes 8 ((c.status.getD 0).toNat)

/-- The command area of an image. -/
def Field.areaBytes (fl : Field) : List Byte := (fl.slots.toList.map CmdSlot.bytes).flatten ++ List.replicate (0x10000 - 64 * 24) 0

/-- The caddy of an image (R410). -/
def Field.caddyBytes (fl : Field) : List Byte :=
  (fl.caddy.toList.map (fun (e : Vector W64 7) => (e.toList.map (fun x => leBytes 8 x.toNat)).flatten ++ List.replicate 8 0)).flatten

/-- The image of a field and its furrows written (R410, R411). -/
def State.writeImage (s : State) (fl : Field) (fs : List Furrow) : State :=
  match s.imageAt fl with
  | none => s
  | some a =>
    let s1 := (s.baseWrite (a + 0x400) fl.caddyBytes).baseWrite (a + 0x1400) fl.area
    let s2 := fs.foldl (fun s f => s.baseWrite (a + 0x12000 + 0x6000 * f.ix) f.imageBytes) s1
    let b := a + 0x12000 + 0x6000 * fl.fcount
    let s3 := s2.baseWrite b (fl.sp.bytesAt 0 fl.sp.size ++ fl.tile.bytesAt 0 fl.tile.size ++ fl.bsl.bytesAt 0 fl.bsl.size)
    s3.describe fl 2

/-- Every furrow of a field at its instruction boundary: a due STEP taken, a speculative fence rolled back (R148, R340). -/
def State.settleFurrows (s : State) (core : Nat) (slots : List Nat) : State :=
  slots.foldl (fun s k =>
    let s1 := if (s.furrow? core k).any (fun f => f.step.any (fun t => t.2.2)) then s.takeStep core k else s
    s1.abandonSpec core k) s

/-- Whether every unit that holds state of a collection's victims has acknowledged (R404): a victim with no furrow left has none that must (R408). -/
def State.acknowledged (s : State) (collection : Nat) : Bool :=
  s.fields.all (fun f => f.status != .collecting || f.collection != collection || !s.furrows.any (fun u => u.field == f.id) || !s.unsettled f.id)

/-- R404 to R412: once every unit of its collection has acknowledged, a field's image is written and it leaves its core. -/
def execPreemptCollectComplete (field : Nat) (s : State) : Out :=
  let mine := s.furrows.filter (fun f => f.field == field)
  .next (match s.field? field with
    | none => s
    | some fl =>
      if fl.status ≠ .collecting ∨ mine.isEmpty ∨ !s.acknowledged fl.collection then s
      else
        let s1 := s.settleFurrows fl.core (mine.map Furrow.slot)
        let now := s1.furrows.filter (fun f => f.field == field)
        let saved := now.map Furrow.atRest
        let fl1 : Field := { fl with status := .saved, placedAt := 0, saved := saved, area := fl.areaBytes }
        let s2 : State := { s1.onField field (fun _ => fl1) with
          furrows := s1.furrows.filter (fun f => f.field != field),
          commands := s1.commands.map (fun (c : Command) => if c.field == field then rewind now c else c) }
        let s3 := s2.onCore fl.core (fun c => { c with reserve := c.reserve.filter (fun r => !(now.any (fun f => f.slot == r.1))) })
        let s4 := (List.range 4).foldl (fun s q => (s.purgeReuse fl.core q).handout fl.core q) s3
        (s4.writeImage fl1 saved).storeCounters fl.ctx fl.core)

end Sys2Proof.Machine
end

