-- ==== Sys2Proof/Machine/Coherence.lean ====
section
/-! DEFINITION. The events of token coherence: messages at holders and homes (R371 to R382), recovery (R383 to R386), the ordered mode
(R388 to R390), and hosts at the CXL agent (R393, R394). -/
namespace Sys2Proof.Machine

/-! ### Delivery (R375, R376) -/

/-- A message with a reserved TYPE or field value discarded and counted (R375). -/
def State.discardMsg (s : State) (n dst : Nat) : State :=
  ({ s with net := dropNth s.net n } : State).onAgentErrs dst (fun e => { e with dropped := e.dropped + 1 })

/-- Message n of a type where it may arrive now: within 1 µs of its sending, and for other types than RD and WR after every earlier one for the
sector between the same agents. -/
def State.arriving (s : State) (n typ : Nat) : Option (Message × State) :=
  match nth? s.net n with
  | none => none
  | some m =>
    let behind := (s.net.take n).any (fun x => decide (2 ≤ x.typ) && x.src == m.src && x.dst == m.dst && x.sector == m.sector)
    if m.typ = typ ∧ s.cycles ≤ m.sentAt + 4000 ∧ (typ < 2 ∨ !behind) then some (m, { s with net := dropNth s.net n }) else none

/-- A message's arrival with a handler; nothing where it may not arrive. -/
def arrival (n typ : Nat) (s : State) (k : State → Message → State) : Out :=
  .next (match s.arriving n typ with
    | none => s
    | some (m, s1) => if reservedHeader m.header then s.discardMsg n m.dst else k s1 m)

/-! ### Transient requests (R378, R382, R389) -/

/-- Whether a holder's own request goes before an arriving one in ordered mode: the arriving one is not older (R389). -/
def State.queues (s : State) (h : Holder) (m : Message) : Bool :=
  s.cohMode && h.bound.isNone && h.req.any (fun r => !olderReq m.age m.src r.age h.agent)

/-- A request met by a holder: queued behind a request of its own in ordered mode (R389), else answered. -/
def State.meet (s : State) (m : Message) (write : Bool) : State :=
  if s.queues ((s.sector m.sector).holder m.dst) m then
    s.onHolder m.sector m.dst (fun h => { h with forwards := h.forwards.filter (fun q => q.1 != m.src) ++ [(m.src, write, m.age)] })
  else s.answer m.sector m.dst m.src write

/-- A request at a holder or home: counted at the home (R366), and held there in recovery (R379). -/
def State.requestAt (s : State) (m : Message) (write : Bool) : State :=
  let home := m.dst == s.homeAgent m.sector
  let s1 := if home && decide (m.src < 6) then s.noteRequest m.sector m.src else s
  let x := s1.sector m.sector
  if home && x.recovery.isSome then s1.setSector { x with heldMsgs := x.heldMsgs ++ [m] } else s1.meet m write

/-- R378: a read request arrives. -/
def execRd (n : Nat) (s : State) : Out := arrival n 0 s (fun s m => s.requestAt m false)

/-- R378: a write request arrives. -/
def execWr (n : Nat) (s : State) : Out := arrival n 1 s (fun s m => s.requestAt m true)

/-! ### Persistent requests (R309, R310, R381, R382) -/

/-- Whether an access of an agent, a read or a write, waits for tokens of a sector: a store, a load or an atomic, an instruction or an address or weir
wait that is to read again, a command, a walk, or what a home or an outer agent does for the base die, a host or another package. -/
def State.wants (s : State) (a pa0 : Nat) (write : Bool) : Bool :=
  let pa := sectorOf pa0
  s.furrows.any (fun f => dieAgent f.core == a &&
    ((write && f.posted.any (fun p => p.writes.any (fun w => (sectorsOf w.pa w.bytes.length).contains pa)))
      || f.groups.any (fun g => match g.wait with
        | some (.access w _ todo _ _) => w == write && todo.any (fun p => p.secs.contains pa)
        | some (.tokens _ secs w) => w == write && secs.contains pa
        | some (.address l woken _) => !write && woken && l.contains (.sector pa)
        | _ => false)))
  || s.commands.any (fun c => dieAgent c.core == a && (c.need ++ (c.retry.map Prod.snd).flatten).contains (pa, write))
  || s.outer.any (fun o => o.agent == a && sectorOf o.pa == pa && o.reads != write)
  || (!write && ((a == s.homeAgent pa && (s.deferred.any (fun d => d.2.contains pa) || s.records.any (fun r => (s.recordFoot r.1 r.2.2.1).contains pa)))
    || (decide (a < 6) && (s.die a).walks.any (fun w => w.on.isSome && (match s.ctx? w.ctx with
        | some c => (s.walkReads c w.va).contains pa
        | none => false)))))

/-- A satisfied request that no access waits for any more is over (R378, R310). -/
def State.settleRequest (s : State) (a pa : Nat) : State :=
  let h := (s.sector pa).holder a
  let met := fun (w : Bool) => (if w then h.canWrite else h.canRead) && !s.wants a pa w
  if h.req.any (fun r => met r.write) || (h.preq.any met && h.bound == some a) then s.accessDone a pa true
  else s

/-- R310: a persistent request arrives at the home; one that comes during a recovery is held (R385). -/
def execPreq (n : Nat) (s : State) : Out :=
  arrival n 3 s (fun s m =>
    let x := s.sector m.sector
    if x.recovery.isSome then s.setSector { x with heldMsgs := x.heldMsgs ++ [m] }
    else match (x.holder m.src).preq with
    | none => s
    | some w => s.addPending m.sector m.src w)

/-- R378, R382: an activation arrives: a holder it binds sends its tokens to the requester, the requester itself gathers. -/
def execPact (n : Nat) (s : State) : Out :=
  arrival n 4 s (fun s m =>
    let s1 := s.onHolder m.sector m.dst (fun h => { h with bound := some m.tag })
    if m.tag = m.dst then s1.settleRequest m.dst m.sector else s1.forward m.sector m.dst m.tag)

/-- R310: a deactivation arrives at the home or at a holder. -/
def execPdeact (n : Nat) (s : State) : Out :=
  arrival n 5 s (fun s m =>
    if m.dst = s.homeAgent m.sector then (s.deactivate m.sector m.src).settleBase
    else s.onHolder m.sector m.dst (fun h => { h with bound := none }))

/-! ### Hosts (R393, R394) -/

/-- A snoop that has all 8 tokens: the line shared or gone, with the data that the host's line then holds. -/
def State.endSnoop (s : State) (pa : Nat) (op : HostOp) : State :=
  let x := s.sector pa
  let s1 := (s.setSector { x with host := if op.kind = 1 then .nh else if x.host = .nh then .nh else .sh,
                                  hostOps := x.hostOps.filter (fun o => o != op), homeCopy := none }).onHolder pa 14 (fun h => { h with dirty := false, preq := none })
  match op.data with
  | some bs => s1.writeBytes (sectorOf pa) (bs.take 64)
  | none => s1

/-- The snoops of a line end once the CXL agent holds every token; its recall then deactivates. -/
def State.settleSnoop (s : State) (pa : Nat) : State :=
  let x := s.sector pa
  if !(x.holder 14).canWrite then s
  else
    let ops := x.hostOps.filter (fun o => decide (o.kind ≤ 1))
    if ops.isEmpty then s
    else
      let s1 := ops.foldl (fun s o => s.endSnoop pa o) s
      (s1.setSector { s1.sector pa with pending := (s1.sector pa).pending.filter (fun p => p.1 != 14) }).deactivate pa 14

/-- A host's snoop (R393): it recalls all tokens ahead of every holder request. -/
def State.snoop (s : State) (sector kind : Nat) (data : Option (List Byte)) : State :=
  let pa := sectorOf sector
  match s.place pa with
  | .host _ =>
    let s1 := s.startHostOp pa { kind := kind, data := data }
    if ((s1.sector pa).holder 14).canWrite then s1.settleSnoop pa
    else (s1.onHolder pa 14 (fun h => { h with preq := some true })).addPending pa 14 true
  | _ => s

/-- R393: SnpData leaves the line shared. -/
def execSnpdata (sector : Nat) (s : State) : Out := .next (s.snoop sector 0 none)

/-- R393: SnpInv leaves the package nothing of the line; `data` is what the host then writes to it. -/
def execSnpinv (sector : Nat) (data : Option (List Byte)) (s : State) : Out := .next (s.snoop sector 1 data)

/-- R393: SnpCur takes the owner's data without recalling any token: no state of the package changes. -/
def execSnpcur (_ : Nat) (s : State) : Out := .next s

/-- R393: the host grants what the CXL agent asked for, and the waiting request is answered; after an eviction the package holds nothing of the
line. -/
def execCxlCacheResponse (sector : Nat) (s : State) : Out :=
  let pa := sectorOf sector
  let x := s.sector pa
  .next (match x.hostOps.find? (fun o => decide (4 ≤ o.kind)) with
    | none => s
    | some o =>
      let host := if o.kind = 5 then .ex else if 6 ≤ o.kind then .nh else if x.host = .nh then .sh else x.host
      let s1 := s.setSector { x with host := host, hostOps := x.hostOps.filter (fun p => p != o), homeCopy := if o.kind = 7 then none else x.homeCopy }
      if 6 ≤ o.kind then s1
      else match (x.holder 14).bound with
      | some r => s1.forward pa 14 r
      | none => s1.answer pa 14 o.requester o.write)

/-- R394: the hosts' copies of a line are gone, and the CXL agent sends its tokens: all of them to a writer, to the requester of an activation that
binds it (R382), or to the home; what a read needs to a reader; none for an access of its own. -/
def execBackInvalidateResponse (sector : Nat) (s : State) : Out :=
  let pa := sectorOf sector
  let x := s.sector pa
  .next (match x.hostOps.find? (fun o => o.kind == 3) with
    | none => s
    | some o =>
      let s1 := s.setSector { x with hosts := [], hostOps := x.hostOps.filter (fun p => p != o) }
      match (x.holder 14).bound with
      | some r => s1.forward pa 14 r
      | none =>
        if o.requester = 14 then s1.settleBase
        else if o.write then s1.forward pa 14 o.requester
        else s1.answer pa 14 o.requester false)

/-! ### Tokens (R378, R379, R386) -/

/-- Tokens accepted by a holder (R378, R380). -/
def Holder.accept (h : Holder) (m : Message) : Holder :=
  { h with n := h.n + m.count, own := h.own || m.own, valid := h.valid || m.data || m.own, dirty := h.dirty || m.dirty, serial := m.serial,
           pred := setInsert h.pred m.src }

/-- Whether a holder discards tokens of another serial (R386). -/
def Holder.discards (h : Holder) (m : Message) : Bool := (h.n != 0 || h.recordUntil.isSome || h.recovering) && m.serial != h.serial

/-- What waits for tokens at a home: snoops and accesses of the base die. -/
def State.settleHome (s : State) (a pa : Nat) : State := ((s.settleSnoop pa).settleBase).settleRequest a pa

/-- Tokens at their home (R373, R379, R384). -/
def State.tokAtHome (s : State) (m : Message) : State :=
  let x := s.sector m.sector
  match x.recovery with
  | some (t, got, own) =>
    if (m.serial + 1) % 65536 = x.serial then
      s.setSector { x with recovery := some (t, got + m.count, own || m.own), current := x.current || m.own }
    else s
  | none =>
    if m.serial ≠ x.serial then s
    else
      let s1 := (s.setSector { x with current := x.current || m.own }).onHolder m.sector m.dst (fun h => { h.accept m with dirty := false })
      match (x.holder m.dst).bound with
      | some r => if r = m.dst then s1.settleHome m.dst m.sector else s1.forward m.sector m.dst r
      | none => s1.settleHome m.dst m.sector

/-- The L1s that prefetches were to fill, filled once a token is held (R258). -/
def State.fillAsked (s : State) (a pa : Nat) : State :=
  let h := (s.sector pa).holder a
  if h.fills.isEmpty ∨ !h.canRead then s
  else h.fills.foldl (fun s c => s.afterLoad c true [sectorOf pa]) (s.onHolder pa a (fun h => { h with fills := [] }))

/-- What waits for tokens at a holder is performed (R378): posted stores and accesses from outside at once; a load or an atomic by the next step,
before any other event (log 3). Waits on the sector are woken. -/
def State.settleHolder (s : State) (a pa : Nat) : State :=
  let s1 := (s.furrows.filter (fun f => dieAgent f.core == a && !f.posted.isEmpty)).foldl (fun s f => s.performPosted f.core f.slot) s
  (((s1.fillAsked a pa).wake (fun w => w == Watch.sector pa)).settleBase).settleRequest a pa

/-- Tokens at a holder: passed on under an activation, else what waits for them is performed. A die's store that is full makes room first (R23). -/
def State.tokAtHolder (s : State) (m : Message) : State :=
  let h := (s.sector m.sector).holder m.dst
  if h.discards m then s
  else
    let s0 := if h.n = 0 ∧ m.dst < 6 then s.makeRoom m.dst m.sector else s
    let s1 := s0.onHolder m.sector m.dst (fun h => h.accept m)
    match h.bound with
    | some r => if r = m.dst then s1.settleHolder m.dst m.sector else s1.forward m.sector m.dst r
    | none => s1.settleHolder m.dst m.sector

/-- R378, R379: tokens arrive. -/
def execTok (n : Nat) (s : State) : Out :=
  arrival n 2 s (fun s m => if m.dst = s.homeAgent m.sector then s.tokAtHome m else s.tokAtHolder m)

/-! ### Recovery (R383 to R386) -/

/-- A change of the error counters of a home's die, the base die for LPDDR6 and hosts (R434). -/
def State.onHomeErrs (s : State) (pa : Nat) (k : ErrCounters → ErrCounters) : State := s.onAgentErrs (s.homeAgent pa) k

/-- A recovery starts at the home (R384). Requests pending there start again as first attempts (R385), recalls aside. -/
def State.startRecovery (s : State) (pa0 : Nat) : State :=
  let pa := sectorOf pa0
  let x := s.sector pa
  let home := s.homeAgent pa
  let h := x.holder home
  if x.recovery.isSome then s
  else
    let new := (x.serial + 1) % 65536
    let x1 := { x with serial := new, recovery := some (s.cycles, h.n, h.own), pending := x.pending.filter (fun p => p.1 == 14),
                       barred := x.barred.filter (fun b => b.2.contains 14) }
    let s1 := (s.setSector x1).onHolder pa home (fun h => { h with n := 0, own := false, valid := false, dirty := false, serial := new })
    (s1.onHomeErrs pa (fun e => { e with recoveries := e.recoveries + 1 })).sendTo (s.everyAgent pa)
      { typ := 7, src := home, dst := 0, sector := pa, serial := new }

/-- R383: a report of lost tokens arrives at the home. -/
def execLost (n : Nat) (s : State) : Out := arrival n 6 s (fun s m => s.startRecovery m.sector)

/-- R384, R385: the start of a recovery arrives at a holder: every token it has goes home under the old serial; the CXL agent has its hosts give up
their copies (R394). -/
def execRecover (n : Nat) (s : State) : Out :=
  arrival n 7 s (fun s m =>
    let s1 := if m.dst = 14 ∧ !(s.sector m.sector).hosts.isEmpty then s.startHostOp m.sector { kind := 3, requester := 14, write := true } else s
    (s1.giveAll m.sector m.dst (s.homeAgent m.sector)).onHolder m.sector m.dst (fun h =>
      { h with serial := m.serial, recovering := true, recordUntil := some (s.cycles + 16000) }))

/-- A holder's suspended request starts again as a first attempt, a mode drain notwithstanding, unless it is the active persistent one (R385, R390). -/
def State.restart (s : State) (pa a : Nat) : State :=
  let x := s.sector pa
  let h := x.holder a
  if x.active.any (fun p => p.1 == a) ∨ a = 14 ∧ s.homeAgent pa = 14 then s
  else
    let s1 := s.onHolder pa a (fun h => { h with req := none, preq := none })
    match h.req with
    | some r => s1.firstAttempt a pa r.write (48 * a + r.core)
    | none => s1

/-- R385: the end of a recovery arrives at a holder. -/
def execReissue (n : Nat) (s : State) : Out :=
  arrival n 8 s (fun s m =>
    let h := (s.sector m.sector).holder m.dst
    if h.recovering ∧ h.serial = m.serial then ((s.onHolder m.sector m.dst (fun h => { h with recovering := false })).restart m.sector m.dst).settleBase else s)

/-- A message that the home has held in a recovery, as though it arrived now (R379). The persistent request of a holder that has suspended it starts
again there as a first attempt (R385). -/
def State.answerHeld (s : State) (m : Message) : State :=
  let h := (s.sector m.sector).holder m.src
  if m.typ = 3 then (if h.recovering then s else match h.preq with
    | some w => s.addPending m.sector m.src w
    | none => s)
  else s.meet m (m.typ == 1)

/-- The home after its recovery window (R384): all 8 tokens, the data poisoned where neither the owner nor the memory copy was left. The active
persistent request resumes, then the requests held. -/
def State.endRecovery (s : State) (pa got : Nat) (own : Bool) : State :=
  let x := s.sector pa
  let home := s.homeAgent pa
  let lost := !own && !x.current
  let s0 := if lost then s.poisonSector pa else s
  let s1 := s0.onHomeErrs pa (fun e =>
    { e with recreated := e.recreated + (8 - got), poisoned := e.poisoned + (if lost then 1 else 0) })
  let s2 := s1.setSector { x with recovery := none, current := true, heldMsgs := [], active := x.active.map (fun p => (p.1, p.2.1, s.cycles)) }
  let s3 := (s2.onHolder pa home (fun h => { h with n := 8, own := true, valid := true, dirty := false })).sendTo (s.everyAgent pa)
    { typ := 8, src := home, dst := 0, sector := x.pa, serial := x.serial }
  let s4 := match x.active with
    | some p => s3.forward pa home p.1
    | none => s3.activateNext pa
  ((x.heldMsgs.foldl State.answerHeld s4).restart pa home).settleHome home pa

/-- R384: the window of 2 µs ends. -/
def execRecoveryWindowEnd (sector : Nat) (s : State) : Out :=
  .next (match (s.sector sector).recovery with
    | none => s
    | some (t, got, own) => if t + 8000 ≤ s.cycles then s.endRecovery (sectorOf sector) got own else s)

/-- R386: a holder's record of a serial expires 4 µs after its receipt. -/
def execRecoverRecordExpiry (agent sector : Nat) (s : State) : Out :=
  .next (if ((s.sector sector).holder agent).recordUntil.any (fun t => decide (t ≤ s.cycles)) then
      s.onHolder sector agent (fun h => { h with recordUntil := none })
    else s)

/-! ### Timeouts (R309, R380, R383, R389) -/

/-- Whether a request sent at a time has timed out: at the first tick boundary at least 250 ns after it (R380). -/
def timedOut (sentAt now : Nat) : Bool := decide (ceilDiv (sentAt + 1000) 400 * 400 ≤ now)

/-- A request resent as a broadcast (R309, R389). -/
def State.broadcast (s : State) (a pa : Nat) (r : TransReq) : State :=
  (s.onHolder pa a (fun h => { h with req := some { r with attempt := 1, sentAt := s.cycles } })).sendTo (s.everyAgent pa)
    { typ := if r.write then 1 else 0, src := a, dst := 0, sector := sectorOf pa, att := 1, core := r.core % 48, tag := r.tag, age := if s.cohMode then r.age else 0 }

/-- Whether a request of an agent has timed out with something to do about it: no timeout runs in a recovery, once it has what it asked for, or after
its persistent request (R309, R380, R385). -/
def State.overdue (s : State) (a pa : Nat) : Bool :=
  let x := s.sector pa
  let h := x.holder a
  !h.recovering && x.recovery.isNone && h.preq.isNone && h.req.any (fun r =>
    timedOut r.sentAt s.cycles && !(if r.write then h.canWrite else h.canRead)
      && (r.attempt == 0 || s.cohMode || !x.barred.any (fun b => b.1 == a)))

/-- R309, R380, R389: a request times out: a broadcast, then in normal mode a persistent request. -/
def execTransientTimeout (agent sector : Nat) (s : State) : Out :=
  let pa := sectorOf sector
  .next (match ((s.sector pa).holder agent).req with
    | none => s
    | some r =>
      if !s.overdue agent pa then s
      else if r.attempt = 0 ∨ s.cohMode then s.broadcast agent pa r
      else
        (s.onHolder pa agent (fun h => { h with preq := some r.write, req := some { r with attempt := 2 } })).send
          { typ := 3, src := agent, dst := s.homeAgent pa, sector := pa, att := 2, core := r.core % 48, tag := r.tag })

/-- R383: an active persistent request has not deactivated within 4 µs; one that is satisfied and that no access wants any more deactivates
(log 37). -/
def execPersistentTimeout (sector : Nat) (s : State) : Out :=
  .next (match (s.sector sector).active with
    | none => s
    | some p =>
      let s1 := s.settleRequest p.1 sector
      if decide (p.2.2 + 16000 ≤ s.cycles) && (s1.sector sector).active == some p && s1.net.length == s.net.length then s.startRecovery sector
      else s1)

/-- Whether an ordered-mode request of an age has been outstanding for 8 ms: 250,000 units of 32 ns (R388, R389). -/
def agedOut (age now : Nat) : Bool := decide (250000 ≤ (now / 128 % 2 ^ 20 + 2 ^ 20 - age % 2 ^ 20) % 2 ^ 20)

/-- R383, R389: an ordered-mode request has been outstanding for 8 ms. -/
def execOrderedTimeout (agent sector : Nat) (s : State) : Out :=
  .next (if s.cohMode && (((s.sector sector).holder agent).req).any (fun r => agedOut r.age s.cycles) then s.startRecovery sector else s)

/-- R375, R376: a message that has not been delivered within 1 µs is dropped by its link; one with a reserved TYPE or field value is discarded. -/
def execMessageDrop (n : Nat) (s : State) : Out :=
  .next (match nth? s.net n with
    | none => s
    | some m =>
      if reservedHeader m.header then s.discardMsg n m.dst
      else if m.sentAt + 4000 ≤ s.cycles then { s with net := dropNth s.net n } else s)

/-! ### Evictions and errors (R378, R383, R391) -/

/-- R378, R391, R393, R394: a holder evicts a sector, its tokens going home, at the CXL agent once its hosts have given up their copies; a die drops a
P copy; the CXL agent that has every token of a host's line gives the line back with CleanEvict or DirtyEvict. -/
def execHolderEvict (agent sector : Nat) (s : State) : Out :=
  let pa := sectorOf sector
  let x := s.sector pa
  let h := x.holder agent
  let home := s.homeAgent pa
  .next (if s.isPeer pa then (if agent < 6 then s.dropPeer agent [pa] else s)
    else if h.recovering ∨ (6 < agent ∧ agent ≠ 14) then s
    else if agent = home then (if agent = 14 ∧ h.canWrite ∧ x.host ≠ .nh then s.startHostOp pa { kind := if x.host = .ex then 7 else 6, requester := 14 } else s)
    else if agent = 14 ∧ !x.hosts.isEmpty then s.startHostOp pa { kind := 3, requester := home, write := true }
    else s.giveAll pa agent home)

/-- A holder's tokens and data for a sector destroyed: its L1 copies go, and LOST tells the home (R383). -/
def State.loseTokens (s : State) (agent pa : Nat) (unreadable : Bool) : State :=
  let h := (s.sector pa).holder agent
  let s1 := (s.agentLost agent pa true).onHolder pa agent (fun h => { h with n := 0, own := false, valid := false, dirty := false })
  if agent = s.homeAgent pa then s1.startRecovery pa
  else s1.send { typ := 6, src := agent, dst := s.homeAgent pa, sector := pa, serial := h.serial, count := h.n, own := h.own,
                 dirty := h.own && (h.dirty || unreadable) }

/-- R383: an uncorrectable error in a holder's token state. -/
def execTokenStateError (agent sector : Nat) (unreadable : Bool) (s : State) : Out :=
  let pa := sectorOf sector
  .next (if ((s.sector pa).holder agent).n = 0 ∨ s.isPeer pa then s else s.loseTokens agent pa unreadable)

/-! ### The mode (R388, R390) -/

/-- R390: the ditchriders write `COH_MODE`: a change of mode drains. -/
def execCohModeWrite (mode : Bool) (s : State) : Out :=
  .next (if s.cohNext.isSome ∨ s.cohMode = mode then s else { s with cohNext := some mode })

/-- R390, R443: with no request outstanding the new mode applies; at bring-up the package is then ready. -/
def execCohModeDrainEnd (s : State) : Out :=
  .next (match s.cohNext with
    | none => s
    | some m => if s.anyRequest then s
      else ({ s with cohMode := m, cohNext := none, ready := s.ready || s.firmware.isSome } : State).settleBase)

end Sys2Proof.Machine
end

