-- ==== Sys2Proof/Machine/EngineStart.lean ====
section
/-! DEFINITION. Starting engine commands: the start checks in their order (R446) with the rules of each engine (R262, R286 to R298), and the
start of MXE, TXE and GXE commands (R268). -/
namespace Sys2Proof.Machine

/-! ### Checks of one entry (R285, R286) -/

/-- What makes an entry bad whatever the command asks of it. -/
def Tensor.bad (t : Tensor) : Bool :=
  let contiguous := if t.layout = 0 then t.dim0 else t.dim1
  !t.valid || t.reserved || t.loc == 3 || decide (2 ≤ t.layout) || t.ssrc == 3
    || (if t.ty == .e2m1s then t.ssrc == 0 || t.bdim != t.layout || contiguous % 32 != 0 else t.ssrc != 0)
    || (t.loc == 2 && (t.layout != 1 || t.dim0 != 64 || t.stride != 0))

/-- A rectangle of elements of an entry: first row and column, rows and columns. -/
structure Region where
  r : Nat
  c : Nat
  rows : Nat
  cols : Nat
  deriving DecidableEq, Repr

/-- Values of an affine map at the corners of a region: the smallest and the largest. -/
def Region.span (g : Region) (f : Nat → Nat → Int) : Int × Int :=
  let a := f g.r g.c
  let xs := [f (g.r + g.rows - 1) g.c, f g.r (g.c + g.cols - 1), f (g.r + g.rows - 1) (g.c + g.cols - 1)]
  (xs.foldl min a, xs.foldl max a)

/-- Whether bytes at the offsets of a region lie below a size. -/
def spanFits (x : Int × Int) (n size : Nat) : Bool := decide (0 ≤ x.1) && decide (x.2 + n ≤ size)

/-- Whether a region lies outside an entry's dimensions or, for the tile store and the B-slice, outside the field's allocation (R286). -/
def Tensor.outside (t : Tensor) (fl : Field) (g : Region) : Bool :=
  decide (t.dim1 < g.r + g.rows) || decide (t.dim0 < g.c + g.cols)
    || (t.loc == 1 && !spanFits (g.span (fun r c => (t.base : Int) + t.offset r c)) t.size fl.kernel.tiles)
    || (t.loc == 2 && !spanFits (g.span (fun r c => (t.base : Int) + t.offset r c)) t.size fl.kernel.bslice)
    || (t.ssrc == 1 && t.loc != 0 && !spanFits (g.span t.metaOffset) 2 fl.kernel.tiles)

/-- How a region of addresses stands with the windows: fine, BADLOC, or in an absent peer. -/
inductive Where
  | fine
  | badLoc
  | absent (mask : Nat)
  deriving DecidableEq, Repr

/-- Addresses from lo to hi + n - 1 checked against the window of a base (R115, R132), a peer's in the order of R116; the peer window only where
the class reaches it. -/
def State.windowOf (s : State) (fl : Field) (base : Nat) (x : Int × Int) (n : Nat) (peer : Bool) : Where :=
  if isGlobal base then (if decide (0 ≤ x.1) && decide (x.2 + n ≤ (ownBase : Nat)) then .fine else .badLoc)
  else if inOwn base then (if decide ((ownBase : Int) ≤ x.1) && spanFits (x.1 - ownBase, x.2 - ownBase) n fl.sp.size then .fine else .badLoc)
  else if inPeer base && peer then
    let m := bitsOf base 24 8
    let origin : Int := (peerBase + m * 2 ^ 24 : Nat)
    if !spanFits (x.1 - origin, x.2 - origin) 1 0x80000 then .badLoc
    else match s.memberField fl m with
    | none => .absent (2 ^ m % 16)
    | some p => if spanFits (x.1 - origin, x.2 - origin) n p.sp.size then .fine else .badLoc
  else .badLoc

/-- The worse of two findings. -/
def Where.and : Where → Where → Where
  | .badLoc, _ => .badLoc
  | _, .badLoc => .badLoc
  | .absent m, .absent n => .absent (m ||| n)
  | .absent m, _ => .absent m
  | .fine, w => w

/-- Where the region of a LOC 0 entry lies, its block metadata with it. -/
def State.entryWindow (s : State) (fl : Field) (t : Tensor) (g : Region) (peer : Bool) : Where :=
  let data := s.windowOf fl t.base (g.span (fun r c => (t.base : Int) + t.offset r c)) t.size peer
  if t.ssrc = 1 then data.and (s.windowOf fl t.sbase (g.span t.metaOffset) 2 peer) else data

/-- Whether a weir word fails its start check (R278, R282): window, 32-byte alignment, scratchpad bounds. -/
def State.weirBad (s : State) (fl : Field) (va : Nat) : Bool :=
  va != 0 && (va % 32 != 0 || s.windowOf fl va ((va : Int), (va : Int)) 32 true != .fine)

/-- The first finding of a list of checks: a condition with its code and detail. -/
def firstBad (l : List (Bool × Nat × Nat)) : Option (Nat × Nat) := (l.find? Prod.fst).map Prod.snd

/-- The lowest word at fault among checks of words, as BADCMD. -/
def badWord (l : List (Bool × Nat)) : Option (Nat × Nat) :=
  ((l.filter Prod.fst).map Prod.snd).foldl (fun (o : Option (Nat × Nat)) n => match o with
    | some (_, m) => some (10, min m n)
    | none => some (10, n)) none

/-- Entry k of a command, with its identifier. -/
def Command.entryAt (c : Command) (k : Nat) : Nat × Tensor :=
  match c.entries[k]? with
  | some e => (e.1, tensorOf e.2)
  | none => (0, tensorOf (Vector.replicate 7 0))

/-- Word i of a command. -/
def Command.word (c : Command) (i : Nat) : Nat := (c.words[Fin.ofNat 8 i]).toNat

/-- OPC of a command. -/
def Command.opc (c : Command) : Nat := bitsOf (c.word 0) 56 8

/-! ### MXE commands (R286 to R289) -/

/-- M, K, AK0, BK0 and ZC. -/
def Command.mm (c : Command) : Nat := bitsOf (c.word 1) 32 32
def Command.kk (c : Command) : Nat := bitsOf (c.word 1) 0 32
def Command.ak0 (c : Command) : Nat := bitsOf (c.word 2) 32 32
def Command.bk0 (c : Command) : Nat := bitsOf (c.word 2) 0 32
def Command.zc (c : Command) : Bool := (c.word 0).testBit 37

/-- Formats the MXE takes (R109, R290). -/
def mxeFormat (t : Ty) : Bool :=
  match t with
  | .e2m1s | .e4m3 | .e5m2 | .i8 | .bf16 | .f16 | .f32 | .f64 => true
  | _ => false

/-- Whether A and B may be multiplied (R109). -/
def mxePair (a b : Ty) : Bool := a == b || (a == .e4m3 && b == .e5m2) || (a == .e5m2 && b == .e4m3)

/-- The accumulator format (R109). -/
def mxeAcc (t : Ty) : Ty := if t = .i8 then .i32 else if t = .f64 then .f64 else .f32

/-- Register scales ask for M ≤ 64, K ≤ 128, S a multiple of 4, and the extended block where S names it (R289). -/
def Command.scalesBad (c : Command) (a : Tensor) : Bool :=
  a.ssrc == 2 && (decide (64 < c.mm) || decide (128 < c.kk) || a.sbase % 4 != 0 || (decide (48 ≤ a.sbase) && !c.extHeld))

/-- The start checks of an MXE command (R446). -/
def State.mxeStart (s : State) (c : Command) (fl : Field) : Option (Nat × Nat) :=
  let a := (c.entryAt 0).2
  let b := (c.entryAt 1).2
  let d := (c.entryAt 2).2
  let ablk := a.ty == .e2m1s
  let bblk := b.ty == .e2m1s
  let ra : Region := { r := 0, c := c.ak0, rows := c.mm, cols := c.kk }
  let rb : Region := { r := c.bk0, c := 0, rows := c.kk, cols := 64 }
  let rd : Region := { r := 0, c := 0, rows := c.mm, cols := 64 }
  (badWord [(c.opc != 1 || bitsOf (c.word 0) 0 37 != 0, 0), (decide (a.ssrc < 2) && c.sel != 0, 0),
            (c.mm == 0 || c.kk == 0 || ((ablk || bblk) && c.kk % 32 != 0), 1),
            ((ablk && c.ak0 % 32 != 0) || (bblk && c.bk0 % 32 != 0), 2)]).or
    (firstBad [(a.bad || !mxeFormat a.ty || c.scalesBad a, 9, (c.entryAt 0).1),
               (b.bad || !mxePair a.ty b.ty || b.ssrc == 2, 9, (c.entryAt 1).1),
               (d.bad || d.ty != mxeAcc a.ty || d.layout != 0 || d.dim0 != 64, 9, (c.entryAt 2).1),
               (a.outside fl ra, 5, 0), (b.outside fl rb, 5, 0), (d.outside fl rd, 5, 0),
               (a.loc != 1, 6, 0), (b.loc != 2, 6, 0), (d.loc != 1, 6, 0), (s.weirBad fl c.weir, 6, 0)])

/-! ### TXE commands (R292 to R295) -/

def Command.rows (c : Command) : Nat := bitsOf (c.word 1) 32 32
def Command.cols (c : Command) : Nat := bitsOf (c.word 1) 0 32
def Command.red (c : Command) : Nat := bitsOf (c.word 0) 40 4
def Command.wty (c : Command) : Nat := bitsOf (c.word 0) 36 4
def Command.mmask (c : Command) : Nat := bitsOf (c.word 0) 32 4
def Command.grid (c : Command) : Bool := (c.word 0).testBit 31
/-- The source region. -/
def Command.source (c : Command) : Region := { r := bitsOf (c.word 2) 32 32, c := bitsOf (c.word 2) 0 32, rows := c.rows, cols := c.cols }
/-- The destination region. -/
def Command.dest (c : Command) : Region := { r := bitsOf (c.word 3) 32 32, c := bitsOf (c.word 3) 0 32, rows := c.rows, cols := c.cols }

/-- Whether the contiguous extent, and a region's origin there, break the blocks of an `.e2m1s` entry (R292). -/
def Tensor.extentBad (t : Tensor) (g : Region) : Bool := t.ty == .e2m1s && (if t.layout = 0 then g.cols else g.rows) % 32 != 0
def Tensor.originBad (t : Tensor) (g : Region) : Bool := t.ty == .e2m1s && (if t.layout = 0 then g.c else g.r) % 32 != 0

/-- The bytes by which each rank's destination is moved (R295). -/
def Command.rankShifts (c : Command) : List Int :=
  ((List.range 64).filter (c.word 5).testBit).map (fun (b : Nat) => (b : Int) * sext (c.word 4) 64)

/-- Whether every rank's destination lies in the global window (R295); their block metadata is the destination entry's. -/
def State.ranksReach (s : State) (c : Command) (fl : Field) (d : Tensor) : Bool :=
  c.rankShifts.all (fun x =>
    s.windowOf fl d.base (c.dest.span (fun r k => (d.base : Int) + x + d.offset r k)) d.size false == .fine)

/-- The start checks of a TXE command (R446). -/
def State.txeStart (s : State) (c : Command) (fl : Field) : Option (Nat × Nat) :=
  let a := (c.entryAt 0).2
  let d := (c.entryAt 1).2
  let where_ := ((if a.loc = 0 then s.entryWindow fl a c.source true else .fine) : Where)
  let whereD := ((if d.loc = 0 then s.entryWindow fl d c.dest true else .fine) : Where)
  ((badWord [(c.opc != 1 || bitsOf (c.word 0) 0 31 != 0 || decide (3 < c.red)
              || (if c.red = 0 then c.wty != 0 else c.wty != 9 && c.wty != 10) || (c.grid && c.mmask != 0), 0),
            (c.rows == 0 || c.cols == 0 || a.extentBad c.source || d.extentBad c.dest, 1),
            (a.originBad c.source, 2), (d.originBad c.dest, 3), (!c.grid && c.word 4 != 0, 4), (!c.grid && c.word 5 != 0, 5), (c.word 6 != 0, 6)]).or
    (firstBad [(a.bad || (c.red != 0 && a.ty.code != c.wty), 9, (c.entryAt 0).1),
               (d.bad || (if c.red = 0 then d.ty != a.ty else d.ty.code != c.wty) || (a.ssrc == 1 && d.ssrc == 1 && a.layout != d.layout),
                 9, (c.entryAt 1).1),
               (a.outside fl c.source, 5, 0), (d.outside fl c.dest, 5, 0),
               (a.loc == 2 || where_ == .badLoc, 6, 0), (whereD == .badLoc, 6, 0),
               (s.weirBad fl c.weir, 6, 0),
               (c.mmask != 0 && !(d.loc == 0 && inOwn d.base && (c.weir == 0 || inOwn c.weir)), 6, 0),
               (c.grid && !(d.loc == 0 && isGlobal d.base && s.ranksReach c fl d), 6, 0)])).or
    (match where_.and whereD with
      | .absent m => some (8, m)
      | _ => none)

/-- The receivers of a TXE command (R294, R295): the members of MMASK, the ranks of RMASK, or the destination as addressed. -/
def State.txeReceivers (s : State) (c : Command) (fl : Field) : List Receiver :=
  let due := c.rows * c.cols * (c.entryAt 1).2.ty.width / 8
  let ok := !s.weirBad fl c.weir && (c.mmask == 0 || c.weir == 0 || inOwn c.weir)
  if c.mmask ≠ 0 then
    ((List.range 4).filter c.mmask.testBit).map (fun m =>
      { member := some m, shift := 0, due := due, absent := (s.memberField fl m).isNone, weirOk := ok })
  else if c.grid then
    c.rankShifts.map (fun x => { member := none, shift := BitVec.ofInt 64 x, due := due, weirOk := ok })
  else [{ member := none, shift := 0, due := due, weirOk := ok }]

/-! ### GXE commands (R262, R297) -/

/-- A stream record's fields (R262). -/
structure Stream where
  reserved : Bool
  ind : Bool
  isrc : Nat
  ety : Nat
  count : Nat
  stride : Int
  base : Nat
  deriving DecidableEq, Repr

/-- A record from its 256 bits. -/
def streamOf (x : BitVec 256) : Stream :=
  let n := x.toNat
  { reserved := bitsOf n 172 84 != 0 || bitsOf n 164 4 != 0 || (!n.testBit 171 && bitsOf n 168 3 != 0), ind := n.testBit 171,
    isrc := bitsOf n 168 3, ety := bitsOf n 160 4, count := bitsOf n 128 32, stride := sext (bitsOf n 64 64) 64, base := bitsOf n 0 64 }

/-- N of a STREAM command, its record and its index record. -/
def Command.recordNo (c : Command) : Nat := bitsOf (c.word 0) 53 3
def Command.record (c : Command) : Stream := streamOf (c.records[Fin.ofNat 8 c.recordNo])
def Command.index (c : Command) : Stream := streamOf (c.records[Fin.ofNat 8 c.record.isrc])

/-- What makes a record bad (R262). -/
def Command.recordBad (c : Command) : Bool :=
  let x := c.record
  let i := c.index
  x.reserved || decide (14 ≤ x.ety)
    || (x.ind && (x.isrc == c.recordNo || i.reserved || decide (14 ≤ i.ety) || i.ind || decide (i.count < x.count) || !(Ty.ofCode i.ety).isInt))

/-- The start checks of a GXE command (R446). -/
def State.gxeStart (s : State) (c : Command) (fl : Field) : Option (Nat × Nat) :=
  (badWord [(c.opc != 1 || bitsOf (c.word 0) 0 53 != 0, 0), (c.word 1 != 0, 1), (c.word 2 != 0, 2)]).or
    (firstBad [(c.recordBad, 7, 0), (s.weirBad fl c.weir, 6, 0)])

/-! ### When a command may start (R268) -/

/-- Whether a command's field stands where its engine works on it: on a core, and not being collected (R404), but for one whose last furrow has retired, which
retires with its commands and is not saved (R408). -/
def State.worksOn (s : State) (c : Command) : Bool :=
  match s.field? c.field with
  | some fl => fl.status == .resident || (fl.status == .ending && fl.placedAt != 0)
    || (fl.status == .collecting && !s.furrows.any (fun f => f.field == fl.id))
  | none => false

/-- The element at which a stream ends: its COUNT, or what it had delivered when it ended and is read again for rows that were dropped (R297). -/
def Command.streamEnd (c : Command) : Nat := if c.reported || c.ended.isSome then c.next else c.record.count

/-- Whether a command is no longer in the way of those after it: a completed stream whose rows are all delivered (R297). -/
def Command.passed (c : Command) : Bool := c.reported && decide (c.streamEnd ≤ c.units)

/-- Whether an earlier command of an engine stands before c (R268, R290, R297). -/
def State.blockedBy (s : State) (c : Command) : Bool :=
  s.commands.any (fun d => decide (d.id < c.id) && d.core == c.core && d.engine == c.engine && s.worksOn d && !d.passed
    && (if c.engine = 0 then true
        else if c.engine = 2 then d.field == c.field && d.furrowIx == c.furrowIx && d.recordNo == c.recordNo
        else d.phase == .queued))

/-- A queued command of an engine that may start now. -/
def State.startable (s : State) (id : Nat) (e : Fin 4) : Option (Command × Field) :=
  match s.cmd? id with
  | none => none
  | some c =>
    match s.field? c.field with
    | none => none
    | some fl => if c.engine = e ∧ c.phase = .queued ∧ !c.cancelled ∧ s.worksOn c ∧ !s.blockedBy c then some (c, fl) else none

/-- The command running with its receivers, or ended by a start check. -/
def State.begin (s : State) (c : Command) (rs : List Receiver) (bad : Option (Nat × Nat)) : State :=
  s.onCmd c.id (fun c => { c with receivers := rs, ended := bad, phase := if bad.isSome then .draining else .running })

/-- The one receiver of an MXE, GXE or CXE command. -/
def State.soleReceiver (s : State) (c : Command) (fl : Field) : List Receiver :=
  [{ member := none, shift := 0, due := 0, weirOk := !s.weirBad fl c.weir }]

/-- R268, R287, R446: an MXE command starts. -/
def execMma (cmd : Nat) (s : State) : Out :=
  .next (match s.startable cmd 0 with
    | some (c, fl) => s.begin c (s.soleReceiver c fl) (s.mxeStart c fl)
    | none => s)

/-- R268, R292, R446: a TXE command starts. -/
def execCopy (cmd : Nat) (s : State) : Out :=
  .next (match s.startable cmd 1 with
    | some (c, fl) => s.begin c (s.txeReceivers c fl) (s.txeStart c fl)
    | none => s)

/-- R262, R268, R297: a GXE command starts. -/
def execStream (cmd : Nat) (s : State) : Out :=
  .next (match s.startable cmd 2 with
    | some (c, fl) => s.begin c (s.soleReceiver c fl) (s.gxeStart c fl)
    | none => s)

end Sys2Proof.Machine
end

