-- ==== Sys2Proof/Machine/EngineUnits.lean ====
section
/-! DEFINITION. The units of running commands: K-steps of the MXE (R288 to R291), 4 KiB chunks of the TXE (R293 to R296, R361), rows of the
GXE (R263, R264, R297). -/
namespace Sys2Proof.Machine

/-- A running command of an engine that may perform a unit, with its field. -/
def State.unitOf (s : State) (id : Nat) (e : Fin 4) : Option (Command × Field) :=
  match s.cmd? id with
  | none => none
  | some c =>
    match s.field? c.field with
    | none => none
    | some fl => if c.engine = e ∧ c.phase = .running ∧ !c.cancelled ∧ c.ended.isNone ∧ s.worksOn c then some (c, fl) else none

/-! ### K-steps (R109 to R112, R288, R291) -/

/-- K-steps of an MXE command. -/
def Command.ksteps (c : Command) : Nat := ceilDiv c.kk 64

/-- The run of element (r, c) of a tile-store or B-slice entry. -/
def Tensor.run (t : Tensor) (fl : Field) (r c : Nat) : Piece :=
  if t.loc = 2 then { space := 3, field := fl.id, addr := c * fl.kernel.bslice + ((t.base : Int) + t.offset r c).toNat, len := t.size }
  else { space := 2, field := fl.id, addr := ((t.base : Int) + t.offset r c).toNat, len := t.size }

/-- The run of the metadata of its block. -/
def Tensor.metaRun (t : Tensor) (fl : Field) (r c : Nat) : Piece :=
  { space := 2, field := fl.id, addr := (t.metaOffset r c).toNat, len := 2 }

/-- Metadata of row m and relative block j from the captured registers (R289): spare above scale. -/
def Command.registerMeta (c : Command) (m j : Nat) : Nat :=
  let b := bitsOf c.sel.toNat (2 * j) 2
  let byte := fun k => bitsOf (laneV (c.scales[Fin.ofNat 4 k]) (m % 32)).toNat (8 * b) 8
  byte (2 + m / 32) * 256 + byte (m / 32)

/-- The number at runs of the tile store or the B-slice as the MXE reads it. -/
def State.mxeRead (s : State) (c : Command) (t : Tensor) (r col : Nat) (p : Piece) : Nat := halfNat (t.half r col) (s.runBytes c [p])

/-- An operand element as the MXE decodes it (R95, R288); `regs` is the metadata from registers where the entry takes it there. -/
def State.operand (s : State) (c : Command) (fl : Field) (t : Tensor) (r col regs : Nat) : Num :=
  let x := s.mxeRead c t r col (t.run fl r col)
  if t.ty = .e2m1s then
    let m := if t.ssrc = 2 then regs else leNat (s.runBytes c [t.metaRun fl r col])
    decodeE2m1s x (m / 256) (m % 256)
  else decodeNum t.ty x

/-- An `.i8` operand. -/
def State.operandInt (s : State) (c : Command) (fl : Field) (t : Tensor) (r col : Nat) : Int := intOf t.ty (s.mxeRead c t r col (t.run fl r col))

/-- The runs a K-step reads: A, B, C and their metadata. -/
def Command.kstepRuns (c : Command) (fl : Field) (ks : List Nat) (readC : Bool) : List Piece :=
  let a := (c.entryAt 0).2
  let b := (c.entryAt 1).2
  let d := (c.entryAt 2).2
  let ms := List.range c.mm
  let js := List.range 64
  (ms.map (fun m => (ks.map (fun k => a.run fl m (c.ak0 + k) :: (if a.ssrc = 1 then [a.metaRun fl m (c.ak0 + k)] else []))).flatten)).flatten
    ++ (js.map (fun j => (ks.map (fun k => b.run fl (c.bk0 + k) j :: (if b.ssrc = 1 then [b.metaRun fl (c.bk0 + k) j] else []))).flatten)).flatten
    ++ (if readC then (ms.map (fun m => js.map (fun j => d.run fl m j))).flatten else [])

/-- Element (m, j) of C after a K-step, with its events (R110 to R112). -/
def State.kstepElem (s : State) (c : Command) (fl : Field) (ks : List Nat) (readC : Bool) (m j : Nat) : Nat × Nat :=
  let a := (c.entryAt 0).2
  let b := (c.entryAt 1).2
  let d := (c.entryAt 2).2
  let old := if readC then s.mxeRead c d m j (d.run fl m j) else 0
  if a.ty = .i8 then (mxeInt old (ks.map (fun k => (s.operandInt c fl a m (c.ak0 + k), s.operandInt c fl b (c.bk0 + k) j))), 0)
  else mxeGroups (mxeWidth a.ty) d.ty 5 old
    (ks.map (fun k => (s.operand c fl a m (c.ak0 + k) (c.registerMeta m (k / 32)), s.operand c fl b (c.bk0 + k) j 0)))

/-- R288, R291: the next K-step of 64, element by element (K-steps outside elements, which shows only where C overlaps itself or an operand: DESIGN CHOICE,
log 119): each is read, computed and written before the next. Poison ends the command and leaves C as
it was. -/
def State.kstep (s : State) (c : Command) (fl : Field) : State :=
  let d := (c.entryAt 2).2
  let g := c.units
  let ks := (List.range (min 64 (c.kk - 64 * g))).map (fun k => 64 * g + k)
  let readC := !(c.zc && g == 0)
  let runs := c.kstepRuns fl ks readC
  if s.runPoison runs then s.endCmd c.id 4 g
  else
    let op := s.order + 1
    let cells := ((List.range c.mm).map (fun m => (List.range 64).map (fun j => (m, j)))).flatten
    let r := cells.foldl (fun (x : State × Nat) e =>
      let y := x.1.kstepElem c fl ks readC e.1 e.2
      (x.1.putPiece (c.origin op) c.core (d.run fl e.1 e.2) (leBytes d.size y.1), x.2 ||| y.2)) (s.afterRuns c runs, c.flags)
    ((r.1.fuse op).tickFree).onCmd c.id (fun c => { c with units := g + 1, flags := r.2 })

/-- R291: one K-step of a running MXE command. -/
def execMxeKstep (cmd : Nat) (s : State) : Out :=
  .next (match s.unitOf cmd 0 with
    | some (c, fl) => if c.units < c.ksteps then s.kstep c fl else s
    | none => s)

/-! ### Chunks (R293 to R296, R361) -/

/-- Bits of one element of a tile. -/
def Command.tileBits (c : Command) : Nat := (c.entryAt 1).2.ty.width

/-- Chunks of a TXE command. -/
def Command.chunks (c : Command) : Nat := ceilDiv (c.rows * c.cols * c.tileBits) 32768

/-- Tile elements (row, column) of a chunk, in tile order. -/
def Command.chunkElems (c : Command) (q : Nat) : List (Nat × Nat) :=
  let per := 32768 / c.tileBits
  let n := c.rows * c.cols
  (List.range (min per (n - q * per))).map (fun i => ((q * per + i) / c.cols, (q * per + i) % c.cols))

/-- Bytes of a chunk. -/
def Command.chunkBytes (c : Command) (q : Nat) : Nat := min 4096 (c.rows * c.cols * c.tileBits / 8 - 4096 * q)

/-- Whether block metadata moves with the elements (R292). -/
def Command.movesMeta (c : Command) : Bool := (c.entryAt 0).2.ssrc == 1 && (c.entryAt 1).2.ssrc == 1

/-- The elements of a chunk that stand first of their block in it: one for each block. -/
def Command.blockElems (c : Command) (q : Nat) : List (Nat × Nat) :=
  if !c.movesMeta then []
  else
    let es := c.chunkElems q
    let row0 := (es.headD (0, 0)).1
    if (c.entryAt 0).2.layout = 0 then es.filter (fun e => e.2 % 32 == 0 || e == es.headD (0, 0))
    else es.filter (fun e => e.1 % 32 == 0 || e.1 == row0 || (e.1 == row0 + 1 && decide (e.2 < (es.headD (0, 0)).2)))

/-- The places of a chunk's elements, or of its blocks' metadata, in an entry. -/
def State.chunkPlaces (s : State) (c : Command) (fl : Field) (t : Tensor) (at_ : Region) (shift : Int) (k : AccessKind) (q : Nat) :
    State × Except EStop (List (List Piece) × List (List Piece)) :=
  match placesFrom (fun s (e : Nat × Nat) => s.elemPlace c fl t shift k (at_.r + e.1) (at_.c + e.2)) (c.chunkElems q) s with
  | (s1, .error e) => (s1, .error e)
  | (s1, .ok ps) =>
    match placesFrom (fun s (e : Nat × Nat) => s.metaPlace c fl t k (at_.r + e.1) (at_.c + e.2)) (c.blockElems q) s1 with
    | (s2, .error e) => (s2, .error e)
    | (s2, .ok ms) => (s2, .ok (ps, ms))

/-- The writes of a chunk at one receiver: item i takes the i-th value of the chunk, elements first, then block metadata. -/
def Command.chunkPuts (c : Command) (q : Nat) (ps ms : List (List Piece)) : List Put :=
  let a := (c.entryAt 0).2
  let d := (c.entryAt 1).2
  let es := c.chunkElems q
  ((es.zip ps).mapIdx (fun i x => { item := i, half := a.half (c.source.r + x.1.1) (c.source.c + x.1.2), pieces := x.2,
                                    high := d.half (c.dest.r + x.1.1) (c.dest.c + x.1.2) }))
    ++ ms.mapIdx (fun i ps => { item := es.length + i, pieces := ps })

/-- The writes of a chunk at some receivers; those absent get nothing (R294). Answers with them the receivers present. -/
def State.planDsts (c : Command) (q : Nat) (fl : Field) : List (Nat × Receiver) → State → State × Except EStop (List Put × List Nat)
  | [], s => (s, .ok ([], []))
  | (i, r) :: rs, s =>
    match (if r.absent then none else s.receiverField fl r) with
    | none => State.planDsts c q fl rs s
    | some rf =>
      match s.chunkPlaces c rf (c.entryAt 1).2 c.dest r.shift.toInt (if c.red = 0 then { write := true } else { rmw := true }) q with
      | (s1, .error e) => (s1, .error e)
      | (s1, .ok (ps, ms)) =>
        match State.planDsts c q fl rs s1 with
        | (s2, .error e) => (s2, .error e)
        | (s2, .ok (puts, is)) => (s2, .ok (c.chunkPuts q ps ms ++ puts, i :: is))

/-- A chunk whose source and destination pages have passed every check, in flight (R361). -/
def State.planChunk (s : State) (c : Command) (fl : Field) (q : Nat) : State × Except EStop Flight :=
  match s.chunkPlaces c fl (c.entryAt 0).2 c.source 0 {} q with
  | (s1, .error e) => (s1, .error e)
  | (s1, .ok (ps, ms)) =>
    match State.planDsts c q fl (c.receiverIds.zip c.receivers) s1 with
    | (s2, .error e) => (s2, .error e)
    | (s2, .ok (puts, is)) => (s2, .ok { chunk := q, src := ps ++ ms, got := (ps ++ ms).map (fun _ => none), puts := puts, receivers := is })

/-- RED as a fold. -/
def redFold (n : Nat) : Fold := if n = 2 then .min else if n = 3 then .max else .add

/-- A command's reduction with its type; none for a copy. -/
def Command.reduction (c : Command) : Option (Fold × Ty) := if c.red = 0 then none else some (redFold c.red, (c.entryAt 1).2.ty)

/-- Sources of a chunk read as far as tokens allow, by the units of the whole chunk (R135): what each source holds, once all of it is read; true at
poison. -/
def State.readFlight (c : Command) (f : Flight) (s : State) : State × List (Option (List Byte)) × Bool :=
  if f.got.all Option.isSome then (s, f.got, false)
  else
    let r := s.readTransfer c f.chunk (transferUnits f.src.flatten)
    (r.1, if r.2.2 then f.src.map (hadBytes r.2.1) else f.got, hadBad r.2.1 f.src.flatten)

/-- A flight of a command changed. -/
def State.onFlight (s : State) (id q : Nat) (k : Flight → Flight) : State :=
  s.onCmd id (fun c => { c with flights := mapIf c.flights (fun f => f.chunk == q) k })

/-- A chunk in flight gone from a command, which stops there: poison ends it once the other chunks have landed (R127, R277). -/
def State.poisonFlight (s : State) (id q : Nat) : State :=
  s.onCmd id (fun c =>
    { c with flights := c.flights.filter (fun f => f.chunk != q), had := c.had.filter (fun h => h.key != q),
             stop := c.stop.or (some (q, .ends 4 0)) })

/-- A chunk landed: each receiver's bytes are owed to its weir (R282, R293, R294). -/
def State.landed (s : State) (id : Nat) (f : Flight) : State :=
  s.onCmd id (fun c =>
    { c with flights := c.flights.filter (fun x => x.chunk != f.chunk), had := c.had.filter (fun h => h.key != f.chunk),
             ended := c.ended.map (fun e => if e.1 = 2 then (2, c.units + 1) else e), landed := setInsert c.landed f.chunk, failAt := f.chunk, units := c.units + 1,
             receivers := c.receivers.mapIdx (fun i x =>
               if f.receivers.contains i then { x with owed := if x.weirOk then x.owed + c.chunkBytes f.chunk else 0 } else { x with absent := true }) })

/-- A chunk in flight without the receivers that have retired: they get no bytes and are absent, the others receive in full (R56, R294). -/
def State.stillThere (s : State) (c : Command) (f : Flight) : Flight :=
  match s.field? c.field with
  | none => f
  | some fl =>
    { f with puts := f.puts.filter (fun p => p.pieces.all (fun x => x.space != 1 || (s.field? x.field).isSome)),
             receivers := f.receivers.filter (fun i => (c.receivers[i]?).any (fun r => (s.receiverField fl r).isSome)) }

/-- A chunk in flight goes on: it is read, then written, as far as tokens allow, and lands with its last write. -/
def State.advanceFlight (s : State) (id q : Nat) : State :=
  match s.cmd? id with
  | none => s
  | some c =>
    match c.flights.find? (fun f => f.chunk == q) with
    | none => s
    | some f0 =>
      let f := s.stillThere c f0
      match State.readFlight c f s with
      | (s1, _, true) => s1.poisonFlight id q
      | (s1, got, false) =>
        let s2 := s1.tickFree.onFlight id q (fun _ => { f with got := got })
        if got.any Option.isNone then s2
        else
          let op := s2.order + 1
          match State.performPuts (c.origin op) c.core c.reduction (fun i => leNat (((got[i]?).join).getD [])) f.puts s2 with
          | (s3, _, _, true) => (s3.fuse op).poisonFlight id q
          | (s3, rest, fl, false) =>
            let s4 := (s3.fuse op).onCmd id (fun c => { c with flags := c.flags ||| fl })
            if rest.isEmpty then s4.landed id f else s4.onFlight id q (fun f => { f with puts := rest })

/-- Every chunk in flight goes on; when none is left and every receiver's weir has counted its bytes, what stops the command takes effect (R361). -/
def State.settleFlights (s : State) (id ctx : Nat) : State :=
  match s.cmd? id with
  | none => s
  | some c =>
    let s1 := c.flights.foldl (fun s f => s.advanceFlight id f.chunk) s
    match s1.cmd? id with
    | none => s1
    | some c1 =>
      match c1.stop with
      | some (q, e) =>
        if c1.flights.isEmpty ∧ c1.phase = .running ∧ c1.ended.isNone ∧ !c1.cancelled then
          match s1.flushOwed c1 ctx c1.failAt with
          | (s2, true) => (s2.onCmd id (fun c => { c with stop := none })).stopCmd c1 ctx q e
          | (s2, false) => s2
        else s1
      | none => s1

/-- Chunks issued in ascending order, to the first that fails a check (R361) or whose walks lack tokens. -/
def State.issueChunks (id : Nat) (fl : Field) : Nat → Nat → State → State
  | 0, _, s => s
  | n + 1, q, s =>
    match s.cmd? id with
    | none => s
    | some c =>
      match s.planChunk c fl q with
      | (s1, .error (.ends 0 _)) => s1
      | (s1, .error e) => s1.onCmd id (fun c => { c with stop := some (q, e) })
      | (s1, .ok f) => State.issueChunks id fl n (q + 1) (s1.onCmd id (fun c => { c with flights := c.flights ++ [f], next := q + 1 }))

/-- R293, R296, R361: a chunk lands, those before it having issued first. When one fails its checks, no later chunk issues, those in flight land, and the
command stops there. A contribution still owed comes first. -/
def execTxeChunkLand (cmd chunk : Nat) (s : State) : Out :=
  engineEvent (.txeChunkLand cmd chunk) s (fun s => match (s.cmd? cmd).bind (fun c => (s.field? c.field).map (fun fl => (c, fl))) with
    | none => s
    | some (c, fl) =>
      let run := s.unitOf cmd 1 |>.isSome
      if run && c.receivers.any (fun r => decide (0 < r.owed)) then (s.flushOwed c fl.ctx c.failAt).1
      else if c.flights.any (fun f => f.chunk == chunk) then
        let s1 := s.advanceFlight cmd chunk
        match s1.unitOf cmd 1 with
        | some (c1, _) => if c1.flights.any (fun f => f.chunk == chunk) then s1 else (s1.flushOwed c1 fl.ctx chunk).1
        | none => s1
      else if !run || c.stop.isSome || decide (c.chunks ≤ chunk) || decide (chunk < c.next) then s.settleFlights cmd fl.ctx
      else
        let s1 := (State.issueChunks cmd fl (chunk + 1 - c.next) c.next s).advanceFlight cmd chunk
        match s1.unitOf cmd 1 with
        | some (c1, _) => if c1.stop.isSome then s1.settleFlights cmd fl.ctx
          else if c1.flights.any (fun f => f.chunk == chunk) then s1 else (s1.flushOwed c1 fl.ctx chunk).1
        | none => s1)

/-! ### Rows (R263, R264, R297) -/

/-- Rows an operand queue holds. -/
def queueRoom : Nat := 4

/-- Whether the naturally aligned 8-byte unit of a number is covered whole by accesses: address and length. -/
def coversUnit (l : List (Nat × Nat)) (u : Nat) : Bool := (List.range 8).all (fun b => l.any (fun p => decide (p.1 ≤ 8 * u + b ∧ 8 * u + b < p.1 + p.2)))

/-- The units in which a run at a virtual address is read as part of a transfer that reaches some virtual addresses (R135): a page holds a unit whole. -/
def unitsAt (cover : List (Nat × Nat)) (va : Nat) (p : Piece) : List Piece :=
  ((List.range ((va + p.len - 1) / 8 + 1 - va / 8)).map (fun k =>
    let u := va / 8 + k
    if coversUnit cover u then [{ p with addr := p.addr + 8 * u - va, len := 8 }]
    else ((List.range 8).filter (fun b => decide (va ≤ 8 * u + b ∧ 8 * u + b < va + p.len))).map (fun b => { p with addr := p.addr + 8 * u + b - va, len := 1 }))).flatten

/-- Bytes at an address as the GXE reads them in a row that reaches some addresses (R135). -/
def State.gxeRead (s : State) (c : Command) (fl : Field) (cover : List (Nat × Nat)) (va n : Nat) : State × Except EStop (List Byte) :=
  if inPeer va then (s, .error (.ends 6 0))
  else
    match s.engineAddr c fl {} va n with
    | (s1, .error e) => (s1, .error e)
    | (s1, .ok ps) =>
      let vas := (ps.foldl (fun (x : List Nat × Nat) p => (x.1 ++ [x.2], x.2 + p.len)) ([], va)).1
      let r := s1.readTransfer c c.units ((vas.zip ps).map (fun x => unitsAt cover x.1 x.2)).flatten
      if hadBad r.2.1 ps then (r.1, .error (.ends 4 0))
      else match hadBytes r.2.1 ps with
      | some bs => (r.1, .ok bs)
      | none => (r.1, .error (.ends 0 0))

/-- Address of element j of a record whose addresses its stride gives (R263). -/
def Stream.at_ (x : Stream) (j : Nat) : Nat := wrap ((x.base : Int) + (j : Int) * x.stride) 64

/-- The addresses that a row of a record reaches. -/
def Stream.reaches (x : Stream) (js : List Nat) : List (Nat × Nat) := js.map (fun j => (x.at_ j, (Ty.ofCode x.ety).width / 8))

/-- The elements of a stream's next row. -/
def Command.nextRow (c : Command) : List Nat := (List.range (min 32 (c.streamEnd - c.units))).map (fun i => c.units + i)

/-- Address of element j (R263), with the addresses that its row reaches: those of an indexed stream are read one by one (log 5). -/
def State.gxeAddr (s : State) (c : Command) (fl : Field) (j : Nat) : State × Except EStop (Nat × List (Nat × Nat)) :=
  let x := c.record
  if !x.ind then (s, .ok (x.at_ j, x.reaches (c.nextRow)))
  else
    let i := c.index
    let t := Ty.ofCode i.ety
    match s.gxeRead c fl (i.reaches (c.nextRow)) (i.at_ j) (t.width / 8) with
    | (s1, .error e) => (s1, .error e)
    | (s1, .ok bs) =>
      let va := wrap ((x.base : Int) + intOf t (leNat bs) * x.stride) 64
      (s1, .ok (va, [(va, (Ty.ofCode x.ety).width / 8)]))

/-- Element j as its lane holds it (R238, R263). -/
def State.gxeElem (s : State) (c : Command) (fl : Field) (j : Nat) : State × Except EStop W64 :=
  let t := Ty.ofCode c.record.ety
  match s.gxeAddr c fl j with
  | (s1, .error e) => (s1, .error e)
  | (s1, .ok (va, cover)) =>
    match s1.gxeRead c fl cover va (t.width / 8) with
    | (s2, .error e) => (s2, .error e)
    | (s2, .ok bs) =>
      let x := leNat bs
      (s2, .ok (if t.width = 64 then BitVec.ofNat 64 x else if t.isSigned then BitVec.ofNat 64 (wrap (sext x t.width) 32) else BitVec.ofNat 64 x))

/-- Elements read in order, to the first that stops. -/
def State.gxeElems (c : Command) (fl : Field) : List Nat → State → State × List W64 × Option (Nat × EStop)
  | [], s => (s, [], none)
  | j :: js, s =>
    match s.gxeElem c fl j with
    | (s1, .error e) => (s1, [], some (j, e))
    | (s1, .ok x) => let r := State.gxeElems c fl js s1; (r.1, x :: r.2.1, r.2.2)

/-- What a stream does at an element that stops: tokens that cannot be had now only delay it. -/
def State.stopStream (s : State) (c : Command) (ctx j : Nat) (e : EStop) : State :=
  match e with
  | .ends 0 _ => s
  | .ends 6 _ => s.endCmd c.id 6 j
  | .ends 8 _ => s.endCmd c.id 6 j
  | e => s.stopCmd c ctx j e

/-- The furrow that pushed a command, while it lives. -/
def State.pusher (s : State) (c : Command) : Option Furrow :=
  s.furrows.find? (fun f => f.field == c.field && f.ix == c.furrowIx && !f.groups.isEmpty)

/-- A stream that may deliver a row: a running one, or one that has ended and is read again for rows that were dropped (R297). -/
def State.rowOf (s : State) (id : Nat) : Option (Command × Field) :=
  match s.unitOf id 2 with
  | some x => some x
  | none =>
    match s.cmd? id with
    | none => none
    | some c =>
      match s.field? c.field with
      | none => none
      | some fl => if c.engine = 2 ∧ c.ended.isSome ∧ c.phase = .draining ∧ c.units < c.next ∧ s.worksOn c then some (c, fl) else none

/-- R263, R297: the next row of a running stream enters its queue, when the queue has room; a retired furrow's rows are discarded. The elements read
are kept while one of the row waits for tokens or is suspended, and the stream goes on from that one (R362). -/
def execGxeRowDeliver (cmd : Nat) (s : State) : Out :=
  engineEvent (.gxeRowDeliver cmd) s (fun s => match s.rowOf cmd with
    | none => s
    | some (c, fl) =>
      let n := c.streamEnd
      let q : Fin 8 := Fin.ofNat 8 c.recordNo
      let full : Bool := match s.pusher c with
        | some f => decide (queueRoom ≤ (f.opq[q]).length)
        | none => false
      if n ≤ c.units ∨ full ∨ s.blockedBy c then s
      else
        let first := c.units
        let had := c.row.length
        let js := (List.range (min 32 (n - first) - had)).map (fun i => first + had + i)
        match State.gxeElems c fl js s with
        | (s1, xs, some (j, e)) => (s1.tickFree.onCmd cmd (fun c => { c with row := c.row ++ xs })).stopStream c fl.ctx j e
        | (s1, xs, none) =>
          let all := c.row ++ xs
          let row : OpRow := { first := first, cmd := cmd, wide := (Ty.ofCode c.record.ety).width == 64, vals := tableOf (fun i => all.getD i 0) }
          let s2 := (s1.tickFree.onCmd cmd (fun c => { c with units := first + all.length, row := [] })).endTransfer cmd first
          match s2.pusher c with
          | some f => s2.onFurrow f.core f.slot (fun f => { f with opq := f.opq.set q (f.opq[q] ++ [row]) })
          | none => s2)

end Sys2Proof.Machine
end

