-- ==== Sys2Proof/Machine/Collectives.lean ====
section
/-! DEFINITION. Collective commands: their start checks (R298, R431, R446), the start of a collective (R300, R432), fabric chunks and launch
counters (R301, R302, R361), commits, aborts, timeouts and redos (R301, R433), and the completion of every engine's commands (R282). -/
namespace Sys2Proof.Machine

/-! ### The command and its rank -/

def Command.alg (c : Command) : Nat := bitsOf (c.word 0) 34 2
def Command.gid (c : Command) : Nat := bitsOf (c.word 1) 0 16
def Command.count (c : Command) : Nat := bitsOf (c.word 2) 0 32
def Command.cen (c : Command) : Bool := (c.word 3).testBit 63
def Command.last (c : Command) : Bool := (c.word 3).testBit 62
def Command.peer (c : Command) : Nat := bitsOf (c.word 4) 0 16
/-- ALLREDUCE and REDUCE_SCATTER combine. -/
def Command.reduces (c : Command) : Bool := c.opc == 1 || c.opc == 2

/-- The rank table and timeout of a group of a context (R430). -/
def State.groupOf (s : State) (ctx gid : Nat) : Option (Nat × List RankEntry) :=
  (s.ctx? ctx).bind (fun c => (c.groups.find? (fun g => g.1 == gid)).map Prod.snd)

/-- Whether an entry names a rank of this package. -/
def State.isLocalRank (s : State) (e : RankEntry) : Bool := e.kind == 0 && e.pkg == s.pkg

/-- The entry of a context's rank table that names a field of this package (R431). -/
def State.rankIn (s : State) (ctx gid : Nat) (fl : Field) : Option Nat :=
  match s.groupOf ctx gid with
  | none => none
  | some g => g.2.findIdx? (fun e => s.isLocalRank e && e.ctx == fl.ctx && e.reach == fl.reach && e.fieldIx == fl.fieldIx)

/-- The rank of a command: the entry of its context's table that names its field (R431). -/
def State.rankOf (s : State) (c : Command) (fl : Field) : Option Nat := s.rankIn fl.ctx c.gid fl

/-- Ranks of a command's group. -/
def State.ranksOf (s : State) (c : Command) (fl : Field) : Nat := ((s.groupOf fl.ctx c.gid).map (fun g => g.2.length)).getD 0

/-- Elements of a rank's source entry that its command names. -/
def Command.sourceCount (c : Command) (ranks : Nat) : Nat := if c.opc = 2 then ranks * c.count else c.count
/-- Elements of a destination entry. -/
def Command.destCount (c : Command) (ranks : Nat) : Nat := if c.opc = 3 then ranks * c.count else c.count

/-- Elements 0 to n − 1 of an entry, counted along its rows (R298): its whole rows, and the part of the row that follows. -/
def Tensor.firstElems (t : Tensor) (n : Nat) : List Region :=
  let w := max 1 t.dim0
  [{ r := 0, c := 0, rows := n / w, cols := w }, { r := n / w, c := 0, rows := 1, cols := n % w }].filter
    (fun (g : Region) => g.rows != 0 && g.cols != 0)

/-- Whether an entry has fewer elements than a command names. -/
def Tensor.tooSmall (t : Tensor) (n : Nat) : Bool := decide (t.dim1 * t.dim0 < n)

/-- The start checks of a CXE command (R298, R431, R446). -/
def State.cxeStart (s : State) (c : Command) (fl : Field) : Option (Nat × Nat) :=
  let a := (c.entryAt 0).2
  let d := (c.entryAt 1).2
  let n := s.ranksOf c fl
  let window := fun (t : Tensor) (k : Nat) => t.loc == 0 && (t.firstElems k).all (fun g => s.entryWindow fl t g false == .fine)
  (badWord [(c.opc == 0 || decide (5 < c.opc) || c.alg == 3 || bitsOf (c.word 0) 0 34 != 0
              || (if c.reduces then c.red == 0 || decide (3 < c.red) || (c.wty != 9 && c.wty != 10) else c.red != 0 || c.wty != 0), 0),
            (bitsOf (c.word 1) 16 48 != 0 || (s.rankOf c fl).isNone, 1), (bitsOf (c.word 2) 32 32 != 0 || c.count == 0, 2),
            (bitsOf (c.word 3) 4 58 != 0 || (c.last && !c.cen), 3), (bitsOf (c.word 4) 16 48 != 0, 4), (c.word 5 != 0, 5), (c.word 6 != 0, 6)]).or
    (firstBad [(a.bad || (c.reduces && a.ty.code != c.wty), 9, (c.entryAt 0).1),
               (d.bad || (c.reduces && d.ty.code != c.wty) || d.ty != a.ty, 9, (c.entryAt 1).1),
               (a.tooSmall (c.sourceCount n), 5, 0), (d.tooSmall (c.destCount n), 5, 0),
               (!window a (c.sourceCount n), 6, 0), (!window d (c.destCount n), 6, 0), (s.weirBad fl c.weir, 6, 0)])

/-! ### Joining a collective -/

/-- A new collective of a context's group with all its ranks. -/
def newCollective (id ctx gid ranks : Nat) : Collective :=
  { id := id, ctx := ctx, gid := gid, readyAt := none, started := false, ring := false, slot := none, redone := false, aborted := false,
    ranks := (List.range ranks).map (fun k => { ix := k, cmd := 0, buf := [], arrived := [], committed := false, lastChunk := 0 }) }

/-- The open collective that lacks this field's command, with the rank it lacks. Its ranks are those of its first command's table: a field that this
table names joins it, be its own context's table another, and the comparison at the start then ends every rank (R431; DESIGN CHOICE, log 124). -/
def State.openColl (s : State) (gid : Nat) (fl : Field) : Option (Nat × Nat) :=
  s.colls.findSome? (fun k =>
    if k.gid == gid && !k.started then
      ((s.rankIn k.ctx gid fl).filter (fun rank => (k.ranks[rank]?).any (fun r => r.cmd == 0))).map (fun rank => (k.id, rank))
    else none)

/-- Whether every rank of this package has pushed; the ranks elsewhere are the environment's. -/
def State.allPushed (s : State) (k : Collective) : Bool :=
  match s.groupOf k.ctx k.gid with
  | none => false
  | some g => (g.2.zip k.ranks).all (fun x => !s.isLocalRank x.1 || (s.cmd? x.2.cmd).any (fun c => c.phase == .running))

/-- A command that takes its rank's place; its collective is ready when that was the last of this package's ranks (R300). -/
def State.joinColl (s : State) (c : Command) (fl : Field) (rank : Nat) : State :=
  let r := match s.openColl c.gid fl with
    | some k => (s, k)
    | none => ({ s with nextId := s.nextId + 1, colls := s.colls ++ [newCollective s.nextId fl.ctx c.gid (s.ranksOf c fl)] }, s.nextId, rank)
  let dest := (c.entries[1]?).map Prod.snd
  let s1 := r.1.onColl r.2.1 (fun k => { k with ranks := k.ranks.mapIdx (fun j x => if j = r.2.2 then { x with cmd := c.id, dest := dest } else x) })
  let s2 := s1.onCmd c.id (fun c => { c with coll := r.2.1 })
  if (s2.coll? r.2.1).any s2.allPushed then s2.onColl r.2.1 (fun k => { k with readyAt := some s.cycles }) else s2

/-- A CXE command of an OPC starts: its checks, then its place in its collective. -/
def startCxe (ok : Nat → Bool) (cmd : Nat) (s : State) : Out :=
  .next (match s.startable cmd 3 with
    | none => s
    | some (c, fl) =>
      if !ok c.opc then s
      else
        let bad := s.cxeStart c fl
        let s1 := s.begin c (s.soleReceiver c fl) bad
        match bad, s.rankOf c fl with
        | none, some k => s1.joinColl c fl k
        | _, _ => s1)

/-- An OPC that names no operation is turned away by the checks, whichever row stands for its start. -/
def opcIs (n k : Nat) : Bool := k == n || k == 0 || decide (5 < k)

/-- R298, R299: an ALLREDUCE command starts. -/
def execAllreduce (cmd : Nat) (s : State) : Out := startCxe (opcIs 1) cmd s
/-- R298, R299: a REDUCE_SCATTER command starts. -/
def execReduceScatter (cmd : Nat) (s : State) : Out := startCxe (opcIs 2) cmd s
/-- R298, R299: an ALLGATHER command starts. -/
def execAllgather (cmd : Nat) (s : State) : Out := startCxe (opcIs 3) cmd s
/-- R298, R299: a BROADCAST command starts. -/
def execBroadcast (cmd : Nat) (s : State) : Out := startCxe (opcIs 4) cmd s
/-- R298, R299: a SEND command starts. -/
def execSend (cmd : Nat) (s : State) : Out := startCxe (opcIs 5) cmd s

/-! ### The start of a collective (R298, R300, R431, R432) -/

/-- The local ranks' commands of a collective. -/
def State.collCmds (s : State) (k : Collective) : List (Nat × Command × Field) :=
  k.ranks.filterMap (fun r =>
    match s.cmd? r.cmd with
    | none => none
    | some c => (s.field? c.field).map (fun fl => (r.ix, c, fl)))

/-- Whether a collective has ranks outside this package. -/
def State.hasRemote (s : State) (k : Collective) : Bool := (s.groupOf k.ctx k.gid).any (fun g => g.2.any (fun e => !s.isLocalRank e))

/-- Elements of the longest result of a rank of n (R301). -/
def Command.longest (c : Command) (n : Nat) : Nat := if c.opc = 3 then n * c.count else if c.opc = 5 then (n - 1) * c.count else c.count

/-- The lowest word in which the ranks' commands disagree, or name what the group cannot do (R298, R301, R431); `differs` is the word in which a rank
elsewhere disagrees. -/
def State.rankFault (s : State) (k : Collective) (differs : Option Nat) : Option (Nat × Nat) :=
  match s.collCmds k with
  | [] => none
  | (_, c, fl) :: rest =>
    let differ := fun (t : Command → Nat) => rest.any (fun x => t x.2.1 != t c)
    let n := s.ranksOf c fl
    badWord [(differ Command.opc || differ Command.red || differ Command.wty || differ Command.alg, 0),
             (rest.any (fun x => (s.groupOf x.2.2.ctx k.gid).map Prod.snd != (s.groupOf fl.ctx k.gid).map Prod.snd), 1),
             (differ Command.count || decide (2 ^ 28 * 8 < c.longest n * (c.entryAt 1).2.ty.width), 2),
             (differ Command.peer || (decide (4 ≤ c.opc) && decide (n ≤ c.peer)), 4),
             (differs.isSome && s.hasRemote k, differs.getD 0)]

/-- Every local rank's command that has not committed, nor begun to, ended with a code: no rank is left partial (R301). -/
def State.endRanks (s : State) (k : Collective) (code : Nat) (detail : Command → Nat) : State :=
  let open_ := (k.ranks.filter (fun r => !r.committed && r.todo.isNone)).map Rank.cmd
  { s with commands := s.commands.map (fun (c : Command) =>
      if open_.contains c.id && c.ended.isNone then { c with phase := .draining, ended := some (code, detail c), entry := none, atWeir := none } else c) }

/-- ALG of a collective's commands. -/
def State.algOf (s : State) (k : Collective) : Nat := ((s.collCmds k).head?.map (fun x => x.2.1.alg)).getD 0

/-- Whether a collective has a rank reached over Ethernet: it finds no slot (R432). -/
def State.overEther (s : State) (k : Collective) : Bool := (s.groupOf k.ctx k.gid).any (fun g => g.2.any (fun e => e.kind == 1))

/-- Reduction slots of a switch plane that collectives of this package hold (R432). -/
def State.slotsUsed (s : State) (plane : Nat) : Nat :=
  (s.colls.filter (fun k => k.slot == some plane && !k.aborted && !k.ranks.all (fun r => r.cmd == 0 || r.committed))).length

/-- The order in which collectives that ask at once for the last slot are served (R300): VF of rank 0, its package, GID. -/
def State.slotKey (s : State) (k : Collective) : Nat × Nat × Nat :=
  match (s.groupOf k.ctx k.gid).bind (fun g => g.2.head?) with
  | some e => (vfOfCtx e.ctx, e.pkg, k.gid)
  | none => (0, 0, k.gid)

/-- Whether a collective is served before another. -/
def State.servedFirst (s : State) (a b : Collective) : Bool :=
  let x := s.slotKey a
  let y := s.slotKey b
  decide (x.1 < y.1) || (x.1 == y.1 && (decide (x.2.1 < y.2.1) || (x.2.1 == y.2.1 && decide (x.2.2 < y.2.2))))

/-- Whether a collective that starts finds a slot on a plane of 64 beside those in use and those that ask for one in the same cycle and come
first (R300, R432). -/
def State.slotFor (s : State) (k : Collective) (plane : Nat) : Bool :=
  let rivals := s.colls.filter (fun j => j.id != k.id && !j.started && j.readyAt == k.readyAt && j.readyAt.isSome && s.algOf j != 0 && !s.overEther j
    && s.servedFirst j k)
  decide (s.slotsUsed plane + rivals.length < 64)

/-- R300, R432: the oldest collective of a group whose ranks have all pushed starts, on a slot of the plane that serves its ranks or as a ring, or ends
every rank. No plane is named where the collectives of other packages leave no slot. -/
def execCollectiveStart (ctx gid : Nat) (fabric : FabricStart) (s : State) : Out :=
  .next (match s.colls.find? (fun k => k.ctx == ctx && k.gid == gid && !k.started && s.allPushed k) with
    | none => s
    | some k =>
      let s0 := s.onColl k.id (fun k => { k with started := true, ranks := k.ranks.map (fun (r : Rank) => { r with lastChunk := s.cycles }) })
      match s.rankFault k fabric.differs with
      | some (code, w) => (s0.endRanks k code (fun _ => w)).onColl k.id (fun k => { k with aborted := true })
      | none =>
        let slot := if s.algOf k = 0 ∨ s.overEther k then none else fabric.plane.filter (s.slotFor k)
        if s.algOf k == 1 && slot.isNone then (s0.endRanks k 12 (fun _ => 0)).onColl k.id (fun k => { k with aborted := true })
        else s0.onColl k.id (fun k => { k with ring := slot.isNone, slot := slot }))

/-! ### Fabric chunks (R299, R301, R302) -/

/-- Senders to rank PEER: every other rank. -/
def Collective.senders (k : Collective) (peer : Nat) : List Nat := (k.ranks.map Rank.ix).filter (fun q => q != peer)

/-- Elements of the result of a rank. -/
def Collective.resultCount (k : Collective) (c : Command) (rank : Nat) : Nat :=
  if c.opc = 3 then k.ranks.length * c.count
  else if c.opc = 5 then (if rank = c.peer then (k.senders c.peer).length * c.count else 0)
  else c.count

/-- Element i of a rank's result: the ranks whose elements make it, and the number of that element in their sources. -/
def Collective.sourcesOf (k : Collective) (c : Command) (rank i : Nat) : List Nat × Nat :=
  if c.opc = 1 then (k.ranks.map Rank.ix, i)
  else if c.opc = 2 then (k.ranks.map Rank.ix, rank * c.count + i)
  else if c.opc = 3 then ([i / c.count], i % c.count)
  else if c.opc = 4 then ([c.peer], i)
  else ([(k.senders c.peer).getD (i / c.count) 0], i % c.count)

/-- Elements of a fabric chunk of a result. -/
def chunkRange (w n chunk : Nat) : List Nat :=
  let per := 32768 / w
  (List.range (min per (n - chunk * per))).map (fun j => chunk * per + j)

/-- Two of a list of terms combined, in an order no rule fixes (R113), until one is left (log 15). -/
def reducePool (f : Fold) (t : Ty) : Nat → Nat → List Nat → Nat × Nat
  | 0, _, xs => (xs.headD 0, 0)
  | fuel + 1, ctr, xs =>
    if xs.length ≤ 1 then (xs.headD 0, 0)
    else
      let i := Config.reduceNext ctr % xs.length
      let rest := dropNth xs i
      let j := Config.reduceNext (ctr + 1) % rest.length
      let r := combineBits f t .rne false (xs.getD i 0) (rest.getD j 0)
      let q := reducePool f t fuel (ctr + 2) (r.1 :: dropNth rest j)
      (q.1, r.2 ||| q.2)

/-- Elements of a local rank's source as the CXE reads them for one fabric chunk, each with its number. -/
def State.cxeRead (s : State) (c : Command) (fl : Field) (key : Nat) (ns : List Nat) : State × Except EStop (List (Nat × Nat)) :=
  let t := (c.entryAt 0).2
  let w := max 1 t.dim0
  match placesFrom (fun s n => s.elemPlace c fl t 0 {} (n / w) (n % w)) ns s with
  | (s1, .error e) => (s1, .error e)
  | (s1, .ok ps) =>
    let r := s1.readTransfer c key (transferUnits ps.flatten)
    if hadBad r.2.1 ps.flatten then (r.1, .error (.ends 4 0))
    else if !r.2.2 then (r.1, .error (.ends 0 0))
    else (r.1, .ok ((ns.zip ps).map (fun x => (x.1, halfNat (t.half (x.1 / w) (x.1 % w)) ((hadBytes r.2.1 x.2).getD [])))))

/-- The elements that each rank gives to some elements of a result. -/
def Collective.wanted (k : Collective) (c : Command) (rank : Nat) (is : List Nat) : List (Nat × List Nat) :=
  ((k.ranks.map Rank.ix).map (fun q => (q, is.filterMap (fun i =>
    let x := k.sourcesOf c rank i
    if x.1.contains q then some x.2 else none)))).filter (fun x => !x.2.isEmpty)

/-- What the ranks of this package give to a chunk, by rank and element; a rank that cannot be read stops the chunk. -/
def State.cxeGather (k : Collective) (key : Nat) : List (Nat × List Nat) → State → State × Except (Nat × EStop) (List (Nat × List (Nat × Nat)))
  | [], s => (s, .ok [])
  | (q, ns) :: qs, s =>
    let one : State × Except (Nat × EStop) (List (Nat × List (Nat × Nat))) :=
      match (k.ranks[q]?).bind (fun r => s.cmd? r.cmd) with
      | some c =>
        match s.field? c.field with
        | none => (s, .error (c.id, .ends 0 0))
        | some fl =>
          if c.phase ≠ .running ∨ c.cancelled ∨ !s.worksOn c then (s, .error (c.id, .ends 0 0))
          else match s.cxeRead c fl key ns with
            | (s1, .ok x) => (s1, .ok [(q, x)])
            | (s1, .error e) => (s1, .error (c.id, e))
      | none => if (k.ranks[q]?).any (fun r => r.cmd != 0) then (s, .error (0, .ends 0 0)) else (s, .ok [])
    match one with
    | (s1, .error e) => (s1, .error e)
    | (s1, .ok x) =>
      match State.cxeGather k key qs s1 with
      | (s2, .ok xs) => (s2, .ok (x ++ xs))
      | (s2, .error e) => (s2, .error e)

/-- Element n of rank q for element j of a chunk: as gathered in this package, else as it comes with the chunk. -/
def cxeTerm (got : List (Nat × List (Nat × Nat))) (ext : List (Nat × List Byte)) (w j n q : Nat) : Nat :=
  match got.find? (fun x => x.1 == q) with
  | some x => ((x.2.find? (fun y => y.1 == n)).map Prod.snd).getD 0
  | none => bitsOf (leNat (((ext.find? (fun x => x.1 == q)).map Prod.snd).getD [])) (w * j) w

/-- The result elements of a chunk combined, in orders no rule fixes, with their events (R113, R299) and the number of choices made. -/
def Collective.combine (k : Collective) (c : Command) (rank : Nat) (got : List (Nat × List (Nat × Nat))) (ext : List (Nat × List Byte)) :
    List (Nat × Nat) → Nat → List Nat × Nat × Nat
  | [], ctr => ([], 0, ctr)
  | (j, i) :: rest, ctr =>
    let t := (c.entryAt 1).2.ty
    let src := k.sourcesOf c rank i
    let xs := src.1.map (cxeTerm got ext t.width j src.2)
    let r := if c.reduces then reducePool (redFold c.red) t xs.length ctr xs else (xs.headD 0, 0)
    let y := k.combine c rank got ext rest (ctr + 2 * xs.length)
    (r.1 :: y.1, r.2 ||| y.2.1, y.2.2)

/-- The result elements of a chunk with their events: every source of this package is read, by the units of the chunk (R135), then they are combined. -/
def State.cxeChunk (k : Collective) (c : Command) (rank : Nat) (ext : List (Nat × List Byte)) (js : List (Nat × Nat)) (s : State) :
    State × Except (Nat × EStop) (List Nat × Nat) :=
  let is := js.map Prod.snd
  let key := rank * 2 ^ 40 + is.headD 0
  match State.cxeGather k key (k.wanted c rank is) s with
  | (s1, .error e) => (s1, .error e)
  | (s1, .ok got) =>
    let r := k.combine c rank got ext js s1.freeCtr
    (k.ranks.foldl (fun s x => s.endTransfer x.cmd key) { s1 with freeCtr := r.2.2 }, .ok (r.1, r.2.1))

/-- A fault of a rank during a chunk: its command is suspended, or ends (R301, R361). -/
def State.stopRank (s : State) (id chunk : Nat) (e : EStop) : State :=
  match s.cmd? id with
  | none => s
  | some c =>
    match e, s.field? c.field with
    | .ends 0 _, _ => s
    | _, none => s
    | e, some fl => s.stopCmd c fl.ctx chunk e

/-- Chunks of a rank's result. -/
def Collective.chunksOf (k : Collective) (c : Command) (rank : Nat) : Nat := ceilDiv (k.resultCount c rank * (c.entryAt 1).2.ty.width) 32768

/-- A rank of a collective changed. -/
def State.onRank (s : State) (coll rank : Nat) (f : Rank → Rank) : State :=
  s.onColl coll (fun k => { k with ranks := k.ranks.mapIdx (fun j r => if j = rank then f r else r) })

/-- Staged elements as bytes from their first: half bytes join (R94). -/
def packElems (w : Nat) (xs : List Nat) : List Byte :=
  let n := xs.foldr (fun x acc => x % 2 ^ w + acc * 2 ^ w) 0
  leBytes (ceilDiv (xs.length * w) 8) n

/-- A local rank that may receive a chunk of a started collective. -/
def State.receiving (s : State) (coll rank : Nat) : Option (Collective × Rank × Command × Field) :=
  match s.coll? coll with
  | none => none
  | some k =>
    match k.ranks[rank]? with
    | none => none
    | some r =>
      match s.cmd? r.cmd with
      | none => none
      | some c =>
        match s.field? c.field with
        | none => none
        | some fl =>
          if k.started ∧ !k.aborted ∧ c.phase = .running ∧ !c.cancelled ∧ c.ended.isNone ∧ s.worksOn c then some (k, r, c, fl) else none

/-- The destination entries that ranks elsewhere give for a SEND with several senders, which come with a chunk under the number of ranks plus their own
(R299, log 44). -/
def State.noteDests (s : State) (coll : Nat) (ext : List (Nat × List Byte)) : State :=
  s.onColl coll (fun k => { k with ranks := k.ranks.map (fun r =>
    match ext.find? (fun x => x.1 == k.ranks.length + r.ix) with
    | some x => if r.cmd = 0 ∧ x.2.length = 56 then
        { r with dest := some (Vector.ofFn (fun i : Fin 7 => BitVec.ofNat 64 (leNat ((x.2.drop (8 * i.val)).take 8)))) } else r
    | none => r) })

/-- R299, R301, R302: a fabric chunk of a rank's result arrives in staging memory; with CEN it counts once at the receiver's reach. -/
def execCxeChunkArrive (coll rank chunk : Nat) (ext : List (Nat × List Byte)) (s : State) : Out :=
  engineEvent (.cxeChunkArrive coll rank chunk ext) s (fun s => match s.receiving coll rank with
    | none => s
    | some (k, r, c, fl) =>
      if k.chunksOf c rank ≤ chunk ∨ r.arrived.contains chunk then s
      else
        let w := (c.entryAt 1).2.ty.width
        let is := chunkRange w (k.resultCount c rank) chunk
        match State.cxeChunk k c rank ext ((List.range is.length).zip is) s with
        | (s1, .error (id, e)) => s1.stopRank id chunk e
        | (s1, .ok (xs, f)) =>
          let s2 := (s1.noteDests coll ext).onRank coll rank (fun r =>
            { r with buf := cellsWrite r.buf (4096 * chunk) (packElems w xs), arrived := setInsert r.arrived chunk, lastChunk := s.cycles })
          let s3 := s2.tickFree.onCmd c.id (fun c => { c with flags := c.flags ||| f, units := c.units + 1 })
          let whole := r.arrived.length + 1 == k.chunksOf c rank
          if c.cen then s3.countChunk fl.scheme (bitsOf (c.word 3) 0 4) (c.last && whole) else s3)

/-! ### Commit and abort (R301) -/

/-- The entry a result element is written to, and its number there: a SEND with several senders gives each its own entry on
PEER (R299): the one that its command names, or where none is known that of PEER (log 44). -/
def Collective.destOf (k : Collective) (c : Command) (i : Nat) : Tensor × Nat :=
  let own := (c.entryAt 1).2
  if c.opc ≠ 5 then (own, i)
  else
    let from_ := k.senders c.peer
    if from_.length ≤ 1 then (own, i)
    else
      let q := from_.getD (i / c.count) 0
      (((k.ranks[q]?).bind Rank.dest).elim own tensorOf, i % c.count)

/-- The places of a result's elements, to the first that stops, with its number. -/
def State.destPlaces (k : Collective) (c : Command) (fl : Field) :
    List Nat → State → State × Except (Nat × EStop) (List (Nat × Tensor × Nat × List Piece))
  | [], s => (s, .ok [])
  | i :: is, s =>
    let x := k.destOf c i
    let w := max 1 x.1.dim0
    match s.elemPlace c fl x.1 0 { write := true } (x.2 / w) (x.2 % w) with
    | (s1, .error e) => (s1, .error (i, e))
    | (s1, .ok ps) =>
      match State.destPlaces k c fl is s1 with
      | (s2, .ok rest) => (s2, .ok ((i, x.1, x.2, ps) :: rest))
      | (s2, .error e) => (s2, .error e)

/-- Whether every fabric chunk of a rank of this package has arrived; a rank elsewhere is the environment's. -/
def State.allArrived (s : State) (k : Collective) (r : Rank) : Bool :=
  r.cmd == 0 || r.committed || (s.cmd? r.cmd).any (fun c => decide (k.chunksOf c r.ix ≤ r.arrived.length))

/-- Element i of a staged result. -/
def stagedElem (buf : List (Nat × Byte)) (t : Ty) (i : Nat) : Nat :=
  bitsOf (leNat (cellsRead buf (i * t.width / 8) (max 1 (t.width / 8)))) (if t.width < 8 then i % 2 * 4 else 0) t.width

/-- The writes of a rank's commit performed as far as tokens allow; with CEN the fields of the reach that the chunks count at see them without a
fence (R302). With the last of them the rank is done (R277, R301). -/
def State.commitSome (s : State) (k : Collective) (r : Rank) (c : Command) (fl : Field) (puts : List Put) : State × Bool :=
  let op := s.order + 1
  let o := { c.origin op with cen := if c.cen then some (fl.scheme, bitsOf (c.word 3) 0 4) else none }
  let x := State.performPuts o c.core none (stagedElem r.buf (c.entryAt 1).2.ty) puts s
  let s1 := x.1.fuse op
  if x.2.1.isEmpty then
    ((s1.onRank k.id r.ix (fun r => { r with committed := true, todo := none })).onCmd c.id (fun c =>
      { c with phase := .draining, ended := some (0, k.ring.toNat) }), true)
  else (s1.onRank k.id r.ix (fun r => { r with todo := some x.2.1 }), false)

/-- A complete result committed whole (R301): every place of it passes its checks before the first write. False while the rank must wait or is
suspended. -/
def State.commitRank (s : State) (k : Collective) (r : Rank) (c : Command) (fl : Field) : State × Bool :=
  match r.todo with
  | some puts => s.commitSome k r c fl puts
  | none =>
    match State.destPlaces k c fl (List.range (k.resultCount c r.ix)) s with
    | (s1, .error (i, e)) => (s1.stopCmd c fl.ctx (i * (c.entryAt 1).2.ty.width / 32768) e, false)
    | (s1, .ok xs) =>
      s1.commitSome k r c fl (xs.map (fun x =>
        let w := max 1 x.2.1.dim0
        { item := x.1, pieces := x.2.2.2, high := x.2.1.half (x.2.2.1 / w) (x.2.2.1 % w) }))

/-- A collective aborted: every rank that has not committed ends with a code (R301). -/
def State.abortColl (s : State) (coll code : Nat) : State :=
  match s.coll? coll with
  | none => s
  | some k => (s.endRanks k code (fun c => if code = 2 then c.units else 0)).onColl coll (fun k => { k with aborted := true })

/-- A collective none of whose commands is left is forgotten. -/
def State.sweepColls (s : State) : State :=
  { s with colls := s.colls.filter (fun k => k.ranks.any (fun r => (s.cmd? r.cmd).isSome)) }

/-! ### Completion of engine commands (R272, R282, R408) -/

/-- Units of a command that performs units, other than a collective. -/
def Command.unitCount (c : Command) : Nat :=
  if c.engine = 0 then c.ksteps else if c.engine = 1 then c.chunks else if c.engine = 2 then c.record.count else c.units

/-- Whether every unit of an MXE, TXE or GXE command is done. -/
def Command.unitsDone (c : Command) : Bool :=
  c.engine != 3 && (if c.engine = 1 then decide (c.chunks ≤ c.landed.length) else decide (c.unitCount ≤ c.units))

/-- A CXE command's own end (R301): a result commits once the chunks of every rank of this package have arrived, since until then its source is
still read; a rank that ended otherwise ends the others. -/
def State.closeRank (s : State) (c : Command) (fl : Field) : State × Bool :=
  match s.coll? c.coll with
  | none => (s, c.ended.isSome)
  | some k =>
    match k.ranks.find? (fun r => r.cmd == c.id) with
    | none => (s, c.ended.isSome)
    | some r =>
      if c.ended.isSome then (if r.committed ∨ k.aborted then s else s.abortColl k.id (if c.ended.map Prod.fst = some 2 then 2 else 11), true)
      else if r.todo.isSome then s.commitRank k r c fl
      else if c.cancelled then (s.abortColl k.id 2, true)
      else if k.started && !k.aborted && k.ranks.all (s.allArrived k) then s.commitRank k r c fl
      else (s, false)

/-- R272, R282, R362: a command at its end makes its final contributions and completes, once its chunks in flight have landed; one cancelled before its
start only leaves. -/
def execEngineComplete (cmd : Nat) (s : State) : Out :=
  engineEvent (.engineComplete cmd) s (fun s => match s.cmd? cmd with
    | none => s
    | some c =>
      match s.field? c.field with
      | none => s
      | some fl =>
        let mayRun := s.worksOn c || fl.status == .ending
        if !mayRun then s
        else if c.phase = .queued then
          (if c.cancelled then ({ s with commands := s.commands.filter (fun x => x.id != cmd) } : State).resolveSlot c 1 else s)
        else if !c.flights.isEmpty then s.settleFlights cmd fl.ctx
        else if c.phase = .suspended ∨ (c.reported ∧ c.ended.isNone) then s
        else
          let s1 := if c.cancelled ∧ c.ended.isNone ∧ !c.unitsDone ∧ c.engine ≠ 3 then
              s.onCmd cmd (fun c => { c with phase := .draining, ended := some (2, c.units), entry := none, atWeir := none }) else s
          if c.engine = 3 then
            match s1.closeRank c fl with
            | (s2, true) => (s2.finishCmd cmd fl.ctx c.units).sweepColls
            | (s2, false) => s2
          else if (s1.cmd? cmd).any (fun c => c.ended.isSome || c.unitsDone) then s1.finishCmd cmd fl.ctx c.unitCount
          else s1)

/-! ### Timeouts and redos (R301, R431, R433) -/

/-- Whether a rank has received nothing for its group's timeout. -/
def State.rankSilent (s : State) (k : Collective) (r : Rank) : Bool :=
  match s.groupOf k.ctx k.gid with
  | none => false
  | some g => !r.committed && decide (r.lastChunk + 4000 * g.1 ≤ s.cycles)

/-- R301, R431: a rank of a started collective has been silent for its timeout, or a rank of another package has been cancelled: the ranks not
committed end with MEMBER_LOST or ABORTED. -/
def execCollectiveTimeout (loss : RankLoss) (s : State) : Out :=
  .next (match s.coll? loss.coll with
    | none => s
    | some k =>
      if !k.started ∨ k.aborted then s
      else if loss.cancelled then (if s.hasRemote k then s.abortColl loss.coll 2 else s)
      else if k.ranks.any (fun r => r.cmd != 0 && s.rankSilent k r) then s.abortColl loss.coll 11
      else s)

/-- R433: a switch failure in a collective that runs on a slot: redone once on another plane with a slot, ahead of new collectives, else the redo
fails. -/
def execCollectiveRedo (coll : Nat) (plane : Option Nat) (s : State) : Out :=
  .next (match s.coll? coll with
    | none => s
    | some k =>
      if !k.started ∨ k.aborted ∨ k.slot.isNone then s
      else
        let s1 := { s with baseErrs := { s.baseErrs with redos := s.baseErrs.redos + 1 } }
        let next := plane.filter (fun p => k.slot != some p && decide (s.slotsUsed p < 64))
        if k.redone ∨ next.isNone then s1.abortColl coll 11 else s1.onColl coll (fun k => { k with redone := true, slot := next }))

end Sys2Proof.Machine
end

