-- ==== Sys2Proof/Machine/Compares.lean ====
section
/-! DEFINITION. Comparisons, selects and classes: major 0x12 (R222 to R224). -/
namespace Sys2Proof.Machine

/-- Whether a condition holds for two elements, with its NV flag (R222). -/
def condition (u : Furrow) (cc : Cc) (t : Ty) (a b : Nat) : Bool × Nat :=
  if t.isInt then (icmp cc (intOf t a) (intOf t b), 0) else fcmpNum cc (operandNum t u.ftz a) (operandNum t u.ftz b)

/-- R222, R223: the predicate of the active lanes; flags are raised though `p7` discards the write. -/
def execVcmp (cc : Cc) (f : LV) (s : State) : Out :=
  running (.vcmp cc f) s (fun q u g =>
    let m := u.activeSet (.vcmp cc f) g
    if m = 0 then s.skip (.vcmp cc f) q g
    else
      let r := tableOf (fun l => condition u cc f.ty (elem f.ty (u.laneBits f.ty f.a.val l) 0) (u.bElem f.ty f.b l 0))
      s.done (.vcmp cc f) q (u.writeP f.d.val m (maskOf (fun l => (laneAt r l).1))) g m (flagsOver m (fun l => (laneAt r l).2)))

/-- R222, R223: all ones in each element where the condition holds, else 0. -/
def execVset (cc : Cc) (f : LV) (s : State) : Out :=
  elementwise (.vset cc f) f s (fun u a b _ =>
    let r := condition u cc f.ty a b
    (if r.1 then 2 ^ f.ty.width - 1 else 0, r.2))

/-- R223: vA where the predicate is true, else b. -/
def execVsel (f : LV) (s : State) : Out :=
  running (.vsel f) s (fun q u g =>
    vectorDone s (.vsel f) q u g f.ty f.d.val (fun l =>
      (if inMask (u.readP f.c3.val) l then u.laneBits f.ty f.a.val l else u.bElem f.ty f.b l 0, 0)))

/-- R224: the class mask of each raw element. -/
def execVfclass (f : LV) (s : State) : Out := elementwise (.vfclass f) f s (fun _ a _ _ => (fclassBits f.ty a, 0))

end Sys2Proof.Machine
end

