-- ==== Sys2Proof/Machine/Conversions.lean ====
section
/-! DEFINITION. Conversions, E2M1S packing and scales: major 0x13 (R225 to R231, R104 to R108). FTZ acts on none of them but the
operand of `vscl`. -/
namespace Sys2Proof.Machine

/-- A lane's 32 bits with element k of a narrow type replaced (R226). -/
def replaceElem (t : Ty) (old k x : Nat) : Nat :=
  let sh := t.width * k
  (old >>> (sh + t.width)) * 2 ^ (sh + t.width) + (x % 2 ^ t.width) * 2 ^ sh + old % 2 ^ sh

/-- The immediate of a BK 2 operand; 0 for another kind. -/
def immOf (b : BOp) : BitVec 8 :=
  match b with
  | .imm x => x
  | _ => 0

/-- R226 to R228: one element of each active lane converted. -/
def execVcvt (f : LV) (s : State) : Out :=
  running (.vcvt f) s (fun q u g =>
    let p := cvtParts (immOf f.b)
    let conv := fun l => convertNum p.1 f.ty (elem p.1 (u.laneBits p.1 f.a.val l) p.2.1) (u.rmode f.rm) f.sat
    let narrow := f.ty.width < 32
    vectorDone s (.vcvt f) q u g (if f.ty.width = 64 then .n64 else .n32) f.d.val (fun l =>
      let r := conv l
      (if narrow then replaceElem f.ty (u.laneOf f.d.val l).toNat p.2.2 r.1 else r.1, r.2)))

/-- The block metadata of lane i (R229): spare and scale; a plain E2M1 spare with BK 2. -/
def blockMeta (u : Furrow) (b : BOp) (i : Nat) : Nat × Nat :=
  let x := u.bIndex b i
  match b with
  | .imm _ => (0x80, x % 256)
  | _ => (x / 256 % 256, x % 256)

/-- R229: four `.f32` values encoded into one half of each lane. -/
def packHalf (i : Instr) (f : LV) (half : Nat) (s : State) : Out :=
  running i s (fun q u g =>
    vectorDone s i q u g .n32 f.d.val (fun l =>
      let pc := blockMeta u f.b l
      let r := (List.range 4).foldl (fun (acc : Nat × Nat) k =>
        let e := encodeE2m1s (decodeNum .f32 (u.laneOf (f.a.val + k) l).toNat) pc.1 pc.2
        (acc.1 + e.1 * 2 ^ (4 * k), acc.2 ||| e.2)) (0, 0)
      (replaceElem .n16 (u.laneOf f.d.val l).toNat half r.1, r.2)))

/-- R229: the low half. -/
def execVpklo (f : LV) (s : State) : Out := packHalf (.vpklo f) f 0 s

/-- R229: the high half. -/
def execVpkhi (f : LV) (s : State) : Out := packHalf (.vpkhi f) f 1 s

/-- R230: the four elements of one half decoded into a quadruple of `.f32`. -/
def unpackHalf (i : Instr) (f : LV) (half : Nat) (s : State) : Out :=
  running i s (fun q u g =>
    let m := u.activeSet i g
    if m = 0 then s.skip i q g
    else
      let code := fun l k => bitsOf (u.laneOf f.a.val l).toNat (16 * half + 4 * k) 4
      let val := fun l k =>
        let pc := blockMeta u f.b l
        roundNum (decodeE2m1s (code l k) pc.1 pc.2) .f32 (u.rmode f.rm) false false
      let r := tableOf (fun l => (List.range 4).map (val l))
      let out := fun k l => (((laneAt r l)[k]?).getD (0, 0))
      let u1 := (List.range 4).foldl (fun (v : Furrow) k => v.writeV (f.d.val + k) m (fun l => BitVec.ofNat 32 (out k l).1)) u
      s.done i q u1 g m (flagsOver m (fun l => (laneAt r l).foldl (fun a x => a ||| x.2) 0)))

/-- R230: the low half. -/
def execVupklo (f : LV) (s : State) : Out := unpackHalf (.vupklo f) f 0 s

/-- R230: the high half. -/
def execVupkhi (f : LV) (s : State) : Out := unpackHalf (.vupkhi f) f 1 s

/-- The largest exponent of the element format that `vscl` names (R231). -/
def sclEmax (b : BOp) : Int :=
  match (immOf b).toNat % 16 with
  | 12 => 8
  | 13 => 15
  | _ => 2

/-- R231: the E8M0 scale of each lane's `.f32` value. -/
def execVscl (f : LV) (s : State) : Out :=
  running (.vscl f) s (fun q u g =>
    vectorDone s (.vscl f) q u g .n32 f.d.val (fun l =>
      scaleCode (operandNum .f32 u.ftz (u.laneOf f.a.val l).toNat) (sclEmax f.b)))

end Sys2Proof.Machine
end

