-- ==== Sys2Proof/Machine/Floating.lean ====
section
/-! DEFINITION. Vector floating point: major 0x11 (R218 to R221, R203). -/
namespace Sys2Proof.Machine

/-- A row of R218: operands through operand(), the mode in force, FTZ. -/
def floatRow (i : Instr) (f : LV) (op : Ty → Mode → Bool → Num → Num → Num → Nat × Nat) (s : State) : Out :=
  elementwise i f s (fun u a b c =>
    op f.ty (u.rmode f.rm) u.ftz (operandNum f.ty u.ftz a) (operandNum f.ty u.ftz b) (operandNum f.ty u.ftz c))

/-- The exponent operand of `vfscale` (R221): an integer, never a float. -/
def scaleExp (t : Ty) (b : BOp) (x : Nat) : Int :=
  match b with
  | .imm n => sext n.toNat 8
  | _ => sext x (min 32 t.width)

/-- R218: the rounded sum. -/
def execVfadd (f : LV) (s : State) : Out :=
  floatRow (.vfadd f) f (fun t m z a b _ => finish (addNum a b m) t m z) s

/-- R218: the rounded difference. -/
def execVfsub (f : LV) (s : State) : Out :=
  floatRow (.vfsub f) f (fun t m z a b _ => finish (addNum a b.opp m) t m z) s

/-- R218: the rounded product. -/
def execVfmul (f : LV) (s : State) : Out :=
  floatRow (.vfmul f) f (fun t m z a b _ => finish (mulNum a b) t m z) s

/-- R218: a times b plus c, rounded once. -/
def execVfma (f : LV) (s : State) : Out :=
  floatRow (.vfma f) f (fun t m z a b c => fmaNum a b c t m z) s

/-- R218: a times b minus c, rounded once. -/
def execVfms (f : LV) (s : State) : Out :=
  floatRow (.vfms f) f (fun t m z a b c => fmaNum a b c.opp t m z) s

/-- R218: c minus a times b, rounded once. -/
def execVfnma (f : LV) (s : State) : Out :=
  floatRow (.vfnma f) f (fun t m z a b c => fmaNum a.opp b c t m z) s

/-- R218, R219: the rounded quotient. -/
def execVfdiv (f : LV) (s : State) : Out :=
  floatRow (.vfdiv f) f (fun t m z a b _ => divNum a b t m z) s

/-- R218, R219: the rounded square root. -/
def execVfsqrt (f : LV) (s : State) : Out :=
  floatRow (.vfsqrt f) f (fun t m z a _ _ => sqrtNum a t m z) s

/-- R203: the smaller; the other value of a single NaN. -/
def execVfmin (f : LV) (s : State) : Out :=
  floatRow (.vfmin f) f (fun t _ _ a b _ => finish (minMaxNum a b false) t .rne false) s

/-- R203: the larger; the other value of a single NaN. -/
def execVfmax (f : LV) (s : State) : Out :=
  floatRow (.vfmax f) f (fun t _ _ a b _ => finish (minMaxNum a b true) t .rne false) s

/-- R220: the sign bit cleared. -/
def execVfabs (f : LV) (s : State) : Out :=
  elementwise (.vfabs f) f s (fun _ a _ _ => (a % 2 ^ (f.ty.width - 1), 0))

/-- R220: the sign bit inverted. -/
def execVfneg (f : LV) (s : State) : Out :=
  elementwise (.vfneg f) f s (fun _ a _ _ => (a ^^^ 2 ^ (f.ty.width - 1), 0))

/-- R221: rounded to an integral value. -/
def execVfrint (f : LV) (s : State) : Out :=
  floatRow (.vfrint f) f (fun t m _ a _ _ => rintNum a t m) s

/-- R221: a times 2 to the power e, rounded. -/
def execVfscale (f : LV) (s : State) : Out :=
  elementwise (.vfscale f) f s (fun u a b _ =>
    scaleNum (operandNum f.ty u.ftz a) (scaleExp f.ty f.b b) f.ty (u.rmode f.rm) u.ftz)

end Sys2Proof.Machine
end

