-- ==== Sys2Proof/Machine/FrameOps.lean ====
section
/-! DEFINITION. The frame registers: `tfr` and `tfw` (R327 to R329). -/
namespace Sys2Proof.Machine

/-- The level whose frame FR names (R329): the current one, or the one that one or two FROM fields lead to; none where no frame stands. -/
def Furrow.frameLevel (f : Furrow) : Nat → Option Nat
  | 0 => (f.frame? f.level).map (fun _ => f.level)
  | n + 1 =>
    match f.frameLevel n with
    | none => none
    | some l =>
      match f.frame? l with
      | none => none
      | some fr => (f.frame? fr.fromLevel).map (fun _ => fr.fromLevel)

/-- A PC written into a lane record: a value that is no multiple of 4 is ignored (R328). -/
def LaneRec.writePc (r : LaneRec) (x : Nat) : LaneRec := if x % 4 = 0 then { r with pc := BitVec.ofNat 24 x } else r

/-- A lane record written whole (R328): STATE only from 1 to 3, DSKIP, PC. -/
def LaneRec.write (r : LaneRec) (x : Nat) : LaneRec :=
  ({ r with state := if r.state = 1 ∧ bitsOf x 62 2 = 3 then 3 else r.state, dskip := x.testBit 59 } : LaneRec).writePc (bitsOf x 0 24)

/-- What `tfr` reads of a lane through a frame (R329). -/
def Frame.readSel (fr : Frame) (f : Furrow) (sel lane : Nat) : Nat :=
  let r := laneAt fr.lrec lane
  if sel = 0 then r.pc.toNat
  else if sel = 1 then r.bits
  else if sel = 2 then (laneAt fr.eaddr lane).toNat
  else if sel - 0x10 < r.csd then ((laneAt f.lanes lane).stackAt fr.fromLevel (sel - 0x10)).toNat else 0

/-- R329: a lane frame register of the lane that b names, read by each lane whose guard is true. -/
def execTfr (f : LT) (s : State) : Out :=
  running (.tfr f) s (fun q u g =>
    match (u.frameLevel f.fr.val).bind u.frame? with
    | none => trapNow s q g g.lanes 0x20 0
    | some fr =>
      let m := u.activeSet (.tfr f) g
      let x := tableOf (fun i => fr.readSel u f.sel.toNat (u.bIndex f.b i % 32))
      let u1 := if frameSelWide f.sel then u.writePair f.d.val m (fun i => BitVec.ofNat 64 (laneAt x i))
        else u.writeV f.d.val m (fun i => BitVec.ofNat 32 (laneAt x i))
      s.done (.tfr f) q u1 g m 0)

/-- One lane's write through a frame (R329): its target lane's record, by PC or whole. -/
def Frame.writeSel (fr : Frame) (sel lane : Nat) (x : W64) : Frame :=
  let r := laneAt fr.lrec lane
  { fr with lrec := fr.lrec.set (Fin.ofNat 32 lane) (if sel = 0 then r.writePc (bitsOf x.toNat 0 24) else r.write x.toNat) }

/-- R329: the lane records written lane by lane in ascending order; a later lane wins. -/
def execTfw (f : LT) (s : State) : Out :=
  running (.tfw f) s (fun q u g =>
    match u.frameLevel f.fr.val with
    | none => trapNow s q g g.lanes 0x20 0
    | some n =>
      match u.frame? n with
      | none => trapNow s q g g.lanes 0x20 0
      | some fr =>
        let m := u.activeSet (.tfw f) g
        let val := fun i => if frameSelWide f.sel then u.pairOf f.a.val i else (u.laneOf f.a.val i).setWidth 64
        let fr1 := (lanesOf m).foldl (fun (fr : Frame) i => fr.writeSel f.sel.toNat (u.bIndex f.b i % 32) (val i)) fr
        s.done (.tfw f) q (u.setFrame n (some fr1)) g 0 0)

end Sys2Proof.Machine
end

