-- ==== Sys2Proof/Machine/Integer.lean ====
section
/-! DEFINITION. Vector integer and bit operations: major 0x10 (R208 to R211, R214 to R217). -/
namespace Sys2Proof.Machine

/-- A row of R214 with an exact integer result, wrapped or saturated. -/
def integerRow (i : Instr) (f : LV) (op : Int → Int → Int → Int) (s : State) : Out :=
  elementwise i f s (fun _ a b c => intResult f.sat f.ty (op (intOf f.ty a) (intOf f.ty b) (intOf f.ty c)))

/-- A row of R214 on bit patterns, kept to the element's width. -/
def bitRow (i : Instr) (f : LV) (op : Nat → Nat → Nat) (s : State) : Out :=
  elementwise i f s (fun _ a b _ => (op a b % 2 ^ f.ty.width, 0))

/-- The rotation of n bits right (R214). -/
def rotateBits (n a k : Nat) : Nat := (a >>> k) ||| ((a <<< (n - k)) % 2 ^ n)

/-- The bits of n in reverse order (R214). -/
def reverseBits (n a : Nat) : Nat := (List.range n).foldl (fun r j => if a.testBit j then r + 2 ^ (n - 1 - j) else r) 0

/-- `vbfe` on an element (R217). -/
def extractBits (t : Ty) (a b : Nat) : Nat :=
  let n := t.width
  let pos := min (b % 256) n
  let len := min (b / 256 % 256) n
  if len = 0 then 0
  else if t.isSigned then wrap (sext (wrap (intOf t a / 2 ^ pos) len) len) n
  else (a >>> pos) % 2 ^ len

/-- `vbfi` on an element (R217). -/
def insertBits (n a b c : Nat) : Nat :=
  let pos := min (b % 256) n
  let len := min (b / 256 % 256) n
  let k := min (pos + len) n - pos
  (c >>> (pos + k)) * 2 ^ (pos + k) + (a % 2 ^ k) * 2 ^ pos + c % 2 ^ pos

/-- R214: a + b. -/
def execVadd (f : LV) (s : State) : Out :=
  integerRow (.vadd f) f (fun a b _ => a + b) s

/-- R214: a - b. -/
def execVsub (f : LV) (s : State) : Out :=
  integerRow (.vsub f) f (fun a b _ => a - b) s

/-- R214: the product. -/
def execVmul (f : LV) (s : State) : Out :=
  integerRow (.vmul f) f (fun a b _ => a * b) s

/-- R214: the high half of the product. -/
def execVmulh (f : LV) (s : State) : Out :=
  integerRow (.vmulh f) f (fun a b _ => a * b / 2 ^ f.ty.width) s

/-- R214: the product plus c. -/
def execVmad (f : LV) (s : State) : Out :=
  integerRow (.vmad f) f (fun a b c => a * b + c) s

/-- R215: the quotient toward zero; all ones when b is 0. -/
def execVdiv (f : LV) (s : State) : Out :=
  integerRow (.vdiv f) f (fun a b _ => if b = 0 then -1 else a.tdiv b) s

/-- R215: the remainder, of the dividend's sign; a when b is 0. -/
def execVrem (f : LV) (s : State) : Out :=
  integerRow (.vrem f) f (fun a b _ => if b = 0 then a else a.tmod b) s

/-- R214: the smaller. -/
def execVmin (f : LV) (s : State) : Out :=
  integerRow (.vmin f) f (fun a b _ => if a ≤ b then a else b) s

/-- R214: the larger. -/
def execVmax (f : LV) (s : State) : Out :=
  integerRow (.vmax f) f (fun a b _ => if b ≤ a then a else b) s

/-- R214: the magnitude. -/
def execVabs (f : LV) (s : State) : Out :=
  integerRow (.vabs f) f (fun a _ _ => |a|) s

/-- R214: the negative. -/
def execVneg (f : LV) (s : State) : Out :=
  integerRow (.vneg f) f (fun a _ _ => -a) s

/-- R214: the magnitude of the difference. -/
def execVabsd (f : LV) (s : State) : Out :=
  integerRow (.vabsd f) f (fun a b _ => |a - b|) s

/-- R214: a AND b. -/
def execVand (f : LV) (s : State) : Out :=
  bitRow (.vand f) f (fun a b => a &&& b) s

/-- R214: a OR b. -/
def execVor (f : LV) (s : State) : Out :=
  bitRow (.vor f) f (fun a b => a ||| b) s

/-- R214: a XOR b. -/
def execVxor (f : LV) (s : State) : Out :=
  bitRow (.vxor f) f (fun a b => a ^^^ b) s

/-- R214: a AND NOT b. -/
def execVandn (f : LV) (s : State) : Out :=
  bitRow (.vandn f) f (fun a b => a &&& (2 ^ f.ty.width - 1 - b)) s

/-- R214: NOT a. -/
def execVnot (f : LV) (s : State) : Out :=
  bitRow (.vnot f) f (fun a _ => 2 ^ f.ty.width - 1 - a) s

/-- R214, R216: a shifted left by b modulo the width. -/
def execVshl (f : LV) (s : State) : Out :=
  bitRow (.vshl f) f (fun a b => a <<< (b % f.ty.width)) s

/-- R214, R216: a shifted right by b modulo the width, with its sign for signed types. -/
def execVshr (f : LV) (s : State) : Out :=
  elementwise (.vshr f) f s (fun _ a b _ => (wrap (intOf f.ty a / 2 ^ (b % f.ty.width)) f.ty.width, 0))

/-- R214, R216: a rotated right by b modulo the width. -/
def execVrot (f : LV) (s : State) : Out :=
  bitRow (.vrot f) f (fun a b => rotateBits f.ty.width a (b % f.ty.width)) s

/-- R214: the number of set bits. -/
def execVpopc (f : LV) (s : State) : Out :=
  bitRow (.vpopc f) f (fun a _ => popCount a f.ty.width) s

/-- R214: the number of leading zero bits. -/
def execVclz (f : LV) (s : State) : Out :=
  bitRow (.vclz f) f (fun a _ => leadingZeros a f.ty.width) s

/-- R214: the bits in reverse order. -/
def execVbrev (f : LV) (s : State) : Out :=
  bitRow (.vbrev f) f (fun a _ => reverseBits f.ty.width a) s

/-- R217: a bit field of a. -/
def execVbfe (f : LV) (s : State) : Out :=
  bitRow (.vbfe f) f (fun a b => extractBits f.ty a b) s

/-- R217: a bit field of c replaced from a. -/
def execVbfi (f : LV) (s : State) : Out :=
  elementwise (.vbfi f) f s (fun _ a b c => (insertBits f.ty.width a b c, 0))

/-- R214: b. -/
def execVmov (f : LV) (s : State) : Out :=
  bitRow (.vmov f) f (fun _ b => b) s

end Sys2Proof.Machine
end

