-- ==== Sys2Proof/Machine/Invalidations.lean ====
section
/-! DEFINITION. Shootdown: `tlbinv` (R364, R365, R370). -/
namespace Sys2Proof.Machine

/-- R364: the entries that match leave every TLB, and walks in progress end without filling one. -/
def State.shootdown (s : State) (t : TlbEntry → Bool) : State :=
  let s1 := s.tlbDrop t
  { s1 with dies := Vector.ofFn (fun i : Fin 6 => { s1.dies[i] with walks := [] }) }

/-- The frame of every kind: rights (R365), then the wait for the group's own stores and, once the entries are gone, for every access translated
through one; it is a full fence of `.pkg` scope (R364). -/
def tlbInvalidate (i : Instr) (s : State) (legal : Furrow → Bool) (t : Furrow → TlbEntry → Bool) : Out :=
  running i s (fun q u g =>
    if u.activeSet i g = 0 then s.skip i q g
    else if !legal u then trapNow s q g g.lanes 0x22 0
    else if u.storing g.lanes then .next (s.waitOn q g .fence)
    else if s.outstanding (t u) then .next ((s.shootdown (t u)).waitOn q g .fence)
    else ((s.shootdown (t u)).fullFence u g.lanes .pkg).skip i q g)

/-- Kinds 0 and 1 outside a service field and below level 3 name the context's own ASID only. -/
def State.ownAsid (s : State) (u : Furrow) (asid : Nat) : Bool :=
  s.isService u || u.level == 3 || (s.ctx? (s.ctxOf u)).any (fun c => c.tasid.toNat == asid)

/-- Kinds 2 and 3 belong to service fields and level 3. -/
def State.anyAsid (s : State) (u : Furrow) : Bool := s.isService u || u.level == 3

/-- The ASID a register names. -/
def Furrow.asidIn (u : Furrow) (a : Fin 64) : Nat := bitsOf (u.readW a.val).toNat 0 16

/-- R364 kind 0: entries of an ASID with G = 0. -/
def execTlbinvAsid (f : LR1) (s : State) : Out :=
  tlbInvalidate (.tlbinvAsid f) s (fun u => s.ownAsid u (u.asidIn f.a)) (fun u e => !e.g && e.asid == u.asidIn f.a)

/-- R364 kind 1: entries of an ASID, or with G = 1, that cover an address. -/
def execTlbinvPage (f : LR2) (s : State) : Out :=
  tlbInvalidate (.tlbinvPage f) s (fun u => s.ownAsid u (u.asidIn f.a)) (fun u e => e.hits (u.asidIn f.a) (u.readW f.b.val).toNat)

/-- R364 kind 2: every entry with G = 0. -/
def execTlbinvNong (f : LX0) (s : State) : Out := tlbInvalidate (.tlbinvNong f) s s.anyAsid (fun _ e => !e.g)

/-- R364 kind 3: every entry. -/
def execTlbinvAll (f : LX0) (s : State) : Out := tlbInvalidate (.tlbinvAll f) s s.anyAsid (fun _ _ => true)

end Sys2Proof.Machine
end

