-- ==== Sys2Proof/Machine/Crypto.lean ====
section
/-! DEFINITION. SHA-512 (FIPS 180-4) and Ed25519 in its pure form (RFC 8032), which R430, R436 and R439 name. -/
namespace Sys2Proof.Machine

/-! ### SHA-512 -/

/-- The largest number of at most k bits whose n-th power does not pass a bound, bit by bit from the top, above a part already found. -/
def rootBelow (n bound : Nat) : Nat → Nat → Nat
  | 0, r => r
  | k + 1, r => rootBelow n bound k (if (r + 2 ^ k) ^ n ≤ bound then r + 2 ^ k else r)

/-- Whether a number has no divisor from 2 up to k + 1 other than itself. -/
def noDivisor (m : Nat) : Nat → Bool
  | 0 => true
  | k + 1 => (m % (k + 2) != 0 || m == k + 2) && noDivisor m k

/-- The first eighty primes. -/
def eightyPrimes : List Nat := ((List.range 408).map (fun k => k + 2)).filter (fun m => noDivisor m 20)

/-- The first 64 bits of the fraction of a prime's n-th root. -/
def rootFraction (n m : Nat) : W64 := BitVec.ofNat 64 (rootBelow n (m * 2 ^ (64 * n)) 70 0)

/-- The round constants: fractions of the cube roots of the first eighty primes. -/
def shaRound : List W64 := eightyPrimes.map (rootFraction 3)
/-- The first hash value: fractions of the square roots of the first eight primes. -/
def shaStart : List W64 := (eightyPrimes.take 8).map (rootFraction 2)

/-- The number of bytes written with the most significant first. -/
def beNat (bs : List Byte) : Nat := leNat bs.reverse
/-- The n low bytes of a number, the most significant first. -/
def beBytes (n x : Nat) : List Byte := (leBytes n x).reverse

def shaSmall0 (x : W64) : W64 := x.rotateRight 1 ^^^ x.rotateRight 8 ^^^ x >>> 7
def shaSmall1 (x : W64) : W64 := x.rotateRight 19 ^^^ x.rotateRight 61 ^^^ x >>> 6
def shaBig0 (x : W64) : W64 := x.rotateRight 28 ^^^ x.rotateRight 34 ^^^ x.rotateRight 39
def shaBig1 (x : W64) : W64 := x.rotateRight 14 ^^^ x.rotateRight 18 ^^^ x.rotateRight 41

/-- The eight working words after one round with its constant and schedule word. -/
def shaStep : List W64 → W64 × W64 → List W64
  | [a, b, c, d, e, f, g, h], kw =>
    let t1 := h + shaBig1 e + ((e &&& f) ^^^ (~~~e &&& g)) + kw.1 + kw.2
    let t2 := shaBig0 a + ((a &&& b) ^^^ (a &&& c) ^^^ (b &&& c))
    [t1 + t2, a, b, c, d + t1, e, f, g]
  | ws, _ => ws

/-- The schedule's words, the newest first, after n more. -/
def shaSchedule : Nat → List W64 → List W64
  | 0, ws => ws
  | n + 1, ws => shaSchedule n ((shaSmall1 (ws.getD 1 0) + ws.getD 6 0 + shaSmall0 (ws.getD 14 0) + ws.getD 15 0) :: ws)

/-- The hash value after one block of 128 bytes. -/
def shaBlock (hash : List W64) (block : List Byte) : List W64 :=
  let m := (List.range 16).map (fun j => BitVec.ofNat 64 (beNat ((block.drop (8 * j)).take 8)))
  let w := (shaSchedule 64 m.reverse).reverse
  (hash.zip ((shaRound.zip w).foldl shaStep hash)).map (fun x => x.1 + x.2)

/-- The hash value after the first n blocks of a message. -/
def shaBlocks : Nat → List Byte → List W64 → List W64
  | 0, _, hash => hash
  | n + 1, bs, hash => shaBlocks n (bs.drop 128) (shaBlock hash (bs.take 128))

/-- A message with a one bit, zeros and its length in bits, a multiple of 128 bytes. -/
def shaPadded (bs : List Byte) : List Byte :=
  bs ++ (0x80 :: List.replicate ((239 - bs.length % 128) % 128) 0) ++ beBytes 16 (8 * bs.length)

/-- The SHA-512 digest, 64 bytes. -/
def sha512 (bs : List Byte) : List Byte :=
  let m := shaPadded bs
  ((shaBlocks (m.length / 128) m shaStart).map (fun w => beBytes 8 w.toNat)).flatten

/-! ### Ed25519 -/

/-- The prime of the field. -/
def edP : Nat := 2 ^ 255 - 19
/-- The order of the base point. -/
def edL : Nat := 2 ^ 252 + 27742317777372353535851937790883648493

/-- A product of squares modulo m: b to the power of the k low bits of e, times r. -/
def powMod (m : Nat) : Nat → Nat → Nat → Nat → Nat
  | 0, _, _, r => r
  | k + 1, b, e, r => powMod m k (b * b % m) (e / 2) (if e % 2 = 1 then r * b % m else r)

/-- A power in the field. -/
def edPow (b e : Nat) : Nat := powMod edP 256 (b % edP) e 1
/-- The inverse in the field. -/
def edInv (b : Nat) : Nat := edPow b (edP - 2)
/-- A difference in the field. -/
def edSub (a b : Nat) : Nat := (a + (edP - b % edP)) % edP
/-- The curve's constant d. -/
def edD : Nat := edSub 0 (121665 * edInv 121666 % edP)

/-- A point of the curve in extended coordinates. -/
structure EdPoint where
  x : Nat
  y : Nat
  z : Nat
  t : Nat
  deriving DecidableEq, Repr

/-- The neutral point. -/
def edZero : EdPoint := { x := 0, y := 1, z := 1, t := 0 }

/-- The sum of two points (RFC 8032 section 5.1.4), with the curve's d at hand. -/
def edAdd (d : Nat) (p q : EdPoint) : EdPoint :=
  let a := edSub p.y p.x * edSub q.y q.x % edP
  let b := (p.y + p.x) * (q.y + q.x) % edP
  let c := 2 * p.t * q.t * d % edP
  let z := 2 * p.z * q.z % edP
  let e := edSub b a
  let f := edSub z c
  let g := (z + c) % edP
  let h := (b + a) % edP
  { x := e * f % edP, y := g * h % edP, z := f * g % edP, t := e * h % edP }

/-- The k low bits of a scalar times a point, added to another. -/
def edMulAdd (d : Nat) : Nat → Nat → EdPoint → EdPoint → EdPoint
  | 0, _, _, r => r
  | k + 1, n, p, r => edMulAdd d k (n / 2) (edAdd d p p) (if n % 2 = 1 then edAdd d r p else r)

/-- A scalar times a point. -/
def edMul (n : Nat) (p : EdPoint) : EdPoint := edMulAdd edD 512 n p edZero

/-- Whether two points are equal. -/
def edSame (p q : EdPoint) : Bool := p.x * q.z % edP == q.x * p.z % edP && p.y * q.z % edP == q.y * p.z % edP

/-- The x that belongs to a y with its sign bit (RFC 8032 section 5.1.3). -/
def edRecover (y sign : Nat) : Option Nat :=
  if edP ≤ y then none
  else
    let u := edSub (y * y) 1
    let v := (edD * (y * y % edP) + 1) % edP
    let v3 := v * v % edP * v % edP
    let x := u * v3 % edP * edPow (u * (v3 * v3 % edP * v % edP) % edP) ((edP - 5) / 8) % edP
    let root := if v * (x * x) % edP = u then some x
      else if v * (x * x) % edP = edSub 0 u then some (x * edPow 2 ((edP - 1) / 4) % edP)
      else none
    match root with
    | none => none
    | some r => if r = 0 ∧ sign = 1 then none else some (if r % 2 = sign then r else edSub 0 r)

/-- A point from its 32 bytes, taken as a number. -/
def edDecode (n : Nat) : Option EdPoint :=
  let y := n % 2 ^ 255
  (edRecover y (n / 2 ^ 255 % 2)).map (fun x => { x := x, y := y, z := 1, t := x * y % edP })

/-- The 32 bytes of a point, as a number. -/
def edEncode (p : EdPoint) : Nat :=
  let i := edInv p.z
  p.y * i % edP + p.x * i % edP % 2 * 2 ^ 255

/-- The base point. -/
def edBase : EdPoint := (edDecode (4 * edInv 5 % edP)).getD edZero

/-- A secret key's scalar and prefix (RFC 8032 section 5.1.5). -/
def edExpand (secret : List Byte) : Nat × List Byte :=
  let h := sha512 secret
  (leNat (h.take 32) % 2 ^ 254 / 8 * 8 + 2 ^ 254, h.drop 32)

/-- The public key of a secret key, 32 bytes. -/
def ed25519Public (secret : List Byte) : List Byte := leBytes 32 (edEncode (edMul (edExpand secret).1 edBase))

/-- The signature of a message, 64 bytes (RFC 8032 section 5.1.6). -/
def ed25519Sign (secret msg : List Byte) : List Byte :=
  let a := edExpand secret
  let key := leBytes 32 (edEncode (edMul a.1 edBase))
  let r := leNat (sha512 (a.2 ++ msg)) % edL
  let point := leBytes 32 (edEncode (edMul r edBase))
  let k := leNat (sha512 (point ++ key ++ msg)) % edL
  point ++ leBytes 32 ((r + k * a.1) % edL)

/-- Whether a signature of a message verifies under a public key (RFC 8032 section 5.1.7, with the cofactor in the group equation). -/
def ed25519Verifies (key msg sig : List Byte) : Bool :=
  let sc := leNat (sig.drop 32)
  match edDecode (leNat key), edDecode (leNat (sig.take 32)) with
  | some a, some r =>
    let k := leNat (sha512 (sig.take 32 ++ key ++ msg)) % edL
    sig.length == 64 && key.length == 32 && decide (sc < edL) && edSame (edMul (8 * sc) edBase) (edAdd edD (edMul 8 r) (edMul (8 * k) a))
  | _, _ => false

end Sys2Proof.Machine
end

