-- ==== Sys2Proof/Machine/Management.lean ====
section
/-! DEFINITION. The host's side: register blocks (R418), management commands (R416, R422, R423, R430, R434, R436 to R440), the scrub that ends
a quad's reassignment (R413, R414), detach and re-attach (R424 to R427), and the debug mailbox (R440). -/
namespace Sys2Proof.Machine

/-! ### Register writes (R418, R426) -/

/-- Retained records of a queue written in order, each followed by its vector (R426); those that waited for room go on (R425). -/
def State.releaseRecords (s : State) (vf q : Nat) : State :=
  let mine := (s.vf vf).retained.filter (fun r => r.queue == q && r.pa.isNone)
  let s1 := s.onVf vf (fun v => { v with retained := v.retained.filter (fun r => !mine.contains r) })
  (mine.foldl (fun s r => s.writeRecord (vf + 1) q r.done r.bytes) s1).settleRecords

/-- A claim of a queue with a generation (R426): the present one restores the queue, any other is refused, for a queue that is not orphaned too
(DEDUCED, log 120). -/
def State.claimQueue (s : State) (vf q gen : Nat) : State :=
  if 1024 ≤ vf ∨ 8 ≤ q ∨ !s.vfUsable vf then s
  else if gen = ((s.vf vf).queue q).gen then
    (s.onQueue vf q (fun k => { k with gen := (k.gen + 1) % 2 ^ 32, claimst := 1, orphaned := false })).releaseRecords vf q
  else s.onQueue vf q (fun k => { k with claimst := 2 })

/-- R426: a write to `SQ_CLAIM`. -/
def execSqClaim (vf q gen : Nat) (s : State) : Out := .next (s.claimQueue vf q gen)

/-- `SQ_CTL` written: a reserved LOG2N leaves EN at 0 (R418). -/
def Sq.control (k : Sq) (x : Nat) : Sq := { k with en := x.testBit 31 && decide (4 ≤ x % 16), log2n := x % 16 }

/-- One half of a 64-bit register replaced. -/
def setHalf (old : BitVec 64) (high : Bool) (x : Nat) : BitVec 64 :=
  if high then BitVec.ofNat 64 (x % 2 ^ 32 * 2 ^ 32 + old.toNat % 2 ^ 32) else BitVec.ofNat 64 (old.toNat / 2 ^ 32 * 2 ^ 32 + x % 2 ^ 32)

/-- A write of 32 bits at an offset of a VF's block (R418): read-only registers and reserved fields ignore it. -/
def State.writeVfWord (s : State) (vf off x : Nat) : State :=
  let q := (off - 0x100) / 0x20
  let r := (off - 0x100) % 0x20
  let k := (s.vf vf).queue q
  if 1024 ≤ vf ∨ !s.vfUsable vf then s
  else if off = 0x10 then s.onVf vf (fun v => { v with event := v.event &&& ~~~(BitVec.ofNat 7 x) })
  else if off < 0x100 ∨ 8 ≤ q then s
  else if r = 0x0C then s.writeTail vf q x
  else if r = 0x18 then s.claimQueue vf q x
  else if k.en ∨ k.orphaned then s
  else if r = 0 ∨ r = 4 then s.onQueue vf q (fun k => { k with base := setHalf k.base (r == 4) x &&& 0xFFFFFFFFFFFFF000#64 })
  else if r = 8 then s.onQueue vf q (fun k => k.control x)
  else s

/-- What a host reads of 32 bits at an offset of a VF's block (R418): write-only registers and reserved fields read 0, as does the LD of a VF that is bound
to none (log 73). -/
def State.readVfWord (s : State) (vf off : Nat) : Nat :=
  let v := s.vf vf
  let k := v.queue ((off - 0x100) / 0x20)
  if off = 0 then (v.ld.getD 0) * 2 ^ 16 + vf
  else if off = 8 then (v.queues.toList.any Sq.orphaned).toNat * 4 + (s.ctx? (vf + 1)).isSome.toNat * 2 + s.ready.toNat
  else if off = 0x10 then v.event.toNat
  else if off < 0x100 ∨ 0x200 ≤ off then 0
  else
    let r := off % 0x20
    if r = 0 then k.base.toNat % 2 ^ 32
    else if r = 4 then k.base.toNat / 2 ^ 32
    else if r = 8 then k.en.toNat * 2 ^ 31 + k.log2n
    else if r = 0x0C then k.tail
    else if r = 0x10 then k.head
    else if r = 0x14 then k.gen
    else if r = 0x1C then k.claimst
    else 0

/-- Marks an offset whose access is 64 bits wide. -/
def wideAccess : Nat := 0x10000

/-- A host's read at an offset, of 64 bits where it is so marked; none where it is not naturally aligned or outside the block. -/
def State.readVf (s : State) (vf off : Nat) : Option (BitVec 64) :=
  if off < 0x4000 ∧ off % 4 = 0 then some (BitVec.ofNat 64 (s.readVfWord vf off))
  else if wideAccess ≤ off ∧ off < wideAccess + 0x4000 ∧ off % 8 = 0 then
    some (BitVec.ofNat 64 (s.readVfWord vf (off - wideAccess) + s.readVfWord vf (off - wideAccess + 4) * 2 ^ 32))
  else none

/-- A write of a host by its 32-bit words, the lower first (log 73). -/
def writeWords (k : State → Nat → Nat → State) (off val : Nat) (s : State) : State :=
  if off < 0x4000 ∧ off % 4 = 0 then k s off (val % 2 ^ 32)
  else if wideAccess ≤ off ∧ off < wideAccess + 0x4000 ∧ off % 8 = 0 then
    k (k s (off - wideAccess) (val % 2 ^ 32)) (off - wideAccess + 4) (val / 2 ^ 32 % 2 ^ 32)
  else s

/-- Whether a write of `TASID_S` must wait for accesses translated under the old ASID (R349, R364). -/
def State.asidBusy (s : State) (ctx asid : Nat) : Bool :=
  s.asidFree ctx (BitVec.ofNat 16 asid) && s.outstanding (TlbEntry.ofAsid (s.asidOf ctx))

/-- R349: `TASID_S` written at level 3; it takes effect once no access under the old ASID is outstanding. -/
def execTasidSWrite (ctx asid : Nat) (s : State) : Out :=
  .next (if (s.ctx? ctx).isNone then s
    else if s.asidBusy ctx asid then { s with deferred := s.deferred ++ [(.tasidSWrite ctx asid, [])] }
    else s.writeAsid ctx (BitVec.ofNat 16 asid))

/-! ### Management commands (R422) -/

/-- Status codes of `PF_RESULT` word 0. -/
def stOK : Nat := 0
def stBUSY : Nat := 1
def stDENIED : Nat := 2
def stBADARG : Nat := 3
def stNOTREADY : Nat := 4

/-- A command completes: its status, the further result words it writes, and `PF_SEQ` (R422). -/
def State.complete (s : State) (pf status : Nat) (words : List (BitVec 64)) : State :=
  s.onLd pf (fun l => { l with
    result := Vector.ofFn (fun i : Fin 16 => if i.val = 0 then BitVec.ofNat 64 status else (words[i.val - 1]?).getD l.result[i]),
    seq := l.seq + 1, serving := none })

/-- Whether a command of a PF may be served: it is in service already, or the PF's host submits it and none of its own is in service. A `QUAD_ASSIGN` is
until its scrub has completed. -/
def State.pfFree (s : State) (pf : Nat) (i : Instr) : Bool :=
  decide (pf < 16) && ((s.ld pf).serving == some i
    || ((s.ld pf).attached && (s.ld pf).serving.isNone && !s.quads.any (fun q => q.scrub.any (fun x => x.2 == pf))))

/-- A command other than `FW_OFFER`: NOTREADY before the package is ready or while the LD is not usable (R422, R437). -/
def State.command (s : State) (pf : Nat) (i : Instr) (k : State → State) : State :=
  if !s.pfFree pf i then s
  else if !s.ready ∨ !(s.ld pf).usable then s.complete pf stNOTREADY []
  else k s

/-- A command on a VF: BADARG for a number that names none, DENIED for a VF of another LD (R416). -/
def State.vfCommand (s : State) (pf vf : Nat) (i : Instr) (k : State → State) : State :=
  s.command pf i (fun s =>
    if 1024 ≤ vf then s.complete pf stBADARG []
    else if (s.vf vf).ld ≠ some pf then s.complete pf stDENIED []
    else k s)

/-- A command that needs the VF's context: BADARG without one. -/
def State.ctxCommand (s : State) (pf vf : Nat) (i : Instr) (k : State → Ctx → State) : State :=
  s.vfCommand pf vf i (fun s =>
    match s.ctx? (vf + 1) with
    | none => s.complete pf stBADARG []
    | some c => k s c)

/-- A command that stays in service for now. -/
def State.serveOn (s : State) (pf : Nat) (i : Instr) : State := s.onLd pf (fun l => { l with serving := some i })

/-- A command that reads some sectors: it stays in service until the base die may read them (R372). -/
def State.whenPfRead (s : State) (pf : Nat) (i : Instr) (secs : List Nat) (k : State → State) : State :=
  if (s.baseLacking secs).isEmpty then s.whenRead i secs k else (s.serveOn pf i).whenRead i secs k

/-- A write of 32 bits at an offset of a PF's block (R422): the command buffer, or the doorbell. An opcode that names no command returns BADARG; each
command of the table is an event of its own (log 97). -/
def State.writePfWord (i : Instr) (s : State) (pf off x : Nat) : State :=
  if 16 ≤ pf ∨ !(s.ld pf).attached then s
  else if off < 0x40 then
    s.onLd pf (fun l => { l with cmd := l.cmd.set (Fin.ofNat 8 (off / 8)) (setHalf (l.cmd[Fin.ofNat 8 (off / 8)]) (off % 8 == 4) x) })
  else if off = 0x40 then
    let op := bitsOf ((s.ld pf).cmd[(0 : Fin 8)]).toNat 0 16
    if 1 ≤ op ∧ op ≤ 0x0B then s else s.command pf i (fun s => s.complete pf stBADARG [])
  else s

/-- What a host reads of 32 bits at an offset of a PF's block (R422). -/
def State.readPfWord (s : State) (pf off : Nat) : Nat :=
  let l := s.ld pf
  let half := fun (x : BitVec 64) => if off % 8 = 4 then x.toNat / 2 ^ 32 else x.toNat % 2 ^ 32
  if off < 0x40 then half (l.cmd[Fin.ofNat 8 (off / 8)])
  else if 0x80 ≤ off ∧ off < 0x100 then half (l.result[Fin.ofNat 16 ((off - 0x80) / 8)])
  else if off = 0x100 then l.seq.toNat
  else 0

/-- R418, R422: a host writes a register of a VF, or with 1024 added to its number of a PF (log 73). -/
def execRegisterWrite (vf off val : Nat) (s : State) : Out :=
  .next (writeWords (fun s o x => if vf < 1024 then s.writeVfWord vf o x else s.writePfWord (.registerWrite vf off val) (vf - 1024) o x) off val s)

/-- PA of a host physical address of an LD's own host (R119, R422). -/
def State.hostPa (s : State) (pf addr : Nat) : Nat := 2 * 2 ^ 50 + ((s.ld pf).host.getD 0) * 2 ^ 46 + addr % 2 ^ 46

/-- Bytes of a PF's own host. -/
def State.hostBytes (s : State) (pf addr n : Nat) : List Byte := s.baseBytes (s.hostPa pf addr) n

/-! ### Contexts (R417, R422, R423) -/

/-- The bits of `TROOT_S` and of the trap vectors that are not reserved (R6, R317, R348). -/
def trootBits : W64 := 0x000FFFFFFFFFF000#64
def tvecBits : W64 := 0x01FFFFFFFFFFFFFF#64

/-- A context from its descriptor (R423), with the registers' values at context creation. -/
def ctxOfDescr (vf : Nat) (d : List Byte) : Ctx :=
  let n := imageNum d
  { ctx := vf + 1, part := n 2 1, classMin := n 3 1, orphan := n 4 4, troot := BitVec.ofNat 64 (n 8 8) &&& trootBits, save := n 0x10 8,
    saveSize := n 0x18 8, mbox := BitVec.ofNat 64 (n 0x20 8), tasid := BitVec.ofNat 16 (n 0 2), tvecH := Config.firmwareBase &&& tvecBits }

/-- Limits of a descriptor (R423). -/
def State.descrOk (s : State) (c : Ctx) : Bool :=
  !s.ctxs.any (fun x => x.tasid == c.tasid) && !(decide (0xFFF0 ≤ c.tasid.toNat ∧ c.tasid.toNat ≤ 0xFFF5)) && decide (c.part ≤ 39)
    && s.quads.any (fun q => q.part == some c.part) && decide (c.classMin ≤ 3) && decide (c.orphan ≤ 86400) && c.save % 4096 == 0
    && decide (0x4000 ≤ c.saveSize) && s.isLocal c.save && s.isLocal (c.save + c.saveSize - 1) && c.mbox.toNat % 4096 == 0

/-- R423: a context is created; its counter block starts at 0 (R86) with no image in use, and the generations of its queues at 1. -/
def execCtxCreate (pf vf descr : Nat) (s : State) : Out :=
  .next (s.vfCommand pf vf (.ctxCreate pf vf descr) (fun s =>
    if (s.ctx? (vf + 1)).isSome then s.complete pf stBUSY []
    else
      s.whenPfRead pf (.ctxCreate pf vf descr) (sectorsOf (s.hostPa pf descr) 64) (fun s =>
        let c := ctxOfDescr vf (s.hostBytes pf descr 64)
        if s.poisoned (s.hostPa pf descr) 64 ∨ !s.descrOk c then s.complete pf stBADARG []
        else
          let s1 := { s with ctxs := s.ctxs ++ [c] }
          let s2 := (s1.baseWrite c.save (List.replicate 0x3608 0)).onVf vf (fun v => { v with
            queues := Vector.ofFn (fun i : Fin 8 => { v.queues[i] with gen := 1, claimst := 0, consumed := 0, orphaned := false }) })
          s2.complete pf stOK [])))

/-- Whether a context still has fields, or records to be written. -/
def State.busyCtx (s : State) (ctx : Nat) : Bool := s.fields.any (fun f => f.ctx == ctx) || s.records.any (fun r => r.1 == ctx)

/-- What a context that has gone leaves behind: its reuse entries and counters leave every core (R422). -/
def State.forgetCtx (s : State) (ctx : Nat) : State :=
  { s with
    ctxs := s.ctxs.filter (fun c => c.ctx != ctx),
    colls := s.colls.filter (fun k => k.ctx != ctx),
    cores := s.cores.map (fun (c : Core) => { c with
      reuse := Vector.ofFn (fun q : Fin 4 => c.reuse[q].filter (fun e => e.ctx != ctx)), counters := c.counters.filter (fun x => x.1 != ctx) }) }

/-- Records of a context that is to go: those that can be written are, the others keep the physical address of their DONE (R425: no record is lost). -/
def State.keepRecords (s : State) (vf : Nat) : State :=
  let s1 := (List.range 8).foldl (fun s q => s.releaseRecords vf q) s
  s1.onVf vf (fun v => { v with retained := v.retained.map (fun r => { r with pa := r.pa.or (s1.heldAt (vf + 1) r.done) }) })

/-- R422: every scheme of a context ends with CANCELLED; the command stays in service until its last field has retired and its records are written or
retained, and then the context goes. -/
def execCtxDestroy (pf vf : Nat) (s : State) : Out :=
  .next (s.ctxCommand pf vf (.ctxDestroy pf vf) (fun s c =>
    let s1 := s.endContext c.ctx { code := 5, detail := 0, loc := 0 }
    if s1.busyCtx c.ctx then s1.serveOn pf (.ctxDestroy pf vf)
    else ((s1.keepRecords vf).forgetCtx c.ctx).complete pf stOK []))

/-- A rank table entry from its 32 bytes (R430). -/
def RankEntry.ofBytes (bs : List Byte) : RankEntry :=
  let n := imageNum bs
  { kind := n 0 1, pkg := n 1 1, ctx := n 2 2, reach := n 4 4 % 16, fieldIx := n 8 4, dqpn := n 12 4, addr := n 16 16 }

/-- R430: a group's rank table is copied; BUSY while a collective of that GID runs. -/
def execGroupSet (pf vf gid ranks timeout table : Nat) (s : State) : Out :=
  .next (s.ctxCommand pf vf (.groupSet pf vf gid ranks timeout table) (fun s c =>
    if 65536 ≤ gid ∨ ranks < 2 ∨ 4096 < ranks ∨ timeout < 1 ∨ 60000000 < timeout then s.complete pf stBADARG []
    else if s.colls.any (fun k => k.ctx == c.ctx && k.gid == gid && k.started) then s.complete pf stBUSY []
    else
      s.whenPfRead pf (.groupSet pf vf gid ranks timeout table) (sectorsOf (s.hostPa pf table) (32 * ranks)) (fun s =>
        let es := (List.range ranks).map (fun k => RankEntry.ofBytes (s.hostBytes pf (table + 32 * k) 32))
        if s.poisoned (s.hostPa pf table) (32 * ranks) ∨ es.any (fun e => decide (1 < e.kind)) then s.complete pf stBADARG []
        else (s.onCtx c.ctx (fun c => { c with groups := (gid, timeout, es) :: c.groups.filter (fun g => g.1 != gid) })).complete pf stOK [])))

/-- A queue reset (R426, R427): its schemes end with CANCELLED and its retained records are written, where its LD is attached. -/
def State.resetQueue (s : State) (vf q : Nat) : State :=
  let s1 := (s.schemes.filter (fun x => x.ctx == vf + 1 && x.queue == q && x.ended.isNone)).foldl (fun s x => s.endSchemeNow x.id 5) s
  let s2 := if (s.vf vf).ld.any (fun l => (s.ld l).attached) then s1.releaseRecords vf q else s1
  s2.onQueue vf q (fun k => { k with en := false, head := 0, tail := 0, gen := (k.gen + 1) % 2 ^ 32, orphaned := false })

/-- R426: `QUEUE_RESET`. -/
def execQueueReset (pf vf q : Nat) (s : State) : Out :=
  .next (s.ctxCommand pf vf (.queueReset pf vf q) (fun s _ => if 8 ≤ q then s.complete pf stBADARG [] else (s.resetQueue vf q).complete pf stOK []))

/-! ### Partitions (R413, R414, R416) -/

/-- User fields with room on a quad's cores. -/
def State.quadFields (s : State) (quad : Nat) : List Field := ((List.range 4).map (fun j => s.userFields (4 * quad + j))).flatten

/-- R413, R414, R416: a quad is to join a partition: its user fields are pre-empted, and the scrub follows. -/
def execQuadAssign (pf quad part : Nat) (s : State) : Out :=
  .next (s.command pf (.quadAssign pf quad part) (fun s =>
    if s.mgmt ≠ pf then s.complete pf stDENIED []
    else if 72 ≤ quad ∨ (39 < part ∧ part ≠ 0xFF) ∨ (s.die (quad / 12)).excluded then s.complete pf stBADARG []
    else if (s.quad quad).scrub.isSome then s.complete pf stBUSY []
    else
      (s.onQuad quad (fun q => { q with scrub := some (if part = 0xFF then none else some part, pf) })).collect
        ((s.quadFields quad).map Field.id)))

/-- A core's tables and caches emptied by the scrub (R414). -/
def Core.scrub (c : Core) : Core :=
  { c with reuse := Vector.replicate 4 [], l1 := [], tlb := [], tlb0 := Vector.replicate 4 [] }

/-- R414: once no user field is left on a quad it is scrubbed, and joins its new partition; the `QUAD_ASSIGN` completes. -/
def execScrubComplete (quad : Nat) (s : State) : Out :=
  .next (match (s.quad quad).scrub with
    | none => s
    | some (part, pf) =>
      if !(s.quadFields quad).isEmpty then s
      else
        let s1 := s.onQuad quad (fun q => { q with part := part, scrub := none })
        ({ s1 with cores := s1.cores.map (fun (c : Core) => if quadOf c.ix = quad then c.scrub else c) } : State).complete pf stOK [])

/-! ### Counters, links, bindings (R416, R422, R434) -/

/-- The eight counters in order, each saturated (R434). -/
def ErrCounters.words (e : ErrCounters) : List (BitVec 64) :=
  [e.corrected, e.rebuilt, e.poisoned, e.recoveries, e.recreated, e.dropped, e.retries, e.redos].map (fun n => BitVec.ofNat 64 (min n (2 ^ 64 - 1)))

/-- R434: the error counters of a die, or of the base die. -/
def execCountersRead (pf die : Nat) (s : State) : Out :=
  .next (s.command pf (.countersRead pf die) (fun s =>
    if 6 < die then s.complete pf stBADARG []
    else s.complete pf stOK (if die = 6 then s.baseErrs.words else (s.die die).errs.words)))

/-- R422: the ports that are up. -/
def execLinkStatus (pf : Nat) (s : State) : Out :=
  .next (s.command pf (.linkStatus pf) (fun s => s.complete pf stOK [BitVec.ofNat 64 (s.ether.toNat * 65536 + s.links.toNat)]))

/-- R416: a VF without a context, bound to no LD or to the PF's own, is bound to an LD by the PF that holds the management right. -/
def execVfBind (pf vf ld : Nat) (s : State) : Out :=
  .next (s.command pf (.vfBind pf vf ld) (fun s =>
    if s.mgmt ≠ pf then s.complete pf stDENIED []
    else if 1024 ≤ vf ∨ 16 ≤ ld then s.complete pf stBADARG []
    else if (s.ctx? (vf + 1)).isSome ∨ (s.vf vf).ld.any (fun l => l != pf) then s.complete pf stDENIED []
    else (s.onVf vf (fun v => { v with ld := some ld })).complete pf stOK []))

/-! ### Firmware (R436 to R439, R443) -/

/-- Bytes with the signature taken as 0. -/
def unsigned (bs : List Byte) : List Byte := bs.take 0x40 ++ List.replicate 64 0 ++ bs.drop 0x80

/-- The fused public key that an identifier names, the first 8 bytes of its digest; none where no key has it, or that key is revoked (R436). -/
def fusedKey (id : Nat) : Option (List Byte) :=
  ((List.range 4).find? (fun k => !Config.keyRevoked k && leNat ((sha512 (leBytes 32 (Config.fusedKey k))).take 8) == id)).map
    (fun k => leBytes 32 (Config.fusedKey k))

/-- Whether an image is valid (R436). -/
def imageValid (fusedMin size : Nat) (bs : List Byte) : Bool :=
  let n := imageNum bs
  size % 4096 == 0 && decide (0 < size ∧ size ≤ 2 ^ 26) && n 0 4 == 0x46394D4B && n 4 4 == 1 && n 16 8 == size && n 0x20 32 == 0
    && decide (fusedMin ≤ n 12 4) && (fusedKey (n 24 8)).any (fun key => ed25519Verifies key (sha512 (unsigned bs)) ((bs.drop 0x40).take 64))

/-- An image as it runs. -/
def firmwareOf (bs : List Byte) : Firmware := { version := imageNum bs 8 4, secver := imageNum bs 12 4, digest := leNat (sha512 bs) }

/-- What an offer comes to (R437): 0 SAME, 1 SWITCH, 2 KEEP, 3 REJECT. -/
def offerResult (running : Option Firmware) (valid : Bool) (f : Firmware) : Nat :=
  if !valid then 3
  else match running with
    | none => 1
    | some r => if r.digest = f.digest then 0 else if r.version < f.version then 1 else 2

/-- The service context of a die (R369, R443 step 7), with the values at context creation (R313, R444). -/
def serviceCtx (die : Nat) (root : BitVec 64) (save saveSize : Nat) : Ctx :=
  { ctx := 0xFFF0 + die, service := true, troot := root &&& trootBits, tasid := BitVec.ofNat 16 (0xFFF0 + die), tvecH := Config.firmwareBase &&& tvecBits,
    save := save, saveSize := saveSize }

/-- The service context of each die that is not excluded, where it does not exist yet: as the image's service fields of the die have it, else as the
firmware gives it (log 122). -/
def State.buildService (s : State) : State :=
  (List.range 6).foldl (fun s d =>
    if (s.ctx? (0xFFF0 + d)).isSome || (s.die d).excluded then s
    else
      let c := match s.service.find? (fun x => x.die == d && x.version == s.version) with
        | some x => serviceCtx d x.troot x.save x.saveSize
        | none => serviceCtx d (Config.serviceRoot d) (Config.serviceSave d).1 (Config.serviceSave d).2
      { s with ctxs := s.ctxs ++ [c] }) s

/-- The switch of one die (R438): the new fields are listed, old fields already waiting for an entry end, and the new ones start where there is
room. -/
def State.switchDie (s : State) (die : Nat) : State :=
  if (s.die die).excluded then { s with fwDies := s.fwDies.set (Fin.ofNat 6 die) false }
  else
    let s1 := s.serviceAdd die
    let old := s1.fields.filter (fun f => s1.isOld f && dieOf f.core == die)
    let s2 := (old.filter (fun f => s1.takes f none)).foldl (fun s f => s.endField f.id) s1
    (s2.serviceStart die).switchDone die

/-- The faults that a die's tests met, counted with its others (R434, R443). -/
def ErrCounters.add (a b : ErrCounters) : ErrCounters :=
  { corrected := a.corrected + b.corrected, rebuilt := a.rebuilt + b.rebuilt, poisoned := a.poisoned + b.poisoned, recoveries := a.recoveries + b.recoveries,
    recreated := a.recreated + b.recreated, dropped := a.dropped + b.dropped, retries := a.retries + b.retries, redos := a.redos + b.redos }

/-- Bring-up up to its training (R443 steps 5 and 6): dies that fail their tests are excluded, their counters reporting the faults, ports come up, and the
fabric manager assigns the package's index. -/
def State.bringUp (s : State) : State :=
  { s with
    pkg := if s.fabric.pod.isEmpty then 0 else s.fabric.pkg % 256, pod := s.fabric.pod, links := s.fabric.links, ether := s.fabric.ether,
    dies := Vector.ofFn (fun i : Fin 6 => match s.fabric.failed.find? (fun x => x.1 == i.val) with
      | some x => { s.dies[i] with excluded := true, errs := s.dies[i].errs.add x.2 }
      | none => s.dies[i]) }

/-- A new image runs (R437, R438); the first one also brings the package up and drains `COH_MODE` towards 0 (R443 steps 5 to 7). -/
def State.switchTo (s : State) (f : Firmware) : State :=
  let first := s.firmware.isNone
  let s0 := if first then s.bringUp else s
  let s1 := { s0 with firmware := some f, fusedMin := max s.fusedMin f.secver, fwDies := Vector.replicate 6 true,
                      cohNext := if first then some false else s.cohNext }
  (List.range 6).foldl State.switchDie s1.buildService

/-- Records kept for contexts that are gone, written once the host of their DONE address is there again, each followed by its vector (R425). -/
def State.releaseKept (s : State) : State :=
  s.vfs.foldl (fun s v =>
    let free := v.retained.filter (fun r => r.pa.any (fun pa => s.place pa != .bad))
    free.foldl (fun s r => s.baseWriteIrq [(r.pa.getD 0, 32)] r.bytes v.ix r.queue)
      (s.onVf v.ix (fun v => { v with retained := v.retained.filter (fun r => !free.contains r) }))) s

/-- An LD becomes usable (R437); at a re-attach its VFs that have a context get REATTACH, and records of queues reset meanwhile are written
(R426, R427). -/
def State.usableLd (s : State) (ld : Nat) : State :=
  let back := !(s.ld ld).usable
  let s1 := s.onLd ld (fun l => { l with usable := true })
  if !back then s1
  else (s1.vfs.filter (fun v => v.ld == some ld && (s1.ctx? (v.ix + 1)).isSome)).foldl (fun s v =>
    (List.range 8).foldl (fun s q => if ((s.vf v.ix).queue q).orphaned then s else s.releaseRecords v.ix q) (s.setEvent v.ix 2)) s1.releaseKept

/-- R436 to R438, R443: an image is offered and judged, once it can be read; PF_RESULT word 1 holds the result. -/
def execFwOffer (pf addr size : Nat) (s : State) : Out :=
  .next (if !s.pfFree pf (.fwOffer pf addr size) then s
    else s.whenPfRead pf (.fwOffer pf addr size) (sectorsOf (s.hostPa pf addr) size) (fun s =>
      let bs := s.hostBytes pf addr size
      let r := offerResult s.firmware (imageValid s.fusedMin size bs && !s.poisoned (s.hostPa pf addr) size) (firmwareOf bs)
      let s1 := if r = 1 then s.switchTo (firmwareOf bs) else s
      (if r = 3 then s1 else s1.usableLd pf).complete pf stOK [BitVec.ofNat 64 r]))

/-- The partition assignment and the binding as bytes; their form is the model's (log 14). -/
def State.assignmentBytes (s : State) : List Byte :=
  ((List.range 72).map (fun q => leBytes 1 (((s.quad q).part.map (fun p => p + 1)).getD 0))).flatten
    ++ ((List.range 1024).map (fun v => leBytes 1 (((s.vf v).ld.map (fun l => l + 1)).getD 0))).flatten

/-- The secret key of the device's identity (R439). -/
def identitySecret : List Byte := leBytes 32 Config.identitySecret

/-- Bytes 0 to 0xCF of a report (R439). -/
def State.reportBytes (s : State) (f : Firmware) (nonce : List Byte) : List Byte :=
  leBytes 4 1 ++ leBytes 4 f.version ++ leBytes 4 f.secver ++ leBytes 4 0 ++ (nonce ++ List.replicate 32 0).take 32 ++ leBytes 64 f.digest
    ++ sha512 s.assignmentBytes ++ ed25519Public identitySecret

/-- R439: the report is written to the PF's host. -/
def execAttest (pf addr : Nat) (nonce : List Byte) (s : State) : Out :=
  .next (s.command pf (.attest pf addr nonce) (fun s =>
    match s.firmware with
    | none => s.complete pf stNOTREADY []
    | some f =>
      let r := s.reportBytes f nonce
      (s.baseWrite (s.hostPa pf addr) (r ++ ed25519Sign identitySecret (sha512 r))).complete pf stOK []))

/-! ### The debug mailbox (R440) -/

/-- The physical address of an offset of a context's mailbox page, when it translates. -/
def State.mailbox (s : State) (c : Ctx) (off : Nat) : Option Nat :=
  if c.mbox = 0 then none
  else match s.baseXlat c.ctx (c.mbox.toNat + off) { write := true } with
    | some pa => if s.isLocal pa then some pa else none
    | none => none

/-- The sectors read for a TAIL of a mailbox page: its walk and the TAIL itself. -/
def State.mailboxReads (s : State) (c : Ctx) (off : Nat) : List Nat :=
  if c.mbox = 0 then [] else (s.baseFoot c.ctx (c.mbox.toNat + off, 4, { write := true })).filter s.isLocal

/-- R440: a message appended to the host-to-device half, its TAIL raised after it. -/
def execDbgWrite (pf vf : Nat) (msg : List Byte) (s : State) : Out :=
  .next (s.ctxCommand pf vf (.dbgWrite pf vf msg) (fun s c =>
    s.whenPfRead pf (.dbgWrite pf vf msg) (s.mailboxReads c 0x800) (fun s =>
      match s.mailbox c 0x800 with
      | none => s.complete pf stBADARG []
      | some pa =>
        let tail := s.baseNum pa 4
        let s1 := s.baseWrite (pa + 0x40 + 32 * (tail % 62)) ((msg ++ List.replicate 32 0).take 32)
        (s1.baseWrite pa (leBytes 4 (tail + 1))).complete pf stOK [])))

/-- The ditchriders' look at a context's TAIL: new messages are copied to the host, and DEBUG is set. -/
def State.observeTail (s : State) (c : Ctx) : State :=
  match s.mailbox c 0 with
  | none => s
  | some pa =>
    let tail := s.baseNum pa 4
    if c.service ∨ tail = c.mboxSeen then s
    else (s.onCtx c.ctx (fun c => { c with mboxSeen := tail })).setEvent (vfOfCtx c.ctx) 0

/-- R440: the ditchriders observe the device's TAIL, copy the new messages to the host, and set DEBUG. -/
def execMailboxTailObserve (ctx : Nat) (s : State) : Out :=
  .next (match s.ctx? ctx with
    | none => s
    | some c => s.whenRead (.mailboxTailObserve ctx) (s.mailboxReads c 0) (fun s => s.observeTail c))

end Sys2Proof.Machine
end

