-- ==== Sys2Proof/Machine/Package.lean ====
section
/-! DEFINITION. The events of the package and its links: logical devices that detach and re-attach (R424 to R427), ports that fail (R428), the
fabric manager (R416), requests of hosts and other packages (R392, R394), power, heat and reset (R441 to R443). -/
namespace Sys2Proof.Machine

/-! ### Detach and re-attach (R424 to R427) -/

/-- The package's cached part of a host-homed line discarded with its tokens (R424): L1 copies, messages and the token record go, and what the package has
written with them; the host's memory holds what it last got. -/
def State.discardLine (s : State) (pa : Nat) : State :=
  let s1 := match (s.sector pa).homeCopy with
    | some bs => (s.dropL1 (fun _ => true) pa).writeBytes (sectorOf pa) bs
    | none => s.dropL1 (fun _ => true) pa
  { s1 with sectors := s1.sectors.filter (fun x => x.pa != pa), net := s1.net.filter (fun m => m.sector != pa) }

/-- A posted store's writes to lines that are no longer there are dropped with those lines (R424, log 35). -/
def State.dropPostedTo (s : State) (gone : Nat → Bool) : State :=
  { s with furrows := s.furrows.map (fun f => if f.posted.isEmpty then f else
      let keep := f.posted.map (fun (p : Posted) => { p with writes := p.writes.filter (fun w => !gone w.pa) })
      ({ f with posted := keep.filter (fun p => !p.writes.isEmpty) } : Furrow).settleClauses) }

/-- Lines of this package that a host held count as tokens lost at the CXL agent (R424, R383). -/
def State.loseHostCopies (s : State) (h : Nat) : State :=
  (s.sectors.filter (fun x => x.hosts.contains h)).foldl (fun s x =>
    (s.setSector { s.sector x.pa with hosts := (s.sector x.pa).hosts.filter (fun k => k != h) }).loseTokens 14 x.pa false) s

/-- The queues of an LD's VFs that have a context become orphaned (R426). -/
def State.orphanQueues (s : State) (ld : Nat) : State :=
  (s.vfs.filter (fun v => v.ld == some ld && (s.ctx? (v.ix + 1)).isSome)).foldl (fun s v =>
    s.onVf v.ix (fun v => { v with queues := Vector.ofFn (fun i : Fin 8 => { v.queues[i] with orphaned := true }) })) s

/-- R424: an LD detaches; its contexts run on. -/
def execLdDetach (ld : Nat) (s : State) : Out :=
  .next (match (s.ld ld).host with
    | none => s
    | some h =>
      if !(s.ld ld).attached then s
      else
        let mine := (s.sectors.filter (fun x => s.place x.pa == Place.host h)).map Sector.pa
        let gone := fun pa => s.place pa == Place.host h
        let s0 := (s.loseHostCopies h).dropPostedTo gone
        let s1 := { s0 with outer := s0.outer.filter (fun o => !gone o.pa && o.kind != .cxl h) }
        let s2 := mine.foldl State.discardLine s1
        (s2.onLd ld (fun l => { l with attached := false, usable := false, detachedAt := s.cycles })).orphanQueues ld)

/-- R426: an LD that its host is bound to attaches again; it is usable after its next firmware offer (R437). -/
def execLdReattach (ld : Nat) (s : State) : Out :=
  .next (if (s.ld ld).host.isNone ∨ (s.ld ld).attached then s
    else s.onLd ld (fun l => { l with attached := true, usable := false }))

/-- R427: a context's ORPHAN time has passed since the detach: its queues that are still orphaned are reset, those of a host that has attached again and not
claimed them too. -/
def execOrphanTimeout (ctx : Nat) (s : State) : Out :=
  .next (match s.ctx? ctx, (s.vf (vfOfCtx ctx)).ld with
    | some c, some l =>
      if c.service ∨ c.orphan = 0 ∨ s.cycles < (s.ld l).detachedAt + c.orphan * 4000000000 then s
      else (List.range 8).foldl (fun s q => if ((s.vf (vfOfCtx ctx)).queue q).orphaned then s.resetQueue (vfOfCtx ctx) q else s) s
    | _, _ => s)

/-! ### Links and the fabric manager (R416, R428) -/

/-- The other packages of the pod that a path still leads to, over the Ronmeaz ports that are up (R428). -/
def State.reachablePod (s : State) (up : BitVec 16) : List Nat :=
  if up = 0 then []
  else s.pod.filter (fun p => match s.fabric.paths.find? (fun x => x.1 == p) with
    | some x => x.2 &&& up != 0
    | none => true)

/-- R428: a port is taken out of service: 0 to 15 Ronmeaz, 16 to 31 Ethernet. The flits that it failed were retried (R434). A package that no path leads to
any more is lost. -/
def execLinkFailure (port : Nat) (s : State) : Out :=
  let s1 := { s.tickFree with baseErrs := { s.baseErrs with retries := s.baseErrs.retries + 1 + Config.flitRetries s.freeCtr } }
  .next (if port < 16 then
      let up := s.links &&& ~~~(1#16 <<< port)
      { s1 with links := up, pod := s.reachablePod up }
    else if port < 32 then { s1 with ether := s.ether &&& ~~~(1#16 <<< (port - 16)) }
    else s)

/-- R416: the fabric manager grants the management right to an LD, or binds an LD that is not attached to a host. -/
def execFmApiRequest (grant : Bool) (ld host : Nat) (s : State) : Out :=
  .next (if 16 ≤ ld then s
    else if grant then { s with mgmt := ld }
    else if 16 ≤ host ∨ (s.ld ld).attached ∨ s.lds.any (fun l => l.ix != ld && l.host == some host) then s
    else s.onLd ld (fun l => { l with host := some host, attached := true, usable := false }))

/-! ### Requests from outside (R256, R392, R394) -/

/-- R394: a host's CXL.mem access to memory of this package: the CXL agent gathers as a holder. -/
def execCxlMemRequest (host pa : Nat) (data : Option (List Byte)) (s : State) : Out :=
  .next (if !s.hostUp host ∨ !s.isLocal (sectorOf pa) then s
    else s.addOuter [{ agent := 14, kind := .cxl host, pa := sectorOf pa, access := match data with
      | none => .fill
      | some bs => .write bs }])

/-- R392: a fill, a write-through or an atomic of another package: the pod agent gathers, performs it and returns the tokens to the home. -/
def execPodAgentRequest (pkg pa : Nat) (access : OuterAccess) (s : State) : Out :=
  .next (if !s.pod.contains pkg ∨ !s.isLocal (sectorOf pa) then s
    else s.addOuter [{ agent := 6, kind := .pod pkg, pa := pa, access := access }])

/-- R256: lanes of a furrow that watch peer-package lines read them again from the home. -/
def execPeerLineReread (core slot : Nat) (s : State) : Out :=
  .next (match s.furrow? core slot with
    | none => s
    | some f =>
      let lines := (f.groups.map (fun g => match g.wait with
        | some (.address l _ _) => l.filterMap (fun w => match w with
          | .peerLine pa _ => some pa
          | _ => none)
        | _ => [])).flatten
      (s.dropPeer (dieOf core) lines).onFurrow core slot (fun f => { f with
        groups := f.groups.map (Group.wake (fun w => match w with
          | .peerLine _ _ => true
          | _ => false)) }))

/-! ### Power and heat (R24, R441, R442) -/

/-- R442: the ditchriders lower a compute island's clock by one step of 250 MHz, down to 1.0 GHz. -/
def execPowerLimit (island : Nat) (s : State) : Out :=
  .next (if 12 ≤ island then s
    else { s with islands := s.islands.set (Fin.ofNat 16 island) (max 1000 (s.islands[Fin.ofNat 16 island] - 250)) })

/-- R442: a die junction at 105 °C takes the die's islands to 1.0 GHz. -/
def execThermalThrottle (die : Nat) (s : State) : Out :=
  .next (if 6 ≤ die then s
    else { s with islands := (s.islands.set (Fin.ofNat 16 (2 * die)) 1000).set (Fin.ofNat 16 (2 * die + 1)) 1000 })

/-- R442: a junction at 115 °C halts the package, with THERMAL on every VF. -/
def execThermalHalt (s : State) : Out :=
  .next { (List.range 1024).foldl (fun s v => s.setEvent v 3) s with halted := true }

/-- What a package reset keeps: what lies outside the package, its installed memory, its fuses, and what the fabric gives it (R443). -/
def State.resetKept (s : State) : State :=
  { State.reset with
    agenda := s.agenda, upsets := s.upsets, freeCtr := s.freeCtr, lpddr := s.lpddr, fusedMin := s.fusedMin, service := s.service,
    mem := s.mem.filter (fun x => decide (2 ^ 50 ≤ x.1)), poison := s.poison.filter (fun x => decide (2 ^ 50 ≤ x)),
    lds := s.lds.map (fun (l : Ld) => { ix := l.ix, host := l.host, attached := l.host.isSome }),
    fabric := s.fabric }

/-- R443: power-on reset, its steps 1 to 3; steps 4 to 8 follow the first firmware offer. -/
def execPowerOnReset (s : State) : Out := .next s.resetKept

/-- R441: module power is removed; no state of the package is kept. -/
def execModulePowerRemoval (s : State) : Out := .next { s.resetKept with powered := false }

end Sys2Proof.Machine
end

