-- ==== Sys2Proof/Machine/Predicates.lean ====
section
/-! DEFINITION. Predicate operations: major 0x08 (R197). -/
namespace Sys2Proof.Machine

/-- A predicate instruction: the lanes of the active set of PD take the value. -/
def predicate (i : Instr) (pd : Fin 8) (value : Furrow → Mask) (s : State) : Out :=
  running i s (fun q u g => s.done i q (u.writeP pd.val (u.activeSet i g) (value u)) g 0 0)

/-- R197: pA AND pB. -/
def execPand (f : SP3) (s : State) : Out := predicate (.pand f) f.pd (fun u => u.readP f.pa.val &&& u.readP f.pb.val) s

/-- R197: pA OR pB. -/
def execPor (f : SP3) (s : State) : Out := predicate (.por f) f.pd (fun u => u.readP f.pa.val ||| u.readP f.pb.val) s

/-- R197: pA XOR pB. -/
def execPxor (f : SP3) (s : State) : Out := predicate (.pxor f) f.pd (fun u => u.readP f.pa.val ^^^ u.readP f.pb.val) s

/-- R197: pA AND NOT pB. -/
def execPandn (f : SP3) (s : State) : Out := predicate (.pandn f) f.pd (fun u => u.readP f.pa.val &&& ~~~(u.readP f.pb.val)) s

/-- R197: NOT pA. -/
def execPnot (f : SP2) (s : State) : Out := predicate (.pnot f) f.pd (fun u => ~~~(u.readP f.pa.val)) s

/-- R197: 1 in the lanes below n. -/
def execPlt (f : SPn) (s : State) : Out := predicate (.plt f) f.pd (fun _ => maskOf (fun l => decide (l < f.n.toNat))) s

end Sys2Proof.Machine
end

