-- ==== Sys2Proof/Machine/Publish.lean ====
section
/-! DEFINITION. Writes to basin ports: publishes and releases (R59, R60, R401). -/
namespace Sys2Proof.Machine

/-- R59, R60, R275: a port write publishes a filled slot or releases a read one; a publish waits for the furrow's earlier accesses, of every group. The scheme is evaluated
at every publish and release (R401). -/
def execQput (f : SEport) (s : State) : Out :=
  running (.qput f) s (fun q u g =>
    match s.portOf u f.q, s.field? u.field with
    | some (out, sc, b, x), some fl =>
      match fl.claimAt u f.q x (u.readW f.wa.val) with
      | none => trapNow s q g g.lanes 0x1E 0
      | some k =>
        if out && u.busy then .next (s.waitOn q g .furrowDrain)
        else
          let s1 := s.onBasin sc.id b (fun x => if out then { x with filling := setRemove x.filling k.slot, full := x.full ++ [k.slot] }
            else { x with reading := setRemove x.reading k.slot, empty := x.empty ++ [k.slot] })
          let s1 := if out then s1.publish (u.party 0xFFFFFFFF) Scope.pkg.code else s1
          let s2 := s1.onField u.field (fun fl => { fl with claims := fl.claims.filter (fun c => c != k) })
          (s2.evaluate sc.id).skip (.qput f) q g
    | _, _ => trapNow s q g g.lanes 0x1E 0)

end Sys2Proof.Machine
end

