-- ==== Sys2Proof/Machine/Shuffles.lean ====
section
/-! DEFINITION. Shuffles, reductions and scans over the lanes of a furrow: major 0x15 (R199, R201 to R205). -/
namespace Sys2Proof.Machine

/-- A shuffle (R201): lane i takes lane `src` b_i i of vA where that is an active lane, else its own. -/
def shuffle (i : Instr) (f : LV) (src : Nat → Nat → Int) (s : State) : Out :=
  running i s (fun q u g =>
    let m := u.activeSet i g
    let pick := fun l =>
      let k := src (u.bIndex f.b l) l
      if 0 ≤ k ∧ k < 32 ∧ inMask m k.toNat then k.toNat else l
    vectorDone s i q u g f.ty f.d.val (fun l => (u.laneBits f.ty f.a.val (pick l), 0)))

/-- The elements of vA in the active lanes in ascending order. -/
def activeElems (u : Furrow) (f : LV) (m : Mask) : List Nat := (lanesOf m).map (fun l => u.laneBits f.ty f.a.val l)

/-- A reduction (R202): one result with its flags from the active elements, to every active lane. -/
def reduction (i : Instr) (f : LV) (op : Furrow → List Nat → Nat × Nat) (s : State) : Out :=
  running i s (fun q u g =>
    let r := op u (activeElems u f (u.activeSet i g))
    vectorDone s i q u g f.ty f.d.val (fun _ => r))

/-- A folding reduction. -/
def foldReduction (i : Instr) (f : LV) (k : Fold) (s : State) : Out :=
  reduction i f (fun u xs => reduceBits k f.ty (u.rmode f.rm) u.ftz f.sat xs) s

/-- A bitwise reduction. -/
def bitReduction (i : Instr) (f : LV) (op : Nat → Nat → Nat) (s : State) : Out :=
  reduction i f (fun _ xs => ((xs.drop 1).foldl op (xs.headD 0), 0)) s

/-- A scan (R204): the running results to the active lanes in ascending order. -/
def scan (i : Instr) (f : LV) (k : Fold) (exclusive : Bool) (s : State) : Out :=
  running i s (fun q u g =>
    let m := u.activeSet i g
    let r := scanBits k f.ty (u.rmode f.rm) u.ftz exclusive (foldIdentity k f.ty) (activeElems u f m)
    let place := fun l => ((lanesOf m).filter (fun j => decide (j < l))).length
    vectorDone s i q u g f.ty f.d.val (fun l => ((r.1[place l]?).getD 0, r.2)))

/-- R201: each active lane takes the element of the lane b names. -/
def execShflIdx (f : LV) (s : State) : Out := shuffle (.shflIdx f) f (fun b _ => (b % 32 : Nat)) s

/-- R201: each active lane takes the element of the lane b below. -/
def execShflUp (f : LV) (s : State) : Out := shuffle (.shflUp f) f (fun b l => (l : Int) - b) s

/-- R201: each active lane takes the element of the lane b above. -/
def execShflDown (f : LV) (s : State) : Out := shuffle (.shflDown f) f (fun b l => (l : Int) + b) s

/-- R201: each active lane takes the element of the lane whose number differs by b. -/
def execShflXor (f : LV) (s : State) : Out := shuffle (.shflXor f) f (fun b l => (l ^^^ (b % 32) : Nat)) s

/-- R202: the sum of the active elements. -/
def execVredAdd (f : LV) (s : State) : Out := foldReduction (.vredAdd f) f .add s

/-- R202: the minimum of the active elements. -/
def execVredMin (f : LV) (s : State) : Out := foldReduction (.vredMin f) f .min s

/-- R202: the maximum of the active elements. -/
def execVredMax (f : LV) (s : State) : Out := foldReduction (.vredMax f) f .max s

/-- R202: the bitwise and of the active elements. -/
def execVredAnd (f : LV) (s : State) : Out := bitReduction (.vredAnd f) f (fun a b => a &&& b) s

/-- R202: the bitwise or of the active elements. -/
def execVredOr (f : LV) (s : State) : Out := bitReduction (.vredOr f) f (fun a b => a ||| b) s

/-- R202: the bitwise xor of the active elements. -/
def execVredXor (f : LV) (s : State) : Out := bitReduction (.vredXor f) f (fun a b => a ^^^ b) s

/-- R204: the inclusive scan by add. -/
def execVscanAdd (f : LV) (s : State) : Out := scan (.vscanAdd f) f .add false s

/-- R204: the inclusive scan by min. -/
def execVscanMin (f : LV) (s : State) : Out := scan (.vscanMin f) f .min false s

/-- R204: the inclusive scan by max. -/
def execVscanMax (f : LV) (s : State) : Out := scan (.vscanMax f) f .max false s

/-- R204: the exclusive scan by add. -/
def execVscanxAdd (f : LV) (s : State) : Out := scan (.vscanxAdd f) f .add true s

/-- R204: the exclusive scan by min. -/
def execVscanxMin (f : LV) (s : State) : Out := scan (.vscanxMin f) f .min true s

/-- R204: the exclusive scan by max. -/
def execVscanxMax (f : LV) (s : State) : Out := scan (.vscanxMax f) f .max true s

end Sys2Proof.Machine
end

