-- ==== Sys2Proof/Machine/Elementary.lean ====
section
/-! DEFINITION. Transcendental values (R232 to R234): the exact cases, the function's value near enough to judge the limits of error, and the result
within those limits that the device's fixed function delivers. -/
namespace Sys2Proof.Machine

/-! ### Exact cases (R233) -/

/-- The value is a power of two: its exponent. -/
def pow2? (m : Nat) (e : Int) : Option Int := if m = 2 ^ Nat.log2 m then some (floorLog2 m e) else none

/-- x as an integer number of halves, when it is one. -/
def halves? (n : Bool) (m : Nat) (e : Int) : Option Int :=
  let r := roundInt m (e + 1) false .rtz
  if r.2 then none else some (if n then -(r.1 : Int) else r.1)

/-- An exact case or special input of R233: the value and flags; none outside them. -/
def transExact (op : Nat) (x : Num) : Option (Num × Nat) :=
  match op, x with
  | _, .nan s => some (.nan false, if s then flNV else 0)
  | 0, .inf n => some (.fin n 0 0, 0)
  | 0, .fin n m e =>
    if m = 0 then some (.inf n, flDZ)
    else if floorLog2 m e < -128 then some (.inf n, flOF ||| flNX)
    else (match pow2? m e with
      | some k => if -127 ≤ k ∧ k ≤ 126 then some (.fin n 1 (-k), 0) else none
      | none => none)
  | 1, .inf n => if n then some (.nan false, flNV) else some (.fin false 0 0, 0)
  | 1, .fin n m e =>
    if m = 0 then some (.inf n, flDZ)
    else if n then some (.nan false, flNV)
    else (match pow2? m e with
      | some k => if k % 2 = 0 then some (.fin false 1 (-(k / 2)), 0) else none
      | none => none)
  | 2, .inf n => if n then some (.fin false 0 0, 0) else some (.inf false, 0)
  | 2, .fin n m e =>
    if m = 0 then some (.fin false 1 0, 0)
    else if !n && decide (7 ≤ floorLog2 m e) then some (.inf false, flOF ||| flNX)
    else if n && cmpNum (.fin false m e) (.fin false 150 0) == .gt then some (.fin false 0 0, flUF ||| flNX)
    else (match halves? n m e with
      | some h => if h % 2 = 0 ∧ -149 ≤ h / 2 then some (.fin false 1 (h / 2), 0) else none
      | none => none)
  | 3, .inf n => if n then some (.nan false, flNV) else some (.inf false, 0)
  | 3, .fin n m e =>
    if m = 0 then some (.inf true, flDZ)
    else if n then some (.nan false, flNV)
    else (pow2? m e).map (fun k => (Num.ofInt k, 0))
  | 4, .inf _ => some (.nan false, flNV)
  | 4, .fin n m e =>
    if m = 0 then some (.fin n 0 0, 0)
    else (halves? n m e).map (fun h => if h % 2 = 0 then (.fin n 0 0, 0) else (.fin (decide (h % 4 = 3)) 1 0, 0))
  | 5, .inf _ => some (.nan false, flNV)
  | 5, .fin n m e =>
    if m = 0 then some (.fin false 1 0, 0)
    else (halves? n m e).map (fun h => if h % 2 = 0 then (.fin (decide (h % 4 = 2)) 1 0, 0) else (.fin false 0 0, 0))
  | _, .inf n => some (.fin n 1 0, 0)
  | _, .fin n m _ => if m = 0 then some (.fin n 0 0, 0) else none

/-! ### The function's value outside the exact cases

Fixed-point computation, structural on its bits, close enough that what it leaves open is far below every limit of R232. -/

/-- A real number: ±n × 2^q, less than 2^slack away. -/
structure Near where
  neg : Bool
  n : Nat
  q : Int
  slack : Int
  deriving DecidableEq, Repr

/-- 1 / x. -/
def nearRcp (neg : Bool) (m : Nat) (e : Int) : Near :=
  let k := Nat.log2 m + 160
  { neg := neg, n := 2 ^ k / m, q := -e - k, slack := -e - k }

/-- 1 / √x. -/
def nearRsqrt (m : Nat) (e : Int) : Near :=
  let odd := e % 2 != 0
  let r := isqrt 180 ((if odd then 2 * m else m) <<< 320)
  let q := -((if odd then e - 1 else e) / 2) - 160
  { neg := false, n := 2 ^ 320 / r, q := q, slack := q + 60 }

/-- A product over the k low bits of x, of which bit j stands for 2^(j − 149): of the roots that begin with c, each the square root of the one
before, in units of 2^-192. -/
def rootProduct : Nat → Nat → Nat → Nat → Nat
  | 0, _, _, r => r
  | k + 1, x, c, r => rootProduct k x (isqrt 194 (c * 2 ^ 192)) (if x.testBit k then r * c / 2 ^ 192 else r)

/-- 2^x. -/
def nearExp2 (neg : Bool) (m : Nat) (e : Int) : Near :=
  let a := m <<< (e + 149).toNat
  let t : Int := if neg then -(a : Int) else a
  let k := t / 2 ^ 149
  { neg := false, n := rootProduct 149 (t % 2 ^ 149).toNat (isqrt 194 (2 ^ 385)) (2 ^ 192), q := k - 192, slack := k - 150 }

/-- The first k bits of the fraction of a logarithm after those found: the value, in units of 2^-256, squared for each. -/
def logBits : Nat → Nat → Nat → Nat
  | 0, _, r => r
  | k + 1, y, r =>
    let z := y * y / 2 ^ 256
    if 2 ^ 257 ≤ z then logBits k (z / 2) (2 * r + 1) else logBits k z (2 * r)

/-- log2 x. -/
def nearLog2 (m : Nat) (e : Int) : Near :=
  let v : Int := floorLog2 m e * 2 ^ 96 + logBits 96 ((m <<< 256) >>> Nat.log2 m) 0
  { neg := decide (v < 0), n := v.natAbs, q := -96, slack := -90 }

/-- Cosine and sine of π times the number whose k low bits are left, bit j standing for 2^(j − 149), turned on from an angle already reached; the
cosine and sine of the bit's own angle come with it, in units of 2^-192. -/
def turn : Nat → Nat → Int × Int → Int × Int → Int × Int
  | 0, _, _, r => r
  | k + 1, x, a, r =>
    let r1 := if x.testBit k then ((r.1 * a.1 - r.2 * a.2) / 2 ^ 192, (r.1 * a.2 + r.2 * a.1) / 2 ^ 192) else r
    let c : Int := (isqrt 194 ((2 ^ 192 + a.1).toNat * 2 ^ 191) : Nat)
    turn k x (c, a.2 * 2 ^ 191 / c) r1

/-- cos and sin of πx for a magnitude. -/
def turned (m : Nat) (e : Int) : Int × Int :=
  let x := (m <<< (e + 149).toNat) % 2 ^ 150
  turn 149 x (0, 2 ^ 192) (if x.testBit 149 then -(2 ^ 192) else 2 ^ 192, 0)

/-- A fixed-point number of 192 bits of fraction. -/
def nearTurn (v : Int) : Near := { neg := decide (v < 0), n := v.natAbs, q := -192, slack := -150 }

/-- Terms of the exponential series of t added up from the k-th on, in units of 2^-512. -/
def expTerms (t : Nat) : Nat → Nat → Nat → Nat → Nat
  | 0, _, _, acc => acc
  | n + 1, k, term, acc =>
    let next := term * t / (2 ^ 512 * k)
    expTerms t n (k + 1) next (acc + next)

/-- tanh x. -/
def nearTanh (neg : Bool) (m : Nat) (e : Int) : Near :=
  let x := m <<< (e + 512).toNat
  if 2 ^ 518 ≤ x then { neg := neg, n := 2 ^ 512, q := -512, slack := -180 }
  else
    let a := expTerms (2 * x) 700 1 (2 ^ 512) 0
    { neg := neg, n := a * 2 ^ 512 / (a + 2 ^ 513), q := -512, slack := -480 }

/-- The value of a row's function at a finite input outside the exact cases. -/
def nearValue (op : Nat) (neg : Bool) (m : Nat) (e : Int) : Near :=
  match op with
  | 0 => nearRcp neg m e
  | 1 => nearRsqrt m e
  | 2 => nearExp2 neg m e
  | 3 => nearLog2 m e
  | 4 => let r := nearTurn (turned m e).2; { r with neg := r.neg != neg }
  | 5 => nearTurn (turned m e).1
  | _ => nearTanh neg m e

/-! ### The limits of error (R232) -/

/-- The limit of a row: how many units, and the unit's exponent; the ulp of the value's lower end where the limit counts ulps. -/
def errorLimit (op : Nat) (m : Nat) (e : Int) (v : Near) : Nat × Int :=
  let near1 := op == 3 && decide (-1 ≤ floorLog2 m e ∧ floorLog2 m e ≤ 0)
  if op = 4 ∨ op = 5 ∨ near1 then (1, -22)
  else
    let e0 := min v.q v.slack
    let low := v.n <<< (v.q - e0).toNat - 2 ^ (v.slack - e0).toNat
    let k := floorLog2 low e0
    (if op ≤ 1 then 1 else 2, if -126 ≤ k then k - 23 else -149)

/-- Whether a delivered `.f32` value is no farther from a function's value than the limit; an infinity counts as 2^128. -/
def withinLimit (v : Near) (lim : Nat × Int) (y : Num) : Bool :=
  let e0 := min (min v.q v.slack) (min lim.2 (-149))
  let at_ := fun (neg : Bool) (m : Nat) (e : Int) => let k : Int := (m <<< (e - e0).toNat : Nat); if neg then -k else k
  let off := fun (d : Int) => decide ((d - at_ v.neg v.n v.q).natAbs + 2 ^ (v.slack - e0).toNat ≤ lim.1 <<< (lim.2 - e0).toNat)
  match y with
  | .nan _ => false
  | .inf n => off (at_ n 1 128)
  | .fin n m e => off (at_ n m e)

/-! ### Results -/

/-- What the device's fixed function delivers at a finite input outside the exact cases: the free value of `Config` where it lies within the limits
of R232, and otherwise the value rounded, which does (log 6). -/
def transFree (op : Nat) (m : Nat) (e : Int) (v : Near) (inBits : Nat) (ftz : Bool) : Nat :=
  let y := (Config.transcendental op (BitVec.ofNat 32 inBits) ftz).toNat
  if withinLimit v (errorLimit op m e v) (decodeNum .f32 y) then y else (roundNum (.fin v.neg v.n v.q) .f32 .rne false false).1

/-- A transcendental's `.f32` result for an exact value of its input (R232, R233). Outside the exact cases NX is raised, OF where an infinity is
delivered, UF where a subnormal is, or a zero in the place of a value below every normal one (R101). -/
def transF32 (op : Nat) (x : Num) (inBits : Nat) (ftz : Bool) : Nat × Nat :=
  match transExact op x, x with
  | some r, _ => finish r .f32 .rne ftz
  | none, .fin n m e =>
    let v := nearValue op n m e
    let y := transFree op m e v inBits ftz
    let ef := bitsOf y 23 8
    let tiny := ef == 0 && (bitsOf y 0 23 != 0 || decide (floorLog2 v.n v.q < -126))
    let flush := ftz && ef == 0 && bitsOf y 0 23 != 0
    (if flush then signBit .f32 (y.testBit 31) else y, flNX ||| (if tiny then flUF else 0) ||| (if ef = 255 then flOF else 0))
  | none, _ => (canonicalNan .f32, 0)

/-- A row of major 0x14 on one element (R232): `.f16` gives the `.f32` result for its input rounded with RNE. A value that either rounding made
inexact underflows when it is tiny in `.f16` (R101). -/
def transNum (op : Nat) (t : Ty) (bits : Nat) (ftz : Bool) : Nat × Nat :=
  let x := operandNum t ftz bits
  if t = .f16 then
    let r := transF32 op x (roundNum x .f32 .rne false false).1 ftz
    let y := decodeNum .f32 r.1
    let q := roundNum y .f16 .rne ftz false
    let tiny := match y with
      | .fin n m e => m != 0 && tinyFin n m e .f16 .rne
      | _ => false
    (q.1, q.2 ||| r.2 ||| (if r.2 &&& flNX != 0 && tiny then flUF else 0))
  else transF32 op x bits ftz

end Sys2Proof.Machine
end

