-- ==== Sys2Proof/Machine/Transcendental.lean ====
section
/-! DEFINITION. Transcendental approximations: major 0x14 (R232 to R234). Outside the exact cases the value is the free function of log 6. -/
namespace Sys2Proof.Machine

/-- A row of R232 by its minor opcode. -/
def transcendentalRow (i : Instr) (f : LV) (op : Nat) (s : State) : Out :=
  elementwise i f s (fun u a _ _ => transNum op f.ty a u.ftz)

/-- R232, R233: the reciprocal. -/
def execVrcp (f : LV) (s : State) : Out :=
  transcendentalRow (.vrcp f) f 0 s

/-- R232, R233: the reciprocal square root. -/
def execVrsqrt (f : LV) (s : State) : Out :=
  transcendentalRow (.vrsqrt f) f 1 s

/-- R232, R233: 2 to the power x. -/
def execVexp2 (f : LV) (s : State) : Out :=
  transcendentalRow (.vexp2 f) f 2 s

/-- R232, R233: the logarithm to base 2. -/
def execVlog2 (f : LV) (s : State) : Out :=
  transcendentalRow (.vlog2 f) f 3 s

/-- R232, R233: the sine of pi times x. -/
def execVsinpi (f : LV) (s : State) : Out :=
  transcendentalRow (.vsinpi f) f 4 s

/-- R232, R233: the cosine of pi times x. -/
def execVcospi (f : LV) (s : State) : Out :=
  transcendentalRow (.vcospi f) f 5 s

/-- R232, R233: the hyperbolic tangent. -/
def execVtanh (f : LV) (s : State) : Out :=
  transcendentalRow (.vtanh f) f 6 s

end Sys2Proof.Machine
end

