-- ==== Sys2Proof/Machine/Uniform.lean ====
section
/-! DEFINITION. Uniform arithmetic, logic, shifts and compares: majors 0x02 and 0x03 (R182 to R187). -/
namespace Sys2Proof.Machine

/-- A format SU instruction (R182, R183): once per issuing group, with no guard; `signed` says how the minor reads IMM8. -/
def uniform (i : Instr) (f : SU) (signed : Bool) (op : W64 → W64 → W64) (s : State) : Out :=
  running i s (fun q u g => s.done i q (u.writeW f.wd.val (op (u.readW f.wa.val) (u.uop f.b signed))) g 0 0)

/-- 1 or 0 (R186). -/
def truth (b : Bool) : W64 := if b then 1 else 0

/-- R184: a + b, wrapped. -/
def execUadd (f : SU) (s : State) : Out :=
  uniform (.uadd f) f true (fun a b => a + b) s

/-- R184: a - b, wrapped. -/
def execUsub (f : SU) (s : State) : Out :=
  uniform (.usub f) f true (fun a b => a - b) s

/-- R184: b - a, wrapped. -/
def execUrsub (f : SU) (s : State) : Out :=
  uniform (.ursub f) f true (fun a b => b - a) s

/-- R184: the low 64 bits of the product. -/
def execUmul (f : SU) (s : State) : Out :=
  uniform (.umul f) f true (fun a b => a * b) s

/-- R184: bits 127 to 64 of the signed product. -/
def execUmulhI64 (f : SU) (s : State) : Out :=
  uniform (.umulhI64 f) f true (fun a b => BitVec.ofInt 64 (a.toInt * b.toInt / 2 ^ 64)) s

/-- R184: bits 127 to 64 of the unsigned product. -/
def execUmulhN64 (f : SU) (s : State) : Out :=
  uniform (.umulhN64 f) f false (fun a b => BitVec.ofNat 64 (a.toNat * b.toNat / 2 ^ 64)) s

/-- R184, R185: the signed quotient toward zero; -1 when b is 0. -/
def execUdivI64 (f : SU) (s : State) : Out :=
  uniform (.udivI64 f) f true (fun a b => if b = 0 then -1 else a.sdiv b) s

/-- R184, R185: the unsigned quotient; all ones when b is 0. -/
def execUdivN64 (f : SU) (s : State) : Out :=
  uniform (.udivN64 f) f false (fun a b => if b = 0 then BitVec.allOnes 64 else a / b) s

/-- R184, R185: the signed remainder, of the dividend's sign; a when b is 0. -/
def execUremI64 (f : SU) (s : State) : Out :=
  uniform (.uremI64 f) f true (fun a b => if b = 0 then a else a.srem b) s

/-- R184, R185: the unsigned remainder; a when b is 0. -/
def execUremN64 (f : SU) (s : State) : Out :=
  uniform (.uremN64 f) f false (fun a b => if b = 0 then a else a % b) s

/-- R184: the signed minimum. -/
def execUminI64 (f : SU) (s : State) : Out :=
  uniform (.uminI64 f) f true (fun a b => if a.sle b then a else b) s

/-- R184: the signed maximum. -/
def execUmaxI64 (f : SU) (s : State) : Out :=
  uniform (.umaxI64 f) f true (fun a b => if b.sle a then a else b) s

/-- R184: the unsigned minimum. -/
def execUminN64 (f : SU) (s : State) : Out :=
  uniform (.uminN64 f) f false (fun a b => if a.ule b then a else b) s

/-- R184: the unsigned maximum. -/
def execUmaxN64 (f : SU) (s : State) : Out :=
  uniform (.umaxN64 f) f false (fun a b => if b.ule a then a else b) s

/-- R186: a AND b. -/
def execUand (f : SU) (s : State) : Out :=
  uniform (.uand f) f true (fun a b => a &&& b) s

/-- R186: a OR b. -/
def execUor (f : SU) (s : State) : Out :=
  uniform (.uor f) f true (fun a b => a ||| b) s

/-- R186: a XOR b. -/
def execUxor (f : SU) (s : State) : Out :=
  uniform (.uxor f) f true (fun a b => a ^^^ b) s

/-- R186: a AND NOT b. -/
def execUandn (f : SU) (s : State) : Out :=
  uniform (.uandn f) f true (fun a b => a &&& ~~~b) s

/-- R186: a shifted left by the low 6 bits of b. -/
def execUshl (f : SU) (s : State) : Out :=
  uniform (.ushl f) f false (fun a b => a <<< bitsOf b.toNat 0 6) s

/-- R186: a shifted right, zeros entering. -/
def execUshrN64 (f : SU) (s : State) : Out :=
  uniform (.ushrN64 f) f false (fun a b => a >>> bitsOf b.toNat 0 6) s

/-- R186: a shifted right, sign copies entering. -/
def execUshrI64 (f : SU) (s : State) : Out :=
  uniform (.ushrI64 f) f false (fun a b => a.sshiftRight (bitsOf b.toNat 0 6)) s

/-- R186: a rotated right. -/
def execUrot (f : SU) (s : State) : Out :=
  uniform (.urot f) f false (fun a b => a.rotateRight (bitsOf b.toNat 0 6)) s

/-- R186: 1 if a = b, else 0. -/
def execUseq (f : SU) (s : State) : Out :=
  uniform (.useq f) f true (fun a b => truth (a == b)) s

/-- R186: 1 if a and b differ, else 0. -/
def execUsne (f : SU) (s : State) : Out :=
  uniform (.usne f) f true (fun a b => truth (a != b)) s

/-- R186: 1 if a is below b, signed, else 0. -/
def execUsltI64 (f : SU) (s : State) : Out :=
  uniform (.usltI64 f) f true (fun a b => truth (a.slt b)) s

/-- R186: 1 if a is below b, unsigned, else 0. -/
def execUsltN64 (f : SU) (s : State) : Out :=
  uniform (.usltN64 f) f false (fun a b => truth (a.ult b)) s

/-- R186: 1 if a is not above b, signed, else 0. -/
def execUsleI64 (f : SU) (s : State) : Out :=
  uniform (.usleI64 f) f true (fun a b => truth (a.sle b)) s

/-- R186: 1 if a is not above b, unsigned, else 0. -/
def execUsleN64 (f : SU) (s : State) : Out :=
  uniform (.usleN64 f) f false (fun a b => truth (a.ule b)) s

/-- R184: a times 256 plus the immediate byte. -/
def execUins8 (f : SUImm) (s : State) : Out :=
  running (.uins8 f) s (fun q u g => s.done (.uins8 f) q (u.writeW f.wd.val (u.readW f.wa.val * 256 + f.b.setWidth 64)) g 0 0)

/-- R186: the number of set bits of a. -/
def execUpopc (f : SUUn) (s : State) : Out :=
  running (.upopc f) s (fun q u g =>
    s.done (.upopc f) q (u.writeW f.wd.val (BitVec.ofNat 64 (popCount (u.readW f.wa.val).toNat 64))) g 0 0)

/-- R186: the number of leading zero bits of a; 64 when a is 0. -/
def execUclz (f : SUUn) (s : State) : Out :=
  running (.uclz f) s (fun q u g =>
    s.done (.uclz f) q (u.writeW f.wd.val (BitVec.ofNat 64 (leadingZeros (u.readW f.wa.val).toNat 64))) g 0 0)

end Sys2Proof.Machine
end

