-- ==== Sys2Proof/Machine/Walks.lean ====
section
/-! DEFINITION. Walks that a prefetch has left pending (R258, R351, R352). -/
namespace Sys2Proof.Machine

/-- The walks that walkers of the dies have taken, each with its die and its place there (R351). -/
def State.walksNow (s : State) : List (Nat × Nat × Walk) :=
  ((List.range 6).map (fun d => ((((s.die d).walks.zip (List.range (s.die d).walks.length)).filter (fun w => w.1.on.isSome)).map
    (fun w => (d, w.2, w.1))))).flatten

/-- R351: walk n of those under way ends, and its walker takes the next. It fills the TLBs, and the prefetch it serves goes on; a walk that fails is
dropped (R258, R350). It reads its entries under tokens, which it requests where they lack (R372). -/
def execPageWalk (n : Nat) (s : State) : Host.Outcome State Fault Refusal :=
  .next (match nth? s.walksNow n with
    | none => s
    | some (d, j, w) =>
      let s1 := (s.onDie d (fun x => { x with walks := dropNth x.walks j })).assignWalks d
      match s1.ctx? w.ctx with
      | none => s1
      | some c =>
        match s.walkLack d c w.va with
        | some sec => s.request d sec false w.core
        | none =>
        match s1.walk c w.va with
        | .stop .. => s1
        | .leaf e =>
          if s1.rangeOk c (e.frame w.va) then (s1.tlbFill w.core e).prefetch w.core w.ctx w.level w.cls w.hold w.va else s1)

end Sys2Proof.Machine
end

