-- ==== Sys2Proof/Machine/Dispatch.lean ====
section
/-! DEFINITION. One arm per constructor of Instr: a direct call of its meaning. -/
namespace Sys2Proof.Machine

/-- What executing an instruction, performing a command's unit or receiving an event does. -/
def exec (i : Instr) (s : State) : Host.Outcome State Fault Refusal :=
  match i with
  | .clause f => Sys2Proof.Machine.execClause f s
  | .nop c => Sys2Proof.Machine.execNop c s
  | .uadd f => Sys2Proof.Machine.execUadd f s
  | .usub f => Sys2Proof.Machine.execUsub f s
  | .ursub f => Sys2Proof.Machine.execUrsub f s
  | .umul f => Sys2Proof.Machine.execUmul f s
  | .umulhI64 f => Sys2Proof.Machine.execUmulhI64 f s
  | .umulhN64 f => Sys2Proof.Machine.execUmulhN64 f s
  | .udivI64 f => Sys2Proof.Machine.execUdivI64 f s
  | .udivN64 f => Sys2Proof.Machine.execUdivN64 f s
  | .uremI64 f => Sys2Proof.Machine.execUremI64 f s
  | .uremN64 f => Sys2Proof.Machine.execUremN64 f s
  | .uminI64 f => Sys2Proof.Machine.execUminI64 f s
  | .umaxI64 f => Sys2Proof.Machine.execUmaxI64 f s
  | .uminN64 f => Sys2Proof.Machine.execUminN64 f s
  | .umaxN64 f => Sys2Proof.Machine.execUmaxN64 f s
  | .uins8 f => Sys2Proof.Machine.execUins8 f s
  | .uand f => Sys2Proof.Machine.execUand f s
  | .uor f => Sys2Proof.Machine.execUor f s
  | .uxor f => Sys2Proof.Machine.execUxor f s
  | .uandn f => Sys2Proof.Machine.execUandn f s
  | .ushl f => Sys2Proof.Machine.execUshl f s
  | .ushrN64 f => Sys2Proof.Machine.execUshrN64 f s
  | .ushrI64 f => Sys2Proof.Machine.execUshrI64 f s
  | .urot f => Sys2Proof.Machine.execUrot f s
  | .useq f => Sys2Proof.Machine.execUseq f s
  | .usne f => Sys2Proof.Machine.execUsne f s
  | .usltI64 f => Sys2Proof.Machine.execUsltI64 f s
  | .usltN64 f => Sys2Proof.Machine.execUsltN64 f s
  | .usleI64 f => Sys2Proof.Machine.execUsleI64 f s
  | .usleN64 f => Sys2Proof.Machine.execUsleN64 f s
  | .upopc f => Sys2Proof.Machine.execUpopc f s
  | .uclz f => Sys2Proof.Machine.execUclz f s
  | .bra f => Sys2Proof.Machine.execBra f s
  | .call f => Sys2Proof.Machine.execCall f s
  | .jmp f => Sys2Proof.Machine.execJmp f s
  | .callr f => Sys2Proof.Machine.execCallr f s
  | .ret f => Sys2Proof.Machine.execRet f s
  | .bwz f => Sys2Proof.Machine.execBwz f s
  | .bwnz f => Sys2Proof.Machine.execBwnz f s
  | .rcv f => Sys2Proof.Machine.execRcv f s
  | .exit f => Sys2Proof.Machine.execExit f s
  | .yield f => Sys2Proof.Machine.execYield f s
  | .loop f => Sys2Proof.Machine.execLoop f s
  | .sysc f => Sys2Proof.Machine.execSysc f s
  | .brk f => Sys2Proof.Machine.execBrk f s
  | .tret f => Sys2Proof.Machine.execTret f s
  | .fend c => Sys2Proof.Machine.execFend c s
  | .cend f => Sys2Proof.Machine.execCend f s
  | .dhalt f => Sys2Proof.Machine.execDhalt f s
  | .pand f => Sys2Proof.Machine.execPand f s
  | .por f => Sys2Proof.Machine.execPor f s
  | .pxor f => Sys2Proof.Machine.execPxor f s
  | .pandn f => Sys2Proof.Machine.execPandn f s
  | .pnot f => Sys2Proof.Machine.execPnot f s
  | .plt f => Sys2Proof.Machine.execPlt f s
  | .srr f => Sys2Proof.Machine.execSrr f s
  | .srw f => Sys2Proof.Machine.execSrw f s
  | .push f => Sys2Proof.Machine.execPush f s
  | .qpop f => Sys2Proof.Machine.execQpop f s
  | .qclaim f => Sys2Proof.Machine.execQclaim f s
  | .qput f => Sys2Proof.Machine.execQput f s
  | .hwait f => Sys2Proof.Machine.execHwait f s
  | .htest f => Sys2Proof.Machine.execHtest f s
  | .hcancel f => Sys2Proof.Machine.execHcancel f s
  | .hget f => Sys2Proof.Machine.execHget f s
  | .hset f => Sys2Proof.Machine.execHset f s
  | .sset f => Sys2Proof.Machine.execSset f s
  | .sget f => Sys2Proof.Machine.execSget f s
  | .winit f => Sys2Proof.Machine.execWinit f s
  | .warr f => Sys2Proof.Machine.execWarr f s
  | .wexp f => Sys2Proof.Machine.execWexp f s
  | .wwait f => Sys2Proof.Machine.execWwait f s
  | .vadd f => Sys2Proof.Machine.execVadd f s
  | .vsub f => Sys2Proof.Machine.execVsub f s
  | .vmul f => Sys2Proof.Machine.execVmul f s
  | .vmulh f => Sys2Proof.Machine.execVmulh f s
  | .vmad f => Sys2Proof.Machine.execVmad f s
  | .vdiv f => Sys2Proof.Machine.execVdiv f s
  | .vrem f => Sys2Proof.Machine.execVrem f s
  | .vmin f => Sys2Proof.Machine.execVmin f s
  | .vmax f => Sys2Proof.Machine.execVmax f s
  | .vabs f => Sys2Proof.Machine.execVabs f s
  | .vneg f => Sys2Proof.Machine.execVneg f s
  | .vabsd f => Sys2Proof.Machine.execVabsd f s
  | .vand f => Sys2Proof.Machine.execVand f s
  | .vor f => Sys2Proof.Machine.execVor f s
  | .vxor f => Sys2Proof.Machine.execVxor f s
  | .vandn f => Sys2Proof.Machine.execVandn f s
  | .vnot f => Sys2Proof.Machine.execVnot f s
  | .vshl f => Sys2Proof.Machine.execVshl f s
  | .vshr f => Sys2Proof.Machine.execVshr f s
  | .vrot f => Sys2Proof.Machine.execVrot f s
  | .vpopc f => Sys2Proof.Machine.execVpopc f s
  | .vclz f => Sys2Proof.Machine.execVclz f s
  | .vbrev f => Sys2Proof.Machine.execVbrev f s
  | .vbfe f => Sys2Proof.Machine.execVbfe f s
  | .vbfi f => Sys2Proof.Machine.execVbfi f s
  | .vmov f => Sys2Proof.Machine.execVmov f s
  | .vfadd f => Sys2Proof.Machine.execVfadd f s
  | .vfsub f => Sys2Proof.Machine.execVfsub f s
  | .vfmul f => Sys2Proof.Machine.execVfmul f s
  | .vfma f => Sys2Proof.Machine.execVfma f s
  | .vfms f => Sys2Proof.Machine.execVfms f s
  | .vfnma f => Sys2Proof.Machine.execVfnma f s
  | .vfdiv f => Sys2Proof.Machine.execVfdiv f s
  | .vfsqrt f => Sys2Proof.Machine.execVfsqrt f s
  | .vfmin f => Sys2Proof.Machine.execVfmin f s
  | .vfmax f => Sys2Proof.Machine.execVfmax f s
  | .vfabs f => Sys2Proof.Machine.execVfabs f s
  | .vfneg f => Sys2Proof.Machine.execVfneg f s
  | .vfrint f => Sys2Proof.Machine.execVfrint f s
  | .vfscale f => Sys2Proof.Machine.execVfscale f s
  | .vcmp cc f => Sys2Proof.Machine.execVcmp cc f s
  | .vset cc f => Sys2Proof.Machine.execVset cc f s
  | .vsel f => Sys2Proof.Machine.execVsel f s
  | .vfclass f => Sys2Proof.Machine.execVfclass f s
  | .vcvt f => Sys2Proof.Machine.execVcvt f s
  | .vpklo f => Sys2Proof.Machine.execVpklo f s
  | .vpkhi f => Sys2Proof.Machine.execVpkhi f s
  | .vupklo f => Sys2Proof.Machine.execVupklo f s
  | .vupkhi f => Sys2Proof.Machine.execVupkhi f s
  | .vscl f => Sys2Proof.Machine.execVscl f s
  | .vrcp f => Sys2Proof.Machine.execVrcp f s
  | .vrsqrt f => Sys2Proof.Machine.execVrsqrt f s
  | .vexp2 f => Sys2Proof.Machine.execVexp2 f s
  | .vlog2 f => Sys2Proof.Machine.execVlog2 f s
  | .vsinpi f => Sys2Proof.Machine.execVsinpi f s
  | .vcospi f => Sys2Proof.Machine.execVcospi f s
  | .vtanh f => Sys2Proof.Machine.execVtanh f s
  | .vfirst f => Sys2Proof.Machine.execVfirst f s
  | .vballot f => Sys2Proof.Machine.execVballot f s
  | .psetw f => Sys2Proof.Machine.execPsetw f s
  | .vall f => Sys2Proof.Machine.execVall f s
  | .vany f => Sys2Proof.Machine.execVany f s
  | .vuni f => Sys2Proof.Machine.execVuni f s
  | .vlane f => Sys2Proof.Machine.execVlane f s
  | .shflIdx f => Sys2Proof.Machine.execShflIdx f s
  | .shflUp f => Sys2Proof.Machine.execShflUp f s
  | .shflDown f => Sys2Proof.Machine.execShflDown f s
  | .shflXor f => Sys2Proof.Machine.execShflXor f s
  | .vredAdd f => Sys2Proof.Machine.execVredAdd f s
  | .vredMin f => Sys2Proof.Machine.execVredMin f s
  | .vredMax f => Sys2Proof.Machine.execVredMax f s
  | .vredAnd f => Sys2Proof.Machine.execVredAnd f s
  | .vredOr f => Sys2Proof.Machine.execVredOr f s
  | .vredXor f => Sys2Proof.Machine.execVredXor f s
  | .vscanAdd f => Sys2Proof.Machine.execVscanAdd f s
  | .vscanMin f => Sys2Proof.Machine.execVscanMin f s
  | .vscanMax f => Sys2Proof.Machine.execVscanMax f s
  | .vscanxAdd f => Sys2Proof.Machine.execVscanxAdd f s
  | .vscanxMin f => Sys2Proof.Machine.execVscanxMin f s
  | .vscanxMax f => Sys2Proof.Machine.execVscanxMax f s
  | .xacq f => Sys2Proof.Machine.execXacq f s
  | .xrel f => Sys2Proof.Machine.execXrel f s
  | .ld f => Sys2Proof.Machine.execLd f s
  | .ldAcq f => Sys2Proof.Machine.execLdAcq f s
  | .ldw f => Sys2Proof.Machine.execLdw f s
  | .ldwAcq f => Sys2Proof.Machine.execLdwAcq f s
  | .st f => Sys2Proof.Machine.execSt f s
  | .stRel f => Sys2Proof.Machine.execStRel f s
  | .stw f => Sys2Proof.Machine.execStw f s
  | .stwRel f => Sys2Proof.Machine.execStwRel f s
  | .gth f => Sys2Proof.Machine.execGth f s
  | .sct f => Sys2Proof.Machine.execSct f s
  | .atomAdd f => Sys2Proof.Machine.execAtomAdd f s
  | .atomMin f => Sys2Proof.Machine.execAtomMin f s
  | .atomMax f => Sys2Proof.Machine.execAtomMax f s
  | .atomAnd f => Sys2Proof.Machine.execAtomAnd f s
  | .atomOr f => Sys2Proof.Machine.execAtomOr f s
  | .atomXor f => Sys2Proof.Machine.execAtomXor f s
  | .atomExch f => Sys2Proof.Machine.execAtomExch f s
  | .atomCas f => Sys2Proof.Machine.execAtomCas f s
  | .atomFadd f => Sys2Proof.Machine.execAtomFadd f s
  | .waita f => Sys2Proof.Machine.execWaita f s
  | .pf f => Sys2Proof.Machine.execPf f s
  | .fenceAcq f => Sys2Proof.Machine.execFenceAcq f s
  | .fenceRel f => Sys2Proof.Machine.execFenceRel f s
  | .fenceFull f => Sys2Proof.Machine.execFenceFull f s
  | .fenceSpec f => Sys2Proof.Machine.execFenceSpec f s
  | .fenceXp f => Sys2Proof.Machine.execFenceXp f s
  | .cset f => Sys2Proof.Machine.execCset f s
  | .cclr f => Sys2Proof.Machine.execCclr f s
  | .cget f => Sys2Proof.Machine.execCget f s
  | .tfr f => Sys2Proof.Machine.execTfr f s
  | .tfw f => Sys2Proof.Machine.execTfw f s
  | .svcpost f => Sys2Proof.Machine.execSvcpost f s
  | .svctake f => Sys2Proof.Machine.execSvctake f s
  | .fqtake f => Sys2Proof.Machine.execFqtake f s
  | .fqdone f => Sys2Proof.Machine.execFqdone f s
  | .tlbinvAsid f => Sys2Proof.Machine.execTlbinvAsid f s
  | .tlbinvPage f => Sys2Proof.Machine.execTlbinvPage f s
  | .tlbinvNong f => Sys2Proof.Machine.execTlbinvNong f s
  | .tlbinvAll f => Sys2Proof.Machine.execTlbinvAll f s
  | .acrd f => Sys2Proof.Machine.execAcrd f s
  | .issueSelection core quarter dt => Sys2Proof.Machine.execIssueSelection core quarter dt s
  | .instructionComplete core slot => Sys2Proof.Machine.execInstructionComplete core slot s
  | .fenceComplete core slot => Sys2Proof.Machine.execFenceComplete core slot s
  | .trapPermitRetry core slot => Sys2Proof.Machine.execTrapPermitRetry core slot s
  | .watchdog core slot => Sys2Proof.Machine.execWatchdog core slot s
  | .haltRequestArrive n => Sys2Proof.Machine.execHaltRequestArrive n s
  | .xacqGrant core quarter => Sys2Proof.Machine.execXacqGrant core quarter s
  | .registerReload core slot => Sys2Proof.Machine.execRegisterReload core slot s
  | .fieldRetire field => Sys2Proof.Machine.execFieldRetire field s
  | .mma cmd => Sys2Proof.Machine.execMma cmd s
  | .copy cmd => Sys2Proof.Machine.execCopy cmd s
  | .stream cmd => Sys2Proof.Machine.execStream cmd s
  | .allreduce cmd => Sys2Proof.Machine.execAllreduce cmd s
  | .reduceScatter cmd => Sys2Proof.Machine.execReduceScatter cmd s
  | .allgather cmd => Sys2Proof.Machine.execAllgather cmd s
  | .broadcast cmd => Sys2Proof.Machine.execBroadcast cmd s
  | .send cmd => Sys2Proof.Machine.execSend cmd s
  | .mxeKstep cmd => Sys2Proof.Machine.execMxeKstep cmd s
  | .txeChunkLand cmd chunk => Sys2Proof.Machine.execTxeChunkLand cmd chunk s
  | .gxeRowDeliver cmd => Sys2Proof.Machine.execGxeRowDeliver cmd s
  | .cxeChunkArrive coll rank chunk ext => Sys2Proof.Machine.execCxeChunkArrive coll rank chunk ext s
  | .engineComplete cmd => Sys2Proof.Machine.execEngineComplete cmd s
  | .collectiveStart ctx gid fabric => Sys2Proof.Machine.execCollectiveStart ctx gid fabric s
  | .collectiveTimeout loss => Sys2Proof.Machine.execCollectiveTimeout loss s
  | .collectiveRedo coll plane => Sys2Proof.Machine.execCollectiveRedo coll plane s
  | .pageWalk n => Sys2Proof.Machine.execPageWalk n s
  | .sqTail vf q tail => Sys2Proof.Machine.execSqTail vf q tail s
  | .sqEntryLaunch vf q => Sys2Proof.Machine.execSqEntryLaunch vf q s
  | .sqEntryCancel vf q => Sys2Proof.Machine.execSqEntryCancel vf q s
  | .fieldPlace part => Sys2Proof.Machine.execFieldPlace part s
  | .schemeEvaluate scheme => Sys2Proof.Machine.execSchemeEvaluate scheme s
  | .preemptRequest part => Sys2Proof.Machine.execPreemptRequest part s
  | .preemptCollectComplete field => Sys2Proof.Machine.execPreemptCollectComplete field s
  | .schemeTimeout scheme => Sys2Proof.Machine.execSchemeTimeout scheme s
  | .scrubComplete quad => Sys2Proof.Machine.execScrubComplete quad s
  | .ctxCreate pf vf descr => Sys2Proof.Machine.execCtxCreate pf vf descr s
  | .ctxDestroy pf vf => Sys2Proof.Machine.execCtxDestroy pf vf s
  | .groupSet pf vf gid ranks timeout table => Sys2Proof.Machine.execGroupSet pf vf gid ranks timeout table s
  | .queueReset pf vf q => Sys2Proof.Machine.execQueueReset pf vf q s
  | .quadAssign pf quad part => Sys2Proof.Machine.execQuadAssign pf quad part s
  | .countersRead pf die => Sys2Proof.Machine.execCountersRead pf die s
  | .fwOffer pf addr size => Sys2Proof.Machine.execFwOffer pf addr size s
  | .attest pf addr nonce => Sys2Proof.Machine.execAttest pf addr nonce s
  | .dbgWrite pf vf msg => Sys2Proof.Machine.execDbgWrite pf vf msg s
  | .linkStatus pf => Sys2Proof.Machine.execLinkStatus pf s
  | .vfBind pf vf ld => Sys2Proof.Machine.execVfBind pf vf ld s
  | .sqClaim vf q gen => Sys2Proof.Machine.execSqClaim vf q gen s
  | .tasidSWrite ctx asid => Sys2Proof.Machine.execTasidSWrite ctx asid s
  | .registerWrite vf off val => Sys2Proof.Machine.execRegisterWrite vf off val s
  | .ldDetach ld => Sys2Proof.Machine.execLdDetach ld s
  | .ldReattach ld => Sys2Proof.Machine.execLdReattach ld s
  | .orphanTimeout ctx => Sys2Proof.Machine.execOrphanTimeout ctx s
  | .mailboxTailObserve ctx => Sys2Proof.Machine.execMailboxTailObserve ctx s
  | .rd n => Sys2Proof.Machine.execRd n s
  | .wr n => Sys2Proof.Machine.execWr n s
  | .tok n => Sys2Proof.Machine.execTok n s
  | .preq n => Sys2Proof.Machine.execPreq n s
  | .pact n => Sys2Proof.Machine.execPact n s
  | .pdeact n => Sys2Proof.Machine.execPdeact n s
  | .lost n => Sys2Proof.Machine.execLost n s
  | .recover n => Sys2Proof.Machine.execRecover n s
  | .reissue n => Sys2Proof.Machine.execReissue n s
  | .transientTimeout agent sector => Sys2Proof.Machine.execTransientTimeout agent sector s
  | .persistentTimeout sector => Sys2Proof.Machine.execPersistentTimeout sector s
  | .orderedTimeout agent sector => Sys2Proof.Machine.execOrderedTimeout agent sector s
  | .recoveryWindowEnd sector => Sys2Proof.Machine.execRecoveryWindowEnd sector s
  | .messageDrop n => Sys2Proof.Machine.execMessageDrop n s
  | .holderEvict agent sector => Sys2Proof.Machine.execHolderEvict agent sector s
  | .tokenStateError agent sector unreadable => Sys2Proof.Machine.execTokenStateError agent sector unreadable s
  | .snpdata sector => Sys2Proof.Machine.execSnpdata sector s
  | .snpinv sector data => Sys2Proof.Machine.execSnpinv sector data s
  | .snpcur sector => Sys2Proof.Machine.execSnpcur sector s
  | .backInvalidateResponse sector => Sys2Proof.Machine.execBackInvalidateResponse sector s
  | .cohModeWrite mode => Sys2Proof.Machine.execCohModeWrite mode s
  | .cohModeDrainEnd => Sys2Proof.Machine.execCohModeDrainEnd s
  | .linkFailure port => Sys2Proof.Machine.execLinkFailure port s
  | .powerLimit island => Sys2Proof.Machine.execPowerLimit island s
  | .thermalThrottle die => Sys2Proof.Machine.execThermalThrottle die s
  | .thermalHalt => Sys2Proof.Machine.execThermalHalt s
  | .powerOnReset => Sys2Proof.Machine.execPowerOnReset s
  | .cxlMemRequest host pa data => Sys2Proof.Machine.execCxlMemRequest host pa data s
  | .cxlCacheResponse sector => Sys2Proof.Machine.execCxlCacheResponse sector s
  | .podAgentRequest pkg pa access => Sys2Proof.Machine.execPodAgentRequest pkg pa access s
  | .peerLineReread core slot => Sys2Proof.Machine.execPeerLineReread core slot s
  | .recoverRecordExpiry agent sector => Sys2Proof.Machine.execRecoverRecordExpiry agent sector s
  | .fmApiRequest grant ld host => Sys2Proof.Machine.execFmApiRequest grant ld host s
  | .modulePowerRemoval => Sys2Proof.Machine.execModulePowerRemoval s

end Sys2Proof.Machine
end

