-- ==== Sys2Proof/Machine/Due.lean ====
section
/-! DEFINITION. What is due of itself: accesses whose tokens have come (R378), and the events of a package with no input, under which every store
becomes visible (R141, log 3). -/
namespace Sys2Proof.Machine

/-- The furrow of an access or a posted store that can go on, which it does before its holder acts on any message (R378): its tokens are there, or it
may now request them, as after a recovery (R141, R385). -/
def State.accessDue (s : State) : Option Furrow := s.furrows.find? (fun f => s.postDue f || f.groups.any (s.accessReady f))

/-- Whether tokens that something has waited for are there, or may be asked for. -/
def State.retryDue (s : State) (agent : Nat → Nat) (l : List (Nat × Bool)) : Bool :=
  l.all (fun x => s.mayAccess (agent x.1) x.1 x.2) || l.any (fun x => !s.mayAccess (agent x.1) x.1 x.2 && s.canRequest (agent x.1) x.1 x.2)

/-- An engine's event that had lacked tokens and can go on (R378). -/
def State.engineDue (s : State) : Option Instr :=
  s.commands.findSome? (fun c => (c.retry.find? (fun r => s.retryDue (fun _ => dieAgent c.core) r.2)).map Prod.fst)

/-- Whether an event that has waited can go on: the base die may read what it reads, and a write of `TASID_S` finds its accesses performed. -/
def State.goesNow (s : State) (d : Instr × List Nat) : Bool :=
  s.retryDue s.homeAgent ((d.2.filter (fun x => !s.isPeer x)).map (fun x => (x, false))) && (match d.1 with
    | .tasidSWrite ctx asid => !s.asidBusy ctx asid
    | _ => true)

/-- An event that has waited and can go on, and the state in which it does (R349, R372). -/
def State.deferredDue (s : State) : Option (Instr × State) :=
  (s.deferred.find? s.goesNow).map (fun d => (d.1, { s with deferred := s.deferred.erase d }))

/-- A `CTX_DESTROY` in service whose context has no field left (R422). -/
def State.destroyDue (s : State) : Option Instr :=
  s.lds.findSome? (fun l => match l.serving with
    | some (.ctxDestroy pf vf) => if s.busyCtx (vf + 1) then none else some (.ctxDestroy pf vf)
    | _ => none)

/-- What goes on before any other event, as nothing it waits for is lacking any more: an access or a posted store, an engine's event, one of the base die, a
command in service. -/
def State.dueNow (s : State) : Option (Instr × State) :=
  match s.accessDue, s.engineDue with
  | some f, _ => some (.instructionComplete f.core f.slot, s)
  | none, some i => some (i, s)
  | none, none => s.deferredDue.or (s.destroyDue.map (fun i => (i, s)))

/-- The arrival of the oldest message in flight, or its loss when it comes too late or cannot be read (R375, R376). -/
def arrivalOf (m : Message) (now : Nat) : Instr :=
  if m.sentAt + 4000 < now then .messageDrop 0
  else match m.typ with
  | 0 => .rd 0
  | 1 => .wr 0
  | 2 => .tok 0
  | 3 => .preq 0
  | 4 => .pact 0
  | 5 => .pdeact 0
  | 6 => .lost 0
  | 7 => .recover 0
  | 8 => .reissue 0
  | _ => .messageDrop 0

/-- Whether a fence of a furrow is complete: its stores are performed (R144, R145). -/
def Furrow.fenceDue (f : Furrow) : Bool :=
  (f.spec.isSome && f.posted.isEmpty) || f.groups.any (fun g => g.level == f.level && (match g.wait with
    | some .fence | some (.rolledFence ..) => !f.storing g.lanes
    | _ => false))

/-- A timeout of a sector that has passed (R309, R383, R384, R389). -/
def State.timeoutOf (s : State) (x : Sector) : Option Instr :=
  match x.recovery with
  | some (t, _, _) => if t + 8000 ≤ s.cycles then some (.recoveryWindowEnd x.pa) else none
  | none =>
    if x.active.any (fun p => decide (p.2.2 + 16000 ≤ s.cycles)) then some (.persistentTimeout x.pa)
    else match x.holders.find? (fun h => s.cohMode && h.req.any (fun r => agedOut r.age s.cycles)) with
      | some h => some (.orderedTimeout h.agent x.pa)
      | none => (x.holders.find? (fun h => s.overdue h.agent x.pa)).map (fun h => .transientTimeout h.agent x.pa)

/-- The event that a package with no input performs next: the arrival of its oldest message, a fence that has completed, a timeout, else a cycle of
the quarter of one of its furrows in turn (log 3). -/
def State.nextEvent (s : State) : Instr :=
  match s.net with
  | m :: _ => arrivalOf m s.cycles
  | [] =>
    match s.furrows.find? Furrow.fenceDue with
    | some f => .fenceComplete f.core f.slot
    | none =>
      match s.sectors.findSome? s.timeoutOf with
      | some e => e
      | none =>
        match nth? s.furrows (s.cycles % max 1 s.furrows.length) with
        | some f => .issueSelection f.core (quarterOf f.slot) 1
        | none => .issueSelection 0 0 1

end Sys2Proof.Machine
end

