-- ==== Sys2Proof/Machine/Step.lean ====
section
/-! DEFINITION. One step of the package, and a state whose next step fetches a given word. -/
namespace Sys2Proof.Machine

/-- Whether the environment's next event is a package reset, the one event a halted or unpowered package answers (R442, R443). -/
def State.resetDue (s : State) : Bool := s.agenda.head? == some .powerOnReset

/-- One step: a slot's choice made again, or the issuing group's next instruction; else an access or event whose tokens have come (R378); else the environment's next event; else an event
that is due of itself (log 3). -/
def step (s : State) : Host.Outcome State Fault Refusal :=
  if !s.powered && !s.resetDue then .fault .powerRemoved
  else if s.halted && !s.resetDue then .fault .packageHalted
  else
    match s.issue with
    | some q =>
      if q.redo != .no then .next (s.rechoose q)
      else
        match s.prepare q with
        | (s1, some i) => exec i s1
        | (s1, none) => .next s1
    | none =>
      match s.agenda, (if s.resetDue then none else s.dueNow) with
      | _, some d => exec d.1 d.2
      | e :: es, none => exec e { s with agenda := es }
      | [], none => exec s.nextEvent s

/-- The furrow of `withFetchWord`: all its lanes are one group at PC 0 of core 1, slot 0. -/
def probeFurrow : Furrow :=
  { core := 1, slot := 0, field := 1, ix := 0, lanes := Vector.replicate 32 { status := .live },
    groups := [{ lanes := 0xFFFFFFFF, pc := 0, level := 0 }] }

/-- Its field: one packet of code at 0x1000. -/
def probeField : Field :=
  { id := 1, ctx := 1, scheme := 0, core := 1, status := .resident, sp := { size := 0 }, tile := { size := 0 }, bsl := { size := 0 },
    kernel := { codeBase := 0x1000, codePkts := 1, threads := 32, scratch := 0, tiles := 0, bslice := 0, extRegs := 0, noReuse := true,
                consts := [], patches := [], tensors := [] } }

/-- The state with an instruction's word where the next step fetches (log 12): a package that runs, one field of one furrow that has just
been placed and selected, and its code page translated, with a token of its sector at the core's die. -/
def State.withFetchWord (s : State) (nbits w : Nat) : State :=
  let x := w % 2 ^ nbits
  { s with
    powered := true, halted := false, ready := true,
    mem := cellsWrite s.mem 0x1000 (leBytes 12 x), poison := poisonAfter s.poison 0x1000 12,
    furrows := [probeFurrow], fields := [probeField], ctxs := [{ ctx := 1 }],
    dies := s.dies.set 0 { s.dies[0] with
      tlb := [{ asid := 0, vbase := 0x1000, size := 4096, pbase := 0x1000, g := false, u := true, x := true, w := false, r := true }] },
    sectors := [{ pa := 0x1000, holders := [{ agent := 0, n := 1, valid := true }, { agent := 8, n := 7, own := true, valid := true }] }],
    issue := some { core := 1, slot := 0, lanes := 0xFFFFFFFF } }

end Sys2Proof.Machine
end

