-- ==== Sys2Proof/Safety.lean ====
section
/-! DEFINITION. The terms statements use: what a step that goes on is, when an instruction issues with nothing else in its way, what
completing it leaves, and the invariants of the machine. -/
namespace Sys2Proof.Machine

/-! ### Runs -/

/-- A step that goes on. -/
def Steps (s t : State) : Prop := step s = .next t

/-- The states that steps lead to. -/
inductive Reaches : State → State → Prop
  | refl (s : State) : Reaches s s
  | tail {s t u : State} : Reaches s t → Steps t u → Reaches s u

/-- The memory is in its canonical form. -/
def MemOk (s : State) : Prop := Memory.wf s.mem = true

/-- Memory and the scratchpad, tile store and B-slice of every field are in their canonical form (log 1). -/
structure BytesOk (s : State) : Prop where
  mem : MemOk s
  fields : ∀ fl ∈ s.fields, cellsOk 0 fl.sp.cells = true ∧ cellsOk 0 fl.tile.cells = true ∧ cellsOk 0 fl.bsl.cells = true

/-! ### What software can see of a furrow -/

/-- The registers of a furrow: general, uniform and predicate registers with their banks, stream records, operand queues, handles, clause
flags, `FPENV`, the extended block, the level, the frames of its traps, and each lane's status and call stacks. -/
structure Regs where
  v : Vector (BitVec 1024) 128
  w : Vector (BitVec 64) 56
  wbank : Vector (Vector (BitVec 64) 8) 4
  p : Vector (BitVec 32) 6
  pbank : Vector (BitVec 32) 4
  s : Vector (BitVec 256) 8
  opq : Vector (List OpRow) 8
  h : Vector (BitVec 64) 16
  flags : BitVec 12
  fpenv : BitVec 32
  ext : Ext
  level : Nat
  frames : Vector (Option Frame) 3
  lanes : Vector Lane 32

/-- The registers of a furrow; `DSKIP`, a mark of the stepping hardware, and what the lanes' acquires order are left out. -/
def Furrow.regs (f : Furrow) : Regs :=
  { v := f.v, w := f.w, wbank := f.wbank, p := f.p, pbank := f.pbank, s := f.s, opq := f.opq, h := f.h, flags := f.flags, fpenv := f.fpenv,
    ext := f.ext, level := f.level, frames := f.frames, lanes := tableOf (fun i => { laneAt f.lanes i with dskip := false, floor := Vector.replicate 8 0 }) }

/-- The registers of the furrow in a slot. -/
def State.regs? (s : State) (core slot : Nat) : Option Regs := (s.furrow? core slot).map Furrow.regs

/-- The PC of the running group that holds exactly these lanes. -/
def Furrow.pcOf (f : Furrow) (lanes : Mask) : Option (BitVec 24) := (f.group? lanes).map Group.pc

/-! ### An instruction with nothing in its way -/

/-- Group g of furrow f issues: its field has not ended, no speculative fence runs ahead, no stepped return is under way, no trap of a first group
waits behind this one, and it is no access that completes by itself. -/
structure Stands (s : State) (q : Issue) (f : Furrow) (g : Group) : Prop where
  issue : s.issue = some q
  furrow : s.furrow? q.core q.slot = some f
  group : f.group? q.lanes = some g
  ahead : f.spec = none
  step : f.step = none
  alone : q.deferred = none
  own : q.back = none
  lives : f.ending = false

/-- Group g of furrow f issues instruction i with nothing in its way: the extended block is held where i names it, and i is not privileged at
level 0. -/
structure Issues (s : State) (q : Issue) (f : Furrow) (g : Group) (i : Instr) : Prop extends Stands s q f g where
  block : i.usesExtended = true → f.ext ≠ Ext.none
  right : isPrivileged i = true → f.level ≠ 0

/-- The issuing furrow has the registers of f1, and its group stands at the next word. -/
abbrev Lands (t : State) (q : Issue) (g : Group) (i : Instr) (f1 : Furrow) : Prop :=
  ∃ f', t.furrow? q.core q.slot = some f' ∧ f'.regs = f1.regs ∧ f'.pcOf g.lanes = some (nextPc g.pc i.words)

/-- What an instruction that completes leaves when its own effect turns s into u and the furrow into f1: the registers of f1, the group at the
next word, every other furrow's registers as they were, and nothing else of u changed but what the issue logic keeps for itself (PCs, pool
entries, register names, reuse tables with their counters, the issue register). -/
structure Completes (u t : State) (q : Issue) (g : Group) (i : Instr) (f1 : Furrow) : Prop where
  own : Lands t q g i f1
  others : ∀ c n, (c ≠ q.core ∨ n ≠ q.slot) → t.regs? c n = u.regs? c n
  rest : t = { u with furrows := t.furrows, cores := t.cores, issue := t.issue }

/-- Executing i answers a next state, and leaves u and f1. -/
def Does (s : State) (q : Issue) (g : Group) (i : Instr) (u : State) (f1 : Furrow) : Prop := ∃ t, exec i s = .next t ∧ Completes u t q g i f1

/-- Instruction i writes one `w` register (`w0` discards), and nothing else. -/
def WritesW (s : State) (q : Issue) (f : Furrow) (g : Group) (i : Instr) (d : Nat) (v : W64) : Prop :=
  Issues s q f g i → Does s q g i s (f.writeW d v)

/-- Instruction i writes the lanes of its active set in one predicate register (`p7` discards), and nothing else. -/
def WritesP (s : State) (q : Issue) (f : Furrow) (g : Group) (i : Instr) (d : Nat) (v : Mask) : Prop :=
  Issues s q f g i → Does s q g i s (f.writeP d (f.activeSet i g) v)

/-- The quarter of the issuing furrow has no unreserved block that a vector write could spill, and the furrow is not itself spilled (R73). -/
def NoSpill (s : State) (q : Issue) : Prop :=
  s.lastUnreserved q.core (quarterOf q.slot) = none ∧ (s.furrow? q.core q.slot).all (fun f => !f.spilled) = true

/-- A reuse entry that the issuing instruction would hit (R80) holds what the instruction gives: the results of f1 and the flags fl. -/
def HitHolds (s : State) (i : Instr) (f : Furrow) (g : Group) (m : Mask) (load : Bool) (f1 : Furrow) (fl : Nat) : Prop :=
  (i.reuseEligible || load) = true → ∀ k e, s.lookup i f g m load = some k → k.hit = some e →
    e.results = (vNames i.readsWrites.2).map f1.readV ∧ e.flags = fl

/-- Instruction i, its active set not empty and no trap of its flags enabled, writes a `v` register or pair in the lanes of its active set, raises the
flags of those lanes, and does nothing else; r gives each lane's bits and flags. -/
def WritesV (s : State) (q : Issue) (f : Furrow) (g : Group) (i : Instr) (t : Ty) (d : Nat) (r : Nat → Nat × Nat) : Prop :=
  Issues s q f g i → f.activeSet i g ≠ 0 → NoSpill s q →
    HitHolds s i f g (f.activeSet i g) false (f.writeLanes t d (f.activeSet i g) (fun l => (r l).1)) (flagsOver (f.activeSet i g) (fun l => (r l).2)) →
    flagsOver (f.activeSet i g) (fun l => (r l).2) &&& f.trapEnables = 0 →
    Does s q g i s ((f.writeLanes t d (f.activeSet i g) (fun l => (r l).1)).raise (flagsOver (f.activeSet i g) (fun l => (r l).2)))

/-- The bits and flags of lane l under an element-wise instruction (R211). -/
def Furrow.elemLane (f : Furrow) (x : LV) (op : Nat → Nat → Nat → Nat × Nat) (l : Nat) : Nat × Nat :=
  lanePack x.ty (fun k => op (elem x.ty (f.laneBits x.ty x.a.val l) k) (f.bElem x.ty x.b l k) (elem x.ty (f.laneBits x.ty x.c3.val l) k))

/-- The same for a result that an element-wise instruction computes from elements of A, of operand b and of C (R211). -/
def WritesElems (s : State) (q : Issue) (f : Furrow) (g : Group) (i : Instr) (x : LV) (op : Nat → Nat → Nat → Nat × Nat) : Prop :=
  WritesV s q f g i x.ty x.d.val (f.elemLane x op)

/-- The floating-point rows of R218 with their results, operands read and the mode and FTZ in force. -/
def floatOps (f : Furrow) (x : LV) : List (Instr × (Num → Num → Num → Nat × Nat)) :=
  let t := x.ty
  let m := f.rmode x.rm
  let z := f.ftz
  [(.vfadd x, fun a b _ => finish (addNum a b m) t m z), (.vfsub x, fun a b _ => finish (addNum a b.opp m) t m z),
   (.vfmul x, fun a b _ => finish (mulNum a b) t m z), (.vfma x, fun a b c => fmaNum a b c t m z), (.vfms x, fun a b c => fmaNum a b c.opp t m z),
   (.vfnma x, fun a b c => fmaNum a.opp b c t m z), (.vfdiv x, fun a b _ => divNum a b t m z), (.vfsqrt x, fun a _ _ => sqrtNum a t m z),
   (.vfmin x, fun a b _ => finish (minMaxNum a b false) t .rne false), (.vfmax x, fun a b _ => finish (minMaxNum a b true) t .rne false),
   (.vfrint x, fun a _ _ => rintNum a t m)]

/-- The bits and flags of lane l under one of these rows. -/
def Furrow.floatLane (f : Furrow) (x : LV) (op : Num → Num → Num → Nat × Nat) (l : Nat) : Nat × Nat :=
  let num := operandNum x.ty f.ftz
  lanePack x.ty (fun k => op (num (elem x.ty (f.laneBits x.ty x.a.val l) k)) (num (f.bElem x.ty x.b l k)) (num (elem x.ty (f.laneBits x.ty x.c3.val l) k)))

/-- The E2M1S halves that `vpklo` and `vpkhi` pack (R229): bits and flags of lane l. -/
def Furrow.packHalf (f : Furrow) (x : LV) (h l : Nat) : Nat × Nat :=
  let e := (List.range 4).map (fun k => encodeE2m1s (decodeNum .f32 (f.laneOf (x.a.val + k) l).toNat) (blockMeta f x.b l).1 (blockMeta f x.b l).2)
  (replaceElem .n16 (f.laneOf x.d.val l).toNat h ((e.map Prod.fst).foldr (fun y n => y + 16 * n) 0), (e.map Prod.snd).foldl (fun a y => a ||| y) 0)

/-- One value that `vupklo` and `vupkhi` unpack (R230): bits and flags of element k of half h in lane l. -/
def Furrow.unpacked (f : Furrow) (x : LV) (h k l : Nat) : Nat × Nat :=
  roundNum (decodeE2m1s (bitsOf (f.laneOf x.a.val l).toNat (16 * h + 4 * k) 4) (blockMeta f x.b l).1 (blockMeta f x.b l).2) .f32 (f.rmode x.rm) false false

/-- The furrow that `vupklo` or `vupkhi` leaves of lanes m, its flags aside, and those flags. -/
def Furrow.unpack (f : Furrow) (x : LV) (h : Nat) (m : Mask) : Furrow × Nat :=
  ((List.range 4).foldl (fun (v : Furrow) k => v.writeV (x.d.val + k) m (fun l => BitVec.ofNat 32 (f.unpacked x h k l).1)) f,
    flagsOver m (fun l => (List.range 4).foldl (fun a k => a ||| (f.unpacked x h k l).2) 0))

/-- Lane l's bits and flags under `vcvt` (R226 to R228). -/
def Furrow.converted (f : Furrow) (x : LV) (l : Nat) : Nat × Nat :=
  let p := cvtParts (immOf x.b)
  let r := convertNum p.1 x.ty (elem p.1 (f.laneBits p.1 x.a.val l) p.2.1) (f.rmode x.rm) x.sat
  (if x.ty.width < 32 then replaceElem x.ty (f.laneOf x.d.val l).toNat p.2.2 r.1 else r.1, r.2)

/-- What a scan gives lane l, and the flags of the whole scan (R204): `ex` for an exclusive one. -/
def Furrow.scanned (f : Furrow) (x : LV) (m : Mask) (k : Fold) (ex : Bool) (l : Nat) : Nat × Nat :=
  let xs := (lanesOf m).map (fun l => f.laneBits x.ty x.a.val l)
  let step := fun (y v : Nat) => combineBits k x.ty (f.rmode x.rm) f.ftz y v
  let run := fun (n : Nat) => (xs.take n).foldl (fun y v => (step y v).1) (foldIdentity k x.ty)
  let place := ((lanesOf m).filter (fun j => decide (j < l))).length
  (run (place + (if ex then 0 else 1)), (List.range xs.length).foldr (fun n a => (step (run n) (xs.getD n 0)).2 ||| a) 0)

/-- The exact results of the integer rows of R214 and R215. -/
def integerOps (x : LV) : List (Instr × (Int → Int → Int → Int)) :=
  [(.vadd x, fun a b _ => a + b), (.vsub x, fun a b _ => a - b), (.vmul x, fun a b _ => a * b), (.vmulh x, fun a b _ => a * b / 2 ^ x.ty.width),
   (.vmad x, fun a b c => a * b + c), (.vdiv x, fun a b _ => if b = 0 then -1 else a.tdiv b), (.vrem x, fun a b _ => if b = 0 then a else a.tmod b),
   (.vmin x, fun a b _ => min a b), (.vmax x, fun a b _ => max a b), (.vabs x, fun a _ _ => |a|), (.vneg x, fun a _ _ => -a),
   (.vabsd x, fun a b _ => |a - b|)]

/-- The rows beside `floatOps` that raise flags and write `v` registers lane by lane (R101, R205, R211): each with the type of its destination, and lane
l's bits and flags. -/
def flagRows (f : Furrow) (g : Group) (cc : Cc) (x : LV) : List (Instr × Ty × (Nat → Nat × Nat)) :=
  let one := fun (i : Instr) (op : Nat → Nat → Nat → Nat × Nat) => (i, x.ty, f.elemLane x op)
  let trans := fun (i : Instr) (n : Nat) => one i (fun a _ _ => transNum n x.ty a f.ftz)
  let reduce := fun (i : Instr) (k : Fold) =>
    (i, x.ty, fun (_ : Nat) => reduceBits k x.ty (f.rmode x.rm) f.ftz x.sat ((lanesOf (f.activeSet i g)).map (fun l => f.laneBits x.ty x.a.val l)))
  let scan := fun (i : Instr) (k : Fold) (ex : Bool) => (i, x.ty, f.scanned x (f.activeSet i g) k ex)
  (integerOps x).map (fun p => one p.1 (fun a b c => intResult x.sat x.ty (p.2 (intOf x.ty a) (intOf x.ty b) (intOf x.ty c))))
    ++ [one (.vfscale x) (fun a b _ => scaleNum (operandNum x.ty f.ftz a) (scaleExp x.ty x.b b) x.ty (f.rmode x.rm) f.ftz),
        one (.vset cc x) (fun a b _ => (if (condition f cc x.ty a b).1 then 2 ^ x.ty.width - 1 else 0, (condition f cc x.ty a b).2)),
        (.vcvt x, if x.ty.width = 64 then .n64 else .n32, f.converted x), (.vpklo x, .n32, f.packHalf x 0), (.vpkhi x, .n32, f.packHalf x 1),
        (.vscl x, .n32, fun l => scaleCode (operandNum .f32 f.ftz (f.laneOf x.a.val l).toNat) (sclEmax x.b)),
        trans (.vrcp x) 0, trans (.vrsqrt x) 1, trans (.vexp2 x) 2, trans (.vlog2 x) 3, trans (.vsinpi x) 4, trans (.vcospi x) 5, trans (.vtanh x) 6,
        reduce (.vredAdd x) .add, reduce (.vredMin x) .min, reduce (.vredMax x) .max,
        scan (.vscanAdd x) .add false, scan (.vscanMin x) .min false, scan (.vscanMax x) .max false,
        scan (.vscanxAdd x) .add true, scan (.vscanxMin x) .min true, scan (.vscanxMax x) .max true]

/-! ### Control transfers -/

/-- The PC of the running group that holds a lane. -/
def Furrow.pcAt (f : Furrow) (l : Nat) : Option (BitVec 24) := (f.groupOf? l).map Group.pc

/-- The issuing group has lanes, all of them live, and shares none with another group; every group has lanes. -/
structure WholeGroup (f : Furrow) (g : Group) : Prop where
  live : ∀ l, l < 32 → inMask g.lanes l = true → (laneAt f.lanes l).status = .live
  alone : ∀ h ∈ f.groups, h = g ∨ h.lanes &&& g.lanes = 0
  lanes : ∀ h ∈ f.groups, h.lanes ≠ 0

/-- Instruction i of a whole group changes its furrow's registers to those of f1, sends every lane l of the group to the PC `pcs` l, and does
nothing else. -/
def Transfers (s : State) (q : Issue) (f : Furrow) (g : Group) (i : Instr) (f1 : Furrow) (pcs : Nat → BitVec 24) : Prop :=
  Issues s q f g i → WholeGroup f g →
    ∃ t, exec i s = .next t
      ∧ (∃ f', t.furrow? q.core q.slot = some f' ∧ f'.regs = f1.regs ∧ ∀ l, l < 32 → inMask g.lanes l = true → f'.pcAt l = some (pcs l))
      ∧ (∀ c n, (c ≠ q.core ∨ n ≠ q.slot) → t.regs? c n = s.regs? c n)
      ∧ t = { s with furrows := t.furrows, cores := t.cores, issue := t.issue }

/-! ### Traps -/

/-- A trap of the issuing group of furrow f can be entered now, at level n: its context routes it there, some lanes that run trap, a permit is there where
one is needed, and no second group of a pair stands behind. -/
structure TrapReady (s : State) (q : Issue) (f : Furrow) (r : TrapReq) (n : Nat) : Prop where
  route : ∃ c, s.ctx? (s.ctxOf f) = some c ∧ routeTrap c r.code f.level = some n
  lanes : r.lanes ≠ 0
  inside : r.lanes &&& f.running = r.lanes
  permit : f.level ≠ 0 ∨ f.permit = true ∨ s.permitFor f r.lanes = true
  first : q.second = none

/-- A trap r of furrow f has been entered at level n in state t (R324): the level; the frame with cause, FROM, argument, lanes, fault address and the lane
records of the trapping lanes; the trapping lanes as one group at the entry packet of the cause's class; the other running lanes held; the registers as
they were. -/
def TrapTaken (t : State) (q : Issue) (f : Furrow) (r : TrapReq) (n : Nat) : Prop :=
  ∃ f', t.furrow? q.core q.slot = some f' ∧ f'.level = n
    ∧ (∃ fr, f'.frame? n = some fr ∧ fr.code = r.code ∧ fr.info = r.info ∧ fr.fromLevel = f.level ∧ fr.arg = r.arg ∧ fr.tlane = r.lanes
        ∧ fr.val = laneAt r.eaddr (lowestLane r.lanes)
        ∧ ∀ l, l < 32 → inMask r.lanes l = true →
            (laneAt fr.lrec l).state = 1 ∧ (laneAt fr.lrec l).t = true ∧ (laneAt fr.lrec l).pc = laneAt r.pcs l)
    ∧ (∃ h ∈ f'.groups, h.level = n ∧ h.lanes = r.lanes ∧ h.pc = pcOfPacket (8 * causeClass r.code))
    ∧ (∀ l, l < 32 → inMask f.running l = true → inMask r.lanes l = false → (laneAt f'.lanes l).status = .held)
    ∧ (f.level = 0 → f'.permit = true)
    ∧ f'.v = f.v ∧ f'.w = f.w ∧ f'.wbank = f.wbank ∧ f'.p = f.p ∧ f'.pbank = f.pbank ∧ f'.s = f.s ∧ f'.opq = f.opq ∧ f'.h = f.h
    ∧ f'.fpenv = f.fpenv ∧ f'.ext = f.ext

/-- Instruction i of the issuing group takes trap r instead of its effect, at the level its context routes the cause to; where it routes it to none
(level 3, R320), its context ends with a context fault (R321); a service context does not end, since its fields end only with their firmware (R18): there
the furrow issues nothing more (the model's choice between the two rules, log 99). -/
def Traps (s : State) (q : Issue) (f : Furrow) (i : Instr) (r : TrapReq) : Prop :=
  (∀ n, TrapReady s q f r n → ∃ t, exec i s = .next t ∧ TrapTaken t q f r n)
  ∧ (∀ c, s.ctx? (s.ctxOf f) = some c → routeTrap c r.code f.level = none → c.ended = none → q.second = none → r.lanes ≠ 0 →
      r.lanes &&& f.running = r.lanes →
      ∃ t, exec i s = .next t
        ∧ (c.service = false → (t.ctx? c.ctx).bind Ctx.ended = some { code := 3, detail := 3 * 256 + r.code, loc := s.locOf f })
        ∧ (c.service = true → ∃ f', t.furrow? q.core q.slot = some f' ∧ f'.dead = true ∧ f'.regs = f.regs))

/-- A trap that instruction i of g takes once it has completed can be entered at level n: as any trap, and no back-off of the group, which completing
ends, holds a permit for it. -/
def LateReady (s : State) (q : Issue) (f : Furrow) (g : Group) (r : TrapReq) (n : Nat) : Prop :=
  TrapReady s q f r n ∧ (g.backoff = none ∨ f.level ≠ 0 ∨ f.permit = true)

/-- Instruction i, which in lanes m leaves the furrow f1 and raises the flags fl, some of them enabled, takes the floating-point trap after it has
completed (R102): its results are written, its flags raised, and the lanes of m trap at the next instruction with the enabled flags as INFO. -/
def TrapsAfter (s : State) (q : Issue) (f : Furrow) (g : Group) (i : Instr) (m : Mask) (f1 : Furrow) (fl : Nat) : Prop :=
  ∀ n, let r := trapAt m 0x28 (fl &&& f.trapEnables) (nextPc g.pc i.words)
    Issues s q f g i → ((NoSpill s q ∧ HitHolds s i f g m false f1 fl) ∨ vNames i.readsWrites.2 = []) → fl &&& f.trapEnables ≠ 0 → LateReady s q f g r n →
      ∃ t, exec i s = .next t ∧ TrapTaken t q (f1.raise fl) r n

/-! ### Accesses -/

/-- No furrow runs ahead of a speculative fence. -/
def NoneAhead (s : State) : Prop := ∀ v ∈ s.furrows, v.spec = none

/-- The lanes of a mask pass every check of an access (R239) and meet no watchpoint (R333): `as` gives each lane's address and place, and s1 is the state
after their translations. The group has no access under way. -/
structure Passes (s : State) (f : Furrow) (g : Group) (m : Mask) (size align : Nat) (kind : AccessKind) (unsup : State → Spot → Bool)
    (ea : Nat → Nat) (s1 : State) (as : List (Nat × Nat × Spot)) : Prop where
  fresh : g.accessing = false
  checks : ∃ r, State.checkLanes f size align kind unsup ea (lanesOf m) s = (s1, r) ∧ firstRank r = none ∧ r.filterMap LaneAcc.ok? = as
  watch : s1.watchTrap f as size kind = none

/-- The tokens of some places are held by the furrow's die (R378). -/
def TokensHeld (s : State) (f : Furrow) (write : Bool) (ts : List Spot) : Prop := s.lacking (dieAgent f.core) write (spotSectors ts) = []

/-- The byte of a space, memory or a field's scratchpad, at an address. -/
def State.cell (s : State) (space : Option Nat) (a : Nat) : Byte :=
  match space with
  | none => s.byteAt a
  | some fd => ((s.field? fd).map (fun fl => cellsGet fl.sp.cells a)).getD 0

/-- The writes of some lanes' accesses in their order: space, address, bytes. -/
def writesOf (as : List (Nat × Nat × Spot)) (data : Nat → List Byte) : List (Option Nat × Nat × List Byte) :=
  (as.map (fun a => match a.2.2 with
    | .scratch fd off => [(some fd, off, data a.1)]
    | .global ps => (pieceWrites a.1 true a.2.1 ps (data a.1)).map (fun w => (none, w.pa, w.bytes)))).flatten

/-- The byte that the last of some writes gives a place, none where none of them reaches it. -/
def lastByte (ws : List (Option Nat × Nat × List Byte)) (space : Option Nat) (a : Nat) : Option Byte :=
  (ws.filterMap (fun w => if w.1 = space ∧ w.2.1 ≤ a then w.2.2[a - w.2.1]? else none)).getLast?

/-- State t holds the bytes of s with some writes done in their order, in memory and in the scratchpads of every field. -/
def Stored (s t : State) (ws : List (Option Nat × Nat × List Byte)) : Prop :=
  ∀ space a, (∀ fd, space = some fd → (s.field? fd).isSome = true) → t.cell space a = (lastByte ws space a).getD (s.cell space a)

/-- The stores of furrow f that are still to be performed go on waiting, and touch none of some sectors: each lacks a token of one of its own. -/
def PostedWait (s : State) (f : Furrow) (secs : List Nat) : Prop :=
  ∀ p ∈ f.posted, ∀ w ∈ p.writes, s.lacking (dieAgent f.core) true (sectorsOf w.pa w.bytes.length) ≠ [] ∧ ∀ x ∈ sectorsOf w.pa w.bytes.length, x ∉ secs

/-- No plain store of a scratchpad in the record is one under which a store of furrow f's lanes m may come in coherence order (log 5): each has been
read, is a lane's own or is visible to it. -/
def NonePassed (s : State) (f : Furrow) (m : Mask) : Prop :=
  ∀ w ∈ s.recent, w.plain = true → w.seen ≠ [] ∨ ∀ l, l < 32 → inMask m l = true →
    w.by_.meets (f.party (1 <<< l)) = true ∨ (w.visTo (f.party (1 <<< l))).isSome = true

/-- State t holds the bytes of s outside the places of some writes, and the written bytes too unless one of those came under another write. -/
def Wrote (s s1 t : State) (f : Furrow) (m : Mask) (ws : List (Option Nat × Nat × List Byte)) : Prop :=
  (∀ space a, (∀ fd, space = some fd → (s.field? fd).isSome = true) → lastByte ws space a = none → t.cell space a = s.cell space a)
  ∧ (NonePassed s1 f m → Stored s t ws)

/-- Every other furrow keeps its registers. -/
def OthersKept (s t : State) (q : Issue) : Prop := ∀ c n, (c ≠ q.core ∨ n ≠ q.slot) → t.regs? c n = s.regs? c n

/-- A furrow that the issue register keeps, to undo what came before the first instruction of a chain (R33, R168): it has the registers of f, and its group g
stands at the same PC. -/
def StandsAs (u f : Furrow) (g : Group) : Prop :=
  u.core = f.core ∧ u.slot = f.slot ∧ u.regs = f.regs ∧ ∃ h, u.group? g.lanes = some h ∧ h.pc = g.pc

/-- What the issue register would put back, if its group turns out to wait, is f with g where it stands: g has entered no clause with this chain. -/
def Undoes (q : Issue) (f : Furrow) (g : Group) : Prop := ∀ u, q.undo = some u ∨ q.reopen = some u → StandsAs u f g

/-- The issuing group waits for w at its instruction: registers as they were, nothing else of s changed. -/
def WaitsFor (s : State) (q : Issue) (f : Furrow) (g : Group) (i : Instr) (w : Wait) : Prop :=
  Undoes q f g →
    ∃ t f' h, exec i s = .next t ∧ t.furrow? q.core q.slot = some f' ∧ f'.regs = f.regs ∧ f'.group? g.lanes = some h ∧ h.pc = g.pc
      ∧ h.wait = some w ∧ OthersKept s t q ∧ t.mem = s.mem ∧ t.fields = s.fields ∧ t.commands = s.commands

/-! ### System registers, atomics and messages by name -/

/-- The value that `srr` of a register number returns (R316, R317, R319, R348, R349), where f's level may read it. -/
def sysValues (s : State) (f : Furrow) : List (BitVec 12 × W64) :=
  let c : Ctx := (s.ctx? (s.ctxOf f)).getD { ctx := 0 }
  let k := (s.core f.core).countersOf (s.ctxOf f)
  let sup := fun (r : Frame → W64) => match f.frame? 2, f.frame? 1 with
    | some fr, _ => r fr
    | none, some fr => r fr
    | none, none => 0
  let hyp := fun (r : Frame → W64) => match f.frame? 3 with
    | some fr => r fr
    | none => 0
  let cause := fun (fr : Frame) => BitVec.ofNat 64 (fr.info * 2 ^ 24 + fr.fromLevel * 2 ^ 16 + fr.code)
  [(0x000#12, f.fpenv.setWidth 64), (0x001#12, locId s.pkg f.core f.slot), (0x004#12, c.reuseCtl.setWidth 64), (0x005#12, BitVec.ofNat 64 f.level),
   (0x010#12, k.hit), (0x011#12, k.ldhit), (0x012#12, k.kill), (0x013#12, k.share), (0x014#12, k.coll), (0x015#12, k.roll), (0x100#12, c.tvecS),
   (0x101#12, sup cause), (0x102#12, sup (fun fr => fr.tlane.setWidth 64)), (0x103#12, sup Frame.val), (0x104#12, sup Frame.arg),
   (0x107#12, c.fwdog.setWidth 64), (0x108#12, c.tresp.setWidth 64), (0x109#12, BitVec.ofNat 64 (s.permitsFree f.core)),
   (0x110#12, c.bpt[0]), (0x111#12, c.bpt[1]), (0x112#12, c.bpt[2]), (0x113#12, c.bpt[3]), (0x118#12, c.wpt[0]), (0x119#12, c.wpt[1]), (0x180#12, c.troot),
   (0x181#12, c.tasid.setWidth 64), (0x200#12, c.hctl), (0x201#12, c.hdeleg), (0x202#12, c.tvecH), (0x203#12, hyp cause),
   (0x204#12, hyp (fun fr => fr.tlane.setWidth 64)), (0x205#12, hyp Frame.val), (0x206#12, hyp Frame.arg), (0x290#12, s.accfg.setWidth 64)]
    ++ (List.finRange 16).map (fun k => (0x280#12 + BitVec.ofNat 12 k.val, c.hpar[k]))

/-- R249 to R252, R136: the nine atomics, each with what it writes from the old value, the lane's operand and its second operand (n the type). -/
def atomOps (x : LA) : List (Instr × (Nat → Nat → Nat → Nat)) :=
  let t := x.ty
  [(.atomAdd x, fun old b _ => ((intOf t old + intOf t b) % (2 ^ t.width : Nat)).toNat),
   (.atomMin x, fun old b _ => (min (intOf t old) (intOf t b) % (2 ^ t.width : Nat)).toNat),
   (.atomMax x, fun old b _ => (max (intOf t old) (intOf t b) % (2 ^ t.width : Nat)).toNat),
   (.atomAnd x, fun old b _ => old &&& b), (.atomOr x, fun old b _ => old ||| b), (.atomXor x, fun old b _ => old ^^^ b),
   (.atomExch x, fun _ b _ => b), (.atomCas x, fun old b c => if old = b then c else old),
   (.atomFadd x, fun old b _ => (finish (addNum (decodeNum t old) (decodeNum t b) .rne) t .rne false).1)]

/-- The tokens of a sector, held and in flight (R371). -/
def State.tokensOf (s : State) (pa : Nat) : Nat :=
  ((s.sector pa).holders.map Holder.n).sum
    + ((s.net.filter (fun m => m.typ == 2 && sectorOf m.sector == sectorOf pa)).map Message.count).sum

/-- Its owner tokens, held and in flight (R371). -/
def State.ownersOf (s : State) (pa : Nat) : Nat :=
  (s.sector pa).holders.countP Holder.own + s.net.countP (fun m => m.typ == 2 && m.own && sectorOf m.sector == sectorOf pa)

/-- A message of a type from one agent to another for a sector, sent now, that meets p. -/
def State.sends (t : State) (typ src dst pa : Nat) (p : Message → Prop) : Prop :=
  ∃ k ∈ t.net, k.typ = typ ∧ k.src = src ∧ k.dst = dst ∧ k.sector = pa ∧ k.sentAt = t.cycles ∧ p k

end Sys2Proof.Machine
end

