-- ==== Sys2Proof/WellFormed.lean ====
section
/-! DEFINITION. Well-formed instructions: those whose operand fields hold only values their row accepts (R163, R166, R212). The
acceptance table stands beside the encodings in Decode.lean, since the decoder applies it to every word. -/
namespace Sys2Proof

/-- An instruction that some word encodes. Events and commands have no word and are not well-formed. -/
def Instr.wf (i : Instr) : Bool := i.accepts

end Sys2Proof
end

