-- ==== Sys2Proof/Certificates/Slice0/Obligations.lean ====
section
/-! DEFINITION. What is claimed of the machine: each statement names the rules of the specification it formalises. -/
open Sys2Proof Sys2Proof.Machine

/-! ### Uniform instructions, predicates and register files -/

/-- R182 to R184: the uniform arithmetic of major 0x02, division and `uins8` aside: each instruction writes its result in w[WD] and changes nothing
else; IMM8 is read signed but for `umulh.n64`, `umin.n64` and `umax.n64`. Under the hypotheses given each of these answers a next state: `UADD`,
`USUB`, `URSUB`, `UMUL`, `UMULH_I64`, `UMULH_N64`, `UMIN_I64`, `UMAX_I64`, `UMIN_N64`, `UMAX_N64`. -/
def Obligations.UniformArithmetic : Prop :=
  ∀ (s : State) (q : Issue) (f : Furrow) (g : Group) (x : SU),
    let a := f.readW x.wa.val
    let b := f.uop x.b true
    let n := f.uop x.b false
    let is := fun (i : Instr) (v : W64) => WritesW s q f g i x.wd.val v
    is (.uadd x) (a + b) ∧ is (.usub x) (a - b) ∧ is (.ursub x) (b - a) ∧ is (.umul x) (a * b)
    ∧ is (.umulhI64 x) ((a.signExtend 128 * b.signExtend 128).extractLsb' 64 64)
    ∧ is (.umulhN64 x) ((a.setWidth 128 * n.setWidth 128).extractLsb' 64 64)
    ∧ is (.uminI64 x) (if a.toInt ≤ b.toInt then a else b) ∧ is (.umaxI64 x) (if b.toInt ≤ a.toInt then a else b)
    ∧ is (.uminN64 x) (if a.toNat ≤ n.toNat then a else n) ∧ is (.umaxN64 x) (if n.toNat ≤ a.toNat then a else n)

/-- R185: division and remainder: truncated toward zero, the remainder with the dividend's sign; by 0 the quotient is all ones and the remainder is
a; -2^63 by -1 gives -2^63 and 0; no flag, no trap. Under the hypotheses given each of these answers a next state: `UDIV_I64`, `UDIV_N64`,
`UREM_I64`, `UREM_N64`. -/
def Obligations.UniformDivision : Prop :=
  (∀ (s : State) (q : Issue) (f : Furrow) (g : Group) (x : SU),
    let a := f.readW x.wa.val
    let b := f.uop x.b true
    let n := f.uop x.b false
    let is := fun (i : Instr) (v : W64) => WritesW s q f g i x.wd.val v
    is (.udivN64 x) (if n = 0 then 0xFFFFFFFFFFFFFFFF else BitVec.ofNat 64 (a.toNat / n.toNat))
    ∧ is (.uremN64 x) (if n = 0 then a else BitVec.ofNat 64 (a.toNat % n.toNat))
    ∧ is (.udivI64 x) (if b = 0 then 0xFFFFFFFFFFFFFFFF else BitVec.ofInt 64 (a.toInt.tdiv b.toInt))
    ∧ is (.uremI64 x) (if b = 0 then a else BitVec.ofInt 64 (a.toInt.tmod b.toInt)))
  ∧ (∀ a b : W64, a.toInt = -(2 : Int) ^ 63 → b.toInt = -1 →
      (BitVec.ofInt 64 (a.toInt.tdiv b.toInt)).toInt = -(2 : Int) ^ 63 ∧ BitVec.ofInt 64 (a.toInt.tmod b.toInt) = 0)

/-- R186, R184: major 0x03 and `uins8`: each instruction writes its result in w[WD] and changes nothing else. Under the hypotheses given each of
these answers a next state: `UINS8`, `UAND`, `UOR`, `UXOR`, `UANDN`, `USHL`, `USHR_N64`, `USHR_I64`, `UROT`, `USEQ`, `USNE`, `USLT_I64`, `USLT_N64`,
`USLE_I64`, `USLE_N64`, `UPOPC`, `UCLZ`. -/
def Obligations.UniformLogic : Prop :=
  (∀ (s : State) (q : Issue) (f : Furrow) (g : Group) (x : SU),
    let a := f.readW x.wa.val
    let b := f.uop x.b true
    let n := f.uop x.b false
    let is := fun (i : Instr) (v : W64) => WritesW s q f g i x.wd.val v
    is (.uand x) (a &&& b) ∧ is (.uor x) (a ||| b) ∧ is (.uxor x) (a ^^^ b) ∧ is (.uandn x) (a &&& ~~~b)
    ∧ is (.ushl x) (BitVec.ofNat 64 (a.toNat * 2 ^ (n.toNat % 64))) ∧ is (.ushrN64 x) (BitVec.ofNat 64 (a.toNat / 2 ^ (n.toNat % 64)))
    ∧ is (.ushrI64 x) (BitVec.ofInt 64 (a.toInt / 2 ^ (n.toNat % 64))) ∧ is (.urot x) (a.rotateRight (n.toNat % 64))
    ∧ is (.useq x) (if a = b then 1 else 0) ∧ is (.usne x) (if a = b then 0 else 1)
    ∧ is (.usltI64 x) (if a.toInt < b.toInt then 1 else 0) ∧ is (.usltN64 x) (if a.toNat < n.toNat then 1 else 0)
    ∧ is (.usleI64 x) (if a.toInt ≤ b.toInt then 1 else 0) ∧ is (.usleN64 x) (if a.toNat ≤ n.toNat then 1 else 0))
  ∧ (∀ (s : State) (q : Issue) (f : Furrow) (g : Group) (x : SUUn),
    WritesW s q f g (.upopc x) x.wd.val (BitVec.ofNat 64 ((List.range 64).filter (fun k => (f.readW x.wa.val).getLsbD k)).length)
    ∧ WritesW s q f g (.uclz x) x.wd.val (BitVec.ofNat 64 (((List.range 64).reverse.takeWhile (fun k => !(f.readW x.wa.val).getLsbD k)).length)))
  ∧ (∀ (s : State) (q : Issue) (f : Furrow) (g : Group) (x : SUImm),
    WritesW s q f g (.uins8 x) x.wd.val ((f.readW x.wa.val <<< 8) + x.b.setWidth 64))

/-- R197: predicate operations: the lanes of the issuing group whose guard is true take the value, and nothing else changes; `p7` discards. Under the
hypotheses given each of these answers a next state: `PAND`, `POR`, `PXOR`, `PANDN`, `PNOT`, `PLT`. -/
def Obligations.Predicates : Prop :=
  ∀ (s : State) (q : Issue) (f : Furrow) (g : Group),
    (∀ x : SP3,
      let a := f.readP x.pa.val
      let b := f.readP x.pb.val
      WritesP s q f g (.pand x) x.pd.val (a &&& b) ∧ WritesP s q f g (.por x) x.pd.val (a ||| b) ∧ WritesP s q f g (.pxor x) x.pd.val (a ^^^ b)
      ∧ WritesP s q f g (.pandn x) x.pd.val (a &&& ~~~b))
    ∧ (∀ x : SP2, WritesP s q f g (.pnot x) x.pd.val (~~~(f.readP x.pa.val)))
    ∧ (∀ x : SPn, WritesP s q f g (.plt x) x.pd.val (BitVec.ofNat 32 (2 ^ x.n.toNat - 1)))

/-- R65, R67, R68, R209, R211, R314: `w0` reads 0 and discards writes, `p7` reads all ones and discards writes; every other register reads what was
written last, a predicate in the lanes written. `w56` to `w63` and `p6` name the bank of the furrow's level: what is written at one level does not
reach what another level reads there, while every other register is the same at all levels. a vector write updates the lanes of its mask, in both
registers of a pair, and every other lane of every register keeps its value. the element k of a lane put together from element results is result k,
for every type and every result of its width. -/
def Obligations.RegisterFiles : Prop :=
  ((∀ (f : Furrow), f.readW 0 = 0 ∧ f.readP 7 = 0xFFFFFFFF)
  ∧ (∀ (f : Furrow) (n k : Fin 64) (x : W64), (f.writeW n.val x).readW k.val = if n = k ∧ n ≠ 0 then x else f.readW k.val)
  ∧ (∀ (f : Furrow) (n k : Fin 8) (m x : Mask) (i : Nat), i < 32 →
      inMask ((f.writeP n.val m x).readP k.val) i = if n = k ∧ n ≠ 7 ∧ inMask m i then inMask x i else inMask (f.readP k.val) i)
  ∧ (∀ (f : Furrow) (n k : Fin 64) (a b : Fin 4) (x : W64), let at_ := fun (v : Furrow) (l : Fin 4) => { v with level := l.val }
      a ≠ b → (at_ ((at_ f a).writeW n.val x) b).readW k.val = if n = k ∧ n ≠ 0 ∧ n.val < 56 then x else (at_ f b).readW k.val)
  ∧ (∀ (f : Furrow) (n k : Fin 8) (a b : Fin 4) (m x : Mask) (i : Nat), let at_ := fun (v : Furrow) (l : Fin 4) => { v with level := l.val }
      a ≠ b → i < 32 → inMask ((at_ ((at_ f a).writeP n.val m x) b).readP k.val) i =
        if n = k ∧ n.val < 6 ∧ inMask m i then inMask x i else inMask ((at_ f b).readP k.val) i))
  ∧ ((∀ (f : Furrow) (d n : Fin 128) (m : Mask) (x : Nat → W32) (i : Nat), i < 32 →
      (f.writeV d.val m x).laneOf n.val i = if n = d ∧ inMask m i then x i else f.laneOf n.val i)
  ∧ (∀ (f : Furrow) (d n : Nat) (m : Mask) (x : Nat → W64) (i : Nat), i < 32 → d < 127 → n < 128 →
      (f.writePair d m x).laneOf n i =
        if inMask m i ∧ n = d then (x i).extractLsb' 0 32 else if inMask m i ∧ n = d + 1 then (x i).extractLsb' 32 32 else f.laneOf n i))
  ∧ (∀ (t : Ty) (r : Nat → Nat × Nat) (k : Nat), 0 < t.width → k < perLane t → (∀ j, (r j).1 < 2 ^ t.width) → elem t (lanePack t r).1 k = (r k).1)

/-! ### Vector instructions -/

/-- R4, R199, R211, R239: an element-wise, select, conversion or transcendental instruction, a vote, a shuffle, a reduction or a scan whose active
set is empty retires with no effect; so does a load, a store, a gather, a scatter, an atomic or a `waita`, which has no access under way. -/
def Obligations.EmptyActiveSet : Prop :=
  (∀ (s : State) (q : Issue) (f : Furrow) (g : Group) (x : LV) (cc : Cc) (i : Instr),
    i ∈ [.vadd x, .vsub x, .vmul x, .vmulh x, .vmad x, .vdiv x, .vrem x, .vmin x, .vmax x, .vabs x, .vneg x, .vabsd x, .vand x, .vor x, .vxor x,
         .vandn x, .vnot x, .vshl x, .vshr x, .vrot x, .vpopc x, .vclz x, .vbrev x, .vbfe x, .vbfi x, .vmov x, .vfadd x, .vfsub x, .vfmul x, .vfma x,
         .vfms x, .vfnma x, .vfdiv x, .vfsqrt x, .vfmin x, .vfmax x, .vfabs x, .vfneg x, .vfrint x, .vfscale x, .vcmp cc x, .vset cc x, .vsel x,
         .vfclass x, .vcvt x, .vpklo x, .vpkhi x, .vupklo x, .vupkhi x, .vscl x, .vrcp x, .vrsqrt x, .vexp2 x, .vlog2 x, .vsinpi x, .vcospi x,
         .vtanh x, .vfirst x, .vballot x, .psetw x, .vall x, .vany x, .vuni x, .vlane x, .shflIdx x, .shflUp x, .shflDown x, .shflXor x, .vredAdd x,
         .vredMin x, .vredMax x, .vredAnd x, .vredOr x, .vredXor x, .vscanAdd x, .vscanMin x, .vscanMax x, .vscanxAdd x, .vscanxMin x,
         .vscanxMax x] →
    Issues s q f g i → f.activeSet i g = 0 → Does s q g i s f)
  ∧ (∀ (s : State) (q : Issue) (f : Furrow) (g : Group) (y : LM) (z : LA) (w : LW) (i : Instr),
    i ∈ [.ld y, .ldAcq y, .ldw y, .ldwAcq y, .st y, .stRel y, .stw y, .stwRel y, .gth y, .sct y, .waita w] ++ (atomOps z).map Prod.fst →
    Issues s q f g i → g.accessing = false → f.activeSet i g = 0 → Does s q g i s f)

/-- R89, R101, R214, R215: the integer rows with an exact result: with SAT the result clamped, else wrapped; `vdiv` and `vrem` by 0 give all ones and
a. the narrowing of an exact integer result: wrapped, it is congruent to the result; with SAT, it is the result where the type holds it, with no
flag, and the nearest bound where not, with the flags SAT and NX (that a clamp raises NX too is log 125's reading of R101). Under the hypotheses
given each of these answers a next state: `VADD`, `VSUB`, `VMUL`, `VMULH`, `VMAD`, `VDIV`, `VREM`, `VMIN`, `VMAX`, `VABS`, `VNEG`, `VABSD`. -/
def Obligations.VectorInteger : Prop :=
  (∀ (s : State) (q : Issue) (f : Furrow) (g : Group) (x : LV),
    ∀ p ∈ integerOps x, WritesElems s q f g p.1 x (fun a b c => intResult x.sat x.ty (p.2 (intOf x.ty a) (intOf x.ty b) (intOf x.ty c))))
  ∧ (∀ (t : Ty) (x : Int), t.isInt = true →
    ((intResult false t x).2 = 0 ∧ (2 ^ t.width : Int) ∣ (((intResult false t x).1 : Int) - x) ∧ (intResult false t x).1 < 2 ^ t.width)
    ∧ (let lo : Int := if t.isSigned then -(2 : Int) ^ (t.width - 1) else 0
       let hi : Int := if t.isSigned then (2 : Int) ^ (t.width - 1) - 1 else 2 ^ t.width - 1
       intOf t (intResult true t x).1 = max lo (min hi x) ∧ (intResult true t x).2 = if lo ≤ x ∧ x ≤ hi then 0 else flSAT ||| flNX))

/-- R214, R216, R217: the rows on bit patterns, shifts, counts and bit fields, each of the element's width n. `vrot`, `vpopc`, `vclz`, `vbrev`,
`vbfe`, `vbfi` bit by bit: bit j of the rotation is bit j + k of a, modulo n; bit j of the reversal is bit n - 1 - j; the count is the number of set
bits; the leading zeros are those above the highest set bit; with pos and len the low two bytes of b, both at most n, the extraction moves bits pos
to pos + len - 1 of a down to bit 0, filled with 0, or for a signed type with copies of the field's top bit (bits of a above n being its sign); the
insertion puts the low len bits of a at pos of c and leaves every other bit of c. Under the hypotheses given each of these answers a next state:
`VAND`, `VOR`, `VXOR`, `VANDN`, `VNOT`, `VSHL`, `VSHR`, `VROT`, `VPOPC`, `VCLZ`, `VBREV`, `VBFE`, `VBFI`, `VMOV`. -/
def Obligations.VectorBits : Prop :=
  (∀ (s : State) (q : Issue) (f : Furrow) (g : Group) (x : LV),
    let n := x.ty.width
    let is := fun (i : Instr) (op : Nat → Nat → Nat → Nat) => WritesElems s q f g i x (fun a b c => (op a b c, 0))
    is (.vand x) (fun a b _ => (a &&& b) % 2 ^ n) ∧ is (.vor x) (fun a b _ => (a ||| b) % 2 ^ n) ∧ is (.vxor x) (fun a b _ => (a ^^^ b) % 2 ^ n)
    ∧ is (.vandn x) (fun a b _ => (a &&& (2 ^ n - 1 - b)) % 2 ^ n) ∧ is (.vnot x) (fun a _ _ => (2 ^ n - 1 - a) % 2 ^ n)
    ∧ is (.vshl x) (fun a b _ => a * 2 ^ (b % n) % 2 ^ n) ∧ is (.vshr x) (fun a b _ => (intOf x.ty a / 2 ^ (b % n) % (2 ^ n : Nat)).toNat)
    ∧ is (.vrot x) (fun a b _ => rotateBits n a (b % n) % 2 ^ n)
    ∧ is (.vpopc x) (fun a _ _ => popCount a n % 2 ^ n) ∧ is (.vclz x) (fun a _ _ => leadingZeros a n % 2 ^ n)
    ∧ is (.vbrev x) (fun a _ _ => reverseBits n a % 2 ^ n) ∧ is (.vbfe x) (fun a b _ => extractBits x.ty a b % 2 ^ n)
    ∧ is (.vbfi x) (fun a b c => insertBits n a b c) ∧ is (.vmov x) (fun _ b _ => b % 2 ^ n))
  ∧ (∀ (n a : Nat), 0 < n → a < 2 ^ n →
    (∀ j k, j < n → k < n → (rotateBits n a k).testBit j = a.testBit ((j + k) % n))
    ∧ (∀ j, j < n → (reverseBits n a).testBit j = a.testBit (n - 1 - j))
    ∧ (leadingZeros a n ≤ n ∧ (∀ j, n - leadingZeros a n ≤ j → a.testBit j = false)
        ∧ (leadingZeros a n < n → a.testBit (n - 1 - leadingZeros a n) = true))
    ∧ popCount a n = (Nat.digits 2 a).sum)
  ∧ (∀ (t : Ty) (a b j : Nat), let n := t.width
    let pos := min (b % 256) n
    let len := min (b / 256 % 256) n
    j < n → a < 2 ^ n → (extractBits t a b).testBit j =
      (decide (len ≠ 0) && if t.isSigned then a.testBit (min (pos + min j (len - 1)) (n - 1)) else decide (j < len) && a.testBit (pos + j)))
  ∧ (∀ (n a b c j : Nat), let pos := min (b % 256) n
    let len := min (b / 256 % 256) n
    j < n → c < 2 ^ n → (insertBits n a b c).testBit j = if pos ≤ j ∧ j < pos + len then a.testBit (j - pos) else c.testBit j)

/-- R218 to R221, R203: floating-point instructions while no flag they raise is enabled to trap: operands through operand() under FTZ, one rounding
in the mode in force, flags of the active lanes raised. Under the hypotheses given each of these answers a next state: `VFADD`, `VFSUB`, `VFMUL`,
`VFMA`, `VFMS`, `VFNMA`, `VFDIV`, `VFSQRT`, `VFMIN`, `VFMAX`, `VFABS`, `VFNEG`, `VFRINT`, `VFSCALE`. -/
def Obligations.VectorFloat : Prop :=
  ∀ (s : State) (q : Issue) (f : Furrow) (g : Group) (x : LV),
    (∀ p ∈ floatOps f x, WritesV s q f g p.1 x.ty x.d.val (f.floatLane x p.2))
    ∧ WritesElems s q f g (.vfabs x) x (fun a _ _ => (a % 2 ^ (x.ty.width - 1), 0))
    ∧ WritesElems s q f g (.vfneg x) x (fun a _ _ => (a ^^^ 2 ^ (x.ty.width - 1), 0))
    ∧ WritesElems s q f g (.vfscale x) x (fun a b _ => scaleNum (operandNum x.ty f.ftz a) (scaleExp x.ty x.b b) x.ty (f.rmode x.rm) f.ftz)

/-- R102, R205, R211: an instruction that raises an enabled flag takes the floating-point trap after it has completed: its results are written, its
flags raised, and every lane of its active set traps at the next instruction with the enabled flags as INFO. It covers every row that raises flags:
the floating-point rows, the integer rows with SAT, `vfscale`, `vcmp`, `vset`, the conversions, packing and unpacking, `vscl`, the transcendentals,
the reductions and the scans. Where the trap is routed to no level its context ends instead (`TrapReady`), and a back-off that the instruction's
completion ends holds no permit (`LateReady`). -/
def Obligations.FloatTrapTaken : Prop :=
  ∀ (s : State) (q : Issue) (f : Furrow) (g : Group) (cc : Cc) (x : LV),
    let after := fun (i : Instr) (t : Ty) (r : Nat → Nat × Nat) => let m := f.activeSet i g
      TrapsAfter s q f g i m (f.writeLanes t x.d.val m (fun l => (r l).1)) (flagsOver m (fun l => (r l).2))
    (∀ p ∈ floatOps f x, after p.1 x.ty (f.floatLane x p.2))
    ∧ (∀ p ∈ flagRows f g cc x, after p.1 p.2.1 p.2.2)
    ∧ (let m := f.activeSet (.vcmp cc x) g
       let r := fun l => condition f cc x.ty (elem x.ty (f.laneBits x.ty x.a.val l) 0) (f.bElem x.ty x.b l 0)
       TrapsAfter s q f g (.vcmp cc x) m (f.writeP x.d.val m (maskOf (fun l => (r l).1))) (flagsOver m (fun l => (r l).2)))
    ∧ (∀ p ∈ [(Instr.vupklo x, 0), (.vupkhi x, 1)], let u := f.unpack x p.2 (f.activeSet p.1 g)
       TrapsAfter s q f g p.1 (f.activeSet p.1 g) u.1 u.2)

/-- R90, R114: a value that a floating-point format holds, NaN aside, is rounded to itself in every mode, with no flag, while FTZ is clear. -/
def Obligations.FormatValuesExact : Prop :=
  ∀ (t : Ty) (rm : Mode) (x : Nat), t ∈ [Ty.f16, .bf16, .f32, .f64, .e4m3, .e5m2] → x < 2 ^ t.width → (decodeNum t x).isNan = false →
    roundNum (decodeNum t x) t rm false false = (x, 0)

/-- R222, R223: `vcmp` gives each active lane of pD the condition, and `p7` discards while the flags rise; `vset` gives each element all ones or 0;
`vsel` takes vA where pC is true and b elsewhere, and raises no flag; `vfclass` gives the class mask. each condition, and the flag it raises:
integers compare by value and raise nothing; a comparison with a NaN is false but for `ne` and `uno`, and raises NV for a signalling NaN, or for any
NaN under an ordering. Under the hypotheses given each of these answers a next state: `VCMP`, `VSET`, `VSEL`, `VFCLASS`. -/
def Obligations.ComparesAndSelects : Prop :=
  (∀ (s : State) (q : Issue) (f : Furrow) (g : Group) (cc : Cc) (x : LV),
    (let r := fun l => condition f cc x.ty (elem x.ty (f.laneBits x.ty x.a.val l) 0) (f.bElem x.ty x.b l 0)
     let m := f.activeSet (.vcmp cc x) g
     Issues s q f g (.vcmp cc x) → m ≠ 0 → flagsOver m (fun l => (r l).2) &&& f.trapEnables = 0 →
       Does s q g (.vcmp cc x) s ((f.writeP x.d.val m (maskOf (fun l => (r l).1))).raise (flagsOver m (fun l => (r l).2))))
    ∧ WritesElems s q f g (.vset cc x) x (fun a b _ =>
        (if (condition f cc x.ty a b).1 then 2 ^ x.ty.width - 1 else 0, (condition f cc x.ty a b).2))
    ∧ WritesV s q f g (.vsel x) x.ty x.d.val (fun l =>
        (if inMask (f.readP x.c3.val) l then f.laneBits x.ty x.a.val l else f.bElem x.ty x.b l 0, 0))
    ∧ WritesElems s q f g (.vfclass x) x (fun a _ _ => (fclassBits x.ty a, 0)))
  ∧ ((∀ (f : Furrow) (cc : Cc) (t : Ty) (a b : Nat), t.isInt = true → cc ≠ .ord → cc ≠ .uno →
    let x := intOf t a
    let y := intOf t b
    condition f cc t a b = (match cc with
      | .eq => decide (x = y)
      | .ne => decide (x ≠ y)
      | .lt => decide (x < y)
      | .le => decide (x ≤ y)
      | .gt => decide (y < x)
      | .ge => decide (y ≤ x)
      | _ => false, 0))
  ∧ (∀ (f : Furrow) (cc : Cc) (t : Ty) (a b : Nat), t.isInt = false →
    let x := operandNum t f.ftz a
    let y := operandNum t f.ftz b
    (x.isNan = true ∨ y.isNan = true) →
      condition f cc t a b = (cc == .ne || cc == .uno, if anySnan [x, y] || cc == .lt || cc == .le || cc == .gt || cc == .ge then flNV else 0)))

/-- R226 to R233: conversions, E2M1S packing and unpacking, and scales, while no flag they raise is enabled to trap. the transcendentals, while no
flag they raise is enabled to trap; where no exact case of R232 applies the value is free within R232's error limits (log 6), and the statement holds
whatever it is. Under the hypotheses given each of these answers a next state: `VCVT`, `VPKLO`, `VPKHI`, `VUPKLO`, `VUPKHI`, `VSCL`, `VRCP`,
`VRSQRT`, `VEXP2`, `VLOG2`, `VSINPI`, `VCOSPI`, `VTANH`. -/
def Obligations.Conversions : Prop :=
  (∀ (s : State) (q : Issue) (f : Furrow) (g : Group) (x : LV),
    WritesV s q f g (.vcvt x) (if x.ty.width = 64 then .n64 else .n32) x.d.val (f.converted x)
    ∧ WritesV s q f g (.vpklo x) .n32 x.d.val (f.packHalf x 0) ∧ WritesV s q f g (.vpkhi x) .n32 x.d.val (f.packHalf x 1)
    ∧ (let quad := fun (i : Instr) (h : Nat) =>
         let m := f.activeSet i g
         let u := f.unpack x h m
         Issues s q f g i → m ≠ 0 → NoSpill s q → HitHolds s i f g m false u.1 u.2 → u.2 &&& f.trapEnables = 0 → Does s q g i s (u.1.raise u.2)
       quad (.vupklo x) 0 ∧ quad (.vupkhi x) 1)
    ∧ WritesV s q f g (.vscl x) .n32 x.d.val (fun l => scaleCode (operandNum .f32 f.ftz (f.laneOf x.a.val l).toNat) (sclEmax x.b)))
  ∧ (∀ (s : State) (q : Issue) (f : Furrow) (g : Group) (x : LV),
    let is := fun (i : Instr) (op : Nat) => WritesElems s q f g i x (fun a _ _ => transNum op x.ty a f.ftz)
    is (.vrcp x) 0 ∧ is (.vrsqrt x) 1 ∧ is (.vexp2 x) 2 ∧ is (.vlog2 x) 3 ∧ is (.vsinpi x) 4 ∧ is (.vcospi x) 5 ∧ is (.vtanh x) 6)

/-- R199 to R201: votes and value operations over a set of active lanes that is not empty. shuffles: each active lane takes the element of its source
lane where that is an active lane, and else its own. Under the hypotheses given each of these answers a next state: `VFIRST`, `VBALLOT`, `PSETW`,
`VALL`, `VANY`, `VUNI`, `VLANE`, `SHFL_IDX`, `SHFL_UP`, `SHFL_DOWN`, `SHFL_XOR`. -/
def Obligations.VotesAndShuffles : Prop :=
  (∀ (s : State) (q : Issue) (f : Furrow) (g : Group) (x : LV),
    let on := fun (i : Instr) (k : Mask → Furrow) =>
      Issues s q f g i → f.activeSet i g ≠ 0 →
        ((NoSpill s q ∧ HitHolds s i f g (f.activeSet i g) false (k (f.activeSet i g)) 0) ∨ vNames i.readsWrites.2 = []) →
          Does s q g i s (k (f.activeSet i g))
    on (.vfirst x) (fun m => f.writeW x.d.val (if x.ty = .i32 then (f.laneOf x.a.val (lowestLane m)).signExtend 64
        else BitVec.ofNat 64 (f.laneBits x.ty x.a.val (lowestLane m))))
    ∧ on (.vballot x) (fun m => f.writeW x.d.val ((m &&& f.readP x.a.val).setWidth 64))
    ∧ on (.psetw x) (fun m => f.writeP x.d.val m ((f.readW x.a.val).setWidth 32))
    ∧ on (.vall x) (fun m => f.writeP x.d.val m (if (lanesOf m).all (fun l => inMask (f.readP x.a.val) l) then m else 0))
    ∧ on (.vany x) (fun m => f.writeP x.d.val m (if (lanesOf m).any (fun l => inMask (f.readP x.a.val) l) then m else 0))
    ∧ on (.vuni x) (fun m => f.writeP x.d.val m
        (if (lanesOf m).all (fun l => (lanesOf m).all (fun k => f.laneBits x.ty x.a.val l == f.laneBits x.ty x.a.val k)) then m else 0))
    ∧ on (.vlane x) (fun m => f.writeV x.d.val m (fun l => BitVec.ofNat 32 l)))
  ∧ (∀ (s : State) (q : Issue) (f : Furrow) (g : Group) (x : LV),
    let is := fun (i : Instr) (src : Nat → Int) =>
      WritesV s q f g i x.ty x.d.val (fun l =>
        (if 0 ≤ src l ∧ src l < 32 ∧ inMask (f.activeSet i g) (src l).toNat then f.laneBits x.ty x.a.val (src l).toNat else f.laneBits x.ty x.a.val l, 0))
    is (.shflIdx x) (fun l => ((f.bIndex x.b l % 32 : Nat) : Int)) ∧ is (.shflUp x) (fun l => (l : Int) - f.bIndex x.b l)
    ∧ is (.shflDown x) (fun l => (l : Int) + f.bIndex x.b l) ∧ is (.shflXor x) (fun l => ((l ^^^ (f.bIndex x.b l % 32) : Nat) : Int)))

/-- R202, R203: reductions: one value from the active lanes in ascending order, to every active lane. the integer reductions of a list that is not
empty: the exact sum wrapped or clamped, the least and the greatest value. Under the hypotheses given each of these answers a next state: `VRED_ADD`,
`VRED_MIN`, `VRED_MAX`, `VRED_AND`, `VRED_OR`, `VRED_XOR`. -/
def Obligations.Reductions : Prop :=
  (∀ (s : State) (q : Issue) (f : Furrow) (g : Group) (x : LV),
    let xs := fun (i : Instr) => (lanesOf (f.activeSet i g)).map (fun l => f.laneBits x.ty x.a.val l)
    let is := fun (i : Instr) (r : List Nat → Nat × Nat) => WritesV s q f g i x.ty x.d.val (fun _ => r (xs i))
    let bits := fun (op : Nat → Nat → Nat) (ys : List Nat) => (match ys with
      | [] => 0
      | y :: rest => rest.foldl op y, 0)
    is (.vredAdd x) (reduceBits .add x.ty (f.rmode x.rm) f.ftz x.sat) ∧ is (.vredMin x) (reduceBits .min x.ty (f.rmode x.rm) f.ftz x.sat)
    ∧ is (.vredMax x) (reduceBits .max x.ty (f.rmode x.rm) f.ftz x.sat)
    ∧ is (.vredAnd x) (bits (fun a b => a &&& b)) ∧ is (.vredOr x) (bits (fun a b => a ||| b)) ∧ is (.vredXor x) (bits (fun a b => a ^^^ b)))
  ∧ (∀ (t : Ty) (rm : Mode) (ftz sat : Bool) (x : Nat) (xs : List Nat), t.isInt = true → x < 2 ^ t.width → (∀ y ∈ xs, y < 2 ^ t.width) →
    reduceBits .add t rm ftz sat (x :: xs) = intResult sat t (((x :: xs).map (intOf t)).sum)
    ∧ (let r := (reduceBits .min t rm ftz sat (x :: xs)).1
       r ∈ x :: xs ∧ ∀ y ∈ x :: xs, intOf t r ≤ intOf t y)
    ∧ (let r := (reduceBits .max t rm ftz sat (x :: xs)).1
       r ∈ x :: xs ∧ ∀ y ∈ x :: xs, intOf t y ≤ intOf t r))

/-- R204: scans: the j-th active lane takes the running combination of the first j + 1 values, or of the first j under an exclusive scan. Under the
hypotheses given each of these answers a next state: `VSCAN_ADD`, `VSCAN_MIN`, `VSCAN_MAX`, `VSCANX_ADD`, `VSCANX_MIN`, `VSCANX_MAX`. -/
def Obligations.Scans : Prop :=
  ∀ (s : State) (q : Issue) (f : Furrow) (g : Group) (x : LV),
    let is := fun (i : Instr) (k : Fold) (ex : Bool) => WritesV s q f g i x.ty x.d.val (f.scanned x (f.activeSet i g) k ex)
    is (.vscanAdd x) .add false ∧ is (.vscanMin x) .min false ∧ is (.vscanMax x) .max false
    ∧ is (.vscanxAdd x) .add true ∧ is (.vscanxMin x) .min true ∧ is (.vscanxMax x) .max true

/-! ### Control, clauses, system registers, traps -/

/-- R172, R190, R191: the lanes whose guard is true branch, the others go on with the next word; `jmp` needs a target below the code length; `loop`
counts once for the group, and does nothing where no guard is true. Under the hypotheses given each of these answers a next state: `BRA`, `JMP`,
`BWZ`, `BWNZ`, `LOOP`. -/
def Obligations.Branches : Prop :=
  ∀ (s : State) (q : Issue) (f : Furrow) (g : Group),
    let go := fun (m : Mask) (target : BitVec 24) (l : Nat) => if inMask m l then target else g.pc + 4
    let near := fun (off : BitVec 8) => BitVec.ofInt 24 (12 * (((g.pc.toNat / 12 : Nat) : Int) + off.toInt))
    (∀ x : SB, Transfers s q f g (.bra x) f (go (f.activeSet (.bra x) g) (BitVec.ofNat 24 (12 * x.pkt.toNat))))
    ∧ (∀ x : SCw, f.activeSet (.jmp x) g = 0 ∨ (f.readW x.wa.val).toNat < (s.codeOf f).2 →
        Transfers s q f g (.jmp x) f (go (f.activeSet (.jmp x) g) (BitVec.ofNat 24 (12 * (f.readW x.wa.val).toNat))))
    ∧ (∀ x : SCb, Transfers s q f g (.bwz x) f (go (if f.readW x.wa.val = 0 then f.activeSet (.bwz x) g else 0) (near x.off)))
    ∧ (∀ x : SCb, Transfers s q f g (.bwnz x) f (go (if f.readW x.wa.val = 0 then 0 else f.activeSet (.bwnz x) g) (near x.off)))
    ∧ (∀ x : SCb, f.activeSet (.loop x) g ≠ 0 →
        Transfers s q f g (.loop x) (f.writeW x.wa.val (f.readW x.wa.val - 1))
          (go (if f.readW x.wa.val = 1 then 0 else f.activeSet (.loop x) g) (near x.off)))
    ∧ (∀ x : SCb, f.activeSet (.loop x) g = 0 → Issues s q f g (.loop x) → Does s q g (.loop x) s f)

/-- R188 to R190, R311: `call` and `callr` push the next word's PC on the stack of the level in the lanes whose guard is true and send them to their
target; `ret` pops it; a push raises the depth and a pop lowers it by one, and the entry stands at the old depth. Under the hypotheses given each of
these answers a next state: `CALL`, `CALLR`, `RET`. -/
def Obligations.Calls : Prop :=
  (∀ (s : State) (q : Issue) (f : Furrow) (g : Group),
    let room := fun (m : Mask) => ∀ l, l < 32 → inMask m l = true → (laneAt f.lanes l).depthAt f.level < 16
    let push := fun (m : Mask) => f.onLanes m (fun _ l => l.pushPc f.level (g.pc + 4))
    let go := fun (m : Mask) (target : Nat) (l : Nat) => if inMask m l then BitVec.ofNat 24 (12 * target) else g.pc + 4
    (∀ x : SB, let m := f.activeSet (.call x) g
      room m → Transfers s q f g (.call x) (push m) (go m x.pkt.toNat))
    ∧ (∀ x : SCw, let m := f.activeSet (.callr x) g
      (m = 0 ∨ (f.readW x.wa.val).toNat < (s.codeOf f).2) → room m → Transfers s q f g (.callr x) (push m) (go m (f.readW x.wa.val).toNat))
    ∧ (∀ x : SCg, let m := f.activeSet (.ret x) g
      (∀ l, l < 32 → inMask m l = true → f.floorOf l < (laneAt f.lanes l).depthAt f.level) →
        Transfers s q f g (.ret x) (f.onLanes m (fun _ l => l.popPc f.level))
          (fun l => if inMask m l then (laneAt f.lanes l).stackAt f.level ((laneAt f.lanes l).depthAt f.level - 1) else g.pc + 4)))
  ∧ (∀ (l : Lane) (n : Nat) (pc : BitVec 24), l.depthAt n < 16 →
      (l.pushPc n pc).depthAt n = l.depthAt n + 1 ∧ (l.pushPc n pc).stackAt n (l.depthAt n) = pc
      ∧ (∀ j, j < 16 → j ≠ l.depthAt n → (l.pushPc n pc).stackAt n j = l.stackAt n j)
      ∧ ((l.pushPc n pc).popPc n).depthAt n = l.depthAt n ∧ ∀ j, (l.popPc n).stackAt n j = l.stackAt n j)

/-- R164, R167 to R169, R192, R194: `nop` does nothing; a clause header closes the clause its group stood in, whose flags may rise, and leaves the
group at the next word; the first chain there is issued once every WAIT flag is 1: it clears SETA and SETB and stands in the clause; `yield` only
marks its group, where a guard is true; `rcv` holds its group at its PC with the mask it read, 0 standing for every lane. Under the hypotheses given
each of these answers a next state: `CLAUSE`, `NOP`, `RCV`, `YIELD`. -/
def Obligations.ClausesAndHolds : Prop :=
  ∀ (s : State) (q : Issue) (f : Furrow) (g : Group),
    (∀ c, Issues s q f g (.nop c) → Does s q g (.nop c) s f)
    ∧ (∀ x : ClauseH, Issues s q f g (.clause x) →
        ∃ t f' h, exec (.clause x) s = .next t ∧ t.issue = some { q with reopen := none } ∧ t.furrow? q.core q.slot = some f'
          ∧ f'.regs = ({ f with flags := f'.flags } : Furrow).regs ∧ f'.flags = (f.closeClause g).flags ∧ f.flags &&& ~~~f'.flags = 0
          ∧ (g.inst = none → f'.flags = f.flags) ∧ f'.group? g.lanes = some h ∧ h.pc = g.pc + 4 ∧ h.header = some x ∧ OthersKept s t q
          ∧ t = { s with furrows := t.furrows, issue := t.issue })
    ∧ (∀ (x : ClauseH) (i : Instr), s.furrow? q.core q.slot = some f → f.group? q.lanes = some g → g.header = some x → q.back = none → f.step = none →
        let r := s.beginChain q f g i
        (x.wait &&& ~~~f.flags ≠ 0 → r.2 = none)
        ∧ (x.wait &&& ~~~f.flags = 0 → r.2 = some i ∧ ∃ f' h c, r.1.furrow? q.core q.slot = some f' ∧ f'.group? g.lanes = some h
            ∧ f'.regs = ({ f with flags := f.flags &&& ~~~((1#12 <<< x.seta.val) ||| (1#12 <<< x.setb.val)) } : Furrow).regs
            ∧ h.header = none ∧ h.clause = some c ∧ c.nr = x.nr ∧ c.len = x.len.val ∧ c.clend = g.pc.toNat / 12 + x.len.val))
    ∧ (∀ x : SCg, Issues s q f g (.yield x) →
        ∃ t, exec (.yield x) s = .next t ∧ Completes s t q g (.yield x) f
          ∧ ∃ f' h, t.furrow? q.core q.slot = some f' ∧ f'.group? g.lanes = some h ∧ h.yielded = (g.yielded || f.activeSet (.yield x) g != 0))
    ∧ (∀ x : SCm, Issues s q f g (.rcv x) →
        ∃ t f' h, exec (.rcv x) s = .next t ∧ t.furrow? q.core q.slot = some f' ∧ f'.regs = f.regs ∧ f'.group? g.lanes = some h ∧ h.pc = g.pc
          ∧ h.rcv = some (if (f.readW x.wa.val).setWidth 32 = (0 : Mask) then 0xFFFFFFFF else (f.readW x.wa.val).setWidth 32)
          ∧ t = { s with furrows := t.furrows, cores := t.cores, issue := t.issue, recent := t.recent })

/-- R193, R52: at level 0 the lanes whose guard is true exit and the group's other lanes go on; the last group of a furrow with no store outstanding
takes it out of its slot when all its lanes exit. Under the hypotheses given each of these answers a next state: `EXIT`. -/
def Obligations.ExitedLanes : Prop :=
  ∀ (s : State) (q : Issue) (f : Furrow) (g : Group) (x : SCg),
    let m := f.activeSet (.exit x) g
    Issues s q f g (.exit x) → WholeGroup f g → f.level = 0 →
      (m = 0 → Does s q g (.exit x) s f)
      ∧ (m ≠ 0 → m ≠ g.lanes →
          ∃ t f', exec (.exit x) s = .next t ∧ t.furrow? q.core q.slot = some f'
            ∧ f'.regs = (f.onLanes m (fun _ l => { l with status := .exited })).regs ∧ f'.pcOf (g.lanes &&& ~~~m) = some (g.pc + 4)
            ∧ (∀ c n, (c ≠ q.core ∨ n ≠ q.slot) → t.regs? c n = s.regs? c n)
            ∧ t = { s with furrows := t.furrows, cores := t.cores, issue := t.issue })
      ∧ (m = g.lanes → f.groups = [g] → f.posted = [] → ∃ t, exec (.exit x) s = .next t ∧ t.furrow? q.core q.slot = none ∧ t.mem = s.mem)

/-- R49, R85, R100, R198, R316, R317, R332, R333, R348, R349: `srr` of a register that the level may read writes w[W] with it and does nothing else,
`WORK_ID`, `CLOCK` and `FQLEN_S` included; `sysValues` names the value of the rest. `srw` of a register that the level may write changes that
register's writable bits and nothing else; a `TASID_S` that another context holds or a service context reserves is ignored, and another waits and
completes as `tlbinv.asid` of the old one does. Under the hypotheses given each of these answers a next state: `SRR`, `SRW`. -/
def Obligations.SystemRegisters : Prop :=
  (∀ (s : State) (q : Issue) (f : Furrow) (g : Group),
    (∀ (x : SR) (t : Right × Right × Right), sysRights x.srn.toNat = some t → rightAt t f.level ≠ .none →
      WritesW s q f g (.srr x) x.w.val (s.readSys f x.srn.toNat))
    ∧ ∀ p ∈ sysValues s f, s.readSys f p.1.toNat = p.2)
  ∧ (∀ (s : State) (q : Issue) (f : Furrow) (g : Group) (c : Bool) (w : Fin 64),
    let x := f.readW w.val
    let ctx := s.ctxOf f
    let is := fun (n : BitVec 12) (u : State) (f1 : Furrow) =>
      Issues s q f g (.srw { c := c, w := w, srn := n }) → (∃ t, sysRights n.toNat = some t ∧ rightAt t f.level = .rw) →
        Does s q g (.srw { c := c, w := w, srn := n }) u f1
    is 0x000 s { f with fpenv := x.setWidth 32 &&& 0x3F3BF }
    ∧ is 0x004 (s.onCtx ctx (fun c => { c with reuseCtl := x.setWidth 32 &&& 3 })) f
    ∧ is 0x100 (s.onCtx ctx (fun c => { c with tvecS := x &&& 0x01FFFFFFFFFFFFFF })) f
    ∧ is 0x107 (s.onCtx ctx (fun c => { c with fwdog := x.setWidth 32 &&& 15 })) f
    ∧ is 0x108 (s.onCtx ctx (fun c => { c with tresp := x.setWidth 32 &&& 1 })) f
    ∧ (∀ k : Fin 4, is (0x110 + BitVec.ofNat 12 k.val) (s.onCtx ctx (fun c => { c with bpt := c.bpt.set k (x &&& 0x8000000000FFFFFF) })) f)
    ∧ (∀ k : Fin 2, is (0x118 + BitVec.ofNat 12 k.val) (s.onCtx ctx (fun c => { c with wpt := c.wpt.set k x })) f)
    ∧ is 0x180 (s.onCtx ctx (fun c => { c with troot := x &&& 0x000FFFFFFFFFF000 })) f
    ∧ ((s.ctxs.any (fun c => c.ctx != ctx && c.tasid == x.setWidth 16) = true ∨ (0xFFF0 ≤ (x.setWidth 16).toNat ∧ (x.setWidth 16).toNat ≤ 0xFFF5)) →
        is 0x181 s f)
    ∧ (s.ctxs.any (fun c => c.ctx != ctx && c.tasid == x.setWidth 16) = false → ¬(0xFFF0 ≤ (x.setWidth 16).toNat ∧ (x.setWidth 16).toNat ≤ 0xFFF5) →
        let old := TlbEntry.ofAsid (((s.ctx? ctx).map (fun c => c.tasid.toNat)).getD 0)
        (f.storing g.lanes = false → s.outstanding old = false →
          is 0x181 (((s.onCtx ctx (fun c => { c with tasid := x.setWidth 16 })).tlbDrop old).fullFence f g.lanes .pkg) f)
        ∧ (f.storing g.lanes = true ∨ s.outstanding old = true → Issues s q f g (.srw { c := c, w := w, srn := 0x181 }) → f.level = 3 →
          WaitsFor s q f g (.srw { c := c, w := w, srn := 0x181 }) .fence))
    ∧ is 0x200 (s.onCtx ctx (fun c => { c with hctl := x &&& 3 })) f
    ∧ is 0x201 (s.onCtx ctx (fun c => { c with hdeleg := x })) f
    ∧ is 0x202 (s.onCtx ctx (fun c => { c with tvecH := x &&& 0x01FFFFFFFFFFFFFF })) f
    ∧ (∀ k : Fin 16, is (0x280 + BitVec.ofNat 12 k.val) (s.onCtx ctx (fun c => { c with hpar := c.hpar.set k (x &&& 0xBFFFFFFFFFFFFFFF) })) f)
    ∧ is 0x290 ({ s with accfg := x.setWidth 32 &&& 0x3FF }) f)

/-- R195, R196, R324: `sysc` takes SYSCALL at the next word with its argument and call number, `brk` takes BREAK at itself with its tag, in the lanes
whose guard is true, below level 3 (a trap that its context routes nowhere as log 99 says); with no such lane they retire. Under the hypotheses given
each of these answers a next state: `SYSC`, `BRK`. -/
def Obligations.SystemCalls : Prop :=
  ∀ (s : State) (q : Issue) (f : Furrow) (g : Group),
    (∀ x : SCs, let m := f.activeSet (.sysc x) g
      Issues s q f g (.sysc x) →
        (m = 0 → Does s q g (.sysc x) s f)
        ∧ (m ≠ 0 → f.level ≠ 3 → Traps s q f (.sysc x) { trapAt m 1 x.n.toNat (g.pc + 4) with arg := f.readW x.wa.val })
        ∧ (m ≠ 0 → f.level = 3 → Traps s q f (.sysc x) (trapAt m 0x20 0 g.pc)))
    ∧ (∀ x : SCn, let m := f.activeSet (.brk x) g
      Issues s q f g (.brk x) →
        (m = 0 → Does s q g (.brk x) s f)
        ∧ (m ≠ 0 → f.level ≠ 3 → Traps s q f (.brk x) (trapAt m 2 x.n.toNat g.pc))
        ∧ (m ≠ 0 → f.level = 3 → Traps s q f (.brk x) (trapAt m 0x20 0 g.pc)))

/-- R69, R312, R189, R190, R198, R315: where an instruction traps instead of its effect: extended registers while the block is not held, a privileged
instruction at level 0, a call with a full stack, a return at the floor, a computed target past the code, `exit` above level 0, a system register
that does not exist or that the level may not access (a trap that its context routes nowhere as log 99 says). -/
def Obligations.InstructionTraps : Prop :=
  ∀ (s : State) (q : Issue) (f : Furrow) (g : Group), Stands s q f g →
    (∀ i : Instr, i.usesExtended = true → f.ext = .none → g.accessing = false → Traps s q f i (trapAt g.lanes 0x23 0 g.pc))
    ∧ (∀ i : Instr, (i.major = 0x1C ∨ (∃ x, i = .tret x) ∨ (∃ c, i = .fend c) ∨ (∃ x, i = .cend x) ∨ (∃ x, i = .dhalt x)) →
        (i.usesExtended = true → f.ext ≠ .none) → f.level = 0 → Traps s q f i (trapAt g.lanes 0x22 0 g.pc))
    ∧ (∀ x : SB, let bad := f.activeSet (.call x) g &&& maskOf (fun l => decide (16 ≤ (laneAt f.lanes l).depthAt f.level))
        bad ≠ 0 → Traps s q f (.call x) (trapAt bad 0x24 0 g.pc))
    ∧ (∀ x : SCg, let bad := f.activeSet (.ret x) g &&& maskOf (fun l => decide ((laneAt f.lanes l).depthAt f.level ≤ f.floorOf l))
        bad ≠ 0 → Traps s q f (.ret x) (trapAt bad 0x24 0 g.pc))
    ∧ (∀ x : SCw, (s.codeOf f).2 ≤ (f.readW x.wa.val).toNat →
        (f.activeSet (.jmp x) g ≠ 0 → Traps s q f (.jmp x) (trapAt (f.activeSet (.jmp x) g) 0x20 0 g.pc))
        ∧ (f.activeSet (.callr x) g ≠ 0 → Traps s q f (.callr x) (trapAt (f.activeSet (.callr x) g) 0x20 0 g.pc)))
    ∧ (∀ x : SCg, f.activeSet (.exit x) g ≠ 0 → f.level ≠ 0 → Traps s q f (.exit x) (trapAt (f.activeSet (.exit x) g) 0x20 0 g.pc))
    ∧ (∀ x : SR, sysRights x.srn.toNat = none →
        Traps s q f (.srr x) (trapAt g.lanes 0x20 0 g.pc) ∧ Traps s q f (.srw x) (trapAt g.lanes 0x20 0 g.pc))
    ∧ (∀ (x : SR) (t : Right × Right × Right), sysRights x.srn.toNat = some t →
        (rightAt t f.level = .none → Traps s q f (.srr x) (trapAt g.lanes 0x22 0 g.pc) ∧ Traps s q f (.srw x) (trapAt g.lanes 0x22 0 g.pc))
        ∧ (rightAt t f.level = .r → (t.2.1 = .rw ∨ t.2.2 = .rw) → Traps s q f (.srw x) (trapAt g.lanes 0x22 0 g.pc))
        ∧ (rightAt t f.level = .r → t.2.1 ≠ .rw → t.2.2 ≠ .rw → Traps s q f (.srw x) (trapAt g.lanes 0x20 0 g.pc)))

/-- R315, R330, R331: `tret` at a level with a frame whose running lanes are all in the group and whose instructions have completed: the furrow is
back at the frame's FROM level; each lane recorded as running stands at its recorded PC, or past the access it has issued, each recorded as exiting
has exited; the frame is gone; registers stay. With a mask M that selects no lane that runs, the permit goes on the way to level 0; with one that
does, it stays, and a step begins of the group that holds the lowest of them. With a store of its level still to be performed the `tret` waits; in a
group that is not all of the level it takes ILL_CONV, and with no frame it is illegal (where such a trap would end a service context, log 99). Under
the hypotheses given each of these answers a next state: `TRET`. -/
def Obligations.TrapReturn : Prop :=
  ∀ (s : State) (q : Issue) (f : Furrow) (g : Group) (x : SCm), Issues s q f g (.tret x) →
    (f.frame? f.level = none → Traps s q f (.tret x) (trapAt g.lanes 0x20 0 g.pc))
    ∧ (∀ fr, f.frame? f.level = some fr →
      (g.lanes ≠ f.running → Traps s q f (.tret x) (trapAt g.lanes 0x21 0 g.pc))
      ∧ (g.lanes = f.running → (∃ p ∈ f.posted, p.level = f.level) → WaitsFor s q f g (.tret x) .levelDrain)
      ∧ (g.lanes = f.running → (∀ p ∈ f.posted, p.level ≠ f.level) → (∃ l, l < 32 ∧ (laneAt fr.lrec l).state = 1) →
        let sel := (f.readW x.wa.val).setWidth 32 &&& maskOf (fun l => decide ((laneAt fr.lrec l).state = 1))
        ∃ t f', exec (.tret x) s = .next t ∧ t.furrow? q.core q.slot = some f' ∧ f'.level = fr.fromLevel ∧ f'.frame? f.level = none
          ∧ f'.permit = (f.permit && (fr.fromLevel != 0 || sel != 0))
          ∧ (sel = 0 → f'.step = none)
          ∧ (sel ≠ 0 → ∃ h, f'.groupOf? (lowestLane sel) = some h ∧ f'.step = some (f.level, h.lanes, false))
          ∧ (∀ l, l < 32 → (laneAt fr.lrec l).state = 1 → (laneAt f'.lanes l).status = .live
              ∧ (f'.groupOf? l).map Group.recordPc = some (laneAt fr.lrec l).pc ∧ (laneAt f'.lanes l).dskip = (laneAt fr.lrec l).dskip)
          ∧ (∀ l, l < 32 → (laneAt fr.lrec l).state = 3 → (laneAt f.lanes l).status ≠ .absent → (laneAt f'.lanes l).status = .exited)
          ∧ f'.v = f.v ∧ f'.w = f.w ∧ f'.wbank = f.wbank ∧ f'.p = f.p ∧ f'.pbank = f.pbank ∧ f'.s = f.s ∧ f'.opq = f.opq ∧ f'.h = f.h
          ∧ f'.fpenv = f.fpenv ∧ f'.ext = f.ext
          ∧ (∀ c n, (c ≠ q.core ∨ n ≠ q.slot) → t.regs? c n = s.regs? c n)
          ∧ t = { s with furrows := t.furrows, cores := t.cores, issue := t.issue })
      ∧ (g.lanes = f.running → f.groups = [g] → f.posted = [] → fr.fromLevel ≠ f.level → (∀ l, l < 32 → (laneAt fr.lrec l).state ≠ 1) →
        ∃ t, exec (.tret x) s = .next t ∧ t.furrow? q.core q.slot = none ∧ t.mem = s.mem))

/-- R334 to R336: `fend` ends its field: of its furrows only accesses that have issued go on, and those with nothing outstanding have left; in a
service field, which ends only with its firmware, it only goes on (log 99); `cend n` ends the context with code 2 and DETAIL n; `dhalt` leaves HALT
pending on every furrow of the fields it names and changes no register. Under the hypotheses given each of these answers a next state: `FEND`,
`CEND`, `DHALT`. -/
def Obligations.FieldAndContextEnds : Prop :=
  ∀ (s : State) (q : Issue) (f : Furrow) (g : Group),
    (∀ (c : Bool) (fl : Field), Issues s q f g (.fend c) → s.field? f.field = some fl → fl.service = false → fl.status ≠ .retired →
        fl.status ≠ .ending →
      ∃ t, exec (.fend c) s = .next t ∧ (t.field? f.field).map Field.status = some .ending
        ∧ (∀ v ∈ t.furrows, v.field = f.field → v.ending = true ∧ (∀ h ∈ v.groups, h.accessing = true) ∧ ¬v.retired = true)
        ∧ (∀ n, n ≠ f.field → t.field? n = s.field? n)
        ∧ (∀ v ∈ s.furrows, v.field ≠ f.field → ¬v.retired = true → v ∈ t.furrows) ∧ t.mem = s.mem)
    ∧ (∀ c : Bool, s.isService f = true → Issues s q f g (.fend c) → Does s q g (.fend c) s f)
    ∧ (∀ (x : SCc) (c : Ctx), Issues s q f g (.cend x) → s.ctx? (s.ctxOf f) = some c → c.ended = none → c.service = false → s.isService f = false →
        (c.hctl.getLsbD 1 = false ∨ f.level = 3) →
      ∃ t, exec (.cend x) s = .next t ∧ ((t.ctx? c.ctx).bind Ctx.ended).map (fun e => (e.code, e.detail)) = some (2, x.n.toNat)
        ∧ ∀ n fl, t.field? n = some fl → fl.ctx = c.ctx → fl.status = .ending ∨ fl.status = .retired)
    ∧ (∀ x : SCm, Issues s q f g (.dhalt x) →
      ∃ t, exec (.dhalt x) s = .next t
        ∧ Completes { s with furrows := s.furrows.map (fun (v : Furrow) =>
            if (s.haltTargets f (f.readW x.wa.val).toNat).contains v.field then { v with haltPend := true } else v) } t q g (.dhalt x) f
        ∧ ∀ c n v, s.furrow? c n = some v → v.field ∈ s.haltTargets f (f.readW x.wa.val).toNat → (t.furrow? c n).any Furrow.haltPend = true)

/-! ### Memory -/

/-- R236 to R238, R243, R247: a load whose lanes pass every check, whose tokens are held, which waits for no own store of its sectors and which meets
no poison gives each active lane what it read at its address, in order of the parts, and changes no byte, where no reuse entry stands for it; a
gather reads after the furrow's own store-releases are visible, once none of its group's is still to be performed (R265); one that hits a Valid entry
takes that entry's results (R80) and changes no byte; a uniform load gives w[D] the value of its lowest lane. What a lane that is bound to every
recorded write reads of one piece of this package's or a host's memory is the bytes there, the lowest address first (R3). Under the hypotheses given
each of these answers a next state: `LD`, `LD_ACQ`, `LDW`, `LDW_ACQ`, `GTH`. -/
def Obligations.Loads : Prop :=
  (∀ (s s0 s1 : State) (q : Issue) (f : Furrow) (g : Group) (x : LM) (i : Instr) (acq : Option Scope) (as : List (Nat × Nat × Spot)),
    (i, acq, s0) ∈ [(.ld x, none, s), (.ldAcq x, some x.scope, s), (.gth x, none, s.publishReleases (f.party g.lanes))] →
    Issues s q f g i → NoneAhead s → NoSpill s q → f.activeSet i g ≠ 0 → (∀ p ∈ f.posted, p.lanes &&& g.lanes ≠ 0 → i = .gth x → p.rel = 0) →
    Passes s0 f g (f.activeSet i g) (memWidth x.ty x.x2 / 8) 1 {} (fun _ _ => false) (f.eaOf x) s1 as → TokensHeld s1 f false (spotsOf as) →
    f.ownStore g.lanes (spotSectors (spotsOf as)) = false →
    let ps := partsOf (memWidth x.ty x.x2 / 8) as
    (∀ p ∈ ps, s1.spotPoison p.size p.spot = false) → (∀ k, s1.lookup i f g (f.activeSet i g) true = some k → k.hit = none) →
      ∃ t, exec i s = .next t
        ∧ Lands t q g i (f.writeLoad x.ty x.x2 x.d.val (f.activeSet i g)
            (gotOf (performParts (State.readPart f (memWidth x.ty x.x2 / 8)) ps (State.acquiring f acq s1)).2))
        ∧ OthersKept s t q ∧ t.mem = s.mem ∧ t.poison = s.poison ∧ t.fields = s.fields ∧ t.ctxs = s.ctxs)
  ∧ (∀ (s s1 : State) (q : Issue) (f : Furrow) (g : Group) (x : LM) (i : Instr) (acq : Option Scope) (a : Nat × Nat × Spot)
      (as : List (Nat × Nat × Spot)),
    (i, acq) ∈ [(.ldw x, none), (.ldwAcq x, some x.scope)] →
    Issues s q f g i → NoneAhead s → f.activeSet i g ≠ 0 →
    Passes s f g (f.activeSet i g) (memWidth x.ty x.x2 / 8) 1 {} (fun _ _ => false) (f.eaOf x) s1 (a :: as) → TokensHeld s1 f false [a.2.2] →
    f.ownStore g.lanes (spotSectors [a.2.2]) = false →
    let ps := partsOf (memWidth x.ty x.x2 / 8) [a]
    (∀ p ∈ ps, s1.spotPoison p.size p.spot = false) →
      let v := gotOf (performParts (State.readPart f (memWidth x.ty x.x2 / 8)) ps (State.acquiring f acq s1)).2 a.1
      ∃ t, exec i s = .next t
        ∧ Lands t q g i (f.writeW x.d.val (if x.ty.isSigned then BitVec.ofInt 64 (sext v x.ty.width) else BitVec.ofNat 64 v))
        ∧ OthersKept s t q ∧ t.mem = s.mem ∧ t.poison = s.poison ∧ t.fields = s.fields ∧ t.ctxs = s.ctxs)
  ∧ (∀ (s s1 : State) (q : Issue) (f : Furrow) (g : Group) (x : LM) (as : List (Nat × Nat × Spot)) (k : Lookup) (e : ReuseEntry),
    let i := Instr.ld x
    let m := f.activeSet i g
    let d := vNames i.readsWrites.2
    Issues s q f g i → NoneAhead s → NoSpill s q → m ≠ 0 → x.vol = false →
    Passes s f g m (memWidth x.ty x.x2 / 8) 1 {} (fun _ _ => false) (f.eaOf x) s1 as →
    (reuseRegion (partsOf (memWidth x.ty x.x2 / 8) as)).isSome = true → s1.lookup i f g m true = some k → k.hit = some e → e.flags = 0 →
      ∃ t, exec i s = .next t
        ∧ Lands t q g i { f with v := Vector.ofFn (fun n : Fin 128 => match d.findIdx? (fun y => y == n.val) with
            | some j => e.results.getD j f.v[n]
            | none => f.v[n]) }
        ∧ OthersKept s t q ∧ t.mem = s.mem ∧ t.fields = s.fields ∧ t.ctxs = s.ctxs)
  ∧ (∀ (s : State) (f : Furrow) (n lane ea pa : Nat), (∀ w ∈ s.recent, w.binds s.cycles (s.laneReader f lane) = true) →
      (∀ j, j < n → s.isPeer (pa + j) = false) → 0 < n →
      gotOf (performParts (State.readPart f n) (partsOf n [(lane, ea, .global [(pa, n)])]) s).2 lane = leNat (s.bytesAt pa n))

/-- R238, R246 to R248: a store whose lanes pass every check and whose tokens are held writes each active lane's bytes at its address, in ascending
lane order, and no other byte; registers stay. A uniform store writes once, for the lowest lane. Earlier stores of the furrow that lack their tokens
go on waiting; a release is performed once its group has none. Only where a plain store to a scratchpad may come under another one that nobody has
read (log 5) are the written bytes left open (`NonePassed`). Under the hypotheses given each of these answers a next state: `ST`, `ST_REL`, `STW`,
`STW_REL`, `SCT`. -/
def Obligations.Stores : Prop :=
  (∀ (s s1 : State) (q : Issue) (f : Furrow) (g : Group) (x : LM) (i : Instr) (as : List (Nat × Nat × Spot)),
    i ∈ [.st x, .stRel x, .sct x] →
    Issues s q f g i → NoneAhead s → BytesOk s → f.activeSet i g ≠ 0 → (i = .stRel x → f.storing g.lanes = false) → (∀ c ∈ f.clauses, c.2.1 = false) →
    Passes s f g (f.activeSet i g) (memWidth x.ty x.x2 / 8) 1 { write := true } (fun _ _ => false) (f.eaOf x) s1 as →
    TokensHeld s1 f true (spotsOf as) → PostedWait s1 f (spotSectors (spotsOf as)) →
      ∃ t, exec i s = .next t ∧ Lands t q g i f ∧ OthersKept s t q ∧ Wrote s s1 t f (f.activeSet i g) (writesOf as (f.storeData x)) ∧ t.ctxs = s.ctxs)
  ∧ (∀ (s s1 : State) (q : Issue) (f : Furrow) (g : Group) (x : LM) (i : Instr) (a : Nat × Nat × Spot) (as : List (Nat × Nat × Spot)),
    i ∈ [.stw x, .stwRel x] →
    Issues s q f g i → NoneAhead s → BytesOk s → f.activeSet i g ≠ 0 → (i = .stwRel x → f.storing g.lanes = false) → (∀ c ∈ f.clauses, c.2.1 = false) →
    Passes s f g (f.activeSet i g) (memWidth x.ty x.x2 / 8) 1 { write := true } (fun _ _ => false) (f.eaOf x) s1 (a :: as) →
    TokensHeld s1 f true [a.2.2] → PostedWait s1 f (spotSectors [a.2.2]) →
      ∃ t, exec i s = .next t ∧ Lands t q g i f ∧ OthersKept s t q ∧ t.ctxs = s.ctxs
        ∧ Wrote s s1 t f (f.activeSet i g) (writesOf [a] (fun _ => leBytes (memWidth x.ty x.x2 / 8) (f.readW x.c3.val).toNat)))

/-- R249 to R252, R136: an atomic whose lanes pass every check, whose tokens are held, which waits for no own store and which meets no poison
performs one read-modify-write for each active lane in ascending order, gives each lane the old value, and changes nothing else in memory or
scratchpads; one read-modify-write of a piece of memory answers the bytes that stood there, whoever wrote them last (R138), and puts the new ones
there alone. Under the hypotheses given each of these answers a next state: `ATOM_ADD`, `ATOM_MIN`, `ATOM_MAX`, `ATOM_AND`, `ATOM_OR`, `ATOM_XOR`,
`ATOM_EXCH`, `ATOM_CAS`, `ATOM_FADD`. -/
def Obligations.Atomics : Prop :=
  (∀ (s s1 : State) (q : Issue) (f : Furrow) (g : Group) (x : LA) (as : List (Nat × Nat × Spot)), ∀ p ∈ atomOps x,
    let m := f.activeSet p.1 g
    let n := x.ty.width / 8
    let fadd := match p.1 with
      | .atomFadd _ => true
      | _ => false
    let new := fun l old => p.2 old (f.laneBits x.ty x.c3.val l) (f.laneBits x.ty (x.c3.val + x.ty.width / 32) l)
    let s2 := State.acquiring f (if x.ord = 1 ∨ x.ord = 3 then some x.scope else none) (s1.releasing f m (decide (2 ≤ x.ord.val)) x.scope)
    let r := performParts (State.atomicPart f (s1.order + 1) n new) (partsOf n as) s2
    Issues s q f g p.1 → NoneAhead s → NoSpill s q → m ≠ 0 → f.ownStore g.lanes (spotSectors (spotsOf as)) = false →
    (2 ≤ x.ord.val → f.storing g.lanes = false) →
    Passes s f g m n n { rmw := true } (atomUnsupported (x.ty.width == 64) fadd) (f.effAddr x.am x.a.val x.b 0 n) s1 as →
    TokensHeld s1 f true (spotsOf as) → (∀ a ∈ as, s1.spotPoison n a.2.2 = false) →
      ∃ t, exec p.1 s = .next t ∧ Lands t q g p.1 (f.writeLanes x.ty x.d.val m (gotOf r.2)) ∧ OthersKept s t q
        ∧ (∀ space a, t.cell space a = r.1.cell space a) ∧ t.ctxs = s.ctxs)
  ∧ (∀ (s : State) (f : Furrow) (op n pa : Nat) (new : Nat → Nat → Nat) (p : Part), BytesOk s → 0 < n → pa % n = 0 → 64 % n = 0 →
      p.spot = .global [(pa, n)] → s.spotPoison n p.spot = false →
      let r := State.atomicPart f op n new s p
      let old := leNat (s.bytesAt pa n)
      r.2 = (old, false) ∧ (∀ a, r.1.byteAt a = if pa ≤ a ∧ a < pa + n then (leBytes n (new p.lane old)).getD (a - pa) 0 else s.byteAt a)
        ∧ ∀ fd a, r.1.cell (some fd) a = s.cell (some fd) a)

/-- R239 to R241, R248: a lane outside the three windows fails with ADDRESS, a misaligned one with ALIGN where alignment is asked; a load, store,
atomic or `waita` of which some lane fails a check other than PAGE_ABSENT first changes no byte and traps the lanes of the earliest failing check,
and where walks of its checks lack tokens it waits for them (R372). A gather or scatter of which some lane fails so performs the lanes that pass,
which are recorded past it, and traps the others; where none passes it changes nothing. What reads poison takes MEMERR: a load traps the poisoned
lanes at itself and writes nothing, a uniform load every lane; a gather writes the other lanes, which go on; a `waita` traps at itself; an atomic
gives the other lanes their values, and the poisoned ones trap at the next instruction. -/
def Obligations.AccessTraps : Prop :=
  (∀ (s : State) (f : Furrow) (va size align : Nat) (k : AccessKind) (unsup : Spot → Bool),
    ((isGlobal va = false ∨ isGlobal (va + size - 1) = false) → inOwn va = false → inPeer va = false →
      s.laneSpot f va size align k unsup = (s, .error { rank := 10, code := 0x18, va := va }))
    ∧ ((isGlobal va = true ∧ isGlobal (va + size - 1) = true ∨ inOwn va = true ∨ inPeer va = true) → va % align ≠ 0 →
      s.laneSpot f va size align k unsup = (s, .error { rank := 20, code := 0x19, va := va })))
  ∧ (∀ (s s1 : State) (q : Issue) (f : Furrow) (g : Group) (i : Instr) (size align n : Nat) (kind : AccessKind) (unsup : State → Spot → Bool)
      (ea : Nat → Nat) (r : List LaneAcc),
    ((∃ x : LM, i ∈ [.ld x, .ldAcq x, .ldw x, .ldwAcq x] ∧ size = memWidth x.ty x.x2 / 8 ∧ align = 1 ∧ kind = {} ∧ unsup = (fun _ _ => false)
        ∧ ea = f.eaOf x)
      ∨ (∃ x : LM, i ∈ [.st x, .stRel x, .stw x, .stwRel x] ∧ size = memWidth x.ty x.x2 / 8 ∧ align = 1 ∧ kind = { write := true }
        ∧ unsup = (fun _ _ => false) ∧ ea = f.eaOf x)
      ∨ (∃ x : LA, i ∈ (atomOps x).map Prod.fst ∧ size = x.ty.width / 8 ∧ align = size ∧ kind = { rmw := true }
        ∧ unsup = atomUnsupported (x.ty.width == 64) (i == .atomFadd x) ∧ ea = f.effAddr x.am x.a.val x.b 0 size)
      ∨ (∃ x : LW, i = .waita x ∧ size = x.ty.width / 8 ∧ align = size ∧ kind = {} ∧ unsup = (fun _ _ => false)
        ∧ ea = f.effAddr x.am x.a.val x.b 0 size)) →
    Issues s q f g i → g.accessing = false → f.activeSet i g ≠ 0 →
    State.checkLanes f size align kind unsup ea (lanesOf (f.activeSet i g)) s = (s1, r) → firstRank r = some n →
      (n ≠ waitRank → (∃ x ∈ faultsAt n r, x.code ≠ 0x10) →
        let tr := faultTrap (faultsAt n r) kind.info g.pc
        ∀ l, TrapReady s q f tr l → ∃ t, exec i s = .next t ∧ TrapTaken t q f tr l ∧ t.mem = s.mem ∧ t.fields = s.fields)
      ∧ (n = waitRank → ∃ w, WaitsFor s q f g i w))
  ∧ (∀ (s s1 : State) (q : Issue) (f : Furrow) (g : Group) (x : LM) (n l : Nat) (r : List LaneAcc),
    let i := Instr.gth x
    let size := memWidth x.ty x.x2 / 8
    let as := r.filterMap LaneAcc.ok?
    let d := accLanes as
    let tr := faultTrap (faultsAt n r) 0 g.pc
    Issues s q f g i → WholeGroup f g → NoneAhead s → NoSpill s q → f.openSlot = none → g.accessing = false →
    (∀ p ∈ f.posted, p.lanes &&& g.lanes ≠ 0 → p.rel = 0) → f.ownStore g.lanes (spotSectors (spotsOf as)) = false →
    State.checkLanes f size 1 {} (fun _ _ => false) (f.eaOf x) (lanesOf (f.activeSet i g)) (s.publishReleases (f.party g.lanes)) = (s1, r) →
    firstRank r = some n → waitSectors r = [] → (∃ y ∈ faultsAt n r, y.code ≠ 0x10) → s1.watchLanes f as size {} = 0 →
    TokensHeld s1 f false (spotsOf as) → (∀ p ∈ partsOf size as, s1.spotPoison p.size p.spot = false) → LateReady s q f g tr l →
      ∃ t f' fr, exec i s = .next t
        ∧ TrapTaken t q (f.writeLoad x.ty x.x2 x.d.val d (gotOf (performParts (State.readPart f size) (partsOf size as) s1).2)) tr l
        ∧ t.furrow? q.core q.slot = some f' ∧ f'.frame? l = some fr
        ∧ (∀ k, k < 32 → inMask d k = true → (laneAt fr.lrec k).pc = nextPc g.pc i.words) ∧ t.mem = s.mem ∧ t.fields = s.fields)
  ∧ (∀ (s s1 : State) (q : Issue) (f : Furrow) (g : Group) (x : LM) (n l : Nat) (r : List LaneAcc),
    let i := Instr.sct x
    let size := memWidth x.ty x.x2 / 8
    let as := r.filterMap LaneAcc.ok?
    let d := accLanes as
    let tr := faultTrap (faultsAt n r) 1 g.pc
    Issues s q f g i → WholeGroup f g → NoneAhead s → BytesOk s → g.accessing = false →
    State.checkLanes f size 1 { write := true } (fun _ _ => false) (f.eaOf x) (lanesOf (f.activeSet i g)) s = (s1, r) →
    firstRank r = some n → waitSectors r = [] → (∃ y ∈ faultsAt n r, y.code ≠ 0x10) → s1.watchLanes f as size { write := true } = 0 →
    TokensHeld s1 f true (spotsOf as) → PostedWait s1 f (spotSectors (spotsOf as)) → LateReady s q f g tr l →
      ∃ t f' fr, exec i s = .next t ∧ TrapTaken t q f tr l ∧ t.furrow? q.core q.slot = some f' ∧ f'.frame? l = some fr
        ∧ (∀ k, k < 32 → inMask d k = true → (laneAt fr.lrec k).pc = nextPc g.pc i.words)
        ∧ Wrote s s1 t f d (writesOf as (f.storeData x)))
  ∧ (∀ (s s0 s1 : State) (q : Issue) (f : Furrow) (g : Group) (x : LM) (i : Instr) (acq : Option Scope) (as : List (Nat × Nat × Spot)) (l : Nat),
    (i, acq, s0) ∈ [(.ld x, none, s), (.ldAcq x, some x.scope, s), (.gth x, none, s.publishReleases (f.party g.lanes))] →
    let size := memWidth x.ty x.x2 / 8
    let m := f.activeSet i g
    let parts := partsOf size as
    let bad := (parts.filter (fun p => s1.spotPoison p.size p.spot)).map (fun p => (p.lane, p.ea, p.spot))
    let tr := poisonTrap bad 0 g.pc
    Issues s q f g i → NoneAhead s → NoSpill s q → m ≠ 0 → (i = .gth x → WholeGroup f g ∧ LateReady s q f g tr l) →
    (∀ p ∈ f.posted, p.lanes &&& g.lanes ≠ 0 → i = .gth x → p.rel = 0) → f.ownStore g.lanes (spotSectors (spotsOf as)) = false →
    Passes s0 f g m size 1 {} (fun _ _ => false) (f.eaOf x) s1 as → TokensHeld s1 f false (spotsOf as) →
    (∀ k, s1.lookup i f g m true = some k → k.hit = none) → bad ≠ [] → TrapReady s q f tr l →
      ∃ t, exec i s = .next t ∧ t.mem = s.mem ∧ t.fields = s.fields
        ∧ TrapTaken t q (if i = .gth x then f.writeLoad x.ty x.x2 x.d.val (m &&& ~~~(accLanes bad)) (gotOf (performParts (State.readPart f size) parts s1).2)
            else f) tr l)
  ∧ (∀ (s s1 : State) (q : Issue) (f : Furrow) (g : Group) (x : LM) (i : Instr) (a : Nat × Nat × Spot) (as : List (Nat × Nat × Spot)) (p : Part) (l : Nat),
    i ∈ [.ldw x, .ldwAcq x] →
    let m := f.activeSet i g
    let tr := poisonTrap ((lanesOf m).map (fun k => (k, p.ea, p.spot))) 0 g.pc
    Issues s q f g i → NoneAhead s → m ≠ 0 → f.ownStore g.lanes (spotSectors [a.2.2]) = false →
    Passes s f g m (memWidth x.ty x.x2 / 8) 1 {} (fun _ _ => false) (f.eaOf x) s1 (a :: as) → TokensHeld s1 f false [a.2.2] →
    (partsOf (memWidth x.ty x.x2 / 8) [a]).find? (fun p => s1.spotPoison p.size p.spot) = some p → TrapReady s q f tr l →
      ∃ t, exec i s = .next t ∧ TrapTaken t q f tr l ∧ t.mem = s.mem ∧ t.fields = s.fields)
  ∧ (∀ (s s1 : State) (q : Issue) (f : Furrow) (g : Group) (x : LW) (as : List (Nat × Nat × Spot)) (l : Nat),
    let i := Instr.waita x
    let n := x.ty.width / 8
    let bad := as.filter (fun a => s1.spotPoison n a.2.2)
    let tr := poisonTrap bad 0 g.pc
    Issues s q f g i → NoneAhead s → f.activeSet i g ≠ 0 → f.ownStore g.lanes (spotSectors (spotsOf as)) = false → g.wait = none →
    Passes s f g (f.activeSet i g) n n {} (fun _ _ => false) (f.effAddr x.am x.a.val x.b 0 n) s1 as → TokensHeld s1 f false (spotsOf as) →
    bad ≠ [] → TrapReady s q f tr l → ∃ t, exec i s = .next t ∧ TrapTaken t q f tr l ∧ t.mem = s.mem ∧ t.fields = s.fields)
  ∧ (∀ (s s1 : State) (q : Issue) (f : Furrow) (g : Group) (x : LA) (as : List (Nat × Nat × Spot)) (l : Nat), ∀ p ∈ atomOps x,
    let m := f.activeSet p.1 g
    let n := x.ty.width / 8
    let fadd := match p.1 with
      | .atomFadd _ => true
      | _ => false
    let new := fun l old => p.2 old (f.laneBits x.ty x.c3.val l) (f.laneBits x.ty (x.c3.val + x.ty.width / 32) l)
    let s2 := State.acquiring f (if x.ord = 1 ∨ x.ord = 3 then some x.scope else none) (s1.releasing f m (decide (2 ≤ x.ord.val)) x.scope)
    let r := performParts (State.atomicPart f (s1.order + 1) n new) (partsOf n as) s2
    let bad := as.filter (fun a => s1.spotPoison n a.2.2)
    let tr := poisonTrap bad 2 (nextPc g.pc p.1.words)
    Issues s q f g p.1 → NoneAhead s → NoSpill s q → m ≠ 0 → f.ownStore g.lanes (spotSectors (spotsOf as)) = false →
    (2 ≤ x.ord.val → f.storing g.lanes = false) →
    Passes s f g m n n { rmw := true } (atomUnsupported (x.ty.width == 64) fadd) (f.effAddr x.am x.a.val x.b 0 n) s1 as →
    TokensHeld s1 f true (spotsOf as) → bad ≠ [] → LateReady s q f g tr l →
      ∃ t, exec p.1 s = .next t ∧ TrapTaken t q (f.writeLanes x.ty x.d.val (m &&& ~~~(accLanes bad)) (gotOf r.2)) tr l
        ∧ ∀ space a, t.cell space a = r.1.cell space a)

/-- R255 to R257: `waita` whose lanes pass every check, can read and are all satisfied by what they read completes with those values and changes no
byte; with a lane that is not satisfied, its group waits at the instruction, registers as they were. Under the hypotheses given each of these answers
a next state: `WAITA`. -/
def Obligations.WaitOnAddress : Prop :=
  ∀ (s s1 : State) (q : Issue) (f : Furrow) (g : Group) (x : LW) (as : List (Nat × Nat × Spot)),
    let i := Instr.waita x
    let m := f.activeSet i g
    let n := x.ty.width / 8
    let met := fun (a : Nat × Nat × Spot) =>
      let v := intOf x.ty (s1.spotNum f.core (s1.laneReader f a.1) true n a.2.2)
      let b := intOf x.ty (f.laneBits x.ty x.c3.val a.1)
      match x.cc with
      | .eq => decide (v = b)
      | .ne => decide (v ≠ b)
      | .lt => decide (v < b)
      | .ge => decide (b ≤ v)
    Issues s q f g i → NoneAhead s → NoSpill s q → m ≠ 0 → f.ownStore g.lanes (spotSectors (spotsOf as)) = false → g.wait = none →
    Passes s f g m n n {} (fun _ _ => false) (f.effAddr x.am x.a.val x.b 0 n) s1 as → TokensHeld s1 f false (spotsOf as) →
    (∀ a ∈ as, s1.spotPoison n a.2.2 = false) →
      ((∀ a ∈ as, met a = true) →
        ∃ t, exec i s = .next t
          ∧ Lands t q g i (f.writeLanes x.ty x.d.val m (fun l => ((as.find? (fun a => a.1 == l)).map (fun a => s1.spotNum f.core (s1.laneReader f a.1) true n a.2.2)).getD 0))
          ∧ OthersKept s t q ∧ t.mem = s.mem ∧ t.fields = s.fields)
      ∧ ((∃ a ∈ as, met a = false) → Undoes q f g →
        ∃ t f' h watch kept, exec i s = .next t ∧ t.furrow? q.core q.slot = some f' ∧ f'.regs = f.regs ∧ f'.group? g.lanes = some h ∧ h.pc = g.pc
          ∧ h.wait = some (.address watch false kept) ∧ OthersKept s t q ∧ t.mem = s.mem ∧ t.fields = s.fields)

/-- R144, R145, R150, R153, R258 to R260: with no store of the group outstanding every fence completes: a release makes what its lanes have written
visible at its scope, to the plain reads of its instance's threads too once its fence has completed, an acquire orders its lanes' later reads after
it. A fence of `.core` scope or wider leaves no load reuse entry of its quarter but doomed ones, an acquire of `.pod` scope or wider no peer line in
the caches of its die; a cross-path fence binds its lanes, or the commands they push, to the writes of its writing class that they have observed;
none changes a byte. With one outstanding, release and full fences wait, and a speculative fence runs ahead where it may. A prefetch always completes
and changes no register and no byte. Under the hypotheses given each of these answers a next state: `PF`, `FENCE_ACQ`, `FENCE_REL`, `FENCE_FULL`,
`FENCE_SPEC`, `FENCE_XP`. -/
def Obligations.Fences : Prop :=
  (∀ (s : State) (q : Issue) (f : Furrow) (g : Group) (x : LF) (y : LFx) (p : LP), NoneAhead s →
    (∀ r ∈ [(Instr.fenceAcq x, fun m => (s.acquire f true x.scope).sync f m false true x.scope),
        (.fenceRel x, fun m => (s.acquire f false x.scope).fenceSync f m true false x.scope), (.fenceFull x, fun m => s.fullFence f m x.scope),
        (.fenceSpec x, fun m => s.fullFence f m x.scope), (.fenceXp y, fun m => (s.fullFence f m .core).crossPath f m y.wr y.rd)],
      Issues s q f g r.1 →
        (f.activeSet r.1 g = 0 → Does s q g r.1 s f)
        ∧ (f.activeSet r.1 g ≠ 0 → (f.storing g.lanes = false ∨ r.1 = .fenceAcq x) → Does s q g r.1 (r.2 (f.activeSet r.1 g)) f))
    ∧ (∀ i ∈ [Instr.fenceRel x, .fenceFull x, .fenceXp y],
        Issues s q f g i → f.activeSet i g ≠ 0 → f.storing g.lanes = true → WaitsFor s q f g i .fence)
    ∧ (Issues s q f g (.fenceSpec x) → f.activeSet (.fenceSpec x) g ≠ 0 → f.storing g.lanes = true → f.mayStartAhead x.scope = false →
        WaitsFor s q f g (.fenceSpec x) .fence)
    ∧ (Issues s q f g (.fenceSpec x) → f.activeSet (.fenceSpec x) g ≠ 0 → f.storing g.lanes = true → f.mayStartAhead x.scope = true →
        ∃ t f' sf, exec (.fenceSpec x) s = .next t ∧ t.furrow? q.core q.slot = some f' ∧ f'.regs = f.regs ∧ f'.pcOf g.lanes = some (g.pc + 8)
          ∧ f'.spec = some sf ∧ sf.v = f.v ∧ sf.fpenv = f.fpenv ∧ sf.fencePc = g.pc ∧ sf.nextPc = g.pc + 8)
    ∧ (Issues s q f g (.pf p) → ∃ t, exec (.pf p) s = .next t ∧ Lands t q g (.pf p) f ∧ OthersKept s t q ∧ t.mem = s.mem ∧ t.fields = s.fields))
  ∧ (∀ (s : State) (f : Furrow) (acq : Bool) (c : Scope),
      (s.acquire f acq c).mem = s.mem ∧ (s.acquire f acq c).fields = s.fields
      ∧ (2 ≤ c.code → (∀ e ∈ ((s.acquire f acq c).core f.core).reuse[Fin.ofNat 4 (quarterOf f.slot)], e.load = true → ∃ n m, e.phase = .doomed n m)
          ∧ ∀ e ∈ (s.core f.core).reuse[Fin.ofNat 4 (quarterOf f.slot)], e.load = false →
              e ∈ ((s.acquire f acq c).core f.core).reuse[Fin.ofNat 4 (quarterOf f.slot)])
      ∧ (acq = true → 6 ≤ c.code → (∀ l ∈ ((s.acquire f acq c).die (dieOf f.core)).peerLines, s.isPeer l.1 = false)
          ∧ ∀ k ∈ (s.acquire f acq c).cores, dieOf k.ix = dieOf f.core → ∀ x ∈ k.l1, s.isPeer x = false))
  ∧ (∀ (s : State) (f : Furrow) (m : Mask) (c : Scope), (s.fenceSync f m true false c).mem = s.mem
      ∧ (∀ w ∈ (s.fenceSync f m true false c).recent, w.by_.meets (f.party m) = true →
          (∃ v ∈ w.vis, c.code ≤ v.scope ∧ v.core = f.core ∧ v.firm = true)
          ∧ ∀ r : Reader, r.party.cls = .ls → ({ w.by_ with core := f.core } : Party).near r.party c.code = true → w.binds s.cycles r = true)
      ∧ (∀ w ∈ (s.sync f m true false c).recent, w.by_.meets (f.party m) = true → ∃ v ∈ w.vis, c.code ≤ v.scope ∧ v.core = f.core)
      ∧ ∀ h, s.furrow? f.core f.slot = some h → ∃ h', (s.sync f m false true c).furrow? f.core f.slot = some h' ∧
          ∀ l, l < 32 → inMask m l = true → (laneAt h'.lanes l).floor[Fin.ofNat 8 c.code] = s.order)
  ∧ (∀ (s : State) (f : Furrow) (m : Mask) (a b : Cls), a ≠ .ls → a ≠ b → ∀ w ∈ (s.crossPath f m a b).recent, w.by_.cls = a →
      w.obs.any (fun x => x.meets (f.party m)) = true →
        (b = .ls → ∀ l, l < 32 → inMask m l = true → w.binds s.cycles (s.laneReader f l) = true)
        ∧ (b ≠ .ls → (f.party m, b) ∈ w.push))

/-- R278 to R281: weir instructions whose group passes every check, holds the tokens and meets no poison: `winit` writes a fresh weir with its
expected arrivals and bytes from w[WA+1]; `warr` counts one arrival, `wexp` adds bytes still due; `wwait` completes where PHASE[0] is not P and else
waits at its PC. Registers stay, and so does every byte that is not the weir's. Under the hypotheses given each of these answers a next state:
`WINIT`, `WARR`, `WEXP`, `WWAIT`. -/
def Obligations.Weirs : Prop :=
  ∀ (s s1 : State) (q : Issue) (f : Furrow) (g : Group) (wa : Fin 64) (a : Nat × Nat × Spot) (as : List (Nat × Nat × Spot)),
    Stands s q f g → NoneAhead s → BytesOk s → f.ownStore g.lanes (spotSectors (spotsOf (a :: as))) = false →
    Passes s f g g.lanes 32 32 { rmw := true } State.badWeir (fun _ => (f.readW wa.val).toNat) s1 (a :: as) →
    (let writes := fun (i : Instr) (w : Weir) => TokensHeld s1 f true [a.2.2] →
        ∃ t, exec i s = .next t ∧ Lands t q g i f ∧ OthersKept s t q ∧ Stored s t (writesOf [a] (fun _ => w.toBytes)) ∧ t.weirAt a.2.2 = w
     let w := s1.weirAt a.2.2
     let n := f.readW (wa.val + 1)
     (∀ c, writes (.winit { c := c, wa := wa })
        { arr := (n.setWidth 31).toNat, arrInit := (n.setWidth 31).toNat, bytes := (n.extractLsb' 32 31).toNat,
          bytesInit := (n.extractLsb' 32 31).toNat, phase := 0, status := 0 })
     ∧ (s1.spotPoison 32 a.2.2 = false → (∀ c sc, (sc ≠ .thread → f.storing g.lanes = false) →
          writes (.warr { c := c, wa := wa, scope := sc }) (w.contribute 1 0 none))
        ∧ ∀ c, writes (.wexp { c := c, wa := wa }) (w.contribute 0 (-((n.setWidth 32).toInt)) none)))
    ∧ (s1.spotPoison 32 a.2.2 = false → TokensHeld s1 f false (spotsOf (a :: as)) → ∀ (c p : Bool) (sc : Scope),
        let i := Instr.wwait { c := c, wa := wa, p := p, scope := sc }
        (((s1.weirAt a.2.2).phase % 2 == 1) = !p →
          ∃ t, exec i s = .next t ∧ Lands t q g i f ∧ OthersKept s t q ∧ t.mem = s.mem ∧ t.fields = s.fields)
        ∧ (((s1.weirAt a.2.2).phase % 2 == 1) = p → Undoes q f g →
          ∃ t f' h watch, exec i s = .next t ∧ t.furrow? q.core q.slot = some f' ∧ f'.regs = f.regs ∧ f'.group? g.lanes = some h ∧ h.pc = g.pc
            ∧ h.wait = some (.address watch false []) ∧ OthersKept s t q ∧ t.mem = s.mem ∧ t.fields = s.fields))

/-! ### Streams, caddy, engines' queues, handles, basins, frames, services -/

/-- R261, R273, R283, R40: `sset`, `sget`, `hget`, `hset` and `cget` move one 64-bit word between a `w` register and a stream record, a handle
register or a caddy entry; `cset` and `cclr` write a whole entry for the whole furrow, and trap where the group is not converged (a trap that its
context routes nowhere as log 99 says); nothing else changes. Under the hypotheses given each of these answers a next state: `HGET`, `HSET`, `SSET`,
`SGET`, `CSET`, `CCLR`, `CGET`. -/
def Obligations.RecordMoves : Prop :=
  ∀ (s : State) (q : Issue) (f : Furrow) (g : Group),
    (∀ x : SEs, WritesW s q f g (.sget x) x.wa.val (f.s[x.n].extractLsb' (64 * x.k.val) 64)
      ∧ (Issues s q f g (.sset x) → ∃ r : BitVec 256, Does s q g (.sset x) s { f with s := f.s.set x.n r }
          ∧ ∀ k : Fin 4, r.extractLsb' (64 * k.val) 64 = if k = x.k then f.readW x.wa.val else f.s[x.n].extractLsb' (64 * k.val) 64))
    ∧ (∀ x : SEh, WritesW s q f g (.hget x) x.wa.val f.h[x.h]
      ∧ (Issues s q f g (.hset x) → Does s q g (.hset x) s { f with h := f.h.set x.h (f.readW x.wa.val) }))
    ∧ (∀ (x : LC) (fl : Field), s.field? f.field = some fl → x.id.toNat < 64 →
      (∀ k : Fin 7, x.a.val = k.val → f.activeSet (.cget x) g ≠ 0 →
          WritesW s q f g (.cget x) x.d.val (fl.caddy[Fin.ofNat 64 x.id.toNat])[k])
      ∧ (f.activeSet (.cget x) g = 0 → Issues s q f g (.cget x) → Does s q g (.cget x) s f)
      ∧ (let puts := fun (i : Instr) (e : Nat → W64) => Issues s q f g i →
           (g.lanes = f.running → f.activeSet i g = g.lanes →
             Does s q g i (s.onField f.field (fun fl => { fl with caddy := fl.caddy.set (Fin.ofNat 64 x.id.toNat) (Vector.ofFn (fun k : Fin 7 => e k.val)) })) f)
           ∧ ((g.lanes ≠ f.running ∨ f.activeSet i g ≠ g.lanes) → Traps s q f i (trapAt g.lanes 0x21 0 g.pc))
         puts (.cset x) (fun k => f.readW (x.a.val + k)) ∧ puts (.cclr x) (fun _ => 0)))

/-- R267 to R269, R272, R274: a push with room in its engine and a free command slot captures its command and writes the handle (KIND, SLOT, SEQ);
with no room it waits. `qpop` takes the next row of its operand queue into the lanes of the group; with none it waits, and a wide row needs an even
register. A command is bound to the writes that its group's cross-path fences have ordered for its class (R150). `hcancel` of a completed, null or
expired handle has no effect; it takes a command that has not started out of its engine and completes it with CANCELLED, and asks one that runs to
stop; registers stay. A push to engine 0 by a group that is not all of the furrow traps, and a wide row for an odd register (a trap that its context
routes nowhere as log 99 says). Under the hypotheses given each of these answers a next state: `PUSH`, `QPOP`, `HCANCEL`. -/
def Obligations.EngineQueues : Prop :=
  (∀ (s : State) (q : Issue) (f : Furrow) (g : Group),
    (∀ (x : SEpush) (fl : Field), Issues s q f g (.push x) → s.field? f.field = some fl →
      let room := (s.commands.filter (fun c => c.core == f.core && c.engine == x.q && !c.reported
          && (s.field? c.field).any (fun fl => fl.status != .saved))).length
        < (if x.q = 0 then 8 else if x.q = 1 then 32 else if x.q = 2 then 64 else 16)
      (∀ k, (x.q ≠ 0 ∨ g.lanes = f.running) → room → fl.slotFor = some k →
        let c := makeCommand s.nextId x f fl k (s.locOf f)
        Does s q g (.push x)
            ((({ s with
                nextId := s.nextId + 1, commands := s.commands ++ [c] } : State).bindCommand (f.party g.lanes) (engineCls x.q) c.id).onField fl.id (fun fl => { fl with
              pushNo := fl.pushNo + 1,
              slots := fl.slots.set (Fin.ofNat 64 k) (some { seq := c.seq, kind := x.q.val + 1, cmd := c.id, status := none, doneAt := 0 }) }))
            { f with h := f.h.set x.h (BitVec.ofNat 64 ((x.q.val + 1) * 2 ^ 60 + k * 2 ^ 48 + (fl.pushNo + 1))) }
          ∧ c.phase = .queued ∧ c.engine = x.q ∧ c.core = f.core ∧ c.level = f.level ∧ c.records = f.s ∧ c.sel = x.sel ∧ c.seq = fl.pushNo + 1
          ∧ (∀ j : Fin 8, c.words[j] = if j.val < 4 ∨ x.q = 1 ∨ x.q = 3 then f.readW (x.wa.val + j.val) else 0)
          ∧ ∀ e ∈ c.entries, e.2 = fl.caddy[Fin.ofNat 64 e.1])
      ∧ ((x.q ≠ 0 ∨ g.lanes = f.running) → (¬room ∨ fl.slotFor = none) → WaitsFor s q f g (.push x) (.pushRoom x.q))
      ∧ (x.q = 0 → g.lanes ≠ f.running → Traps s q f (.push x) (trapAt g.lanes 0x21 0 g.pc)))
    ∧ (∀ (x : SEpop), Issues s q f g (.qpop x) → NoSpill s q →
      (f.opq[x.q] = [] → WaitsFor s q f g (.qpop x) (.row x.q))
      ∧ (∀ r rest, f.opq[x.q] = r :: rest →
          let taken := { f with opq := f.opq.set x.q rest }
          let u := (s.setFurrow taken).sweepStreams
          (r.wide = false → Does s q g (.qpop x) u (taken.writeV x.d.val g.lanes (fun l => (laneAt r.vals l).setWidth 32)))
          ∧ (r.wide = true → x.d.val % 2 = 0 → Does s q g (.qpop x) u (taken.writePair x.d.val g.lanes (laneAt r.vals)))
          ∧ (r.wide = true → x.d.val % 2 = 1 → Traps s q f (.qpop x) (trapAt g.lanes 0x1E 0 g.pc)))))
  ∧ (∀ (s : State) (q : Issue) (f : Furrow) (g : Group) (x : SEhc), Issues s q f g (.hcancel x) →
    (s.liveCommand f x.h = none → Does s q g (.hcancel x) s f)
    ∧ (∀ id c, s.liveCommand f x.h = some id → s.cmd? id = some c →
        ∃ t, exec (.hcancel x) s = .next t ∧ Lands t q g (.hcancel x) f ∧ OthersKept s t q ∧ t.mem = s.mem
          ∧ (c.phase = .queued → t.commands = s.commands.filter (fun k => k.id != id)
              ∧ ∀ fl y, s.field? c.field = some fl → fl.slots[Fin.ofNat 64 c.slot] = some y → y.cmd = id →
                  ((t.field? c.field).bind (fun fl => fl.slots[Fin.ofNat 64 c.slot])).map CmdSlot.status = some (some 1))
          ∧ (c.phase ≠ .queued → (t.cmd? id).map Command.cancelled = some true ∧ t.fields = s.fields)))

/-- R269 to R271: `htest` writes all ones while its command is pending, and what `hwait` writes otherwise: 0 for the null handle, EXPIRED (0x0D) for
one whose slot does not hold its push, else the command's status, which frees the slot; `hwait` waits while the command is pending. Under the
hypotheses given each of these answers a next state: `HWAIT`, `HTEST`. -/
def Obligations.HandleReads : Prop :=
  ∀ (s : State) (q : Issue) (f : Furrow) (g : Group) (x : SEh) (fl : Field), s.field? f.field = some fl → g.wait = none →
    let h := f.h[x.h]
    let slot := fl.slots[Fin.ofNat 64 (bitsOf h.toNat 48 6)]
    let fits := fun (c : CmdSlot) => bitsOf h.toNat 54 6 = 0 ∧ bitsOf h.toNat 60 4 = c.kind ∧ bitsOf h.toNat 0 48 = c.seq
    (h = 0 → WritesW s q f g (.htest x) x.wa.val 0 ∧ WritesW s q f g (.hwait x) x.wa.val 0)
    ∧ (h ≠ 0 → (slot = none ∨ ∃ c, slot = some c ∧ ¬fits c) →
        WritesW s q f g (.htest x) x.wa.val 0x0D ∧ WritesW s q f g (.hwait x) x.wa.val 0x0D)
    ∧ (∀ c, h ≠ 0 → slot = some c → fits c → c.status = none →
        WritesW s q f g (.htest x) x.wa.val 0xFFFFFFFFFFFFFFFF ∧ (Issues s q f g (.hwait x) → WaitsFor s q f g (.hwait x) (.handle x.h none)))
    ∧ (∀ c st, h ≠ 0 → slot = some c → fits c → c.status = some st →
        let u := (s.learned f g.lanes 2 [c.cmd]).onField f.field (fun fl => { fl with slots := fl.slots.set (Fin.ofNat 64 (bitsOf h.toNat 48 6)) none })
        (Issues s q f g (.htest x) → Does s q g (.htest x) u (f.writeW x.wa.val st))
        ∧ (Issues s q f g (.hwait x) → Does s q g (.hwait x) u (f.writeW x.wa.val st)))

/-- R59 to R61, R275, R401: a read of an output port claims the oldest empty slot and answers its address, a read of an input port the oldest full
one; 0 where the field gets no more input; a wait while there is none; a write of a claimed address publishes or releases the slot and evaluates the
scheme, a publication once no store, load or atomic of the furrow that has issued is outstanding; a port that is not bound, or an address not
claimed, traps with nothing changed (a context fault in a service field as log 99 says). Under the hypotheses given each of these answers a next
state: `QCLAIM`, `QPUT`. -/
def Obligations.BasinPorts : Prop :=
  ∀ (s : State) (q : Issue) (f : Furrow) (g : Group) (x : SEport) (fl : Field), s.field? f.field = some fl → NoneAhead s →
    (s.portOf f x.q = none →
      (Issues s q f g (.qclaim x) → Traps s q f (.qclaim x) (trapAt g.lanes 0x1E 0 g.pc))
      ∧ (Issues s q f g (.qput x) → Traps s q f (.qput x) (trapAt g.lanes 0x1E 0 g.pc)))
    ∧ (∀ out sc b bs, s.portOf f x.q = some (out, sc, b, bs) →
        let claimed := fun (n : Nat) (k : Basin → Basin) =>
          Does s q g (.qclaim x) ((((s.onBasin sc.id b k).onField f.field (fun fl => { fl with claims := fl.claims ++
              [{ port := x.q.val, basin := b, slot := n, furrowIx := f.ix }] })).acquire f true .pkg).sync f g.lanes false true .pkg)
            (f.writeW x.wa.val (bs.base + BitVec.ofNat 64 (n * bs.slotBytes)))
        (Issues s q f g (.qclaim x) →
          (∀ n rest, out = true → bs.empty = n :: rest → claimed n (fun y => { y with empty := y.empty.drop 1, filling := y.filling ++ [n] }))
          ∧ (∀ n rest, out = false → fl.withdrawn = false → bs.full = n :: rest →
              claimed n (fun y => { y with full := y.full.drop 1, reading := y.reading ++ [n] }))
          ∧ (out = false → (fl.withdrawn = true ∨ (bs.full = [] ∧ bs.ended = true)) → Does s q g (.qclaim x) s (f.writeW x.wa.val 0))
          ∧ (out = false → fl.withdrawn = false → bs.full = [] → bs.ended = false → s.withdraws sc fl = true →
              Does s q g (.qclaim x) (s.withdraw fl) (f.writeW x.wa.val 0))
          ∧ ((if out then bs.empty = [] else fl.withdrawn = false ∧ bs.full = [] ∧ bs.ended = false ∧ s.withdraws sc fl = false) →
              WaitsFor s q f g (.qclaim x) (.basin x.q)))
        ∧ (Issues s q f g (.qput x) →
          (fl.claimAt f x.q bs (f.readW x.wa.val) = none → Traps s q f (.qput x) (trapAt g.lanes 0x1E 0 g.pc))
          ∧ (∀ k, fl.claimAt f x.q bs (f.readW x.wa.val) = some k → out = true → f.busy = true → WaitsFor s q f g (.qput x) .furrowDrain)
          ∧ (∀ k, fl.claimAt f x.q bs (f.readW x.wa.val) = some k → (out = false ∨ f.busy = false) →
              let s1 := s.onBasin sc.id b (fun y => if out then { y with filling := setRemove y.filling k.slot, full := y.full ++ [k.slot] }
                else { y with reading := setRemove y.reading k.slot, empty := y.empty ++ [k.slot] })
              Does s q g (.qput x)
                (((if out then s1.publish (f.party 0xFFFFFFFF) 5 else s1).onField f.field
                  (fun fl => { fl with claims := fl.claims.filter (fun c => c != k) })).evaluate sc.id) f)))

/-- R327 to R329: `tfr` gives each active lane the frame register that MOD selects, of the lane that b names, in the frame FR selects: the PC, the
whole lane record, the fault address, or an entry of the call stack; `tfw` changes lane records alone, in ascending lane order, PC and DSKIP and the
end of a lane; both trap where no frame is (a trap that its context routes nowhere as log 99 says). Under the hypotheses given each of these answers
a next state: `TFR`, `TFW`. -/
def Obligations.FrameRegisters : Prop :=
  (∀ (s : State) (q : Issue) (f : Furrow) (g : Group) (x : LT),
    let at_ := fun (l : Nat) => f.bIndex x.b l % 32
    ((f.frameLevel x.fr.val = none) →
      (Issues s q f g (.tfr x) → Traps s q f (.tfr x) (trapAt g.lanes 0x20 0 g.pc))
      ∧ (Issues s q f g (.tfw x) → Traps s q f (.tfw x) (trapAt g.lanes 0x20 0 g.pc)))
    ∧ (∀ n fr, f.frameLevel x.fr.val = some n → f.frame? n = some fr →
      (Issues s q f g (.tfr x) → NoSpill s q →
        let m := f.activeSet (.tfr x) g
        let r := fun l => laneAt fr.lrec (at_ l)
        (x.sel = 0 → Does s q g (.tfr x) s (f.writeV x.d.val m (fun l => BitVec.ofNat 32 (r l).pc.toNat)))
        ∧ (x.sel = 1 → Does s q g (.tfr x) s (f.writePair x.d.val m (fun l => BitVec.ofNat 64 (r l).bits)))
        ∧ (x.sel = 2 → Does s q g (.tfr x) s (f.writePair x.d.val m (fun l => laneAt fr.eaddr (at_ l))))
        ∧ (∀ j, j < 16 → x.sel.toNat = 16 + j → Does s q g (.tfr x) s (f.writeV x.d.val m (fun l =>
            if j < (r l).csd then ((laneAt f.lanes (at_ l)).stackAt fr.fromLevel j).setWidth 32 else 0))))
      ∧ (Issues s q f g (.tfw x) →
        let m := f.activeSet (.tfw x) g
        (x.sel = 0 → Does s q g (.tfw x) s (f.setFrame n (some ((lanesOf m).foldl (fun (fr : Frame) l =>
            fr.writeSel 0 (at_ l) ((f.laneOf x.a.val l).setWidth 64)) fr))))
        ∧ (x.sel = 1 → Does s q g (.tfw x) s (f.setFrame n (some ((lanesOf m).foldl (fun (fr : Frame) l =>
            fr.writeSel 1 (at_ l) (f.pairOf x.a.val l)) fr)))))))
  ∧ (∀ (fr : Frame) (lane : Nat) (v : W64) (k : Nat), lane < 32 → k < 32 →
      let old := laneAt fr.lrec lane
      let pc := if v.toNat % 4 = 0 then v.setWidth 24 else old.pc
      laneAt (fr.writeSel 0 lane v).lrec k = (if k = lane then { old with pc := pc } else laneAt fr.lrec k)
      ∧ laneAt (fr.writeSel 1 lane v).lrec k =
          (if k = lane then { old with pc := pc, dskip := v.getLsbD 59, state := if old.state = 1 ∧ v.extractLsb' 62 2 = 3 then 3 else old.state }
           else laneAt fr.lrec k)
      ∧ (fr.writeSel 0 lane v).eaddr = fr.eaddr ∧ (fr.writeSel 1 lane v).code = fr.code ∧ (fr.writeSel 1 lane v).tlane = fr.tlane)

/-- R338, R339, R359, R360, R368: `svcpost` appends its entry with SRC, or waits while the queue holds 256; `svctake` takes the oldest entry,
`fqtake` the oldest queued fault entry, which stays unresolved, and each waits while there is none; `fqdone` of a number no entry holds does nothing,
and of one that only hints wait for drops it; `acrd` answers the six counters of a region and clears them where asked; the takes are illegal outside
a service field (a trap that its context routes nowhere as log 99 says). A take of an old image's field on a die that has new firmware ends the
field, once each of its groups waits in a take (R438). Under the hypotheses given each of these answers a next state: `SVCPOST`, `SVCTAKE`, `FQTAKE`,
`FQDONE`, `ACRD`. -/
def Obligations.Services : Prop :=
  ∀ (s : State) (q : Issue) (f : Furrow) (g : Group),
    let die := dieOf f.core
    let settled := (∀ v ∈ s.furrows, ∀ w ∈ v.faultWaits, w.unposted = []) ∧ ∀ c ∈ s.commands, c.phase ≠ .suspended
    (∀ x : LR1, Issues s q f g (.svcpost x) →
      let on := f.activeSet (.svcpost x) g ≠ 0
      (¬on → Does s q g (.svcpost x) s f)
      ∧ (on → f.storing g.lanes = false → (s.die die).svc.length < 256 →
          Does s q g (.svcpost x) ((s.sync f g.lanes true false .die).onDie die (fun d => { d with svc := d.svc ++ [(f.readW x.a.val,
            BitVec.ofNat 64 (s.ctxOf f * 2 ^ 48 + f.level * 2 ^ 40 + bitsOf (s.locOf f).toNat 0 40))] })) f)
      ∧ (on → f.storing g.lanes = false → 256 ≤ (s.die die).svc.length → WaitsFor s q f g (.svcpost x) .svcRoom))
    ∧ (∀ x : LRd, Issues s q f g (.svctake x) → f.activeSet (.svctake x) g ≠ 0 →
      (s.isService f = false → Traps s q f (.svctake x) (trapAt g.lanes 0x20 0 g.pc))
      ∧ (s.isService f = true → (s.die die).svc = [] → WaitsFor s q f g (.svctake x) .svcEntry)
      ∧ (∀ e rest, s.isService f = true → (s.die die).svc = e :: rest → s.switchDue f = none →
          Does s q g (.svctake x) (((s.onDie die (fun d => { d with svc := rest })).acquire f true .die).sync f g.lanes false true .die) ((f.writeW x.d.val e.1).writeW (x.d.val + 1) e.2))
      ∧ (∀ fl, s.isService f = true → (s.die die).svc ≠ [] → s.switchDue f = some fl →
          if s.takes fl (some (f.slot, g.lanes)) then exec (.svctake x) s = .next ((s.switchField fl).endIssue q)
          else WaitsFor s q f g (.svctake x) .svcEntry))
    ∧ (∀ x : LRd, Issues s q f g (.fqtake x) → f.activeSet (.fqtake x) g ≠ 0 →
      (s.isService f = false → Traps s q f (.fqtake x) (trapAt g.lanes 0x20 0 g.pc))
      ∧ (s.isService f = true → (∀ e ∈ (s.die die).faults, e.queued = false) → WaitsFor s q f g (.fqtake x) .fqEntry)
      ∧ (∀ e, s.isService f = true → settled → (s.die die).faults.find? FaultEntry.queued = some e → s.switchDue f = none →
          Does s q g (.fqtake x)
            (((s.onDie die (fun d => { d with faults := mapIf d.faults (fun y => y.seq == e.seq) (fun y => { y with queued := false }) })).acquire
              f true .die).sync f g.lanes false true .die)
            ((((f.writeW x.d.val e.vaddr).writeW (x.d.val + 1) (BitVec.ofNat 64 (e.ctx * 2 ^ 48 + e.asid * 2 ^ 32 + e.cause * 2 ^ 24 + e.level * 2 ^ 20
                + e.origin * 2 ^ 16 + e.busy.toNat * 2 ^ 15 + e.badPte.toNat * 2 ^ 14 + e.wlevel * 2 ^ 11 + e.kind * 2 ^ 8))).writeW
              (x.d.val + 2) (BitVec.ofNat 64 (e.count * 2 ^ 32 + e.seq))).writeW (x.d.val + 3) e.first))
      ∧ (∀ e fl, s.isService f = true → (s.die die).faults.find? FaultEntry.queued = some e → s.switchDue f = some fl →
          if s.takes fl (some (f.slot, g.lanes)) then exec (.fqtake x) s = .next ((s.switchField fl).endIssue q)
          else WaitsFor s q f g (.fqtake x) .fqEntry))
    ∧ (∀ x : LRi, Issues s q f g (.fqdone x) →
      let seq := ((f.readW x.a.val).setWidth 32).toNat
      (f.activeSet (.fqdone x) g = 0 → Does s q g (.fqdone x) s f)
      ∧ (f.activeSet (.fqdone x) g ≠ 0 → s.isService f = false → Traps s q f (.fqdone x) (trapAt g.lanes 0x20 0 g.pc))
      ∧ (f.activeSet (.fqdone x) g ≠ 0 → s.isService f = true → f.storing g.lanes = false →
          ((∀ e ∈ (s.die die).faults, e.seq ≠ seq) → Does s q g (.fqdone x) (s.sync f g.lanes true false .pkg) f)
          ∧ (∀ e, settled → (s.die die).faults.find? (fun e => e.seq == seq) = some e → (∀ w ∈ e.waiters, w = .hint) →
              Does s q g (.fqdone x) ((s.sync f g.lanes true false .pkg).onDie die (fun d => { d with faults := d.faults.filter (fun y => y.seq != seq) })) f)))
    ∧ (∀ x : LRda, Issues s q f g (.acrd x) → f.activeSet (.acrd x) g ≠ 0 →
      let pa := s.canonPa (bitsOf (f.readW x.a.val).toNat 0 52)
      let region := pa / 2 ^ 21
      (s.isService f = false → f.level ≠ 3 → Traps s q f (.acrd x) (trapAt g.lanes 0x22 0 g.pc))
      ∧ (∀ v : Vector Nat 6, (s.isService f = true ∨ f.level = 3) → s.isLocal pa = true →
          s.access.find? (fun y => y.1 == region) = some (region, v) →
          Does s q g (.acrd x) (if x.clr then { s with access := s.access.filter (fun y => y.1 != region) } else s)
            (f.writeW x.d.val (BitVec.ofNat 64 (v[0] + v[1] * 2 ^ 10 + v[2] * 2 ^ 20 + v[3] * 2 ^ 30 + v[4] * 2 ^ 40 + v[5] * 2 ^ 50)))))

/-- R69, R71, R364, R365: `xacq` takes a free right of its field, else the block without one while 144 registers are free, else waits; the 80
registers read 0 then; `xrel` drops the block. `tlbinv` leaves no entry of its kind in any TLB, no walk and no load reuse entry but doomed ones; it
traps where the context may not name the ASID (a trap that its context routes nowhere as log 99 says), and waits while stores of its group, or
accesses through such an entry, are outstanding. Under the hypotheses given each of these answers a next state: `XACQ`, `XREL`, `TLBINV_ASID`,
`TLBINV_PAGE`, `TLBINV_NONG`, `TLBINV_ALL`. -/
def Obligations.BlocksAndShootdowns : Prop :=
  (∀ (s : State) (q : Issue) (f : Furrow) (g : Group) (x : LX0),
    let whole := fun (i : Instr) => g.lanes = f.running ∧ f.activeSet i g = g.lanes
    let k := quarterOf f.slot
    (Issues s q f g (.xacq x) →
      (¬whole (.xacq x) → Traps s q f (.xacq x) (trapAt g.lanes 0x21 0 g.pc))
      ∧ (whole (.xacq x) → f.ext ≠ .none → Does s q g (.xacq x) s f)
      ∧ (whole (.xacq x) → f.ext = .none → s.acqWaiters f.core k = [] →
          (s.rightFree f.field f.core k = true → Does s q g (.xacq x) { s with nextId := s.nextId + 1 } (f.grantExt .right))
          ∧ (s.rightFree f.field f.core k = false → 144 ≤ s.physFree f.core k →
              Does s q g (.xacq x) { s with nextId := s.nextId + 1 } (f.grantExt (.unreserved s.nextId)))
          ∧ (s.rightFree f.field f.core k = false → s.physFree f.core k < 144 → WaitsFor s q f g (.xacq x) (.xacq s.nextId))))
    ∧ (Issues s q f g (.xrel x) →
      (¬whole (.xrel x) → Traps s q f (.xrel x) (trapAt g.lanes 0x21 0 g.pc))
      ∧ (whole (.xrel x) → f.ext = .none → Does s q g (.xrel x) s f)
      ∧ (whole (.xrel x) → f.ext ≠ .none → Does s q g (.xrel x) (((s.setFurrow f.dropExt).purgeReuse f.core k).passRight f.field f.core k) f.dropExt)))
  ∧ (∀ (f : Furrow) (e : Ext) (n : Fin 128),
      (f.grantExt e).ext = e ∧ (f.grantExt e).readV n.val = (if n.val < 48 then f.readV n.val else 0) ∧ f.dropExt = f.grantExt .none)
  ∧ (∀ (s : State) (q : Issue) (f : Furrow) (g : Group) (x : LR1) (y : LR2) (z : LX0),
    let low := fun (a : Fin 64) => (f.readW a.val).toNat % 65536
    let own := fun (a : Fin 64) => s.isService f = true ∨ f.level = 3 ∨ ∃ c, s.ctx? (s.ctxOf f) = some c ∧ c.tasid.toNat = low a
    let any := s.isService f = true ∨ f.level = 3
    let kills := fun (i : Instr) (legal : Prop) (t : TlbEntry → Bool) => Issues s q f g i →
      (f.activeSet i g = 0 → Does s q g i s f)
      ∧ (f.activeSet i g ≠ 0 → ¬legal → Traps s q f i (trapAt g.lanes 0x22 0 g.pc))
      ∧ (f.activeSet i g ≠ 0 → legal → f.storing g.lanes = true → WaitsFor s q f g i .fence)
      ∧ (f.activeSet i g ≠ 0 → legal → f.storing g.lanes = false →
          (s.outstanding t = true → WaitsFor s q f g i .fence)
          ∧ (s.outstanding t = false → Does s q g i ((s.shootdown t).fullFence f g.lanes .pkg) f))
    kills (.tlbinvAsid x) (own x.a) (fun e => !e.g && e.asid == low x.a)
    ∧ kills (.tlbinvPage y) (own y.a) (fun e => e.hits (low y.a) (f.readW y.b.val).toNat)
    ∧ kills (.tlbinvNong z) any (fun e => !e.g) ∧ kills (.tlbinvAll z) any (fun _ => true))
  ∧ (∀ (s : State) (t : TlbEntry → Bool),
      (∀ d : Fin 6, (s.shootdown t).dies[d].tlb = s.dies[d].tlb.filter (fun e => !t e) ∧ (s.shootdown t).dies[d].walks = [])
      ∧ (∀ k ∈ (s.shootdown t).cores, (∀ e ∈ k.tlb, t e = false) ∧ (∀ n : Fin 4, ∀ e ∈ k.tlb0[n], t e = false)
          ∧ ∀ n : Fin 4, ∀ e ∈ k.reuse[n], e.load = true → ∃ a m, e.phase = .doomed a m)
      ∧ (s.shootdown t).mem = s.mem ∧ (s.shootdown t).fields = s.fields)

/-! ### Events of a core -/

/-- R33 to R35: a slot passes its time, then releases, merges, pending traps and HALTs; if a furrow of the quarter has an eligible group, the one
that has waited longest issues next (the lower slot of two), with a group of its own, and waits from 0 again; otherwise no group issues. Step 1 of
R35 takes the oldest group of age 32 or more, else an active group of most lanes, else the oldest. Under the hypotheses given each of these answers a
next state: `ISSUE_SELECTION`. -/
def Obligations.IssueSelection : Prop :=
  (∀ (s : State) (core quarter dt : Nat),
    let s1 := s.tick dt
    let s3 := ((s1.quarterFurrows core quarter).foldl (fun s f => s.prepareFurrow core f.slot) s1).handout core quarter
    let due := fun (f : Furrow) => (s3.quarterFurrows core quarter).contains f = true ∧ s3.eligibleGroups f ≠ []
    ((∀ f, ¬due f) → exec (.issueSelection core quarter dt) s = .next s3)
    ∧ (∀ f, due f → s3.furrow? core f.slot = some f → f.level ≠ 3 →
        (∀ v, due v → v ≠ f → v.waited < f.waited ∨ (v.waited = f.waited ∧ f.slot < v.slot)) →
          ∃ t q f', exec (.issueSelection core quarter dt) s = .next t ∧ t.issue = some q ∧ q.core = core ∧ q.slot = f.slot ∧ q.inChain = false
            ∧ (∃ g ∈ f.groups, g.lanes = q.lanes ∧ s3.eligibleGroup f g = true)
            ∧ t.furrow? core f.slot = some f' ∧ f'.waited = 0 ∧ f'.regs = f.regs
            ∧ (∀ c n, (c ≠ core ∨ n ≠ f.slot) → t.regs? c n = s3.regs? c n) ∧ t.mem = s3.mem ∧ t.cycles = s3.cycles))
  ∧ (∀ (gs : List Group) (g : Group), firstChoice gs = some g →
      g ∈ gs
      ∧ ((∃ h ∈ gs, 32 ≤ h.age) → 32 ≤ g.age ∧ ∀ h ∈ gs, h.age ≤ g.age)
      ∧ ((∀ h ∈ gs, h.age < 32) → (∃ h ∈ gs, h.active = true) →
          g.active = true ∧ ∀ h ∈ gs, h.active = true → laneCount h.lanes ≤ laneCount g.lanes)
      ∧ ((∀ h ∈ gs, h.active = false) → ∀ h ∈ gs, h.age ≤ g.age))
  ∧ (∀ (gs : List Group), gs ≠ [] → (firstChoice gs).isSome = true)

/-- R80, R141, R144, R148, R168, R331: INSTRUCTION_COMPLETE performs a posted store whose tokens have come, each byte where the store put it; it
takes the STEP of a stepped return whose chain has issued; a load or atomic that has issued and whose tokens have come goes on at its own level, the
lowest lane's first. FENCE_COMPLETE ends the waits at fences of every group with no store left, and a fence that runs ahead once the furrow has none.
Under the hypotheses given each of these answers a next state: `INSTRUCTION_COMPLETE`, `FENCE_COMPLETE`. -/
def Obligations.CompletionEvents : Prop :=
  ∀ (s : State) (core slot : Nat) (f : Furrow), s.furrow? core slot = some f → f.core = core → f.slot = slot → f.groups ≠ [] →
    (∀ p, NoneAhead s → BytesOk s → f.posted = [p] → f.step = none → f.ending = false → (∀ h ∈ f.groups, h.accessing = false) →
        (∀ c ∈ f.clauses, c.2.1 = false) → s.lackedBy f = [] →
      ∃ t f', exec (.instructionComplete core slot) s = .next t ∧ t.furrow? core slot = some f' ∧ f'.posted = [] ∧ f'.regs = f.regs
        ∧ Stored s t (p.writes.map (fun w => (none, w.pa, w.bytes))) ∧ ∀ c n, (c ≠ core ∨ n ≠ slot) → t.regs? c n = s.regs? c n)
    ∧ (∀ n m, f.posted = [] → f.step = some (n, m, true) → n ≠ 0 → m &&& f.running ≠ 0 → f.ending = false → (∀ h ∈ f.groups, h.accessing = false) →
        (f.level ≠ 0 ∨ f.permit = true ∨ s.permitFor f (m &&& f.running) = true) →
      ∃ t, exec (.instructionComplete core slot) s = .next t
        ∧ TrapTaken t { core := core, slot := slot, lanes := 0 } f
            { lanes := m &&& f.running, code := 4, info := 0, arg := 0, pcs := tableOf (fun i => ((f.groupOf? i).map Group.pc).getD 0),
              eaddr := Vector.replicate 32 0 } n)
    ∧ (∀ g, f.posted = [] → (∀ c ∈ f.clauses, c.2.1 = false) → s.nextAccess f = some g →
      exec (.instructionComplete core slot) s = .next { s.onFurrow core slot (fun u => { u with level := g.level }) with
        issue := some { core := core, slot := slot, lanes := g.lanes, inChain := true, back := some f.level } })
    ∧ (f.spec = none →
      ∃ t f', exec (.fenceComplete core slot) s = .next t ∧ t.furrow? core slot = some f' ∧ f'.regs = f.regs ∧ f'.posted = f.posted
        ∧ (∀ g ∈ f'.groups, g.level = f.level → g.wait = some .fence → f'.storing g.lanes = true) ∧ t.mem = s.mem)
    ∧ (∀ sf, f.spec = some sf → f.posted = [] → sf.heldTrap = none → sf.scope.code ≤ 5 → (∀ g ∈ f.groups, ∀ pc c m, g.wait ≠ some (.rolledFence pc c m)) →
      ∃ t f', exec (.fenceComplete core slot) s = .next t ∧ t.furrow? core slot = some f' ∧ f'.regs = f.regs ∧ f'.spec = none
        ∧ (∀ g ∈ f'.groups, g.level = f.level → g.wait ≠ some .specHold ∧ g.wdog = 0) ∧ t.mem = s.mem)

/-- R47, R318, R323, R331, R334: a trap whose back-off has run out is entered when a permit is free, and otherwise backs off twice as long, at most
8192 cycles; a group whose watchdog counter has reached the interval takes WATCHDOG at its PC; a HALT request is taken at a boundary at level 0 by
all running lanes at their own PCs, and waits otherwise (log 114); a furrow stopped inside an issue slot first ends it (logs 19, 112). Under the
hypotheses given each of these answers a next state: `TRAP_PERMIT_RETRY`, `WATCHDOG`, `HALT_REQUEST_ARRIVE`. -/
def Obligations.TrapEvents : Prop :=
  ∀ (s : State) (core slot : Nat) (f : Furrow), s.furrow? core slot = some f → f.core = core → f.slot = slot →
    let q : Issue := { core := core, slot := slot, lanes := 0 }
    (∀ g b r n, f.group? g.lanes = some g → g.level = f.level → g.backoff = some b → b.trap = some r → (∀ h ∈ f.groups, h ≠ g → h.backoff = none) →
      f.needPermit = none →
        (f.openSlot ≠ none → exec (.trapPermitRetry core slot) s = .next s)
        ∧ (s.backoffOver f g.lanes b = true → f.openSlot = none → r.code ≠ 4 → r.code ≠ 6 → TrapReady s q f r n →
          ∃ t, exec (.trapPermitRetry core slot) s = .next t ∧ TrapTaken t q f r n)
        ∧ (s.backoffOver f g.lanes b = true → f.openSlot = none → r.code = 6 → TrapReady s q f f.haltTrap n →
          ∃ t, exec (.trapPermitRetry core slot) s = .next t ∧ TrapTaken t q f f.haltTrap n)
        ∧ (∀ m k, s.backoffOver f g.lanes b = true → f.openSlot = none → r.code = 4 → f.step = some (n, m, k) → n ≠ 0 → m &&& f.running ≠ 0 →
            (f.level ≠ 0 ∨ f.permit = true ∨ s.permitFor f (m &&& f.running) = true) →
          ∃ t, exec (.trapPermitRetry core slot) s = .next t ∧ TrapTaken t q f (f.stepTrap (m &&& f.running)) n)
        ∧ (s.backoffOver f g.lanes b = true → f.openSlot = none → r.code ≠ 4 → r.code ≠ 6 →
            (∃ c, s.ctx? (s.ctxOf f) = some c ∧ routeTrap c r.code 0 = some n) → f.level = 0 →
            r.lanes ≠ 0 → r.lanes &&& f.running = r.lanes → f.permit = false → s.permitFor f r.lanes = false →
            f.groupOf? (lowestLane r.lanes) = some g →
          ∃ t f' h b', exec (.trapPermitRetry core slot) s = .next t ∧ t.furrow? core slot = some f' ∧ f'.regs = f.regs ∧ f'.group? g.lanes = some h
            ∧ h.backoff = some b' ∧ b'.length = min 8192 (2 * b.length) ∧ b'.failed = b.failed + 1 ∧ b'.deadline = s.cycles + b'.length)
        ∧ (s.backoffOver f g.lanes b = false → exec (.trapPermitRetry core slot) s = .next s))
    ∧ (∀ g n c, s.counts f = true → f.openSlot = none → f.step = none → f.spec = none → g.underway = false →
        (∀ pc c m, g.wait ≠ some (.rolledFence pc c m)) → f.group? g.lanes = some g → g.level = f.level →
        s.ctx? (s.ctxOf f) = some c → c.interval ≤ g.wdog → (∀ h ∈ f.groups, h.backoff = none ∧ h.pend = none ∧ (h ≠ g → h.wdog < c.interval)) →
        TrapReady s q f (trapAt g.lanes 7 0 g.pc) n →
          ∃ t, exec (.watchdog core slot) s = .next t ∧ TrapTaken t q f (trapAt g.lanes 7 0 g.pc) n)
    ∧ ((∀ g ∈ f.groups, ∀ c, s.ctx? (s.ctxOf f) = some c → g.wdog < c.interval) → (s.ctx? (s.ctxOf f)).isSome = true →
        exec (.watchdog core slot) s = .next s)
    ∧ (∀ k n, nth? s.furrows k = some f → f.spec = none → (∀ g ∈ f.groups, ∀ pc c m, g.wait ≠ some (.rolledFence pc c m)) → f.haltDue = true →
        TrapReady s q f f.haltTrap n →
        ∃ t f', exec (.haltRequestArrive k) s = .next t ∧ TrapTaken t q f f.haltTrap n ∧ t.furrow? core slot = some f' ∧ f'.haltPend = false)
    ∧ (∀ k, nth? s.furrows k = some f → f.haltDue = false → (∀ g ∈ f.groups, g.pend = none) → exec (.haltRequestArrive k) s = .next s)

/-- R53, R71, R73, R258, R350, R351: a waiting `xacq` is granted by right where its field has one left, else without one where 144 registers are
free; a spilled block comes back when 144 registers are free; a field whose furrows and commands are gone leaves. Each event changes nothing where it
is not due (log 19). A walk under way that lacks a token of an entry requests it (R372); a walk that a prefetch left ends, and its walker takes the
next: a leaf whose address passes the range check fills the TLBs, any other end is dropped; no byte of memory and no register changes. Under the
hypotheses given each of these answers a next state: `XACQ_GRANT`, `REGISTER_RELOAD`, `FIELD_RETIRE`, `PAGE_WALK`. -/
def Obligations.BlockAndFieldEvents : Prop :=
  ((∀ (s : State) (core quarter n : Nat) (f : Furrow), s.acqWaiters core quarter = [(n, f)] → s.furrow? core f.slot = some f →
    let k := quarterOf f.slot
    let granted := fun (e : Ext) => ∃ t f', exec (.xacqGrant core quarter) s = .next t ∧ t.furrow? core f.slot = some f'
      ∧ f'.regs = (f.grantExt e).regs ∧ (∀ g ∈ f'.groups, g.acqOrder = none) ∧ t.nextId = s.nextId + 1 ∧ t.mem = s.mem
    (s.rightFree f.field f.core k = true → granted .right)
    ∧ (s.rightFree f.field f.core k = false → 144 ≤ s.physFree f.core k → granted (.unreserved s.nextId))
    ∧ (s.rightFree f.field f.core k = false → s.physFree f.core k < 144 → exec (.xacqGrant core quarter) s = .next s))
  ∧ (∀ (s : State) (core slot : Nat) (f : Furrow), s.furrow? core slot = some f →
      (f.spilled = true → 144 ≤ s.physFree core (quarterOf slot) →
        ∃ t f', exec (.registerReload core slot) s = .next t ∧ t.furrow? core slot = some f' ∧ f'.spilled = false ∧ f'.regs = f.regs)
      ∧ ((f.spilled = false ∨ s.physFree core (quarterOf slot) < 144) → exec (.registerReload core slot) s = .next s))
  ∧ (∀ (s : State) (fl : Field), s.field? fl.id = some fl →
      (s.mayRetire fl = true → fl.service = false → fl.id < s.nextId → ∃ t, exec (.fieldRetire fl.id) s = .next t ∧ t.field? fl.id = none)
      ∧ (s.mayRetire fl = false → exec (.fieldRetire fl.id) s = .next s)))
  ∧ (∀ (s : State) (n d j : Nat) (w : Walk) (c : Ctx), NoneAhead s → nth? s.walksNow n = some (d, j, w) → s.ctx? w.ctx = some c →
    let s1 := (s.onDie d (fun x => { x with walks := dropNth x.walks j })).assignWalks d
    (∀ sec, s.walkLack d c w.va = some sec → exec (.pageWalk n) s = .next (s.request d sec false w.core))
    ∧ (∀ e, s.walkLack d c w.va = none → s1.walk c w.va = .leaf e → s1.rangeOk c (e.frame w.va) = true →
      ∃ t, exec (.pageWalk n) s = .next t ∧ e ∈ (t.die (dieOf w.core)).tlb ∧ t.mem = s.mem ∧ t.fields = s.fields
        ∧ ∀ k m, t.regs? k m = s.regs? k m)
    ∧ (s.walkLack d c w.va = none → (∀ e, s1.walk c w.va = .leaf e → s1.rangeOk c (e.frame w.va) = false) → exec (.pageWalk n) s = .next s1))

/-! ### Engines -/

/-- R267, R268, R298, R299, R446: a queued command at the head of its engine starts: it runs when its start checks pass, and stands at its end with
the checks' code and detail when one fails; nothing but commands and collectives changes. A CXE command takes the place that the table of its
collective's first command gives its field (log 124). A command that may not start stays as it is (log 19). Under the hypotheses given each of these
answers a next state: `MMA`, `COPY`, `STREAM`, `ALLREDUCE`, `REDUCE_SCATTER`, `ALLGATHER`, `BROADCAST`, `SEND`. -/
def Obligations.EngineStarts : Prop :=
  ∀ (s : State) (id : Nat),
    let starts := fun (i : Instr) (c : Command) (rs : List Receiver) (bad : Option (Nat × Nat)) =>
      ∃ t c', exec i s = .next t ∧ t.cmd? id = some c' ∧ c'.phase = (if bad.isSome then .draining else .running) ∧ c'.ended = bad ∧ c'.receivers = rs
        ∧ c'.words = c.words ∧ c'.entries = c.entries ∧ c'.records = c.records ∧ c'.units = c.units
        ∧ t = { s with commands := t.commands, colls := t.colls, nextId := t.nextId }
    (∀ c fl, s.startable id 0 = some (c, fl) → starts (.mma id) c (s.soleReceiver c fl) (s.mxeStart c fl))
    ∧ (∀ c fl, s.startable id 1 = some (c, fl) → starts (.copy id) c (s.txeReceivers c fl) (s.txeStart c fl))
    ∧ (∀ c fl, s.startable id 2 = some (c, fl) → starts (.stream id) c (s.soleReceiver c fl) (s.gxeStart c fl))
    ∧ (∀ c fl, s.startable id 3 = some (c, fl) →
        ∀ p ∈ [(Instr.allreduce id, 1), (.reduceScatter id, 2), (.allgather id, 3), (.broadcast id, 4), (.send id, 5)],
        c.opc = p.2 → (∀ k ∈ s.colls, k.id < s.nextId) → starts p.1 c (s.soleReceiver c fl) (s.cxeStart c fl)
          ∧ (s.cxeStart c fl = none → ∀ n, s.rankOf c fl = some n → n < s.ranksOf c fl →
              ∃ t k m, exec p.1 s = .next t ∧ k ∈ t.colls ∧ k.gid = c.gid ∧ s.rankIn k.ctx c.gid fl = some m ∧ (k.ranks[m]?).map Rank.cmd = some id))
    ∧ (s.startable id 0 = none → exec (.mma id) s = .next s) ∧ (s.startable id 1 = none → exec (.copy id) s = .next s)
    ∧ (s.startable id 2 = none → exec (.stream id) s = .next s)
    ∧ (s.startable id 3 = none → ∀ i ∈ [Instr.allreduce id, .reduceScatter id, .allgather id, .broadcast id, .send id], exec i s = .next s)

/-- R263, R264, R288, R291, R293, R297, R127, R361: a K-step whose C overlaps none of its operands and meets no poison writes each element of C with
what it accumulates and counts one unit, and a poisoned one ends the command with C as it was; a TXE chunk that passes its checks and has its tokens
puts each element's value at its destination and is recorded as landed; a GXE row enters its queue whole, its elements at base plus number times
stride, or plus index times stride, and counts its elements. Under the hypotheses given each of these answers a next state: `MXE_KSTEP`,
`TXE_CHUNK_LAND`, `GXE_ROW_DELIVER`. -/
def Obligations.EngineUnits : Prop :=
  (∀ (s : State) (id : Nat) (c : Command) (fl : Field), s.unitOf id 0 = some (c, fl) → c.units < c.ksteps → BytesOk s →
    let d := (c.entryAt 2).2
    let ks := (List.range (min 64 (c.kk - 64 * c.units))).map (fun k => 64 * c.units + k)
    let readC := !(c.zc && c.units == 0)
    let s1 := s.afterRuns c (c.kstepRuns fl ks readC)
    let at_ := fun (m j : Nat) => (d.run fl m j).addr
    (s.runPoison (c.kstepRuns fl ks readC) = true →
      ∃ t c', exec (.mxeKstep id) s = .next t ∧ t.cmd? id = some c' ∧ c'.phase = .draining ∧ c'.ended = some (4, c.units)
        ∧ t = { s with commands := t.commands })
    ∧ (s.runPoison (c.kstepRuns fl ks readC) = false → d.loc = 1 → s.field? fl.id = some fl →
        (∀ m j m' j', m < c.mm → j < 64 → m' < c.mm → j' < 64 → (m ≠ m' ∨ j ≠ j') →
          at_ m j + d.size ≤ at_ m' j' ∨ at_ m' j' + d.size ≤ at_ m j) →
        (∀ p ∈ c.kstepRuns fl ks false, ∀ m j, m < c.mm → j < 64 → p.space ≠ 2 ∨ p.field ≠ fl.id ∨ p.addr + p.len ≤ at_ m j ∨ at_ m j + d.size ≤ p.addr) →
      ∃ t c' fl', exec (.mxeKstep id) s = .next t ∧ t.cmd? id = some c' ∧ c'.phase = .running ∧ c'.units = c.units + 1 ∧ t.mem = s.mem
        ∧ t.furrows = s.furrows ∧ t.field? fl.id = some fl'
        ∧ ∀ m j, m < c.mm → j < 64 → fl'.tile.bytesAt (at_ m j) d.size = leBytes d.size (s1.kstepElem c fl ks readC m j).1))
  ∧ (∀ (s s1 s3 : State) (id chunk : Nat) (c c2 : Command) (fl : Field) (p : Flight) (got : List (Option (List Byte))),
      let s0 := s.beginEvent (.txeChunkLand id chunk)
      let s2 := s1.onCmd id (fun c => { c with flights := c.flights ++ [p], next := chunk + 1 })
      let f := s2.stillThere c2 p
      let val := fun (y : Put) => leNat (((got[y.item]?).join).getD []) % 2 ^ 64
      s0.unitOf id 1 = some (c, fl) → (∀ k ∈ c.receivers, k.owed = 0) → c.stop = none → c.flights = [] → c.next = chunk → chunk < c.chunks →
      c.weir = 0 → c.red = 0 → BytesOk s → s0.planChunk c fl chunk = (s1, .ok p) → s1.cmd? id = some c → s2.cmd? id = some c2 →
      State.readFlight c2 f s2 = (s3, got, false) → (∀ b ∈ got, b.isSome = true) →
      s3.lacking (dieAgent c.core) true (s3.runSectors ((f.puts.map Put.pieces).flatten)) = [] →
      (∀ x ∈ s3.sectors, (x.holder (dieAgent c.core)).forwards = []) → (∀ y ∈ f.puts, y.high = none ∧ y.half = none) →
        ∃ t c', exec (.txeChunkLand id chunk) s = .next t ∧ t.cmd? id = some c' ∧ c'.landed = setInsert c.landed chunk ∧ c'.units = c.units + 1
          ∧ c'.next = chunk + 1 ∧ c'.flights = [] ∧ c'.phase = .running
          ∧ ∀ x, t.byteAt x = (lastByte (((f.puts.map (fun y => pieceData y.pieces (leBytes (y.pieces.map Piece.len).sum (val y)))).flatten).filterMap
              (fun y => if y.1.space = 0 then some (none, y.1.addr, y.2) else none)) none x).getD (s.byteAt x))
  ∧ (∀ (s s1 : State) (id : Nat) (c : Command) (fl : Field) (f : Furrow) (xs : List W64),
      let s0 := s.beginEvent (.gxeRowDeliver id)
      let q : Fin 8 := Fin.ofNat 8 c.recordNo
      let js := (List.range (min 32 (c.record.count - c.units))).map (fun i => c.units + i)
      s0.unitOf id 2 = some (c, fl) → c.units < c.record.count → c.reported = false → c.row = [] → s0.blockedBy c = false →
      s0.pusher c = some f → (f.opq[q]).length < 4 →
      State.gxeElems c fl js s0 = (s1, xs, none) → s1.pusher c = some f → s1.furrow? f.core f.slot = some f → (s1.cmd? id).isSome = true →
        ∃ t c' f' row, exec (.gxeRowDeliver id) s = .next t ∧ t.cmd? id = some c' ∧ c'.units = c.units + js.length
          ∧ t.furrow? f.core f.slot = some f' ∧ f'.opq[q] = f.opq[q] ++ [row] ∧ row.first = c.units ∧ row.cmd = id
          ∧ (∀ l, l < 32 → laneAt row.vals l = xs.getD l 0) ∧ f'.v = f.v ∧ f'.w = f.w ∧ t.mem = s1.mem)
  ∧ (∀ (s : State) (c : Command) (fl : Field) (j : Nat),
      let x := c.record
      let i := c.index
      let t := Ty.ofCode i.ety
      (x.ind = false → ∃ cover, s.gxeAddr c fl j = (s, .ok (wrap ((x.base : Int) + (j : Int) * x.stride) 64, cover)))
      ∧ (∀ s1 bs, x.ind = true → s.gxeRead c fl (i.reaches c.nextRow) (wrap ((i.base : Int) + (j : Int) * i.stride) 64) (t.width / 8) = (s1, .ok bs) →
          ∃ cover, s.gxeAddr c fl j = (s1, .ok (wrap ((x.base : Int) + intOf t (leNat bs) * x.stride) 64, cover))))

/-- R272, R276, R282, R299 to R301, R431 to R433: a command whose units are done or whose end is decided leaves its engine with its status in its
handle's slot; a collective whose ranks have all pushed and agree starts, on a slot or as a ring, and ends every rank where they disagree; a fabric
chunk is staged once and counted; a silent rank, or a second switch failure, ends the ranks that have not committed with MEMBER_LOST, a rank
cancelled elsewhere with ABORTED. Under the hypotheses given each of these answers a next state: `CXE_CHUNK_ARRIVE`, `ENGINE_COMPLETE`,
`COLLECTIVE_START`, `COLLECTIVE_TIMEOUT`, `COLLECTIVE_REDO`. -/
def Obligations.Collectives : Prop :=
  (∀ (s : State) (id : Nat) (c : Command) (fl : Field) (y : CmdSlot),
    s.cmd? id = some c → s.field? c.field = some fl → (s.worksOn c = true ∨ fl.status = .ending) → c.engine ≠ 3 → c.phase ≠ .queued →
        c.phase ≠ .suspended →
    c.cancelled = false → c.reported = false → c.flights = [] → s.rowsLeft id = false → (c.ended.isSome = true ∨ c.unitsDone = true) → c.weir = 0 →
        c.streamLeft ≤ c.units →
    (∀ r ∈ c.receivers, r.absent = true ∨ (s.receiverField fl r).isSome = true) → fl.slots[Fin.ofNat 64 c.slot] = some y → y.cmd = id →
      ∃ t fl', exec (.engineComplete id) s = .next t ∧ t.cmd? id = none ∧ t.field? c.field = some fl' ∧ t.mem = s.mem
        ∧ (fl'.slots[Fin.ofNat 64 c.slot]).map CmdSlot.status = some (some (BitVec.ofNat 64 c.status))
        ∧ ∀ core n, t.regs? core n = s.regs? core n)
  ∧ (∀ (s : State) (ctx gid : Nat) (plane differs : Option Nat) (k : Collective),
      s.colls.find? (fun k => k.ctx == ctx && k.gid == gid && !k.started && s.allPushed k) = some k → s.coll? k.id = some k →
      let slot : Option Nat := if s.algOf k = 0 ∨ s.overEther k = true then none else plane.filter (s.slotFor k)
      let ends := fun (code w : Nat) => ∃ t k', exec (.collectiveStart ctx gid ⟨plane, differs⟩) s = .next t ∧ t.coll? k.id = some k' ∧ k'.started = true
        ∧ k'.aborted = true
        ∧ (∀ r ∈ k.ranks, r.committed = false → r.todo = none → ∀ c, s.cmd? r.cmd = some c → c.ended = none →
            ∃ c', t.cmd? r.cmd = some c' ∧ c'.phase = .draining ∧ c'.ended = some (code, w)) ∧ t = { s with commands := t.commands, colls := t.colls }
      (∀ e, s.rankFault k differs = some e → ends e.1 e.2)
      ∧ (s.rankFault k differs = none → s.algOf k = 1 → slot = none → ends 12 0)
      ∧ (s.rankFault k differs = none → (s.algOf k = 1 → slot ≠ none) →
          ∃ t k', exec (.collectiveStart ctx gid ⟨plane, differs⟩) s = .next t ∧ t.coll? k.id = some k' ∧ k'.started = true ∧ k'.slot = slot
            ∧ k'.ring = slot.isNone ∧ k'.aborted = k.aborted ∧ t = { s with colls := t.colls }))
  ∧ (∀ (s s1 : State) (coll rank chunk : Nat) (ext : List (Nat × List Byte)) (k : Collective) (r : Rank) (c c1 : Command) (fl : Field) (xs : List Nat) (fs : Nat),
      let s0 := s.beginEvent (.cxeChunkArrive coll rank chunk ext)
      let w := (c.entryAt 1).2.ty.width
      let is := chunkRange w (k.resultCount c rank) chunk
      s0.receiving coll rank = some (k, r, c, fl) → chunk < k.chunksOf c rank → r.arrived.contains chunk = false → c.cen = false →
      State.cxeChunk k c rank ext ((List.range is.length).zip is) s0 = (s1, .ok (xs, fs)) → s1.coll? coll = some k → s1.cmd? c.id = some c1 →
        ∃ t k' r' c', exec (.cxeChunkArrive coll rank chunk ext) s = .next t ∧ t.coll? coll = some k' ∧ k'.ranks[rank]? = some r'
          ∧ r'.arrived = setInsert r.arrived chunk ∧ r'.buf = cellsWrite r.buf (4096 * chunk) (packElems w xs) ∧ r'.lastChunk = s.cycles
          ∧ t.cmd? c.id = some c' ∧ c'.units = c1.units + 1 ∧ t.mem = s1.mem)
  ∧ (∀ (s : State) (id : Nat) (k : Collective), s.coll? id = some k → k.started = true → k.aborted = false →
      let lost := fun (i : Instr) (code : Nat) (detail : Command → Nat) => ∃ t k', exec i s = .next t ∧ t.coll? id = some k' ∧ k'.aborted = true
        ∧ (∀ r ∈ k.ranks, r.committed = false → r.todo = none → ∀ c, s.cmd? r.cmd = some c → c.ended = none →
            ∃ c', t.cmd? r.cmd = some c' ∧ c'.phase = .draining ∧ c'.ended = some (code, detail c))
        ∧ t = { s with commands := t.commands, colls := t.colls, baseErrs := t.baseErrs }
      ((∃ r ∈ k.ranks, r.cmd ≠ 0 ∧ s.rankSilent k r = true) → lost (.collectiveTimeout ⟨id, false⟩) 11 (fun _ => 0))
      ∧ (s.hasRemote k = true → lost (.collectiveTimeout ⟨id, true⟩) 2 Command.units)
      ∧ ((∀ r ∈ k.ranks, s.rankSilent k r = false) → exec (.collectiveTimeout ⟨id, false⟩) s = .next s)
      ∧ (∀ n plane, k.slot = some n →
          ((k.redone = true ∨ plane = none) → lost (.collectiveRedo id plane) 11 (fun _ => 0))
          ∧ (∀ p, plane = some p → k.redone = false → p ≠ n → s.slotsUsed p < 64 →
              ∃ t k', exec (.collectiveRedo id plane) s = .next t ∧ t.coll? id = some k' ∧ k'.redone = true ∧ k'.slot = some p ∧ k'.aborted = false
                ∧ t.baseErrs.redos = s.baseErrs.redos + 1 ∧ t.commands = s.commands)))

/-! ### Headworks and management -/

/-- R396 to R398, R401, R418 to R420: a doorbell sets the tail of a usable queue; an entry that is read moves the head, and launches a scheme, ends
one whose record is bad with its reason, or cancels the scheme it names; one that cannot be read disables the queue. A due reach opens a field; a
scheme past its time limit ends with code 4. An event in which the base die reads lines whose homes lack tokens asks for them and happens once they
have come (R372, log 10). Under the hypotheses given each of these answers a next state: `SQ_TAIL`, `SQ_ENTRY_LAUNCH`, `SQ_ENTRY_CANCEL`,
`SCHEME_EVALUATE`, `SCHEME_TIMEOUT`. -/
def Obligations.Submission : Prop :=
  ∀ (s : State) (vf n : Nat),
    let k := (s.vf vf).queue n
    (∀ x, (vf < 1024 → n < 8 → s.vfUsable vf = true → k.orphaned = false →
        ∃ t, exec (.sqTail vf n x) s = .next t ∧ (t.vf vf).queue n = { k with tail := x % 2 ^ k.log2n } ∧ t = { s with vfs := t.vfs })
      ∧ ((1024 ≤ vf ∨ 8 ≤ n ∨ s.vfUsable vf = false ∨ k.orphaned = true) → exec (.sqTail vf n x) s = .next s))
    ∧ (s.baseLacking (s.entryReads vf n) ≠ [] → ∀ i ∈ [Instr.sqEntryLaunch vf n, .sqEntryCancel vf n],
        exec i s = .next ((s.baseLacking (s.entryReads vf n)).foldl State.requestBase { s with deferred := s.deferred ++ [(i, s.entryReads vf n)] }))
    ∧ (∀ c, let r := (s.entryReads vf n).foldl State.baseReadDone s
        let e := (r.vf vf).queue n
        s.baseLacking (s.entryReads vf n) = [] → n < 8 → r.ctx? (vf + 1) = some c → r.ready = true → (r.vf vf).nextQueue = some n →
        (r.vf vf).retained.length < 4096 →
        let moved := fun (t : State) => ((t.vf vf).queue n).head = (e.head + 1) % 2 ^ e.log2n ∧ ((t.vf vf).queue n).consumed = e.consumed + 1
          ∧ (t.vf vf).turn = n
        (r.ringEntry c e = none → ∀ i ∈ [Instr.sqEntryLaunch vf n, .sqEntryCancel vf n],
          ∃ t, exec i s = .next t ∧ ((t.vf vf).queue n).en = false ∧ (t.vf vf).event.getLsbD 5 = true ∧ t.mem = r.mem)
        ∧ (∀ bs, r.ringEntry c e = some bs →
          (∀ sc, imageNum bs 8 8 = 1 → r.schemes.find? (fun x => x.ctx == c.ctx && x.dseq == imageNum bs 0 8 && x.ended.isNone) = some sc →
              r.scheme? sc.id = some sc →
            ∃ t, exec (.sqEntryCancel vf n) s = .next t ∧ moved t ∧ (t.scheme? sc.id).map Scheme.ended = some (some (5, 0, 0)))
          ∧ (imageNum bs 8 8 = 1 → exec (.sqEntryLaunch vf n) s = .next r)
          ∧ (imageNum bs 8 8 ≠ 1 → exec (.sqEntryCancel vf n) s = .next r)
          ∧ (imageNum bs 8 8 = 0 → c.ended = none → (∀ x ∈ r.schemes, x.id < r.nextId) →
              let l := (r.consume vf n).readLaunch c (imageNum bs 0 8)
              (l.reason = 0 → ∃ t sc, exec (.sqEntryLaunch vf n) s = .next t ∧ moved t ∧ t.scheme? r.nextId = some sc ∧ sc.ctx = c.ctx ∧ sc.queue = n
                ∧ sc.tag = l.tag ∧ sc.done = l.done ∧ sc.basins = l.basins ∧ sc.reaches.length = l.reaches.length ∧ sc.tlimit = l.tlimit
                ∧ sc.acceptedAt = r.cycles ∧ sc.ended = none
                ∧ sc.dseq = e.gen % 65536 * 2 ^ 48 + n * 2 ^ 45 + (e.consumed + 1) % 2 ^ 45)
              ∧ (l.reason ≠ 0 → ∃ t sc, exec (.sqEntryLaunch vf n) s = .next t ∧ moved t ∧ t.scheme? r.nextId = some sc ∧ sc.tag = l.tag
                ∧ sc.ended = some (1, l.reason, 0)))))
    ∧ (∀ sc, s.scheme? n = some sc →
        (sc.ended.isSome = true → exec (.schemeEvaluate n) s = .next s)
        ∧ (∀ r, sc.ended = none → (∀ c, s.ctx? sc.ctx = some c → c.ended = none) → sc.reaches = [r] → r.tsize = 0 → s.reachDue sc 0 r = true →
            s.reachWaits n 0 = false → (∀ x ∈ s.fields, x.id < s.nextId) →
            ∃ t fl, exec (.schemeEvaluate n) s = .next t ∧ t.field? s.nextId = some fl ∧ fl.status = .waiting ∧ fl.scheme = n ∧ fl.reach = 0
              ∧ fl.ctx = sc.ctx ∧ fl.kernel = r.kernel ∧ t.mem = s.mem ∧ t.furrows = s.furrows)
        ∧ (sc.ended = none → sc.tlimit ≠ 0 → sc.acceptedAt + 4000 * sc.tlimit ≤ s.cycles →
            ∃ t, exec (.schemeTimeout n) s = .next t ∧ (t.scheme? n).map Scheme.ended = some (some (4, 0, 0)))
        ∧ ((sc.ended.isSome = true ∨ sc.tlimit = 0 ∨ s.cycles < sc.acceptedAt + 4000 * sc.tlimit) → exec (.schemeTimeout n) s = .next s))

/-- R43, R399, R400, R402, R404 to R412: the first waiting field that fits is put on its core with its furrows; where none fits, victims stop for the
collector; once every unit of a collection has acknowledged, a victim leaves its core, saved, and one that is not due changes nothing (log 19). Under
the hypotheses given each of these answers a next state: `FIELD_PLACE`, `PREEMPT_REQUEST`, `PREEMPT_COLLECT_COMPLETE`. -/
def Obligations.PlacementAndPreemption : Prop :=
  ∀ (s : State) (part : Nat),
    let reads := ((s.nextPlaced part).map (fun x => s.putReads x.1 x.2)).flatten.dedup
    let r := reads.foldl State.baseReadDone s
    (s.baseLacking reads ≠ [] → exec (.fieldPlace part) s
        = .next ((s.baseLacking reads).foldl State.requestBase { s with deferred := s.deferred ++ [(.fieldPlace part, reads)] }))
    ∧ (∀ fl core, s.baseLacking reads = [] → bestBy r.waitsBefore ((r.waitingFields part).filter (fun f => (r.coresFor f).isSome)) = some fl →
        r.coresFor fl = some [core] → fl.tsize = 0 → fl.status = .waiting → r.field? fl.id = some fl →
        ∃ t fl', exec (.fieldPlace part) s = .next t ∧ t.field? fl.id = some fl' ∧ fl'.status = .resident ∧ fl'.core = core ∧ fl'.kernel = fl.kernel
          ∧ fl'.caddy = fl.kernel.caddy ∧ fl'.sp.size = fl.kernel.scratch
          ∧ ∀ i, i < fl.fcount → ∃ f ∈ t.furrows, f.field = fl.id ∧ f.core = core ∧ f.ix = i)
    ∧ ((∀ f ∈ s.waitingFields part, s.coresFor f = none) → exec (.fieldPlace part) s = .next s)
    ∧ (∀ fl vs, (∀ f ∈ s.fields, f.status = .collecting → s.partOf f.ctx ≠ part) →
        bestBy s.waitsBefore (((s.waitingFields part).filter (fun f => (s.coresFor f).isNone && s.imagesFit f)).filter (fun f => (s.victimsFor f).isSome)) = some fl →
        s.victimsFor fl = some vs →
        ∃ t, exec (.preemptRequest part) s = .next t ∧ t = { s with fields := t.fields, nextId := s.nextId + 1 }
          ∧ ∀ f, s.field? f.id = some f →
            t.field? f.id = some (if f.status = .resident ∧ f.id ∈ vs.map Field.id then { f with status := .collecting, collection := s.nextId } else f))
    ∧ ((∃ f ∈ s.fields, f.status = .collecting ∧ s.partOf f.ctx = part) → exec (.preemptRequest part) s = .next s)
    ∧ (∀ fl, s.field? fl.id = some fl →
        (fl.status = .collecting → (∃ f ∈ s.furrows, f.field = fl.id) → (∀ f ∈ s.furrows, f.field = fl.id →
            f.spec = none ∧ f.step = none ∧ s.furrow? fl.core f.slot = some f) →
          s.acknowledged fl.collection = true →
          ∃ t fl', exec (.preemptCollectComplete fl.id) s = .next t ∧ t.field? fl.id = some fl' ∧ fl'.status = .saved
            ∧ (∀ f ∈ t.furrows, f.field ≠ fl.id) ∧ ∀ f ∈ s.furrows, f.field = fl.id → ∃ g ∈ fl'.saved, g.ix = f.ix ∧ g.w = f.w ∧ g.p = f.p ∧ g.h = f.h)
        ∧ ((fl.status ≠ .collecting ∨ (∀ f ∈ s.furrows, f.field ≠ fl.id) ∨ s.acknowledged fl.collection = false) →
            exec (.preemptCollectComplete fl.id) s = .next s))

/-- R372, R413, R414, R416, R417, R422, R423, R430, R434, R436, R437, R439, R440: every command but FW_OFFER answers NOTREADY while the package or
its LD is not ready; otherwise each has its effect and answers OK, or answers BADARG, DENIED or BUSY with none of it. One that reads lines whose
homes lack tokens stays in service and asks for them, and a CTX_DESTROY stays in service while its context has fields or records to write. What the
base die writes it reads back, also while it waits for its lines' tokens. A command's status stands in word 0 of its PF's result, and PF_SEQ counts
it. Under the hypotheses given each of these answers a next state: `CTX_CREATE`, `CTX_DESTROY`, `GROUP_SET`, `QUEUE_RESET`, `QUAD_ASSIGN`,
`COUNTERS_READ`, `FW_OFFER`, `ATTEST`, `DBG_WRITE`, `LINK_STATUS`, `VF_BIND`. -/
def Obligations.ManagementCommands : Prop :=
  ∀ (s : State) (pf vf : Nat), pf < 16 → (s.ld pf).attached = true → (s.ld pf).serving = none → (∀ k ∈ s.quads, ∀ x, k.scrub = some x → x.2 ≠ pf) →
    let ans := fun (i : Instr) (status : Nat) (P : State → Prop) => ∃ t, exec i s = .next t ∧ (t.ld pf).result[0] = BitVec.ofNat 64 status
      ∧ (t.ld pf).seq = (s.ld pf).seq + 1 ∧ P t
    let same := fun (t : State) => t = { s with lds := t.lds }
    let reads := fun (i : Instr) (secs : List Nat) (k : State → Prop) =>
      (s.baseLacking secs ≠ [] →
        exec i s = .next ((s.baseLacking secs).foldl State.requestBase { s.serveOn pf i with deferred := s.deferred ++ [(i, secs)] }))
      ∧ (s.baseLacking secs = [] → k (secs.foldl State.baseReadDone s))
    (∀ (d gid ranks time table n part die addr ld : Nat) (bs : List Byte), (s.ready = false ∨ (s.ld pf).usable = false) →
      ∀ i ∈ [Instr.ctxCreate pf vf d, .ctxDestroy pf vf, .groupSet pf vf gid ranks time table, .queueReset pf vf n, .quadAssign pf n part,
          .countersRead pf die,
        .attest pf addr bs, .dbgWrite pf vf bs, .linkStatus pf, .vfBind pf vf ld], ans i 4 same)
    ∧ (∀ (addr size : Nat), reads (.fwOffer pf addr size) (sectorsOf (s.hostPa pf addr) size) (fun r =>
        let img := r.hostBytes pf addr size
        let n := offerResult s.firmware (imageValid s.fusedMin size img && !r.poisoned (s.hostPa pf addr) size) (firmwareOf img)
        ans (.fwOffer pf addr size) 0 (fun t => (t.ld pf).result[1] = BitVec.ofNat 64 n ∧ (n ≠ 3 → (t.ld pf).usable = true)
          ∧ t.firmware = if n = 1 then some (firmwareOf img) else s.firmware)))
    ∧ (s.ready = true → (s.ld pf).usable = true →
        (∀ (d gid ranks time table n : Nat) (bs : List Byte),
          ∀ i ∈ [Instr.ctxCreate pf vf d, .ctxDestroy pf vf, .groupSet pf vf gid ranks time table, .queueReset pf vf n, .dbgWrite pf vf bs],
            (1024 ≤ vf → ans i 3 same) ∧ (vf < 1024 → (s.vf vf).ld ≠ some pf → ans i 2 same)
            ∧ (vf < 1024 → (s.vf vf).ld = some pf → s.ctx? (vf + 1) = none → i ≠ .ctxCreate pf vf d → ans i 3 same))
        ∧ (∀ d, vf < 1024 → (s.vf vf).ld = some pf →
            ((s.ctx? (vf + 1)).isSome = true → ans (.ctxCreate pf vf d) 1 same)
            ∧ (s.ctx? (vf + 1) = none → reads (.ctxCreate pf vf d) (sectorsOf (s.hostPa pf d) 64) (fun r =>
                let c := ctxOfDescr vf (r.hostBytes pf d 64)
                ((r.poisoned (s.hostPa pf d) 64 = true ∨ r.descrOk c = false) → ans (.ctxCreate pf vf d) 3 (fun t => t = { r with lds := t.lds }))
                ∧ (r.poisoned (s.hostPa pf d) 64 = false → r.descrOk c = true →
                    ans (.ctxCreate pf vf d) 0 (fun t => t.ctx? (vf + 1) = some c
                      ∧ ∀ q : Fin 8, (t.vf vf).queues[q].gen = 1 ∧ (t.vf vf).queues[q].orphaned = false)))))
        ∧ (∀ c, vf < 1024 → (s.vf vf).ld = some pf → s.ctx? (vf + 1) = some c →
            let s1 := s.endContext c.ctx { code := 5, detail := 0, loc := 0 }
            (s1.busyCtx c.ctx = false → ans (.ctxDestroy pf vf) 0 (fun t => t.ctx? (vf + 1) = none ∧ ∀ x ∈ t.cores, ∀ k ∈ x.counters, k.1 ≠ vf + 1))
            ∧ (s1.busyCtx c.ctx = true → exec (.ctxDestroy pf vf) s = .next (s1.serveOn pf (.ctxDestroy pf vf)))
            ∧ (∀ gid ranks time table : Nat,
                let good := gid < 65536 ∧ 2 ≤ ranks ∧ ranks ≤ 4096 ∧ 1 ≤ time ∧ time ≤ 60000000
                let busy := ∃ k ∈ s.colls, k.ctx = c.ctx ∧ k.gid = gid ∧ k.started = true
                (¬good → ans (.groupSet pf vf gid ranks time table) 3 same) ∧ (good → busy → ans (.groupSet pf vf gid ranks time table) 1 same)
                ∧ (good → ¬busy → reads (.groupSet pf vf gid ranks time table) (sectorsOf (s.hostPa pf table) (32 * ranks)) (fun r =>
                    let es := (List.range ranks).map (fun k => RankEntry.ofBytes (r.hostBytes pf (table + 32 * k) 32))
                    ((r.poisoned (s.hostPa pf table) (32 * ranks) = true ∨ ∃ e ∈ es, 1 < e.kind) →
                        ans (.groupSet pf vf gid ranks time table) 3 (fun t => t = { r with lds := t.lds }))
                    ∧ (r.poisoned (s.hostPa pf table) (32 * ranks) = false → (∀ e ∈ es, e.kind ≤ 1) →
                        ans (.groupSet pf vf gid ranks time table) 0 (fun t => t.groupOf c.ctx gid = some (time, es) ∧ t.mem = r.mem)))))
            ∧ (∀ n, (8 ≤ n → ans (.queueReset pf vf n) 3 same)
                ∧ (n < 8 → ans (.queueReset pf vf n) 0 (fun t => ((t.vf vf).queue n).en = false ∧ ((t.vf vf).queue n).head = 0
                    ∧ ((t.vf vf).queue n).tail = 0 ∧ ((t.vf vf).queue n).orphaned = false
                    ∧ ((t.vf vf).queue n).gen = (((s.vf vf).queue n).gen + 1) % 2 ^ 32)))
            ∧ (∀ msg : List Byte, msg.length = 32 → BytesOk s → reads (.dbgWrite pf vf msg) (s.mailboxReads c 0x800) (fun r =>
                (r.mailbox c 0x800 = none → ans (.dbgWrite pf vf msg) 3 (fun t => t = { r with lds := t.lds }))
                ∧ (∀ pa, r.outer = [] → r.mailbox c 0x800 = some pa → ans (.dbgWrite pf vf msg) 0 (fun t =>
                    t.baseNum pa 4 = (r.numAt pa 4 + 1) % 2 ^ 32 ∧ t.baseBytes (pa + 0x40 + 32 * (r.numAt pa 4 % 62)) 32 = msg)))))
        ∧ (∀ quad part,
            let bad := 72 ≤ quad ∨ (39 < part ∧ part ≠ 0xFF) ∨ (s.die (quad / 12)).excluded = true
            (s.mgmt ≠ pf → ans (.quadAssign pf quad part) 2 same) ∧ (s.mgmt = pf → bad → ans (.quadAssign pf quad part) 3 same)
            ∧ (s.mgmt = pf → ¬bad → (s.quad quad).scrub.isSome = true → ans (.quadAssign pf quad part) 1 same)
            ∧ (s.mgmt = pf → ¬bad → (s.quad quad).scrub = none →
                ∃ t, exec (.quadAssign pf quad part) s = .next t ∧ (t.quad quad).scrub = some (if part = 0xFF then none else some part, pf)
                  ∧ (t.quad quad).part = (s.quad quad).part ∧ (t.ld pf).seq = (s.ld pf).seq ∧ t.mem = s.mem))
        ∧ (∀ die, (6 < die → ans (.countersRead pf die) 3 same)
            ∧ (die ≤ 6 → ans (.countersRead pf die) 0 (fun t => t = { s with lds := t.lds } ∧
                ∀ k : Fin 8, (t.ld pf).result[k.val + 1] = ((if die = 6 then s.baseErrs else (s.die die).errs).words.getD k.val 0))))
        ∧ ans (.linkStatus pf) 0 (fun t => (t.ld pf).result[1] = BitVec.ofNat 64 (s.ether.toNat * 65536 + s.links.toNat) ∧ t = { s with lds := t.lds })
        ∧ (∀ ld, (s.mgmt ≠ pf → ans (.vfBind pf vf ld) 2 same) ∧ (s.mgmt = pf → (1024 ≤ vf ∨ 16 ≤ ld) → ans (.vfBind pf vf ld) 3 same)
            ∧ (s.mgmt = pf → vf < 1024 → ld < 16 → ((s.ctx? (vf + 1)).isSome = true ∨ ∃ l, (s.vf vf).ld = some l ∧ l ≠ pf) →
                ans (.vfBind pf vf ld) 2 same)
            ∧ (s.mgmt = pf → vf < 1024 → ld < 16 → s.ctx? (vf + 1) = none → ((s.vf vf).ld = none ∨ (s.vf vf).ld = some pf) →
                ans (.vfBind pf vf ld) 0 (fun t => (t.vf vf).ld = some ld)))
        ∧ (∀ addr (nonce : List Byte), (s.firmware = none → ans (.attest pf addr nonce) 4 same)
            ∧ (∀ f, s.firmware = some f → BytesOk s → s.outer = [] → ans (.attest pf addr nonce) 0 (fun t =>
                t.baseBytes (s.hostPa pf addr) 272 = s.reportBytes f nonce ++ ed25519Sign identitySecret (sha512 (s.reportBytes f nonce))))))

/-- R349, R372, R414, R418, R422, R426, R440: a claim of a queue with its generation takes it back and with another is refused; registers of a VF's
block by halves and whole, and a PF's doorbell with an opcode that names no command; a `TASID_S` that is free is taken, once no access under the old
ASID is outstanding; a scrub completes once no user field is left on its quad, which then belongs to its new partition; a new message of a context's
mailbox is counted and its host told. Under the hypotheses given each of these answers a next state: `SCRUB_COMPLETE`, `SQ_CLAIM`, `TASID_S_WRITE`,
`REGISTER_WRITE`, `MAILBOX_TAIL_OBSERVE`. -/
def Obligations.HostEvents : Prop :=
  (∀ (s : State) (vf n gen : Nat), vf < 1024 → n < 8 →
    let k := (s.vf vf).queue n
    (s.vfUsable vf = true → gen = k.gen →
      ∃ t, exec (.sqClaim vf n gen) s = .next t ∧ ((t.vf vf).queue n).gen = (k.gen + 1) % 2 ^ 32 ∧ ((t.vf vf).queue n).claimst = 1
        ∧ ((t.vf vf).queue n).orphaned = false ∧ ((t.vf vf).queue n).head = k.head)
    ∧ (s.vfUsable vf = true → gen ≠ k.gen →
        ∃ t, exec (.sqClaim vf n gen) s = .next t ∧ (t.vf vf).queue n = { k with claimst := 2 } ∧ t = { s with vfs := t.vfs })
    ∧ (s.vfUsable vf = false → exec (.sqClaim vf n gen) s = .next s)
    ∧ (s.vfUsable vf = true → k.orphaned = false → k.en = false → ∀ x,
        (∃ t, exec (.registerWrite vf (0x10000 + 0x100 + 0x20 * n) x) s = .next t
            ∧ (t.vf vf).queue n = { k with base := BitVec.ofNat 64 x &&& 0xFFFFFFFFFFFFF000#64 })
        ∧ (∃ t, exec (.registerWrite vf (0x100 + 0x20 * n) x) s = .next t
            ∧ (t.vf vf).queue n = { k with base := setHalf k.base false (x % 2 ^ 32) &&& 0xFFFFFFFFFFFFF000#64 })
        ∧ (∃ t, exec (.registerWrite vf (0x108 + 0x20 * n) x) s = .next t
            ∧ (t.vf vf).queue n = { k with en := x.testBit 31 && decide (4 ≤ x % 16), log2n := x % 16 })
        ∧ (∃ t, exec (.registerWrite vf (0x10C + 0x20 * n) x) s = .next t ∧ (t.vf vf).queue n = { k with tail := x % 2 ^ 32 % 2 ^ k.log2n }))
    ∧ (s.vfUsable vf = true → ∀ x, ∃ t, exec (.registerWrite vf 0x10 x) s = .next t ∧ (t.vf vf).event = (s.vf vf).event &&& ~~~(BitVec.ofNat 7 x)
        ∧ (t.vf vf).queues = (s.vf vf).queues)
    ∧ (s.vfUsable vf = false → ∀ off x, exec (.registerWrite vf off x) s = .next s))
  ∧ (∀ (s : State) (pf x : Nat), pf < 16 → (s.ld pf).attached = true → (s.ld pf).serving = none →
      (∀ k ∈ s.quads, ∀ x, k.scrub = some x → x.2 ≠ pf) → s.ready = true → (s.ld pf).usable = true →
      let op := ((s.ld pf).cmd[0]).toNat % 2 ^ 16
      ((op = 0 ∨ 0x0B < op) → ∃ t, exec (.registerWrite (1024 + pf) 0x40 x) s = .next t ∧ (t.ld pf).result[0] = 3
        ∧ (t.ld pf).seq = (s.ld pf).seq + 1 ∧ t = { s with lds := t.lds })
      ∧ ∀ k : Fin 8, ∃ t, exec (.registerWrite (1024 + pf) (0x10000 + 8 * k.val) x) s = .next t ∧ (t.ld pf).cmd[k] = BitVec.ofNat 64 x
        ∧ t = { s with lds := t.lds })
  ∧ (∀ (s : State) (ctx asid : Nat) (c : Ctx), s.ctx? ctx = some c → asid < 65536 →
      let used := (∃ x ∈ s.ctxs, x.ctx ≠ ctx ∧ x.tasid.toNat = asid) ∨ (0xFFF0 ≤ asid ∧ asid ≤ 0xFFF5)
      (¬used → s.outstanding (TlbEntry.ofAsid c.tasid.toNat) = false →
        ∃ t, exec (.tasidSWrite ctx asid) s = .next t ∧ t.ctx? ctx = some { c with tasid := BitVec.ofNat 16 asid } ∧ t.mem = s.mem)
      ∧ (¬used → s.outstanding (TlbEntry.ofAsid c.tasid.toNat) = true →
          exec (.tasidSWrite ctx asid) s = .next { s with deferred := s.deferred ++ [(.tasidSWrite ctx asid, [])] })
      ∧ (used → exec (.tasidSWrite ctx asid) s = .next s))
  ∧ (∀ (s : State) (quad pf : Nat) (part : Option Nat), (s.quad quad).scrub = some (part, pf) →
      (s.quadFields quad = [] → ∃ t, exec (.scrubComplete quad) s = .next t ∧ (t.quad quad).part = part ∧ (t.quad quad).scrub = none
          ∧ (t.ld pf).result[0] = 0 ∧ (t.ld pf).seq = (s.ld pf).seq + 1 ∧ t.mem = s.mem
          ∧ ∀ c ∈ t.cores, quadOf c.ix = quad → c.tlb = [] ∧ c.l1 = [] ∧ ∀ q : Fin 4, c.tlb0[q] = [] ∧ c.reuse[q] = [])
      ∧ (s.quadFields quad ≠ [] → exec (.scrubComplete quad) s = .next s))
  ∧ (∀ (s : State) (ctx : Nat) (c : Ctx), s.ctx? ctx = some c →
      let secs := s.mailboxReads c 0
      let r := secs.foldl State.baseReadDone s
      (s.baseLacking secs ≠ [] → exec (.mailboxTailObserve ctx) s
          = .next ((s.baseLacking secs).foldl State.requestBase { s with deferred := s.deferred ++ [(.mailboxTailObserve ctx, secs)] }))
      ∧ (s.baseLacking secs = [] → ∀ pa, r.mailbox c 0 = some pa → r.ctx? ctx = some c →
          (c.service = false → r.baseNum pa 4 ≠ c.mboxSeen → ∃ t, exec (.mailboxTailObserve ctx) s = .next t
              ∧ t.ctx? ctx = some { c with mboxSeen := r.baseNum pa 4 } ∧ (t.vf (ctx - 1)).event.getLsbD 0 = true ∧ t.mem = r.mem)
          ∧ (r.baseNum pa 4 = c.mboxSeen → exec (.mailboxTailObserve ctx) s = .next r)))

/-! ### Token coherence -/

/-- R309, R310, R371 to R382: at an agent that no activation binds, in the normal mode, a write request takes every token, a read request one plain
token of an owner with two or more, all of an owner with one, and nothing from others; arriving tokens add to those held, with the owner token; a
persistent request is activated and every agent told; an activation takes a holder's tokens and binds it, a deactivation unbinds it. None of these
messages makes or loses a token or an owner token of any sector, counting those held and those in flight. Under the hypotheses given each of these
answers a next state: `RD`, `WR`, `TOK`, `PREQ`, `PACT`, `PDEACT`. -/
def Obligations.TokenMessages : Prop :=
  ∀ (s s1 : State) (n typ : Nat) (m : Message), s.arriving n typ = some (m, s1) → reservedHeader m.header = false →
    let x := s1.sector m.sector
    let h := x.holder m.dst
    let home := s1.homeAgent m.sector
    let quiet := h.forwards = [] ∨ (h.req = none ∧ h.preq = none)
    let took := fun (t : State) (count : Nat) (own : Bool) (b : Nat) => ((t.sector m.sector).holder m.dst).n = h.n - count
      ∧ State.sends t 2 m.dst b m.sector (fun k => k.count = count ∧ k.own = own)
    (s1.cohMode = false → m.dst ≠ 14 → h.n ≠ 0 → h.bound = none → m.dst ≠ m.src → (m.dst = home → x.recovery = none) →
      (typ = 1 → ∃ t, exec (.wr n) s = .next t ∧ took t h.n h.own m.src)
      ∧ (typ = 0 → h.own = true → 2 ≤ h.n → ∃ t, exec (.rd n) s = .next t ∧ took t 1 false m.src)
      ∧ (typ = 0 → h.own = true → h.n = 1 → ∃ t, exec (.rd n) s = .next t ∧ took t 1 true m.src)
      ∧ (typ = 0 → h.own = false → m.dst ≠ home → exec (.rd n) s = .next s1))
    ∧ (typ = 2 → m.dst ≠ home → h.discards m = false → h.bound = none → (∀ f ∈ s1.furrows, dieAgent f.core = m.dst → f.posted = []) → s1.outer = [] →
        s1.records = [] → s1.isPeer (sectorOf m.sector) = false →
        (quiet ∨ ((∀ w, s1.wants m.dst m.sector w = true) ∧ h.n ≠ 0 ∧ NoneAhead s1)) →
          ∃ t, exec (.tok n) s = .next t ∧ ((t.sector m.sector).holder m.dst).n = h.n + m.count
            ∧ ((t.sector m.sector).holder m.dst).own = (h.own || m.own) ∧ ((t.sector m.sector).holder m.dst).valid = (h.valid || m.data || m.own)
            ∧ t.mem = s.mem)
    ∧ (typ = 2 → m.dst ≠ home → h.discards m = true → exec (.tok n) s = .next s1)
    ∧ (typ = 2 → m.dst = home → x.recovery = none → m.serial = x.serial → h.bound = none → x.hostOps = [] → s1.outer = [] → s1.records = [] → quiet →
          ∃ t, exec (.tok n) s = .next t ∧ ((t.sector m.sector).holder m.dst).n = h.n + m.count ∧ t.mem = s.mem)
    ∧ (∀ t0 got own, typ = 2 → m.dst = home → x.recovery = some (t0, got, own) →
          (((m.serial + 1) % 65536 = x.serial →
            ∃ t, exec (.tok n) s = .next t ∧ (t.sector m.sector).recovery = some (t0, got + m.count, own || m.own))
          ∧ ((m.serial + 1) % 65536 ≠ x.serial → exec (.tok n) s = .next s1)))
    ∧ (∀ w, typ = 3 → x.recovery = none → (x.holder m.src).preq = some w → x.pending = [] → x.active = none → (∀ b ∈ x.barred, b.1 ≠ m.src) →
        s1.activeAt home < 8 →
          ∃ t, exec (.preq n) s = .next t ∧ (t.sector m.sector).active = some (m.src, w, s.cycles)
            ∧ ∀ a ∈ s1.everyAgent m.sector, a ≠ home → State.sends t 4 home a (sectorOf m.sector) (fun k => k.tag = m.src))
    ∧ (typ = 4 → m.tag ≠ m.dst → m.dst ≠ 14 →
          ∃ t, exec (.pact n) s = .next t ∧ ((t.sector m.sector).holder m.dst).bound = some m.tag ∧ ((t.sector m.sector).holder m.dst).n = 0
            ∧ (h.n ≠ 0 → State.sends t 2 m.dst m.tag m.sector (fun k => k.count = h.n ∧ k.own = h.own)))
    ∧ (typ = 5 → m.dst ≠ home → ∃ t, exec (.pdeact n) s = .next t ∧ ((t.sector m.sector).holder m.dst).bound = none
          ∧ ((t.sector m.sector).holder m.dst).n = h.n)
    ∧ (∀ w t0, typ = 5 → m.dst = home → x.active = some (m.src, w, t0) → x.pending = [] → s1.outer = [] → s1.records = [] →
          ∃ t, exec (.pdeact n) s = .next t ∧ (t.sector m.sector).active = none
            ∧ ∀ a ∈ s1.everyAgent m.sector, a ≠ home → State.sends t 5 home a (sectorOf m.sector) (fun _ => True))
    ∧ ((typ = 2 → (m.dst = home ∧ x.recovery = none ∧ m.serial = x.serial) ∨ (m.dst ≠ home ∧ h.discards m = false)) →
        (∀ y ∈ s.sectors, (y.holders.map Holder.agent).Nodup) → s1.outer = [] → s1.records = [] → (∀ f ∈ s1.furrows, f.posted = []) →
          ∀ i, [Instr.rd n, .wr n, .tok n, .preq n, .pact n, .pdeact n][typ]? = some i →
            ∃ t, exec i s = .next t ∧ ∀ pa, t.tokensOf pa = s.tokensOf pa ∧ (s.ownersOf pa ≤ 1 → t.ownersOf pa = s.ownersOf pa))

/-- R309, R375, R376, R378 to R380, R383 to R386, R389, R391, R393: a report of lost tokens, or an overdue persistent or ordered request, starts a
recovery; each holder sends what it has home and records the new serial; after 2 µs the home has all 8 tokens again, the data poisoned where they
were lost; timeouts resend as a broadcast and then persistently; links drop a message after 1 µs, and one with a reserved type or field value is
discarded and counted; evicted and destroyed tokens leave their holder. Each event changes nothing before its time. Under the hypotheses given each
of these answers a next state: `LOST`, `RECOVER`, `REISSUE`, `TRANSIENT_TIMEOUT`, `PERSISTENT_TIMEOUT`, `ORDERED_TIMEOUT`, `RECOVERY_WINDOW_END`,
`MESSAGE_DROP`, `HOLDER_EVICT`, `TOKEN_STATE_ERROR`, `RECOVER_RECORD_EXPIRY`. -/
def Obligations.TokenRecovery : Prop :=
  (∀ (s s1 : State) (n typ : Nat) (m : Message), s.arriving n typ = some (m, s1) → reservedHeader m.header = false →
    let x := s1.sector m.sector
    let h := x.holder m.dst
    let home := s1.homeAgent m.sector
    (∀ o, o = s1.homeAgent (sectorOf m.sector) → typ = 6 → x.recovery = none → ∃ t, exec (.lost n) s = .next t
        ∧ (t.sector m.sector).recovery = some (s.cycles, (x.holder o).n, (x.holder o).own) ∧ (t.sector m.sector).serial = (x.serial + 1) % 65536
        ∧ ((t.sector m.sector).holder o).n = 0
        ∧ ∀ a ∈ s1.everyAgent (sectorOf m.sector), a ≠ o → State.sends t 7 o a (sectorOf m.sector) (fun k => k.serial = (x.serial + 1) % 65536))
    ∧ (typ = 7 → m.dst ≠ home → ∃ t, exec (.recover n) s = .next t ∧ ((t.sector m.sector).holder m.dst).n = 0
        ∧ ((t.sector m.sector).holder m.dst).recovering = true ∧ ((t.sector m.sector).holder m.dst).serial = m.serial
        ∧ ((t.sector m.sector).holder m.dst).recordUntil = some (s.cycles + 16000)
        ∧ (h.n ≠ 0 → State.sends t 2 m.dst home m.sector (fun k => k.count = h.n ∧ k.own = h.own ∧ k.serial = h.serial)))
    ∧ (typ = 8 → h.recovering = true → h.serial = m.serial →
        ∃ t, exec (.reissue n) s = .next t ∧ ((t.sector m.sector).holder m.dst).recovering = false
          ∧ ∀ r, h.req = some r → x.active = none → s.outer = [] → s.records = [] → (m.dst ≠ 14 ∨ home ≠ 14) →
              ∃ r', ((t.sector m.sector).holder m.dst).req = some r' ∧ r'.write = r.write ∧ r'.attempt = 0 ∧ r'.sentAt = s.cycles))
  ∧ (∀ (s : State) (pa a n : Nat),
      let x := s.sector pa
      let h := x.holder a
      let home := s.homeAgent (sectorOf pa)
      let lacks := fun (r : TransReq) => (if r.write then h.canWrite else h.canRead) = false
      (∀ t0 got own, x.recovery = some (t0, got, own) →
        (s.cycles < t0 + 8000 → exec (.recoveryWindowEnd pa) s = .next s)
        ∧ (t0 + 8000 ≤ s.cycles → x.active = none → x.pending = [] → x.hostOps = [] → x.heldMsgs = [] → s.outer = [] → s.records = [] →
            (x.holder home).forwards = [] →
            ∃ t, exec (.recoveryWindowEnd pa) s = .next t ∧ (t.sector pa).recovery = none ∧ ((t.sector pa).holder home).n = 8
              ∧ ((t.sector pa).holder home).own = true ∧ ((t.sector pa).holder home).valid = true ∧ (t.sector pa).serial = x.serial
              ∧ (own = false → x.current = false → t.poisoned (sectorOf pa) 64 = true)
              ∧ ∀ b ∈ s.everyAgent (sectorOf pa), b ≠ home → State.sends t 8 home b (sectorOf pa) (fun k => k.serial = x.serial)))
      ∧ (∀ r, h.req = some r → h.recovering = false → h.preq = none →
          (timedOut r.sentAt s.cycles = false → exec (.transientTimeout a pa) s = .next s)
          ∧ (timedOut r.sentAt s.cycles = true → lacks r → x.recovery = none → (r.attempt = 0 ∨ s.cohMode = true) →
              ∃ t r', exec (.transientTimeout a pa) s = .next t ∧ ((t.sector pa).holder a).req = some r' ∧ r'.write = r.write ∧ r'.attempt = 1
                ∧ r'.sentAt = s.cycles ∧ r'.age = r.age
                ∧ ∀ b ∈ s.everyAgent (sectorOf pa), b ≠ a → State.sends t (if r.write then 1 else 0) a b (sectorOf pa) (fun k => k.att = 1))
          ∧ ((¬lacks r ∨ x.recovery.isSome = true) → exec (.transientTimeout a pa) s = .next s)
          ∧ (timedOut r.sentAt s.cycles = true → lacks r → x.recovery = none → r.attempt ≠ 0 → s.cohMode = false → (∀ b ∈ x.barred, b.1 ≠ a) →
              ∃ t, exec (.transientTimeout a pa) s = .next t ∧ ((t.sector pa).holder a).preq = some r.write
                  ∧ State.sends t 3 a home (sectorOf pa) (fun _ => True)))
      ∧ (∀ p, x.active = some p → (∀ w, s.wants p.1 pa w = true) → x.recovery = none →
          (s.cycles < p.2.2 + 16000 → exec (.persistentTimeout pa) s = .next s)
          ∧ (p.2.2 + 16000 ≤ s.cycles → ∃ t, exec (.persistentTimeout pa) s = .next t ∧ (t.sector pa).recovery.isSome = true))
      ∧ (x.active = none → exec (.persistentTimeout pa) s = .next s)
      ∧ (∀ r, h.req = some r → s.cohMode = true → x.recovery = none →
          (agedOut r.age s.cycles = true → ∃ t, exec (.orderedTimeout a pa) s = .next t ∧ (t.sector pa).recovery.isSome = true)
          ∧ (agedOut r.age s.cycles = false → exec (.orderedTimeout a pa) s = .next s))
      ∧ (∀ m, nth? s.net n = some m →
          (reservedHeader m.header = false → m.sentAt + 4000 ≤ s.cycles → exec (.messageDrop n) s = .next { s with net := s.net.eraseIdx n })
          ∧ (reservedHeader m.header = true →
              ∀ i ∈ [Instr.messageDrop n] ++ (if (s.arriving n m.typ).isSome then [.rd n, .wr n, .tok n, .preq n, .pact n, .pdeact n,
                .lost n, .recover n, .reissue n].drop m.typ |>.take 1 else []), ∃ t, exec i s = .next t ∧ t.net = s.net.eraseIdx n ∧ t.sectors = s.sectors
                ∧ (m.dst < 6 → (t.die m.dst).errs.dropped = (s.die m.dst).errs.dropped + 1) ∧ (6 ≤ m.dst → m.dst < 8 →
                    t.baseErrs.dropped = s.baseErrs.dropped + 1))
          ∧ (reservedHeader m.header = false → s.cycles < m.sentAt + 4000 → exec (.messageDrop n) s = .next s))
      ∧ (s.isPeer (sectorOf pa) = false → a ≠ home → h.recovering = false → (a ≤ 6 ∨ a = 14) → h.n ≠ 0 → (a = 14 → x.hosts = []) →
          ∃ t, exec (.holderEvict a pa) s = .next t ∧ ((t.sector pa).holder a).n = 0 ∧ t.mem = s.mem
            ∧ State.sends t 2 a home (sectorOf pa) (fun k => k.count = h.n ∧ k.own = h.own))
      ∧ (s.isPeer (sectorOf pa) = false → a = 14 → home = 14 → h.recovering = false → h.canWrite = true → x.host ≠ .nh →
          ∃ t o, exec (.holderEvict a pa) s = .next t ∧ o ∈ (t.sector pa).hostOps ∧ o.kind = (if x.host = .ex then 7 else 6) ∧ t.mem = s.mem)
      ∧ (s.isPeer (sectorOf pa) = true → a < 6 → ∃ t, exec (.holderEvict a pa) s = .next t ∧ t.mem = s.mem ∧ ∀ l ∈ (t.die a).peerLines, l.1 ≠ sectorOf pa)
      ∧ (∀ bad, s.isPeer (sectorOf pa) = false → h.n ≠ 0 → a ≠ home →
          ∃ t, exec (.tokenStateError a pa bad) s = .next t ∧ ((t.sector pa).holder a).n = 0
            ∧ State.sends t 6 a home (sectorOf pa) (fun k => k.count = h.n ∧ k.own = h.own ∧ k.serial = h.serial))
      ∧ (∀ u, h.recordUntil = some u →
          (u ≤ s.cycles → ∃ t, exec (.recoverRecordExpiry a pa) s = .next t ∧ ((t.sector pa).holder a).recordUntil = none
            ∧ ((t.sector pa).holder a).n = h.n)
          ∧ (s.cycles < u → exec (.recoverRecordExpiry a pa) s = .next s)))

/-- R388, R390, R393, R394: a host's snoop with every token at the CXL agent leaves its line shared or gone, and a SnpInv the host's new data;
without them the agent recalls the tokens ahead of every holder. SnpCur changes nothing. After an eviction, during which the CXL agent gives no token
away, the host has its line back. What the host grants, or its last copy gone, sends the CXL agent's tokens to the agent that asked. A change of the
ordering mode waits until no request is outstanding. Under the hypotheses given each of these answers a next state: `SNPDATA`, `SNPINV`, `SNPCUR`,
`BACK_INVALIDATE_RESPONSE`, `COH_MODE_WRITE`, `COH_MODE_DRAIN_END`, `CXL_CACHE_RESPONSE`. -/
def Obligations.HostCoherence : Prop :=
  (∀ (s : State) (sec k : Nat), s.place (sectorOf sec) = .host k →
    let pa := sectorOf sec
    let x := s.sector pa
    ((x.holder 14).canWrite = true → x.hostOps = [] → x.pending = [] →
      (∃ t, exec (.snpdata sec) s = .next t ∧ (t.sector pa).host = (if x.host = .nh then .nh else .sh) ∧ t.mem = s.mem)
      ∧ (∃ t, exec (.snpinv sec none) s = .next t ∧ (t.sector pa).host = .nh ∧ t.mem = s.mem)
      ∧ (∀ bs : List Byte, bs.length = 64 → BytesOk s → ∃ t, exec (.snpinv sec (some bs)) s = .next t ∧ (t.sector pa).host = .nh
          ∧ ∀ b, t.byteAt b = if pa ≤ b ∧ b < pa + 64 then bs.getD (b - pa) 0 else s.byteAt b))
    ∧ ((x.holder 14).canWrite = false → ∀ i ∈ [Instr.snpdata sec, .snpinv sec none],
        ∃ t, exec i s = .next t ∧ ((t.sector pa).holder 14).preq = some true
          ∧ ((t.sector pa).pending.any (fun p => p.1 == 14) = true ∨ (t.sector pa).active.any (fun p => p.1 == 14) = true)))
  ∧ (∀ (s : State) (sec : Nat), exec (.snpcur sec) s = .next s)
  ∧ (∀ (s : State) (sec : Nat) (o : HostOp),
      let pa := sectorOf sec
      let x := s.sector pa
      let gone := fun (t : State) => ((t.sector pa).holder 14).n = 0
        ∧ State.sends t 2 14 o.requester pa (fun k => k.count = (x.holder 14).n ∧ k.own = (x.holder 14).own)
      x.hostOps = [o] → (x.holder 14).n ≠ 0 → (x.holder 14).bound = none → o.requester ≠ 14 →
        (o.kind = 5 → o.write = true → s.homeAgent pa = 14 → ∃ t, exec (.cxlCacheResponse sec) s = .next t ∧ (t.sector pa).host = .ex ∧ gone t)
        ∧ (6 ≤ o.kind → ∃ t, exec (.cxlCacheResponse sec) s = .next t ∧ (t.sector pa).host = .nh ∧ ((t.sector pa).holder 14).n = (x.holder 14).n
            ∧ t.net = s.net)
        ∧ (o.kind = 3 → o.write = true → s.homeAgent pa ≠ 14 → ∃ t, exec (.backInvalidateResponse sec) s = .next t ∧ (t.sector pa).hosts = [] ∧ gone t))
  ∧ (∀ (s : State) (mode : Bool),
      (s.cohNext = none → s.cohMode ≠ mode → exec (.cohModeWrite mode) s = .next { s with cohNext := some mode })
      ∧ (s.cohMode = mode → exec (.cohModeWrite mode) s = .next s)
      ∧ (∀ m, s.cohNext = some m → s.anyRequest = true → exec .cohModeDrainEnd s = .next s)
      ∧ (∀ m, s.cohNext = some m → s.anyRequest = false →
          ∃ t, exec .cohModeDrainEnd s = .next t ∧ t.cohMode = m ∧ t.cohNext = none ∧ (s.outer = [] → s.records = [] → t.mem = s.mem
              ∧ t.furrows = s.furrows)))
  ∧ (∀ (s s1 : State) (n typ : Nat) (m : Message), s.arriving n typ = some (m, s1) → reservedHeader m.header = false → m.dst = 14 →
      s1.homeAgent m.sector = 14 → (s1.sector m.sector).evicting = true → (s1.sector m.sector).recovery = none →
        ∀ i, [Instr.rd n, .wr n][typ]? = some i →
          ∃ t, exec i s = .next t ∧ ((t.sector m.sector).holder 14).n = ((s1.sector m.sector).holder 14).n)

/-! ### The package -/

/-- R256, R392, R394, R416, R424, R426 to R428, R434, R441 to R443: a detached LD's host lines go with what the package has written of them, and its
VFs' queues are orphaned until a claim or, their host attached again or not, their context's timeout; failed ports leave their links, their retried
flits counted, and with the last path to a package it leaves the pod; the fabric manager grants the right and binds; requests of hosts and other
packages read and write memory of this package as token holders; power and heat slow or halt the package; a reset keeps what lies outside it. Under
the hypotheses given each of these answers a next state: `LD_DETACH`, `LD_REATTACH`, `ORPHAN_TIMEOUT`, `LINK_FAILURE`, `POWER_LIMIT`,
`THERMAL_THROTTLE`, `THERMAL_HALT`, `POWER_ON_RESET`, `CXL_MEM_REQUEST`, `POD_AGENT_REQUEST`, `PEER_LINE_REREAD`, `FM_API_REQUEST`,
`MODULE_POWER_REMOVAL`. -/
def Obligations.PackageEvents : Prop :=
  (∀ (s : State) (ld : Nat),
    (∀ h, (s.ld ld).host = some h → (s.ld ld).attached = true →
      ∃ t, exec (.ldDetach ld) s = .next t ∧ (t.ld ld).attached = false ∧ (t.ld ld).usable = false ∧ (t.ld ld).detachedAt = s.cycles
        ∧ (t.ld ld).host = some h ∧ t.ctxs = s.ctxs
        ∧ ((∀ x ∈ s.sectors, s.place x.pa = .host h → x.homeCopy = none) → t.mem = s.mem)
        ∧ (BytesOk s → ∀ pa bs, s.place (sectorOf pa) = .host h → (s.sector pa).homeCopy = some bs → bs.length = 64 → t.bytesAt (sectorOf pa) 64 = bs)
        ∧ (∀ v ∈ s.vfs, v.ld = some ld → (s.ctx? (v.ix + 1)).isSome = true → ∀ q, q < 8 → ((t.vf v.ix).queue q).orphaned = true)
        ∧ ((∀ x ∈ s.sectors, x.hosts.contains h = false) → ∀ x ∈ t.sectors, s.place x.pa ≠ .host h))
    ∧ (((s.ld ld).host = none ∨ (s.ld ld).attached = false) → exec (.ldDetach ld) s = .next s)
    ∧ ((s.ld ld).host.isSome = true → (s.ld ld).attached = false →
        ∃ t, exec (.ldReattach ld) s = .next t ∧ t.ld ld = { s.ld ld with attached := true, usable := false } ∧ t = { s with lds := t.lds })
    ∧ (((s.ld ld).host = none ∨ (s.ld ld).attached = true) → exec (.ldReattach ld) s = .next s)
    ∧ (∀ host, ld < 16 → exec (.fmApiRequest true ld host) s = .next { s with mgmt := ld })
    ∧ (∀ host, ld < 16 → host < 16 → (s.ld ld).attached = false → (∀ l ∈ s.lds, l.ix ≠ ld → l.host ≠ some host) →
        ∃ t, exec (.fmApiRequest false ld host) s = .next t ∧ t.ld ld = { s.ld ld with host := some host, attached := true, usable := false }
          ∧ t = { s with lds := t.lds }))
  ∧ (∀ (s : State) (ctx l : Nat) (c : Ctx), s.ctx? ctx = some c → (s.vf (ctx - 1)).ld = some l → c.service = false →
      (c.orphan ≠ 0 → (s.ld l).detachedAt + c.orphan * 4000000000 ≤ s.cycles →
        ∃ t, exec (.orphanTimeout ctx) s = .next t ∧ ∀ n, n < 8 →
          let k := (s.vf (ctx - 1)).queue n
          ((t.vf (ctx - 1)).queue n) = if k.orphaned then
              { k with en := false, head := 0, tail := 0, gen := (k.gen + 1) % 2 ^ 32, orphaned := false } else k)
      ∧ ((c.orphan = 0 ∨ s.cycles < (s.ld l).detachedAt + c.orphan * 4000000000) → exec (.orphanTimeout ctx) s = .next s))
  ∧ (∀ (s : State) (port : Nat),
      let failed := fun (t : State) => s.baseErrs.retries < t.baseErrs.retries ∧ t.baseErrs = { s.baseErrs with retries := t.baseErrs.retries }
      (port < 16 → ∃ t, exec (.linkFailure port) s = .next t ∧ (∀ k, k < 16 → t.links.getLsbD k = (s.links.getLsbD k && decide (k ≠ port)))
        ∧ t.pod = s.reachablePod t.links ∧ failed t ∧ t = { s with links := t.links, pod := t.pod, baseErrs := t.baseErrs, freeCtr := t.freeCtr })
      ∧ (16 ≤ port → port < 32 → ∃ t, exec (.linkFailure port) s = .next t
        ∧ (∀ k, k < 16 → t.ether.getLsbD k = (s.ether.getLsbD k && decide (k + 16 ≠ port)))
        ∧ failed t ∧ t = { s with ether := t.ether, baseErrs := t.baseErrs, freeCtr := t.freeCtr }))
  ∧ (∀ (s : State) (host pkg pa : Nat),
      let sec := sectorOf pa
      let x := s.sector sec
      let wrote := fun (t : State) (at_ : Nat) (bs : List Byte) => ∀ a, t.byteAt a = if at_ ≤ a
          ∧ a < at_ + bs.length then bs.getD (a - at_) 0 else s.byteAt a
      (s.hostUp host = true → s.isLocal sec = true → s.outer = [] →
        ((x.holder 14).canRead = true → ∃ t, exec (.cxlMemRequest host pa none) s = .next t ∧ host ∈ (t.sector sec).hosts ∧ t.mem = s.mem)
        ∧ (∀ d, (x.holder 14).n = 0 → s.canRequest 14 sec d.isSome = true →
            ∃ t, exec (.cxlMemRequest host pa d) s = .next t ∧ t.outer.length = 1 ∧ t.mem = s.mem
              ∧ State.sends t (if d.isSome then 1 else 0) 14 (s.homeAgent sec) sec (fun _ => True))
        ∧ (∀ bs : List Byte, bs.length = 64 → BytesOk s → (x.holder 14).canWrite = true → (∀ h ∈ x.hosts, h = host) → (x.holder 14).forwards = [] →
            ∃ t, exec (.cxlMemRequest host pa (some bs)) s = .next t ∧ host ∈ (t.sector sec).hosts ∧ (∀ h ∈ (t.sector sec).hosts, h = host)
              ∧ ((t.sector sec).holder 14).n = 8 ∧ wrote t sec bs)
        ∧ (∀ bs : List Byte, (x.holder 14).canWrite = true → (∃ h ∈ x.hosts, h ≠ host) →
            ∃ t o, exec (.cxlMemRequest host pa (some bs)) s = .next t ∧ o ∈ (t.sector sec).hostOps ∧ o.kind = 3 ∧ t.mem = s.mem))
      ∧ ((s.hostUp host = false ∨ s.isLocal sec = false) → ∀ d, exec (.cxlMemRequest host pa d) s = .next s)
      ∧ (s.pod.contains pkg = true → s.isLocal sec = true → s.outer = [] →
        ((x.holder 6).canRead = true → ∃ t, exec (.podAgentRequest pkg pa .fill) s = .next t ∧ ((t.sector sec).holder 6).n = 0 ∧ t.mem = s.mem)
        ∧ (∀ d, (x.holder 6).n = 0 → s.canRequest 6 sec (decide (d ≠ .fill)) = true →
            ∃ t, exec (.podAgentRequest pkg pa d) s = .next t ∧ t.outer.length = 1 ∧ t.mem = s.mem
              ∧ State.sends t (if d = .fill then 0 else 1) 6 (s.homeAgent sec) sec (fun _ => True))
        ∧ (BytesOk s → (x.holder 6).canWrite = true →
          (∀ bs : List Byte, pa + bs.length ≤ sec + 64 →
            ∃ t, exec (.podAgentRequest pkg pa (.write bs)) s = .next t ∧ ((t.sector sec).holder 6).n = 0 ∧ wrote t pa bs)
          ∧ (∀ (op : Fin 8) (ty : Ty) (b c : Nat), ty.isFloat = false → s.poisoned pa (ty.width / 8) = false →
              let old := s.numAt pa (ty.width / 8)
              let m := (2 ^ ty.width : Nat)
              let new := [((intOf ty old + intOf ty b) % m).toNat, (min (intOf ty old) (intOf ty b) % m).toNat,
                  (max (intOf ty old) (intOf ty b) % m).toNat,
                old &&& b, old ||| b, old ^^^ b, b, if old = b then c else old].getD op.val 0
              ∃ t, exec (.podAgentRequest pkg pa (.atomic op ty b c)) s = .next t ∧ ((t.sector sec).holder 6).n = 0
                  ∧ wrote t pa (leBytes (ty.width / 8) new))))
      ∧ ((s.pod.contains pkg = false ∨ s.isLocal sec = false) → ∀ d, exec (.podAgentRequest pkg pa d) s = .next s))
  ∧ (∀ (s : State) (core slot : Nat) (f : Furrow), s.furrow? core slot = some f → NoneAhead s →
      ∃ t f', exec (.peerLineReread core slot) s = .next t ∧ t.furrow? core slot = some f' ∧ f'.regs = f.regs ∧ t.mem = s.mem
        ∧ ∀ g ∈ f'.groups, ∀ l w k, g.wait = some (.address l w k) → (∃ a d, .peerLine a d ∈ l) → w = true)
  ∧ (∀ (s : State) (n : Fin 16),
      (∀ k : Nat, k < 12 → ∃ t, exec (.powerLimit k) s = .next t ∧ t = { s with islands := t.islands }
        ∧ t.islands[n] = if n.val = k then max 1000 (s.islands[n] - 250) else s.islands[n])
      ∧ (∀ k : Nat, 12 ≤ k → exec (.powerLimit k) s = .next s)
      ∧ (∀ d : Nat, d < 6 → ∃ t, exec (.thermalThrottle d) s = .next t ∧ t = { s with islands := t.islands }
        ∧ t.islands[n] = if n.val = 2 * d ∨ n.val = 2 * d + 1 then 1000 else s.islands[n]))
  ∧ (∀ (s : State),
      (∃ t, exec .thermalHalt s = .next t ∧ t.halted = true ∧ (∀ v, v < 1024 → (t.vf v).event.getLsbD 3 = true) ∧ t.mem = s.mem ∧ t.furrows = s.furrows)
      ∧ (BytesOk s → ∀ i ∈ [Instr.powerOnReset, .modulePowerRemoval],
          ∃ t, exec i s = .next t ∧ t.furrows = [] ∧ t.fields = [] ∧ t.ctxs = [] ∧ t.sectors = [] ∧ t.net = [] ∧ t.firmware = none ∧ t.ready = false
            ∧ t.halted = false ∧ t.cohMode = true ∧ t.accfg = 512 ∧ t.fusedMin = s.fusedMin ∧ t.powered = (i == .powerOnReset)
            ∧ ∀ a, t.byteAt a = if a < 2 ^ 50 then 0 else s.byteAt a))

/-! ### Reset, decoding, stepping, invariants -/

/-- R388, R443, R379: after reset the package is not ready, in ordered mode, with no furrow, field, context, command, message or cached translation;
every sector has all 8 tokens at its home under serial 0; the memory is in its canonical form and the package runs on. (Registers the spec gives no
reset value are not claimed here.) -/
def Obligations.ResetState : Prop :=
  let s := State.reset
  s.ready = false ∧ s.cohMode = true ∧ s.cohNext = none ∧ s.furrows = [] ∧ s.fields = [] ∧ s.ctxs = [] ∧ s.commands = [] ∧ s.colls = [] ∧ s.schemes = []
  ∧ s.net = [] ∧ s.outer = [] ∧ s.records = [] ∧ s.deferred = [] ∧ s.recent = [] ∧ s.upsets = [] ∧ s.firmware = none ∧ s.issue = none
      ∧ s.halted = false ∧ s.powered = true
  ∧ (∀ d : Fin 6, s.dies[d].tlb = [] ∧ s.dies[d].faults = [] ∧ s.dies[d].svc = [] ∧ s.dies[d].nextSeq = 1)
  ∧ (∀ pa a, ((s.sector pa).holder a).n = (if a = s.homeAgent pa then 8 else 0) ∧ (s.sector pa).serial = 0)
  ∧ BytesOk s

/-- R156 to R162 and the rows' encodings: words written out bit by bit decode to the instructions they stand for. -/
def Obligations.WordsDecode : Prop :=
  decode [0x041881F9] = .ok (.uadd { c := false, wd := 3, wa := 4, b := .imm 0xF9 }, 1)
  ∧ decode [0x0E0000C7] = .error .reservedMinor
  ∧ decode [0x1040082F] = .ok (.plt { c := false, pd := 1, n := 8, g := 7 }, 1)
  ∧ decode [0x0C67E847] = .ok (.loop { c := false, wa := 12, off := 0xFD, g := 7 }, 1)
  ∧ decode [0x14244000] = .ok (.push { c := false, q := 1, h := 2, wa := 8, sel := 0 }, 1)
  ∧ decode [0x1404A004] = .ok (.hwait { c := false, h := 2, wa := 20 }, 1)
  ∧ decode [0x0E280047] = .ok (.tret { c := false, wa := 5 }, 1)

/-- R156 to R163, R166: encoding an accepted instruction and decoding the words, whatever follows them, gives the instruction back with every
operand, and its length. -/
def Obligations.EncodeDecode : Prop :=
  ∀ (i : Instr) (ws : List Nat), i.wf = true → decode (encode i ++ ws) = .ok (i, i.words)

/-- R35, R72, R118, R156, R157, R167, R168, R173, R177, R318, R332, R372: a step runs what the issuing group's words decode to. Its first chain word
is fetched through the code base and its die's translation, four bytes the lowest first, once the die holds a token of its sector, which it requests;
a clause header runs as it is, and any other first instruction runs after its group has entered the clause whose header it has fetched, once that
header's flags are 1, or has left a clause it stands outside of; an illegal chain, a PC past the code, or a breakpoint traps at that PC; a later word
of a chain runs as decoded; an access that completes by itself runs again. An instruction waits where it would retain a 17th register. A slot whose
choice is to be made again chooses. -/
def Obligations.StepRunsInstruction : Prop :=
  ∀ (s : State) (q : Issue) (f : Furrow) (g : Group), s.powered = true → s.halted = false → s.issue = some q →
    s.furrow? q.core q.slot = some f → f.group? q.lanes = some g →
    (q.redo ≠ .no → step s = .next (s.rechoose q))
    ∧ (q.redo = .no →
      let n := 3 - g.pc.toNat / 4 % 3
      let go := fun (i : Instr) (u : State) => match u.allocate q g i with
        | (v, some j) => exec j v
        | (v, none) => .next v
      let first := q.back = none ∧ q.inChain = false ∧ g.midChain = false
      (∀ (s1 : State) (ws : List Nat) (e : Option Fetched) (i : Instr), first → packetOf g.pc < (s.codeOf f).2 →
        State.fetchChain f n g.pc.toNat s = (s1, ws, e) → (∀ x, e ≠ some (.wait x)) → chainHead (g.pc.toNat / 4 % 3) ws e = .ok (some i) →
          (i.major = 1 → step s = go i s1)
          ∧ (i.major ≠ 1 → s1.breakpoint f g = none → g.header = none → (f.spec = none ∨ g.inst = none ∨ g.leaves = false) →
              step s = go i { s1.onFurrow q.core q.slot (fun f => f.leaveClause g) with issue := some { q with reopen := some f } })
          ∧ (i.major ≠ 1 → s1.breakpoint f g = none → g.header = none → f.spec.isSome = true → g.inst.isSome = true → g.leaves = true →
              step s = .next (s1.waitOn q g .specHold))
          ∧ (∀ h, i.major ≠ 1 → s1.breakpoint f g = none → g.header = some h → h.wait &&& ~~~f.flags = 0 →
              step s = go i { s1.onFurrow q.core q.slot (fun f => f.openClause h g) with issue := some { q with reopen := some (f.atHeader g) } })
          ∧ (∀ h, i.major ≠ 1 → s1.breakpoint f g = none → g.header = some h → h.wait &&& ~~~f.flags ≠ 0 →
              step s = .next (s1.waitWith q g (.flags h.wait) (fun u => (u.closeClause ((u.group? g.lanes).getD g)).atHeader g)))
          ∧ (∀ b, i.major ≠ 1 → s1.breakpoint f g = some b → step s = .next (s1.trapIssue q (trapAt b.1 3 b.2 g.pc))))
      ∧ (∀ (s1 : State) (ws : List Nat) (x : Nat), first → packetOf g.pc < (s.codeOf f).2 → State.fetchChain f n g.pc.toNat s = (s1, ws, some (.wait x)) →
          step s = .next (s1.waitTokens q g (.tokens (dieAgent f.core) [x] false)))
      ∧ (∀ (s1 : State) (ws : List Nat) (e : Option Fetched) (d : DecodeErr), first → packetOf g.pc < (s.codeOf f).2 →
          State.fetchChain f n g.pc.toNat s = (s1, ws, e) → (∀ x, e ≠ some (.wait x)) → chainHead (g.pc.toNat / 4 % 3) ws e = .error d →
            step s = .next (s1.trapIssue q (trapAt g.lanes 0x20 0 g.pc)))
      ∧ (first → (s.codeOf f).2 ≤ packetOf g.pc → step s = .next (s.trapIssue q (trapAt g.lanes 0x20 0 g.pc)))
      ∧ (∀ (k j : Nat) (ws : List Nat) (i : Instr) (rest : List (Nat × Instr)), decodeChain k ws = .ok ((j, i) :: rest) →
          chainHead k ws none = .ok (some i))
      ∧ (∀ (s1 : State) (ws : List Nat) (e : Option Fetched) (i : Instr) (rest : List Instr), q.back = none → (q.inChain = true ∨ g.midChain = true) →
        State.fetchChain f n g.pc.toNat s = (s1, ws, e) → prefixInstrs 3 ws = .ok (i :: rest) → step s = go i s1)
      ∧ (∀ b sync todo got i, q.back.isSome = true → g.wait = some (.access b sync todo got i) → step s = exec i s)
      ∧ (∀ (u : State) (i : Instr),
          ((∀ v, u.furrow? q.core q.slot = some v → v.overRetained (vNames i.readsWrites.2) = false) → go i u = exec i u)
          ∧ ∀ v, u.furrow? q.core q.slot = some v → v.overRetained (vNames i.readsWrites.2) = true →
              go i u = .next (u.waitOn q g (.retain (vNames i.readsWrites.2) (keptOf g.wait))))
      ∧ (∀ (s1 : State) (pc pa : Nat), q.inChain = false → isGlobal ((s.codeOf f).1 + pc) = true →
          s.translate (s.ctxOf f) f.core ((s.codeOf f).1 + pc) { fetch := true } f.level = (s1, .ok pa) →
          let s2 := s1.readHeld (dieAgent f.core) pa
          let held := s1.mayAccess (dieAgent f.core) pa false
          ((s1.isPeer pa = true ∨ held = true) → s2.poisoned pa 4 = false → (∀ p ∈ s.patchesOf f, p.1 ≠ pc / 4) →
            s.fetchWord f pc = (s2, .word (leNat (s2.bytesAt pa 4))))
          ∧ (s1.isPeer pa = false → held = false →
              s.fetchWord f pc = (s1.request (dieAgent f.core) (sectorOf pa) false f.core, .wait (sectorOf pa)))))

/-- R30, R349, R372, R376, R378, R422, R441 to R443: with no group issuing, an access, an engine's event or an event of the base die whose tokens
have come goes on, and a context in destruction with no field left is destroyed; else the environment's next event happens and leaves its queue; with
none, the oldest message in flight arrives, else a quarter selects; a package that is halted or has no power answers a reset alone. (That what waits
goes before every event, and what happens with no event, is the model's choice, log 3.) -/
def Obligations.StepRunsEvent : Prop :=
  ∀ (s : State),
    (s.powered = true → s.halted = false → s.issue = none →
      (s.dueNow = none →
        (∀ e es, s.agenda = e :: es → step s = exec e { s with agenda := es })
        ∧ (s.agenda = [] → step s = exec s.nextEvent s)
        ∧ (∀ m ms, s.net = m :: ms → s.cycles ≤ m.sentAt + 4000 → m.typ = 2 → s.agenda = [] → step s = exec (.tok 0) s))
      ∧ (s.agenda.head? ≠ some .powerOnReset →
          (∀ f, s.accessDue = some f → step s = exec (.instructionComplete f.core f.slot) s)
          ∧ (s.accessDue = none →
              (∀ i, s.engineDue = some i → step s = exec i s)
              ∧ (s.engineDue = none →
                  (∀ i d, s.deferred.find? s.goesNow = some (i, d) → step s = exec i { s with deferred := s.deferred.erase (i, d) })
                  ∧ (s.deferred.find? s.goesNow = none → ∀ i, s.destroyDue = some i → step s = exec i s)))))
    ∧ (s.powered = false → s.agenda.head? ≠ some .powerOnReset → step s = .fault .powerRemoved)
    ∧ (s.powered = true → s.halted = true → s.agenda.head? ≠ some .powerOnReset → step s = .fault .packageHalted)
    ∧ (∀ es, s.agenda = .powerOnReset :: es → s.issue = none → step s = .next (State.resetKept { s with agenda := es }))

/-- Every step keeps the canonical form of memory and of every field's scratchpad, tile store and B-slice: addresses rise strictly and no byte that
reads 0 is listed (the model's choice, log 1). -/
def Obligations.MemoryStaysCanonical : Prop := ∀ s t : State, BytesOk s → Steps s t → BytesOk t
end

