-- ==== Sys2Proof/Laws/State.lean ====
section
/-! SUPPORT. What each update of the state leaves: one law for each field it does not change. -/
namespace Sys2Proof.Machine

/-! ### `State.setFurrow` -/

@[simp] theorem State.setFurrow_cycles (s : State) (f : Furrow) : (s.setFurrow f).cycles = s.cycles := rfl
@[simp] theorem State.setFurrow_agenda (s : State) (f : Furrow) : (s.setFurrow f).agenda = s.agenda := rfl
@[simp] theorem State.setFurrow_issue (s : State) (f : Furrow) : (s.setFurrow f).issue = s.issue := rfl
@[simp] theorem State.setFurrow_freeCtr (s : State) (f : Furrow) : (s.setFurrow f).freeCtr = s.freeCtr := rfl
@[simp] theorem State.setFurrow_order (s : State) (f : Furrow) : (s.setFurrow f).order = s.order := rfl
@[simp] theorem State.setFurrow_recent (s : State) (f : Furrow) : (s.setFurrow f).recent = s.recent := rfl
@[simp] theorem State.setFurrow_contribs (s : State) (f : Furrow) : (s.setFurrow f).contribs = s.contribs := rfl
@[simp] theorem State.setFurrow_mem (s : State) (f : Furrow) : (s.setFurrow f).mem = s.mem := rfl
@[simp] theorem State.setFurrow_poison (s : State) (f : Furrow) : (s.setFurrow f).poison = s.poison := rfl
@[simp] theorem State.setFurrow_lpddr (s : State) (f : Furrow) : (s.setFurrow f).lpddr = s.lpddr := rfl
@[simp] theorem State.setFurrow_fields (s : State) (f : Furrow) : (s.setFurrow f).fields = s.fields := rfl
@[simp] theorem State.setFurrow_cores (s : State) (f : Furrow) : (s.setFurrow f).cores = s.cores := rfl
@[simp] theorem State.setFurrow_dies (s : State) (f : Furrow) : (s.setFurrow f).dies = s.dies := rfl
@[simp] theorem State.setFurrow_baseErrs (s : State) (f : Furrow) : (s.setFurrow f).baseErrs = s.baseErrs := rfl
@[simp] theorem State.setFurrow_ctxs (s : State) (f : Furrow) : (s.setFurrow f).ctxs = s.ctxs := rfl
@[simp] theorem State.setFurrow_commands (s : State) (f : Furrow) : (s.setFurrow f).commands = s.commands := rfl
@[simp] theorem State.setFurrow_colls (s : State) (f : Furrow) : (s.setFurrow f).colls = s.colls := rfl
@[simp] theorem State.setFurrow_schemes (s : State) (f : Furrow) : (s.setFurrow f).schemes = s.schemes := rfl
@[simp] theorem State.setFurrow_sectors (s : State) (f : Furrow) : (s.setFurrow f).sectors = s.sectors := rfl
@[simp] theorem State.setFurrow_net (s : State) (f : Furrow) : (s.setFurrow f).net = s.net := rfl
@[simp] theorem State.setFurrow_outer (s : State) (f : Furrow) : (s.setFurrow f).outer = s.outer := rfl
@[simp] theorem State.setFurrow_upsets (s : State) (f : Furrow) : (s.setFurrow f).upsets = s.upsets := rfl
@[simp] theorem State.setFurrow_deferred (s : State) (f : Furrow) : (s.setFurrow f).deferred = s.deferred := rfl
@[simp] theorem State.setFurrow_records (s : State) (f : Furrow) : (s.setFurrow f).records = s.records := rfl
@[simp] theorem State.setFurrow_vfs (s : State) (f : Furrow) : (s.setFurrow f).vfs = s.vfs := rfl
@[simp] theorem State.setFurrow_lds (s : State) (f : Furrow) : (s.setFurrow f).lds = s.lds := rfl
@[simp] theorem State.setFurrow_mgmt (s : State) (f : Furrow) : (s.setFurrow f).mgmt = s.mgmt := rfl
@[simp] theorem State.setFurrow_quads (s : State) (f : Furrow) : (s.setFurrow f).quads = s.quads := rfl
@[simp] theorem State.setFurrow_cohMode (s : State) (f : Furrow) : (s.setFurrow f).cohMode = s.cohMode := rfl
@[simp] theorem State.setFurrow_cohNext (s : State) (f : Furrow) : (s.setFurrow f).cohNext = s.cohNext := rfl
@[simp] theorem State.setFurrow_accfg (s : State) (f : Furrow) : (s.setFurrow f).accfg = s.accfg := rfl
@[simp] theorem State.setFurrow_access (s : State) (f : Furrow) : (s.setFurrow f).access = s.access := rfl
@[simp] theorem State.setFurrow_pkg (s : State) (f : Furrow) : (s.setFurrow f).pkg = s.pkg := rfl
@[simp] theorem State.setFurrow_pod (s : State) (f : Furrow) : (s.setFurrow f).pod = s.pod := rfl
@[simp] theorem State.setFurrow_links (s : State) (f : Furrow) : (s.setFurrow f).links = s.links := rfl
@[simp] theorem State.setFurrow_ether (s : State) (f : Furrow) : (s.setFurrow f).ether = s.ether := rfl
@[simp] theorem State.setFurrow_fabric (s : State) (f : Furrow) : (s.setFurrow f).fabric = s.fabric := rfl
@[simp] theorem State.setFurrow_islands (s : State) (f : Furrow) : (s.setFurrow f).islands = s.islands := rfl
@[simp] theorem State.setFurrow_islandTime (s : State) (f : Furrow) : (s.setFurrow f).islandTime = s.islandTime := rfl
@[simp] theorem State.setFurrow_firmware (s : State) (f : Furrow) : (s.setFurrow f).firmware = s.firmware := rfl
@[simp] theorem State.setFurrow_fwDies (s : State) (f : Furrow) : (s.setFurrow f).fwDies = s.fwDies := rfl
@[simp] theorem State.setFurrow_service (s : State) (f : Furrow) : (s.setFurrow f).service = s.service := rfl
@[simp] theorem State.setFurrow_fusedMin (s : State) (f : Furrow) : (s.setFurrow f).fusedMin = s.fusedMin := rfl
@[simp] theorem State.setFurrow_ready (s : State) (f : Furrow) : (s.setFurrow f).ready = s.ready := rfl
@[simp] theorem State.setFurrow_halted (s : State) (f : Furrow) : (s.setFurrow f).halted = s.halted := rfl
@[simp] theorem State.setFurrow_powered (s : State) (f : Furrow) : (s.setFurrow f).powered = s.powered := rfl
@[simp] theorem State.setFurrow_nextId (s : State) (f : Furrow) : (s.setFurrow f).nextId = s.nextId := rfl

/-! ### `State.onFurrow` -/

@[simp] theorem State.onFurrow_cycles (s : State) (c n : Nat) (k : Furrow → Furrow) : (s.onFurrow c n k).cycles = s.cycles := rfl
@[simp] theorem State.onFurrow_agenda (s : State) (c n : Nat) (k : Furrow → Furrow) : (s.onFurrow c n k).agenda = s.agenda := rfl
@[simp] theorem State.onFurrow_issue (s : State) (c n : Nat) (k : Furrow → Furrow) : (s.onFurrow c n k).issue = s.issue := rfl
@[simp] theorem State.onFurrow_freeCtr (s : State) (c n : Nat) (k : Furrow → Furrow) : (s.onFurrow c n k).freeCtr = s.freeCtr := rfl
@[simp] theorem State.onFurrow_order (s : State) (c n : Nat) (k : Furrow → Furrow) : (s.onFurrow c n k).order = s.order := rfl
@[simp] theorem State.onFurrow_recent (s : State) (c n : Nat) (k : Furrow → Furrow) : (s.onFurrow c n k).recent = s.recent := rfl
@[simp] theorem State.onFurrow_contribs (s : State) (c n : Nat) (k : Furrow → Furrow) : (s.onFurrow c n k).contribs = s.contribs := rfl
@[simp] theorem State.onFurrow_mem (s : State) (c n : Nat) (k : Furrow → Furrow) : (s.onFurrow c n k).mem = s.mem := rfl
@[simp] theorem State.onFurrow_poison (s : State) (c n : Nat) (k : Furrow → Furrow) : (s.onFurrow c n k).poison = s.poison := rfl
@[simp] theorem State.onFurrow_lpddr (s : State) (c n : Nat) (k : Furrow → Furrow) : (s.onFurrow c n k).lpddr = s.lpddr := rfl
@[simp] theorem State.onFurrow_fields (s : State) (c n : Nat) (k : Furrow → Furrow) : (s.onFurrow c n k).fields = s.fields := rfl
@[simp] theorem State.onFurrow_cores (s : State) (c n : Nat) (k : Furrow → Furrow) : (s.onFurrow c n k).cores = s.cores := rfl
@[simp] theorem State.onFurrow_dies (s : State) (c n : Nat) (k : Furrow → Furrow) : (s.onFurrow c n k).dies = s.dies := rfl
@[simp] theorem State.onFurrow_baseErrs (s : State) (c n : Nat) (k : Furrow → Furrow) : (s.onFurrow c n k).baseErrs = s.baseErrs := rfl
@[simp] theorem State.onFurrow_ctxs (s : State) (c n : Nat) (k : Furrow → Furrow) : (s.onFurrow c n k).ctxs = s.ctxs := rfl
@[simp] theorem State.onFurrow_commands (s : State) (c n : Nat) (k : Furrow → Furrow) : (s.onFurrow c n k).commands = s.commands := rfl
@[simp] theorem State.onFurrow_colls (s : State) (c n : Nat) (k : Furrow → Furrow) : (s.onFurrow c n k).colls = s.colls := rfl
@[simp] theorem State.onFurrow_schemes (s : State) (c n : Nat) (k : Furrow → Furrow) : (s.onFurrow c n k).schemes = s.schemes := rfl
@[simp] theorem State.onFurrow_sectors (s : State) (c n : Nat) (k : Furrow → Furrow) : (s.onFurrow c n k).sectors = s.sectors := rfl
@[simp] theorem State.onFurrow_net (s : State) (c n : Nat) (k : Furrow → Furrow) : (s.onFurrow c n k).net = s.net := rfl
@[simp] theorem State.onFurrow_outer (s : State) (c n : Nat) (k : Furrow → Furrow) : (s.onFurrow c n k).outer = s.outer := rfl
@[simp] theorem State.onFurrow_upsets (s : State) (c n : Nat) (k : Furrow → Furrow) : (s.onFurrow c n k).upsets = s.upsets := rfl
@[simp] theorem State.onFurrow_deferred (s : State) (c n : Nat) (k : Furrow → Furrow) : (s.onFurrow c n k).deferred = s.deferred := rfl
@[simp] theorem State.onFurrow_records (s : State) (c n : Nat) (k : Furrow → Furrow) : (s.onFurrow c n k).records = s.records := rfl
@[simp] theorem State.onFurrow_vfs (s : State) (c n : Nat) (k : Furrow → Furrow) : (s.onFurrow c n k).vfs = s.vfs := rfl
@[simp] theorem State.onFurrow_lds (s : State) (c n : Nat) (k : Furrow → Furrow) : (s.onFurrow c n k).lds = s.lds := rfl
@[simp] theorem State.onFurrow_mgmt (s : State) (c n : Nat) (k : Furrow → Furrow) : (s.onFurrow c n k).mgmt = s.mgmt := rfl
@[simp] theorem State.onFurrow_quads (s : State) (c n : Nat) (k : Furrow → Furrow) : (s.onFurrow c n k).quads = s.quads := rfl
@[simp] theorem State.onFurrow_cohMode (s : State) (c n : Nat) (k : Furrow → Furrow) : (s.onFurrow c n k).cohMode = s.cohMode := rfl
@[simp] theorem State.onFurrow_cohNext (s : State) (c n : Nat) (k : Furrow → Furrow) : (s.onFurrow c n k).cohNext = s.cohNext := rfl
@[simp] theorem State.onFurrow_accfg (s : State) (c n : Nat) (k : Furrow → Furrow) : (s.onFurrow c n k).accfg = s.accfg := rfl
@[simp] theorem State.onFurrow_access (s : State) (c n : Nat) (k : Furrow → Furrow) : (s.onFurrow c n k).access = s.access := rfl
@[simp] theorem State.onFurrow_pkg (s : State) (c n : Nat) (k : Furrow → Furrow) : (s.onFurrow c n k).pkg = s.pkg := rfl
@[simp] theorem State.onFurrow_pod (s : State) (c n : Nat) (k : Furrow → Furrow) : (s.onFurrow c n k).pod = s.pod := rfl
@[simp] theorem State.onFurrow_links (s : State) (c n : Nat) (k : Furrow → Furrow) : (s.onFurrow c n k).links = s.links := rfl
@[simp] theorem State.onFurrow_ether (s : State) (c n : Nat) (k : Furrow → Furrow) : (s.onFurrow c n k).ether = s.ether := rfl
@[simp] theorem State.onFurrow_fabric (s : State) (c n : Nat) (k : Furrow → Furrow) : (s.onFurrow c n k).fabric = s.fabric := rfl
@[simp] theorem State.onFurrow_islands (s : State) (c n : Nat) (k : Furrow → Furrow) : (s.onFurrow c n k).islands = s.islands := rfl
@[simp] theorem State.onFurrow_islandTime (s : State) (c n : Nat) (k : Furrow → Furrow) : (s.onFurrow c n k).islandTime = s.islandTime := rfl
@[simp] theorem State.onFurrow_firmware (s : State) (c n : Nat) (k : Furrow → Furrow) : (s.onFurrow c n k).firmware = s.firmware := rfl
@[simp] theorem State.onFurrow_fwDies (s : State) (c n : Nat) (k : Furrow → Furrow) : (s.onFurrow c n k).fwDies = s.fwDies := rfl
@[simp] theorem State.onFurrow_service (s : State) (c n : Nat) (k : Furrow → Furrow) : (s.onFurrow c n k).service = s.service := rfl
@[simp] theorem State.onFurrow_fusedMin (s : State) (c n : Nat) (k : Furrow → Furrow) : (s.onFurrow c n k).fusedMin = s.fusedMin := rfl
@[simp] theorem State.onFurrow_ready (s : State) (c n : Nat) (k : Furrow → Furrow) : (s.onFurrow c n k).ready = s.ready := rfl
@[simp] theorem State.onFurrow_halted (s : State) (c n : Nat) (k : Furrow → Furrow) : (s.onFurrow c n k).halted = s.halted := rfl
@[simp] theorem State.onFurrow_powered (s : State) (c n : Nat) (k : Furrow → Furrow) : (s.onFurrow c n k).powered = s.powered := rfl
@[simp] theorem State.onFurrow_nextId (s : State) (c n : Nat) (k : Furrow → Furrow) : (s.onFurrow c n k).nextId = s.nextId := rfl

/-! ### `State.onField` -/

@[simp] theorem State.onField_cycles (s : State) (n : Nat) (k : Field → Field) : (s.onField n k).cycles = s.cycles := rfl
@[simp] theorem State.onField_agenda (s : State) (n : Nat) (k : Field → Field) : (s.onField n k).agenda = s.agenda := rfl
@[simp] theorem State.onField_issue (s : State) (n : Nat) (k : Field → Field) : (s.onField n k).issue = s.issue := rfl
@[simp] theorem State.onField_freeCtr (s : State) (n : Nat) (k : Field → Field) : (s.onField n k).freeCtr = s.freeCtr := rfl
@[simp] theorem State.onField_order (s : State) (n : Nat) (k : Field → Field) : (s.onField n k).order = s.order := rfl
@[simp] theorem State.onField_recent (s : State) (n : Nat) (k : Field → Field) : (s.onField n k).recent = s.recent := rfl
@[simp] theorem State.onField_contribs (s : State) (n : Nat) (k : Field → Field) : (s.onField n k).contribs = s.contribs := rfl
@[simp] theorem State.onField_mem (s : State) (n : Nat) (k : Field → Field) : (s.onField n k).mem = s.mem := rfl
@[simp] theorem State.onField_poison (s : State) (n : Nat) (k : Field → Field) : (s.onField n k).poison = s.poison := rfl
@[simp] theorem State.onField_lpddr (s : State) (n : Nat) (k : Field → Field) : (s.onField n k).lpddr = s.lpddr := rfl
@[simp] theorem State.onField_furrows (s : State) (n : Nat) (k : Field → Field) : (s.onField n k).furrows = s.furrows := rfl
@[simp] theorem State.onField_cores (s : State) (n : Nat) (k : Field → Field) : (s.onField n k).cores = s.cores := rfl
@[simp] theorem State.onField_dies (s : State) (n : Nat) (k : Field → Field) : (s.onField n k).dies = s.dies := rfl
@[simp] theorem State.onField_baseErrs (s : State) (n : Nat) (k : Field → Field) : (s.onField n k).baseErrs = s.baseErrs := rfl
@[simp] theorem State.onField_ctxs (s : State) (n : Nat) (k : Field → Field) : (s.onField n k).ctxs = s.ctxs := rfl
@[simp] theorem State.onField_commands (s : State) (n : Nat) (k : Field → Field) : (s.onField n k).commands = s.commands := rfl
@[simp] theorem State.onField_colls (s : State) (n : Nat) (k : Field → Field) : (s.onField n k).colls = s.colls := rfl
@[simp] theorem State.onField_schemes (s : State) (n : Nat) (k : Field → Field) : (s.onField n k).schemes = s.schemes := rfl
@[simp] theorem State.onField_sectors (s : State) (n : Nat) (k : Field → Field) : (s.onField n k).sectors = s.sectors := rfl
@[simp] theorem State.onField_net (s : State) (n : Nat) (k : Field → Field) : (s.onField n k).net = s.net := rfl
@[simp] theorem State.onField_outer (s : State) (n : Nat) (k : Field → Field) : (s.onField n k).outer = s.outer := rfl
@[simp] theorem State.onField_upsets (s : State) (n : Nat) (k : Field → Field) : (s.onField n k).upsets = s.upsets := rfl
@[simp] theorem State.onField_deferred (s : State) (n : Nat) (k : Field → Field) : (s.onField n k).deferred = s.deferred := rfl
@[simp] theorem State.onField_records (s : State) (n : Nat) (k : Field → Field) : (s.onField n k).records = s.records := rfl
@[simp] theorem State.onField_vfs (s : State) (n : Nat) (k : Field → Field) : (s.onField n k).vfs = s.vfs := rfl
@[simp] theorem State.onField_lds (s : State) (n : Nat) (k : Field → Field) : (s.onField n k).lds = s.lds := rfl
@[simp] theorem State.onField_mgmt (s : State) (n : Nat) (k : Field → Field) : (s.onField n k).mgmt = s.mgmt := rfl
@[simp] theorem State.onField_quads (s : State) (n : Nat) (k : Field → Field) : (s.onField n k).quads = s.quads := rfl
@[simp] theorem State.onField_cohMode (s : State) (n : Nat) (k : Field → Field) : (s.onField n k).cohMode = s.cohMode := rfl
@[simp] theorem State.onField_cohNext (s : State) (n : Nat) (k : Field → Field) : (s.onField n k).cohNext = s.cohNext := rfl
@[simp] theorem State.onField_accfg (s : State) (n : Nat) (k : Field → Field) : (s.onField n k).accfg = s.accfg := rfl
@[simp] theorem State.onField_access (s : State) (n : Nat) (k : Field → Field) : (s.onField n k).access = s.access := rfl
@[simp] theorem State.onField_pkg (s : State) (n : Nat) (k : Field → Field) : (s.onField n k).pkg = s.pkg := rfl
@[simp] theorem State.onField_pod (s : State) (n : Nat) (k : Field → Field) : (s.onField n k).pod = s.pod := rfl
@[simp] theorem State.onField_links (s : State) (n : Nat) (k : Field → Field) : (s.onField n k).links = s.links := rfl
@[simp] theorem State.onField_ether (s : State) (n : Nat) (k : Field → Field) : (s.onField n k).ether = s.ether := rfl
@[simp] theorem State.onField_fabric (s : State) (n : Nat) (k : Field → Field) : (s.onField n k).fabric = s.fabric := rfl
@[simp] theorem State.onField_islands (s : State) (n : Nat) (k : Field → Field) : (s.onField n k).islands = s.islands := rfl
@[simp] theorem State.onField_islandTime (s : State) (n : Nat) (k : Field → Field) : (s.onField n k).islandTime = s.islandTime := rfl
@[simp] theorem State.onField_firmware (s : State) (n : Nat) (k : Field → Field) : (s.onField n k).firmware = s.firmware := rfl
@[simp] theorem State.onField_fwDies (s : State) (n : Nat) (k : Field → Field) : (s.onField n k).fwDies = s.fwDies := rfl
@[simp] theorem State.onField_service (s : State) (n : Nat) (k : Field → Field) : (s.onField n k).service = s.service := rfl
@[simp] theorem State.onField_fusedMin (s : State) (n : Nat) (k : Field → Field) : (s.onField n k).fusedMin = s.fusedMin := rfl
@[simp] theorem State.onField_ready (s : State) (n : Nat) (k : Field → Field) : (s.onField n k).ready = s.ready := rfl
@[simp] theorem State.onField_halted (s : State) (n : Nat) (k : Field → Field) : (s.onField n k).halted = s.halted := rfl
@[simp] theorem State.onField_powered (s : State) (n : Nat) (k : Field → Field) : (s.onField n k).powered = s.powered := rfl
@[simp] theorem State.onField_nextId (s : State) (n : Nat) (k : Field → Field) : (s.onField n k).nextId = s.nextId := rfl

/-! ### `State.onCtx` -/

@[simp] theorem State.onCtx_cycles (s : State) (n : Nat) (k : Ctx → Ctx) : (s.onCtx n k).cycles = s.cycles := rfl
@[simp] theorem State.onCtx_agenda (s : State) (n : Nat) (k : Ctx → Ctx) : (s.onCtx n k).agenda = s.agenda := rfl
@[simp] theorem State.onCtx_issue (s : State) (n : Nat) (k : Ctx → Ctx) : (s.onCtx n k).issue = s.issue := rfl
@[simp] theorem State.onCtx_freeCtr (s : State) (n : Nat) (k : Ctx → Ctx) : (s.onCtx n k).freeCtr = s.freeCtr := rfl
@[simp] theorem State.onCtx_order (s : State) (n : Nat) (k : Ctx → Ctx) : (s.onCtx n k).order = s.order := rfl
@[simp] theorem State.onCtx_recent (s : State) (n : Nat) (k : Ctx → Ctx) : (s.onCtx n k).recent = s.recent := rfl
@[simp] theorem State.onCtx_contribs (s : State) (n : Nat) (k : Ctx → Ctx) : (s.onCtx n k).contribs = s.contribs := rfl
@[simp] theorem State.onCtx_mem (s : State) (n : Nat) (k : Ctx → Ctx) : (s.onCtx n k).mem = s.mem := rfl
@[simp] theorem State.onCtx_poison (s : State) (n : Nat) (k : Ctx → Ctx) : (s.onCtx n k).poison = s.poison := rfl
@[simp] theorem State.onCtx_lpddr (s : State) (n : Nat) (k : Ctx → Ctx) : (s.onCtx n k).lpddr = s.lpddr := rfl
@[simp] theorem State.onCtx_furrows (s : State) (n : Nat) (k : Ctx → Ctx) : (s.onCtx n k).furrows = s.furrows := rfl
@[simp] theorem State.onCtx_fields (s : State) (n : Nat) (k : Ctx → Ctx) : (s.onCtx n k).fields = s.fields := rfl
@[simp] theorem State.onCtx_cores (s : State) (n : Nat) (k : Ctx → Ctx) : (s.onCtx n k).cores = s.cores := rfl
@[simp] theorem State.onCtx_dies (s : State) (n : Nat) (k : Ctx → Ctx) : (s.onCtx n k).dies = s.dies := rfl
@[simp] theorem State.onCtx_baseErrs (s : State) (n : Nat) (k : Ctx → Ctx) : (s.onCtx n k).baseErrs = s.baseErrs := rfl
@[simp] theorem State.onCtx_commands (s : State) (n : Nat) (k : Ctx → Ctx) : (s.onCtx n k).commands = s.commands := rfl
@[simp] theorem State.onCtx_colls (s : State) (n : Nat) (k : Ctx → Ctx) : (s.onCtx n k).colls = s.colls := rfl
@[simp] theorem State.onCtx_schemes (s : State) (n : Nat) (k : Ctx → Ctx) : (s.onCtx n k).schemes = s.schemes := rfl
@[simp] theorem State.onCtx_sectors (s : State) (n : Nat) (k : Ctx → Ctx) : (s.onCtx n k).sectors = s.sectors := rfl
@[simp] theorem State.onCtx_net (s : State) (n : Nat) (k : Ctx → Ctx) : (s.onCtx n k).net = s.net := rfl
@[simp] theorem State.onCtx_outer (s : State) (n : Nat) (k : Ctx → Ctx) : (s.onCtx n k).outer = s.outer := rfl
@[simp] theorem State.onCtx_upsets (s : State) (n : Nat) (k : Ctx → Ctx) : (s.onCtx n k).upsets = s.upsets := rfl
@[simp] theorem State.onCtx_deferred (s : State) (n : Nat) (k : Ctx → Ctx) : (s.onCtx n k).deferred = s.deferred := rfl
@[simp] theorem State.onCtx_records (s : State) (n : Nat) (k : Ctx → Ctx) : (s.onCtx n k).records = s.records := rfl
@[simp] theorem State.onCtx_vfs (s : State) (n : Nat) (k : Ctx → Ctx) : (s.onCtx n k).vfs = s.vfs := rfl
@[simp] theorem State.onCtx_lds (s : State) (n : Nat) (k : Ctx → Ctx) : (s.onCtx n k).lds = s.lds := rfl
@[simp] theorem State.onCtx_mgmt (s : State) (n : Nat) (k : Ctx → Ctx) : (s.onCtx n k).mgmt = s.mgmt := rfl
@[simp] theorem State.onCtx_quads (s : State) (n : Nat) (k : Ctx → Ctx) : (s.onCtx n k).quads = s.quads := rfl
@[simp] theorem State.onCtx_cohMode (s : State) (n : Nat) (k : Ctx → Ctx) : (s.onCtx n k).cohMode = s.cohMode := rfl
@[simp] theorem State.onCtx_cohNext (s : State) (n : Nat) (k : Ctx → Ctx) : (s.onCtx n k).cohNext = s.cohNext := rfl
@[simp] theorem State.onCtx_accfg (s : State) (n : Nat) (k : Ctx → Ctx) : (s.onCtx n k).accfg = s.accfg := rfl
@[simp] theorem State.onCtx_access (s : State) (n : Nat) (k : Ctx → Ctx) : (s.onCtx n k).access = s.access := rfl
@[simp] theorem State.onCtx_pkg (s : State) (n : Nat) (k : Ctx → Ctx) : (s.onCtx n k).pkg = s.pkg := rfl
@[simp] theorem State.onCtx_pod (s : State) (n : Nat) (k : Ctx → Ctx) : (s.onCtx n k).pod = s.pod := rfl
@[simp] theorem State.onCtx_links (s : State) (n : Nat) (k : Ctx → Ctx) : (s.onCtx n k).links = s.links := rfl
@[simp] theorem State.onCtx_ether (s : State) (n : Nat) (k : Ctx → Ctx) : (s.onCtx n k).ether = s.ether := rfl
@[simp] theorem State.onCtx_fabric (s : State) (n : Nat) (k : Ctx → Ctx) : (s.onCtx n k).fabric = s.fabric := rfl
@[simp] theorem State.onCtx_islands (s : State) (n : Nat) (k : Ctx → Ctx) : (s.onCtx n k).islands = s.islands := rfl
@[simp] theorem State.onCtx_islandTime (s : State) (n : Nat) (k : Ctx → Ctx) : (s.onCtx n k).islandTime = s.islandTime := rfl
@[simp] theorem State.onCtx_firmware (s : State) (n : Nat) (k : Ctx → Ctx) : (s.onCtx n k).firmware = s.firmware := rfl
@[simp] theorem State.onCtx_fwDies (s : State) (n : Nat) (k : Ctx → Ctx) : (s.onCtx n k).fwDies = s.fwDies := rfl
@[simp] theorem State.onCtx_service (s : State) (n : Nat) (k : Ctx → Ctx) : (s.onCtx n k).service = s.service := rfl
@[simp] theorem State.onCtx_fusedMin (s : State) (n : Nat) (k : Ctx → Ctx) : (s.onCtx n k).fusedMin = s.fusedMin := rfl
@[simp] theorem State.onCtx_ready (s : State) (n : Nat) (k : Ctx → Ctx) : (s.onCtx n k).ready = s.ready := rfl
@[simp] theorem State.onCtx_halted (s : State) (n : Nat) (k : Ctx → Ctx) : (s.onCtx n k).halted = s.halted := rfl
@[simp] theorem State.onCtx_powered (s : State) (n : Nat) (k : Ctx → Ctx) : (s.onCtx n k).powered = s.powered := rfl
@[simp] theorem State.onCtx_nextId (s : State) (n : Nat) (k : Ctx → Ctx) : (s.onCtx n k).nextId = s.nextId := rfl

/-! ### `State.onCore` -/

@[simp] theorem State.onCore_cycles (s : State) (n : Nat) (k : Core → Core) : (s.onCore n k).cycles = s.cycles := rfl
@[simp] theorem State.onCore_agenda (s : State) (n : Nat) (k : Core → Core) : (s.onCore n k).agenda = s.agenda := rfl
@[simp] theorem State.onCore_issue (s : State) (n : Nat) (k : Core → Core) : (s.onCore n k).issue = s.issue := rfl
@[simp] theorem State.onCore_freeCtr (s : State) (n : Nat) (k : Core → Core) : (s.onCore n k).freeCtr = s.freeCtr := rfl
@[simp] theorem State.onCore_order (s : State) (n : Nat) (k : Core → Core) : (s.onCore n k).order = s.order := rfl
@[simp] theorem State.onCore_recent (s : State) (n : Nat) (k : Core → Core) : (s.onCore n k).recent = s.recent := rfl
@[simp] theorem State.onCore_contribs (s : State) (n : Nat) (k : Core → Core) : (s.onCore n k).contribs = s.contribs := rfl
@[simp] theorem State.onCore_mem (s : State) (n : Nat) (k : Core → Core) : (s.onCore n k).mem = s.mem := rfl
@[simp] theorem State.onCore_poison (s : State) (n : Nat) (k : Core → Core) : (s.onCore n k).poison = s.poison := rfl
@[simp] theorem State.onCore_lpddr (s : State) (n : Nat) (k : Core → Core) : (s.onCore n k).lpddr = s.lpddr := rfl
@[simp] theorem State.onCore_furrows (s : State) (n : Nat) (k : Core → Core) : (s.onCore n k).furrows = s.furrows := rfl
@[simp] theorem State.onCore_fields (s : State) (n : Nat) (k : Core → Core) : (s.onCore n k).fields = s.fields := rfl
@[simp] theorem State.onCore_dies (s : State) (n : Nat) (k : Core → Core) : (s.onCore n k).dies = s.dies := rfl
@[simp] theorem State.onCore_baseErrs (s : State) (n : Nat) (k : Core → Core) : (s.onCore n k).baseErrs = s.baseErrs := rfl
@[simp] theorem State.onCore_ctxs (s : State) (n : Nat) (k : Core → Core) : (s.onCore n k).ctxs = s.ctxs := rfl
@[simp] theorem State.onCore_commands (s : State) (n : Nat) (k : Core → Core) : (s.onCore n k).commands = s.commands := rfl
@[simp] theorem State.onCore_colls (s : State) (n : Nat) (k : Core → Core) : (s.onCore n k).colls = s.colls := rfl
@[simp] theorem State.onCore_schemes (s : State) (n : Nat) (k : Core → Core) : (s.onCore n k).schemes = s.schemes := rfl
@[simp] theorem State.onCore_sectors (s : State) (n : Nat) (k : Core → Core) : (s.onCore n k).sectors = s.sectors := rfl
@[simp] theorem State.onCore_net (s : State) (n : Nat) (k : Core → Core) : (s.onCore n k).net = s.net := rfl
@[simp] theorem State.onCore_outer (s : State) (n : Nat) (k : Core → Core) : (s.onCore n k).outer = s.outer := rfl
@[simp] theorem State.onCore_upsets (s : State) (n : Nat) (k : Core → Core) : (s.onCore n k).upsets = s.upsets := rfl
@[simp] theorem State.onCore_deferred (s : State) (n : Nat) (k : Core → Core) : (s.onCore n k).deferred = s.deferred := rfl
@[simp] theorem State.onCore_records (s : State) (n : Nat) (k : Core → Core) : (s.onCore n k).records = s.records := rfl
@[simp] theorem State.onCore_vfs (s : State) (n : Nat) (k : Core → Core) : (s.onCore n k).vfs = s.vfs := rfl
@[simp] theorem State.onCore_lds (s : State) (n : Nat) (k : Core → Core) : (s.onCore n k).lds = s.lds := rfl
@[simp] theorem State.onCore_mgmt (s : State) (n : Nat) (k : Core → Core) : (s.onCore n k).mgmt = s.mgmt := rfl
@[simp] theorem State.onCore_quads (s : State) (n : Nat) (k : Core → Core) : (s.onCore n k).quads = s.quads := rfl
@[simp] theorem State.onCore_cohMode (s : State) (n : Nat) (k : Core → Core) : (s.onCore n k).cohMode = s.cohMode := rfl
@[simp] theorem State.onCore_cohNext (s : State) (n : Nat) (k : Core → Core) : (s.onCore n k).cohNext = s.cohNext := rfl
@[simp] theorem State.onCore_accfg (s : State) (n : Nat) (k : Core → Core) : (s.onCore n k).accfg = s.accfg := rfl
@[simp] theorem State.onCore_access (s : State) (n : Nat) (k : Core → Core) : (s.onCore n k).access = s.access := rfl
@[simp] theorem State.onCore_pkg (s : State) (n : Nat) (k : Core → Core) : (s.onCore n k).pkg = s.pkg := rfl
@[simp] theorem State.onCore_pod (s : State) (n : Nat) (k : Core → Core) : (s.onCore n k).pod = s.pod := rfl
@[simp] theorem State.onCore_links (s : State) (n : Nat) (k : Core → Core) : (s.onCore n k).links = s.links := rfl
@[simp] theorem State.onCore_ether (s : State) (n : Nat) (k : Core → Core) : (s.onCore n k).ether = s.ether := rfl
@[simp] theorem State.onCore_fabric (s : State) (n : Nat) (k : Core → Core) : (s.onCore n k).fabric = s.fabric := rfl
@[simp] theorem State.onCore_islands (s : State) (n : Nat) (k : Core → Core) : (s.onCore n k).islands = s.islands := rfl
@[simp] theorem State.onCore_islandTime (s : State) (n : Nat) (k : Core → Core) : (s.onCore n k).islandTime = s.islandTime := rfl
@[simp] theorem State.onCore_firmware (s : State) (n : Nat) (k : Core → Core) : (s.onCore n k).firmware = s.firmware := rfl
@[simp] theorem State.onCore_fwDies (s : State) (n : Nat) (k : Core → Core) : (s.onCore n k).fwDies = s.fwDies := rfl
@[simp] theorem State.onCore_service (s : State) (n : Nat) (k : Core → Core) : (s.onCore n k).service = s.service := rfl
@[simp] theorem State.onCore_fusedMin (s : State) (n : Nat) (k : Core → Core) : (s.onCore n k).fusedMin = s.fusedMin := rfl
@[simp] theorem State.onCore_ready (s : State) (n : Nat) (k : Core → Core) : (s.onCore n k).ready = s.ready := rfl
@[simp] theorem State.onCore_halted (s : State) (n : Nat) (k : Core → Core) : (s.onCore n k).halted = s.halted := rfl
@[simp] theorem State.onCore_powered (s : State) (n : Nat) (k : Core → Core) : (s.onCore n k).powered = s.powered := rfl
@[simp] theorem State.onCore_nextId (s : State) (n : Nat) (k : Core → Core) : (s.onCore n k).nextId = s.nextId := rfl

/-! ### `State.onDie` -/

@[simp] theorem State.onDie_cycles (s : State) (n : Nat) (k : Die → Die) : (s.onDie n k).cycles = s.cycles := rfl
@[simp] theorem State.onDie_agenda (s : State) (n : Nat) (k : Die → Die) : (s.onDie n k).agenda = s.agenda := rfl
@[simp] theorem State.onDie_issue (s : State) (n : Nat) (k : Die → Die) : (s.onDie n k).issue = s.issue := rfl
@[simp] theorem State.onDie_freeCtr (s : State) (n : Nat) (k : Die → Die) : (s.onDie n k).freeCtr = s.freeCtr := rfl
@[simp] theorem State.onDie_order (s : State) (n : Nat) (k : Die → Die) : (s.onDie n k).order = s.order := rfl
@[simp] theorem State.onDie_recent (s : State) (n : Nat) (k : Die → Die) : (s.onDie n k).recent = s.recent := rfl
@[simp] theorem State.onDie_contribs (s : State) (n : Nat) (k : Die → Die) : (s.onDie n k).contribs = s.contribs := rfl
@[simp] theorem State.onDie_mem (s : State) (n : Nat) (k : Die → Die) : (s.onDie n k).mem = s.mem := rfl
@[simp] theorem State.onDie_poison (s : State) (n : Nat) (k : Die → Die) : (s.onDie n k).poison = s.poison := rfl
@[simp] theorem State.onDie_lpddr (s : State) (n : Nat) (k : Die → Die) : (s.onDie n k).lpddr = s.lpddr := rfl
@[simp] theorem State.onDie_furrows (s : State) (n : Nat) (k : Die → Die) : (s.onDie n k).furrows = s.furrows := rfl
@[simp] theorem State.onDie_fields (s : State) (n : Nat) (k : Die → Die) : (s.onDie n k).fields = s.fields := rfl
@[simp] theorem State.onDie_cores (s : State) (n : Nat) (k : Die → Die) : (s.onDie n k).cores = s.cores := rfl
@[simp] theorem State.onDie_baseErrs (s : State) (n : Nat) (k : Die → Die) : (s.onDie n k).baseErrs = s.baseErrs := rfl
@[simp] theorem State.onDie_ctxs (s : State) (n : Nat) (k : Die → Die) : (s.onDie n k).ctxs = s.ctxs := rfl
@[simp] theorem State.onDie_commands (s : State) (n : Nat) (k : Die → Die) : (s.onDie n k).commands = s.commands := rfl
@[simp] theorem State.onDie_colls (s : State) (n : Nat) (k : Die → Die) : (s.onDie n k).colls = s.colls := rfl
@[simp] theorem State.onDie_schemes (s : State) (n : Nat) (k : Die → Die) : (s.onDie n k).schemes = s.schemes := rfl
@[simp] theorem State.onDie_sectors (s : State) (n : Nat) (k : Die → Die) : (s.onDie n k).sectors = s.sectors := rfl
@[simp] theorem State.onDie_net (s : State) (n : Nat) (k : Die → Die) : (s.onDie n k).net = s.net := rfl
@[simp] theorem State.onDie_outer (s : State) (n : Nat) (k : Die → Die) : (s.onDie n k).outer = s.outer := rfl
@[simp] theorem State.onDie_upsets (s : State) (n : Nat) (k : Die → Die) : (s.onDie n k).upsets = s.upsets := rfl
@[simp] theorem State.onDie_deferred (s : State) (n : Nat) (k : Die → Die) : (s.onDie n k).deferred = s.deferred := rfl
@[simp] theorem State.onDie_records (s : State) (n : Nat) (k : Die → Die) : (s.onDie n k).records = s.records := rfl
@[simp] theorem State.onDie_vfs (s : State) (n : Nat) (k : Die → Die) : (s.onDie n k).vfs = s.vfs := rfl
@[simp] theorem State.onDie_lds (s : State) (n : Nat) (k : Die → Die) : (s.onDie n k).lds = s.lds := rfl
@[simp] theorem State.onDie_mgmt (s : State) (n : Nat) (k : Die → Die) : (s.onDie n k).mgmt = s.mgmt := rfl
@[simp] theorem State.onDie_quads (s : State) (n : Nat) (k : Die → Die) : (s.onDie n k).quads = s.quads := rfl
@[simp] theorem State.onDie_cohMode (s : State) (n : Nat) (k : Die → Die) : (s.onDie n k).cohMode = s.cohMode := rfl
@[simp] theorem State.onDie_cohNext (s : State) (n : Nat) (k : Die → Die) : (s.onDie n k).cohNext = s.cohNext := rfl
@[simp] theorem State.onDie_accfg (s : State) (n : Nat) (k : Die → Die) : (s.onDie n k).accfg = s.accfg := rfl
@[simp] theorem State.onDie_access (s : State) (n : Nat) (k : Die → Die) : (s.onDie n k).access = s.access := rfl
@[simp] theorem State.onDie_pkg (s : State) (n : Nat) (k : Die → Die) : (s.onDie n k).pkg = s.pkg := rfl
@[simp] theorem State.onDie_pod (s : State) (n : Nat) (k : Die → Die) : (s.onDie n k).pod = s.pod := rfl
@[simp] theorem State.onDie_links (s : State) (n : Nat) (k : Die → Die) : (s.onDie n k).links = s.links := rfl
@[simp] theorem State.onDie_ether (s : State) (n : Nat) (k : Die → Die) : (s.onDie n k).ether = s.ether := rfl
@[simp] theorem State.onDie_fabric (s : State) (n : Nat) (k : Die → Die) : (s.onDie n k).fabric = s.fabric := rfl
@[simp] theorem State.onDie_islands (s : State) (n : Nat) (k : Die → Die) : (s.onDie n k).islands = s.islands := rfl
@[simp] theorem State.onDie_islandTime (s : State) (n : Nat) (k : Die → Die) : (s.onDie n k).islandTime = s.islandTime := rfl
@[simp] theorem State.onDie_firmware (s : State) (n : Nat) (k : Die → Die) : (s.onDie n k).firmware = s.firmware := rfl
@[simp] theorem State.onDie_fwDies (s : State) (n : Nat) (k : Die → Die) : (s.onDie n k).fwDies = s.fwDies := rfl
@[simp] theorem State.onDie_service (s : State) (n : Nat) (k : Die → Die) : (s.onDie n k).service = s.service := rfl
@[simp] theorem State.onDie_fusedMin (s : State) (n : Nat) (k : Die → Die) : (s.onDie n k).fusedMin = s.fusedMin := rfl
@[simp] theorem State.onDie_ready (s : State) (n : Nat) (k : Die → Die) : (s.onDie n k).ready = s.ready := rfl
@[simp] theorem State.onDie_halted (s : State) (n : Nat) (k : Die → Die) : (s.onDie n k).halted = s.halted := rfl
@[simp] theorem State.onDie_powered (s : State) (n : Nat) (k : Die → Die) : (s.onDie n k).powered = s.powered := rfl
@[simp] theorem State.onDie_nextId (s : State) (n : Nat) (k : Die → Die) : (s.onDie n k).nextId = s.nextId := rfl

/-! ### `State.onScheme` -/

@[simp] theorem State.onScheme_cycles (s : State) (n : Nat) (k : Scheme → Scheme) : (s.onScheme n k).cycles = s.cycles := rfl
@[simp] theorem State.onScheme_agenda (s : State) (n : Nat) (k : Scheme → Scheme) : (s.onScheme n k).agenda = s.agenda := rfl
@[simp] theorem State.onScheme_issue (s : State) (n : Nat) (k : Scheme → Scheme) : (s.onScheme n k).issue = s.issue := rfl
@[simp] theorem State.onScheme_freeCtr (s : State) (n : Nat) (k : Scheme → Scheme) : (s.onScheme n k).freeCtr = s.freeCtr := rfl
@[simp] theorem State.onScheme_order (s : State) (n : Nat) (k : Scheme → Scheme) : (s.onScheme n k).order = s.order := rfl
@[simp] theorem State.onScheme_recent (s : State) (n : Nat) (k : Scheme → Scheme) : (s.onScheme n k).recent = s.recent := rfl
@[simp] theorem State.onScheme_contribs (s : State) (n : Nat) (k : Scheme → Scheme) : (s.onScheme n k).contribs = s.contribs := rfl
@[simp] theorem State.onScheme_mem (s : State) (n : Nat) (k : Scheme → Scheme) : (s.onScheme n k).mem = s.mem := rfl
@[simp] theorem State.onScheme_poison (s : State) (n : Nat) (k : Scheme → Scheme) : (s.onScheme n k).poison = s.poison := rfl
@[simp] theorem State.onScheme_lpddr (s : State) (n : Nat) (k : Scheme → Scheme) : (s.onScheme n k).lpddr = s.lpddr := rfl
@[simp] theorem State.onScheme_furrows (s : State) (n : Nat) (k : Scheme → Scheme) : (s.onScheme n k).furrows = s.furrows := rfl
@[simp] theorem State.onScheme_fields (s : State) (n : Nat) (k : Scheme → Scheme) : (s.onScheme n k).fields = s.fields := rfl
@[simp] theorem State.onScheme_cores (s : State) (n : Nat) (k : Scheme → Scheme) : (s.onScheme n k).cores = s.cores := rfl
@[simp] theorem State.onScheme_dies (s : State) (n : Nat) (k : Scheme → Scheme) : (s.onScheme n k).dies = s.dies := rfl
@[simp] theorem State.onScheme_baseErrs (s : State) (n : Nat) (k : Scheme → Scheme) : (s.onScheme n k).baseErrs = s.baseErrs := rfl
@[simp] theorem State.onScheme_ctxs (s : State) (n : Nat) (k : Scheme → Scheme) : (s.onScheme n k).ctxs = s.ctxs := rfl
@[simp] theorem State.onScheme_commands (s : State) (n : Nat) (k : Scheme → Scheme) : (s.onScheme n k).commands = s.commands := rfl
@[simp] theorem State.onScheme_colls (s : State) (n : Nat) (k : Scheme → Scheme) : (s.onScheme n k).colls = s.colls := rfl
@[simp] theorem State.onScheme_sectors (s : State) (n : Nat) (k : Scheme → Scheme) : (s.onScheme n k).sectors = s.sectors := rfl
@[simp] theorem State.onScheme_net (s : State) (n : Nat) (k : Scheme → Scheme) : (s.onScheme n k).net = s.net := rfl
@[simp] theorem State.onScheme_outer (s : State) (n : Nat) (k : Scheme → Scheme) : (s.onScheme n k).outer = s.outer := rfl
@[simp] theorem State.onScheme_upsets (s : State) (n : Nat) (k : Scheme → Scheme) : (s.onScheme n k).upsets = s.upsets := rfl
@[simp] theorem State.onScheme_deferred (s : State) (n : Nat) (k : Scheme → Scheme) : (s.onScheme n k).deferred = s.deferred := rfl
@[simp] theorem State.onScheme_records (s : State) (n : Nat) (k : Scheme → Scheme) : (s.onScheme n k).records = s.records := rfl
@[simp] theorem State.onScheme_vfs (s : State) (n : Nat) (k : Scheme → Scheme) : (s.onScheme n k).vfs = s.vfs := rfl
@[simp] theorem State.onScheme_lds (s : State) (n : Nat) (k : Scheme → Scheme) : (s.onScheme n k).lds = s.lds := rfl
@[simp] theorem State.onScheme_mgmt (s : State) (n : Nat) (k : Scheme → Scheme) : (s.onScheme n k).mgmt = s.mgmt := rfl
@[simp] theorem State.onScheme_quads (s : State) (n : Nat) (k : Scheme → Scheme) : (s.onScheme n k).quads = s.quads := rfl
@[simp] theorem State.onScheme_cohMode (s : State) (n : Nat) (k : Scheme → Scheme) : (s.onScheme n k).cohMode = s.cohMode := rfl
@[simp] theorem State.onScheme_cohNext (s : State) (n : Nat) (k : Scheme → Scheme) : (s.onScheme n k).cohNext = s.cohNext := rfl
@[simp] theorem State.onScheme_accfg (s : State) (n : Nat) (k : Scheme → Scheme) : (s.onScheme n k).accfg = s.accfg := rfl
@[simp] theorem State.onScheme_access (s : State) (n : Nat) (k : Scheme → Scheme) : (s.onScheme n k).access = s.access := rfl
@[simp] theorem State.onScheme_pkg (s : State) (n : Nat) (k : Scheme → Scheme) : (s.onScheme n k).pkg = s.pkg := rfl
@[simp] theorem State.onScheme_pod (s : State) (n : Nat) (k : Scheme → Scheme) : (s.onScheme n k).pod = s.pod := rfl
@[simp] theorem State.onScheme_links (s : State) (n : Nat) (k : Scheme → Scheme) : (s.onScheme n k).links = s.links := rfl
@[simp] theorem State.onScheme_ether (s : State) (n : Nat) (k : Scheme → Scheme) : (s.onScheme n k).ether = s.ether := rfl
@[simp] theorem State.onScheme_fabric (s : State) (n : Nat) (k : Scheme → Scheme) : (s.onScheme n k).fabric = s.fabric := rfl
@[simp] theorem State.onScheme_islands (s : State) (n : Nat) (k : Scheme → Scheme) : (s.onScheme n k).islands = s.islands := rfl
@[simp] theorem State.onScheme_islandTime (s : State) (n : Nat) (k : Scheme → Scheme) : (s.onScheme n k).islandTime = s.islandTime := rfl
@[simp] theorem State.onScheme_firmware (s : State) (n : Nat) (k : Scheme → Scheme) : (s.onScheme n k).firmware = s.firmware := rfl
@[simp] theorem State.onScheme_fwDies (s : State) (n : Nat) (k : Scheme → Scheme) : (s.onScheme n k).fwDies = s.fwDies := rfl
@[simp] theorem State.onScheme_service (s : State) (n : Nat) (k : Scheme → Scheme) : (s.onScheme n k).service = s.service := rfl
@[simp] theorem State.onScheme_fusedMin (s : State) (n : Nat) (k : Scheme → Scheme) : (s.onScheme n k).fusedMin = s.fusedMin := rfl
@[simp] theorem State.onScheme_ready (s : State) (n : Nat) (k : Scheme → Scheme) : (s.onScheme n k).ready = s.ready := rfl
@[simp] theorem State.onScheme_halted (s : State) (n : Nat) (k : Scheme → Scheme) : (s.onScheme n k).halted = s.halted := rfl
@[simp] theorem State.onScheme_powered (s : State) (n : Nat) (k : Scheme → Scheme) : (s.onScheme n k).powered = s.powered := rfl
@[simp] theorem State.onScheme_nextId (s : State) (n : Nat) (k : Scheme → Scheme) : (s.onScheme n k).nextId = s.nextId := rfl

/-! ### `State.onCmd` -/

@[simp] theorem State.onCmd_cycles (s : State) (n : Nat) (k : Command → Command) : (s.onCmd n k).cycles = s.cycles := rfl
@[simp] theorem State.onCmd_agenda (s : State) (n : Nat) (k : Command → Command) : (s.onCmd n k).agenda = s.agenda := rfl
@[simp] theorem State.onCmd_issue (s : State) (n : Nat) (k : Command → Command) : (s.onCmd n k).issue = s.issue := rfl
@[simp] theorem State.onCmd_freeCtr (s : State) (n : Nat) (k : Command → Command) : (s.onCmd n k).freeCtr = s.freeCtr := rfl
@[simp] theorem State.onCmd_order (s : State) (n : Nat) (k : Command → Command) : (s.onCmd n k).order = s.order := rfl
@[simp] theorem State.onCmd_recent (s : State) (n : Nat) (k : Command → Command) : (s.onCmd n k).recent = s.recent := rfl
@[simp] theorem State.onCmd_contribs (s : State) (n : Nat) (k : Command → Command) : (s.onCmd n k).contribs = s.contribs := rfl
@[simp] theorem State.onCmd_mem (s : State) (n : Nat) (k : Command → Command) : (s.onCmd n k).mem = s.mem := rfl
@[simp] theorem State.onCmd_poison (s : State) (n : Nat) (k : Command → Command) : (s.onCmd n k).poison = s.poison := rfl
@[simp] theorem State.onCmd_lpddr (s : State) (n : Nat) (k : Command → Command) : (s.onCmd n k).lpddr = s.lpddr := rfl
@[simp] theorem State.onCmd_furrows (s : State) (n : Nat) (k : Command → Command) : (s.onCmd n k).furrows = s.furrows := rfl
@[simp] theorem State.onCmd_fields (s : State) (n : Nat) (k : Command → Command) : (s.onCmd n k).fields = s.fields := rfl
@[simp] theorem State.onCmd_cores (s : State) (n : Nat) (k : Command → Command) : (s.onCmd n k).cores = s.cores := rfl
@[simp] theorem State.onCmd_dies (s : State) (n : Nat) (k : Command → Command) : (s.onCmd n k).dies = s.dies := rfl
@[simp] theorem State.onCmd_baseErrs (s : State) (n : Nat) (k : Command → Command) : (s.onCmd n k).baseErrs = s.baseErrs := rfl
@[simp] theorem State.onCmd_ctxs (s : State) (n : Nat) (k : Command → Command) : (s.onCmd n k).ctxs = s.ctxs := rfl
@[simp] theorem State.onCmd_colls (s : State) (n : Nat) (k : Command → Command) : (s.onCmd n k).colls = s.colls := rfl
@[simp] theorem State.onCmd_schemes (s : State) (n : Nat) (k : Command → Command) : (s.onCmd n k).schemes = s.schemes := rfl
@[simp] theorem State.onCmd_sectors (s : State) (n : Nat) (k : Command → Command) : (s.onCmd n k).sectors = s.sectors := rfl
@[simp] theorem State.onCmd_net (s : State) (n : Nat) (k : Command → Command) : (s.onCmd n k).net = s.net := rfl
@[simp] theorem State.onCmd_outer (s : State) (n : Nat) (k : Command → Command) : (s.onCmd n k).outer = s.outer := rfl
@[simp] theorem State.onCmd_upsets (s : State) (n : Nat) (k : Command → Command) : (s.onCmd n k).upsets = s.upsets := rfl
@[simp] theorem State.onCmd_deferred (s : State) (n : Nat) (k : Command → Command) : (s.onCmd n k).deferred = s.deferred := rfl
@[simp] theorem State.onCmd_records (s : State) (n : Nat) (k : Command → Command) : (s.onCmd n k).records = s.records := rfl
@[simp] theorem State.onCmd_vfs (s : State) (n : Nat) (k : Command → Command) : (s.onCmd n k).vfs = s.vfs := rfl
@[simp] theorem State.onCmd_lds (s : State) (n : Nat) (k : Command → Command) : (s.onCmd n k).lds = s.lds := rfl
@[simp] theorem State.onCmd_mgmt (s : State) (n : Nat) (k : Command → Command) : (s.onCmd n k).mgmt = s.mgmt := rfl
@[simp] theorem State.onCmd_quads (s : State) (n : Nat) (k : Command → Command) : (s.onCmd n k).quads = s.quads := rfl
@[simp] theorem State.onCmd_cohMode (s : State) (n : Nat) (k : Command → Command) : (s.onCmd n k).cohMode = s.cohMode := rfl
@[simp] theorem State.onCmd_cohNext (s : State) (n : Nat) (k : Command → Command) : (s.onCmd n k).cohNext = s.cohNext := rfl
@[simp] theorem State.onCmd_accfg (s : State) (n : Nat) (k : Command → Command) : (s.onCmd n k).accfg = s.accfg := rfl
@[simp] theorem State.onCmd_access (s : State) (n : Nat) (k : Command → Command) : (s.onCmd n k).access = s.access := rfl
@[simp] theorem State.onCmd_pkg (s : State) (n : Nat) (k : Command → Command) : (s.onCmd n k).pkg = s.pkg := rfl
@[simp] theorem State.onCmd_pod (s : State) (n : Nat) (k : Command → Command) : (s.onCmd n k).pod = s.pod := rfl
@[simp] theorem State.onCmd_links (s : State) (n : Nat) (k : Command → Command) : (s.onCmd n k).links = s.links := rfl
@[simp] theorem State.onCmd_ether (s : State) (n : Nat) (k : Command → Command) : (s.onCmd n k).ether = s.ether := rfl
@[simp] theorem State.onCmd_fabric (s : State) (n : Nat) (k : Command → Command) : (s.onCmd n k).fabric = s.fabric := rfl
@[simp] theorem State.onCmd_islands (s : State) (n : Nat) (k : Command → Command) : (s.onCmd n k).islands = s.islands := rfl
@[simp] theorem State.onCmd_islandTime (s : State) (n : Nat) (k : Command → Command) : (s.onCmd n k).islandTime = s.islandTime := rfl
@[simp] theorem State.onCmd_firmware (s : State) (n : Nat) (k : Command → Command) : (s.onCmd n k).firmware = s.firmware := rfl
@[simp] theorem State.onCmd_fwDies (s : State) (n : Nat) (k : Command → Command) : (s.onCmd n k).fwDies = s.fwDies := rfl
@[simp] theorem State.onCmd_service (s : State) (n : Nat) (k : Command → Command) : (s.onCmd n k).service = s.service := rfl
@[simp] theorem State.onCmd_fusedMin (s : State) (n : Nat) (k : Command → Command) : (s.onCmd n k).fusedMin = s.fusedMin := rfl
@[simp] theorem State.onCmd_ready (s : State) (n : Nat) (k : Command → Command) : (s.onCmd n k).ready = s.ready := rfl
@[simp] theorem State.onCmd_halted (s : State) (n : Nat) (k : Command → Command) : (s.onCmd n k).halted = s.halted := rfl
@[simp] theorem State.onCmd_powered (s : State) (n : Nat) (k : Command → Command) : (s.onCmd n k).powered = s.powered := rfl
@[simp] theorem State.onCmd_nextId (s : State) (n : Nat) (k : Command → Command) : (s.onCmd n k).nextId = s.nextId := rfl

/-! ### `State.onColl` -/

@[simp] theorem State.onColl_cycles (s : State) (n : Nat) (k : Collective → Collective) : (s.onColl n k).cycles = s.cycles := rfl
@[simp] theorem State.onColl_agenda (s : State) (n : Nat) (k : Collective → Collective) : (s.onColl n k).agenda = s.agenda := rfl
@[simp] theorem State.onColl_issue (s : State) (n : Nat) (k : Collective → Collective) : (s.onColl n k).issue = s.issue := rfl
@[simp] theorem State.onColl_freeCtr (s : State) (n : Nat) (k : Collective → Collective) : (s.onColl n k).freeCtr = s.freeCtr := rfl
@[simp] theorem State.onColl_order (s : State) (n : Nat) (k : Collective → Collective) : (s.onColl n k).order = s.order := rfl
@[simp] theorem State.onColl_recent (s : State) (n : Nat) (k : Collective → Collective) : (s.onColl n k).recent = s.recent := rfl
@[simp] theorem State.onColl_contribs (s : State) (n : Nat) (k : Collective → Collective) : (s.onColl n k).contribs = s.contribs := rfl
@[simp] theorem State.onColl_mem (s : State) (n : Nat) (k : Collective → Collective) : (s.onColl n k).mem = s.mem := rfl
@[simp] theorem State.onColl_poison (s : State) (n : Nat) (k : Collective → Collective) : (s.onColl n k).poison = s.poison := rfl
@[simp] theorem State.onColl_lpddr (s : State) (n : Nat) (k : Collective → Collective) : (s.onColl n k).lpddr = s.lpddr := rfl
@[simp] theorem State.onColl_furrows (s : State) (n : Nat) (k : Collective → Collective) : (s.onColl n k).furrows = s.furrows := rfl
@[simp] theorem State.onColl_fields (s : State) (n : Nat) (k : Collective → Collective) : (s.onColl n k).fields = s.fields := rfl
@[simp] theorem State.onColl_cores (s : State) (n : Nat) (k : Collective → Collective) : (s.onColl n k).cores = s.cores := rfl
@[simp] theorem State.onColl_dies (s : State) (n : Nat) (k : Collective → Collective) : (s.onColl n k).dies = s.dies := rfl
@[simp] theorem State.onColl_baseErrs (s : State) (n : Nat) (k : Collective → Collective) : (s.onColl n k).baseErrs = s.baseErrs := rfl
@[simp] theorem State.onColl_ctxs (s : State) (n : Nat) (k : Collective → Collective) : (s.onColl n k).ctxs = s.ctxs := rfl
@[simp] theorem State.onColl_commands (s : State) (n : Nat) (k : Collective → Collective) : (s.onColl n k).commands = s.commands := rfl
@[simp] theorem State.onColl_schemes (s : State) (n : Nat) (k : Collective → Collective) : (s.onColl n k).schemes = s.schemes := rfl
@[simp] theorem State.onColl_sectors (s : State) (n : Nat) (k : Collective → Collective) : (s.onColl n k).sectors = s.sectors := rfl
@[simp] theorem State.onColl_net (s : State) (n : Nat) (k : Collective → Collective) : (s.onColl n k).net = s.net := rfl
@[simp] theorem State.onColl_outer (s : State) (n : Nat) (k : Collective → Collective) : (s.onColl n k).outer = s.outer := rfl
@[simp] theorem State.onColl_upsets (s : State) (n : Nat) (k : Collective → Collective) : (s.onColl n k).upsets = s.upsets := rfl
@[simp] theorem State.onColl_deferred (s : State) (n : Nat) (k : Collective → Collective) : (s.onColl n k).deferred = s.deferred := rfl
@[simp] theorem State.onColl_records (s : State) (n : Nat) (k : Collective → Collective) : (s.onColl n k).records = s.records := rfl
@[simp] theorem State.onColl_vfs (s : State) (n : Nat) (k : Collective → Collective) : (s.onColl n k).vfs = s.vfs := rfl
@[simp] theorem State.onColl_lds (s : State) (n : Nat) (k : Collective → Collective) : (s.onColl n k).lds = s.lds := rfl
@[simp] theorem State.onColl_mgmt (s : State) (n : Nat) (k : Collective → Collective) : (s.onColl n k).mgmt = s.mgmt := rfl
@[simp] theorem State.onColl_quads (s : State) (n : Nat) (k : Collective → Collective) : (s.onColl n k).quads = s.quads := rfl
@[simp] theorem State.onColl_cohMode (s : State) (n : Nat) (k : Collective → Collective) : (s.onColl n k).cohMode = s.cohMode := rfl
@[simp] theorem State.onColl_cohNext (s : State) (n : Nat) (k : Collective → Collective) : (s.onColl n k).cohNext = s.cohNext := rfl
@[simp] theorem State.onColl_accfg (s : State) (n : Nat) (k : Collective → Collective) : (s.onColl n k).accfg = s.accfg := rfl
@[simp] theorem State.onColl_access (s : State) (n : Nat) (k : Collective → Collective) : (s.onColl n k).access = s.access := rfl
@[simp] theorem State.onColl_pkg (s : State) (n : Nat) (k : Collective → Collective) : (s.onColl n k).pkg = s.pkg := rfl
@[simp] theorem State.onColl_pod (s : State) (n : Nat) (k : Collective → Collective) : (s.onColl n k).pod = s.pod := rfl
@[simp] theorem State.onColl_links (s : State) (n : Nat) (k : Collective → Collective) : (s.onColl n k).links = s.links := rfl
@[simp] theorem State.onColl_ether (s : State) (n : Nat) (k : Collective → Collective) : (s.onColl n k).ether = s.ether := rfl
@[simp] theorem State.onColl_fabric (s : State) (n : Nat) (k : Collective → Collective) : (s.onColl n k).fabric = s.fabric := rfl
@[simp] theorem State.onColl_islands (s : State) (n : Nat) (k : Collective → Collective) : (s.onColl n k).islands = s.islands := rfl
@[simp] theorem State.onColl_islandTime (s : State) (n : Nat) (k : Collective → Collective) : (s.onColl n k).islandTime = s.islandTime := rfl
@[simp] theorem State.onColl_firmware (s : State) (n : Nat) (k : Collective → Collective) : (s.onColl n k).firmware = s.firmware := rfl
@[simp] theorem State.onColl_fwDies (s : State) (n : Nat) (k : Collective → Collective) : (s.onColl n k).fwDies = s.fwDies := rfl
@[simp] theorem State.onColl_service (s : State) (n : Nat) (k : Collective → Collective) : (s.onColl n k).service = s.service := rfl
@[simp] theorem State.onColl_fusedMin (s : State) (n : Nat) (k : Collective → Collective) : (s.onColl n k).fusedMin = s.fusedMin := rfl
@[simp] theorem State.onColl_ready (s : State) (n : Nat) (k : Collective → Collective) : (s.onColl n k).ready = s.ready := rfl
@[simp] theorem State.onColl_halted (s : State) (n : Nat) (k : Collective → Collective) : (s.onColl n k).halted = s.halted := rfl
@[simp] theorem State.onColl_powered (s : State) (n : Nat) (k : Collective → Collective) : (s.onColl n k).powered = s.powered := rfl
@[simp] theorem State.onColl_nextId (s : State) (n : Nat) (k : Collective → Collective) : (s.onColl n k).nextId = s.nextId := rfl

/-! ### `State.onVf` -/

@[simp] theorem State.onVf_cycles (s : State) (n : Nat) (k : Vf → Vf) : (s.onVf n k).cycles = s.cycles := rfl
@[simp] theorem State.onVf_agenda (s : State) (n : Nat) (k : Vf → Vf) : (s.onVf n k).agenda = s.agenda := rfl
@[simp] theorem State.onVf_issue (s : State) (n : Nat) (k : Vf → Vf) : (s.onVf n k).issue = s.issue := rfl
@[simp] theorem State.onVf_freeCtr (s : State) (n : Nat) (k : Vf → Vf) : (s.onVf n k).freeCtr = s.freeCtr := rfl
@[simp] theorem State.onVf_order (s : State) (n : Nat) (k : Vf → Vf) : (s.onVf n k).order = s.order := rfl
@[simp] theorem State.onVf_recent (s : State) (n : Nat) (k : Vf → Vf) : (s.onVf n k).recent = s.recent := rfl
@[simp] theorem State.onVf_contribs (s : State) (n : Nat) (k : Vf → Vf) : (s.onVf n k).contribs = s.contribs := rfl
@[simp] theorem State.onVf_mem (s : State) (n : Nat) (k : Vf → Vf) : (s.onVf n k).mem = s.mem := rfl
@[simp] theorem State.onVf_poison (s : State) (n : Nat) (k : Vf → Vf) : (s.onVf n k).poison = s.poison := rfl
@[simp] theorem State.onVf_lpddr (s : State) (n : Nat) (k : Vf → Vf) : (s.onVf n k).lpddr = s.lpddr := rfl
@[simp] theorem State.onVf_furrows (s : State) (n : Nat) (k : Vf → Vf) : (s.onVf n k).furrows = s.furrows := rfl
@[simp] theorem State.onVf_fields (s : State) (n : Nat) (k : Vf → Vf) : (s.onVf n k).fields = s.fields := rfl
@[simp] theorem State.onVf_cores (s : State) (n : Nat) (k : Vf → Vf) : (s.onVf n k).cores = s.cores := rfl
@[simp] theorem State.onVf_dies (s : State) (n : Nat) (k : Vf → Vf) : (s.onVf n k).dies = s.dies := rfl
@[simp] theorem State.onVf_baseErrs (s : State) (n : Nat) (k : Vf → Vf) : (s.onVf n k).baseErrs = s.baseErrs := rfl
@[simp] theorem State.onVf_ctxs (s : State) (n : Nat) (k : Vf → Vf) : (s.onVf n k).ctxs = s.ctxs := rfl
@[simp] theorem State.onVf_commands (s : State) (n : Nat) (k : Vf → Vf) : (s.onVf n k).commands = s.commands := rfl
@[simp] theorem State.onVf_colls (s : State) (n : Nat) (k : Vf → Vf) : (s.onVf n k).colls = s.colls := rfl
@[simp] theorem State.onVf_schemes (s : State) (n : Nat) (k : Vf → Vf) : (s.onVf n k).schemes = s.schemes := rfl
@[simp] theorem State.onVf_sectors (s : State) (n : Nat) (k : Vf → Vf) : (s.onVf n k).sectors = s.sectors := rfl
@[simp] theorem State.onVf_net (s : State) (n : Nat) (k : Vf → Vf) : (s.onVf n k).net = s.net := rfl
@[simp] theorem State.onVf_outer (s : State) (n : Nat) (k : Vf → Vf) : (s.onVf n k).outer = s.outer := rfl
@[simp] theorem State.onVf_upsets (s : State) (n : Nat) (k : Vf → Vf) : (s.onVf n k).upsets = s.upsets := rfl
@[simp] theorem State.onVf_deferred (s : State) (n : Nat) (k : Vf → Vf) : (s.onVf n k).deferred = s.deferred := rfl
@[simp] theorem State.onVf_records (s : State) (n : Nat) (k : Vf → Vf) : (s.onVf n k).records = s.records := rfl
@[simp] theorem State.onVf_lds (s : State) (n : Nat) (k : Vf → Vf) : (s.onVf n k).lds = s.lds := rfl
@[simp] theorem State.onVf_mgmt (s : State) (n : Nat) (k : Vf → Vf) : (s.onVf n k).mgmt = s.mgmt := rfl
@[simp] theorem State.onVf_quads (s : State) (n : Nat) (k : Vf → Vf) : (s.onVf n k).quads = s.quads := rfl
@[simp] theorem State.onVf_cohMode (s : State) (n : Nat) (k : Vf → Vf) : (s.onVf n k).cohMode = s.cohMode := rfl
@[simp] theorem State.onVf_cohNext (s : State) (n : Nat) (k : Vf → Vf) : (s.onVf n k).cohNext = s.cohNext := rfl
@[simp] theorem State.onVf_accfg (s : State) (n : Nat) (k : Vf → Vf) : (s.onVf n k).accfg = s.accfg := rfl
@[simp] theorem State.onVf_access (s : State) (n : Nat) (k : Vf → Vf) : (s.onVf n k).access = s.access := rfl
@[simp] theorem State.onVf_pkg (s : State) (n : Nat) (k : Vf → Vf) : (s.onVf n k).pkg = s.pkg := rfl
@[simp] theorem State.onVf_pod (s : State) (n : Nat) (k : Vf → Vf) : (s.onVf n k).pod = s.pod := rfl
@[simp] theorem State.onVf_links (s : State) (n : Nat) (k : Vf → Vf) : (s.onVf n k).links = s.links := rfl
@[simp] theorem State.onVf_ether (s : State) (n : Nat) (k : Vf → Vf) : (s.onVf n k).ether = s.ether := rfl
@[simp] theorem State.onVf_fabric (s : State) (n : Nat) (k : Vf → Vf) : (s.onVf n k).fabric = s.fabric := rfl
@[simp] theorem State.onVf_islands (s : State) (n : Nat) (k : Vf → Vf) : (s.onVf n k).islands = s.islands := rfl
@[simp] theorem State.onVf_islandTime (s : State) (n : Nat) (k : Vf → Vf) : (s.onVf n k).islandTime = s.islandTime := rfl
@[simp] theorem State.onVf_firmware (s : State) (n : Nat) (k : Vf → Vf) : (s.onVf n k).firmware = s.firmware := rfl
@[simp] theorem State.onVf_fwDies (s : State) (n : Nat) (k : Vf → Vf) : (s.onVf n k).fwDies = s.fwDies := rfl
@[simp] theorem State.onVf_service (s : State) (n : Nat) (k : Vf → Vf) : (s.onVf n k).service = s.service := rfl
@[simp] theorem State.onVf_fusedMin (s : State) (n : Nat) (k : Vf → Vf) : (s.onVf n k).fusedMin = s.fusedMin := rfl
@[simp] theorem State.onVf_ready (s : State) (n : Nat) (k : Vf → Vf) : (s.onVf n k).ready = s.ready := rfl
@[simp] theorem State.onVf_halted (s : State) (n : Nat) (k : Vf → Vf) : (s.onVf n k).halted = s.halted := rfl
@[simp] theorem State.onVf_powered (s : State) (n : Nat) (k : Vf → Vf) : (s.onVf n k).powered = s.powered := rfl
@[simp] theorem State.onVf_nextId (s : State) (n : Nat) (k : Vf → Vf) : (s.onVf n k).nextId = s.nextId := rfl

/-! ### `State.onLd` -/

@[simp] theorem State.onLd_cycles (s : State) (n : Nat) (k : Ld → Ld) : (s.onLd n k).cycles = s.cycles := rfl
@[simp] theorem State.onLd_agenda (s : State) (n : Nat) (k : Ld → Ld) : (s.onLd n k).agenda = s.agenda := rfl
@[simp] theorem State.onLd_issue (s : State) (n : Nat) (k : Ld → Ld) : (s.onLd n k).issue = s.issue := rfl
@[simp] theorem State.onLd_freeCtr (s : State) (n : Nat) (k : Ld → Ld) : (s.onLd n k).freeCtr = s.freeCtr := rfl
@[simp] theorem State.onLd_order (s : State) (n : Nat) (k : Ld → Ld) : (s.onLd n k).order = s.order := rfl
@[simp] theorem State.onLd_recent (s : State) (n : Nat) (k : Ld → Ld) : (s.onLd n k).recent = s.recent := rfl
@[simp] theorem State.onLd_contribs (s : State) (n : Nat) (k : Ld → Ld) : (s.onLd n k).contribs = s.contribs := rfl
@[simp] theorem State.onLd_mem (s : State) (n : Nat) (k : Ld → Ld) : (s.onLd n k).mem = s.mem := rfl
@[simp] theorem State.onLd_poison (s : State) (n : Nat) (k : Ld → Ld) : (s.onLd n k).poison = s.poison := rfl
@[simp] theorem State.onLd_lpddr (s : State) (n : Nat) (k : Ld → Ld) : (s.onLd n k).lpddr = s.lpddr := rfl
@[simp] theorem State.onLd_furrows (s : State) (n : Nat) (k : Ld → Ld) : (s.onLd n k).furrows = s.furrows := rfl
@[simp] theorem State.onLd_fields (s : State) (n : Nat) (k : Ld → Ld) : (s.onLd n k).fields = s.fields := rfl
@[simp] theorem State.onLd_cores (s : State) (n : Nat) (k : Ld → Ld) : (s.onLd n k).cores = s.cores := rfl
@[simp] theorem State.onLd_dies (s : State) (n : Nat) (k : Ld → Ld) : (s.onLd n k).dies = s.dies := rfl
@[simp] theorem State.onLd_baseErrs (s : State) (n : Nat) (k : Ld → Ld) : (s.onLd n k).baseErrs = s.baseErrs := rfl
@[simp] theorem State.onLd_ctxs (s : State) (n : Nat) (k : Ld → Ld) : (s.onLd n k).ctxs = s.ctxs := rfl
@[simp] theorem State.onLd_commands (s : State) (n : Nat) (k : Ld → Ld) : (s.onLd n k).commands = s.commands := rfl
@[simp] theorem State.onLd_colls (s : State) (n : Nat) (k : Ld → Ld) : (s.onLd n k).colls = s.colls := rfl
@[simp] theorem State.onLd_schemes (s : State) (n : Nat) (k : Ld → Ld) : (s.onLd n k).schemes = s.schemes := rfl
@[simp] theorem State.onLd_sectors (s : State) (n : Nat) (k : Ld → Ld) : (s.onLd n k).sectors = s.sectors := rfl
@[simp] theorem State.onLd_net (s : State) (n : Nat) (k : Ld → Ld) : (s.onLd n k).net = s.net := rfl
@[simp] theorem State.onLd_outer (s : State) (n : Nat) (k : Ld → Ld) : (s.onLd n k).outer = s.outer := rfl
@[simp] theorem State.onLd_upsets (s : State) (n : Nat) (k : Ld → Ld) : (s.onLd n k).upsets = s.upsets := rfl
@[simp] theorem State.onLd_deferred (s : State) (n : Nat) (k : Ld → Ld) : (s.onLd n k).deferred = s.deferred := rfl
@[simp] theorem State.onLd_records (s : State) (n : Nat) (k : Ld → Ld) : (s.onLd n k).records = s.records := rfl
@[simp] theorem State.onLd_vfs (s : State) (n : Nat) (k : Ld → Ld) : (s.onLd n k).vfs = s.vfs := rfl
@[simp] theorem State.onLd_mgmt (s : State) (n : Nat) (k : Ld → Ld) : (s.onLd n k).mgmt = s.mgmt := rfl
@[simp] theorem State.onLd_quads (s : State) (n : Nat) (k : Ld → Ld) : (s.onLd n k).quads = s.quads := rfl
@[simp] theorem State.onLd_cohMode (s : State) (n : Nat) (k : Ld → Ld) : (s.onLd n k).cohMode = s.cohMode := rfl
@[simp] theorem State.onLd_cohNext (s : State) (n : Nat) (k : Ld → Ld) : (s.onLd n k).cohNext = s.cohNext := rfl
@[simp] theorem State.onLd_accfg (s : State) (n : Nat) (k : Ld → Ld) : (s.onLd n k).accfg = s.accfg := rfl
@[simp] theorem State.onLd_access (s : State) (n : Nat) (k : Ld → Ld) : (s.onLd n k).access = s.access := rfl
@[simp] theorem State.onLd_pkg (s : State) (n : Nat) (k : Ld → Ld) : (s.onLd n k).pkg = s.pkg := rfl
@[simp] theorem State.onLd_pod (s : State) (n : Nat) (k : Ld → Ld) : (s.onLd n k).pod = s.pod := rfl
@[simp] theorem State.onLd_links (s : State) (n : Nat) (k : Ld → Ld) : (s.onLd n k).links = s.links := rfl
@[simp] theorem State.onLd_ether (s : State) (n : Nat) (k : Ld → Ld) : (s.onLd n k).ether = s.ether := rfl
@[simp] theorem State.onLd_fabric (s : State) (n : Nat) (k : Ld → Ld) : (s.onLd n k).fabric = s.fabric := rfl
@[simp] theorem State.onLd_islands (s : State) (n : Nat) (k : Ld → Ld) : (s.onLd n k).islands = s.islands := rfl
@[simp] theorem State.onLd_islandTime (s : State) (n : Nat) (k : Ld → Ld) : (s.onLd n k).islandTime = s.islandTime := rfl
@[simp] theorem State.onLd_firmware (s : State) (n : Nat) (k : Ld → Ld) : (s.onLd n k).firmware = s.firmware := rfl
@[simp] theorem State.onLd_fwDies (s : State) (n : Nat) (k : Ld → Ld) : (s.onLd n k).fwDies = s.fwDies := rfl
@[simp] theorem State.onLd_service (s : State) (n : Nat) (k : Ld → Ld) : (s.onLd n k).service = s.service := rfl
@[simp] theorem State.onLd_fusedMin (s : State) (n : Nat) (k : Ld → Ld) : (s.onLd n k).fusedMin = s.fusedMin := rfl
@[simp] theorem State.onLd_ready (s : State) (n : Nat) (k : Ld → Ld) : (s.onLd n k).ready = s.ready := rfl
@[simp] theorem State.onLd_halted (s : State) (n : Nat) (k : Ld → Ld) : (s.onLd n k).halted = s.halted := rfl
@[simp] theorem State.onLd_powered (s : State) (n : Nat) (k : Ld → Ld) : (s.onLd n k).powered = s.powered := rfl
@[simp] theorem State.onLd_nextId (s : State) (n : Nat) (k : Ld → Ld) : (s.onLd n k).nextId = s.nextId := rfl

/-! ### `State.onQuad` -/

@[simp] theorem State.onQuad_cycles (s : State) (n : Nat) (k : Quad → Quad) : (s.onQuad n k).cycles = s.cycles := rfl
@[simp] theorem State.onQuad_agenda (s : State) (n : Nat) (k : Quad → Quad) : (s.onQuad n k).agenda = s.agenda := rfl
@[simp] theorem State.onQuad_issue (s : State) (n : Nat) (k : Quad → Quad) : (s.onQuad n k).issue = s.issue := rfl
@[simp] theorem State.onQuad_freeCtr (s : State) (n : Nat) (k : Quad → Quad) : (s.onQuad n k).freeCtr = s.freeCtr := rfl
@[simp] theorem State.onQuad_order (s : State) (n : Nat) (k : Quad → Quad) : (s.onQuad n k).order = s.order := rfl
@[simp] theorem State.onQuad_recent (s : State) (n : Nat) (k : Quad → Quad) : (s.onQuad n k).recent = s.recent := rfl
@[simp] theorem State.onQuad_contribs (s : State) (n : Nat) (k : Quad → Quad) : (s.onQuad n k).contribs = s.contribs := rfl
@[simp] theorem State.onQuad_mem (s : State) (n : Nat) (k : Quad → Quad) : (s.onQuad n k).mem = s.mem := rfl
@[simp] theorem State.onQuad_poison (s : State) (n : Nat) (k : Quad → Quad) : (s.onQuad n k).poison = s.poison := rfl
@[simp] theorem State.onQuad_lpddr (s : State) (n : Nat) (k : Quad → Quad) : (s.onQuad n k).lpddr = s.lpddr := rfl
@[simp] theorem State.onQuad_furrows (s : State) (n : Nat) (k : Quad → Quad) : (s.onQuad n k).furrows = s.furrows := rfl
@[simp] theorem State.onQuad_fields (s : State) (n : Nat) (k : Quad → Quad) : (s.onQuad n k).fields = s.fields := rfl
@[simp] theorem State.onQuad_cores (s : State) (n : Nat) (k : Quad → Quad) : (s.onQuad n k).cores = s.cores := rfl
@[simp] theorem State.onQuad_dies (s : State) (n : Nat) (k : Quad → Quad) : (s.onQuad n k).dies = s.dies := rfl
@[simp] theorem State.onQuad_baseErrs (s : State) (n : Nat) (k : Quad → Quad) : (s.onQuad n k).baseErrs = s.baseErrs := rfl
@[simp] theorem State.onQuad_ctxs (s : State) (n : Nat) (k : Quad → Quad) : (s.onQuad n k).ctxs = s.ctxs := rfl
@[simp] theorem State.onQuad_commands (s : State) (n : Nat) (k : Quad → Quad) : (s.onQuad n k).commands = s.commands := rfl
@[simp] theorem State.onQuad_colls (s : State) (n : Nat) (k : Quad → Quad) : (s.onQuad n k).colls = s.colls := rfl
@[simp] theorem State.onQuad_schemes (s : State) (n : Nat) (k : Quad → Quad) : (s.onQuad n k).schemes = s.schemes := rfl
@[simp] theorem State.onQuad_sectors (s : State) (n : Nat) (k : Quad → Quad) : (s.onQuad n k).sectors = s.sectors := rfl
@[simp] theorem State.onQuad_net (s : State) (n : Nat) (k : Quad → Quad) : (s.onQuad n k).net = s.net := rfl
@[simp] theorem State.onQuad_outer (s : State) (n : Nat) (k : Quad → Quad) : (s.onQuad n k).outer = s.outer := rfl
@[simp] theorem State.onQuad_upsets (s : State) (n : Nat) (k : Quad → Quad) : (s.onQuad n k).upsets = s.upsets := rfl
@[simp] theorem State.onQuad_deferred (s : State) (n : Nat) (k : Quad → Quad) : (s.onQuad n k).deferred = s.deferred := rfl
@[simp] theorem State.onQuad_records (s : State) (n : Nat) (k : Quad → Quad) : (s.onQuad n k).records = s.records := rfl
@[simp] theorem State.onQuad_vfs (s : State) (n : Nat) (k : Quad → Quad) : (s.onQuad n k).vfs = s.vfs := rfl
@[simp] theorem State.onQuad_lds (s : State) (n : Nat) (k : Quad → Quad) : (s.onQuad n k).lds = s.lds := rfl
@[simp] theorem State.onQuad_mgmt (s : State) (n : Nat) (k : Quad → Quad) : (s.onQuad n k).mgmt = s.mgmt := rfl
@[simp] theorem State.onQuad_cohMode (s : State) (n : Nat) (k : Quad → Quad) : (s.onQuad n k).cohMode = s.cohMode := rfl
@[simp] theorem State.onQuad_cohNext (s : State) (n : Nat) (k : Quad → Quad) : (s.onQuad n k).cohNext = s.cohNext := rfl
@[simp] theorem State.onQuad_accfg (s : State) (n : Nat) (k : Quad → Quad) : (s.onQuad n k).accfg = s.accfg := rfl
@[simp] theorem State.onQuad_access (s : State) (n : Nat) (k : Quad → Quad) : (s.onQuad n k).access = s.access := rfl
@[simp] theorem State.onQuad_pkg (s : State) (n : Nat) (k : Quad → Quad) : (s.onQuad n k).pkg = s.pkg := rfl
@[simp] theorem State.onQuad_pod (s : State) (n : Nat) (k : Quad → Quad) : (s.onQuad n k).pod = s.pod := rfl
@[simp] theorem State.onQuad_links (s : State) (n : Nat) (k : Quad → Quad) : (s.onQuad n k).links = s.links := rfl
@[simp] theorem State.onQuad_ether (s : State) (n : Nat) (k : Quad → Quad) : (s.onQuad n k).ether = s.ether := rfl
@[simp] theorem State.onQuad_fabric (s : State) (n : Nat) (k : Quad → Quad) : (s.onQuad n k).fabric = s.fabric := rfl
@[simp] theorem State.onQuad_islands (s : State) (n : Nat) (k : Quad → Quad) : (s.onQuad n k).islands = s.islands := rfl
@[simp] theorem State.onQuad_islandTime (s : State) (n : Nat) (k : Quad → Quad) : (s.onQuad n k).islandTime = s.islandTime := rfl
@[simp] theorem State.onQuad_firmware (s : State) (n : Nat) (k : Quad → Quad) : (s.onQuad n k).firmware = s.firmware := rfl
@[simp] theorem State.onQuad_fwDies (s : State) (n : Nat) (k : Quad → Quad) : (s.onQuad n k).fwDies = s.fwDies := rfl
@[simp] theorem State.onQuad_service (s : State) (n : Nat) (k : Quad → Quad) : (s.onQuad n k).service = s.service := rfl
@[simp] theorem State.onQuad_fusedMin (s : State) (n : Nat) (k : Quad → Quad) : (s.onQuad n k).fusedMin = s.fusedMin := rfl
@[simp] theorem State.onQuad_ready (s : State) (n : Nat) (k : Quad → Quad) : (s.onQuad n k).ready = s.ready := rfl
@[simp] theorem State.onQuad_halted (s : State) (n : Nat) (k : Quad → Quad) : (s.onQuad n k).halted = s.halted := rfl
@[simp] theorem State.onQuad_powered (s : State) (n : Nat) (k : Quad → Quad) : (s.onQuad n k).powered = s.powered := rfl
@[simp] theorem State.onQuad_nextId (s : State) (n : Nat) (k : Quad → Quad) : (s.onQuad n k).nextId = s.nextId := rfl

/-! ### `State.tickFree` -/

@[simp] theorem State.tickFree_cycles (s : State) : (s.tickFree).cycles = s.cycles := rfl
@[simp] theorem State.tickFree_agenda (s : State) : (s.tickFree).agenda = s.agenda := rfl
@[simp] theorem State.tickFree_issue (s : State) : (s.tickFree).issue = s.issue := rfl
@[simp] theorem State.tickFree_order (s : State) : (s.tickFree).order = s.order := rfl
@[simp] theorem State.tickFree_recent (s : State) : (s.tickFree).recent = s.recent := rfl
@[simp] theorem State.tickFree_contribs (s : State) : (s.tickFree).contribs = s.contribs := rfl
@[simp] theorem State.tickFree_mem (s : State) : (s.tickFree).mem = s.mem := rfl
@[simp] theorem State.tickFree_poison (s : State) : (s.tickFree).poison = s.poison := rfl
@[simp] theorem State.tickFree_lpddr (s : State) : (s.tickFree).lpddr = s.lpddr := rfl
@[simp] theorem State.tickFree_furrows (s : State) : (s.tickFree).furrows = s.furrows := rfl
@[simp] theorem State.tickFree_fields (s : State) : (s.tickFree).fields = s.fields := rfl
@[simp] theorem State.tickFree_cores (s : State) : (s.tickFree).cores = s.cores := rfl
@[simp] theorem State.tickFree_dies (s : State) : (s.tickFree).dies = s.dies := rfl
@[simp] theorem State.tickFree_baseErrs (s : State) : (s.tickFree).baseErrs = s.baseErrs := rfl
@[simp] theorem State.tickFree_ctxs (s : State) : (s.tickFree).ctxs = s.ctxs := rfl
@[simp] theorem State.tickFree_commands (s : State) : (s.tickFree).commands = s.commands := rfl
@[simp] theorem State.tickFree_colls (s : State) : (s.tickFree).colls = s.colls := rfl
@[simp] theorem State.tickFree_schemes (s : State) : (s.tickFree).schemes = s.schemes := rfl
@[simp] theorem State.tickFree_sectors (s : State) : (s.tickFree).sectors = s.sectors := rfl
@[simp] theorem State.tickFree_net (s : State) : (s.tickFree).net = s.net := rfl
@[simp] theorem State.tickFree_outer (s : State) : (s.tickFree).outer = s.outer := rfl
@[simp] theorem State.tickFree_upsets (s : State) : (s.tickFree).upsets = s.upsets := rfl
@[simp] theorem State.tickFree_deferred (s : State) : (s.tickFree).deferred = s.deferred := rfl
@[simp] theorem State.tickFree_records (s : State) : (s.tickFree).records = s.records := rfl
@[simp] theorem State.tickFree_vfs (s : State) : (s.tickFree).vfs = s.vfs := rfl
@[simp] theorem State.tickFree_lds (s : State) : (s.tickFree).lds = s.lds := rfl
@[simp] theorem State.tickFree_mgmt (s : State) : (s.tickFree).mgmt = s.mgmt := rfl
@[simp] theorem State.tickFree_quads (s : State) : (s.tickFree).quads = s.quads := rfl
@[simp] theorem State.tickFree_cohMode (s : State) : (s.tickFree).cohMode = s.cohMode := rfl
@[simp] theorem State.tickFree_cohNext (s : State) : (s.tickFree).cohNext = s.cohNext := rfl
@[simp] theorem State.tickFree_accfg (s : State) : (s.tickFree).accfg = s.accfg := rfl
@[simp] theorem State.tickFree_access (s : State) : (s.tickFree).access = s.access := rfl
@[simp] theorem State.tickFree_pkg (s : State) : (s.tickFree).pkg = s.pkg := rfl
@[simp] theorem State.tickFree_pod (s : State) : (s.tickFree).pod = s.pod := rfl
@[simp] theorem State.tickFree_links (s : State) : (s.tickFree).links = s.links := rfl
@[simp] theorem State.tickFree_ether (s : State) : (s.tickFree).ether = s.ether := rfl
@[simp] theorem State.tickFree_fabric (s : State) : (s.tickFree).fabric = s.fabric := rfl
@[simp] theorem State.tickFree_islands (s : State) : (s.tickFree).islands = s.islands := rfl
@[simp] theorem State.tickFree_islandTime (s : State) : (s.tickFree).islandTime = s.islandTime := rfl
@[simp] theorem State.tickFree_firmware (s : State) : (s.tickFree).firmware = s.firmware := rfl
@[simp] theorem State.tickFree_fwDies (s : State) : (s.tickFree).fwDies = s.fwDies := rfl
@[simp] theorem State.tickFree_service (s : State) : (s.tickFree).service = s.service := rfl
@[simp] theorem State.tickFree_fusedMin (s : State) : (s.tickFree).fusedMin = s.fusedMin := rfl
@[simp] theorem State.tickFree_ready (s : State) : (s.tickFree).ready = s.ready := rfl
@[simp] theorem State.tickFree_halted (s : State) : (s.tickFree).halted = s.halted := rfl
@[simp] theorem State.tickFree_powered (s : State) : (s.tickFree).powered = s.powered := rfl
@[simp] theorem State.tickFree_nextId (s : State) : (s.tickFree).nextId = s.nextId := rfl

/-! ### `State.writeBytes` -/

@[simp] theorem State.writeBytes_cycles (s : State) (pa : Nat) (bs : List Byte) : (s.writeBytes pa bs).cycles = s.cycles := rfl
@[simp] theorem State.writeBytes_agenda (s : State) (pa : Nat) (bs : List Byte) : (s.writeBytes pa bs).agenda = s.agenda := rfl
@[simp] theorem State.writeBytes_issue (s : State) (pa : Nat) (bs : List Byte) : (s.writeBytes pa bs).issue = s.issue := rfl
@[simp] theorem State.writeBytes_freeCtr (s : State) (pa : Nat) (bs : List Byte) : (s.writeBytes pa bs).freeCtr = s.freeCtr := rfl
@[simp] theorem State.writeBytes_order (s : State) (pa : Nat) (bs : List Byte) : (s.writeBytes pa bs).order = s.order := rfl
@[simp] theorem State.writeBytes_recent (s : State) (pa : Nat) (bs : List Byte) : (s.writeBytes pa bs).recent = s.recent := rfl
@[simp] theorem State.writeBytes_contribs (s : State) (pa : Nat) (bs : List Byte) : (s.writeBytes pa bs).contribs = s.contribs := rfl
@[simp] theorem State.writeBytes_lpddr (s : State) (pa : Nat) (bs : List Byte) : (s.writeBytes pa bs).lpddr = s.lpddr := rfl
@[simp] theorem State.writeBytes_furrows (s : State) (pa : Nat) (bs : List Byte) : (s.writeBytes pa bs).furrows = s.furrows := rfl
@[simp] theorem State.writeBytes_fields (s : State) (pa : Nat) (bs : List Byte) : (s.writeBytes pa bs).fields = s.fields := rfl
@[simp] theorem State.writeBytes_cores (s : State) (pa : Nat) (bs : List Byte) : (s.writeBytes pa bs).cores = s.cores := rfl
@[simp] theorem State.writeBytes_dies (s : State) (pa : Nat) (bs : List Byte) : (s.writeBytes pa bs).dies = s.dies := rfl
@[simp] theorem State.writeBytes_baseErrs (s : State) (pa : Nat) (bs : List Byte) : (s.writeBytes pa bs).baseErrs = s.baseErrs := rfl
@[simp] theorem State.writeBytes_ctxs (s : State) (pa : Nat) (bs : List Byte) : (s.writeBytes pa bs).ctxs = s.ctxs := rfl
@[simp] theorem State.writeBytes_commands (s : State) (pa : Nat) (bs : List Byte) : (s.writeBytes pa bs).commands = s.commands := rfl
@[simp] theorem State.writeBytes_colls (s : State) (pa : Nat) (bs : List Byte) : (s.writeBytes pa bs).colls = s.colls := rfl
@[simp] theorem State.writeBytes_schemes (s : State) (pa : Nat) (bs : List Byte) : (s.writeBytes pa bs).schemes = s.schemes := rfl
@[simp] theorem State.writeBytes_sectors (s : State) (pa : Nat) (bs : List Byte) : (s.writeBytes pa bs).sectors = s.sectors := rfl
@[simp] theorem State.writeBytes_net (s : State) (pa : Nat) (bs : List Byte) : (s.writeBytes pa bs).net = s.net := rfl
@[simp] theorem State.writeBytes_outer (s : State) (pa : Nat) (bs : List Byte) : (s.writeBytes pa bs).outer = s.outer := rfl
@[simp] theorem State.writeBytes_upsets (s : State) (pa : Nat) (bs : List Byte) : (s.writeBytes pa bs).upsets = s.upsets := rfl
@[simp] theorem State.writeBytes_deferred (s : State) (pa : Nat) (bs : List Byte) : (s.writeBytes pa bs).deferred = s.deferred := rfl
@[simp] theorem State.writeBytes_records (s : State) (pa : Nat) (bs : List Byte) : (s.writeBytes pa bs).records = s.records := rfl
@[simp] theorem State.writeBytes_vfs (s : State) (pa : Nat) (bs : List Byte) : (s.writeBytes pa bs).vfs = s.vfs := rfl
@[simp] theorem State.writeBytes_lds (s : State) (pa : Nat) (bs : List Byte) : (s.writeBytes pa bs).lds = s.lds := rfl
@[simp] theorem State.writeBytes_mgmt (s : State) (pa : Nat) (bs : List Byte) : (s.writeBytes pa bs).mgmt = s.mgmt := rfl
@[simp] theorem State.writeBytes_quads (s : State) (pa : Nat) (bs : List Byte) : (s.writeBytes pa bs).quads = s.quads := rfl
@[simp] theorem State.writeBytes_cohMode (s : State) (pa : Nat) (bs : List Byte) : (s.writeBytes pa bs).cohMode = s.cohMode := rfl
@[simp] theorem State.writeBytes_cohNext (s : State) (pa : Nat) (bs : List Byte) : (s.writeBytes pa bs).cohNext = s.cohNext := rfl
@[simp] theorem State.writeBytes_accfg (s : State) (pa : Nat) (bs : List Byte) : (s.writeBytes pa bs).accfg = s.accfg := rfl
@[simp] theorem State.writeBytes_access (s : State) (pa : Nat) (bs : List Byte) : (s.writeBytes pa bs).access = s.access := rfl
@[simp] theorem State.writeBytes_pkg (s : State) (pa : Nat) (bs : List Byte) : (s.writeBytes pa bs).pkg = s.pkg := rfl
@[simp] theorem State.writeBytes_pod (s : State) (pa : Nat) (bs : List Byte) : (s.writeBytes pa bs).pod = s.pod := rfl
@[simp] theorem State.writeBytes_links (s : State) (pa : Nat) (bs : List Byte) : (s.writeBytes pa bs).links = s.links := rfl
@[simp] theorem State.writeBytes_ether (s : State) (pa : Nat) (bs : List Byte) : (s.writeBytes pa bs).ether = s.ether := rfl
@[simp] theorem State.writeBytes_fabric (s : State) (pa : Nat) (bs : List Byte) : (s.writeBytes pa bs).fabric = s.fabric := rfl
@[simp] theorem State.writeBytes_islands (s : State) (pa : Nat) (bs : List Byte) : (s.writeBytes pa bs).islands = s.islands := rfl
@[simp] theorem State.writeBytes_islandTime (s : State) (pa : Nat) (bs : List Byte) : (s.writeBytes pa bs).islandTime = s.islandTime := rfl
@[simp] theorem State.writeBytes_firmware (s : State) (pa : Nat) (bs : List Byte) : (s.writeBytes pa bs).firmware = s.firmware := rfl
@[simp] theorem State.writeBytes_fwDies (s : State) (pa : Nat) (bs : List Byte) : (s.writeBytes pa bs).fwDies = s.fwDies := rfl
@[simp] theorem State.writeBytes_service (s : State) (pa : Nat) (bs : List Byte) : (s.writeBytes pa bs).service = s.service := rfl
@[simp] theorem State.writeBytes_fusedMin (s : State) (pa : Nat) (bs : List Byte) : (s.writeBytes pa bs).fusedMin = s.fusedMin := rfl
@[simp] theorem State.writeBytes_ready (s : State) (pa : Nat) (bs : List Byte) : (s.writeBytes pa bs).ready = s.ready := rfl
@[simp] theorem State.writeBytes_halted (s : State) (pa : Nat) (bs : List Byte) : (s.writeBytes pa bs).halted = s.halted := rfl
@[simp] theorem State.writeBytes_powered (s : State) (pa : Nat) (bs : List Byte) : (s.writeBytes pa bs).powered = s.powered := rfl
@[simp] theorem State.writeBytes_nextId (s : State) (pa : Nat) (bs : List Byte) : (s.writeBytes pa bs).nextId = s.nextId := rfl

/-! ### `State.poisonSector` -/

@[simp] theorem State.poisonSector_cycles (s : State) (pa : Nat) : (s.poisonSector pa).cycles = s.cycles := by rw [State.poisonSector]
@[simp] theorem State.poisonSector_agenda (s : State) (pa : Nat) : (s.poisonSector pa).agenda = s.agenda := by rw [State.poisonSector]
@[simp] theorem State.poisonSector_issue (s : State) (pa : Nat) : (s.poisonSector pa).issue = s.issue := by rw [State.poisonSector]
@[simp] theorem State.poisonSector_freeCtr (s : State) (pa : Nat) : (s.poisonSector pa).freeCtr = s.freeCtr := by rw [State.poisonSector]
@[simp] theorem State.poisonSector_order (s : State) (pa : Nat) : (s.poisonSector pa).order = s.order := by rw [State.poisonSector]
@[simp] theorem State.poisonSector_recent (s : State) (pa : Nat) : (s.poisonSector pa).recent = s.recent := by rw [State.poisonSector]
@[simp] theorem State.poisonSector_contribs (s : State) (pa : Nat) : (s.poisonSector pa).contribs = s.contribs := by rw [State.poisonSector]
@[simp] theorem State.poisonSector_mem (s : State) (pa : Nat) : (s.poisonSector pa).mem = s.mem := by rw [State.poisonSector]
@[simp] theorem State.poisonSector_lpddr (s : State) (pa : Nat) : (s.poisonSector pa).lpddr = s.lpddr := by rw [State.poisonSector]
@[simp] theorem State.poisonSector_furrows (s : State) (pa : Nat) : (s.poisonSector pa).furrows = s.furrows := by rw [State.poisonSector]
@[simp] theorem State.poisonSector_fields (s : State) (pa : Nat) : (s.poisonSector pa).fields = s.fields := by rw [State.poisonSector]
@[simp] theorem State.poisonSector_cores (s : State) (pa : Nat) : (s.poisonSector pa).cores = s.cores := by rw [State.poisonSector]
@[simp] theorem State.poisonSector_dies (s : State) (pa : Nat) : (s.poisonSector pa).dies = s.dies := by rw [State.poisonSector]
@[simp] theorem State.poisonSector_baseErrs (s : State) (pa : Nat) : (s.poisonSector pa).baseErrs = s.baseErrs := by rw [State.poisonSector]
@[simp] theorem State.poisonSector_ctxs (s : State) (pa : Nat) : (s.poisonSector pa).ctxs = s.ctxs := by rw [State.poisonSector]
@[simp] theorem State.poisonSector_commands (s : State) (pa : Nat) : (s.poisonSector pa).commands = s.commands := by rw [State.poisonSector]
@[simp] theorem State.poisonSector_colls (s : State) (pa : Nat) : (s.poisonSector pa).colls = s.colls := by rw [State.poisonSector]
@[simp] theorem State.poisonSector_schemes (s : State) (pa : Nat) : (s.poisonSector pa).schemes = s.schemes := by rw [State.poisonSector]
@[simp] theorem State.poisonSector_sectors (s : State) (pa : Nat) : (s.poisonSector pa).sectors = s.sectors := by rw [State.poisonSector]
@[simp] theorem State.poisonSector_net (s : State) (pa : Nat) : (s.poisonSector pa).net = s.net := by rw [State.poisonSector]
@[simp] theorem State.poisonSector_outer (s : State) (pa : Nat) : (s.poisonSector pa).outer = s.outer := by rw [State.poisonSector]
@[simp] theorem State.poisonSector_upsets (s : State) (pa : Nat) : (s.poisonSector pa).upsets = s.upsets := by rw [State.poisonSector]
@[simp] theorem State.poisonSector_deferred (s : State) (pa : Nat) : (s.poisonSector pa).deferred = s.deferred := by rw [State.poisonSector]
@[simp] theorem State.poisonSector_records (s : State) (pa : Nat) : (s.poisonSector pa).records = s.records := by rw [State.poisonSector]
@[simp] theorem State.poisonSector_vfs (s : State) (pa : Nat) : (s.poisonSector pa).vfs = s.vfs := by rw [State.poisonSector]
@[simp] theorem State.poisonSector_lds (s : State) (pa : Nat) : (s.poisonSector pa).lds = s.lds := by rw [State.poisonSector]
@[simp] theorem State.poisonSector_mgmt (s : State) (pa : Nat) : (s.poisonSector pa).mgmt = s.mgmt := by rw [State.poisonSector]
@[simp] theorem State.poisonSector_quads (s : State) (pa : Nat) : (s.poisonSector pa).quads = s.quads := by rw [State.poisonSector]
@[simp] theorem State.poisonSector_cohMode (s : State) (pa : Nat) : (s.poisonSector pa).cohMode = s.cohMode := by rw [State.poisonSector]
@[simp] theorem State.poisonSector_cohNext (s : State) (pa : Nat) : (s.poisonSector pa).cohNext = s.cohNext := by rw [State.poisonSector]
@[simp] theorem State.poisonSector_accfg (s : State) (pa : Nat) : (s.poisonSector pa).accfg = s.accfg := by rw [State.poisonSector]
@[simp] theorem State.poisonSector_access (s : State) (pa : Nat) : (s.poisonSector pa).access = s.access := by rw [State.poisonSector]
@[simp] theorem State.poisonSector_pkg (s : State) (pa : Nat) : (s.poisonSector pa).pkg = s.pkg := by rw [State.poisonSector]
@[simp] theorem State.poisonSector_pod (s : State) (pa : Nat) : (s.poisonSector pa).pod = s.pod := by rw [State.poisonSector]
@[simp] theorem State.poisonSector_links (s : State) (pa : Nat) : (s.poisonSector pa).links = s.links := by rw [State.poisonSector]
@[simp] theorem State.poisonSector_ether (s : State) (pa : Nat) : (s.poisonSector pa).ether = s.ether := by rw [State.poisonSector]
@[simp] theorem State.poisonSector_fabric (s : State) (pa : Nat) : (s.poisonSector pa).fabric = s.fabric := by rw [State.poisonSector]
@[simp] theorem State.poisonSector_islands (s : State) (pa : Nat) : (s.poisonSector pa).islands = s.islands := by rw [State.poisonSector]
@[simp] theorem State.poisonSector_islandTime (s : State) (pa : Nat) : (s.poisonSector pa).islandTime = s.islandTime := by rw [State.poisonSector]
@[simp] theorem State.poisonSector_firmware (s : State) (pa : Nat) : (s.poisonSector pa).firmware = s.firmware := by rw [State.poisonSector]
@[simp] theorem State.poisonSector_fwDies (s : State) (pa : Nat) : (s.poisonSector pa).fwDies = s.fwDies := by rw [State.poisonSector]
@[simp] theorem State.poisonSector_service (s : State) (pa : Nat) : (s.poisonSector pa).service = s.service := by rw [State.poisonSector]
@[simp] theorem State.poisonSector_fusedMin (s : State) (pa : Nat) : (s.poisonSector pa).fusedMin = s.fusedMin := by rw [State.poisonSector]
@[simp] theorem State.poisonSector_ready (s : State) (pa : Nat) : (s.poisonSector pa).ready = s.ready := by rw [State.poisonSector]
@[simp] theorem State.poisonSector_halted (s : State) (pa : Nat) : (s.poisonSector pa).halted = s.halted := by rw [State.poisonSector]
@[simp] theorem State.poisonSector_powered (s : State) (pa : Nat) : (s.poisonSector pa).powered = s.powered := by rw [State.poisonSector]
@[simp] theorem State.poisonSector_nextId (s : State) (pa : Nat) : (s.poisonSector pa).nextId = s.nextId := by rw [State.poisonSector]

end Sys2Proof.Machine
end

