-- ==== Sys2Proof/Laws/Furrows.lean ====
section
/-! SUPPORT. What the updates that an instruction ends with leave of every furrow: the look-ups after an update, and the updates that are quiet,
that is, that change neither a register nor a PC. -/
namespace Sys2Proof.Machine

/-! ### Look-ups after an update -/

theorem find?_map_key {α : Type} (p : α → Bool) (k : α → α) (hk : ∀ x, p (k x) = p x) (l : List α) :
    (l.map k).find? p = (l.find? p).map k := by
  induction l with
  | nil => rfl
  | cons x xs ih => simp only [List.map_cons, List.find?_cons, hk]; cases p x <;> simp [ih]

/-- A furrow's place is where it was looked up. -/
theorem State.furrow?_place {s : State} {c n : Nat} {f : Furrow} (h : s.furrow? c n = some f) : f.core = c ∧ f.slot = n := by
  simpa [State.furrow?] using List.find?_some h

/-- Furrows changed in place, each kept where it was. -/
theorem State.furrow?_map (s : State) (k : Furrow → Furrow) (hk : ∀ f, (k f).core = f.core ∧ (k f).slot = f.slot) (c n : Nat) :
    ({ s with furrows := s.furrows.map k } : State).furrow? c n = (s.furrow? c n).map k := by
  refine find?_map_key _ _ (fun f => ?_) _
  simp [hk f]

theorem State.furrow?_onFurrow (s : State) (c n : Nat) (k : Furrow → Furrow) (hk : ∀ f, (k f).core = f.core ∧ (k f).slot = f.slot) (c' n' : Nat) :
    (s.onFurrow c n k).furrow? c' n' = (s.furrow? c' n').map (fun f => if f.core == c && f.slot == n then k f else f) :=
  s.furrow?_map _ (fun f => by split <;> simp [hk f]) c' n'

theorem State.furrow?_setFurrow (s : State) (f : Furrow) (c n : Nat) :
    (s.setFurrow f).furrow? c n = (s.furrow? c n).map (fun g => if g.core == f.core && g.slot == f.slot then f else g) :=
  s.furrow?_map _ (fun g => by
    by_cases h : (g.core == f.core && g.slot == f.slot) = true
    · simp only [Bool.and_eq_true, beq_iff_eq] at h; simp [h]
    · simp [h]) c n

/-- The PC of a group of the furrow in a slot. -/
def State.pcOf? (s : State) (c n : Nat) (m : Mask) : Option (BitVec 24) := (s.furrow? c n).bind (fun f => f.pcOf m)

/-! ### Quiet updates -/

/-- The same registers and PCs, and nothing of the state changed but furrows, cores and the issue register. -/
structure Quiet (u t : State) : Prop where
  regs : ∀ c n, t.regs? c n = u.regs? c n
  pcs : ∀ c n m, t.pcOf? c n m = u.pcOf? c n m
  rest : t = { u with furrows := t.furrows, cores := t.cores, issue := t.issue }

theorem Quiet.refl (s : State) : Quiet s s := ⟨fun _ _ => rfl, fun _ _ _ => rfl, rfl⟩

theorem Quiet.trans {a b c : State} (h1 : Quiet a b) (h2 : Quiet b c) : Quiet a c where
  regs := fun x y => (h2.regs x y).trans (h1.regs x y)
  pcs := fun x y m => (h2.pcs x y m).trans (h1.pcs x y m)
  rest := by rw [h2.rest, h1.rest]

/-- A change of a furrow that keeps its place, registers and PCs. -/
structure KeepsFurrow (k : Furrow → Furrow) : Prop where
  core : ∀ f, (k f).core = f.core
  slot : ∀ f, (k f).slot = f.slot
  regs : ∀ f, (k f).regs = f.regs
  pcs : ∀ f m, (k f).pcOf m = f.pcOf m

theorem KeepsFurrow.guard {k : Furrow → Furrow} (h : KeepsFurrow k) (t : Furrow → Bool) : KeepsFurrow (fun f => if t f then k f else f) where
  core := fun f => by split <;> simp [h.core]
  slot := fun f => by split <;> simp [h.slot]
  regs := fun f => by split <;> simp [h.regs]
  pcs := fun f m => by split <;> simp [h.pcs]

theorem quiet_map (s : State) {k : Furrow → Furrow} (h : KeepsFurrow k) : Quiet s { s with furrows := s.furrows.map k } where
  regs := fun c n => by
    rw [State.regs?, State.furrow?_map s k (fun f => ⟨h.core f, h.slot f⟩), State.regs?]
    cases s.furrow? c n <;> simp [h.regs]
  pcs := fun c n m => by
    rw [State.pcOf?, State.furrow?_map s k (fun f => ⟨h.core f, h.slot f⟩), State.pcOf?]
    cases s.furrow? c n <;> simp [h.pcs]
  rest := rfl

theorem quiet_onFurrow (s : State) (c n : Nat) {k : Furrow → Furrow} (h : KeepsFurrow k) : Quiet s (s.onFurrow c n k) :=
  quiet_map s (h.guard (fun f => f.core == c && f.slot == n))

theorem quiet_onCore (s : State) (c : Nat) (k : Core → Core) : Quiet s (s.onCore c k) := ⟨fun _ _ => rfl, fun _ _ _ => rfl, rfl⟩

theorem quiet_issue (s : State) (q : Option Issue) : Quiet s { s with issue := q } := ⟨fun _ _ => rfl, fun _ _ _ => rfl, rfl⟩

/-! ### Pool entries -/

/-- A change of groups that keeps lanes, levels and PCs. -/
theorem pcOf_groups (f : Furrow) (k : Group → Group) (hk : ∀ g, (k g).lanes = g.lanes ∧ (k g).level = g.level ∧ (k g).pc = g.pc) (m : Mask) :
    ({ f with groups := f.groups.map k } : Furrow).pcOf m = f.pcOf m := by
  unfold Furrow.pcOf Furrow.group?
  rw [find?_map_key _ k (fun g => by simp [hk g])]
  cases List.find? _ f.groups <;> simp [hk]

theorem keeps_groups (k : Furrow → Group → Group) (hk : ∀ f g, (k f g).lanes = g.lanes ∧ (k f g).level = g.level ∧ (k f g).pc = g.pc) :
    KeepsFurrow (fun f => { f with groups := f.groups.map (k f) }) :=
  ⟨fun _ => rfl, fun _ => rfl, fun _ => rfl, fun f m => pcOf_groups f (k f) (hk f) m⟩

theorem keeps_activate (g : Group) : KeepsFurrow (fun f => f.activate g) :=
  keeps_groups (fun _ h => if h.level == g.level && h.lanes == g.lanes then { h with active := true } else h)
    (fun _ h => by split <;> simp)

theorem keeps_ownEntry : KeepsFurrow Furrow.ownEntry := by
  have key : ∀ f : Furrow, f.ownEntry = f ∨ ∃ g, f.ownEntry = f.activate g := fun f => by
    unfold Furrow.ownEntry
    split
    · exact .inl rfl
    · split
      · exact .inr ⟨_, rfl⟩
      · exact .inl rfl
  refine ⟨fun f => ?_, fun f => ?_, fun f => ?_, fun f m => ?_⟩ <;> obtain h | ⟨g, h⟩ := key f <;> rw [h]
  · exact (keeps_activate g).core f
  · exact (keeps_activate g).slot f
  · exact (keeps_activate g).regs f
  · exact (keeps_activate g).pcs f m

theorem quiet_handoutFree (c q : Nat) (n : Nat) : ∀ s : State, Quiet s (State.handoutFree c q n s) := by
  induction n with
  | zero => exact fun s => Quiet.refl s
  | succ n ih =>
    intro s
    unfold State.handoutFree
    dsimp only
    split
    · exact (quiet_onFurrow s c _ (keeps_activate _)).trans (ih _)
    · exact Quiet.refl s

/-- Giving out pool entries changes no register and no PC. -/
theorem quiet_handout (s : State) (c q : Nat) : Quiet s (s.handout c q) :=
  (quiet_map s (keeps_ownEntry.guard (fun f => f.core == c && quarterOf f.slot == q))).trans (quiet_handoutFree c q _ _)

/-- Entries of the reuse tables leaving them change no register. -/
theorem quiet_purgeReuse (s : State) (c q : Nat) : Quiet s (s.purgeReuse c q) := quiet_onCore s c _

end Sys2Proof.Machine
end

