-- ==== Sys2Proof/Laws/Complete.lean ====
section
/-! SUPPORT. What an instruction that completes leaves: the law of `State.stepOver`, and from it those of `State.done` and `State.skip`, on which
every completion statement rests. -/
namespace Sys2Proof.Machine

/-! ### The issuing furrow through the end of an instruction -/

/-- What a quiet update keeps of the furrow in a slot. -/
theorem Quiet.own {u t : State} (h : Quiet u t) {c n : Nat} {f : Furrow} (hf : u.furrow? c n = some f) {m : Mask} {x : BitVec 24}
    (hx : f.pcOf m = some x) : ∃ f', t.furrow? c n = some f' ∧ f'.regs = f.regs ∧ f'.pcOf m = some x := by
  have h1 := h.regs c n
  have h2 := h.pcs c n m
  simp only [State.regs?, State.pcOf?, hf, Option.map_some, Option.bind_some, hx] at h1 h2
  cases ht : t.furrow? c n with
  | none => simp [ht] at h1
  | some f' => exact ⟨f', rfl, by simpa [ht] using h1, by simpa [ht] using h2⟩

/-- An entry of a per-lane table. -/
theorem laneAt_tableOf {α : Type} (k : Nat → α) {i : Nat} (h : i < 32) : laneAt (tableOf k) i = k i := by
  simp only [laneAt, tableOf]
  have e : (Fin.ofNat 32 i).val = i := Nat.mod_eq_of_lt h
  exact (Vector.getElem_ofFn _).trans (congrArg k e)

/-- Tables are equal when their 32 entries are. -/
theorem tableOf_congr {α : Type} {k l : Nat → α} (h : ∀ i, i < 32 → k i = l i) : tableOf k = tableOf l :=
  congrArg Vector.ofFn (funext fun i => h i.val i.isLt)

/-- DSKIP is not seen in the registers. -/
theorem Furrow.regs_dskip (f : Furrow) (m : Mask) : (f.onLanes m (fun _ l => { l with dskip := false })).regs = f.regs := by
  unfold Furrow.regs Furrow.onLanes
  simp only [Regs.mk.injEq, true_and]
  refine tableOf_congr (fun i hi => ?_)
  rw [laneAt_tableOf _ hi]
  split <;> rfl

/-- A group found by its lanes is running and holds them. -/
theorem Furrow.group?_some {f : Furrow} {m : Mask} {g : Group} (h : f.group? m = some g) : g ∈ f.groups ∧ g.level = f.level ∧ g.lanes = m := by
  have h1 := List.find?_some h
  exact ⟨List.mem_of_find?_eq_some h, by simpa using h1⟩

/-- A changed element of a list that the test of the change finds. -/
theorem find?_mapIf {α : Type} (p : α → Bool) (k : α → α) (hk : ∀ x, p (k x) = p x) (l : List α) :
    (mapIf l p k).find? p = (l.find? p).map k := by
  induction l with
  | nil => rfl
  | cons x xs ih =>
    rw [show mapIf (x :: xs) p k = (if p x then k x else x) :: mapIf xs p k from rfl, List.find?_cons, List.find?_cons]
    cases hx : p x
    · simp only [Bool.false_eq_true, if_false, hx]; exact ih
    · simp only [if_true, hk, hx, Option.map_some]

/-- The PC of the group changed. -/
theorem Furrow.pcOf_onGroup {f : Furrow} {m : Mask} {g : Group} (h : f.group? m = some g) (k : Group → Group)
    (hk : ∀ g, (k g).lanes = g.lanes ∧ (k g).level = g.level) : (f.onGroup m k).pcOf m = some (k g).pc := by
  have e : (f.onGroup m k).group? m = (f.group? m).map k :=
    find?_mapIf (fun x : Group => x.level == f.level && x.lanes == m) k (fun x => by rw [(hk x).1, (hk x).2]) f.groups
  rw [Furrow.pcOf, e, h]
  rfl

/-- Groups and level alone say which group runs. -/
theorem Furrow.group?_congr {f f' : Furrow} (hg : f'.groups = f.groups) (hl : f'.level = f.level) (x : Mask) : f'.group? x = f.group? x := by
  unfold Furrow.group?; rw [hg, hl]

theorem Furrow.pcOf_congr {f f' : Furrow} (hg : f'.groups = f.groups) (hl : f'.level = f.level) (x : Mask) : f'.pcOf x = f.pcOf x := by
  unfold Furrow.pcOf; rw [Furrow.group?_congr hg hl]

theorem Furrow.groups_onGroup_ne {f : Furrow} (m : Mask) (k : Group → Group) (h : f.groups ≠ []) : (f.onGroup m k).groups ≠ [] := by
  simpa [Furrow.onGroup, mapIf] using h

/-! ### The end of an issue -/

theorem State.reap_running {s : State} {c n : Nat} {f : Furrow} (h : s.furrow? c n = some f) (hg : f.groups ≠ []) (he : f.ending = false) :
    s.reap c n = s := by
  unfold State.reap
  simp [h, hg, he]

theorem quiet_endIssue (s : State) (q : Issue) (h : q.deferred = none) (hb : q.back = none) : Quiet s (s.endIssue q) := by
  unfold State.endIssue State.nextInSlot
  simp only [hb, h]
  split
  · exact quiet_issue s _
  · exact quiet_issue s none

/-- A step mark at the end of a chain of lanes m: done when the stepped chain was among them. -/
def stepMark (stepping : Bool) (m : Mask) (o : Option (Nat × BitVec 32 × Bool)) : Option (Nat × BitVec 32 × Bool) :=
  match o with
  | some (n, x, done) => some (n, x, done || (stepping && x &&& m != 0))
  | none => none

theorem Furrow.regs_step (f : Furrow) (x : Option (Nat × BitVec 32 × Bool)) : ({ f with step := x } : Furrow).regs = f.regs := rfl

/-- A change of the middle-of-chain mark of a group. -/
theorem keeps_midChain (m : Mask) (b : Bool) : KeepsFurrow (fun f => f.onGroup m (fun g => { g with midChain := b })) := by
  refine ⟨fun _ => rfl, fun _ => rfl, fun _ => rfl, fun f x => ?_⟩
  exact pcOf_groups f (fun g => if g.level == f.level && g.lanes == m then { g with midChain := b } else g) (fun g => by split <;> simp) x

/-- The chain of some lanes over. -/
theorem keeps_chainOver (m : Mask) : KeepsFurrow (fun f => f.chainOver m) :=
  keeps_groups (fun f g => if g.level = f.level ∧ g.lanes &&& ~~~m = 0 then { g with midChain := false } else g) (fun _ g => by split <;> simp)

/-- DSKIP of some lanes ends, and the step mark moves on. -/
def laneEnd (stepping : Bool) (step : Option (Nat × BitVec 32 × Bool)) (m : Mask) (f : Furrow) : Furrow :=
  { f.onLanes m (fun _ l => { l with dskip := false }) with step := stepMark stepping m step }

/-- The furrow at the end of a chain of lanes m. -/
def chainEnd (m : Mask) (f : Furrow) : Furrow := laneEnd f.stepping f.step m (f.chainOver m)

theorem keeps_chainEnd (m : Mask) : KeepsFurrow (chainEnd m) where
  core := fun f => by simp only [chainEnd, laneEnd, Furrow.onLanes]; exact (keeps_chainOver m).core f
  slot := fun f => by simp only [chainEnd, laneEnd, Furrow.onLanes]; exact (keeps_chainOver m).slot f
  regs := fun f => (Furrow.regs_step _ _).trans (((f.chainOver m).regs_dskip m).trans ((keeps_chainOver m).regs f))
  pcs := fun f x => (Furrow.pcOf_congr (by simp only [chainEnd, laneEnd, Furrow.onLanes]) (by simp only [chainEnd, laneEnd, Furrow.onLanes]) x).trans
    ((keeps_chainOver m).pcs f x)

/-- What the end of a chain leaves of the run. -/
theorem chainEnd_run (m : Mask) (f : Furrow) :
    (chainEnd m f).step = stepMark f.stepping m f.step ∧ (chainEnd m f).ending = f.ending ∧ (f.groups ≠ [] → (chainEnd m f).groups ≠ []) := by
  refine ⟨rfl, by simp only [chainEnd, laneEnd, Furrow.onLanes]; rfl, fun h => ?_⟩
  simp only [chainEnd, laneEnd, Furrow.onLanes, Furrow.chainOver]
  simpa using h

theorem State.endChain_eq (s : State) (q : Issue) (m : Mask) :
    s.endChain q m =
      (let s1 := s.onFurrow q.core q.slot (chainEnd m)
       let s2 := if q.back.isNone then s1.settleStep q.core q.slot else s1
       ((s2.reap q.core q.slot).handout q.core (quarterOf q.slot)).endIssue q) := rfl

/-- A furrow looked up after its change. -/
theorem State.furrow?_onFurrow_self {s : State} {c n : Nat} {f : Furrow} (h : s.furrow? c n = some f) (k : Furrow → Furrow)
    (hk : ∀ f, (k f).core = f.core ∧ (k f).slot = f.slot) : (s.onFurrow c n k).furrow? c n = some (k f) := by
  have hp := State.furrow?_place h
  rw [State.furrow?_onFurrow s c n k hk, h, Option.map_some, hp.1, hp.2]
  rw [beq_self_eq_true, beq_self_eq_true]
  rfl

/-- A furrow looked up after a change of another. -/
theorem State.furrow?_onFurrow_ne {s : State} {c n : Nat} (k : Furrow → Furrow) (hk : ∀ f, (k f).core = f.core ∧ (k f).slot = f.slot)
    {c' n' : Nat} (hne : c' ≠ c ∨ n' ≠ n) : (s.onFurrow c n k).furrow? c' n' = s.furrow? c' n' := by
  rw [State.furrow?_onFurrow s c n k hk]
  cases hx : s.furrow? c' n' with
  | none => rfl
  | some x =>
    have hp := State.furrow?_place hx
    rw [Option.map_some, hp.1, hp.2]
    have : (c' == c && n' == n) = false := by
      rcases hne with h | h <;> simp [h]
    rw [this]
    rfl

/-- The chain's end leaves registers and PCs when no stepped return is under way. -/
theorem quiet_endChain (s : State) (q : Issue) (m : Mask) {f : Furrow} (hf : s.furrow? q.core q.slot = some f) (hg : f.groups ≠ [])
    (hs : f.step = none) (hd : q.deferred = none) (hb : q.back = none) (hl : f.ending = false) : Quiet s (s.endChain q m) := by
  rw [State.endChain_eq]
  have e := State.furrow?_onFurrow_self hf (chainEnd m) (fun f => ⟨(keeps_chainEnd m).core f, (keeps_chainEnd m).slot f⟩)
  obtain ⟨r1, r2, r3⟩ := chainEnd_run m f
  have e2 : (chainEnd m f).step = none := r1.trans (congrArg (stepMark f.stepping m) hs)
  dsimp only
  unfold State.settleStep
  rw [e, Option.any_some, e2]
  simp only [Option.any_none, Bool.false_and, Bool.false_eq_true, if_false, ite_self]
  rw [State.reap_running e (r3 hg) (r2.trans hl)]
  exact ((quiet_onFurrow _ _ _ (keeps_chainEnd m)).trans (quiet_handout _ _ _)).trans (quiet_endIssue _ q hd hb)

/-- A chain that goes on, in this slot or a later one. -/
theorem quiet_chainOn (s : State) (q : Issue) (m : Mask) (hb : q.back = none) : Quiet s (s.chainOn q m) := by
  refine (quiet_onFurrow s q.core q.slot (keeps_midChain m true)).trans ?_
  unfold State.chainOn
  simp only [hb]
  exact quiet_issue _ _

/-- The next word of the issuing group: its registers stay, it stands at the new PC, every other furrow keeps registers. -/
theorem stepOver_own (s : State) (q : Issue) (g : Group) (pc : BitVec 24) (ch : Bool) {f : Furrow} {g0 : Group}
    (hf : s.furrow? q.core q.slot = some f) (hg : f.group? g.lanes = some g0) (hs : f.step = none) (hd : q.deferred = none)
    (hb : q.back = none) (hl : f.ending = false) :
    (∃ f', (s.stepOver q g pc ch).furrow? q.core q.slot = some f' ∧ f'.regs = f.regs ∧ f'.pcOf g.lanes = some pc) ∧
    (∀ c n, (c ≠ q.core ∨ n ≠ q.slot) → (s.stepOver q g pc ch).regs? c n = s.regs? c n) ∧
    s.stepOver q g pc ch = { s with furrows := (s.stepOver q g pc ch).furrows, cores := (s.stepOver q g pc ch).cores,
                                    issue := (s.stepOver q g pc ch).issue } := by
  obtain ⟨k, hkd⟩ : ∃ k : Furrow → Furrow, k = fun f => f.onGroup g.lanes (fun g => { g.retire f.spec.isSome with pc := pc }) := ⟨_, rfl⟩
  have hk : ∀ f, (k f).core = f.core ∧ (k f).slot = f.slot := fun _ => by rw [hkd]; exact ⟨rfl, rfl⟩
  have e := State.furrow?_onFurrow_self hf k hk
  have hks : (k f).step = none ∧ (k f).regs = f.regs := by rw [hkd]; exact ⟨hs, rfl⟩
  have hke : (k f).ending = false := by rw [hkd]; exact hl
  have hpc : (k f).pcOf g.lanes = some pc := by
    rw [hkd]; exact Furrow.pcOf_onGroup hg (fun g => { g.retire f.spec.isSome with pc := pc }) (fun _ => ⟨rfl, rfl⟩)
  have hne : (k f).groups ≠ [] := fun h => by
    rw [hkd] at h
    refine Furrow.groups_onGroup_ne g.lanes (fun g => { g.retire f.spec.isSome with pc := pc }) (fun h => ?_) h
    have := (Furrow.group?_some hg).1
    simp [h] at this
  have qq : Quiet (s.onFurrow q.core q.slot k) (s.stepOver q g pc ch) := by
    unfold State.stepOver
    rw [← hkd]
    dsimp only
    split
    · exact quiet_chainOn _ q g.lanes hb
    · exact quiet_endChain _ q g.lanes e hne hks.1 hd hb hke
  obtain ⟨f', h1, h2, h3⟩ := qq.own e hpc
  refine ⟨⟨f', h1, h2.trans hks.2, h3⟩, fun c n hcn => ?_, qq.rest⟩
  rw [qq.regs c n, State.regs?, State.furrow?_onFurrow_ne k hk hcn]
  rfl

/-! ### `State.skip` and `State.done` -/

/-- A law for what retires with no effect of its own (R4, R199). -/
theorem skip_completes {s : State} {q : Issue} {f : Furrow} {g : Group} {i : Instr} (h : Issues s q f g i) :
    ∃ t, s.skip i q g = .next t ∧ Completes s t q g i f := by
  have hl := (Furrow.group?_some h.group).2.2
  obtain ⟨a, b, c⟩ := stepOver_own s q g (nextPc g.pc i.words) i.chained h.furrow (hl ▸ h.group) h.step h.alone h.own h.lives
  exact ⟨_, rfl, a, b, c⟩

/-- What an instruction's effect on its furrow leaves alone while its group goes on. -/
structure SameRun (f f1 : Furrow) : Prop where
  core : f1.core = f.core
  slot : f1.slot = f.slot
  groups : f1.groups = f.groups
  level : f1.level = f.level
  step : f1.step = f.step
  ext : f1.ext = f.ext
  spilled : f1.spilled = f.spilled
  ending : f1.ending = f.ending

theorem SameRun.refl (f : Furrow) : SameRun f f := ⟨rfl, rfl, rfl, rfl, rfl, rfl, rfl, rfl⟩

theorem sameRun_raise (f : Furrow) (fl : Nat) : SameRun f (f.raise fl) := ⟨rfl, rfl, rfl, rfl, rfl, rfl, rfl, rfl⟩

theorem SameRun.trans {a b c : Furrow} (h : SameRun a b) (k : SameRun b c) : SameRun a c :=
  ⟨k.core.trans h.core, k.slot.trans h.slot, k.groups.trans h.groups, k.level.trans h.level, k.step.trans h.step, k.ext.trans h.ext,
   k.spilled.trans h.spilled, k.ending.trans h.ending⟩

/-- The furrow put back in its slot. -/
theorem State.furrow?_setFurrow_self {s : State} {c n : Nat} {f f1 : Furrow} (h : s.furrow? c n = some f) (hc : f1.core = c) (hn : f1.slot = n) :
    (s.setFurrow f1).furrow? c n = some f1 := by
  have hp := State.furrow?_place h
  rw [State.furrow?_setFurrow, h, Option.map_some, hp.1, hp.2, hc, hn, beq_self_eq_true, beq_self_eq_true]
  rfl

theorem State.furrow?_setFurrow_ne {s : State} {c n : Nat} {f1 : Furrow} (h : c ≠ f1.core ∨ n ≠ f1.slot) :
    (s.setFurrow f1).furrow? c n = s.furrow? c n := by
  rw [State.furrow?_setFurrow]
  cases hx : s.furrow? c n with
  | none => rfl
  | some x =>
    have hp := State.furrow?_place hx
    rw [Option.map_some, hp.1, hp.2]
    have : (c == f1.core && n == f1.slot) = false := by
      rcases h with h | h <;> simp [h]
    rw [this]
    rfl

/-- A hit whose entry holds the results leaves every register as it is. -/
theorem ofFn_results {f : Furrow} (ds : List Nat) {rs : List VReg} (hr : rs = ds.map f.readV) :
    Vector.ofFn (fun n : Fin 128 => match ds.findIdx? (fun d => d == n.val) with
      | some j => rs.getD j f.v[n]
      | none => f.v[n]) = f.v := by
  subst hr
  ext n hn : 1
  rw [Vector.getElem_ofFn]
  cases hj : ds.findIdx? (fun d => d == n) with
  | none => rfl
  | some j =>
    obtain ⟨hlt, hp, -⟩ := List.findIdx?_eq_some_iff_getElem.mp hj
    have e : ds[j] = n := by simpa using hp
    simp only [List.getD_eq_getElem?_getD, List.getElem?_map, List.getElem?_eq_getElem hlt, Option.map_some, Option.getD_some, e]
    unfold Furrow.readV
    have : Fin.ofNat 128 n = ⟨n, hn⟩ := Fin.ext (Nat.mod_eq_of_lt hn)
    simp only [this]
    rfl

/-- A hit whose entry holds the results and flags leaves the registers as they are. -/
theorem Furrow.regs_onHit {x f0 : Furrow} (ds : List Nat) {e : ReuseEntry} (h1 : e.results = ds.map x.readV)
    (h2 : f0.fpenv ||| BitVec.ofNat 32 (e.flags % 64) = x.fpenv) : (x.onHit f0 ds e).regs = x.regs := by
  unfold Furrow.regs Furrow.onHit
  simp only [Regs.mk.injEq, and_true, true_and]
  exact ⟨ofFn_results (f := x) ds h1, h2⟩

/-- What the look-up and the names after a vector write leave of the furrow (R76 to R83): its registers, where a hit holds the results. -/
theorem afterVector_own {s : State} {f f1 : Furrow} (i : Instr) (g : Group) (m : Mask) (fl : Nat) (load : Option (Nat × List Nat))
    (hf : s.furrow? f1.core f1.slot = some f) (hr : s.lastUnreserved f1.core (quarterOf f1.slot) = none) (hsp : f.spilled = false)
    (hp : SameRun f f1) (hfl : f1.fpenv = f.fpenv) (hh : HitHolds s i f g m load.isSome f1 fl) :
    ∃ f2, SameRun (f1.raise fl) f2 ∧ f2.regs = (f1.raise fl).regs ∧ (s.afterVector i f (f1.raise fl) g m fl load false).2 = fl ∧
      (s.afterVector i f (f1.raise fl) g m fl load false).1.furrows = (s.setFurrow f2).furrows ∧
      (s.afterVector i f (f1.raise fl) g m fl load false).1 =
        { s with furrows := (s.afterVector i f (f1.raise fl) g m fl load false).1.furrows,
                 cores := (s.afterVector i f (f1.raise fl) g m fl load false).1.cores } := by
  unfold State.afterVector
  dsimp only
  split
  · rename_i e he
    obtain ⟨k, hk, hke⟩ := Option.bind_eq_some_iff.mp he
    have hk' : (i.reuseEligible || load.isSome) = true ∧ s.lookup i f g m load.isSome = some k := by
      split at hk
      · cases hk
      · rename_i hc
        refine ⟨?_, hk⟩
        cases he : (i.reuseEligible || load.isSome) with
        | true => rfl
        | false => rw [he] at hc; exact absurd rfl hc
    obtain ⟨h1, h2⟩ := hh hk'.1 k e hk'.2 hke
    refine ⟨_, ?run, ?regs, h2, rfl, rfl⟩
    case run => exact ⟨rfl, rfl, rfl, rfl, rfl, rfl, rfl, rfl⟩
    case regs =>
      refine (Furrow.regs_onHit (x := { f1.raise fl with spec := _ }) (vNames i.readsWrites.2) h1 ?_).trans rfl
      rw [h2, ← hfl]
      rfl
  · have hroom : ∀ k, s.makeRoomFor (f1.raise fl).core (quarterOf (f1.raise fl).slot) k = s := fun k => by
      unfold State.makeRoomFor
      rw [show (f1.raise fl).core = f1.core from rfl, show (f1.raise fl).slot = f1.slot from rfl, hr]
      rfl
    have hown : (s.furrow? (f1.raise fl).core (f1.raise fl).slot).getD f = f := by
      rw [show (f1.raise fl).core = f1.core from rfl, show (f1.raise fl).slot = f1.slot from rfl, hf, Option.getD_some]
    have hresp : ∀ (u : State) (x : Furrow) (ds : List Nat), x.spilled = false → u.respill x ds = u := fun u x ds h => by
      unfold State.respill
      rw [h, Bool.false_and, if_neg (by simp)]
    simp only [Bool.false_eq_true, if_false, hroom, hown, Bool.false_and, hresp, hsp, true_and]
    apply Exists.intro
    refine ⟨?run, ?regs, ?put, ?rest⟩
    case put => simp only [State.onReuse, State.onCore]; rfl
    case run => exact ⟨rfl, rfl, rfl, rfl, rfl, rfl, (hp.spilled.trans hsp).symm, rfl⟩
    case regs => rfl
    case rest => simp only [State.onReuse, State.onCore, State.setFurrow]

/-- The furrow put back after an effect on its registers (R73, R76 to R83). -/
theorem wrote_own {s : State} {q : Issue} {f f1 : Furrow} (i : Instr) (g : Group) (m : Mask) (fl : Nat) (load : Option (Nat × List Nat))
    (hf : s.furrow? q.core q.slot = some f) (r : SameRun f f1) (hb : q.back = none)
    (hn : vNames i.readsWrites.2 = [] ∨ m = 0 ∨
      (NoSpill s q ∧ f1.fpenv = f.fpenv ∧ HitHolds s i f g m load.isSome f1 fl)) :
    (∃ f', (s.wrote i q f1 g m fl load).1.furrow? q.core q.slot = some f' ∧ f'.regs = (f1.raise fl).regs ∧ f'.groups = f.groups
      ∧ f'.level = f.level ∧ f'.step = f.step ∧ f'.ending = f1.ending) ∧
    (∀ c n, (c ≠ q.core ∨ n ≠ q.slot) → (s.wrote i q f1 g m fl load).1.regs? c n = s.regs? c n) ∧
    (s.wrote i q f1 g m fl load).1 =
      { s with furrows := (s.wrote i q f1 g m fl load).1.furrows, cores := (s.wrote i q f1 g m fl load).1.cores } ∧
    (s.wrote i q f1 g m fl load).2 = fl := by
  have hp := State.furrow?_place hf
  have key : ∀ (f2 : Furrow) (u : State), SameRun f f2 → f2.regs = (f1.raise fl).regs → u.furrows = (s.setFurrow f2).furrows →
      u = { s with furrows := u.furrows, cores := u.cores } →
      (∃ f', u.furrow? q.core q.slot = some f' ∧ f'.regs = (f1.raise fl).regs ∧ f'.groups = f.groups ∧ f'.level = f.level ∧ f'.step = f.step
        ∧ f'.ending = f.ending) ∧
      (∀ c n, (c ≠ q.core ∨ n ≠ q.slot) → u.regs? c n = s.regs? c n) ∧ u = { s with furrows := u.furrows, cores := u.cores } := by
    intro f2 u r2 hr hu hrest
    have hl : ∀ c n, u.furrow? c n = (s.setFurrow f2).furrow? c n := fun c n => by unfold State.furrow?; rw [hu]
    refine ⟨⟨f2, ?_, hr, r2.groups, r2.level, r2.step, r2.ending⟩, fun c n hcn => ?_, hrest⟩
    · rw [hl]; exact State.furrow?_setFurrow_self hf (r2.core.trans hp.1) (r2.slot.trans hp.2)
    · unfold State.regs?
      rw [hl, State.furrow?_setFurrow_ne (by rw [r2.core, r2.slot, hp.1, hp.2]; exact hcn)]
  have hr : SameRun f (f1.raise fl) := r.trans (sameRun_raise f1 fl)
  rw [r.ending]
  unfold State.wrote
  dsimp only
  split
  · obtain ⟨a, b, c⟩ := key (f1.raise fl) _ hr rfl rfl rfl
    exact ⟨a, b, c, rfl⟩
  · rename_i hcond
    obtain ⟨hn', hfl, hh⟩ : NoSpill s q ∧ f1.fpenv = f.fpenv ∧ HitHolds s i f g m load.isSome f1 fl := by
      rcases hn with h | h | h
      · simp [h] at hcond
      · simp [h] at hcond
      · exact h
    have hsp : f.spilled = false := by have := hn'.2; rw [hf] at this; simpa using this
    have hc : f1.core = q.core ∧ f1.slot = q.slot := ⟨r.core.trans hp.1, r.slot.trans hp.2⟩
    rw [hf, Option.getD_some, hb, Option.isSome_none]
    obtain ⟨f2, k1, k2, k3, k4, k5⟩ := afterVector_own i g m fl load (by rw [hc.1, hc.2]; exact hf) (by rw [hc.1, hc.2]; exact hn'.1) hsp r hfl hh
    obtain ⟨a, b, c⟩ := key f2 _ (hr.trans k1) k2 k4 k5
    exact ⟨a, b, c, k3⟩

/-- The law of an instruction that completes with a change of its furrow (R102, R211): no enabled floating-point flag rises. -/
theorem done_completes {s : State} {q : Issue} {f f1 : Furrow} {g : Group} {i : Instr} (h : Issues s q f g i) (m : Mask) (fl : Nat)
    (load : Option (Nat × List Nat)) (r : SameRun f f1)
    (ht : f1.trapEnables = 0 ∨ m = 0 ∨ fl &&& f1.trapEnables = 0)
    (hn : vNames i.readsWrites.2 = [] ∨ m = 0 ∨ (NoSpill s q ∧ f1.fpenv = f.fpenv ∧ HitHolds s i f g m load.isSome f1 fl)) :
    ∃ t, s.doneWith i q f1 g m fl load = .next t ∧ Completes s t q g i (f1.raise fl) := by
  obtain ⟨⟨f', a1, a2, a3, a4, a5, a6⟩, b, c, d⟩ := wrote_own i g m fl load h.furrow r h.own hn
  have hl := (Furrow.group?_some h.group).2.2
  have hadv : (s.wrote i q f1 g m fl load).1.advance i q f1 g m (s.wrote i q f1 g m fl load).2 =
      (s.wrote i q f1 g m fl load).1.stepOver q g (nextPc g.pc i.words) i.chained := by
    rw [d]
    unfold State.advance
    dsimp only
    split
    · rfl
    · rename_i hc
      rw [not_or] at hc
      rw [if_pos]
      rcases ht with h | h | h
      · exact absurd h hc.1
      · exact absurd h hc.2
      · exact h
  obtain ⟨⟨f2, d1, d2, d3⟩, e1, e2⟩ := stepOver_own (s.wrote i q f1 g m fl load).1 q g (nextPc g.pc i.words) i.chained a1
    (show f'.group? g.lanes = some g by rw [Furrow.group?_congr a3 a4, hl]; exact h.group) (a5.trans h.step) h.alone h.own
    (a6.trans (r.ending.trans h.lives))
  refine ⟨_, rfl, ?_⟩
  rw [hadv]
  refine ⟨⟨f2, d1, d2.trans a2, d3⟩, fun c n hcn => (e1 c n hcn).trans (b c n hcn), ?_⟩
  rw [e2, c]

/-- What comes before the effect of an instruction leaves one with nothing in its way as it is. -/
theorem running_issues {s : State} {q : Issue} {f : Furrow} {g : Group} {i : Instr} (h : Issues s q f g i)
    (k : Issue → Furrow → Group → Out) : Sys2Proof.Machine.running i s k = k q f g := by
  have hb : (i.usesExtended && f.ext == .none) = false := by
    cases hx : i.usesExtended with
    | false => rfl
    | true => have := h.block hx; simp [this]
  have hr : (isPrivileged i && f.level == 0) = false := by
    cases hx : isPrivileged i with
    | false => rfl
    | true => have := h.right hx; simp [this]
  unfold Sys2Proof.Machine.running issued
  rw [h.issue]
  simp only [h.furrow, h.group, h.ahead, Option.isSome_none, Bool.false_and, Bool.false_eq_true, if_false, hb, hr]

end Sys2Proof.Machine
end

