-- ==== Sys2Proof/Laws/Dispatch.lean ====
section
/-! SUPPORT. What `exec` runs for each instruction, by name: no proof unfolds the dispatch. -/
namespace Sys2Proof.Machine

@[simp] theorem exec_clause (s : State) : ∀ f, exec (.clause f) s = execClause f s := fun _ => rfl
@[simp] theorem exec_nop (s : State) : ∀ c, exec (.nop c) s = execNop c s := fun _ => rfl
@[simp] theorem exec_uadd (s : State) : ∀ f, exec (.uadd f) s = execUadd f s := fun _ => rfl
@[simp] theorem exec_usub (s : State) : ∀ f, exec (.usub f) s = execUsub f s := fun _ => rfl
@[simp] theorem exec_ursub (s : State) : ∀ f, exec (.ursub f) s = execUrsub f s := fun _ => rfl
@[simp] theorem exec_umul (s : State) : ∀ f, exec (.umul f) s = execUmul f s := fun _ => rfl
@[simp] theorem exec_umulhI64 (s : State) : ∀ f, exec (.umulhI64 f) s = execUmulhI64 f s := fun _ => rfl
@[simp] theorem exec_umulhN64 (s : State) : ∀ f, exec (.umulhN64 f) s = execUmulhN64 f s := fun _ => rfl
@[simp] theorem exec_udivI64 (s : State) : ∀ f, exec (.udivI64 f) s = execUdivI64 f s := fun _ => rfl
@[simp] theorem exec_udivN64 (s : State) : ∀ f, exec (.udivN64 f) s = execUdivN64 f s := fun _ => rfl
@[simp] theorem exec_uremI64 (s : State) : ∀ f, exec (.uremI64 f) s = execUremI64 f s := fun _ => rfl
@[simp] theorem exec_uremN64 (s : State) : ∀ f, exec (.uremN64 f) s = execUremN64 f s := fun _ => rfl
@[simp] theorem exec_uminI64 (s : State) : ∀ f, exec (.uminI64 f) s = execUminI64 f s := fun _ => rfl
@[simp] theorem exec_umaxI64 (s : State) : ∀ f, exec (.umaxI64 f) s = execUmaxI64 f s := fun _ => rfl
@[simp] theorem exec_uminN64 (s : State) : ∀ f, exec (.uminN64 f) s = execUminN64 f s := fun _ => rfl
@[simp] theorem exec_umaxN64 (s : State) : ∀ f, exec (.umaxN64 f) s = execUmaxN64 f s := fun _ => rfl
@[simp] theorem exec_uins8 (s : State) : ∀ f, exec (.uins8 f) s = execUins8 f s := fun _ => rfl
@[simp] theorem exec_uand (s : State) : ∀ f, exec (.uand f) s = execUand f s := fun _ => rfl
@[simp] theorem exec_uor (s : State) : ∀ f, exec (.uor f) s = execUor f s := fun _ => rfl
@[simp] theorem exec_uxor (s : State) : ∀ f, exec (.uxor f) s = execUxor f s := fun _ => rfl
@[simp] theorem exec_uandn (s : State) : ∀ f, exec (.uandn f) s = execUandn f s := fun _ => rfl
@[simp] theorem exec_ushl (s : State) : ∀ f, exec (.ushl f) s = execUshl f s := fun _ => rfl
@[simp] theorem exec_ushrN64 (s : State) : ∀ f, exec (.ushrN64 f) s = execUshrN64 f s := fun _ => rfl
@[simp] theorem exec_ushrI64 (s : State) : ∀ f, exec (.ushrI64 f) s = execUshrI64 f s := fun _ => rfl
@[simp] theorem exec_urot (s : State) : ∀ f, exec (.urot f) s = execUrot f s := fun _ => rfl
@[simp] theorem exec_useq (s : State) : ∀ f, exec (.useq f) s = execUseq f s := fun _ => rfl
@[simp] theorem exec_usne (s : State) : ∀ f, exec (.usne f) s = execUsne f s := fun _ => rfl
@[simp] theorem exec_usltI64 (s : State) : ∀ f, exec (.usltI64 f) s = execUsltI64 f s := fun _ => rfl
@[simp] theorem exec_usltN64 (s : State) : ∀ f, exec (.usltN64 f) s = execUsltN64 f s := fun _ => rfl
@[simp] theorem exec_usleI64 (s : State) : ∀ f, exec (.usleI64 f) s = execUsleI64 f s := fun _ => rfl
@[simp] theorem exec_usleN64 (s : State) : ∀ f, exec (.usleN64 f) s = execUsleN64 f s := fun _ => rfl
@[simp] theorem exec_upopc (s : State) : ∀ f, exec (.upopc f) s = execUpopc f s := fun _ => rfl
@[simp] theorem exec_uclz (s : State) : ∀ f, exec (.uclz f) s = execUclz f s := fun _ => rfl
@[simp] theorem exec_bra (s : State) : ∀ f, exec (.bra f) s = execBra f s := fun _ => rfl
@[simp] theorem exec_call (s : State) : ∀ f, exec (.call f) s = execCall f s := fun _ => rfl
@[simp] theorem exec_jmp (s : State) : ∀ f, exec (.jmp f) s = execJmp f s := fun _ => rfl
@[simp] theorem exec_callr (s : State) : ∀ f, exec (.callr f) s = execCallr f s := fun _ => rfl
@[simp] theorem exec_ret (s : State) : ∀ f, exec (.ret f) s = execRet f s := fun _ => rfl
@[simp] theorem exec_bwz (s : State) : ∀ f, exec (.bwz f) s = execBwz f s := fun _ => rfl
@[simp] theorem exec_bwnz (s : State) : ∀ f, exec (.bwnz f) s = execBwnz f s := fun _ => rfl
@[simp] theorem exec_rcv (s : State) : ∀ f, exec (.rcv f) s = execRcv f s := fun _ => rfl
@[simp] theorem exec_exit (s : State) : ∀ f, exec (.exit f) s = execExit f s := fun _ => rfl
@[simp] theorem exec_yield (s : State) : ∀ f, exec (.yield f) s = execYield f s := fun _ => rfl
@[simp] theorem exec_loop (s : State) : ∀ f, exec (.loop f) s = execLoop f s := fun _ => rfl
@[simp] theorem exec_sysc (s : State) : ∀ f, exec (.sysc f) s = execSysc f s := fun _ => rfl
@[simp] theorem exec_brk (s : State) : ∀ f, exec (.brk f) s = execBrk f s := fun _ => rfl
@[simp] theorem exec_tret (s : State) : ∀ f, exec (.tret f) s = execTret f s := fun _ => rfl
@[simp] theorem exec_fend (s : State) : ∀ c, exec (.fend c) s = execFend c s := fun _ => rfl
@[simp] theorem exec_cend (s : State) : ∀ f, exec (.cend f) s = execCend f s := fun _ => rfl
@[simp] theorem exec_dhalt (s : State) : ∀ f, exec (.dhalt f) s = execDhalt f s := fun _ => rfl
@[simp] theorem exec_pand (s : State) : ∀ f, exec (.pand f) s = execPand f s := fun _ => rfl
@[simp] theorem exec_por (s : State) : ∀ f, exec (.por f) s = execPor f s := fun _ => rfl
@[simp] theorem exec_pxor (s : State) : ∀ f, exec (.pxor f) s = execPxor f s := fun _ => rfl
@[simp] theorem exec_pandn (s : State) : ∀ f, exec (.pandn f) s = execPandn f s := fun _ => rfl
@[simp] theorem exec_pnot (s : State) : ∀ f, exec (.pnot f) s = execPnot f s := fun _ => rfl
@[simp] theorem exec_plt (s : State) : ∀ f, exec (.plt f) s = execPlt f s := fun _ => rfl
@[simp] theorem exec_srr (s : State) : ∀ f, exec (.srr f) s = execSrr f s := fun _ => rfl
@[simp] theorem exec_srw (s : State) : ∀ f, exec (.srw f) s = execSrw f s := fun _ => rfl
@[simp] theorem exec_push (s : State) : ∀ f, exec (.push f) s = execPush f s := fun _ => rfl
@[simp] theorem exec_qpop (s : State) : ∀ f, exec (.qpop f) s = execQpop f s := fun _ => rfl
@[simp] theorem exec_qclaim (s : State) : ∀ f, exec (.qclaim f) s = execQclaim f s := fun _ => rfl
@[simp] theorem exec_qput (s : State) : ∀ f, exec (.qput f) s = execQput f s := fun _ => rfl
@[simp] theorem exec_hwait (s : State) : ∀ f, exec (.hwait f) s = execHwait f s := fun _ => rfl
@[simp] theorem exec_htest (s : State) : ∀ f, exec (.htest f) s = execHtest f s := fun _ => rfl
@[simp] theorem exec_hcancel (s : State) : ∀ f, exec (.hcancel f) s = execHcancel f s := fun _ => rfl
@[simp] theorem exec_hget (s : State) : ∀ f, exec (.hget f) s = execHget f s := fun _ => rfl
@[simp] theorem exec_hset (s : State) : ∀ f, exec (.hset f) s = execHset f s := fun _ => rfl
@[simp] theorem exec_sset (s : State) : ∀ f, exec (.sset f) s = execSset f s := fun _ => rfl
@[simp] theorem exec_sget (s : State) : ∀ f, exec (.sget f) s = execSget f s := fun _ => rfl
@[simp] theorem exec_winit (s : State) : ∀ f, exec (.winit f) s = execWinit f s := fun _ => rfl
@[simp] theorem exec_warr (s : State) : ∀ f, exec (.warr f) s = execWarr f s := fun _ => rfl
@[simp] theorem exec_wexp (s : State) : ∀ f, exec (.wexp f) s = execWexp f s := fun _ => rfl
@[simp] theorem exec_wwait (s : State) : ∀ f, exec (.wwait f) s = execWwait f s := fun _ => rfl
@[simp] theorem exec_vadd (s : State) : ∀ f, exec (.vadd f) s = execVadd f s := fun _ => rfl
@[simp] theorem exec_vsub (s : State) : ∀ f, exec (.vsub f) s = execVsub f s := fun _ => rfl
@[simp] theorem exec_vmul (s : State) : ∀ f, exec (.vmul f) s = execVmul f s := fun _ => rfl
@[simp] theorem exec_vmulh (s : State) : ∀ f, exec (.vmulh f) s = execVmulh f s := fun _ => rfl
@[simp] theorem exec_vmad (s : State) : ∀ f, exec (.vmad f) s = execVmad f s := fun _ => rfl
@[simp] theorem exec_vdiv (s : State) : ∀ f, exec (.vdiv f) s = execVdiv f s := fun _ => rfl
@[simp] theorem exec_vrem (s : State) : ∀ f, exec (.vrem f) s = execVrem f s := fun _ => rfl
@[simp] theorem exec_vmin (s : State) : ∀ f, exec (.vmin f) s = execVmin f s := fun _ => rfl
@[simp] theorem exec_vmax (s : State) : ∀ f, exec (.vmax f) s = execVmax f s := fun _ => rfl
@[simp] theorem exec_vabs (s : State) : ∀ f, exec (.vabs f) s = execVabs f s := fun _ => rfl
@[simp] theorem exec_vneg (s : State) : ∀ f, exec (.vneg f) s = execVneg f s := fun _ => rfl
@[simp] theorem exec_vabsd (s : State) : ∀ f, exec (.vabsd f) s = execVabsd f s := fun _ => rfl
@[simp] theorem exec_vand (s : State) : ∀ f, exec (.vand f) s = execVand f s := fun _ => rfl
@[simp] theorem exec_vor (s : State) : ∀ f, exec (.vor f) s = execVor f s := fun _ => rfl
@[simp] theorem exec_vxor (s : State) : ∀ f, exec (.vxor f) s = execVxor f s := fun _ => rfl
@[simp] theorem exec_vandn (s : State) : ∀ f, exec (.vandn f) s = execVandn f s := fun _ => rfl
@[simp] theorem exec_vnot (s : State) : ∀ f, exec (.vnot f) s = execVnot f s := fun _ => rfl
@[simp] theorem exec_vshl (s : State) : ∀ f, exec (.vshl f) s = execVshl f s := fun _ => rfl
@[simp] theorem exec_vshr (s : State) : ∀ f, exec (.vshr f) s = execVshr f s := fun _ => rfl
@[simp] theorem exec_vrot (s : State) : ∀ f, exec (.vrot f) s = execVrot f s := fun _ => rfl
@[simp] theorem exec_vpopc (s : State) : ∀ f, exec (.vpopc f) s = execVpopc f s := fun _ => rfl
@[simp] theorem exec_vclz (s : State) : ∀ f, exec (.vclz f) s = execVclz f s := fun _ => rfl
@[simp] theorem exec_vbrev (s : State) : ∀ f, exec (.vbrev f) s = execVbrev f s := fun _ => rfl
@[simp] theorem exec_vbfe (s : State) : ∀ f, exec (.vbfe f) s = execVbfe f s := fun _ => rfl
@[simp] theorem exec_vbfi (s : State) : ∀ f, exec (.vbfi f) s = execVbfi f s := fun _ => rfl
@[simp] theorem exec_vmov (s : State) : ∀ f, exec (.vmov f) s = execVmov f s := fun _ => rfl
@[simp] theorem exec_vfadd (s : State) : ∀ f, exec (.vfadd f) s = execVfadd f s := fun _ => rfl
@[simp] theorem exec_vfsub (s : State) : ∀ f, exec (.vfsub f) s = execVfsub f s := fun _ => rfl
@[simp] theorem exec_vfmul (s : State) : ∀ f, exec (.vfmul f) s = execVfmul f s := fun _ => rfl
@[simp] theorem exec_vfma (s : State) : ∀ f, exec (.vfma f) s = execVfma f s := fun _ => rfl
@[simp] theorem exec_vfms (s : State) : ∀ f, exec (.vfms f) s = execVfms f s := fun _ => rfl
@[simp] theorem exec_vfnma (s : State) : ∀ f, exec (.vfnma f) s = execVfnma f s := fun _ => rfl
@[simp] theorem exec_vfdiv (s : State) : ∀ f, exec (.vfdiv f) s = execVfdiv f s := fun _ => rfl
@[simp] theorem exec_vfsqrt (s : State) : ∀ f, exec (.vfsqrt f) s = execVfsqrt f s := fun _ => rfl
@[simp] theorem exec_vfmin (s : State) : ∀ f, exec (.vfmin f) s = execVfmin f s := fun _ => rfl
@[simp] theorem exec_vfmax (s : State) : ∀ f, exec (.vfmax f) s = execVfmax f s := fun _ => rfl
@[simp] theorem exec_vfabs (s : State) : ∀ f, exec (.vfabs f) s = execVfabs f s := fun _ => rfl
@[simp] theorem exec_vfneg (s : State) : ∀ f, exec (.vfneg f) s = execVfneg f s := fun _ => rfl
@[simp] theorem exec_vfrint (s : State) : ∀ f, exec (.vfrint f) s = execVfrint f s := fun _ => rfl
@[simp] theorem exec_vfscale (s : State) : ∀ f, exec (.vfscale f) s = execVfscale f s := fun _ => rfl
@[simp] theorem exec_vcmp (s : State) : ∀ cc f, exec (.vcmp cc f) s = execVcmp cc f s := fun _ _ => rfl
@[simp] theorem exec_vset (s : State) : ∀ cc f, exec (.vset cc f) s = execVset cc f s := fun _ _ => rfl
@[simp] theorem exec_vsel (s : State) : ∀ f, exec (.vsel f) s = execVsel f s := fun _ => rfl
@[simp] theorem exec_vfclass (s : State) : ∀ f, exec (.vfclass f) s = execVfclass f s := fun _ => rfl
@[simp] theorem exec_vcvt (s : State) : ∀ f, exec (.vcvt f) s = execVcvt f s := fun _ => rfl
@[simp] theorem exec_vpklo (s : State) : ∀ f, exec (.vpklo f) s = execVpklo f s := fun _ => rfl
@[simp] theorem exec_vpkhi (s : State) : ∀ f, exec (.vpkhi f) s = execVpkhi f s := fun _ => rfl
@[simp] theorem exec_vupklo (s : State) : ∀ f, exec (.vupklo f) s = execVupklo f s := fun _ => rfl
@[simp] theorem exec_vupkhi (s : State) : ∀ f, exec (.vupkhi f) s = execVupkhi f s := fun _ => rfl
@[simp] theorem exec_vscl (s : State) : ∀ f, exec (.vscl f) s = execVscl f s := fun _ => rfl
@[simp] theorem exec_vrcp (s : State) : ∀ f, exec (.vrcp f) s = execVrcp f s := fun _ => rfl
@[simp] theorem exec_vrsqrt (s : State) : ∀ f, exec (.vrsqrt f) s = execVrsqrt f s := fun _ => rfl
@[simp] theorem exec_vexp2 (s : State) : ∀ f, exec (.vexp2 f) s = execVexp2 f s := fun _ => rfl
@[simp] theorem exec_vlog2 (s : State) : ∀ f, exec (.vlog2 f) s = execVlog2 f s := fun _ => rfl
@[simp] theorem exec_vsinpi (s : State) : ∀ f, exec (.vsinpi f) s = execVsinpi f s := fun _ => rfl
@[simp] theorem exec_vcospi (s : State) : ∀ f, exec (.vcospi f) s = execVcospi f s := fun _ => rfl
@[simp] theorem exec_vtanh (s : State) : ∀ f, exec (.vtanh f) s = execVtanh f s := fun _ => rfl
@[simp] theorem exec_vfirst (s : State) : ∀ f, exec (.vfirst f) s = execVfirst f s := fun _ => rfl
@[simp] theorem exec_vballot (s : State) : ∀ f, exec (.vballot f) s = execVballot f s := fun _ => rfl
@[simp] theorem exec_psetw (s : State) : ∀ f, exec (.psetw f) s = execPsetw f s := fun _ => rfl
@[simp] theorem exec_vall (s : State) : ∀ f, exec (.vall f) s = execVall f s := fun _ => rfl
@[simp] theorem exec_vany (s : State) : ∀ f, exec (.vany f) s = execVany f s := fun _ => rfl
@[simp] theorem exec_vuni (s : State) : ∀ f, exec (.vuni f) s = execVuni f s := fun _ => rfl
@[simp] theorem exec_vlane (s : State) : ∀ f, exec (.vlane f) s = execVlane f s := fun _ => rfl
@[simp] theorem exec_shflIdx (s : State) : ∀ f, exec (.shflIdx f) s = execShflIdx f s := fun _ => rfl
@[simp] theorem exec_shflUp (s : State) : ∀ f, exec (.shflUp f) s = execShflUp f s := fun _ => rfl
@[simp] theorem exec_shflDown (s : State) : ∀ f, exec (.shflDown f) s = execShflDown f s := fun _ => rfl
@[simp] theorem exec_shflXor (s : State) : ∀ f, exec (.shflXor f) s = execShflXor f s := fun _ => rfl
@[simp] theorem exec_vredAdd (s : State) : ∀ f, exec (.vredAdd f) s = execVredAdd f s := fun _ => rfl
@[simp] theorem exec_vredMin (s : State) : ∀ f, exec (.vredMin f) s = execVredMin f s := fun _ => rfl
@[simp] theorem exec_vredMax (s : State) : ∀ f, exec (.vredMax f) s = execVredMax f s := fun _ => rfl
@[simp] theorem exec_vredAnd (s : State) : ∀ f, exec (.vredAnd f) s = execVredAnd f s := fun _ => rfl
@[simp] theorem exec_vredOr (s : State) : ∀ f, exec (.vredOr f) s = execVredOr f s := fun _ => rfl
@[simp] theorem exec_vredXor (s : State) : ∀ f, exec (.vredXor f) s = execVredXor f s := fun _ => rfl
@[simp] theorem exec_vscanAdd (s : State) : ∀ f, exec (.vscanAdd f) s = execVscanAdd f s := fun _ => rfl
@[simp] theorem exec_vscanMin (s : State) : ∀ f, exec (.vscanMin f) s = execVscanMin f s := fun _ => rfl
@[simp] theorem exec_vscanMax (s : State) : ∀ f, exec (.vscanMax f) s = execVscanMax f s := fun _ => rfl
@[simp] theorem exec_vscanxAdd (s : State) : ∀ f, exec (.vscanxAdd f) s = execVscanxAdd f s := fun _ => rfl
@[simp] theorem exec_vscanxMin (s : State) : ∀ f, exec (.vscanxMin f) s = execVscanxMin f s := fun _ => rfl
@[simp] theorem exec_vscanxMax (s : State) : ∀ f, exec (.vscanxMax f) s = execVscanxMax f s := fun _ => rfl
@[simp] theorem exec_xacq (s : State) : ∀ f, exec (.xacq f) s = execXacq f s := fun _ => rfl
@[simp] theorem exec_xrel (s : State) : ∀ f, exec (.xrel f) s = execXrel f s := fun _ => rfl
@[simp] theorem exec_ld (s : State) : ∀ f, exec (.ld f) s = execLd f s := fun _ => rfl
@[simp] theorem exec_ldAcq (s : State) : ∀ f, exec (.ldAcq f) s = execLdAcq f s := fun _ => rfl
@[simp] theorem exec_ldw (s : State) : ∀ f, exec (.ldw f) s = execLdw f s := fun _ => rfl
@[simp] theorem exec_ldwAcq (s : State) : ∀ f, exec (.ldwAcq f) s = execLdwAcq f s := fun _ => rfl
@[simp] theorem exec_st (s : State) : ∀ f, exec (.st f) s = execSt f s := fun _ => rfl
@[simp] theorem exec_stRel (s : State) : ∀ f, exec (.stRel f) s = execStRel f s := fun _ => rfl
@[simp] theorem exec_stw (s : State) : ∀ f, exec (.stw f) s = execStw f s := fun _ => rfl
@[simp] theorem exec_stwRel (s : State) : ∀ f, exec (.stwRel f) s = execStwRel f s := fun _ => rfl
@[simp] theorem exec_gth (s : State) : ∀ f, exec (.gth f) s = execGth f s := fun _ => rfl
@[simp] theorem exec_sct (s : State) : ∀ f, exec (.sct f) s = execSct f s := fun _ => rfl
@[simp] theorem exec_atomAdd (s : State) : ∀ f, exec (.atomAdd f) s = execAtomAdd f s := fun _ => rfl
@[simp] theorem exec_atomMin (s : State) : ∀ f, exec (.atomMin f) s = execAtomMin f s := fun _ => rfl
@[simp] theorem exec_atomMax (s : State) : ∀ f, exec (.atomMax f) s = execAtomMax f s := fun _ => rfl
@[simp] theorem exec_atomAnd (s : State) : ∀ f, exec (.atomAnd f) s = execAtomAnd f s := fun _ => rfl
@[simp] theorem exec_atomOr (s : State) : ∀ f, exec (.atomOr f) s = execAtomOr f s := fun _ => rfl
@[simp] theorem exec_atomXor (s : State) : ∀ f, exec (.atomXor f) s = execAtomXor f s := fun _ => rfl
@[simp] theorem exec_atomExch (s : State) : ∀ f, exec (.atomExch f) s = execAtomExch f s := fun _ => rfl
@[simp] theorem exec_atomCas (s : State) : ∀ f, exec (.atomCas f) s = execAtomCas f s := fun _ => rfl
@[simp] theorem exec_atomFadd (s : State) : ∀ f, exec (.atomFadd f) s = execAtomFadd f s := fun _ => rfl
@[simp] theorem exec_waita (s : State) : ∀ f, exec (.waita f) s = execWaita f s := fun _ => rfl
@[simp] theorem exec_pf (s : State) : ∀ f, exec (.pf f) s = execPf f s := fun _ => rfl
@[simp] theorem exec_fenceAcq (s : State) : ∀ f, exec (.fenceAcq f) s = execFenceAcq f s := fun _ => rfl
@[simp] theorem exec_fenceRel (s : State) : ∀ f, exec (.fenceRel f) s = execFenceRel f s := fun _ => rfl
@[simp] theorem exec_fenceFull (s : State) : ∀ f, exec (.fenceFull f) s = execFenceFull f s := fun _ => rfl
@[simp] theorem exec_fenceSpec (s : State) : ∀ f, exec (.fenceSpec f) s = execFenceSpec f s := fun _ => rfl
@[simp] theorem exec_fenceXp (s : State) : ∀ f, exec (.fenceXp f) s = execFenceXp f s := fun _ => rfl
@[simp] theorem exec_cset (s : State) : ∀ f, exec (.cset f) s = execCset f s := fun _ => rfl
@[simp] theorem exec_cclr (s : State) : ∀ f, exec (.cclr f) s = execCclr f s := fun _ => rfl
@[simp] theorem exec_cget (s : State) : ∀ f, exec (.cget f) s = execCget f s := fun _ => rfl
@[simp] theorem exec_tfr (s : State) : ∀ f, exec (.tfr f) s = execTfr f s := fun _ => rfl
@[simp] theorem exec_tfw (s : State) : ∀ f, exec (.tfw f) s = execTfw f s := fun _ => rfl
@[simp] theorem exec_svcpost (s : State) : ∀ f, exec (.svcpost f) s = execSvcpost f s := fun _ => rfl
@[simp] theorem exec_svctake (s : State) : ∀ f, exec (.svctake f) s = execSvctake f s := fun _ => rfl
@[simp] theorem exec_fqtake (s : State) : ∀ f, exec (.fqtake f) s = execFqtake f s := fun _ => rfl
@[simp] theorem exec_fqdone (s : State) : ∀ f, exec (.fqdone f) s = execFqdone f s := fun _ => rfl
@[simp] theorem exec_tlbinvAsid (s : State) : ∀ f, exec (.tlbinvAsid f) s = execTlbinvAsid f s := fun _ => rfl
@[simp] theorem exec_tlbinvPage (s : State) : ∀ f, exec (.tlbinvPage f) s = execTlbinvPage f s := fun _ => rfl
@[simp] theorem exec_tlbinvNong (s : State) : ∀ f, exec (.tlbinvNong f) s = execTlbinvNong f s := fun _ => rfl
@[simp] theorem exec_tlbinvAll (s : State) : ∀ f, exec (.tlbinvAll f) s = execTlbinvAll f s := fun _ => rfl
@[simp] theorem exec_acrd (s : State) : ∀ f, exec (.acrd f) s = execAcrd f s := fun _ => rfl
@[simp] theorem exec_issueSelection (s : State) : ∀ core quarter dt, exec (.issueSelection core quarter dt) s = execIssueSelection core quarter dt s := fun _ _ _ => rfl
@[simp] theorem exec_instructionComplete (s : State) : ∀ core slot, exec (.instructionComplete core slot) s = execInstructionComplete core slot s := fun _ _ => rfl
@[simp] theorem exec_fenceComplete (s : State) : ∀ core slot, exec (.fenceComplete core slot) s = execFenceComplete core slot s := fun _ _ => rfl
@[simp] theorem exec_trapPermitRetry (s : State) : ∀ core slot, exec (.trapPermitRetry core slot) s = execTrapPermitRetry core slot s := fun _ _ => rfl
@[simp] theorem exec_watchdog (s : State) : ∀ core slot, exec (.watchdog core slot) s = execWatchdog core slot s := fun _ _ => rfl
@[simp] theorem exec_haltRequestArrive (s : State) : ∀ n, exec (.haltRequestArrive n) s = execHaltRequestArrive n s := fun _ => rfl
@[simp] theorem exec_xacqGrant (s : State) : ∀ core quarter, exec (.xacqGrant core quarter) s = execXacqGrant core quarter s := fun _ _ => rfl
@[simp] theorem exec_registerReload (s : State) : ∀ core slot, exec (.registerReload core slot) s = execRegisterReload core slot s := fun _ _ => rfl
@[simp] theorem exec_fieldRetire (s : State) : ∀ field, exec (.fieldRetire field) s = execFieldRetire field s := fun _ => rfl
@[simp] theorem exec_mma (s : State) : ∀ cmd, exec (.mma cmd) s = execMma cmd s := fun _ => rfl
@[simp] theorem exec_copy (s : State) : ∀ cmd, exec (.copy cmd) s = execCopy cmd s := fun _ => rfl
@[simp] theorem exec_stream (s : State) : ∀ cmd, exec (.stream cmd) s = execStream cmd s := fun _ => rfl
@[simp] theorem exec_allreduce (s : State) : ∀ cmd, exec (.allreduce cmd) s = execAllreduce cmd s := fun _ => rfl
@[simp] theorem exec_reduceScatter (s : State) : ∀ cmd, exec (.reduceScatter cmd) s = execReduceScatter cmd s := fun _ => rfl
@[simp] theorem exec_allgather (s : State) : ∀ cmd, exec (.allgather cmd) s = execAllgather cmd s := fun _ => rfl
@[simp] theorem exec_broadcast (s : State) : ∀ cmd, exec (.broadcast cmd) s = execBroadcast cmd s := fun _ => rfl
@[simp] theorem exec_send (s : State) : ∀ cmd, exec (.send cmd) s = execSend cmd s := fun _ => rfl
@[simp] theorem exec_mxeKstep (s : State) : ∀ cmd, exec (.mxeKstep cmd) s = execMxeKstep cmd s := fun _ => rfl
@[simp] theorem exec_txeChunkLand (s : State) : ∀ cmd chunk, exec (.txeChunkLand cmd chunk) s = execTxeChunkLand cmd chunk s := fun _ _ => rfl
@[simp] theorem exec_gxeRowDeliver (s : State) : ∀ cmd, exec (.gxeRowDeliver cmd) s = execGxeRowDeliver cmd s := fun _ => rfl
@[simp] theorem exec_cxeChunkArrive (s : State) : ∀ coll rank chunk ext, exec (.cxeChunkArrive coll rank chunk ext) s = execCxeChunkArrive coll rank chunk ext s := fun _ _ _ _ => rfl
@[simp] theorem exec_engineComplete (s : State) : ∀ cmd, exec (.engineComplete cmd) s = execEngineComplete cmd s := fun _ => rfl
@[simp] theorem exec_collectiveStart (s : State) : ∀ ctx gid fabric, exec (.collectiveStart ctx gid fabric) s = execCollectiveStart ctx gid fabric s := fun _ _ _ => rfl
@[simp] theorem exec_collectiveTimeout (s : State) : ∀ loss, exec (.collectiveTimeout loss) s = execCollectiveTimeout loss s := fun _ => rfl
@[simp] theorem exec_collectiveRedo (s : State) : ∀ coll plane, exec (.collectiveRedo coll plane) s = execCollectiveRedo coll plane s := fun _ _ => rfl
@[simp] theorem exec_pageWalk (s : State) : ∀ n, exec (.pageWalk n) s = execPageWalk n s := fun _ => rfl
@[simp] theorem exec_sqTail (s : State) : ∀ vf q tail, exec (.sqTail vf q tail) s = execSqTail vf q tail s := fun _ _ _ => rfl
@[simp] theorem exec_sqEntryLaunch (s : State) : ∀ vf q, exec (.sqEntryLaunch vf q) s = execSqEntryLaunch vf q s := fun _ _ => rfl
@[simp] theorem exec_sqEntryCancel (s : State) : ∀ vf q, exec (.sqEntryCancel vf q) s = execSqEntryCancel vf q s := fun _ _ => rfl
@[simp] theorem exec_fieldPlace (s : State) : ∀ part, exec (.fieldPlace part) s = execFieldPlace part s := fun _ => rfl
@[simp] theorem exec_schemeEvaluate (s : State) : ∀ scheme, exec (.schemeEvaluate scheme) s = execSchemeEvaluate scheme s := fun _ => rfl
@[simp] theorem exec_preemptRequest (s : State) : ∀ part, exec (.preemptRequest part) s = execPreemptRequest part s := fun _ => rfl
@[simp] theorem exec_preemptCollectComplete (s : State) : ∀ field, exec (.preemptCollectComplete field) s = execPreemptCollectComplete field s := fun _ => rfl
@[simp] theorem exec_schemeTimeout (s : State) : ∀ scheme, exec (.schemeTimeout scheme) s = execSchemeTimeout scheme s := fun _ => rfl
@[simp] theorem exec_scrubComplete (s : State) : ∀ quad, exec (.scrubComplete quad) s = execScrubComplete quad s := fun _ => rfl
@[simp] theorem exec_ctxCreate (s : State) : ∀ pf vf descr, exec (.ctxCreate pf vf descr) s = execCtxCreate pf vf descr s := fun _ _ _ => rfl
@[simp] theorem exec_ctxDestroy (s : State) : ∀ pf vf, exec (.ctxDestroy pf vf) s = execCtxDestroy pf vf s := fun _ _ => rfl
@[simp] theorem exec_groupSet (s : State) : ∀ pf vf gid ranks timeout table, exec (.groupSet pf vf gid ranks timeout table) s = execGroupSet pf vf gid ranks timeout table s := fun _ _ _ _ _ _ => rfl
@[simp] theorem exec_queueReset (s : State) : ∀ pf vf q, exec (.queueReset pf vf q) s = execQueueReset pf vf q s := fun _ _ _ => rfl
@[simp] theorem exec_quadAssign (s : State) : ∀ pf quad part, exec (.quadAssign pf quad part) s = execQuadAssign pf quad part s := fun _ _ _ => rfl
@[simp] theorem exec_countersRead (s : State) : ∀ pf die, exec (.countersRead pf die) s = execCountersRead pf die s := fun _ _ => rfl
@[simp] theorem exec_fwOffer (s : State) : ∀ pf addr size, exec (.fwOffer pf addr size) s = execFwOffer pf addr size s := fun _ _ _ => rfl
@[simp] theorem exec_attest (s : State) : ∀ pf addr nonce, exec (.attest pf addr nonce) s = execAttest pf addr nonce s := fun _ _ _ => rfl
@[simp] theorem exec_dbgWrite (s : State) : ∀ pf vf msg, exec (.dbgWrite pf vf msg) s = execDbgWrite pf vf msg s := fun _ _ _ => rfl
@[simp] theorem exec_linkStatus (s : State) : ∀ pf, exec (.linkStatus pf) s = execLinkStatus pf s := fun _ => rfl
@[simp] theorem exec_vfBind (s : State) : ∀ pf vf ld, exec (.vfBind pf vf ld) s = execVfBind pf vf ld s := fun _ _ _ => rfl
@[simp] theorem exec_sqClaim (s : State) : ∀ vf q gen, exec (.sqClaim vf q gen) s = execSqClaim vf q gen s := fun _ _ _ => rfl
@[simp] theorem exec_tasidSWrite (s : State) : ∀ ctx asid, exec (.tasidSWrite ctx asid) s = execTasidSWrite ctx asid s := fun _ _ => rfl
@[simp] theorem exec_registerWrite (s : State) : ∀ vf off val, exec (.registerWrite vf off val) s = execRegisterWrite vf off val s := fun _ _ _ => rfl
@[simp] theorem exec_ldDetach (s : State) : ∀ ld, exec (.ldDetach ld) s = execLdDetach ld s := fun _ => rfl
@[simp] theorem exec_ldReattach (s : State) : ∀ ld, exec (.ldReattach ld) s = execLdReattach ld s := fun _ => rfl
@[simp] theorem exec_orphanTimeout (s : State) : ∀ ctx, exec (.orphanTimeout ctx) s = execOrphanTimeout ctx s := fun _ => rfl
@[simp] theorem exec_mailboxTailObserve (s : State) : ∀ ctx, exec (.mailboxTailObserve ctx) s = execMailboxTailObserve ctx s := fun _ => rfl
@[simp] theorem exec_rd (s : State) : ∀ n, exec (.rd n) s = execRd n s := fun _ => rfl
@[simp] theorem exec_wr (s : State) : ∀ n, exec (.wr n) s = execWr n s := fun _ => rfl
@[simp] theorem exec_tok (s : State) : ∀ n, exec (.tok n) s = execTok n s := fun _ => rfl
@[simp] theorem exec_preq (s : State) : ∀ n, exec (.preq n) s = execPreq n s := fun _ => rfl
@[simp] theorem exec_pact (s : State) : ∀ n, exec (.pact n) s = execPact n s := fun _ => rfl
@[simp] theorem exec_pdeact (s : State) : ∀ n, exec (.pdeact n) s = execPdeact n s := fun _ => rfl
@[simp] theorem exec_lost (s : State) : ∀ n, exec (.lost n) s = execLost n s := fun _ => rfl
@[simp] theorem exec_recover (s : State) : ∀ n, exec (.recover n) s = execRecover n s := fun _ => rfl
@[simp] theorem exec_reissue (s : State) : ∀ n, exec (.reissue n) s = execReissue n s := fun _ => rfl
@[simp] theorem exec_transientTimeout (s : State) : ∀ agent sector, exec (.transientTimeout agent sector) s = execTransientTimeout agent sector s := fun _ _ => rfl
@[simp] theorem exec_persistentTimeout (s : State) : ∀ sector, exec (.persistentTimeout sector) s = execPersistentTimeout sector s := fun _ => rfl
@[simp] theorem exec_orderedTimeout (s : State) : ∀ agent sector, exec (.orderedTimeout agent sector) s = execOrderedTimeout agent sector s := fun _ _ => rfl
@[simp] theorem exec_recoveryWindowEnd (s : State) : ∀ sector, exec (.recoveryWindowEnd sector) s = execRecoveryWindowEnd sector s := fun _ => rfl
@[simp] theorem exec_messageDrop (s : State) : ∀ n, exec (.messageDrop n) s = execMessageDrop n s := fun _ => rfl
@[simp] theorem exec_holderEvict (s : State) : ∀ agent sector, exec (.holderEvict agent sector) s = execHolderEvict agent sector s := fun _ _ => rfl
@[simp] theorem exec_tokenStateError (s : State) : ∀ agent sector unreadable, exec (.tokenStateError agent sector unreadable) s = execTokenStateError agent sector unreadable s := fun _ _ _ => rfl
@[simp] theorem exec_snpdata (s : State) : ∀ sector, exec (.snpdata sector) s = execSnpdata sector s := fun _ => rfl
@[simp] theorem exec_snpinv (s : State) : ∀ sector data, exec (.snpinv sector data) s = execSnpinv sector data s := fun _ _ => rfl
@[simp] theorem exec_snpcur (s : State) : ∀ sector, exec (.snpcur sector) s = execSnpcur sector s := fun _ => rfl
@[simp] theorem exec_backInvalidateResponse (s : State) : ∀ sector, exec (.backInvalidateResponse sector) s = execBackInvalidateResponse sector s := fun _ => rfl
@[simp] theorem exec_cohModeWrite (s : State) : ∀ mode, exec (.cohModeWrite mode) s = execCohModeWrite mode s := fun _ => rfl
@[simp] theorem exec_cohModeDrainEnd (s : State) : exec (.cohModeDrainEnd) s = execCohModeDrainEnd s := rfl
@[simp] theorem exec_linkFailure (s : State) : ∀ port, exec (.linkFailure port) s = execLinkFailure port s := fun _ => rfl
@[simp] theorem exec_powerLimit (s : State) : ∀ island, exec (.powerLimit island) s = execPowerLimit island s := fun _ => rfl
@[simp] theorem exec_thermalThrottle (s : State) : ∀ die, exec (.thermalThrottle die) s = execThermalThrottle die s := fun _ => rfl
@[simp] theorem exec_thermalHalt (s : State) : exec (.thermalHalt) s = execThermalHalt s := rfl
@[simp] theorem exec_powerOnReset (s : State) : exec (.powerOnReset) s = execPowerOnReset s := rfl
@[simp] theorem exec_cxlMemRequest (s : State) : ∀ host pa data, exec (.cxlMemRequest host pa data) s = execCxlMemRequest host pa data s := fun _ _ _ => rfl
@[simp] theorem exec_cxlCacheResponse (s : State) : ∀ sector, exec (.cxlCacheResponse sector) s = execCxlCacheResponse sector s := fun _ => rfl
@[simp] theorem exec_podAgentRequest (s : State) : ∀ pkg pa access, exec (.podAgentRequest pkg pa access) s = execPodAgentRequest pkg pa access s := fun _ _ _ => rfl
@[simp] theorem exec_peerLineReread (s : State) : ∀ core slot, exec (.peerLineReread core slot) s = execPeerLineReread core slot s := fun _ _ => rfl
@[simp] theorem exec_recoverRecordExpiry (s : State) : ∀ agent sector, exec (.recoverRecordExpiry agent sector) s = execRecoverRecordExpiry agent sector s := fun _ _ => rfl
@[simp] theorem exec_fmApiRequest (s : State) : ∀ grant ld host, exec (.fmApiRequest grant ld host) s = execFmApiRequest grant ld host s := fun _ _ _ => rfl
@[simp] theorem exec_modulePowerRemoval (s : State) : exec (.modulePowerRemoval) s = execModulePowerRemoval s := rfl

end Sys2Proof.Machine
end

