-- ==== Sys2Proof/Laws/Memory.lean ====
section
/-! SUPPORT. Byte lists in canonical form: what a write leaves, that it keeps the form, and that equal memories are equal lists; the same for
the state's memory and for a field's own stores. -/
namespace Sys2Proof.Machine

/-! ### One byte -/

theorem cellsOk_mono {cs : List (Nat × Byte)} {lo hi : Nat} (h : cellsOk hi cs = true) (hl : lo ≤ hi) : cellsOk lo cs = true := by
  cases cs with
  | nil => rfl
  | cons c cs => simp only [cellsOk, Bool.and_eq_true, decide_eq_true_eq] at h ⊢; exact ⟨⟨by omega, h.1.2⟩, h.2⟩

theorem cellsGet_below {cs : List (Nat × Byte)} {lo x : Nat} (h : cellsOk lo cs = true) (hx : x < lo) : cellsGet cs x = 0 := by
  cases cs with
  | nil => rfl
  | cons c cs =>
    simp only [cellsOk, Bool.and_eq_true, decide_eq_true_eq] at h
    simp only [cellsGet]
    rw [if_pos (by omega)]

/-- Reading after a write to one byte. -/
theorem cellsGet_cellsSet {cs : List (Nat × Byte)} {lo : Nat} (h : cellsOk lo cs = true) (x y : Nat) (v : Byte) :
    cellsGet (cellsSet cs x v) y = if y = x then v else cellsGet cs y := by
  induction cs generalizing lo with
  | nil =>
    simp only [cellsSet]
    by_cases hv : v = 0
    · simp [hv, cellsGet]
    · rw [if_neg hv]; simp only [cellsGet]; split_ifs <;> first | rfl | omega
  | cons c cs ih =>
    obtain ⟨a, b⟩ := c
    simp only [cellsOk, Bool.and_eq_true, decide_eq_true_eq] at h
    simp only [cellsSet]
    by_cases h1 : x < a
    · rw [if_pos h1]
      by_cases hv : v = 0
      · rw [if_pos hv]; by_cases hy : y = x
        · rw [if_pos hy, hv, hy]; simp only [cellsGet]; rw [if_pos h1]
        · rw [if_neg hy]
      · rw [if_neg hv]; simp only [cellsGet]; split_ifs <;> first | rfl | omega
    · rw [if_neg h1]
      by_cases h2 : x = a
      · rw [if_pos h2]
        by_cases hv : v = 0
        · rw [if_pos hv]; by_cases hy : y = x
          · rw [if_pos hy, hv, hy]; exact cellsGet_below h.2 (by omega)
          · rw [if_neg hy]; simp only [cellsGet]
            by_cases h3 : y < a
            · rw [if_pos h3]; exact cellsGet_below h.2 (by omega)
            · rw [if_neg h3, if_neg (by omega)]
        · rw [if_neg hv]; simp only [cellsGet]; split_ifs <;> first | rfl | omega
      · rw [if_neg h2]
        simp only [cellsGet, ih h.2]
        split_ifs <;> first | rfl | omega

/-- A write to one byte keeps the form. -/
theorem cellsOk_cellsSet {cs : List (Nat × Byte)} {lo x : Nat} (h : cellsOk lo cs = true) (hx : lo ≤ x) (v : Byte) :
    cellsOk lo (cellsSet cs x v) = true := by
  induction cs generalizing lo with
  | nil =>
    simp only [cellsSet]
    split_ifs with hv
    · rfl
    · simp only [cellsOk, Bool.and_eq_true, decide_eq_true_eq, bne_iff_ne, ne_eq]; exact ⟨⟨hx, hv⟩, trivial⟩
  | cons c cs ih =>
    obtain ⟨a, b⟩ := c
    have h' := h
    simp only [cellsOk, Bool.and_eq_true, decide_eq_true_eq] at h
    simp only [cellsSet]
    split_ifs with h1 hv h2 hv
    · exact h'
    · simp only [cellsOk, Bool.and_eq_true, decide_eq_true_eq]; exact ⟨⟨hx, bne_iff_ne.2 hv⟩, ⟨by omega, h.1.2⟩, h.2⟩
    · exact cellsOk_mono h.2 (by omega)
    · simp only [cellsOk, Bool.and_eq_true, decide_eq_true_eq]; exact ⟨⟨hx, bne_iff_ne.2 hv⟩, h2 ▸ h.2⟩
    · simp only [cellsOk, Bool.and_eq_true, decide_eq_true_eq]; exact ⟨⟨h.1.1, h.1.2⟩, ih h.2 (by omega)⟩

/-! ### Several bytes -/

/-- A write keeps the form. -/
theorem cellsOk_cellsWrite {cs : List (Nat × Byte)} (h : cellsOk 0 cs = true) (a : Nat) (bs : List Byte) : cellsOk 0 (cellsWrite cs a bs) = true := by
  induction bs generalizing cs a with
  | nil => exact h
  | cons b bs ih => exact ih (cellsOk_cellsSet h (Nat.zero_le _) b) _

/-- Reading after a write: the bytes written where they lie, every other byte as it was. -/
theorem cellsGet_cellsWrite {cs : List (Nat × Byte)} (h : cellsOk 0 cs = true) (a : Nat) (bs : List Byte) (x : Nat) :
    cellsGet (cellsWrite cs a bs) x = if a ≤ x ∧ x < a + bs.length then bs.getD (x - a) 0 else cellsGet cs x := by
  induction bs generalizing cs a with
  | nil => simp only [cellsWrite, List.length_nil]; rw [if_neg (by omega)]
  | cons b bs ih =>
    simp only [cellsWrite, List.length_cons]
    rw [ih (cellsOk_cellsSet h (Nat.zero_le _) b), cellsGet_cellsSet h]
    by_cases h1 : a = x
    · subst h1
      rw [if_neg (by omega), if_pos rfl, if_pos (by omega)]; simp
    · by_cases h2 : a + 1 ≤ x ∧ x < a + 1 + bs.length
      · rw [if_pos h2, if_pos (by omega), show x - a = (x - (a + 1)) + 1 from by omega]; simp
      · rw [if_neg h2, if_neg (by omega), if_neg (by omega)]

/-- The bytes read are the bytes at each address. -/
theorem cellsRead_eq (cs : List (Nat × Byte)) (a n : Nat) : cellsRead cs a n = (List.range n).map (fun k => cellsGet cs (a + k)) := by
  induction n generalizing a with
  | zero => rfl
  | succ n ih =>
    rw [List.range_succ_eq_map, List.map_cons, List.map_map, cellsRead, ih]
    have : ∀ k, a + 1 + k = a + (k + 1) := fun k => by omega
    simp [Function.comp_def, this]

/-- Equal reads make equal lists. -/
theorem cells_ext {cs ds : List (Nat × Byte)} {lo : Nat} (hc : cellsOk lo cs = true) (hd : cellsOk lo ds = true)
    (h : ∀ x, cellsGet cs x = cellsGet ds x) : cs = ds := by
  induction cs generalizing ds lo with
  | nil =>
    cases ds with
    | nil => rfl
    | cons d ds =>
      have := h d.1
      simp only [cellsOk, Bool.and_eq_true, bne_iff_ne, ne_eq] at hd
      simp [cellsGet] at this
      exact absurd this.symm hd.1.2
  | cons c cs ih =>
    cases ds with
    | nil =>
      have := h c.1
      simp only [cellsOk, Bool.and_eq_true, bne_iff_ne, ne_eq] at hc
      simp [cellsGet] at this
      exact absurd this hc.1.2
    | cons d ds =>
      obtain ⟨a, b⟩ := c
      obtain ⟨a', b'⟩ := d
      simp only [cellsOk, Bool.and_eq_true, decide_eq_true_eq, bne_iff_ne, ne_eq] at hc hd
      have ha : a = a' := by
        have h1 := h a
        have h2 := h a'
        simp only [cellsGet, lt_irrefl, if_false, if_true] at h1 h2
        rcases lt_trichotomy a a' with hl | he | hg
        · rw [if_pos hl] at h1; exact absurd h1 hc.1.2
        · exact he
        · rw [if_pos hg] at h2; exact absurd h2.symm hd.1.2
      subst ha
      have hb : b = b' := by simpa [cellsGet] using h a
      subst hb
      refine congrArg _ (ih hc.2 hd.2 (fun x => ?_))
      by_cases hx : a < x
      · have := h x
        simpa [cellsGet, Nat.not_lt.mpr hx.le, Nat.ne_of_gt hx] using this
      · rw [cellsGet_below hc.2 (by omega), cellsGet_below hd.2 (by omega)]

/-- Leaving out what lies below a bound keeps the form. -/
theorem cellsOk_filter {cs : List (Nat × Byte)} {lo : Nat} (h : cellsOk lo cs = true) (t : Nat × Byte → Bool) : cellsOk lo (cs.filter t) = true := by
  induction cs generalizing lo with
  | nil => rfl
  | cons c cs ih =>
    have h' := h
    simp only [cellsOk, Bool.and_eq_true, decide_eq_true_eq] at h
    rw [List.filter_cons]
    split_ifs with ht
    · simp only [cellsOk, Bool.and_eq_true, decide_eq_true_eq]; exact ⟨h.1, ih h.2⟩
    · exact cellsOk_mono (ih h.2) (by omega)

/-! ### The state's memory and a field's stores -/

theorem byteAt_writeBytes {s : State} (h : MemOk s) (pa : Nat) (bs : List Byte) (x : Nat) :
    (s.writeBytes pa bs).byteAt x = if pa ≤ x ∧ x < pa + bs.length then bs.getD (x - pa) 0 else s.byteAt x :=
  cellsGet_cellsWrite h pa bs x

theorem MemOk.writeBytes {s : State} (h : MemOk s) (pa : Nat) (bs : List Byte) : MemOk (s.writeBytes pa bs) := cellsOk_cellsWrite h pa bs

theorem MemOk.of_mem {s t : State} (h : MemOk s) (e : t.mem = s.mem) : MemOk t := by rw [MemOk, e]; exact h

theorem Store.writeBytes_ok {t : Store} (h : cellsOk 0 t.cells = true) (a : Nat) (bs : List Byte) : cellsOk 0 (t.writeBytes a bs).cells = true :=
  cellsOk_cellsWrite h a bs

theorem BytesOk.of_eq {s t : State} (h : BytesOk s) (e : t.mem = s.mem) (ef : t.fields = s.fields) : BytesOk t :=
  ⟨h.mem.of_mem e, by rw [ef]; exact h.fields⟩

theorem BytesOk.writeBytes {s : State} (h : BytesOk s) (pa : Nat) (bs : List Byte) : BytesOk (s.writeBytes pa bs) := ⟨h.mem.writeBytes pa bs, h.fields⟩

/-- A change of fields that keeps the form of their stores. -/
theorem BytesOk.onField {s : State} (h : BytesOk s) (id : Nat) (k : Field → Field)
    (hk : ∀ fl ∈ s.fields, cellsOk 0 (k fl).sp.cells = true ∧ cellsOk 0 (k fl).tile.cells = true ∧ cellsOk 0 (k fl).bsl.cells = true) :
    BytesOk (s.onField id k) := by
  refine ⟨h.mem, fun fl hf => ?_⟩
  simp only [State.onField, mapIf, List.mem_map] at hf
  obtain ⟨g, hg, rfl⟩ := hf
  split_ifs
  · exact hk g hg
  · exact h.fields g hg

theorem reset_memOk : MemOk State.reset := rfl

theorem reset_bytesOk : BytesOk State.reset := ⟨rfl, fun _ h => nomatch h⟩

end Sys2Proof.Machine
end

