-- ==== Sys2Proof/Laws/PerInstr.lean ====
section
/-! SUPPORT. Statements made per instruction: one lemma for each constructor of Instr. -/
namespace Sys2Proof.Laws.WordCount

/-- The encoder gives an instruction as many words as it takes (R161), and an event or command none. -/
def Statement (i : Instr) : Prop := (encode i).length = if i.isEvent then 0 else i.words

theorem clause (f : ClauseH) : Statement (.clause f) := rfl
theorem nop (c : Bool) : Statement (.nop c) := rfl
theorem uadd (f : SU) : Statement (.uadd f) := rfl
theorem usub (f : SU) : Statement (.usub f) := rfl
theorem ursub (f : SU) : Statement (.ursub f) := rfl
theorem umul (f : SU) : Statement (.umul f) := rfl
theorem umulhI64 (f : SU) : Statement (.umulhI64 f) := rfl
theorem umulhN64 (f : SU) : Statement (.umulhN64 f) := rfl
theorem udivI64 (f : SU) : Statement (.udivI64 f) := rfl
theorem udivN64 (f : SU) : Statement (.udivN64 f) := rfl
theorem uremI64 (f : SU) : Statement (.uremI64 f) := rfl
theorem uremN64 (f : SU) : Statement (.uremN64 f) := rfl
theorem uminI64 (f : SU) : Statement (.uminI64 f) := rfl
theorem umaxI64 (f : SU) : Statement (.umaxI64 f) := rfl
theorem uminN64 (f : SU) : Statement (.uminN64 f) := rfl
theorem umaxN64 (f : SU) : Statement (.umaxN64 f) := rfl
theorem uins8 (f : SUImm) : Statement (.uins8 f) := rfl
theorem uand (f : SU) : Statement (.uand f) := rfl
theorem uor (f : SU) : Statement (.uor f) := rfl
theorem uxor (f : SU) : Statement (.uxor f) := rfl
theorem uandn (f : SU) : Statement (.uandn f) := rfl
theorem ushl (f : SU) : Statement (.ushl f) := rfl
theorem ushrN64 (f : SU) : Statement (.ushrN64 f) := rfl
theorem ushrI64 (f : SU) : Statement (.ushrI64 f) := rfl
theorem urot (f : SU) : Statement (.urot f) := rfl
theorem useq (f : SU) : Statement (.useq f) := rfl
theorem usne (f : SU) : Statement (.usne f) := rfl
theorem usltI64 (f : SU) : Statement (.usltI64 f) := rfl
theorem usltN64 (f : SU) : Statement (.usltN64 f) := rfl
theorem usleI64 (f : SU) : Statement (.usleI64 f) := rfl
theorem usleN64 (f : SU) : Statement (.usleN64 f) := rfl
theorem upopc (f : SUUn) : Statement (.upopc f) := rfl
theorem uclz (f : SUUn) : Statement (.uclz f) := rfl
theorem bra (f : SB) : Statement (.bra f) := rfl
theorem call (f : SB) : Statement (.call f) := rfl
theorem jmp (f : SCw) : Statement (.jmp f) := rfl
theorem callr (f : SCw) : Statement (.callr f) := rfl
theorem ret (f : SCg) : Statement (.ret f) := rfl
theorem bwz (f : SCb) : Statement (.bwz f) := rfl
theorem bwnz (f : SCb) : Statement (.bwnz f) := rfl
theorem rcv (f : SCm) : Statement (.rcv f) := rfl
theorem exit (f : SCg) : Statement (.exit f) := rfl
theorem yield (f : SCg) : Statement (.yield f) := rfl
theorem loop (f : SCb) : Statement (.loop f) := rfl
theorem sysc (f : SCs) : Statement (.sysc f) := rfl
theorem brk (f : SCn) : Statement (.brk f) := rfl
theorem tret (f : SCm) : Statement (.tret f) := rfl
theorem fend (c : Bool) : Statement (.fend c) := rfl
theorem cend (f : SCc) : Statement (.cend f) := rfl
theorem dhalt (f : SCm) : Statement (.dhalt f) := rfl
theorem pand (f : SP3) : Statement (.pand f) := rfl
theorem por (f : SP3) : Statement (.por f) := rfl
theorem pxor (f : SP3) : Statement (.pxor f) := rfl
theorem pandn (f : SP3) : Statement (.pandn f) := rfl
theorem pnot (f : SP2) : Statement (.pnot f) := rfl
theorem plt (f : SPn) : Statement (.plt f) := rfl
theorem srr (f : SR) : Statement (.srr f) := rfl
theorem srw (f : SR) : Statement (.srw f) := rfl
theorem push (f : SEpush) : Statement (.push f) := rfl
theorem qpop (f : SEpop) : Statement (.qpop f) := rfl
theorem qclaim (f : SEport) : Statement (.qclaim f) := rfl
theorem qput (f : SEport) : Statement (.qput f) := rfl
theorem hwait (f : SEh) : Statement (.hwait f) := rfl
theorem htest (f : SEh) : Statement (.htest f) := rfl
theorem hcancel (f : SEhc) : Statement (.hcancel f) := rfl
theorem hget (f : SEh) : Statement (.hget f) := rfl
theorem hset (f : SEh) : Statement (.hset f) := rfl
theorem sset (f : SEs) : Statement (.sset f) := rfl
theorem sget (f : SEs) : Statement (.sget f) := rfl
theorem winit (f : SEw) : Statement (.winit f) := rfl
theorem warr (f : SEws) : Statement (.warr f) := rfl
theorem wexp (f : SEw) : Statement (.wexp f) := rfl
theorem wwait (f : SEww) : Statement (.wwait f) := rfl
theorem vadd (f : LV) : Statement (.vadd f) := rfl
theorem vsub (f : LV) : Statement (.vsub f) := rfl
theorem vmul (f : LV) : Statement (.vmul f) := rfl
theorem vmulh (f : LV) : Statement (.vmulh f) := rfl
theorem vmad (f : LV) : Statement (.vmad f) := rfl
theorem vdiv (f : LV) : Statement (.vdiv f) := rfl
theorem vrem (f : LV) : Statement (.vrem f) := rfl
theorem vmin (f : LV) : Statement (.vmin f) := rfl
theorem vmax (f : LV) : Statement (.vmax f) := rfl
theorem vabs (f : LV) : Statement (.vabs f) := rfl
theorem vneg (f : LV) : Statement (.vneg f) := rfl
theorem vabsd (f : LV) : Statement (.vabsd f) := rfl
theorem vand (f : LV) : Statement (.vand f) := rfl
theorem vor (f : LV) : Statement (.vor f) := rfl
theorem vxor (f : LV) : Statement (.vxor f) := rfl
theorem vandn (f : LV) : Statement (.vandn f) := rfl
theorem vnot (f : LV) : Statement (.vnot f) := rfl
theorem vshl (f : LV) : Statement (.vshl f) := rfl
theorem vshr (f : LV) : Statement (.vshr f) := rfl
theorem vrot (f : LV) : Statement (.vrot f) := rfl
theorem vpopc (f : LV) : Statement (.vpopc f) := rfl
theorem vclz (f : LV) : Statement (.vclz f) := rfl
theorem vbrev (f : LV) : Statement (.vbrev f) := rfl
theorem vbfe (f : LV) : Statement (.vbfe f) := rfl
theorem vbfi (f : LV) : Statement (.vbfi f) := rfl
theorem vmov (f : LV) : Statement (.vmov f) := rfl
theorem vfadd (f : LV) : Statement (.vfadd f) := rfl
theorem vfsub (f : LV) : Statement (.vfsub f) := rfl
theorem vfmul (f : LV) : Statement (.vfmul f) := rfl
theorem vfma (f : LV) : Statement (.vfma f) := rfl
theorem vfms (f : LV) : Statement (.vfms f) := rfl
theorem vfnma (f : LV) : Statement (.vfnma f) := rfl
theorem vfdiv (f : LV) : Statement (.vfdiv f) := rfl
theorem vfsqrt (f : LV) : Statement (.vfsqrt f) := rfl
theorem vfmin (f : LV) : Statement (.vfmin f) := rfl
theorem vfmax (f : LV) : Statement (.vfmax f) := rfl
theorem vfabs (f : LV) : Statement (.vfabs f) := rfl
theorem vfneg (f : LV) : Statement (.vfneg f) := rfl
theorem vfrint (f : LV) : Statement (.vfrint f) := rfl
theorem vfscale (f : LV) : Statement (.vfscale f) := rfl
theorem vcmp (cc : Cc) (f : LV) : Statement (.vcmp cc f) := rfl
theorem vset (cc : Cc) (f : LV) : Statement (.vset cc f) := rfl
theorem vsel (f : LV) : Statement (.vsel f) := rfl
theorem vfclass (f : LV) : Statement (.vfclass f) := rfl
theorem vcvt (f : LV) : Statement (.vcvt f) := rfl
theorem vpklo (f : LV) : Statement (.vpklo f) := rfl
theorem vpkhi (f : LV) : Statement (.vpkhi f) := rfl
theorem vupklo (f : LV) : Statement (.vupklo f) := rfl
theorem vupkhi (f : LV) : Statement (.vupkhi f) := rfl
theorem vscl (f : LV) : Statement (.vscl f) := rfl
theorem vrcp (f : LV) : Statement (.vrcp f) := rfl
theorem vrsqrt (f : LV) : Statement (.vrsqrt f) := rfl
theorem vexp2 (f : LV) : Statement (.vexp2 f) := rfl
theorem vlog2 (f : LV) : Statement (.vlog2 f) := rfl
theorem vsinpi (f : LV) : Statement (.vsinpi f) := rfl
theorem vcospi (f : LV) : Statement (.vcospi f) := rfl
theorem vtanh (f : LV) : Statement (.vtanh f) := rfl
theorem vfirst (f : LV) : Statement (.vfirst f) := rfl
theorem vballot (f : LV) : Statement (.vballot f) := rfl
theorem psetw (f : LV) : Statement (.psetw f) := rfl
theorem vall (f : LV) : Statement (.vall f) := rfl
theorem vany (f : LV) : Statement (.vany f) := rfl
theorem vuni (f : LV) : Statement (.vuni f) := rfl
theorem vlane (f : LV) : Statement (.vlane f) := rfl
theorem shflIdx (f : LV) : Statement (.shflIdx f) := rfl
theorem shflUp (f : LV) : Statement (.shflUp f) := rfl
theorem shflDown (f : LV) : Statement (.shflDown f) := rfl
theorem shflXor (f : LV) : Statement (.shflXor f) := rfl
theorem vredAdd (f : LV) : Statement (.vredAdd f) := rfl
theorem vredMin (f : LV) : Statement (.vredMin f) := rfl
theorem vredMax (f : LV) : Statement (.vredMax f) := rfl
theorem vredAnd (f : LV) : Statement (.vredAnd f) := rfl
theorem vredOr (f : LV) : Statement (.vredOr f) := rfl
theorem vredXor (f : LV) : Statement (.vredXor f) := rfl
theorem vscanAdd (f : LV) : Statement (.vscanAdd f) := rfl
theorem vscanMin (f : LV) : Statement (.vscanMin f) := rfl
theorem vscanMax (f : LV) : Statement (.vscanMax f) := rfl
theorem vscanxAdd (f : LV) : Statement (.vscanxAdd f) := rfl
theorem vscanxMin (f : LV) : Statement (.vscanxMin f) := rfl
theorem vscanxMax (f : LV) : Statement (.vscanxMax f) := rfl
theorem xacq (f : LX0) : Statement (.xacq f) := rfl
theorem xrel (f : LX0) : Statement (.xrel f) := rfl
theorem ld (f : LM) : Statement (.ld f) := rfl
theorem ldAcq (f : LM) : Statement (.ldAcq f) := rfl
theorem ldw (f : LM) : Statement (.ldw f) := rfl
theorem ldwAcq (f : LM) : Statement (.ldwAcq f) := rfl
theorem st (f : LM) : Statement (.st f) := rfl
theorem stRel (f : LM) : Statement (.stRel f) := rfl
theorem stw (f : LM) : Statement (.stw f) := rfl
theorem stwRel (f : LM) : Statement (.stwRel f) := rfl
theorem gth (f : LM) : Statement (.gth f) := rfl
theorem sct (f : LM) : Statement (.sct f) := rfl
theorem atomAdd (f : LA) : Statement (.atomAdd f) := rfl
theorem atomMin (f : LA) : Statement (.atomMin f) := rfl
theorem atomMax (f : LA) : Statement (.atomMax f) := rfl
theorem atomAnd (f : LA) : Statement (.atomAnd f) := rfl
theorem atomOr (f : LA) : Statement (.atomOr f) := rfl
theorem atomXor (f : LA) : Statement (.atomXor f) := rfl
theorem atomExch (f : LA) : Statement (.atomExch f) := rfl
theorem atomCas (f : LA) : Statement (.atomCas f) := rfl
theorem atomFadd (f : LA) : Statement (.atomFadd f) := rfl
theorem waita (f : LW) : Statement (.waita f) := rfl
theorem pf (f : LP) : Statement (.pf f) := rfl
theorem fenceAcq (f : LF) : Statement (.fenceAcq f) := rfl
theorem fenceRel (f : LF) : Statement (.fenceRel f) := rfl
theorem fenceFull (f : LF) : Statement (.fenceFull f) := rfl
theorem fenceSpec (f : LF) : Statement (.fenceSpec f) := rfl
theorem fenceXp (f : LFx) : Statement (.fenceXp f) := rfl
theorem cset (f : LC) : Statement (.cset f) := rfl
theorem cclr (f : LC) : Statement (.cclr f) := rfl
theorem cget (f : LC) : Statement (.cget f) := rfl
theorem tfr (f : LT) : Statement (.tfr f) := rfl
theorem tfw (f : LT) : Statement (.tfw f) := rfl
theorem svcpost (f : LR1) : Statement (.svcpost f) := rfl
theorem svctake (f : LRd) : Statement (.svctake f) := rfl
theorem fqtake (f : LRd) : Statement (.fqtake f) := rfl
theorem fqdone (f : LRi) : Statement (.fqdone f) := rfl
theorem tlbinvAsid (f : LR1) : Statement (.tlbinvAsid f) := rfl
theorem tlbinvPage (f : LR2) : Statement (.tlbinvPage f) := rfl
theorem tlbinvNong (f : LX0) : Statement (.tlbinvNong f) := rfl
theorem tlbinvAll (f : LX0) : Statement (.tlbinvAll f) := rfl
theorem acrd (f : LRda) : Statement (.acrd f) := rfl
theorem issueSelection (core quarter dt : Nat) : Statement (.issueSelection core quarter dt) := rfl
theorem instructionComplete (core slot : Nat) : Statement (.instructionComplete core slot) := rfl
theorem fenceComplete (core slot : Nat) : Statement (.fenceComplete core slot) := rfl
theorem trapPermitRetry (core slot : Nat) : Statement (.trapPermitRetry core slot) := rfl
theorem watchdog (core slot : Nat) : Statement (.watchdog core slot) := rfl
theorem haltRequestArrive (n : Nat) : Statement (.haltRequestArrive n) := rfl
theorem xacqGrant (core quarter : Nat) : Statement (.xacqGrant core quarter) := rfl
theorem registerReload (core slot : Nat) : Statement (.registerReload core slot) := rfl
theorem fieldRetire (field : Nat) : Statement (.fieldRetire field) := rfl
theorem mma (cmd : Nat) : Statement (.mma cmd) := rfl
theorem copy (cmd : Nat) : Statement (.copy cmd) := rfl
theorem stream (cmd : Nat) : Statement (.stream cmd) := rfl
theorem allreduce (cmd : Nat) : Statement (.allreduce cmd) := rfl
theorem reduceScatter (cmd : Nat) : Statement (.reduceScatter cmd) := rfl
theorem allgather (cmd : Nat) : Statement (.allgather cmd) := rfl
theorem broadcast (cmd : Nat) : Statement (.broadcast cmd) := rfl
theorem send (cmd : Nat) : Statement (.send cmd) := rfl
theorem mxeKstep (cmd : Nat) : Statement (.mxeKstep cmd) := rfl
theorem txeChunkLand (cmd chunk : Nat) : Statement (.txeChunkLand cmd chunk) := rfl
theorem gxeRowDeliver (cmd : Nat) : Statement (.gxeRowDeliver cmd) := rfl
theorem cxeChunkArrive (coll rank chunk : Nat) (ext : List (Nat × List Byte)) : Statement (.cxeChunkArrive coll rank chunk ext) := rfl
theorem engineComplete (cmd : Nat) : Statement (.engineComplete cmd) := rfl
theorem collectiveStart (ctx gid : Nat) (fabric : FabricStart) : Statement (.collectiveStart ctx gid fabric) := rfl
theorem collectiveTimeout (loss : RankLoss) : Statement (.collectiveTimeout loss) := rfl
theorem collectiveRedo (coll : Nat) (plane : Option Nat) : Statement (.collectiveRedo coll plane) := rfl
theorem pageWalk (n : Nat) : Statement (.pageWalk n) := rfl
theorem sqTail (vf q tail : Nat) : Statement (.sqTail vf q tail) := rfl
theorem sqEntryLaunch (vf q : Nat) : Statement (.sqEntryLaunch vf q) := rfl
theorem sqEntryCancel (vf q : Nat) : Statement (.sqEntryCancel vf q) := rfl
theorem fieldPlace (part : Nat) : Statement (.fieldPlace part) := rfl
theorem schemeEvaluate (scheme : Nat) : Statement (.schemeEvaluate scheme) := rfl
theorem preemptRequest (part : Nat) : Statement (.preemptRequest part) := rfl
theorem preemptCollectComplete (field : Nat) : Statement (.preemptCollectComplete field) := rfl
theorem schemeTimeout (scheme : Nat) : Statement (.schemeTimeout scheme) := rfl
theorem scrubComplete (quad : Nat) : Statement (.scrubComplete quad) := rfl
theorem ctxCreate (pf vf descr : Nat) : Statement (.ctxCreate pf vf descr) := rfl
theorem ctxDestroy (pf vf : Nat) : Statement (.ctxDestroy pf vf) := rfl
theorem groupSet (pf vf gid ranks timeout table : Nat) : Statement (.groupSet pf vf gid ranks timeout table) := rfl
theorem queueReset (pf vf q : Nat) : Statement (.queueReset pf vf q) := rfl
theorem quadAssign (pf quad part : Nat) : Statement (.quadAssign pf quad part) := rfl
theorem countersRead (pf die : Nat) : Statement (.countersRead pf die) := rfl
theorem fwOffer (pf addr size : Nat) : Statement (.fwOffer pf addr size) := rfl
theorem attest (pf addr : Nat) (nonce : List Byte) : Statement (.attest pf addr nonce) := rfl
theorem dbgWrite (pf vf : Nat) (msg : List Byte) : Statement (.dbgWrite pf vf msg) := rfl
theorem linkStatus (pf : Nat) : Statement (.linkStatus pf) := rfl
theorem vfBind (pf vf ld : Nat) : Statement (.vfBind pf vf ld) := rfl
theorem sqClaim (vf q gen : Nat) : Statement (.sqClaim vf q gen) := rfl
theorem tasidSWrite (ctx asid : Nat) : Statement (.tasidSWrite ctx asid) := rfl
theorem registerWrite (vf off val : Nat) : Statement (.registerWrite vf off val) := rfl
theorem ldDetach (ld : Nat) : Statement (.ldDetach ld) := rfl
theorem ldReattach (ld : Nat) : Statement (.ldReattach ld) := rfl
theorem orphanTimeout (ctx : Nat) : Statement (.orphanTimeout ctx) := rfl
theorem mailboxTailObserve (ctx : Nat) : Statement (.mailboxTailObserve ctx) := rfl
theorem rd (n : Nat) : Statement (.rd n) := rfl
theorem wr (n : Nat) : Statement (.wr n) := rfl
theorem tok (n : Nat) : Statement (.tok n) := rfl
theorem preq (n : Nat) : Statement (.preq n) := rfl
theorem pact (n : Nat) : Statement (.pact n) := rfl
theorem pdeact (n : Nat) : Statement (.pdeact n) := rfl
theorem lost (n : Nat) : Statement (.lost n) := rfl
theorem recover (n : Nat) : Statement (.recover n) := rfl
theorem reissue (n : Nat) : Statement (.reissue n) := rfl
theorem transientTimeout (agent sector : Nat) : Statement (.transientTimeout agent sector) := rfl
theorem persistentTimeout (sector : Nat) : Statement (.persistentTimeout sector) := rfl
theorem orderedTimeout (agent sector : Nat) : Statement (.orderedTimeout agent sector) := rfl
theorem recoveryWindowEnd (sector : Nat) : Statement (.recoveryWindowEnd sector) := rfl
theorem messageDrop (n : Nat) : Statement (.messageDrop n) := rfl
theorem holderEvict (agent sector : Nat) : Statement (.holderEvict agent sector) := rfl
theorem tokenStateError (agent sector : Nat) (unreadable : Bool) : Statement (.tokenStateError agent sector unreadable) := rfl
theorem snpdata (sector : Nat) : Statement (.snpdata sector) := rfl
theorem snpinv (sector : Nat) (data : Option (List Byte)) : Statement (.snpinv sector data) := rfl
theorem snpcur (sector : Nat) : Statement (.snpcur sector) := rfl
theorem backInvalidateResponse (sector : Nat) : Statement (.backInvalidateResponse sector) := rfl
theorem cohModeWrite (mode : Bool) : Statement (.cohModeWrite mode) := rfl
theorem cohModeDrainEnd : Statement (.cohModeDrainEnd) := rfl
theorem linkFailure (port : Nat) : Statement (.linkFailure port) := rfl
theorem powerLimit (island : Nat) : Statement (.powerLimit island) := rfl
theorem thermalThrottle (die : Nat) : Statement (.thermalThrottle die) := rfl
theorem thermalHalt : Statement (.thermalHalt) := rfl
theorem powerOnReset : Statement (.powerOnReset) := rfl
theorem cxlMemRequest (host pa : Nat) (data : Option (List Byte)) : Statement (.cxlMemRequest host pa data) := rfl
theorem cxlCacheResponse (sector : Nat) : Statement (.cxlCacheResponse sector) := rfl
theorem podAgentRequest (pkg pa : Nat) (access : OuterAccess) : Statement (.podAgentRequest pkg pa access) := rfl
theorem peerLineReread (core slot : Nat) : Statement (.peerLineReread core slot) := rfl
theorem recoverRecordExpiry (agent sector : Nat) : Statement (.recoverRecordExpiry agent sector) := rfl
theorem fmApiRequest (grant : Bool) (ld host : Nat) : Statement (.fmApiRequest grant ld host) := rfl
theorem modulePowerRemoval : Statement (.modulePowerRemoval) := rfl

end Sys2Proof.Laws.WordCount
end

