-- ==== Sys2Proof/Laws/Results.lean ====
section
/-! SUPPORT. What each shared frame of an instruction's meaning can do: one law for uniform, predicate, vote and vector instructions each. -/
namespace Sys2Proof.Machine

/-! ### Register writes leave the run of the furrow alone -/

theorem sameRun_writeW (f : Furrow) (d : Nat) (v : W64) : SameRun f (f.writeW d v) := by
  unfold Furrow.writeW
  split
  · exact SameRun.refl f
  · split <;> exact ⟨rfl, rfl, rfl, rfl, rfl, rfl, rfl, rfl⟩

theorem sameRun_writeP (f : Furrow) (d : Nat) (m v : Mask) : SameRun f (f.writeP d m v) := by
  unfold Furrow.writeP
  dsimp only
  split
  · exact SameRun.refl f
  · split <;> exact ⟨rfl, rfl, rfl, rfl, rfl, rfl, rfl, rfl⟩

theorem sameRun_writeV (f : Furrow) (d : Nat) (m : Mask) (x : Nat → W32) : SameRun f (f.writeV d m x) := ⟨rfl, rfl, rfl, rfl, rfl, rfl, rfl, rfl⟩

theorem sameRun_writePair (f : Furrow) (d : Nat) (m : Mask) (x : Nat → W64) : SameRun f (f.writePair d m x) :=
  (sameRun_writeV f d m _).trans (sameRun_writeV _ (d + 1) m _)

theorem sameRun_writeLanes (f : Furrow) (t : Ty) (d : Nat) (m : Mask) (x : Nat → Nat) : SameRun f (f.writeLanes t d m x) := by
  unfold Furrow.writeLanes
  split
  · exact sameRun_writePair f d m _
  · exact sameRun_writeV f d m _

theorem fpenv_writeW (f : Furrow) (d : Nat) (v : W64) : (f.writeW d v).fpenv = f.fpenv := by
  unfold Furrow.writeW; split
  · rfl
  · split <;> rfl

theorem fpenv_writeLanes (f : Furrow) (t : Ty) (d : Nat) (m : Mask) (x : Nat → Nat) : (f.writeLanes t d m x).fpenv = f.fpenv := by
  unfold Furrow.writeLanes
  split <;> rfl

/-- No flag raised leaves `FPENV` as it is. -/
theorem raise_zero (f : Furrow) : f.raise 0 = f := by
  unfold Furrow.raise
  have : f.fpenv ||| BitVec.ofNat 32 (0 % 64) = f.fpenv := by simp
  rw [this]

/-! ### Frames of meanings -/

/-- A change of the furrow that raises no flag and writes no `v` register. -/
theorem done_plain {s : State} {q : Issue} {f f1 : Furrow} {g : Group} {i : Instr} (h : Issues s q f g i) (r : SameRun f f1) :
    ∃ t, s.done i q f1 g 0 0 = .next t ∧ Completes s t q g i f1 := by
  obtain ⟨t, e, c⟩ := done_completes h 0 0 none r (.inr (.inl rfl)) (.inr (.inl rfl))
  rw [raise_zero] at c
  exact ⟨t, e, c⟩

/-- Uniform instructions and others that write one `w` register. -/
theorem writesW_of {s : State} {q : Issue} {f : Furrow} {g : Group} {i : Instr} {d : Nat} {v : W64}
    (he : Issues s q f g i → exec i s = s.done i q (f.writeW d v) g 0 0) : WritesW s q f g i d v := by
  intro h
  rw [Does, he h]
  exact done_plain h (sameRun_writeW f d v)

/-- Predicate instructions. -/
theorem writesP_of {s : State} {q : Issue} {f : Furrow} {g : Group} {i : Instr} {d : Nat} {v : Mask}
    (he : Issues s q f g i → exec i s = s.done i q (f.writeP d (f.activeSet i g) v) g 0 0) : WritesP s q f g i d v := by
  intro h
  rw [Does, he h]
  exact done_plain h (sameRun_writeP f d _ v)

/-- A merged write does not see what lies past lane 31. -/
theorem mergeV_congr (o : VReg) (m : Mask) {a b : Nat → W32} (h : ∀ i, i < 32 → a i = b i) : mergeV o m a = mergeV o m b := by
  unfold mergeV vOfLanes
  apply List.foldl_ext
  intro r i hi
  rw [List.mem_range] at hi
  simp only [h i hi]

theorem writeV_congr (f : Furrow) (d : Nat) (m : Mask) {a b : Nat → W32} (h : ∀ i, i < 32 → a i = b i) : f.writeV d m a = f.writeV d m b := by
  unfold Furrow.writeV; rw [mergeV_congr _ m h]

theorem writePair_congr (f : Furrow) (d : Nat) (m : Mask) {a b : Nat → W64} (h : ∀ i, i < 32 → a i = b i) :
    f.writePair d m a = f.writePair d m b := by
  unfold Furrow.writePair
  rw [writeV_congr f d m (b := fun i => (b i).setWidth 32) (fun i hi => by rw [h i hi]),
    writeV_congr _ (d + 1) m (b := fun i => (b i >>> 32).setWidth 32) (fun i hi => by rw [h i hi])]

theorem writeLanes_congr (f : Furrow) (t : Ty) (d : Nat) (m : Mask) {x y : Nat → Nat} (h : ∀ i, i < 32 → x i = y i) :
    f.writeLanes t d m x = f.writeLanes t d m y := by
  unfold Furrow.writeLanes
  split
  · exact writePair_congr f d m (fun i hi => by rw [h i hi])
  · exact writeV_congr f d m (fun i hi => by rw [h i hi])

theorem flagsOver_congr (m : Mask) {x y : Nat → Nat} (h : ∀ i, i < 32 → x i = y i) : flagsOver m x = flagsOver m y := by
  unfold flagsOver
  apply List.foldl_ext
  intro r i hi
  unfold lanesOf at hi
  rw [List.mem_filter, List.mem_range] at hi
  rw [h i hi.1]

/-- The frame of R211. -/
theorem vectorDone_writes {s : State} {q : Issue} {f : Furrow} {g : Group} {i : Instr} {t : Ty} {d : Nat} {r : Nat → Nat × Nat}
    (he : Issues s q f g i → exec i s = vectorDone s i q f g t d r) : WritesV s q f g i t d r := by
  intro h hm hn hh ht
  have e1 : f.writeLanes t d (f.activeSet i g) (fun j => (laneAt (tableOf r) j).1) = f.writeLanes t d (f.activeSet i g) (fun l => (r l).1) :=
    writeLanes_congr f t d _ (fun j hj => by rw [laneAt_tableOf r hj])
  have e2 : flagsOver (f.activeSet i g) (fun j => (laneAt (tableOf r) j).2) = flagsOver (f.activeSet i g) (fun l => (r l).2) :=
    flagsOver_congr _ (fun j hj => by rw [laneAt_tableOf r hj])
  rw [Does, he h]
  unfold vectorDone
  dsimp only
  rw [if_neg hm, e1, e2]
  refine done_completes h _ _ none (sameRun_writeLanes f t d _ _) (.inr (.inr ?_)) (.inr (.inr ⟨hn, fpenv_writeLanes f t d _ _, hh⟩))
  have : (f.writeLanes t d (f.activeSet i g) (fun l => (r l).1)).trapEnables = f.trapEnables := by
    unfold Furrow.trapEnables; rw [fpenv_writeLanes]
  rw [this]; exact ht

/-- An empty active set: nothing but the next word (R211). -/
theorem vectorDone_empty {s : State} {q : Issue} {f : Furrow} {g : Group} {i : Instr} (t : Ty) (d : Nat) (r : Nat → Nat × Nat)
    (h : Issues s q f g i) (hm : f.activeSet i g = 0) : ∃ t', vectorDone s i q f g t d r = .next t' ∧ Completes s t' q g i f := by
  unfold vectorDone
  dsimp only
  rw [if_pos hm]
  exact skip_completes h

/-- Element-wise instructions (R211). -/
theorem elementwise_writes {s : State} {q : Issue} {f : Furrow} {g : Group} {i : Instr} {x : LV} {op : Furrow → Nat → Nat → Nat → Nat × Nat}
    (he : exec i s = elementwise i x s op) : WritesElems s q f g i x (op f) := by
  refine vectorDone_writes (fun h => ?_)
  rw [he, elementwise, running_issues h]
  rfl

end Sys2Proof.Machine
end

