-- ==== Sys2Proof/Tests/Slice0.lean ====
section
/-! SUPPORT. The model's own tests: words written out from the specification, one-step runs, ill-formed terms, and states that meet the
hypotheses of the statements. -/
namespace Sys2Proof.Tests
open Sys2Proof.Machine

set_option Elab.async false

/-! ### Words the specification gives with their assembly, and words built from its tables of fields -/

/-- R167 (the example of 07_encoding), R164, R184, R186 built from format SU, R172, R190, R192, R193. -/
theorem test_decode_uniform_and_control :
    decode [0x0223E010] = .ok (.clause { nr := false, len := 1, seta := 1, setb := 15, wait := 8 }, 1)
    ∧ decode [0x18000000] = .ok (.nop false, 1)
    ∧ decode [0x041881F9] = .ok (.uadd { c := false, wd := 3, wa := 4, b := .imm 0xF9 }, 1)
    ∧ decode [0x0628C007] = .ok (.uand { c := false, wd := 5, wa := 6, b := .reg 7 }, 1)
    ∧ decode [0x08000342] = .ok (.bra { c := false, pkt := 52, g := 2 }, 1)
    ∧ decode [0x0A000287] = .ok (.call { c := false, pkt := 40, g := 7 }, 1)
    ∧ decode [0x0C37D847] = .ok (.loop { c := false, wa := 6, off := 0xFB, g := 7 }, 1)
    ∧ decode [0x0C000037] = .ok (.exit { c := false, g := 7 }, 1)
    ∧ decode [0x0C00002F] = .ok (.rcv { c := false, wa := 0 }, 1) := by decide

/-- R197, R198, R316 (number 0x005), R266, R261, R330, R334 to R336. -/
theorem test_decode_predicate_system_ports :
    decode [0x1040082F] = .ok (.plt { c := false, pd := 1, n := 8, g := 7 }, 1)
    ∧ decode [0x12500280] = .ok (.srr { c := false, w := 10, srn := 0x005 }, 1)
    ∧ decode [0x14244000] = .ok (.push { c := false, q := 1, h := 2, wa := 8, sel := 0 }, 1)
    ∧ decode [0x1404A004] = .ok (.hwait { c := false, h := 2, wa := 20 }, 1)
    ∧ decode [0x16603810] = .ok (.sset { c := false, n := 3, wa := 7, k := 2 }, 1)
    ∧ decode [0x0E280047] = .ok (.tret { c := false, wa := 5 }, 1)
    ∧ decode [0x0E00004F] = .ok (.fend false, 1)
    ∧ decode [0x0E001057] = .ok (.cend { c := false, n := 2 }, 1)
    ∧ decode [0x0E20005F] = .ok (.dhalt { c := false, wa := 4 }, 1) := by decide

/-- R214, R218, R222, R226, R229, R232 built from formats LA and LX, R199, R202, R206. -/
theorem test_decode_vector :
    decode [0xA0080817, 0x7E005582] = .ok (.vshl { c := false, d := 2, a := 1, b := .imm 2, c3 := 0, g := 7, ty := .n32, rm := .dyn, sat := false }, 2)
    ∧ decode [0xA2285087, 0x7E000A01] = .ok (.vfmul { c := false, d := 10, a := 10, b := .w 8, c3 := 0, g := 7, ty := .f16, rm := .dyn, sat := false }, 2)
    ∧ decode [0xA4045807, 0x7E000882] = .ok (.vcmp .lt { c := false, d := 1, a := 11, b := .imm 0, c3 := 0, g := 7, ty := .i32, rm := .dyn, sat := false }, 2)
    ∧ decode [0xA6784457, 0x7E000306] = .ok (.vcvt { c := false, d := 30, a := 8, b := .imm 0x8A, c3 := 0, g := 7, ty := .e4m3, rm := .dyn, sat := true }, 2)
    ∧ decode [0xA8102807, 0x7E000280] = .ok (.vrcp { c := false, d := 4, a := 5, b := .v 0, c3 := 0, g := 7, ty := .f32, rm := .dyn, sat := false }, 2)
    ∧ decode [0xAA200807, 0x7E004080] = .ok (.vredAdd { c := false, d := 8, a := 1, b := .v 0, c3 := 0, g := 7, ty := .i32, rm := .dyn, sat := false }, 2)
    ∧ decode [0xAA000007, 0x7E00C000] = .ok (.xacq { c := false, g := 7 }, 2) := by decide

/-- R236, R246, R248, R250 built from formats LA and LX, R259, R283, R327. -/
theorem test_decode_memory_caddy_privileged :
    decode [0xAC101067, 0x7E008180]
      = .ok (.ld { c := false, d := 4, a := 2, b := .v 6, c3 := 0, g := 7, am := false, scl := 2, x2 := false, ty := .n32, scope := .thread, vol := false }, 2)
    ∧ decode [0xAE001837, 0x7E280140]
      = .ok (.st { c := false, d := 0, a := 3, b := .v 3, c3 := 10, g := 7, am := false, scl := 0, x2 := false, ty := .n16, scope := .thread, vol := false }, 2)
    ∧ decode [0xB0282027, 0x7E008180]
      = .ok (.gth { c := false, d := 10, a := 4, b := .v 2, c3 := 0, g := 7, am := false, scl := 2, x2 := false, ty := .n32, scope := .thread, vol := false }, 2)
    ∧ decode [0xB2141007, 0x7E184192]
      = .ok (.atomAdd { c := false, d := 5, a := 2, b := .imm 0, c3 := 6, g := 7, am := false, ord := 1, ty := .n32, scope := .core }, 2)
    ∧ decode [0xB4000007, 0x7E000820] = .ok (.fenceFull { c := false, g := 7, scope := .die }, 2)
    ∧ decode [0xB4000107, 0x7E001012] = .ok (.fenceXp { c := false, g := 7, wr := .txe, rd := .ls }, 2)
    ∧ decode [0xB600802F, 0x7E000002] = .ok (.cset { c := false, d := 0, a := 16, id := 5, g := 7 }, 2)
    ∧ decode [0xB8100017, 0x7E000000] = .ok (.tfr { c := false, d := 4, a := 0, b := .v 1, g := 7, fr := 0, sel := 0 }, 2) := by decide

/-- R171, R162, R172, R161: reserved encodings are refused by name: an all-zero word, a reserved minor, a clause of length 0, a target past the last
packet, a long word without its second. -/
theorem test_decode_refuses :
    decode [0] = .error .reservedMajor ∧ decode [0x0E0000C7] = .error .reservedMinor ∧ decode [0x0203E010] = .error .reservedField
    ∧ decode [0x08000007 + 1398101 * 16] = .error .reservedField ∧ decode [0xA0080817] = .error .brokenLong
    ∧ decode [0xA0080817, 0x18000000] = .error .brokenLong := by decide

/-! ### Ill-formed terms -/

/-- Operand fields of a plain vector instruction. -/
def lv (ty : Ty) : LV := { c := false, d := 4, a := 2, b := .v 6, c3 := 0, g := 7, ty := ty, rm := .dyn, sat := false }
/-- Those of a load or store, of an atomic, of `waita`. -/
def lm : LM := { c := false, d := 4, a := 2, b := .imm 0, c3 := 0, g := 7, am := false, scl := 0, x2 := false, ty := .n32, scope := .thread, vol := false }
def la (ord : Nat) (scope : Scope) : LA := { c := false, d := 4, a := 2, b := .imm 0, c3 := 6, g := 7, am := false, ord := Fin.ofNat 4 ord, ty := .n32, scope := scope }

/-- Each check of R163, R166 and of the rows' tables of fields refuses a term. -/
theorem test_wf_refuses : ∀ i ∈ [Instr.clause { nr := false, len := 0, seta := 15, setb := 15, wait := 0 }, .bra { c := false, pkt := 1398101, g := 7 },
    .plt { c := false, pd := 1, n := 33, g := 7 }, .push { c := false, q := 0, h := 0, wa := 61, sel := 0 }, .push { c := false, q := 1, h := 0, wa := 57, sel := 0 },
    .push { c := false, q := 1, h := 0, wa := 8, sel := 1 }, .winit { c := false, wa := 63 }, .vadd (lv .f32), .vfadd (lv .i32), .vadd { lv .i32 with rm := .rne },
    .vand { lv .n32 with sat := true }, .vadd { lv .i64 with d := 5 }, .vadd { lv .i64 with a := 127 }, .vadd { lv .i64 with b := .v 7 },
    .vadd { lv .i32 with c3 := 1 }, .vnot (lv .n32), .vmov { lv .n32 with a := 1 }, .vbfe { lv .n32 with b := .imm 0 }, .vdiv (lv .i8), .vcmp .ord (lv .i32),
    .vcmp .eq { lv .i32 with d := 8 }, .vsel { lv .n32 with c3 := 8 }, .vcvt { lv .f32 with b := .imm 0x80 }, .vpklo { lv .f32 with a := 2 },
    .vscl { lv .e8m0 with b := .imm 15 }, .vrcp (lv .f64), .vballot { lv .i8 with d := 64 }, .vlane { lv .i8 with a := 1 }, .shflXor (lv .i32),
    .vredAnd (lv .i32), .ld { lm with scope := .core }, .ldAcq lm, .stRel { lm with d := 0, vol := true }, .atomAdd (la 0 .core), .atomAdd (la 1 .thread),
    .atomFadd (la 0 .thread), .atomCas { la 0 .thread with c3 := 7 }, .fenceAcq { c := false, g := 7, scope := .thread },
    .cset { c := false, d := 0, a := 58, id := 0, g := 7 }, .cclr { c := false, d := 0, a := 0, id := 64, g := 7 }, .cget { c := false, d := 4, a := 7, id := 0, g := 7 },
    .tfr { c := false, d := 4, a := 0, b := .v 1, g := 7, fr := 3, sel := 0 }, .tfw { c := false, d := 0, a := 4, b := .v 1, g := 7, fr := 0, sel := 2 },
    .svctake { c := false, d := 63, g := 7 }, .fqtake { c := false, d := 61, g := 7 }, .acrd { c := false, d := 0, a := 1, clr := false, g := 7 }, .thermalHalt],
    i.wf = false := by decide

/-- Terms of the same shapes that the checks let pass. -/
theorem test_wf_accepts : ∀ i ∈ [Instr.plt { c := false, pd := 1, n := 32, g := 7 }, .push { c := false, q := 1, h := 0, wa := 56, sel := 0 },
    .vadd { lv .i64 with sat := true }, .vfadd { lv .f16 with rm := .rdn }, .ld lm, .atomAdd (la 1 .core), .atomCas (la 0 .thread),
    .cset { c := false, d := 0, a := 57, id := 63, g := 7 }], i.wf = true := by decide

/-! ### A small machine: one furrow of 32 lanes in core 1, slot 0, whose group issues -/

/-- The group, at PC 0 of a level. -/
def tg (level : Nat) : Group := { lanes := 0xFFFFFFFF, pc := 0, level := level }
/-- The furrow: `p0` false and the other predicates true, `w2` the address of byte 0x40 of its own scratchpad, the extended block held. -/
def tf (level : Nat) : Furrow :=
  { probeFurrow with
    level := level, groups := [tg level], ext := .right, p := #v[0, 0xFFFFFFFF, 0xFFFFFFFF, 0xFFFFFFFF, 0xFFFFFFFF, 0xFFFFFFFF],
    w := (Vector.replicate 56 0).set 2 0x01FFFF0000000040 }
/-- The field, with 4 KiB of scratchpad. -/
def tfield : Field := { probeField with sp := { size := 4096 } }
/-- The issue register. -/
def tq : Issue := { core := 1, slot := 0, lanes := 0xFFFFFFFF }
/-- The package: memory at 0x1000 to 0x1FFF is mapped where it lies. -/
def ts (f : Furrow) : State :=
  { State.reset.withFetchWord 32 0 with
    furrows := [f], fields := [tfield], cohMode := false,
    dies := State.reset.dies.set 0 { State.reset.dies[0] with
        tlb := [{ asid := 0, vbase := 0x1000, size := 4096, pbase := 0x1000, g := false, u := true, x := true, w := true, r := true }] } }

/-- The furrow's group stands. -/
theorem stands {f : Furrow} {g : Group} (hc : f.core = 1) (hs : f.slot = 0) (hg : f.group? 0xFFFFFFFF = some g) (ha : f.spec = none) (ht : f.step = none)
    (hl : f.ending = false) : Stands (ts f) tq f g where
  issue := rfl
  furrow := by simp [ts, tq, State.furrow?, hc, hs]
  group := hg
  ahead := ha
  step := ht
  alone := rfl
  own := rfl
  lives := hl

/-- Every instruction issues above level 0 while the extended block is held: the hypotheses of UniformArithmetic, UniformDivision, UniformLogic,
Predicates, RecordMoves, and the first of every statement about one instruction. -/
theorem test_issues (i : Instr) : Issues (ts (tf 1)) tq (tf 1) (tg 1) i where
  toStands := stands rfl rfl (by decide +kernel) rfl rfl rfl
  block := fun _ => by decide
  right := fun _ => by decide

/-- The same at level 0, for an instruction that is not privileged. -/
theorem test_issues_user (i : Instr) (h : isPrivileged i = false) : Issues (ts (tf 0)) tq (tf 0) (tg 0) i where
  toStands := stands rfl rfl (by decide +kernel) rfl rfl rfl
  block := fun _ => by decide
  right := fun hi => by simp [h] at hi

/-- The same for any furrow of this shape above level 0. -/
theorem issues {f : Furrow} {g : Group} (hc : f.core = 1) (hs : f.slot = 0) (hg : f.group? 0xFFFFFFFF = some g) (ha : f.spec = none) (ht : f.step = none)
    (hv : f.ending = false) (he : f.ext ≠ .none) (hl : f.level ≠ 0) (i : Instr) : Issues (ts f) tq f g i where
  toStands := stands hc hs hg ha ht hv
  block := fun _ => he
  right := fun _ => hl

/-- A vector instruction's set of active lanes is not empty, no block could be spilled, no flag is enabled to trap: with `test_issues`, the hypotheses of
VectorInteger, VectorBits, VectorFloat, ComparesAndSelects, Conversions, VotesAndShuffles, Reductions and Scans. -/
theorem test_writes_v (r : Nat → Nat) : (tf 1).activeSet (.vadd (lv .i32)) (tg 1) ≠ 0 ∧ NoSpill (ts (tf 1)) tq
    ∧ flagsOver ((tf 1).activeSet (.vadd (lv .i32)) (tg 1)) r &&& (tf 1).trapEnables = 0 := by
  refine ⟨by decide +kernel, by unfold NoSpill; decide +kernel, ?_⟩
  rw [show (tf 1).trapEnables = 0 from by decide +kernel]; simp

/-- No instruction of the small machine hits the reuse tables, which are empty at reset (HitHolds, and the misses of Loads). -/
theorem test_no_hit (f : Furrow) (i : Instr) (g : Group) (m : Mask) (b : Bool) (k : Lookup) (h : (ts f).lookup i f g m b = some k) : k.hit = none := by
  have e : ∀ q : Fin 4, ((ts f).core f.core).reuse[q] = [] := by
    intro q
    have hc : (ts f).cores = [] := rfl
    simp [State.core, hc]
  simp only [State.lookup] at h
  split at h
  · cases h; simp [e]
  · cases h

/-- HitHolds there. -/
theorem test_hit_holds (f f1 : Furrow) (i : Instr) (g : Group) (m : Mask) (b : Bool) (fl : Nat) : HitHolds (ts f) i f g m b f1 fl :=
  fun _ k e hk he => by simp [test_no_hit f i g m b k hk] at he

/-- EmptyActiveSet: a guard that is false in every lane. -/
theorem test_empty_active_set : (tf 1).activeSet (.vadd { lv .i32 with g := 0 }) (tg 1) = 0 := by decide +kernel

/-! ### States that meet the hypotheses of the statements on vectors, control and traps -/

/-- A trap of this furrow can be entered. -/
theorem ready {f : Furrow} {r : TrapReq} {n : Nat}
    (h : (ts f).ctx? ((ts f).ctxOf f) = some { ctx := 1 } ∧ routeTrap { ctx := 1 } r.code f.level = some n ∧ r.lanes ≠ 0
      ∧ r.lanes &&& f.running = r.lanes ∧ (f.level ≠ 0 ∨ f.permit = true ∨ (ts f).permitFor f r.lanes = true)) :
    TrapReady (ts f) tq f r n where
  route := ⟨_, h.1, h.2.1⟩
  lanes := h.2.2.1
  inside := h.2.2.2.1
  permit := h.2.2.2.2
  first := rfl

/-- FloatTrapTaken: 0 divided by 0 with every flag enabled raises NV and enters level 3. -/
theorem test_float_trap_hyp : let f := { tf 1 with fpenv := 0x3F000 }
    let m := f.activeSet (.vfdiv (lv .f32)) (tg 1)
    let fl := flagsOver m (fun l => (f.floatLane (lv .f32) (fun a b _ => divNum a b .f32 (f.rmode .dyn) f.ftz) l).2)
    Issues (ts f) tq f (tg 1) (.vfdiv (lv .f32)) ∧ NoSpill (ts f) tq ∧ fl &&& f.trapEnables ≠ 0
      ∧ TrapReady (ts f) tq f (trapAt m 0x28 (fl &&& f.trapEnables) (nextPc 0 2)) 3 := by
  refine ⟨issues rfl rfl (by decide +kernel) rfl rfl rfl (by decide) (by decide) _, by unfold NoSpill; decide +kernel, by decide +kernel,
    ready (by decide +kernel)⟩

/-- UniformDivision: the operands of its last clause. -/
theorem test_division_corner_hyp : (0x8000000000000000 : W64).toInt = -(2 : Int) ^ 63 ∧ (0xFFFFFFFFFFFFFFFF : W64).toInt = -1 := by decide

/-- FormatValuesExact at 1.0 and at the greatest `.f16`; ComparesAndSelects with a NaN; VectorInteger and Reductions with an integer type. -/
theorem test_values_hyp : Ty.f16 ∈ [Ty.f16, .bf16, .f32, .f64, .e4m3, .e5m2] ∧ (∀ x ∈ [0x3C00, 0x7BFF], x < 2 ^ Ty.f16.width ∧ (decodeNum .f16 x).isNan = false)
    ∧ Ty.f32.isInt = false ∧ (operandNum .f32 (tf 1).ftz 0x7FC00000).isNan = true ∧ Ty.i8.isInt = true ∧ 0x80 < 2 ^ Ty.i8.width := by decide +kernel

/-- The group is whole. -/
theorem whole (n : Nat) : WholeGroup (tf n) (tg n) where
  live := by intro l hl _; interval_cases l <;> rfl
  alone := by intro h hh; left; simpa [tf] using hh
  lanes := by intro h hh; rw [show h = tg n from by simpa [tf] using hh]; show (0xFFFFFFFF : Mask) ≠ 0; decide

/-- Branches: a computed target inside the code; `loop` with lanes whose guard is true, and with none. Calls: room on every stack. ExitedLanes: no lane
exits, some do, all do. -/
theorem test_control_hyp : let f := tf 0
    (f.readW 0).toNat < ((ts f).codeOf f).2 ∧ f.activeSet (.loop { c := false, wa := 0, off := 0, g := 7 }) (tg 0) ≠ 0
    ∧ f.activeSet (.loop { c := false, wa := 0, off := 0, g := 0 }) (tg 0) = 0
    ∧ (∀ l ∈ List.range 32, (laneAt f.lanes l).depthAt f.level < 16) ∧ WholeGroup f (tg 0) ∧ f.level = 0
    ∧ f.activeSet (.exit { c := false, g := 0 }) (tg 0) = 0 ∧ f.activeSet (.exit { c := false, g := 7 }) (tg 0) = (tg 0).lanes
    ∧ f.groups = [tg 0] ∧ f.posted = [] := by
  and_intros <;> first | exact whole 0 | rfl | decide +kernel

/-- Calls: every lane can return. -/
theorem test_ret_hyp : let f := { tf 0 with lanes := Vector.replicate 32 { status := .live, udepth := 16 } }
    ∀ l ∈ List.range 32, f.floorOf l < (laneAt f.lanes l).depthAt f.level := by decide +kernel

/-- ExitedLanes: some lanes of the group exit and some do not. -/
theorem test_exit_some_hyp : let f := { tf 0 with p := (tf 0).p.set 3 0xFF }
    let m := f.activeSet (.exit { c := false, g := 3 }) (tg 0)
    m ≠ 0 ∧ m ≠ (tg 0).lanes := by decide +kernel

/-- ClausesAndHolds: no clause is running, and the flags waited for are all 1. -/
theorem test_clause_hyp : (tg 1).clause = none ∧ (0x008#12 &&& ~~~({ tf 1 with flags := 0x008 } : Furrow).flags) = 0 := by decide +kernel

/-- SystemRegisters: every register can be read and written at level 3. -/
theorem test_system_rights_hyp : ∀ n ∈ [0x000, 0x004, 0x100, 0x107, 0x108, 0x110, 0x113, 0x118, 0x119, 0x180, 0x181, 0x200, 0x201, 0x202, 0x280, 0x28F, 0x290],
    (sysRights n).map (fun t => rightAt t 3) = some .rw := by decide

/-- SystemRegisters: a `TASID_S` that another context holds, the reserved ones, one that is free. -/
theorem test_tasid_hyp : [({ ctx := 1 } : Ctx), { ctx := 2, tasid := 7 }].any (fun c => c.ctx != 1 && c.tasid == 7) = true
    ∧ [({ ctx := 1 } : Ctx)].any (fun c => c.ctx != 1 && c.tasid == 7) = false ∧ 0xFFF0 ≤ (0xFFF5#16).toNat ∧ (0xFFF5#16).toNat ≤ 0xFFF5 := by decide

/-- SystemCalls: lanes trap at level 1 and enter level 3, at level 0 and enter level 3; at level 3 there is no level to enter. -/
theorem test_system_call_hyp : let i := Instr.sysc { c := false, wa := 2, n := 9, g := 7 }
    (∀ k ∈ [0, 1, 2, 3], (tf k).activeSet i (tg k) ≠ 0)
    ∧ TrapReady (ts (tf 1)) tq (tf 1) { trapAt 0xFFFFFFFF 1 9 4 with arg := (tf 1).readW 2 } 3
    ∧ TrapReady (ts (tf 0)) tq (tf 0) { trapAt 0xFFFFFFFF 1 9 4 with arg := (tf 0).readW 2 } 3
    ∧ TrapReady (ts (tf 2)) tq (tf 2) (trapAt 0xFFFFFFFF 2 9 0) 3
    ∧ (ts (tf 3)).ctx? ((ts (tf 3)).ctxOf (tf 3)) = some { ctx := 1 } ∧ routeTrap { ctx := 1 } 0x20 3 = none := by
  and_intros <;> first | decide +kernel | exact ready (by decide +kernel)

/-- A call at level 3 ends its context with a context fault of cause ILLEGAL (R196, R321). -/
theorem test_call_at_level_3 : (match exec (.sysc { c := false, wa := 2, n := 9, g := 7 }) (ts (tf 3)) with
    | .next t => ((t.ctx? 1).bind Ctx.ended).map (fun e => (e.code, e.detail))
    | _ => none) = some (3, 0x320) := by decide +kernel

/-- A furrow at a level without the extended block; one whose call stacks are full. -/
def tfBare (level : Nat) : Furrow := { tf level with ext := .none }
def tfFull : Furrow := { tf 0 with lanes := Vector.replicate 32 { status := .live, udepth := 16 } }

/-- InstructionTraps: each condition with a trap that can be entered. -/
theorem test_instruction_trap_hyp :
    (Instr.vadd { lv .i32 with d := 64 }).usesExtended = true ∧ TrapReady (ts (tfBare 1)) tq (tfBare 1) (trapAt 0xFFFFFFFF 0x23 0 0) 3
    ∧ (Instr.fqdone { a := 2, fail := false, c := false, g := 7 }).major = 0x1C ∧ TrapReady (ts (tf 0)) tq (tf 0) (trapAt 0xFFFFFFFF 0x22 0 0) 3
    ∧ (0xFFFFFFFF &&& maskOf (fun l => decide (16 ≤ (laneAt tfFull.lanes l).depthAt tfFull.level)) : Mask) ≠ 0
    ∧ TrapReady (ts tfFull) tq tfFull (trapAt 0xFFFFFFFF 0x24 0 0) 3
    ∧ (0xFFFFFFFF &&& maskOf (fun l => decide ((laneAt (tf 0).lanes l).depthAt 0 ≤ (tf 0).floorOf l)) : Mask) ≠ 0
    ∧ ((ts (tf 0)).codeOf (tf 0)).2 ≤ ((tf 0).readW 2).toNat ∧ TrapReady (ts (tf 0)) tq (tf 0) (trapAt 0xFFFFFFFF 0x20 0 0) 3
    ∧ sysRights 0xFFF = none ∧ (sysRights 0x100).map (fun t => rightAt t 0) = some .none
    ∧ (sysRights 0x181).map (fun t => (rightAt t 1, t.2.2)) = some (.r, .rw) ∧ (sysRights 1).map (fun t => (rightAt t 1, t.2.1, t.2.2)) = some (.r, .r, .r) := by
  and_intros <;> first | decide +kernel | exact ready (by decide +kernel)

/-- A frame of level 3 above level 0, all lanes running. -/
def tframe : Frame :=
  { code := 1, info := 9, fromLevel := 0, arg := 0, val := 0, tlane := 0xFFFFFFFF,
    lrec := Vector.replicate 32 { state := 1, t := true, pc := 4 }, eaddr := Vector.replicate 32 0 }
/-- A handler's furrow. -/
def tfHandler : Furrow := { tf 3 with frames := (tf 3).frames.set 2 (some tframe), permit := true }

/-- TrapReturn, FrameRegisters: a frame to return by, lanes recorded as running, no step mask. -/
theorem test_return_hyp : tfHandler.frame? tfHandler.level = some tframe ∧ (tg 3).lanes = tfHandler.running ∧ tfHandler.posted = []
    ∧ (tfHandler.readW 0).setWidth 32 = (0 : Mask) ∧ (laneAt tframe.lrec 31).state = 1
    ∧ tfHandler.frameLevel 0 = some 3 ∧ tfHandler.frameLevel 1 = none := by
  and_intros <;> decide +kernel

/-- FieldAndContextEnds: a field and a context that have not ended; `cend` is allowed at level 1. -/
theorem test_ends_hyp : (ts (tf 1)).field? (tf 1).field = some tfield ∧ tfield.status = .resident
    ∧ (ts (tf 1)).ctx? ((ts (tf 1)).ctxOf (tf 1)) = some { ctx := 1 } ∧ ({ ctx := 1 } : Ctx).ended = none ∧ ({ ctx := 1 } : Ctx).hctl.getLsbD 1 = false := by
  and_intros <;> decide +kernel

/-! ### Accesses -/

/-- The checks of a group's lanes in the small machine. -/
theorem passes {s : State} {f : Furrow} {g : Group} {m : Mask} {size align : Nat} {kind : AccessKind} {unsup : State → Spot → Bool} {ea : Nat → Nat}
    (h0 : g.accessing = false) (h1 : firstRank (State.checkLanes f size align kind unsup ea (lanesOf m) s).2 = none)
    (h2 : (State.checkLanes f size align kind unsup ea (lanesOf m) s).1.watchTrap f
      ((State.checkLanes f size align kind unsup ea (lanesOf m) s).2.filterMap LaneAcc.ok?) size kind = none) :
    Passes s f g m size align kind unsup ea (State.checkLanes f size align kind unsup ea (lanesOf m) s).1
      ((State.checkLanes f size align kind unsup ea (lanesOf m) s).2.filterMap LaneAcc.ok?) where
  fresh := h0
  checks := ⟨_, rfl, h1, rfl⟩
  watch := h2

/-- The machine with every token of the sector at 0x1800 in die 0, and a furrow whose `w3` holds that address. -/
def tfG : Furrow := { tf 1 with w := ((tf 1).w.set 3 0x1800) }
def tsG : State := { ts tfG with sectors := [{ pa := 0x1800, holders := [{ agent := 0, n := 8, own := true, valid := true }] }] }
/-- A load or store at `w3`. -/
def lmG : LM := { lm with a := 3 }

/-- Loads, Stores, from scratchpad: no lane fails, no token is missing, nothing is poisoned. -/
theorem test_scratch_access_hyp (k : Bool) :
    let r := State.checkLanes (tf 1) 4 1 { write := k } (fun _ _ => false) ((tf 1).eaOf lm) (lanesOf 0xFFFFFFFF) (ts (tf 1))
    Passes (ts (tf 1)) (tf 1) (tg 1) 0xFFFFFFFF 4 1 { write := k } (fun _ _ => false) ((tf 1).eaOf lm) r.1 (r.2.filterMap LaneAcc.ok?)
      ∧ TokensHeld r.1 (tf 1) k (spotsOf (r.2.filterMap LaneAcc.ok?)) ∧ (r.2.filterMap LaneAcc.ok?).length = 32
      ∧ ∀ p ∈ partsOf 4 (r.2.filterMap LaneAcc.ok?), r.1.spotPoison p.size p.spot = false := by
  refine ⟨passes rfl ?_ ?_, ?_, ?_, ?_⟩ <;> cases k <;> (try unfold TokensHeld) <;> decide +kernel

/-- The same from memory. -/
theorem test_memory_access_hyp (k : Bool) :
    let r := State.checkLanes tfG 4 1 { write := k } (fun _ _ => false) (tfG.eaOf lmG) (lanesOf 0xFFFFFFFF) tsG
    Passes tsG tfG (tg 1) 0xFFFFFFFF 4 1 { write := k } (fun _ _ => false) (tfG.eaOf lmG) r.1 (r.2.filterMap LaneAcc.ok?)
      ∧ TokensHeld r.1 tfG k (spotsOf (r.2.filterMap LaneAcc.ok?)) ∧ (r.2.filterMap LaneAcc.ok?).length = 32
      ∧ ∀ p ∈ partsOf 4 (r.2.filterMap LaneAcc.ok?), r.1.spotPoison p.size p.spot = false := by
  refine ⟨passes rfl ?_ ?_, ?_, ?_, ?_⟩ <;> cases k <;> (try unfold TokensHeld) <;> decide +kernel

/-- The invariants' own premises hold there and at reset. -/
theorem test_access_state_hyp : NoneAhead (ts (tf 1)) ∧ NoneAhead tsG ∧ (tf 1).posted = [] ∧ tsG.recent = [] ∧ tsG.isPeer 0x1800 = false := by
  refine ⟨?_, ?_, rfl, rfl, by decide +kernel⟩ <;> intro v hv <;> simp [ts, tsG, State.withFetchWord] at hv <;> subst hv <;> rfl

/-- BytesOk of the small machine. -/
theorem test_bytes_ok : BytesOk (ts (tf 1)) where
  mem := by unfold MemOk; decide +kernel
  fields := by decide +kernel

/-- Atomics, WaitOnAddress: aligned words of the scratchpad; WaitOnAddress: what is read there is 0. -/
theorem test_atomic_hyp :
    let ea := (tf 1).effAddr false 2 (.imm 0) 0 4
    let r := State.checkLanes (tf 1) 4 4 { rmw := true } (atomUnsupported false false) ea (lanesOf 0xFFFFFFFF) (ts (tf 1))
    Passes (ts (tf 1)) (tf 1) (tg 1) 0xFFFFFFFF 4 4 { rmw := true } (atomUnsupported false false) ea r.1 (r.2.filterMap LaneAcc.ok?)
      ∧ TokensHeld r.1 (tf 1) true (spotsOf (r.2.filterMap LaneAcc.ok?)) ∧ ∀ a ∈ r.2.filterMap LaneAcc.ok?, r.1.spotPoison 4 a.2.2 = false := by
  refine ⟨passes rfl ?_ ?_, ?_, ?_⟩ <;> (try unfold TokensHeld) <;> decide +kernel

theorem test_waita_hyp :
    let ea := (tf 1).effAddr false 2 (.imm 0) 0 4
    let r := State.checkLanes (tf 1) 4 4 {} (fun _ _ => false) ea (lanesOf 0xFFFFFFFF) (ts (tf 1))
    Passes (ts (tf 1)) (tf 1) (tg 1) 0xFFFFFFFF 4 4 {} (fun _ _ => false) ea r.1 (r.2.filterMap LaneAcc.ok?)
      ∧ TokensHeld r.1 (tf 1) false (spotsOf (r.2.filterMap LaneAcc.ok?)) ∧ (r.2.filterMap LaneAcc.ok?).length = 32
      ∧ (∀ a ∈ r.2.filterMap LaneAcc.ok?, intOf .i32 (r.1.spotNum 1 (r.1.laneReader (tf 1) a.1) true 4 a.2.2) = intOf .i32 ((tf 1).laneBits .i32 6 a.1)) ∧ (tg 1).wait = none := by
  refine ⟨passes rfl ?_ ?_, ?_, ?_, ?_, rfl⟩ <;> (try unfold TokensHeld) <;> decide +kernel

/-- Weirs: an aligned, unpoisoned weir of 32 bytes in the scratchpad, its phase even. -/
theorem test_weir_hyp :
    let ea := fun _ : Nat => ((tf 1).readW 2).toNat
    let r := State.checkLanes (tf 1) 32 32 { rmw := true } State.badWeir ea (lanesOf 0xFFFFFFFF) (ts (tf 1))
    Passes (ts (tf 1)) (tf 1) (tg 1) 0xFFFFFFFF 32 32 { rmw := true } State.badWeir ea r.1 (r.2.filterMap LaneAcc.ok?)
      ∧ TokensHeld r.1 (tf 1) true (spotsOf (r.2.filterMap LaneAcc.ok?)) ∧ (r.2.filterMap LaneAcc.ok?).length = 32
      ∧ (∀ a ∈ r.2.filterMap LaneAcc.ok?, r.1.spotPoison 32 a.2.2 = false ∧ (r.1.weirAt a.2.2).phase = 0) := by
  refine ⟨passes rfl ?_ ?_, ?_, ?_, ?_⟩ <;> (try unfold TokensHeld) <;> decide +kernel

/-- A furrow whose address lies just above the own window's scratchpad of 4 KiB, one past the global window. -/
def tfOut : Furrow := { tf 1 with w := (tf 1).w.set 2 0x01FFFF0000080000 }

/-- AccessTraps: a lane outside the three windows; the last byte of the global window with an access that crosses it; a misaligned word; a load of which
every lane fails and whose trap can be entered. -/
theorem test_access_trap_hyp :
    isGlobal 0x01FFFF0000080000 = false ∧ inOwn 0x01FFFF0000080000 = false ∧ inPeer 0x01FFFF0000080000 = false
    ∧ isGlobal (0x01FFFEFFFFFFFFFF + 4 - 1) = false ∧ inOwn 0x01FFFEFFFFFFFFFF = false ∧ inPeer 0x01FFFEFFFFFFFFFF = false
    ∧ inOwn 0x01FFFF0000000001 = true ∧ 0x01FFFF0000000001 % 4 ≠ 0
    ∧ (let r := State.checkLanes tfOut 4 1 {} (fun _ _ => false) (tfOut.eaOf lm) (lanesOf 0xFFFFFFFF) (ts tfOut)
       firstRank r.2 = some 10 ∧ (∃ x ∈ faultsAt 10 r.2, x.code ≠ 0x10)
         ∧ TrapReady (ts tfOut) tq tfOut (faultTrap (faultsAt 10 r.2) ({} : AccessKind).info 0) 3) := by
  and_intros <;> first | decide +kernel | exact ready (by decide +kernel)

/-- A furrow with a store of its group outstanding. -/
def tpost : Posted :=
  { lanes := 0xFFFFFFFF, level := 1, rel := 0, diverged := 0, clauseInst := none,
    writes := [{ pa := 0x1800, vpage := 1, bytes := [5], lane := 0, unit := true }] }
def tfStoring : Furrow := { tf 1 with posted := [tpost] }

/-- Fences: no store outstanding; one outstanding, and a speculative fence that may run ahead. -/
theorem test_fence_hyp : (tf 1).storing (tg 1).lanes = false ∧ tfStoring.storing (tg 1).lanes = true ∧ tfStoring.mayStartAhead .pkg = true
    ∧ 2 ≤ Scope.core.code ∧ 6 ≤ Scope.pod.code := by decide +kernel

/-! ### Accesses that wait, trap in part, or meet poison -/

/-- An issue register that would put back nothing, or the furrow as it stands, undoes to it: WaitsFor, WaitOnAddress, Weirs. -/
theorem test_undoes : Undoes tq (tf 1) (tg 1) ∧ Undoes { tq with reopen := some (tf 1) } (tf 1) (tg 1) := by
  refine ⟨fun u h => ?_, fun u h => ?_⟩
  · simp [tq] at h
  · simp [tq] at h; subst h
    exact ⟨rfl, rfl, rfl, tg 1, by decide +kernel, rfl⟩

/-- EmptyActiveSet: accesses whose guard is false in every lane. RegisterFiles: two levels. FloatTrapTaken: no back-off. VectorBits: bit numbers. -/
theorem test_empty_access : (∀ i ∈ [Instr.ld { lm with g := 0 }, .st { lm with g := 0 }, .gth { lm with g := 0 }, .atomAdd { la 0 .thread with g := 0 }],
      (tf 1).activeSet i (tg 1) = 0) ∧ (tg 1).accessing = false ∧ (0 : Fin 4) ≠ 3 ∧ (tg 1).backoff = none ∧ 31 < Ty.n32.width ∧ 0x80000000 < 2 ^ Ty.n32.width := by
  and_intros <;> decide +kernel

/-- SystemRegisters: a `TASID_S` with no store and no access under the old ASID outstanding, and one with a store outstanding. -/
theorem test_tasid_wait_hyp : (ts (tf 3)).outstanding (TlbEntry.ofAsid 0) = false ∧ (tf 3).storing (tg 3).lanes = false
    ∧ ({ tf 3 with posted := [tpost] } : Furrow).storing (tg 3).lanes = true ∧ (ts (tf 3)).ctxs.any (fun c => c.ctx != 1 && c.tasid == 7) = false := by
  and_intros <;> decide +kernel

/-- Loads: a `Valid` entry that the load hits. -/
def tsReuse : State :=
  let s := { tsG with
    fields := [{ tfield with kernel := { tfield.kernel with noReuse := false } }], ctxs := [{ ctx := 1, reuseCtl := 3 }] }
  let e := s.entryFor (.ld lmG) tfG 0xFFFFFFFF (tfG.reuseKey (.ld lmG) 0xFFFFFFFF) (some (0x1000, [0x1800])) [0] 0 .valid
  { s with cores := [{ ix := 1, reuse := (Vector.replicate 4 []).set 0 [e] }] }
theorem test_reuse_hit_hyp : ((tsReuse.lookup (.ld lmG) tfG (tg 1) 0xFFFFFFFF true).bind Lookup.hit).map (fun e => (e.results, e.flags)) = some ([0], 0)
    ∧ lmG.vol = false ∧ reuseRegion (partsOf 4 [(0, 0x1800, .global [(0x1800, 4)])]) = some (0x1000, [0x1800]) := by
  and_intros <;> decide +kernel

/-- Stores: an earlier store that lacks its tokens and touches none of the sectors; nothing that a store may come under. -/
theorem test_posted_wait_hyp : PostedWait (ts tfStoring) tfStoring [0x1000] ∧ NonePassed tsG tfG 0xFFFFFFFF := by
  refine ⟨?_, fun w hw => by simp [tsG, ts, State.withFetchWord, State.reset] at hw⟩
  simp only [PostedWait, show tfStoring.posted = [tpost] from rfl, List.mem_singleton, forall_eq]
  decide +kernel

/-- A furrow of which lane 0 alone has an address outside the windows, its other lanes at `w2`. -/
def tfPart : Furrow := { tf 1 with v := (tf 1).v.set 6 (BitVec.ofNat 1024 0x70000000) }
def lmPart : LM := { lm with b := .v 6 }

/-- AccessTraps: some lanes of a gather or a scatter fail and some pass; the trap can be entered. -/
theorem test_partial_hyp (k : Bool) :
    let r := State.checkLanes tfPart 4 1 { write := k } (fun _ _ => false) (tfPart.eaOf lmPart) (lanesOf 0xFFFFFFFF) (ts tfPart)
    firstRank r.2 = some 10 ∧ waitSectors r.2 = [] ∧ (∃ y ∈ faultsAt 10 r.2, y.code ≠ 0x10) ∧ accLanes (r.2.filterMap LaneAcc.ok?) = 0xFFFFFFFE
      ∧ r.1.watchLanes tfPart (r.2.filterMap LaneAcc.ok?) 4 { write := k } = 0 ∧ TokensHeld r.1 tfPart k (spotsOf (r.2.filterMap LaneAcc.ok?))
      ∧ tfPart.openSlot = none ∧ tfPart.ownStore 0xFFFFFFFF (spotSectors (spotsOf (r.2.filterMap LaneAcc.ok?))) = false
      ∧ TrapReady (ts tfPart) tq tfPart (faultTrap (faultsAt 10 r.2) k.toNat 0) 3 := by
  cases k <;> and_intros <;> (try unfold TokensHeld) <;> first | decide +kernel | exact ready (by decide +kernel)

/-- AccessTraps: walks of the checks that lack tokens. -/
theorem test_walk_wait_hyp : let c : Ctx := { ctx := 1, troot := 0x2000 }
    let f := { tfG with w := tfG.w.set 3 0x9000 }
    let s := { ts f with ctxs := [c], sectors := [{ pa := 0x2000, holders := [{ agent := 8, n := 8, own := true, valid := true }] }] }
    firstRank (State.checkLanes f 4 1 {} (fun _ _ => false) (f.eaOf lmG) (lanesOf 0xFFFFFFFF) s).2 = some waitRank := by decide +kernel

/-- The machine with poison at the words that `w2` of the scratchpad and `w3` of memory name. -/
def tsPoison (f : Furrow) : State :=
  { ts f with
    fields := [{ tfield with sp := { size := 4096, poison := [0x40] } }], poison := [0x1800],
    sectors := [{ pa := 0x1800, holders := [{ agent := 0, n := 8, own := true, valid := true }] }] }

/-- AccessTraps: every lane of a load, a `waita` or an atomic meets poison, and its trap can be entered. -/
theorem test_poison_hyp (k : Bool) :
    let ea := (tf 1).effAddr false 2 (.imm 0) 0 4
    let r := State.checkLanes (tf 1) 4 4 { rmw := k } (fun _ _ => false) ea (lanesOf 0xFFFFFFFF) (tsPoison (tf 1))
    let as := r.2.filterMap LaneAcc.ok?
    as.filter (fun a => r.1.spotPoison 4 a.2.2) = as ∧ as ≠ [] ∧ firstRank r.2 = none
      ∧ (partsOf 4 (as.take 1)).find? (fun p => r.1.spotPoison p.size p.spot) ≠ none
      ∧ TrapReady (ts (tf 1)) tq (tf 1) (poisonTrap as (if k then 2 else 0) (if k then 8 else 0)) 3 := by
  cases k <;> and_intros <;> first | decide +kernel | exact ready (by decide +kernel)

/-- Fences: a fence wider than a die does not run ahead; a party meets its lanes; a write of the TXE in the record, observed by the lanes. -/
theorem test_fence_record_hyp : tfStoring.mayStartAhead .pod = false ∧ ((tf 1).party 1).meets ((tf 1).party 0xFFFFFFFF) = true
    ∧ 2 ≤ Scope.core.code ∧ Cls.txe ≠ .ls ∧ Cls.txe ≠ .gxe := by
  and_intros <;> decide +kernel

/-! ### Streams, engines' queues, handles, basins, services -/

/-- A furrow of which one lane is not in the issuing group; a push of the GXE. -/
def tfSplit : Furrow := { tf 1 with groups := [{ lanes := 0xFFFFFFFE, pc := 0, level := 1 }, { lanes := 1, pc := 4, level := 1 }] }
def tpush (q : Fin 4) : SEpush := { c := false, q := q, h := 2, wa := 8, sel := 0 }
/-- The small machine with its field's command slots all taken; with one command of the GXE under slot 5, number 9. -/
def tcmd : Command :=
  { id := 1, engine := 2, core := 1, field := 1, furrowIx := 0, level := 1, loc := 0, slot := 5, seq := 9, words := Vector.replicate 8 0, entries := [],
    records := Vector.replicate 8 0, scales := Vector.replicate 4 0, sel := 0, extHeld := false }
def tslot (st : Option W64) : CmdSlot := { seq := 9, kind := 3, cmd := 1, status := st, doneAt := 0 }
def tsFull : State := { ts (tf 1) with fields := [{ tfield with slots := Vector.replicate 64 (some (tslot none)) }] }
def tfHandle : Furrow := { tf 1 with h := (tf 1).h.set 2 0x3005000000000009 }
def tsHandle (st : Option W64) : State := { ts tfHandle with fields := [{ tfield with slots := tfield.slots.set 5 (some (tslot st)) }], commands := [tcmd] }

/-- RecordMoves: a whole group with a true guard, one with a false guard, a group that is not the furrow; a `cget` with active lanes. -/
theorem test_record_hyp : (ts (tf 1)).field? (tf 1).field = some tfield ∧ (0x3F#8).toNat < 64
    ∧ (tg 1).lanes = (tf 1).running ∧ (tf 1).activeSet (.cclr { c := false, d := 0, a := 0, id := 63, g := 7 }) (tg 1) = (tg 1).lanes
    ∧ (tf 1).activeSet (.cget { c := false, d := 4, a := 6, id := 63, g := 7 }) (tg 1) ≠ 0
    ∧ (tf 1).activeSet (.cget { c := false, d := 4, a := 6, id := 63, g := 0 }) (tg 1) = 0 ∧ (0xFFFFFFFE : Mask) ≠ tfSplit.running := by
  and_intros <;> decide +kernel

/-- EngineQueues: room in the engine and a free slot; no free slot; the engine full; a queue with no row, with a wide row; a command that waits and one
that runs. -/
theorem test_engine_queue_hyp : ((ts (tf 1)).commands.filter (fun c => c.core == 1 && c.engine == (2 : Fin 4))).length < 64 ∧ tfield.slotFor = some 0
    ∧ (tsFull.fields.head?.bind Field.slotFor) = none
    ∧ (((List.replicate 8 { tcmd with engine := 0 }).filter (fun c => c.core == 1 && c.engine == (0 : Fin 4))).length < 8) = false
    ∧ (tf 1).opq[(0 : Fin 8)] = [] ∧ (tsHandle none).liveCommand tfHandle 2 = some 1 ∧ (tsHandle none).cmd? 1 = some tcmd ∧ tcmd.phase = .queued
    ∧ (tsHandle (some 0)).liveCommand tfHandle 2 = none := by
  and_intros <;> decide +kernel

/-- HandleReads: the null handle; an empty slot; a slot that fits, pending and completed; one that another push holds. -/
theorem test_handle_hyp : (tf 1).h[(2 : Fin 16)] = 0 ∧ tfHandle.h[(2 : Fin 16)] ≠ 0 ∧ bitsOf (tfHandle.h[(2 : Fin 16)]).toNat 48 6 = 5
    ∧ bitsOf (tfHandle.h[(2 : Fin 16)]).toNat 54 6 = 0 ∧ bitsOf (tfHandle.h[(2 : Fin 16)]).toNat 60 4 = (tslot none).kind
    ∧ bitsOf (tfHandle.h[(2 : Fin 16)]).toNat 0 48 = (tslot none).seq ∧ (tslot none).status = none ∧ (tslot (some 7)).status = some 7
    ∧ tfield.slots[(5 : Fin 64)] = none := by decide +kernel

/-- A scheme of one reach with one basin, which its field writes at `q12` and reads at `q13`. -/
def tbasin (empty full filling reading : List Nat) : Basin :=
  { base := 0x10000, depth := 2, slotBytes := 64, empty := empty, filling := filling, full := full, reading := reading }
def tscheme (b : Basin) : Scheme :=
  { id := 7, ctx := 1, queue := 0, basins := [b], tag := 0, dseq := 0, done := 0, tlimit := 0, acceptedAt := 0,
    reaches := [{ kernel := tfield.kernel, kind := 0, cls := 3, tsize := 0, minFields := 1, maxFields := 1, arm := 0,
                  ports := #v[some (true, 0), some (false, 0), none, none] }] }
def tsBasin (b : Basin) (claims : List Claim) : State :=
  { ts (tf 1) with fields := [{ tfield with scheme := 7, claims := claims }], schemes := [tscheme b] }

/-- BasinPorts: an unbound port; an output and an input port; slots to claim and none; a claimed address and one that is not. -/
theorem test_basin_hyp : (tsBasin (tbasin [0, 1] [] [] []) []).portOf (tf 1) 2 = none
    ∧ ((tsBasin (tbasin [0, 1] [] [] []) []).portOf (tf 1) 0).map (fun p => (p.1, p.2.1.id, p.2.2.1, p.2.2.2.empty)) = some (true, 7, 0, [0, 1])
    ∧ ((tsBasin (tbasin [] [1] [] []) []).portOf (tf 1) 1).map (fun p => (p.1, p.2.2.2.full, p.2.2.2.ended)) = some (false, [1], false)
    ∧ (Field.claimAt { tfield with claims := [{ port := 0, basin := 0, slot := 1, furrowIx := 0 }] } (tf 1) 0 (tbasin [0] [] [1] []) 0x10040).map Claim.slot = some 1
    ∧ (Field.claimAt tfield (tf 1) 0 (tbasin [0] [] [1] []) 0x10040) = none := by decide +kernel

/-- A service field of the small machine, with one fault entry and one request. -/
def tsService : State :=
  { ts (tf 1) with
    fields := [{ tfield with service := true, scheme := 0 }],
    dies := State.reset.dies.set 0 { State.reset.dies[0] with
      svc := [(1, 2)],
      faults := [{ seq := 3, queued := true, vaddr := 0x5000, ctx := 1, asid := 0, cause := 0x10, level := 0, origin := 0, busy := false, badPte := false,
                     wlevel := 0, kind := 0, count := 1, first := 0, waiters := [.hint] }] },
    access := [(0, #v[1, 2, 3, 4, 5, 6])] }

/-- Services: entries to take and none; the field of a service context and a user's; a region with counters. -/
theorem test_service_hyp : tsService.isService (tf 1) = true ∧ (ts (tf 1)).isService (tf 1) = false ∧ (tsService.die 0).svc = [(1, 2)]
    ∧ ((tsService.die 0).faults.find? FaultEntry.queued).isSome = true ∧ tsService.switchDue (tf 1) = none
    ∧ (∀ e ∈ (tsService.die 0).faults, e.seq = 3 → ∀ w ∈ e.waiters, w = .hint) ∧ (∀ e ∈ (tsService.die 0).faults, e.seq ≠ 4)
    ∧ tsService.access.find? (fun y => y.1 == 0) = some (0, #v[1, 2, 3, 4, 5, 6]) ∧ tsService.isLocal (tsService.canonPa 0x1800) = true
    ∧ (ts (tf 1)).isService (tf 1) = false ∧ 256 ≤ (List.replicate 256 ((0 : W64), (0 : W64))).length := by
  and_intros <;> first | exact le_of_eq List.length_replicate.symm | decide +kernel

/-- The terms every furrow and command of `settled` meets there. -/
theorem test_settled_hyp : (∀ v ∈ tsService.furrows, ∀ w ∈ v.faultWaits, w.unposted = []) ∧ ∀ c ∈ tsService.commands, c.phase ≠ .suspended := by
  refine ⟨?_, fun c hc => by simp [tsService, ts, State.withFetchWord, State.reset] at hc⟩
  intro v hv w hw
  simp [tsService, ts] at hv; subst hv; simp [tf, probeFurrow] at hw

/-- BlocksAndShootdowns: a furrow without the block whose field has a right, one whose field has none while registers are free, and while they are not. -/
theorem test_block_hyp : let s := { ts (tfBare 1) with fields := [{ tfield with kernel := { tfield.kernel with extRegs := 4 } }] }
    s.rightFree 1 1 0 = true ∧ (ts (tfBare 1)).rightFree 1 1 0 = false ∧ 144 ≤ (ts (tfBare 1)).physFree 1 0 ∧ (ts (tfBare 1)).acqWaiters 1 0 = []
    ∧ (tg 1).lanes = (tfBare 1).running ∧ (tfBare 1).ext = .none ∧ (tf 1).ext ≠ .none
    ∧ (∃ c, (ts (tf 1)).ctx? ((ts (tf 1)).ctxOf (tf 1)) = some c ∧ c.tasid.toNat = ((tf 1).readW 0).toNat % 65536)
    ∧ (ts (tf 1)).isService (tf 1) = false ∧ (tf 1).level ≠ 3 ∧ (ts { tfBare 1 with unnamed := List.replicate 900 0 }).physFree 1 0 < 144 := by
  and_intros <;> first | exact ⟨{ ctx := 1 }, by decide +kernel⟩ | decide +kernel

/-! ### Events -/

/-- The small machine with no group issuing. -/
def tsIdle (f : Furrow) : State := { ts f with issue := none }
/-- What a selection finds after its slot's time and releases. -/
def tsel (f : Furrow) : State :=
  let s1 := (tsIdle f).tick 4
  ((s1.quarterFurrows 1 0).foldl (fun s f => s.prepareFurrow 1 f.slot) s1).handout 1 0

/-- IssueSelection: the one furrow is due; none is where it waits. -/
theorem test_selection_hyp : let s3 := tsel (tf 1)
    ((s3.quarterFurrows 1 0).map (fun f => (f.slot, f.level, decide (s3.eligibleGroups f ≠ [])))) = [(0, 1, true)]
    ∧ (s3.furrow? 1 0).isSome = true
    ∧ (let f := { tf 1 with groups := [{ tg 1 with wait := some .fence }] }
       ((tsel f).quarterFurrows 1 0).map (fun v => decide ((tsel f).eligibleGroups v ≠ [])) = [false]) := by decide +kernel

/-- A stepped return whose chain has issued. -/
def tfStepped : Furrow := { tf 1 with level := 0, groups := [tg 0], step := some (3, 0xFFFFFFFF, true) }
/-- A speculative fence that has run ahead, its stores performed. -/
def tspec : SpecFence :=
  { v := (tf 1).v, unnamed := [], kept := [], clause := none, fpenv := 0, fencePc := 0, nextPc := 8, scope := .core, lanes := 0xFFFFFFFF, readSet := [],
    heldTrap := none }
def tfAhead : Furrow := { tf 1 with spec := some tspec }

/-- CompletionEvents: a posted store of four bytes whose token is held, a due STEP, a furrow with groups, a fence ahead with no store left. -/
theorem test_completion_hyp : let s : State := { tsG with furrows := [tfStoring] }
    s.furrow? 1 0 = some tfStoring ∧ tfStoring.groups ≠ [] ∧ tfStoring.step = none ∧ tfStoring.clauses = [] ∧ s.lackedBy tfStoring = []
    ∧ tfStepped.posted = [] ∧ 0xFFFFFFFF &&& tfStepped.running ≠ 0 ∧ tfAhead.posted = [] ∧ (tfAhead.spec.bind SpecFence.heldTrap) = none := by
  and_intros <;> first | rfl | decide +kernel

/-- A furrow whose trap waits for a permit; one that HALT has stopped there; four others of the core that hold every permit. -/
def tback (code deadline : Nat) : Backoff := { trap := some (trapAt 0xFFFFFFFF code 9 0), length := 128, failed := 0, deadline := deadline }
def tfBack (code deadline : Nat) : Furrow := { tf 0 with groups := [{ tg 0 with backoff := some (tback code deadline) }], haltPend := code == 6 }
def tsPermits (f : Furrow) : State :=
  { ts f with
    furrows := f :: (List.range 4).map (fun k => { tf 0 with slot := k + 1, ix := k + 1, permit := true }) }
/-- Traps of these furrows can be entered. -/
theorem readyIdle {f : Furrow} {r : TrapReq} {n : Nat}
    (h : (tsIdle f).ctx? ((tsIdle f).ctxOf f) = some { ctx := 1 } ∧ routeTrap { ctx := 1 } r.code f.level = some n ∧ r.lanes ≠ 0
      ∧ r.lanes &&& f.running = r.lanes ∧ (f.level ≠ 0 ∨ f.permit = true ∨ (tsIdle f).permitFor f r.lanes = true)) :
    TrapReady (tsIdle f) { core := 1, slot := 0, lanes := 0 } f r n where
  route := ⟨_, h.1, h.2.1⟩
  lanes := h.2.2.1
  inside := h.2.2.2.1
  permit := h.2.2.2.2
  first := rfl

/-- TrapEvents: a back-off that is over with a permit free, for a trap and for HALT; with none free; one that is not over; a watchdog that has reached its
interval, one that has not; a HALT that is due. -/
theorem test_backoff_hyp :
    (tsIdle (tfBack 1 0)).backoffOver (tfBack 1 0) 0xFFFFFFFF (tback 1 0) = true
    ∧ TrapReady (tsIdle (tfBack 1 0)) { core := 1, slot := 0, lanes := 0 } (tfBack 1 0) (trapAt 0xFFFFFFFF 1 9 0) 3
    ∧ TrapReady (tsIdle (tfBack 6 0)) { core := 1, slot := 0, lanes := 0 } (tfBack 6 0) (tfBack 6 0).haltTrap 3
    ∧ (tsPermits (tfBack 1 0)).permitFor (tfBack 1 0) 0xFFFFFFFF = false ∧ (tsPermits (tfBack 1 0)).backoffOver (tfBack 1 0) 0xFFFFFFFF (tback 1 0) = true
    ∧ (tsIdle (tfBack 1 9)).backoffOver (tfBack 1 9) 0xFFFFFFFF (tback 1 9) = false ∧ (tfBack 1 0).needPermit = none := by
  and_intros <;> first | decide +kernel | exact readyIdle (by decide +kernel)

def tfDog : Furrow := { tf 0 with groups := [{ tg 0 with wdog := ({ ctx := 1 } : Ctx).interval }] }
theorem test_watchdog_and_halt_hyp :
    (tsIdle tfDog).counts tfDog = true ∧ (tg 0).underway = false
    ∧ TrapReady (tsIdle tfDog) { core := 1, slot := 0, lanes := 0 } tfDog (trapAt 0xFFFFFFFF 7 0 0) 3
    ∧ (tg 0).wdog < ({ ctx := 1 } : Ctx).interval ∧ ({ tf 0 with haltPend := true } : Furrow).haltDue = true ∧ (tf 0).haltDue = false
    ∧ TrapReady (tsIdle { tf 0 with haltPend := true }) { core := 1, slot := 0, lanes := 0 } { tf 0 with haltPend := true }
        ({ tf 0 with haltPend := true } : Furrow).haltTrap 3 := by
  and_intros <;> first | decide +kernel | exact readyIdle (by decide +kernel)

/-- A furrow whose `xacq` waits; one whose block is spilled; a field with nothing left of it; a walk of a prefetch that has a root to walk from. -/
def tfWaits (unnamed : Nat) : Furrow := { tfBare 1 with groups := [{ tg 1 with wait := some (.xacq 4) }], unnamed := List.replicate unnamed 0 }
def twalk : Walk := { core := 1, ctx := 1, partition := 0, level := 0, cls := 3, hold := false, va := 0x5000, on := some 0 }
def tsWalk : State := { ts (tf 1) with dies := State.reset.dies.set 0 { State.reset.dies[0] with walks := [twalk] } }
theorem test_block_event_hyp :
    ((tsIdle (tfWaits 0)).acqWaiters 1 0).map Prod.fst = [4] ∧ (tsIdle (tfWaits 0)).rightFree 1 1 0 = false ∧ 144 ≤ (tsIdle (tfWaits 0)).physFree 1 0
    ∧ (tsIdle (tfWaits 900)).physFree 1 0 < 144
    ∧ ({ tsIdle (tfWaits 0) with fields := [{ tfield with kernel := { tfield.kernel with extRegs := 4 } }] } : State).rightFree 1 1 0 = true
    ∧ ({ tsIdle (tf 1) with furrows := [], fields := [{ tfield with status := .ending }], nextId := 2 } : State).mayRetire { tfield with status := .ending } = true
    ∧ (tsIdle (tf 1)).mayRetire tfield = false ∧ nth? tsWalk.walksNow 0 = some (0, 0, twalk) ∧ tsWalk.ctx? 1 = some { ctx := 1 } := by
  and_intros <;> decide +kernel

/-- A tensor entry: where, type, base, rows, columns, stride between rows. -/
def tentry (loc ty base rows cols stride : Nat) (layout : Nat := 0) : Vector W64 7 :=
  #v[BitVec.ofNat 64 (2 ^ 63 + loc * 2 ^ 61 + ty * 2 ^ 57 + layout * 2 ^ 55), BitVec.ofNat 64 base, BitVec.ofNat 64 (rows * 2 ^ 32 + cols), BitVec.ofNat 64 stride, 0, 0, 0]
/-- A command of an engine with its first words and entries. -/
def tcmdOf (e : Fin 4) (words : Vector W64 8) (entries : List (Vector W64 7)) : Command :=
  { tcmd with
    engine := e, slot := 0, seq := 1, words := words, entries := (List.range entries.length).zip entries, phase := .running,
    records := (Vector.replicate 8 0).set 0 (BitVec.ofNat 256 (0x01FFFF0000000040 + 4 * 2 ^ 64 + 3 * 2 ^ 128 + 2 * 2 ^ 160)) }
/-- A product of two rows by 64 columns over one K-step; a copy of four bytes; a stream of three words; an all-gather of four words. -/
def tmma : Command :=
  tcmdOf 0 #v[0x0100002000000000, 0x0000000200000040, 0, 0, 0, 0, 0, 0] [tentry 1 0 0x1000 2 64 64, tentry 2 0 0 64 64 0 1, tentry 1 2 0 2 64 256]
def tcopy : Command :=
  { tcmdOf 1 #v[0x0100000000000000, 0x0000000100000004, 0, 0, 0, 0, 0, 0] [tentry 0 0 0x01FFFF0000000040 1 4 4, tentry 0 0 0x01FFFF0000000080 1 4 4] with
    receivers := [{ member := none, shift := 0, due := 4 }] }
def tstream : Command := tcmdOf 2 #v[0x0100000000000000, 0, 0, 0, 0, 0, 0, 0] []
def tgather : Command :=
  { tcmdOf 3 #v[0x0300000000000000, 5, 4, 0, 0, 0, 0, 0] [tentry 0 10 0x01FFFF0000000040 1 4 16, tentry 0 10 0x01FFFF0000000080 1 8 32] with coll := 3 }
def tgroup : Nat × Nat × List RankEntry :=
  (5, 1000, [{ kind := 0, pkg := 0, ctx := 1, reach := 0, fieldIx := 0, dqpn := 0, addr := 0 }, { kind := 0, pkg := 1, ctx := 1, reach := 0, fieldIx := 0, dqpn := 0, addr := 0 }])
/-- A rank of a collective, with its command's number or 0 for a remote one. -/
def trank (ix cmd : Nat) : Rank := { ix := ix, cmd := cmd, buf := [], arrived := [], committed := false, lastChunk := 0 }
/-- A collective of two ranks, the second of another package: started or not, on a plane's slot or none, redone or not. -/
def tcoll (started : Bool) (plane : Option Nat) (redone : Bool) : Collective :=
  { id := 3, ctx := 1, gid := 5, readyAt := some 0, started := started, ring := plane.isNone, slot := plane, redone := redone, aborted := false,
    ranks := [trank 0 1, trank 1 0] }
def tengField : Field :=
  { tfield with
    tile := { size := 0x4000 }, bsl := { size := 0x4000 }, kernel := { tfield.kernel with bslice := 64, tiles := 0x4000 },
    slots := tfield.slots.set 0 (some { seq := 1, kind := 1, cmd := 1, status := none, doneAt := 0 }) }
def tsCmd (cmd : Command) (ks : List Collective) : State :=
  { tsIdle (tf 1) with fields := [tengField], commands := [cmd], colls := ks, ctxs := [{ ctx := 1, groups := [tgroup] }], nextId := 9 }

/-- EngineStarts: a queued command of each engine may start. -/
theorem test_start_hyp : ∀ x ∈ [tmma, tcopy, tstream, tgather],
    (tsCmd { x with phase := .queued } []).startable 1 x.engine = some ({ x with phase := .queued }, tengField) := by decide +kernel

/-- EngineStarts: a collective that passes its start checks and names its rank. -/
theorem test_collective_start_hyp : let s := tsCmd { tgather with phase := .queued } []
    s.cxeStart { tgather with phase := .queued } tengField = none ∧ s.rankOf tgather tengField = some 0 ∧ s.ranksOf tgather tengField = 2 ∧ tgather.opc = 3 := by
  decide +kernel

/-- EngineUnits: a K-step without poison whose rows of C lie apart; the same with poison. -/
theorem test_kstep_hyp : (tsCmd tmma []).unitOf 1 0 = some (tmma, tengField) ∧ tmma.units < tmma.ksteps
    ∧ (tsCmd tmma []).runPoison (tmma.kstepRuns tengField (List.range 64) false) = false ∧ (tmma.entryAt 2).2.loc = 1
    ∧ ((tmma.entryAt 2).2.run tengField 0 0).addr + 64 * (tmma.entryAt 2).2.size ≤ ((tmma.entryAt 2).2.run tengField 1 0).addr ∧ tmma.mm = 2
    ∧ ({ tsCmd tmma [] with fields := [{ tengField with tile := { size := 0x4000, poison := [0x1000] } }] } : State).runPoison
        (tmma.kstepRuns { tengField with tile := { size := 0x4000, poison := [0x1000] } } (List.range 64) false) = true := by
  and_intros <;> decide +kernel

/-- EngineUnits: a chunk of four bytes that plans, is read whole and whose result can be written; its command has nothing else in flight. -/
theorem test_chunk_hyp : let s := (tsCmd tcopy []).beginEvent (.txeChunkLand 1 0)
    s.unitOf 1 1 = some (tcopy, tengField) ∧ tcopy.chunks = 1 ∧ tcopy.weir = 0 ∧ tcopy.red = 0 ∧ tcopy.stop = none ∧ tcopy.flights = []
    ∧ (∀ k ∈ tcopy.receivers, k.owed = 0)
    ∧ (match s.planChunk tcopy tengField 0 with
      | (s1, .ok p) =>
        let s2 := s1.onCmd 1 (fun c => { c with flights := c.flights ++ [p], next := 1 })
        let c2 := (s2.cmd? 1).getD tcopy
        let f := s2.stillThere c2 p
        let r := State.readFlight c2 f s2
        !r.2.2 && r.2.1.all Option.isSome && (r.1.lacking 0 true (r.1.runSectors ((f.puts.map Put.pieces).flatten))).isEmpty
          && r.1.sectors.all (fun x => (x.holder 0).forwards.isEmpty) && f.puts.all (fun y => y.high.isNone && y.half.isNone)
      | _ => false) = true := by
  and_intros <;> decide +kernel
/-- EngineUnits: a row of a stream whose elements can all be read; a record that is not indexed. -/
theorem test_row_hyp : let s := (tsCmd tstream []).beginEvent (.gxeRowDeliver 1)
    s.unitOf 1 2 = some (tstream, tengField) ∧ tstream.units < tstream.record.count ∧ (s.pusher tstream).isSome = true ∧ tstream.record.ind = false
    ∧ tstream.reported = false ∧ tstream.row = [] ∧ s.blockedBy tstream = false
    ∧ ((tf 1).opq[(0 : Fin 8)]).length < 4
    ∧ (State.gxeElems tstream tengField [0, 1, 2] s).2.1.length = 3 ∧ (State.gxeElems tstream tengField [0, 1, 2] s).2.2.isNone = true := by decide +kernel

/-- Collectives: a command whose end is decided; a collective whose ranks have pushed; a chunk that a rank receives; a silent rank and one that is not;
a collective on a slot, not redone and redone. -/
theorem test_collective_hyp :
    (tsCmd { tcopy with ended := some (5, 0) } []).worksOn { tcopy with ended := some (5, 0) } = true
    ∧ (tsCmd tgather [tcoll false none false]).allPushed (tcoll false none false) = true
    ∧ (tsCmd tgather [tcoll false none false]).rankFault (tcoll false none false) none = none
    ∧ ((tsCmd tgather [tcoll false none false]).rankFault (tcoll false none false) (some 0)).isSome = true
    ∧ (tsCmd tgather [tcoll true none false]).receiving 3 0 = some (tcoll true none false, trank 0 1, tgather, tengField)
    ∧ 0 < (tcoll true none false).chunksOf tgather 0 ∧ tgather.cen = false
    ∧ ({ tsCmd tgather [tcoll true none false] with cycles := 4000000 } : State).rankSilent (tcoll true none false) (trank 0 1) = true
    ∧ (tsCmd tgather [tcoll true none false]).rankSilent (tcoll true none false) (trank 1 0) = false
    ∧ (tsCmd tgather [tcoll true none false]).hasRemote (tcoll true none false) = true
    ∧ (tsCmd tgather [tcoll true (some 2) true]).coll? 3 = some (tcoll true (some 2) true) ∧ (tsCmd tgather [tcoll true (some 2) false]).slotsUsed 1 < 64 := by
  and_intros <;> decide +kernel

/-- Collectives: the chunk's eight elements, the remote rank's among them, can be read. -/
theorem test_fabric_chunk_hyp : (State.cxeChunk (tcoll true none false) tgather 0 [(1, [1, 2, 3, 4])] ((List.range 8).zip (List.range 8))
    (tsCmd tgather [tcoll true none false])).2.isOk = true := by decide +kernel

/-- EngineUnits: an indexed stream whose index can be read. Collectives: an algorithm that asks for a slot and gets none; a command that stands at its end. -/
def tindexed : Command :=
  { tstream with records := (tstream.records.set 0 (tstream.records[(0 : Fin 8)] ||| BitVec.ofNat 256 (2 ^ 171 + 2 ^ 168))).set 1 (tstream.records[(0 : Fin 8)]) }
theorem test_engine_unit_forms_hyp : tindexed.record.ind = true
    ∧ (State.gxeRead (tsCmd tindexed []) tindexed tengField (tindexed.index.reaches tindexed.nextRow) 0x01FFFF0000000040 4).2.isOk = true
    ∧ (tsCmd { tgather with words := tgather.words.set 0 0x0300000400000000 } [tcoll false none false]).algOf (tcoll false none false) = 1
    ∧ ({ tcopy with phase := .draining, ended := some (0, 0) } : Command).ended.isSome = true ∧ (tsCmd tcopy []).rowsLeft 1 = false
    ∧ tengField.slots[(0 : Fin 64)] = some { seq := 1, kind := 1, cmd := 1, status := none, doneAt := 0 } ∧ (∀ r ∈ tcopy.receivers, r.absent = false)
    ∧ ((tsCmd tcopy []).receiverField tengField { member := none, shift := 0, due := 4 }).isSome = true := by
  and_intros <;> decide +kernel

/-- A number in memory. -/
def put (cs : List (Nat × Byte)) (a n x : Nat) : List (Nat × Byte) := cellsWrite cs a (leBytes n x)
/-- Memory with a page table of three levels at 0x100000 that maps the first GiB where it lies, a ring at 0x110000 with one entry of a kind, a launch record
at 0x120000 of one reach, its kernel's header at 0x130000, and a mailbox at 0x140000. -/
def thMem (kind : Nat) : List (Nat × Byte) :=
  let t := put (put (put [] 0x100000 8 0x101001) 0x101000 8 0x102001) 0x102000 8 0x2F
  let r := put (put (put (put (put t 0x110000 8 0x120000) 0x110008 8 kind) 0x120000 4 1) 0x120004 2 1) 0x120020 8 77
  let e := put (put (put r 0x120040 8 0x130000) 0x120048 4 1) 0x120051 1 3
  let k := put (put (put (put (put e 0x130000 4 1) 0x130004 4 1) 0x130008 4 32) 0x130018 1 1) 0x130020 8 0x131000
  put k 0x140000 4 1
def thCtx : Ctx := { ctx := 1, troot := 0x100000, save := 0x200000, saveSize := 0x100000, mbox := 0x140000, orphan := 2 }
def thQueue : Sq := { base := 0x110000, en := true, log2n := 4, tail := 1, gen := 1 }
def thVf (k : Sq) : Vf := { ix := 0, ld := some 0, queues := (Vector.replicate 8 {}).set 0 k }
def thLd : Ld := { ix := 0, host := some 0, attached := true, usable := true }
/-- A package that is ready, with one context whose VF belongs to LD 0, and quad 0 in its partition. -/
def th (kind : Nat) (k : Sq) : State :=
  { State.reset with
    ready := true, cohMode := false, mem := thMem kind, ctxs := [thCtx], vfs := [thVf k], lds := [thLd], quads := [{ ix := 0, part := some 0 }],
    islands := Vector.replicate 16 4000 }

/-- Submission: a usable queue; its next entry launches, or cancels the scheme that it names. -/
theorem test_submission_hyp : (th 0 thQueue).vfUsable 0 = true ∧ ((th 0 thQueue).vf 0).nextQueue = some 0
    ∧ ((th 0 thQueue).ringEntry thCtx thQueue).map (fun bs => (imageNum bs 0 8, imageNum bs 8 8)) = some (0x120000, 0)
    ∧ ((th 1 thQueue).ringEntry thCtx thQueue).map (fun bs => imageNum bs 8 8) = some 1
    ∧ ((th 0 thQueue).ringEntry { thCtx with ctx := 9 } thQueue) = none
    ∧ (((th 0 thQueue).consume 0 0).readLaunch thCtx 0x120000).reason = 0 ∧ (((th 0 thQueue).consume 0 0).readLaunch thCtx 0x120040).reason ≠ 0 := by
  and_intros <;> decide +kernel

/-- A scheme of one reach that is due, its field waiting, and a field of a better class that finds no core but that of the first. -/
def thReach : Reach :=
  { kernel := probeField.kernel, kind := 0, cls := 3, tsize := 0, minFields := 1, maxFields := 1, arm := 0, ports := Vector.replicate 4 none }
def thScheme : Scheme :=
  { id := 4, ctx := 1, queue := 0, reaches := [thReach], basins := [], tag := 5, dseq := 0x120000, done := 0, tlimit := 10, acceptedAt := 0 }
def thField (id cls : Nat) (status : FieldStatus) : Field :=
  { tfield with id := id, scheme := 4, cls := cls, core := 0, status := status, placedAt := if status = .waiting then 0 else id }
def thRun (fields : List Field) : State := { th 1 thQueue with schemes := [thScheme], fields := fields, nextId := 9 }

/-- Submission: the cancel entry's scheme; a reach that is due; a time limit that has passed and one that has not. -/
theorem test_scheme_hyp : (thRun []).schemes.find? (fun x => x.ctx == 1 && x.dseq == 0x120000 && x.ended.isNone) = some thScheme
    ∧ (thRun []).scheme? 4 = some thScheme ∧ (thRun []).reachDue thScheme 0 thReach = true ∧ (thRun []).reachWaits 4 0 = false
    ∧ thScheme.tlimit ≠ 0 ∧ ¬(thScheme.acceptedAt + 4000 * thScheme.tlimit ≤ (thRun []).cycles) := by
  and_intros <;> decide +kernel

/-- Two fields of class 3 fill core 0 of a one-core partition's scratchpad, and one of class 0 waits. -/
def thBig (id cls : Nat) (status : FieldStatus) : Field :=
  { thField id cls status with kernel := { probeField.kernel with scratch := 0x60000 }, sp := { size := 0x60000 }, image := some 0 }
def thFull : State :=
  { thRun ((List.range 4).map (fun k => { thBig (k + 5) 3 .resident with core := k }) ++ [thBig 2 0 .waiting]) with
    vfs := [{ ix := 0, ld := some 0 }] }

/-- PlacementAndPreemption: a waiting field and the core it takes; none that waits; victims where none fits; a collected field whose furrow is still. -/
theorem test_placement_hyp :
    bestBy (thRun [thField 2 3 .waiting]).waitsBefore (((thRun [thField 2 3 .waiting]).waitingFields 0).filter (fun f => ((thRun [thField 2 3 .waiting]).coresFor f).isSome))
      = some (thField 2 3 .waiting)
    ∧ (thRun [thField 2 3 .waiting]).coresFor (thField 2 3 .waiting) = some [0] ∧ (thRun []).waitingFields 0 = []
    ∧ bestBy thFull.waitsBefore (((thFull.waitingFields 0).filter (fun f => (thFull.coresFor f).isNone && thFull.imagesFit f)).filter (fun f => (thFull.victimsFor f).isSome))
      = some (thBig 2 0 .waiting)
    ∧ ((thFull.victimsFor (thBig 2 0 .waiting)).map (fun vs => vs.map Field.id)) = some [8]
    ∧ ({ thRun [thField 2 3 .collecting] with furrows := [{ tf 1 with core := 0, slot := 1, field := 2, groups := [tg 1] }] } : State).unsettled 2 = false := by
  and_intros <;> decide +kernel

/-- A context descriptor for VF 1 at the host's address 0x8000: ASID 7, partition 0, a root table, a save area. -/
def thDescr : State :=
  { th 0 thQueue with
    vfs := [thVf thQueue, { ix := 1, ld := some 0 }],
    mem := put (put (put (thMem 0) (2 ^ 51 + 0x8000) 2 7) (2 ^ 51 + 0x8008) 8 0x100000) (2 ^ 51 + 0x8018) 8 0x100000 }

/-- ManagementCommands: a PF that takes a command; a package that is not ready; a good descriptor, a bad one, a context that exists; a mailbox, and none;
a quad whose scrub is pending; a package with firmware. HostEvents: an orphaned queue, a queue that is disabled, a mailbox with a message not seen. -/
theorem test_management_hyp : (th 0 thQueue).pfFree 0 (.linkStatus 0) = true ∧ (th 0 thQueue).ready = true ∧ ((th 0 thQueue).ld 0).usable = true
    ∧ State.reset.ready = false ∧ ((th 0 thQueue).vf 0).ld = some 0 ∧ (th 0 thQueue).ctx? 1 = some thCtx ∧ (th 0 thQueue).fields = []
    ∧ (thDescr.ctx? 2 = none ∧ thDescr.poisoned (thDescr.hostPa 0 0x8000) 64 = false ∧ thDescr.descrOk (ctxOfDescr 1 (thDescr.hostBytes 0 0x8000 64)) = true)
    ∧ thDescr.descrOk (ctxOfDescr 1 (thDescr.hostBytes 0 0x9000 64)) = false
    ∧ (th 0 thQueue).mailbox thCtx 0x800 = some 0x140800 ∧ (th 0 thQueue).mailbox { thCtx with mbox := 0 } 0x800 = none
    ∧ (th 0 thQueue).mailbox thCtx 0 = some 0x140000 ∧ (th 0 thQueue).numAt 0x140000 4 ≠ thCtx.mboxSeen
    ∧ ((th 0 thQueue).quad 0).scrub = none ∧ (th 0 thQueue).quadFields 0 = [] ∧ (th 0 thQueue).mgmt = 0
    ∧ ((th 0 { thQueue with orphaned := true }).vf 0).queue 0 = { thQueue with orphaned := true } ∧ (th 0 { thQueue with en := false }).vfUsable 0 = true := by
  and_intros <;> decide +kernel

/-- A sector of this package whose holders are given, with one message to an agent in flight. -/
def tsec (hs : List Holder) : Sector := { pa := 0x1800, holders := hs }
def tmsg (typ src dst : Nat) : Message := { typ := typ, src := src, dst := dst, sector := 0x1800 }
def tsMsg (x : Sector) (m : Message) : State := { State.reset with cohMode := false, sectors := [x], net := [m] }

/-- TokenMessages: a write and a read request at a holder that owns all tokens, that owns one, that owns none; tokens for an agent with a request, tokens
of an old serial, tokens at the home; tokens at a home in recovery; a persistent request at the home, its activation and its end at an agent. -/
theorem test_token_message_hyp :
    ((tsMsg (tsec [{ agent := 0, n := 8, own := true, valid := true }]) (tmsg 1 1 0)).arriving 0 1).isSome = true
    ∧ (∀ k ∈ List.range 9, reservedHeader (tmsg k 1 0).header = false) ∧ reservedHeader (tmsg 9 1 0).header = true
    ∧ reservedHeader ({ tmsg 2 1 0 with count := 9 } : Message).header = true
    ∧ (State.reset.sector 0x1800).recovery = none ∧ State.reset.homeAgent 0x1800 = 8
    ∧ ((tsMsg (tsec [{ agent := 0, n := 1, own := true, valid := true }]) (tmsg 0 1 0)).arriving 0 0).isSome = true
    ∧ ({ agent := 1 } : Holder).discards { tmsg 2 0 1 with count := 3 } = false
    ∧ ({ agent := 1, n := 1, serial := 2 } : Holder).discards { tmsg 2 0 1 with count := 3 } = true
    ∧ ((tsMsg { tsec [] with recovery := some (0, 1, false), serial := 1 } (tmsg 2 0 8)).arriving 0 2).isSome = true
    ∧ ((tsMsg (tsec [{ agent := 1, preq := some true }]) (tmsg 3 1 8)).arriving 0 3).isSome = true
    ∧ (tsMsg (tsec [{ agent := 1, preq := some true }]) (tmsg 3 1 8)).activeAt 8 = 0
    ∧ ((tsMsg (tsec [{ agent := 0, n := 2, valid := true }]) { tmsg 4 8 0 with tag := 1 }).arriving 0 4).isSome = true
    ∧ ((tsMsg (tsec [{ agent := 0, bound := some 1 }]) (tmsg 5 8 0)).arriving 0 5).isSome = true := by
  and_intros <;> decide +kernel

/-- TokenRecovery: a recovery whose window is over and one whose is not; requests of the first and later attempts that have timed out; an active persistent
request overdue; an ordered request of 8 ms; a message of more than 1 µs; a record that has run out. -/
theorem test_recovery_hyp : timedOut 0 1200 = true ∧ timedOut 0 1199 = false ∧ agedOut 0 32000000 = true ∧ agedOut 0 31999999 = false
    ∧ 0 + 4000 ≤ 4000 ∧ (tsMsg (tsec []) (tmsg 6 0 8)).isPeer (sectorOf 0x1800) = false
    ∧ ({ State.reset with pod := [3], links := 1 } : State).isPeer (2 ^ 50 + 3 * 2 ^ 42) = true := by
  and_intros <;> decide +kernel

/-- A host's line, with holders and a state; a line of this package that the CXL agent holds. -/
def thLine (hs : List Holder) (st : HostState) (ops : List HostOp) : State :=
  { State.reset with cohMode := false, lds := [thLd], sectors := [{ pa := 2 ^ 51 + 0x1800, holders := hs, host := st, hostOps := ops }] }
def tall : Holder := { agent := 14, n := 8, own := true, valid := true }

/-- HostCoherence: the CXL agent with every token of a host's line, and without; its answers to a grant and to a back-invalidate; a mode change. -/
theorem test_host_line_hyp : (thLine [tall] .ex []).place (2 ^ 51 + 0x1800) = .host 0 ∧ tall.canWrite = true
    ∧ ((thLine [{ agent := 0, n := 8, own := true, valid := true }] .ex []).sector (2 ^ 51 + 0x1800)).holder 14 = { agent := 14 }
    ∧ (thLine [] .nh []).homeAgent (2 ^ 51 + 0x1800) = 14 ∧ State.reset.homeAgent 0x1800 ≠ 14
    ∧ State.reset.anyRequest = false ∧ (tsMsg (tsec [{ agent := 0, preq := some true }]) (tmsg 2 0 8)).anyRequest = true := by
  and_intros <;> decide +kernel

/-- PackageEvents: an attached LD, one that is not; requests of a host and of another package that can be gathered; a furrow; an orphan timeout. -/
theorem test_package_hyp : (thLine [] .nh []).hostUp 0 = true ∧ (thLine [] .nh []).isLocal 0x1800 = true
    ∧ (thLine [] .nh []).canRequest 14 0x1800 true = true ∧ ((thLine [] .nh []).sector 0x1800).holder 14 = { agent := 14 }
    ∧ (({ State.reset with pod := [3], cohMode := false } : State).canRequest 6 0x1800 false) = true ∧ (thLine [] .nh []).outer = []
    ∧ (let x := tsec [{ agent := 6, n := 8, own := true, valid := true }, { agent := 14, n := 8, own := true, valid := true }]
       (x.holder 6).canWrite = true ∧ (x.holder 14).canWrite = true ∧ (x.holder 14).canRead = true ∧ x.hosts = [] ∧ (x.holder 14).forwards = [])
    ∧ thCtx.orphan ≠ 0 ∧ ((th 0 thQueue).ld 0).attached = true ∧ ((th 0 thQueue).ld 0).host = some 0 ∧ (State.reset.ld 0).host = none
    ∧ ∀ l ∈ (th 0 thQueue).lds, l.ix ≠ 5 → l.host ≠ some 7 := by
  and_intros <;> decide +kernel

/-! ### Further forms: waits, ends and events that are not due -/

/-- TrapReturn: no frame; a frame and a group that is not all of its level; a store of the level outstanding; a mask that selects lanes; lanes that all exit. -/
theorem test_return_forms_hyp : let f : Furrow := { tfHandler with w := tfHandler.w.set 5 3 }
    let gone : Frame := { tframe with lrec := Vector.replicate 32 { state := 3, t := true, pc := 4 } }
    (tf 3).frame? 3 = none ∧ ({ tfSplit with level := 3, groups := tfSplit.groups.map (fun g => { g with level := 3 }) } : Furrow).running ≠ 0xFFFFFFFE
    ∧ (∃ p ∈ ({ tfHandler with posted := [{ tpost with level := 3 }] } : Furrow).posted, p.level = 3)
    ∧ (f.readW 5).setWidth 32 &&& maskOf (fun l => decide ((laneAt tframe.lrec l).state = 1)) = 3
    ∧ (∀ l ∈ List.range 32, (laneAt gone.lrec l).state ≠ 1) ∧ gone.fromLevel ≠ 3 ∧ tfHandler.groups = [tg 3] := by
  and_intros <;> first | rfl | exact ⟨_, List.mem_singleton_self _, rfl⟩ | decide +kernel

/-- FieldAndContextEnds: a user field's `fend`, a service field's, a `cend` at level 3 with HCTL bit 1. -/
theorem test_end_forms_hyp : (ts (tf 1)).isService (tf 1) = false ∧ tsService.isService (tf 1) = true ∧ tfield.service = false
    ∧ (tf 3).level = 3 ∧ ({ ctx := 1 } : Ctx).service = false := by and_intros <;> decide +kernel

/-- EngineQueues: a queue with a narrow row, with a wide one; a register that is even, one that is odd; a command that runs. -/
def trow (wide : Bool) : OpRow := { first := 0, cmd := 1, wide := wide, vals := Vector.replicate 32 7 }
theorem test_engine_forms_hyp : ({ tf 1 with opq := (tf 1).opq.set 0 [trow false] } : Furrow).opq[(0 : Fin 8)] = [trow false]
    ∧ (trow true).wide = true ∧ 4 % 2 = 0 ∧ 5 % 2 = 1 ∧ tcmd.phase = .queued ∧ ({ tcmd with phase := .running } : Command).phase ≠ .queued
    ∧ (tsFull.commands.filter (fun c => c.core == 1)).length < 64 ∧ tg 1 ∈ (tf 1).groups ∧ (0xFFFFFFFE : Mask) ≠ tfSplit.running := by
  and_intros <;> first | rfl | decide +kernel

/-- BasinPorts: a furrow with an access outstanding and one with none; a field whose input ended, and one to withdraw. -/
theorem test_port_forms_hyp : tfStoring.busy = true ∧ (tf 1).busy = false ∧ ({ tfield with withdrawn := true } : Field).withdrawn = true
    ∧ (let r : Reach := { kernel := tfield.kernel, kind := 1, cls := 3, tsize := 0, minFields := 0, maxFields := 2, arm := 0, ports := Vector.replicate 4 none }
       let sc : Scheme := { tscheme (tbasin [] [] [] []) with reaches := [r] }
       let fl : Field := { tfield with scheme := 7 }
       ({ ts (tf 1) with schemes := [sc], fields := [fl, { fl with id := 2, scheme := 8, status := .waiting }] } : State).withdraws sc fl) = true := by
  and_intros <;> decide +kernel

/-- Services: a field of an old image on a die with new firmware, whose groups all wait in a take, and one with a group that does not. -/
def tsSwitch : State :=
  { tsService with
    fwDies := Vector.replicate 6 true, firmware := some { version := 2, secver := 0, digest := 0 } }
theorem test_switch_hyp : (ts (tf 1)).takes tfield (some (0, 0xFFFFFFFF)) = true ∧ (ts tfSplit).takes tfield (some (0, 0xFFFFFFFE)) = false
    ∧ (tsSwitch.switchDue (tf 1)).isSome = true := by
  and_intros <;> decide +kernel

/-- BlocksAndShootdowns: a posted store through an entry that a shootdown drops; none. -/
theorem test_shootdown_hyp : (ts tfStoring).outstanding (fun _ => true) = true ∧ (ts (tf 1)).outstanding (fun _ => true) = false
    ∧ tfStoring.storing 0xFFFFFFFF = true ∧ (tf 1).storing 0xFFFFFFFF = false := by and_intros <;> decide +kernel

/-- An issued load whose token has come. -/
def tfAccess : Furrow :=
  { tf 1 with
    groups := [{ tg 1 with wait := some (.access false 0xFFFFFFFF [{ lane := 0, ea := 0x1800, off := 0, size := 4, spot := .global [(0x1800, 4)] }] [] (.ld lmG)) }] }
/-- CompletionEvents: an access that can go on; HandleReads: a group with no wait. StepRunsEvent: an access that is due. -/
theorem test_access_due_hyp : let s : State := { tsG with furrows := [tfAccess], issue := none }
    (s.nextAccess tfAccess).map Group.lanes = some 0xFFFFFFFF ∧ s.accessDue.map Furrow.slot = some 0 ∧ tfAccess.posted = [] ∧ tfAccess.clauses = []
    ∧ (tsIdle (tf 1)).accessDue = none ∧ (tsIdle (tf 1)).dueNow = none := by
  and_intros <;> decide +kernel

/-- TrapEvents: a furrow stopped inside its slot; a STEP that backs off. -/
theorem test_trap_forms_hyp : let f : Furrow := { tfBack 4 0 with step := some (3, 0xFFFFFFFF, true) }
    ({ tfBack 1 0 with openSlot := some { lanes := 0xFFFFFFFF } } : Furrow).openSlot ≠ none ∧ (tback 4 0).trap.map TrapReq.code = some 4
    ∧ (0xFFFFFFFF : Mask) &&& f.running ≠ 0 ∧ (tsIdle f).backoffOver f 0xFFFFFFFF (tback 4 0) = true ∧ (tsIdle f).permitFor f 0xFFFFFFFF = true := by
  and_intros <;> first | exact Option.some_ne_none _ | decide +kernel

/-- BlockAndFieldEvents: a walk whose entry's sector lacks its token, and one that lacks none. -/
theorem test_walk_forms_hyp : let c : Ctx := { ctx := 1, troot := 0x2000 }
    let s := fun (n : Nat) => ({ tsWalk with ctxs := [c], sectors := [{ pa := 0x2000, holders := [{ agent := 0, n := n, valid := true }] }] } : State)
    (s 0).walkLack 0 c 0x5000 = some 0x2000 ∧ (s 1).walkLack 0 c 0x5000 = none := by and_intros <;> decide +kernel

/-- Submission, PlacementAndPreemption, ManagementCommands: lines whose homes hold their tokens, and one whose home does not; a collection acknowledged. -/
def thLost (pa : Nat) : State := { th 0 thQueue with sectors := [{ pa := pa, holders := [{ agent := 2, n := 8, own := true, valid := true }] }] }
theorem test_base_lacking_hyp : (th 0 thQueue).baseLacking ((th 0 thQueue).entryReads 0 0) = [] ∧ (thLost 0x110000).baseLacking ((thLost 0x110000).entryReads 0 0) ≠ []
    ∧ ((thRun [thField 2 3 .waiting]).nextPlaced 0).length = 1
    ∧ (({ thRun [thField 2 3 .collecting] with furrows := [{ tf 1 with core := 0, slot := 1, field := 2, groups := [tg 1] }] } : State).acknowledged 0) = true
    ∧ (thDescr.baseLacking (sectorsOf (thDescr.hostPa 0 0x8000) 64)) = [] := by
  and_intros <;> decide +kernel

/-- ManagementCommands: a context with a field, one with none; a table's good and bad parameters; a doorbell's opcode that names no command. -/
theorem test_command_forms_hyp : ((th 0 thQueue).endContext 1 { code := 5, detail := 0, loc := 0 }).busyCtx 1 = false
    ∧ ({ th 0 thQueue with
        fields := [thField 2 3 .resident], furrows := [{ tf 1 with core := 0, field := 2, posted := [tpost] }] } : State).busyCtx 1 = true
    ∧ (2 ≤ 2 ∧ 1 ≤ 60000000) ∧ ¬(2 ≤ 1) ∧ ((th 0 thQueue).ld 0).serving = none ∧ (((th 0 thQueue).ld 0).cmd[(0 : Fin 8)]).toNat % 2 ^ 16 = 0 := by
  and_intros <;> decide +kernel

/-- HostEvents: a claim's generation and another; a register of a disabled queue; a free ASID under which nothing is outstanding, and something; a quad that
is to be scrubbed with no field on it. -/
theorem test_host_event_hyp : (th 0 thQueue).vfUsable 0 = true ∧ ((th 0 thQueue).vf 0 |>.queue 0).gen = 1 ∧ (2 : Nat) ≠ 1 ∧ State.reset.vfUsable 0 = false
    ∧ ({ thQueue with en := false } : Sq).orphaned = false ∧ (th 0 thQueue).outstanding (TlbEntry.ofAsid 0) = false
    ∧ ({ tsG with furrows := [tfStoring] } : State).outstanding (TlbEntry.ofAsid 0) = true
    ∧ ({ th 0 thQueue with quads := [{ ix := 0, part := some 0, scrub := some (some 3, 0) }] } : State).quadFields 0 = []
    ∧ (th 0 thQueue).baseLacking ((th 0 thQueue).mailboxReads thCtx 0) = [] ∧ (thLost 0x140000).baseLacking ((thLost 0x140000).mailboxReads thCtx 0) ≠ []
    ∧ (th 0 thQueue).baseNum 0x140000 4 ≠ thCtx.mboxSeen ∧ ({ thCtx with mboxSeen := 1 } : Ctx).mboxSeen = (th 0 thQueue).baseNum 0x140000 4 := by
  and_intros <;> decide +kernel

/-- TokenMessages: a holder that nothing else waits at; a message that makes no token: the records in canonical form, nothing from outside waiting. -/
theorem test_conserve_hyp : let s := tsMsg (tsec [{ agent := 0, n := 8, own := true, valid := true }]) (tmsg 1 1 0)
    (∀ y ∈ s.sectors, (y.holders.map Holder.agent).Nodup) ∧ s.outer = [] ∧ s.records = [] ∧ s.furrows = [] ∧ s.isPeer (sectorOf 0x1800) = false
    ∧ s.tokensOf 0x1800 = 8 ∧ s.ownersOf 0x1800 = 1 ∧ ({ agent := 0, n := 8 } : Holder).forwards = [] ∧ ({ agent := 0, n := 8 } : Holder).bound = none
    ∧ (tsMsg { tsec [] with active := some (1, true, 0) } (tmsg 5 1 8)).homeAgent 0x1800 = 8 := by
  and_intros <;> decide +kernel

/-- TokenMessages, TokenRecovery: an agent's access that waits for tokens of a sector, to read and to write; a timed-out request that lacks them. -/
def tsWants : State :=
  { State.reset with
    cohMode := false,
    furrows := [{ tf 1 with groups := [{ tg 1 with wait := some (.tokens 0 [0x1800] false) }, { tg 1 with lanes := 1, wait := some (.tokens 0 [0x1800] true) }] }],
    sectors := [{ pa := 0x1800, holders := [{ agent := 0, req := some { write := true, attempt := 0, sentAt := 0, age := 0, core := 1 } }], active := some (0, true, 0) }] }
theorem test_wants_hyp : (∀ w, tsWants.wants 0 0x1800 w = true) ∧ (tsWants.sector 0x1800).active = some (0, true, 0)
    ∧ (((tsWants.sector 0x1800).holder 0).req.map (fun r => (r.write, r.attempt))) = some (true, 0) ∧ ((tsWants.sector 0x1800).holder 0).canWrite = false
    ∧ (tsWants.sector 0x1800).recovery = none ∧ (tsWants.sector 0x1800).barred = [] := by
  and_intros <;> first | (intro w; cases w <;> decide +kernel) | decide +kernel

/-- TokenRecovery: a window that ends; a holder that evicts, the CXL agent with every token of a host's line; a peer's line; a record that expires. -/
theorem test_recovery_forms_hyp :
    (({ tsec [] with recovery := some (0, 7, false), current := false } : Sector).recovery) = some (0, 7, false)
    ∧ ({ agent := 0, n := 3 } : Holder).recovering = false ∧ (0 : Nat) ≤ 6 ∧ (thLine [tall] .ex []).isPeer (2 ^ 51 + 0x1800) = false
    ∧ tall.canWrite = true ∧ HostState.ex ≠ .nh ∧ ({ agent := 0, recordUntil := some 16000 } : Holder).recordUntil = some 16000
    ∧ nth? (tsMsg (tsec []) (tmsg 9 1 0)).net 0 = some (tmsg 9 1 0) := by
  and_intros <;> first | rfl | decide +kernel

/-- HostCoherence: a line that the CXL agent gives back while a request for it arrives; a grant's requester; a drain with nothing waiting. -/
theorem test_evicting_hyp : let s : State := { thLine [tall] .ex [{ kind := 7, requester := 14 }] with net := [{ tmsg 1 1 14 with sector := 2 ^ 51 + 0x1800 }] }
    (s.sector (2 ^ 51 + 0x1800)).evicting = true ∧ (s.arriving 0 1).isSome = true ∧ s.homeAgent (2 ^ 51 + 0x1800) = 14
    ∧ (thLine [tall] .ex []).outer = [] ∧ (thLine [tall] .ex []).records = [] ∧ tall.bound = none := by
  and_intros <;> decide +kernel

/-- PackageEvents: a line of a host that the package has written; a context whose ORPHAN time has passed and one whose has not. -/
theorem test_package_forms_hyp : let x : Sector := { pa := 2 ^ 51 + 0x1800, holders := [tall], homeCopy := some (List.replicate 64 1) }
    (({ thLine [] .nh [] with sectors := [x] } : State).sector (2 ^ 51 + 0x1800)).homeCopy = some (List.replicate 64 1)
    ∧ ({ thCtx with orphan := 0 } : Ctx).orphan = 0 ∧ thCtx.service = false ∧ 0 + thCtx.orphan * 4000000000 ≤ 8000000000
    ∧ ¬(0 + thCtx.orphan * 4000000000 ≤ 7999999999) := by
  and_intros <;> decide +kernel

/-- StepRunsEvent: an engine's event, one of the base die and a destruction that can go on. -/
theorem test_due_hyp :
    (({ th 0 thQueue with deferred := [(.mailboxTailObserve 1, [0x140000])] } : State).deferred.find? (th 0 thQueue).goesNow).isSome = true
    ∧ ({ th 0 thQueue with lds := [{ thLd with serving := some (.ctxDestroy 0 0) }] } : State).destroyDue = some (.ctxDestroy 0 0)
    ∧ (tsCmd { tcopy with retry := [(.txeChunkLand 1 0, [(0x1800, false)])] } []).engineDue = some (.txeChunkLand 1 0) := by
  and_intros <;> decide +kernel

/-! ### Steps -/

/-- The package of `withFetchWord` with a word where it fetches. -/
def tw (w : Nat) : State := State.reset.withFetchWord 32 w
/-- Its group. -/
def pg : Group := { lanes := 0xFFFFFFFF, pc := 0, level := 0 }

/-- StepRunsInstruction: a chain that is fetched and decodes, a clause header first, another instruction first with no breakpoint and with one; a later
word of a chain; a PC past the code; a word whose address translates. -/
theorem test_step_hyp : (State.fetchChain probeFurrow 3 0 (tw 0x041881F9)).2.1.head? = some 0x041881F9 ∧ (State.fetchChain probeFurrow 3 0 (tw 0x041881F9)).2.2.isNone = true
    ∧ decodeChain 0 [0x041881F9, 0, 0] = .ok [(0, .uadd { c := false, wd := 3, wa := 4, b := .imm 0xF9 })]
    ∧ decodeChain 0 [0x0223E010, 0x08000342, 0x08000287] = .ok [(0, .clause { nr := false, len := 1, seta := 1, setb := 15, wait := 8 })]
    ∧ packetOf pg.pc < ((tw 0).codeOf probeFurrow).2 ∧ ((tw 0).codeOf probeFurrow).2 ≤ packetOf 12 ∧ (tw 0).breakpoint probeFurrow pg = none
    ∧ ({ tw 0 with ctxs := [{ ctx := 1, bpt := #v[0x8000000000000000, 0, 0, 0] }] } : State).breakpoint probeFurrow pg ≠ none
    ∧ prefixInstrs 3 [0x041881F9] = .ok [.uadd { c := false, wd := 3, wa := 4, b := .imm 0xF9 }]
    ∧ isGlobal (((tw 0).codeOf probeFurrow).1 + 0) = true
    ∧ ((tw 0).translate ((tw 0).ctxOf probeFurrow) 1 0x1000 { fetch := true } 0).2 = .ok 0x1000 ∧ (tw 0).poisoned 0x1000 4 = false
    ∧ (tw 0).patchesOf probeFurrow = [] := by
  and_intros <;> decide +kernel

/-- A machine whose code page is translated but whose core's die has no token of it. -/
def twLost : State := { tw 0x041881F9 with sectors := [] }
/-- A furrow that runs ahead of a fence, its 17 registers all changed since. -/
def tfKept : Furrow :=
  { tfAhead with
    spec := some { tspec with v := Vector.ofFn (fun k : Fin 128 => BitVec.ofNat 1024 (k.val + 1)), kept := List.range 17 } }
/-- StepRunsInstruction: a chain's first instruction, an illegal chain, a word whose token lacks; a header in force whose flags are 1, and not; a group past its
clause under a fence that runs ahead; a choice to be made again; 17 registers. -/
theorem test_step_forms_hyp : chainHead 0 [0x041881F9] none = .ok (some (.uadd { c := false, wd := 3, wa := 4, b := .imm 0xF9 }))
    ∧ (chainHead 0 [0] none).toOption = none ∧ (State.fetchChain probeFurrow 3 0 twLost).2.2 = some (.wait 0x1000)
    ∧ (tw 0).mayAccess 0 0x1000 false = true ∧ twLost.mayAccess 0 0x1000 false = false ∧ twLost.isPeer 0x1000 = false
    ∧ (8#12 &&& ~~~({ tf 1 with flags := 8 } : Furrow).flags) = 0 ∧ (8#12 &&& ~~~(tf 1).flags) ≠ 0
    ∧ ({ tg 1 with clause := some { nr := false, len := 1, clend := 9, inst := some 0, seta := none, setb := none } } : Group).leaves = true
    ∧ ({ tq with redo := .all } : Issue).redo ≠ .no ∧ tq.redo = .no
    ∧ tfKept.overRetained [0] = true ∧ (tf 1).overRetained [0] = false ∧ ({ tg 1 with midChain := true } : Group).midChain = true := by
  and_intros <;> decide +kernel

/-- StepRunsEvent, MemoryStaysCanonical: a package that runs with no group issuing; a step that goes on from bytes in canonical form. -/
theorem test_step_event_hyp : State.reset.powered = true ∧ State.reset.halted = false ∧ State.reset.issue = none ∧ State.reset.agenda = []
    ∧ BytesOk State.reset ∧ Steps State.reset (match step State.reset with | .next t => t | _ => State.reset) :=
  ⟨rfl, rfl, rfl, rfl, ⟨by unfold MemOk; decide, by decide⟩, rfl⟩

/-- EncodeDecode: a well-formed instruction of one word and one of two. -/
theorem test_encode_hyp : (Instr.uadd { c := true, wd := 63, wa := 63, b := .imm 0xFF }).wf = true ∧ (Instr.vadd { lv .i64 with d := 126 }).wf = true := by decide

/-- A field of the furrow after one step of a word. -/
def after {α : Type} (w : Nat) (k : Furrow → α) : Option α :=
  match step (tw w) with
  | .next t => (t.furrow? 1 0).map k
  | _ => none

/-- R184, R198 (08_furrow's example): `uadd w3, w4, -7` of 0 gives -7, and the group stands at the next word. -/
theorem test_step_uadd : after 0x041881F9 (fun f => (f.readW 3, f.groups.map Group.pc)) = some (0xFFFFFFFFFFFFFFF9, [4]) := by decide +kernel
/-- R197: `plt p1, 8` gives lanes 0 to 7. -/
theorem test_step_plt : after 0x1040082F (fun f => f.readP 1) = some 0x000000FF := by decide +kernel
/-- R172: `bra` to packet 40. -/
theorem test_step_bra : after 0x08000287 (fun f => f.groups.map Group.pc) = some [480] := by decide +kernel
/-- R190: `loop w6` with w6 = 0 counts to all ones and branches four packets back, modulo 2^24. -/
theorem test_step_loop : after 0x0C37D847 (fun f => (f.readW 6, f.groups.map Group.pc)) = some (0xFFFFFFFFFFFFFFFF, [0xFFFFC4]) := by decide +kernel
/-- R171, R320, R324: an all-zero word takes ILLEGAL at level 3, in the packet of its class, at the word. -/
theorem test_step_zero : after 0 (fun f => (f.level, f.groups.map Group.pc, (f.frame? 3).map (fun r => (r.code, (laneAt r.lrec 31).pc))))
    = some (3, [pcOfPacket (8 * causeClass 0x20)], some (0x20, 0)) := by decide +kernel
/-- R315: `fend` at level 0 takes PRIVILEGE. -/
theorem test_step_fend : after 0x0E00004F (fun f => (f.frame? 3).map Frame.code) = some (some 0x22) := by decide +kernel
/-- R218, R99: 0.5 + 0.25 in every lane; 0 divided by 0 raises NV and gives the canonical NaN. -/
theorem test_float_values : (finish (addNum (decodeNum .f32 0x3F000000) (decodeNum .f32 0x3E800000) .rne) .f32 .rne false).1 = 0x3F400000
    ∧ divNum (decodeNum .f32 0) (decodeNum .f32 0) .f32 .rne false = (0x7FC00000, flNV) := by decide +kernel
/-- R230 (09_vector's example): 465.0 to `.e4m3` with saturation is 0x7E. -/
theorem test_convert_value : (convertNum .f32 .e4m3 0x43E88000 .rne true).1 = 0x7E ∧ (convertNum .f32 .e4m3 0x43E88000 .rne false).1 = 0x7F := by decide +kernel
/-- R159: three one-word instructions chain in a packet, and word 2 with C = 1 makes the chain illegal. -/
theorem test_chain_ends_at_word_2 : ((decodeChain 0 [0x98000000, 0x98000000, 0x18000000]).map List.length).toOption = some 3
    ∧ (decodeChain 0 [0x98000000, 0x98000000, 0x98000000]).toOption = none := by decide +kernel
end Sys2Proof.Tests
end

section
/-! O6: instructions and accesses with an empty active set. Every row meant tests its active set before anything else: those of the frame of R211 in
`vectorDone`, every other in its own frame. One lemma says so of each frame; the obligation names the frame of each row. -/
namespace Sys2Proof.Machine

/-! ### An empty active set, frame by frame -/

/-- Instruction i, issued with an empty active set, retires with no effect: the group stands at the next word and nothing else changes (R4). -/
def RetiresEmpty (i : Instr) : Prop :=
  ∀ (s : State) (q : Issue) (f : Furrow) (g : Group), Issues s q f g i → f.activeSet i g = 0 → Does s q g i s f

/-- An instruction that skips on an empty active set before its own effect `act`. -/
theorem retiresEmpty_of_test {i : Instr} {act : State → Issue → Furrow → Group → Out}
    (he : ∀ s, exec i s = running i s (fun q f g => if f.activeSet i g = 0 then s.skip i q g else act s q f g)) : RetiresEmpty i := by
  intro s q f g h hm
  rw [Does, he, running_issues h, if_pos hm]
  exact skip_completes h

/-- An instruction in the frame of R211, whatever type, destination and lane results it gives that frame. -/
theorem retiresEmpty_of_vectorDone {i : Instr} {t : Ty} {d : Nat} {r : Furrow → Group → Nat → Nat × Nat}
    (he : ∀ s, exec i s = running i s (fun q f g => vectorDone s i q f g t d (r f g))) : RetiresEmpty i := by
  intro s q f g h hm
  rw [Does, he, running_issues h]
  exact vectorDone_empty t d (r f g) h hm

section Frames
variable {i : Instr} {x : LV} {y : LM} {z : LA}

theorem elementwise_retires {op : Furrow → Nat → Nat → Nat → Nat × Nat} (he : ∀ s, exec i s = elementwise i x s op) : RetiresEmpty i :=
  retiresEmpty_of_vectorDone he

theorem integerRow_retires {op : Int → Int → Int → Int} (he : ∀ s, exec i s = integerRow i x op s) : RetiresEmpty i := elementwise_retires he

theorem bitRow_retires {op : Nat → Nat → Nat} (he : ∀ s, exec i s = bitRow i x op s) : RetiresEmpty i := elementwise_retires he

theorem floatRow_retires {op : Ty → Mode → Bool → Num → Num → Num → Nat × Nat} (he : ∀ s, exec i s = floatRow i x op s) : RetiresEmpty i :=
  elementwise_retires he

theorem transcendentalRow_retires {n : Nat} (he : ∀ s, exec i s = transcendentalRow i x n s) : RetiresEmpty i := elementwise_retires he

theorem packHalf_retires {half : Nat} (he : ∀ s, exec i s = packHalf i x half s) : RetiresEmpty i := retiresEmpty_of_vectorDone he

theorem unpackHalf_retires {half : Nat} (he : ∀ s, exec i s = unpackHalf i x half s) : RetiresEmpty i := retiresEmpty_of_test he

theorem overActive_retires {k : Furrow → Mask → Furrow} (he : ∀ s, exec i s = overActive i s k) : RetiresEmpty i := retiresEmpty_of_test he

theorem shuffle_retires {src : Nat → Nat → Int} (he : ∀ s, exec i s = shuffle i x src s) : RetiresEmpty i := retiresEmpty_of_vectorDone he

theorem reduction_retires {op : Furrow → List Nat → Nat × Nat} (he : ∀ s, exec i s = reduction i x op s) : RetiresEmpty i :=
  retiresEmpty_of_vectorDone he

theorem foldReduction_retires {k : Fold} (he : ∀ s, exec i s = foldReduction i x k s) : RetiresEmpty i := reduction_retires he

theorem bitReduction_retires {op : Nat → Nat → Nat} (he : ∀ s, exec i s = bitReduction i x op s) : RetiresEmpty i := reduction_retires he

theorem scan_retires {k : Fold} {exclusive : Bool} (he : ∀ s, exec i s = scan i x k exclusive s) : RetiresEmpty i :=
  retiresEmpty_of_vectorDone he

theorem loadLanes_retires {acq : Option Scope} (he : ∀ s, exec i s = loadLanes i y acq s) : RetiresEmpty i := retiresEmpty_of_test he

theorem loadUniform_retires {acq : Option Scope} (he : ∀ s, exec i s = loadUniform i y acq s) : RetiresEmpty i := retiresEmpty_of_test he

theorem storeLane_retires {rel : Bool} (he : ∀ s, exec i s = storeLane i y rel s) : RetiresEmpty i := retiresEmpty_of_test he

theorem storeUniform_retires {rel : Bool} (he : ∀ s, exec i s = storeUniform i y rel s) : RetiresEmpty i := retiresEmpty_of_test he

theorem atomic_retires {fadd : Bool} {op : Nat → Nat → Nat → Nat} (he : ∀ s, exec i s = atomic i z fadd op s) : RetiresEmpty i :=
  retiresEmpty_of_test he

end Frames

/-- Every row of `atomOps` is in the frame of the atomics (R250). -/
theorem atomOps_retire (z : LA) : ∀ i ∈ (atomOps z).map Prod.fst, RetiresEmpty i := by
  simp only [atomOps, List.map_cons, List.map_nil, List.forall_mem_cons]
  exact ⟨atomic_retires (exec_atomAdd · z), atomic_retires (exec_atomMin · z), atomic_retires (exec_atomMax · z),
    atomic_retires (exec_atomAnd · z), atomic_retires (exec_atomOr · z), atomic_retires (exec_atomXor · z),
    atomic_retires (exec_atomExch · z), atomic_retires (exec_atomCas · z), atomic_retires (exec_atomFadd · z), List.forall_mem_nil _⟩

/-! ### The obligation -/

/-- Settles O6, by the frame of each row. That no access is under way is not used: every access tests its active set before it looks at that. -/
theorem emptyActiveSet : Obligations.EmptyActiveSet := by
  unfold Obligations.EmptyActiveSet
  refine ⟨fun s q f g x cc i hi h hm => ?_, fun s q f g y z w i hi h _ hm => ?_⟩
  · suffices rows : ∀ i ∈ _, RetiresEmpty i from rows i hi s q f g h hm
    simp only [List.forall_mem_cons]
    exact ⟨
      -- R214 to R217
      integerRow_retires (exec_vadd · x), integerRow_retires (exec_vsub · x), integerRow_retires (exec_vmul · x),
      integerRow_retires (exec_vmulh · x), integerRow_retires (exec_vmad · x), integerRow_retires (exec_vdiv · x),
      integerRow_retires (exec_vrem · x), integerRow_retires (exec_vmin · x), integerRow_retires (exec_vmax · x),
      integerRow_retires (exec_vabs · x), integerRow_retires (exec_vneg · x), integerRow_retires (exec_vabsd · x),
      bitRow_retires (exec_vand · x), bitRow_retires (exec_vor · x), bitRow_retires (exec_vxor · x),
      bitRow_retires (exec_vandn · x), bitRow_retires (exec_vnot · x), bitRow_retires (exec_vshl · x),
      elementwise_retires (exec_vshr · x), bitRow_retires (exec_vrot · x), bitRow_retires (exec_vpopc · x),
      bitRow_retires (exec_vclz · x), bitRow_retires (exec_vbrev · x), bitRow_retires (exec_vbfe · x),
      elementwise_retires (exec_vbfi · x), bitRow_retires (exec_vmov · x),
      -- R218 to R221
      floatRow_retires (exec_vfadd · x), floatRow_retires (exec_vfsub · x), floatRow_retires (exec_vfmul · x),
      floatRow_retires (exec_vfma · x), floatRow_retires (exec_vfms · x), floatRow_retires (exec_vfnma · x),
      floatRow_retires (exec_vfdiv · x), floatRow_retires (exec_vfsqrt · x), floatRow_retires (exec_vfmin · x),
      floatRow_retires (exec_vfmax · x), elementwise_retires (exec_vfabs · x), elementwise_retires (exec_vfneg · x),
      floatRow_retires (exec_vfrint · x), elementwise_retires (exec_vfscale · x),
      -- R222 to R224
      retiresEmpty_of_test (exec_vcmp · cc x), elementwise_retires (exec_vset · cc x), retiresEmpty_of_vectorDone (exec_vsel · x),
      elementwise_retires (exec_vfclass · x),
      -- R226 to R231
      retiresEmpty_of_vectorDone (exec_vcvt · x), packHalf_retires (exec_vpklo · x), packHalf_retires (exec_vpkhi · x),
      unpackHalf_retires (exec_vupklo · x), unpackHalf_retires (exec_vupkhi · x), retiresEmpty_of_vectorDone (exec_vscl · x),
      -- R232, R233
      transcendentalRow_retires (exec_vrcp · x), transcendentalRow_retires (exec_vrsqrt · x), transcendentalRow_retires (exec_vexp2 · x),
      transcendentalRow_retires (exec_vlog2 · x), transcendentalRow_retires (exec_vsinpi · x), transcendentalRow_retires (exec_vcospi · x),
      transcendentalRow_retires (exec_vtanh · x),
      -- R200
      overActive_retires (exec_vfirst · x), overActive_retires (exec_vballot · x), overActive_retires (exec_psetw · x),
      overActive_retires (exec_vall · x), overActive_retires (exec_vany · x), overActive_retires (exec_vuni · x),
      overActive_retires (exec_vlane · x),
      -- R201, R202, R204
      shuffle_retires (exec_shflIdx · x), shuffle_retires (exec_shflUp · x), shuffle_retires (exec_shflDown · x),
      shuffle_retires (exec_shflXor · x), foldReduction_retires (exec_vredAdd · x), foldReduction_retires (exec_vredMin · x),
      foldReduction_retires (exec_vredMax · x), bitReduction_retires (exec_vredAnd · x), bitReduction_retires (exec_vredOr · x),
      bitReduction_retires (exec_vredXor · x), scan_retires (exec_vscanAdd · x), scan_retires (exec_vscanMin · x),
      scan_retires (exec_vscanMax · x), scan_retires (exec_vscanxAdd · x), scan_retires (exec_vscanxMin · x),
      scan_retires (exec_vscanxMax · x), List.forall_mem_nil _⟩
  · obtain hi | hi := List.mem_append.1 hi
    · suffices rows : ∀ i ∈ _, RetiresEmpty i from rows i hi s q f g h hm
      simp only [List.forall_mem_cons]
      exact ⟨loadLanes_retires (exec_ld · y), loadLanes_retires (exec_ldAcq · y), loadUniform_retires (exec_ldw · y),
        loadUniform_retires (exec_ldwAcq · y), storeLane_retires (exec_st · y), storeLane_retires (exec_stRel · y),
        storeUniform_retires (exec_stw · y), storeUniform_retires (exec_stwRel · y), retiresEmpty_of_test (exec_gth · y),
        retiresEmpty_of_test (exec_sct · y), retiresEmpty_of_test (exec_waita · w), List.forall_mem_nil _⟩
    · exact atomOps_retire z i hi s q f g h hm

end Sys2Proof.Machine
end

section
/-! O59: what a step does when no group issues. -/
namespace Sys2Proof.Machine

/-- The event at the head of the agenda is no reset. -/
theorem resetDue_false {s : State} (h : s.agenda.head? ≠ some .powerOnReset) : s.resetDue = false := by
  simpa [State.resetDue] using h

/-- What a package that runs with no group issuing does (log 3): first what is due, unless a reset is next, then the agenda, then the default. -/
theorem step_idle {s : State} (hp : s.powered = true) (hh : s.halted = false) (hi : s.issue = none) :
    step s = match (if s.resetDue then none else s.dueNow), s.agenda with
      | some d, _ => exec d.1 d.2
      | none, e :: es => exec e { s with agenda := es }
      | none, [] => exec s.nextEvent s := by
  simp only [step, hp, hh, hi, Bool.not_true, Bool.false_and, Bool.false_eq_true, if_false]
  cases s.agenda <;> cases (if s.resetDue then none else s.dueNow) <;> rfl

/-- What is due goes before the agenda (R349, R372, R378, R422). -/
theorem step_due {s : State} (hp : s.powered = true) (hh : s.halted = false) (hi : s.issue = none)
    (ha : s.agenda.head? ≠ some .powerOnReset) {d : Instr × State} (hd : s.dueNow = some d) : step s = exec d.1 d.2 := by
  rw [step_idle hp hh hi, resetDue_false ha, if_neg Bool.false_ne_true, hd]

/-- With nothing due, the agenda alone says what happens. -/
theorem step_agenda {s : State} (hp : s.powered = true) (hh : s.halted = false) (hi : s.issue = none) (hd : s.dueNow = none) :
    step s = match s.agenda with
      | e :: es => exec e { s with agenda := es }
      | [] => exec s.nextEvent s := by
  rw [step_idle hp hh hi, hd, ite_self]
  cases s.agenda <;> rfl

/-- The event that is due once no access is. -/
theorem dueNow_of_noAccess {s : State} (ha : s.accessDue = none) :
    s.dueNow = match s.engineDue with
      | some i => some (i, s)
      | none => s.deferredDue.or (s.destroyDue.map (fun i => (i, s))) := by
  unfold State.dueNow
  rw [ha]
  cases s.engineDue <;> rfl

/-- A token message that comes in time (R376). -/
theorem nextEvent_tok {s : State} {m : Message} {ms : List Message} (hn : s.net = m :: ms) (ht : s.cycles ≤ m.sentAt + 4000) (hm : m.typ = 2) :
    s.nextEvent = .tok 0 := by
  unfold State.nextEvent arrivalOf
  rw [hn]
  simp only [Nat.not_lt.2 ht, if_false, hm]

/-- A reset is the one event that a halted or unpowered package answers (R441 to R443). -/
theorem step_powerOnReset {s : State} {es : List Instr} (ha : s.agenda = .powerOnReset :: es) (hi : s.issue = none) :
    step s = .next (State.resetKept { s with agenda := es }) := by
  have hr : s.resetDue = true := by simp [State.resetDue, ha]
  simp only [step, hr, hi, ha, Bool.not_true, Bool.and_false, Bool.false_eq_true, if_false, if_true]
  rfl

/-- Settles O59, by the order of what `step` looks at (log 3). -/
theorem stepRunsEvent : Obligations.StepRunsEvent := by
  unfold Obligations.StepRunsEvent
  intro s
  refine ⟨fun hp hh hi => ⟨fun hd => ⟨?_, ?_, ?_⟩, fun ha => ⟨?_, fun hacc => ⟨?_, fun heng => ⟨?_, ?_⟩⟩⟩⟩, ?_, ?_, fun es => step_powerOnReset⟩
  · intro e es he
    rw [step_agenda hp hh hi hd, he]
  · intro he
    rw [step_agenda hp hh hi hd, he]
  · intro m ms hn ht hm he
    rw [step_agenda hp hh hi hd, he, nextEvent_tok hn ht hm]
  · intro f hf
    exact step_due hp hh hi ha (d := (.instructionComplete f.core f.slot, s)) (by rw [State.dueNow, hf])
  · intro i hie
    exact step_due hp hh hi ha (d := (i, s)) (by rw [dueNow_of_noAccess hacc, hie])
  · intro i d hf
    refine step_due hp hh hi ha (d := (i, { s with deferred := s.deferred.erase (i, d) })) ?_
    rw [dueNow_of_noAccess hacc, heng, State.deferredDue, hf]
    rfl
  · intro hf i hd
    refine step_due hp hh hi ha (d := (i, s)) ?_
    rw [dueNow_of_noAccess hacc, heng, State.deferredDue, hf, hd]
    rfl
  · intro hp ha
    simp [step, hp, resetDue_false ha]
  · intro hp hh ha
    simp [step, hp, hh, resetDue_false ha]

end Sys2Proof.Machine
end

section
/-! How an instruction ends after an effect on the rest of the state, and how it waits (R33): laws over `State.skip`, `State.done` and `State.waitOn`. -/
namespace Sys2Proof.Machine

/-! ### Look-ups after a change in place -/

/-- A furrow and the others after a change that keeps the place it stands at. -/
theorem State.furrow?_onFurrow_at {s : State} {c n : Nat} {f : Furrow} (h : s.furrow? c n = some f) (k : Furrow → Furrow)
    (hk : ∀ x, x.core = c → x.slot = n → (k x).core = c ∧ (k x).slot = n) :
    (s.onFurrow c n k).furrow? c n = some (k f) ∧ ∀ c' n', (c' ≠ c ∨ n' ≠ n) → (s.onFurrow c n k).furrow? c' n' = s.furrow? c' n' := by
  have hit : ∀ x : Furrow, (x.core == c && x.slot == n) = true ↔ x.core = c ∧ x.slot = n := fun x => by simp
  have place : ∀ x : Furrow, (if x.core == c && x.slot == n then k x else x).core = x.core
      ∧ (if x.core == c && x.slot == n then k x else x).slot = x.slot := fun x => by
    split
    · rename_i hx
      obtain ⟨h1, h2⟩ := (hit x).1 hx
      exact ⟨(hk x h1 h2).1.trans h1.symm, (hk x h1 h2).2.trans h2.symm⟩
    · exact ⟨rfl, rfl⟩
  have look := s.furrow?_map _ place
  refine ⟨(look c n).trans ?_, fun c' n' hne => (look c' n').trans ?_⟩
  · rw [h, Option.map_some, if_pos ((hit f).2 (State.furrow?_place h))]
  · cases hx : s.furrow? c' n' with
    | none => rfl
    | some x =>
      obtain ⟨h1, h2⟩ := State.furrow?_place hx
      rw [Option.map_some, if_neg]
      rw [hit, h1, h2]
      tauto

/-- The group changed, found again. -/
theorem Furrow.group?_onGroup (f : Furrow) (m : Mask) (k : Group → Group) (hk : ∀ g, (k g).lanes = g.lanes ∧ (k g).level = g.level) :
    (f.onGroup m k).group? m = (f.group? m).map k :=
  find?_mapIf (fun x : Group => x.level == f.level && x.lanes == m) k (fun x => by rw [(hk x).1, (hk x).2]) f.groups

/-! ### Instructions that complete after an effect on the rest of the state -/

/-- Furrow v is f but for what no register shows: it goes on as f would. -/
structure GoesOnAs (f v : Furrow) : Prop where
  run : SameRun f v
  spec : v.spec = f.spec
  regs : v.regs = f.regs

theorem GoesOnAs.refl (f : Furrow) : GoesOnAs f f := ⟨SameRun.refl f, rfl, rfl⟩

theorem GoesOnAs.trans {a b c : Furrow} (h : GoesOnAs a b) (k : GoesOnAs b c) : GoesOnAs a c :=
  ⟨h.run.trans k.run, k.spec.trans h.spec, k.regs.trans h.regs⟩

/-- An instruction issues in every state where its group stands as before. -/
theorem Issues.of_state {s u : State} {q : Issue} {f v : Furrow} {g : Group} {i : Instr} (h : Issues s q f g i) (hi : u.issue = s.issue)
    (hf : u.furrow? q.core q.slot = some v) (r : SameRun f v) (hs : v.spec = f.spec) : Issues u q v g i where
  issue := hi.trans h.issue
  furrow := hf
  group := (Furrow.group?_congr r.groups r.level _).trans h.group
  ahead := hs.trans h.ahead
  step := r.step.trans h.step
  alone := h.alone
  own := h.own
  lives := r.ending.trans h.lives
  block := fun hx => by rw [r.ext]; exact h.block hx
  right := fun hx => by rw [r.level]; exact h.right hx

/-- An instruction whose effect is on the rest of the state completes with the furrow's registers as they were. -/
theorem does_of_skip {s u : State} {q : Issue} {f v f1 : Furrow} {g : Group} {i : Instr} (h : Issues s q f g i) (hi : u.issue = s.issue)
    (hf : u.furrow? q.core q.slot = some v) (r : SameRun f v) (hs : v.spec = f.spec) (hr : v.regs = f1.regs) (he : exec i s = u.skip i q g) :
    Does s q g i u f1 := by
  obtain ⟨t, ht, ⟨f', h1, h2, h3⟩, others, rest⟩ := skip_completes (h.of_state hi hf r hs)
  exact ⟨t, he.trans ht, ⟨⟨f', h1, h2.trans hr, h3⟩, others, rest⟩⟩

/-- Writing one `w` register gives furrows of the same registers the same registers. -/
theorem regs_writeW_congr {v f : Furrow} (h : v.regs = f.regs) (d : Nat) (x : W64) : (v.writeW d x).regs = (f.writeW d x).regs := by
  unfold Furrow.writeW
  unfold Furrow.regs at h ⊢
  simp only [Regs.mk.injEq] at h
  split_ifs <;> simp [h]

/-- An instruction that writes one `w` register after an effect on the rest of the state. -/
theorem does_of_writeW {s u : State} {q : Issue} {f v : Furrow} {g : Group} {i : Instr} {d : Nat} {x : W64} (h : Issues s q f g i)
    (hi : u.issue = s.issue) (hf : u.furrow? q.core q.slot = some v) (hv : GoesOnAs f v) (he : exec i s = u.done i q (v.writeW d x) g 0 0) :
    Does s q g i u (f.writeW d x) := by
  obtain ⟨t, ht, ⟨f', h1, h2, h3⟩, others, rest⟩ := done_plain (h.of_state hi hf hv.run hv.spec) (sameRun_writeW v d x)
  exact ⟨t, he.trans ht, ⟨⟨f', h1, h2.trans (regs_writeW_congr hv.regs d x), h3⟩, others, rest⟩⟩

/-! ### The order that an acquire or a fence gives (R139, R144) -/

theorem sameRun_onLanes (f : Furrow) (m : Mask) (k : Nat → Lane → Lane) : SameRun f (f.onLanes m k) := by
  unfold Furrow.onLanes
  exact ⟨rfl, rfl, rfl, rfl, rfl, rfl, rfl, rfl⟩

/-- A lane that has acquired at a scope. -/
def Lane.acquired (scope o : Nat) (l : Lane) : Lane := { l with floor := l.floor.set (Fin.ofNat 8 scope) o }

/-- No register shows what some lanes have acquired. -/
theorem goesOnAs_acquired (f : Furrow) (m : Mask) (scope o : Nat) : GoesOnAs f (f.onLanes m (fun _ l => l.acquired scope o)) := by
  refine ⟨sameRun_onLanes f m _, by unfold Furrow.onLanes; rfl, ?_⟩
  unfold Furrow.regs Furrow.onLanes
  simp only [Regs.mk.injEq, true_and]
  refine tableOf_congr (fun i hi => ?_)
  rw [laneAt_tableOf _ hi]
  split <;> rfl

theorem State.raiseFloor_own {s : State} {f : Furrow} (h : s.furrow? f.core f.slot = some f) (m : Mask) (scope : Nat) :
    ∃ v, (s.raiseFloor f m scope).furrow? f.core f.slot = some v ∧ GoesOnAs f v :=
  ⟨_, State.furrow?_onFurrow_self h (fun f => f.onLanes m (fun _ l => l.acquired scope s.order))
    (fun f => ⟨(sameRun_onLanes f m _).core, (sameRun_onLanes f m _).slot⟩), goesOnAs_acquired f m scope s.order⟩

/-- An acquire at `.pkg` scope besides its order: the quarter's load entries die (R83). -/
theorem State.acquire_pkg (s : State) (f : Furrow) : s.acquire f true .pkg = s.forgetLoads f.core f.slot := rfl

/-- An acquire at `.pkg` scope leaves the furrow as it goes on. -/
theorem State.sync_acquire_own {s : State} {f : Furrow} (h : s.furrow? f.core f.slot = some f) (m : Mask) :
    ∃ v, ((s.acquire f true .pkg).sync f m false true .pkg).furrow? f.core f.slot = some v ∧ GoesOnAs f v :=
  State.raiseFloor_own (s := s.acquire f true .pkg) h m _

/-- A full fence at `.pkg` scope leaves the furrow as it goes on. -/
theorem State.fullFence_own {s : State} {f : Furrow} (h : s.furrow? f.core f.slot = some f) (m : Mask) :
    ∃ v, (s.fullFence f m .pkg).furrow? f.core f.slot = some v ∧ GoesOnAs f v :=
  State.raiseFloor_own (s := (s.acquire f true .pkg).publish (f.party m) Scope.pkg.code true) h m _

/-! ### Waits (R33) -/

/-- A slot with no trap deferred behind it ends by the issue register alone. -/
theorem State.endIssue_eq (s : State) (q : Issue) (hd : q.deferred = none) (hb : q.back = none) : ∃ x, s.endIssue q = { s with issue := x } := by
  unfold State.endIssue State.nextInSlot
  simp only [hb, hd]
  cases q.second with
  | none => exact ⟨none, rfl⟩
  | some m => exact ⟨_, rfl⟩

/-- A group given its wait. -/
def Group.given (w : Wait) (g : Group) : Group := { g with wait := some w }

/-- Furrow v stands in f's slot with its registers, and its group g waits for w where it stood. -/
structure WaitsAs (v f : Furrow) (g : Group) (w : Wait) : Prop where
  core : v.core = f.core
  slot : v.slot = f.slot
  regs : v.regs = f.regs
  group : ∃ h, v.group? g.lanes = some h ∧ h.pc = g.pc ∧ h.wait = some w

/-- A furrow's group given its wait. -/
theorem StandsAs.given {u f : Furrow} {g : Group} (h : StandsAs u f g) (w : Wait) : WaitsAs (u.onGroup g.lanes (Group.given w)) f g w := by
  obtain ⟨hc, hs, hr, x, hx, hpc⟩ := h
  exact ⟨hc, hs, hr, x.given w, (Furrow.group?_onGroup u g.lanes (Group.given w) (fun _ => ⟨rfl, rfl⟩)).trans (by rw [hx]; rfl), hpc, rfl⟩

/-- A group that waits keeps waiting whatever else of it the issue logic keeps for itself. -/
theorem WaitsAs.onGroup {v f : Furrow} {g : Group} {w : Wait} (h : WaitsAs v f g w) (k : Group → Group)
    (hk : ∀ x, (k x).lanes = x.lanes ∧ (k x).level = x.level) (hp : ∀ x, (k x).pc = x.pc ∧ (k x).wait = x.wait) :
    WaitsAs (v.onGroup g.lanes k) f g w := by
  obtain ⟨hc, hs, hr, x, hx, hpc, hw⟩ := h
  exact ⟨hc, hs, hr, k x, (Furrow.group?_onGroup v g.lanes k hk).trans (by rw [hx]; rfl), (hp x).1.trans hpc, (hp x).2.trans hw⟩

/-- What `WaitsFor` asks of the state, where the issuing furrow alone has changed. -/
theorem waits_onFurrow {s : State} {q : Issue} {f : Furrow} {g : Group} {w : Wait} (hf : s.furrow? q.core q.slot = some f) (k : Furrow → Furrow)
    (hk : ∀ x, x.core = q.core → x.slot = q.slot → (k x).core = q.core ∧ (k x).slot = q.slot) (hw : WaitsAs (k f) f g w) (x : Option Issue) :
    ∃ f' h, ({ s.onFurrow q.core q.slot k with issue := x } : State).furrow? q.core q.slot = some f' ∧ f'.regs = f.regs
      ∧ f'.group? g.lanes = some h ∧ h.pc = g.pc ∧ h.wait = some w
      ∧ OthersKept s { s.onFurrow q.core q.slot k with issue := x } q := by
  obtain ⟨own, others⟩ := State.furrow?_onFurrow_at hf k hk
  obtain ⟨h, h1, h2, h3⟩ := hw.group
  exact ⟨k f, h, own, hw.regs, h1, h2, h3, fun c n hcn => congrArg (Option.map Furrow.regs) (others c n hcn)⟩

/-- A change of the issuing furrow alone that leaves its group g waiting for w, with the slot's own bookkeeping. -/
def WaitsIn (s : State) (q : Issue) (f : Furrow) (g : Group) (w : Wait) (t : State) : Prop :=
  ∃ (k : Furrow → Furrow) (x : Option Issue), t = { s.onFurrow q.core q.slot k with issue := x }
    ∧ (∀ x, x.core = q.core → x.slot = q.slot → (k x).core = q.core ∧ (k x).slot = q.slot) ∧ WaitsAs (k f) f g w

/-- Standing back for a wait (R33, R35): the choice or the clause that brought the group here is undone, and it waits where it stood. -/
theorem standBack_waits {s : State} {q : Issue} {f : Furrow} {g : Group} {i : Instr} (h : Issues s q f g i) (hu : Undoes q f g) (w : Wait) :
    WaitsIn s q f g w (s.standBack q g w id) := by
  obtain ⟨hc, hs⟩ := State.furrow?_place h.furrow
  have own : StandsAs f f g := ⟨rfl, rfl, rfl, g, (Furrow.group?_some h.group).2.2 ▸ h.group, rfl⟩
  have place : ∀ u, StandsAs u f g → u.core = q.core ∧ u.slot = q.slot := fun u hu => ⟨hu.1.trans hc, hu.2.1.trans hs⟩
  unfold State.standBack
  dsimp only [id]
  split
  · obtain ⟨x, hx⟩ := State.endIssue_eq (s.onFurrow q.core q.slot (fun f => f.onGroup g.lanes (Group.given w))) q h.alone h.own
    exact ⟨_, x, hx, fun _ hc hs => ⟨hc, hs⟩, own.given w⟩
  split
  · rename_i u hundo
    have hsu := hu u (.inl hundo)
    exact ⟨fun _ => u.onGroup g.lanes (Group.given w), _, rfl, fun _ _ _ => place u hsu, hsu.given w⟩
  · generalize (q.before.find? (fun h => h.level == g.level && h.lanes == g.lanes)).getD g = old
    obtain ⟨k, hk⟩ : ∃ k : Furrow → Furrow, k = fun x => ((q.reopen.getD x).onGroup g.lanes (Group.given w)).onGroup g.lanes
        (fun h => { h with age := old.age, issuedAt := old.issuedAt }) := ⟨_, rfl⟩
    have hkeep : ∀ x : Furrow, x.core = q.core → x.slot = q.slot → (k x).core = q.core ∧ (k x).slot = q.slot := fun x hc hs => by
      rw [hk]
      cases hr : q.reopen with
      | none => exact ⟨hc, hs⟩
      | some u => exact place u (hu u (.inr hr))
    have hback : StandsAs (q.reopen.getD f) f g := by
      cases hr : q.reopen with
      | none => exact own
      | some u => exact hu u (.inr hr)
    have hw : WaitsAs (k f) f g w := by
      rw [hk]
      exact (hback.given w).onGroup (fun h => { h with age := old.age, issuedAt := old.issuedAt }) (fun _ => ⟨rfl, rfl⟩) (fun _ => ⟨rfl, rfl⟩)
    split
    · obtain ⟨x, hx⟩ := State.endIssue_eq (s.onFurrow q.core q.slot k) q h.alone h.own
      exact ⟨k, x, by rw [← hx, hk]; rfl, hkeep, hw⟩
    · exact ⟨k, _, by rw [hk]; rfl, hkeep, hw⟩

/-- An instruction that waits with no other effect (R33). -/
theorem waitsFor_of_waitOn {s : State} {q : Issue} {f : Furrow} {g : Group} {i : Instr} {w : Wait} (h : Issues s q f g i)
    (he : exec i s = .next (s.waitOn q g w)) : WaitsFor s q f g i w := by
  intro hu
  have hst : (s.furrow? q.core q.slot).any (fun f => f.stepping && f.step.any (fun t => !t.2.2)) = false := by
    rw [h.furrow]; simp [h.step]
  have hback : s.waitOn q g w = s.standBack q g w id := by
    unfold State.waitOn State.waitWith
    simp only [h.own, hst, Bool.false_eq_true, if_false]
  obtain ⟨k, x, e, hk, hw⟩ := standBack_waits h hu w
  obtain ⟨f', h', h1, h2, h3, h4, h5, h6⟩ := waits_onFurrow h.furrow k hk hw x
  exact ⟨_, f', h', he.trans (congrArg _ (hback.trans e)), h1, h2, h3, h4, h5, h6, rfl, rfl, rfl⟩

end Sys2Proof.Machine
end

section
/-! Taking a trap (R318 to R326): what the entry leaves of the furrow, and the laws of `State.enterTrap` and `State.trapIssue`. -/
namespace Sys2Proof.Machine

/-! ### Pool entries change nothing else -/

/-- The furrow with other pool entries. -/
def Furrow.entries (f : Furrow) (k : Group → Bool) : Furrow := { f with groups := f.groups.map (fun g => { g with active := k g }) }

/-- The furrows of t are those of s with other pool entries. -/
def EntriesOnly (s t : State) : Prop := ∀ c n f, s.furrow? c n = some f → ∃ k, t.furrow? c n = some (f.entries k)

theorem Furrow.entries_self (f : Furrow) : f.entries Group.active = f := by
  have : (fun g : Group => ({ g with active := g.active } : Group)) = id := rfl
  rw [Furrow.entries, this, List.map_id]

theorem EntriesOnly.refl (s : State) : EntriesOnly s s := fun _ _ f h => ⟨_, by rw [Furrow.entries_self]; exact h⟩

theorem EntriesOnly.trans {a b c : State} (h : EntriesOnly a b) (k : EntriesOnly b c) : EntriesOnly a c := fun x n f hf => by
  obtain ⟨k1, h1⟩ := h x n f hf
  obtain ⟨k2, h2⟩ := k x n _ h1
  refine ⟨fun g => k2 { g with active := k1 g }, h2.trans ?_⟩
  simp only [Furrow.entries, List.map_map]
  rfl

/-- A change in place that gives furrows other pool entries. -/
theorem entriesOnly_map (s : State) (k : Furrow → Furrow) (hk : ∀ f, ∃ a, k f = f.entries a) :
    EntriesOnly s { s with furrows := s.furrows.map k } := fun c n f hf => by
  have place : ∀ x, (k x).core = x.core ∧ (k x).slot = x.slot := fun x => by
    obtain ⟨a, h⟩ := hk x
    rw [h]
    exact ⟨rfl, rfl⟩
  obtain ⟨a, h⟩ := hk f
  exact ⟨a, (s.furrow?_map k place c n).trans (by rw [hf, Option.map_some, h])⟩

theorem Furrow.activate_entries (f : Furrow) (g : Group) : ∃ k, f.activate g = f.entries k := by
  refine ⟨fun h => if h.level == g.level && h.lanes == g.lanes then true else h.active, ?_⟩
  unfold Furrow.activate Furrow.entries
  congr 1
  refine List.map_congr_left (fun h _ => ?_)
  dsimp only
  split <;> rfl

theorem Furrow.ownEntry_entries (f : Furrow) : ∃ k, f.ownEntry = f.entries k := by
  unfold Furrow.ownEntry
  split
  · exact ⟨_, f.entries_self.symm⟩
  · split
    · exact f.activate_entries _
    · exact ⟨_, f.entries_self.symm⟩

/-- A change of some furrows' pool entries, the others left as they are. -/
theorem entries_guard (k : Furrow → Furrow) (hk : ∀ f, ∃ a, k f = f.entries a) (t : Furrow → Bool) (f : Furrow) :
    ∃ a, (if t f then k f else f) = f.entries a := by
  split
  · exact hk f
  · exact ⟨_, f.entries_self.symm⟩

theorem entriesOnly_handoutFree (c q n : Nat) : ∀ s : State, EntriesOnly s (State.handoutFree c q n s) := by
  induction n with
  | zero => exact fun s => EntriesOnly.refl s
  | succ n ih =>
    intro s
    unfold State.handoutFree
    dsimp only
    split
    · rename_i slot g _
      exact (entriesOnly_map s _ (entries_guard _ (fun f => f.activate_entries g) (fun f => f.core == c && f.slot == slot))).trans (ih _)
    · exact EntriesOnly.refl s

/-- Giving out pool entries changes nothing else of any furrow (R31, R32). -/
theorem entriesOnly_handout (s : State) (c q : Nat) : EntriesOnly s (s.handout c q) :=
  (entriesOnly_map s _ (entries_guard _ Furrow.ownEntry_entries (fun f => f.core == c && quarterOf f.slot == q))).trans (entriesOnly_handoutFree c q _ _)

/-! ### Clause instances closed change the flags alone -/

/-- Furrow v is f with other clause instances, flags and counts of them. -/
def FlagsOnly (f v : Furrow) : Prop := v = { f with clauses := v.clauses, counts := v.counts, flags := v.flags }

theorem FlagsOnly.refl (f : Furrow) : FlagsOnly f f := rfl

theorem FlagsOnly.trans {a b c : Furrow} (h : FlagsOnly a b) (k : FlagsOnly b c) : FlagsOnly a c := by
  rw [FlagsOnly] at h k ⊢
  rw [k, h]

theorem Furrow.settleClauses_flags (f : Furrow) : FlagsOnly f f.settleClauses := by
  unfold Furrow.settleClauses
  dsimp only
  refine List.foldlRecOn _ _ (show FlagsOnly f _ from rfl) (fun v hv c _ => hv.trans ?_)
  refine List.foldlRecOn _ _ (show FlagsOnly v _ from rfl) (fun w hw i _ => hw.trans ?_)
  split
  · exact rfl
  · exact FlagsOnly.refl w

theorem Furrow.closeInst_flags (f : Furrow) (inst : Option Nat) : FlagsOnly f (f.closeInst inst) := by
  cases inst with
  | none => exact FlagsOnly.refl f
  | some n =>
    exact FlagsOnly.trans (b := { f with clauses := f.clauses.map (fun c => if c.1 == n then (c.1, true, c.2.2) else c) }) rfl
      (Furrow.settleClauses_flags _)

/-- The instances of several groups closed. -/
theorem closeInsts_flags (gs : List Group) (f : Furrow) : FlagsOnly f (gs.foldl (fun (f : Furrow) g => f.closeInst g.inst) f) :=
  List.foldlRecOn gs _ (FlagsOnly.refl f) (fun v hv g _ => hv.trans (v.closeInst_flags g.inst))

/-! ### Lanes that run -/

theorem inMask_or (a b : Mask) (l : Nat) : inMask (a ||| b) l = (inMask a l || inMask b l) := BitVec.getLsbD_or

theorem inMask_and (a b : Mask) (l : Nat) : inMask (a &&& b) l = (inMask a l && inMask b l) := BitVec.getLsbD_and

theorem inMask_not (a : Mask) {l : Nat} (h : l < 32) : inMask (~~~a) l = !inMask a l := by
  simp [inMask, h]

/-- A lane of the union of some groups is one of theirs. -/
theorem inMask_union (gs : List Group) (m : Mask) (l : Nat) :
    inMask (gs.foldl (fun m g => m ||| g.lanes) m) l = (inMask m l || gs.any (fun g => inMask g.lanes l)) := by
  induction gs generalizing m with
  | nil => simp
  | cons g gs ih => rw [List.foldl_cons, ih, inMask_or, List.any_cons, Bool.or_assoc]

/-- A lane that runs stands in a group of the furrow's level. -/
theorem Furrow.groupOf?_of_running {f : Furrow} {l : Nat} (h : inMask f.running l = true) : ∃ g, f.groupOf? l = some g := by
  have h0 : inMask (0 : Mask) l = false := BitVec.getLsbD_zero
  rw [Furrow.running, inMask_union, h0, Bool.false_or, List.any_eq_true] at h
  obtain ⟨g, hg, hl⟩ := h
  obtain ⟨hg, hv⟩ := List.mem_filter.1 hg
  exact Option.isSome_iff_exists.1 (List.find?_isSome.2 ⟨g, hg, by simp [hv, hl]⟩)

/-- Lanes inside a mask. -/
theorem inMask_of_inside {a b : Mask} (h : a &&& b = a) {l : Nat} (hl : inMask a l = true) : inMask b l = true := by
  rw [← h, inMask_and] at hl
  exact (Bool.and_eq_true_iff.1 hl).2

/-! ### The entry (R324) -/

/-- The furrow after the entry of a trap from level 0 to 3, pool entries aside: its permit is taken where it comes from level 0 (R322). -/
def Furrow.entered (f : Furrow) (n : Nat) (r : TrapReq) : Furrow := { f with permit := f.permit || f.level == 0 }.enter n r

/-- What the entry of trap r at level n makes of furrow f (R324), and what it leaves. -/
structure Entered (f v : Furrow) (n : Nat) (r : TrapReq) : Prop where
  level : v.level = n
  frame : v.frame? n = some (f.frameFor r)
  group : ∃ h ∈ v.groups, h.level = n ∧ h.lanes = r.lanes ∧ h.pc = pcOfPacket (8 * causeClass r.code)
  held : ∀ l, l < 32 → inMask f.running l = true → inMask r.lanes l = false → (laneAt v.lanes l).status = .held
  permit : v.permit = (f.permit || f.level == 0)
  haltPend : v.haltPend = f.haltPend
  regs : v.v = f.v ∧ v.w = f.w ∧ v.wbank = f.wbank ∧ v.p = f.p ∧ v.pbank = f.pbank ∧ v.s = f.s ∧ v.opq = f.opq ∧ v.h = f.h ∧ v.fpenv = f.fpenv
    ∧ v.ext = f.ext

theorem Furrow.entered_entered (f : Furrow) {n : Nat} (hn : n ≠ 0) (r : TrapReq) : Entered f (f.entered n r) n r := by
  obtain ⟨f0, h0⟩ : ∃ f0 : Furrow, f0 = { f with permit := f.permit || f.level == 0 } := ⟨_, rfl⟩
  have hframe : f0.frameFor r = f.frameFor r := by rw [h0]; rfl
  have hrun : f0.running = f.running := by rw [h0]; rfl
  obtain ⟨a, b, c, hf⟩ : ∃ a b c, (f0.groups.filter (fun g => g.level == f0.level && g.lanes &&& r.lanes != 0)).foldl
      (fun (f : Furrow) g => f.closeInst g.inst) f0 = { f0 with clauses := a, counts := b, flags := c } := ⟨_, _, _, closeInsts_flags _ f0⟩
  have hv : f.entered n r = f0.enter n r := by rw [h0]; rfl
  unfold Furrow.enter at hv
  dsimp only at hv
  rw [hf, Furrow.setFrame, if_neg hn, Furrow.onLanes, hframe, hrun] at hv
  rw [hv]
  refine ⟨rfl, ?_, ⟨_, List.mem_append_right _ (List.mem_singleton_self _), rfl, rfl, rfl⟩, fun l hl hl1 hout => ?_, by rw [h0], by rw [h0],
    by rw [h0]; exact ⟨rfl, rfl, rfl, rfl, rfl, rfl, rfl, rfl, rfl, rfl⟩⟩
  · rw [Furrow.frame?, if_neg hn]
    exact Vector.getElem_set_self _
  · have hin : inMask (f.running &&& ~~~r.lanes) l = true := by rw [inMask_and, inMask_not _ hl, hl1, hout]; rfl
    dsimp only
    rw [laneAt_tableOf _ hl, if_pos hin]

/-- The entry stays in its slot. -/
theorem Furrow.enter_place (f : Furrow) (n : Nat) (r : TrapReq) : (f.enter n r).core = f.core ∧ (f.enter n r).slot = f.slot := by
  obtain ⟨a, b, c, hf⟩ : ∃ a b c, (f.groups.filter (fun g => g.level == f.level && g.lanes &&& r.lanes != 0)).foldl
      (fun (f : Furrow) g => f.closeInst g.inst) f = { f with clauses := a, counts := b, flags := c } := ⟨_, _, _, closeInsts_flags _ f⟩
  unfold Furrow.enter
  dsimp only
  rw [hf, Furrow.setFrame, Furrow.onLanes]
  split <;> exact ⟨rfl, rfl⟩

/-- The lane records that the entry writes for the trapping lanes (R324). -/
theorem Furrow.laneRec_trapping {f : Furrow} {r : TrapReq} (hin : r.lanes &&& f.running = r.lanes) {l : Nat} (hl : l < 32)
    (ht : inMask r.lanes l = true) :
    (laneAt (f.frameFor r).lrec l).state = 1 ∧ (laneAt (f.frameFor r).lrec l).t = true ∧ (laneAt (f.frameFor r).lrec l).pc = laneAt r.pcs l := by
  obtain ⟨g, hg⟩ := Furrow.groupOf?_of_running (inMask_of_inside hin ht)
  have he : laneAt (f.frameFor r).lrec l = f.laneRec r l := laneAt_tableOf _ hl
  rw [he]
  unfold Furrow.laneRec
  rw [hg]
  simp only [ht, if_true, and_self]

/-- A state that holds furrow f as it is after the entry of trap r, pool entries aside, has taken the trap. -/
theorem trapTaken_of_entered {t : State} {q : Issue} {f v : Furrow} {r : TrapReq} {n : Nat} {k : Group → Bool} (h : Entered f v n r)
    (ht : t.furrow? q.core q.slot = some (v.entries k)) (hin : r.lanes &&& f.running = r.lanes) : TrapTaken t q f r n := by
  obtain ⟨g, hg, hgl, hgm, hgp⟩ := h.group
  exact ⟨v.entries k, ht, h.level, ⟨f.frameFor r, h.frame, rfl, rfl, rfl, rfl, rfl, rfl, fun l hl hlr => Furrow.laneRec_trapping hin hl hlr⟩,
    ⟨_, List.mem_map_of_mem hg, hgl, hgm, hgp⟩, h.held, fun h0 => h.permit.trans (by simp [h0]), h.regs⟩

/-- The furrow whose trap comes from level 0 has a permit (R322). -/
theorem State.furrow?_permitted {s : State} {f : Furrow} (hf : s.furrow? f.core f.slot = some f) (m : Mask) :
    (if f.level = 0 ∧ !f.permit then s.takePermit f m else s).furrow? f.core f.slot = some { f with permit := f.permit || f.level == 0 } := by
  by_cases h : f.level = 0 ∧ (!f.permit) = true
  · have hp : f.permit = false := by simpa using h.2
    rw [if_pos h]
    refine (State.furrow?_onFurrow_self hf (fun f => { f with permit := true }) (fun _ => ⟨rfl, rfl⟩)).trans ?_
    rw [h.1, hp]
    rfl
  · have hp : (f.permit || f.level == 0) = f.permit := by
      cases hq : f.permit with
      | true => rfl
      | false => simpa [hq] using h
    rw [if_neg h, hp]
    exact hf

/-- A trap that enters level n leaves its furrow entered, pool entries aside. -/
theorem State.enterLevel_own {s : State} {core slot : Nat} {f : Furrow} (hf : s.furrow? core slot = some f) (n : Nat) (r : TrapReq) :
    ∃ k, (s.enterLevel f n r).furrow? core slot = some ((f.entered n r).entries k) := by
  obtain ⟨rfl, rfl⟩ := State.furrow?_place hf
  exact entriesOnly_handout _ _ _ _ _ _
    (State.furrow?_onFurrow_self (State.furrow?_permitted hf r.lanes) (fun f => f.enter n r) (fun f => f.enter_place n r))

/-! ### Taking a trap (R320 to R323) -/

theorem routeTrap_ne_zero {c : Ctx} {code level n : Nat} (h : routeTrap c code level = some n) : n ≠ 0 := by
  rintro rfl
  unfold routeTrap at h
  dsimp only at h
  split_ifs at h <;> simp at h

section EnterTrap
variable {s : State} {core slot : Nat} {f : Furrow} {r : TrapReq} {c : Ctx}

/-- A trap that its context routes to a level is entered, or backs off where no permit is free (R322 to R324). -/
theorem State.enterTrap_routed {n : Nat} (hf : s.furrow? core slot = some f) (hne : r.lanes ≠ 0) (hin : r.lanes &&& f.running = r.lanes)
    (hc : s.ctx? (s.ctxOf f) = some c) (hr : routeTrap c r.code f.level = some n) :
    s.enterTrap core slot r = if f.level = 0 ∧ !f.permit ∧ !s.permitFor f r.lanes then s.backOff f r else s.enterLevel f n r := by
  unfold State.enterTrap
  simp only [hf, hin, hne, if_false, hc, hr]

/-- One that its context routes nowhere is a context fault (R320, R321). -/
theorem State.enterTrap_unrouted (hf : s.furrow? core slot = some f) (hne : r.lanes ≠ 0) (hin : r.lanes &&& f.running = r.lanes)
    (hc : s.ctx? (s.ctxOf f) = some c) (hr : routeTrap c r.code f.level = none) :
    s.enterTrap core slot r = s.contextFault core slot (s.ctxOf f) r.code (s.locOf f) := by
  unfold State.enterTrap
  simp only [hf, hin, hne, if_false, hc, hr]

end EnterTrap

/-- A trap that can be entered is entered (R324). -/
theorem State.enterTrap_entered {s : State} {q : Issue} {f : Furrow} {r : TrapReq} {n : Nat} (hf : s.furrow? q.core q.slot = some f)
    (hr : TrapReady s q f r n) :
    ∃ k, (s.enterTrap q.core q.slot r).furrow? q.core q.slot = some ((f.entered n r).entries k) := by
  obtain ⟨⟨c, hc, hroute⟩, hne, hin, hperm, -⟩ := hr
  have hgo : ¬(f.level = 0 ∧ (!f.permit) = true ∧ (!s.permitFor f r.lanes) = true) := by
    rintro ⟨h1, h2, h3⟩
    rcases hperm with h | h | h
    · exact h h1
    · rw [h] at h2; cases h2
    · rw [h] at h3; cases h3
  have he := (State.enterTrap_routed hf hne hin hc hroute).trans (if_neg hgo)
  rw [he]
  exact State.enterLevel_own hf n r

theorem State.enterTrap_taken {s : State} {q : Issue} {f : Furrow} {r : TrapReq} {n : Nat} (hf : s.furrow? q.core q.slot = some f)
    (hr : TrapReady s q f r n) : TrapTaken (s.enterTrap q.core q.slot r) q f r n := by
  obtain ⟨c, -, hroute⟩ := hr.route
  obtain ⟨k, hk⟩ := State.enterTrap_entered hf hr
  exact trapTaken_of_entered (f.entered_entered (routeTrap_ne_zero hroute) r) hk hr.inside

/-! ### What trap permits depend on (R322, R323) -/

/-- What a group's retries depend on. -/
def Group.retry (g : Group) : Nat × Mask × Option Backoff := (g.level, g.lanes, g.backoff)

/-- A change of furrows that trap permits do not see. -/
structure KeepsPermits (k : Furrow → Furrow) : Prop where
  place : ∀ f, (k f).core = f.core ∧ (k f).slot = f.slot
  permit : ∀ f, (k f).permit = f.permit
  need : ∀ f, (k f).needPermit = f.needPermit
  level : ∀ f, (k f).level = f.level
  groups : ∀ f, (k f).groups.map Group.retry = f.groups.map Group.retry

/-- A test of groups that sees nothing but what their retries depend on. -/
theorem any_retry {l m : List Group} (h : l.map Group.retry = m.map Group.retry) (t : Nat × Mask × Option Backoff → Bool) :
    l.any (fun g => t g.retry) = m.any (fun g => t g.retry) := by
  have e : ∀ l : List Group, l.any (fun g => t g.retry) = (l.map Group.retry).any t := fun l => List.any_map.symm
  rw [e, e, h]

/-- Whether a permit is free for a group is the same after a change that permits do not see. -/
theorem State.permitFor_congr {s t : State} {k : Furrow → Furrow} (hk : KeepsPermits k) (hf : t.furrows = s.furrows.map k)
    (hc : ∀ c, (t.core c).reserve = (s.core c).reserve) (f : Furrow) (m : Mask) : t.permitFor (k f) m = s.permitFor f m := by
  have free : ∀ c, t.permitsFree c = s.permitsFree c := fun c => by
    have e : (fun f : Furrow => f.core == c && f.permit) ∘ k = fun f => f.core == c && f.permit :=
      funext fun f => by rw [Function.comp_apply, (hk.place f).1, hk.permit]
    unfold State.permitsFree
    rw [hf, List.filter_map, List.length_map, e]
  have held : ∀ c r, t.reserved c r = s.reserved c r := fun c r => by
    have e : t.furrow? c r.1 = (s.furrow? c r.1).map k := by
      rw [← s.furrow?_map k hk.place c r.1, State.furrow?, hf]
      rfl
    unfold State.reserved
    rw [e]
    cases s.furrow? c r.1 with
    | none => rfl
    | some f =>
      simp only [Option.map_some, Option.any_some, hk.need, hk.level]
      exact congrArg _ (any_retry (hk.groups f) (fun x => x.1 == f.level && x.2.1 &&& r.2 != 0 && x.2.2.any (fun b : Backoff => decide (8 ≤ b.failed))))
  unfold State.permitFor State.reservePlace
  rw [(hk.place f).1, (hk.place f).2, hc, funext (held f.core), free]

/-- A core looked up after a change that keeps its reservation list. -/
theorem State.reserve_onCore (s : State) (c : Nat) (k : Core → Core) (hk : ∀ x, (k x).ix = x.ix ∧ (k x).reserve = x.reserve) (c' : Nat) :
    ((s.onCore c k).core c').reserve = (s.core c').reserve := by
  unfold State.onCore State.core
  dsimp only
  split
  · rw [mapIf, find?_map_key (fun x : Core => x.ix == c') _ (fun x => by split <;> simp [hk x])]
    cases s.cores.find? (fun x => x.ix == c') with
    | none => rfl
    | some x =>
      simp only [Option.map_some, Option.getD_some]
      split <;> simp [hk x]
  · rename_i hno
    rw [List.find?_cons, (hk _).1]
    by_cases h : c = c'
    · subst h
      have : s.cores.find? (fun x => x.ix == c) = none := List.find?_eq_none.2 (fun x hx hxc => hno (List.any_eq_true.2 ⟨x, hx, hxc⟩))
      simp [this, hk]
    · rw [beq_eq_false_iff_ne.2 h]

end Sys2Proof.Machine
end

section
/-! O40: the selection of a quarter. -/
namespace Sys2Proof.Machine

/-! ### The best of a list -/

theorem bestBy_isSome {α : Type} (better : α → α → Bool) {l : List α} (h : l ≠ []) : (bestBy better l).isSome = true := by
  cases l with
  | nil => exact absurd rfl h
  | cons x xs => rfl

/-- What a run through a list keeps is one of those met. -/
theorem bestFold_mem {α : Type} (better : α → α → Bool) (x : α) (xs : List α) :
    xs.foldl (fun b y => if better y b then y else b) x ∈ x :: xs := by
  induction xs generalizing x with
  | nil => exact List.mem_singleton.2 rfl
  | cons y ys ih =>
    rw [List.foldl_cons]
    split
    · exact List.mem_cons_of_mem _ (ih y)
    · obtain h | h := List.mem_cons.1 (ih x)
      · exact List.mem_cons.2 (.inl h)
      · exact List.mem_cons_of_mem _ (List.mem_cons_of_mem _ h)

theorem bestBy_mem {α : Type} {better : α → α → Bool} {l : List α} {x : α} (h : bestBy better l = some x) : x ∈ l := by
  cases l with
  | nil => cases h
  | cons y ys => exact Option.some.inj h ▸ bestFold_mem better y ys

/-- The best has the largest value of a key that the comparison follows. -/
theorem bestBy_key {α : Type} {better : α → α → Bool} (key : α → Nat) (hi : ∀ a b, better a b = true → key b ≤ key a)
    (lo : ∀ a b, better a b = false → key a ≤ key b) {l : List α} {x : α} (h : bestBy better l = some x) : ∀ y ∈ l, key y ≤ key x := by
  cases l with
  | nil => cases h
  | cons z zs =>
    obtain rfl := Option.some.inj h
    clear h
    induction zs generalizing z with
    | nil => intro y hy; rw [List.mem_singleton.1 hy]; exact le_rfl
    | cons w ws ih =>
      intro y hy
      rw [List.foldl_cons]
      cases hb : better w z with
      | true =>
        rw [if_pos rfl]
        obtain rfl | hy := List.mem_cons.1 hy
        · exact (hi _ _ hb).trans (ih w w (List.mem_cons_self ..))
        · exact ih w y hy
      | false =>
        rw [if_neg Bool.false_ne_true]
        obtain rfl | hy := List.mem_cons.1 hy
        · exact ih y y (List.mem_cons_self ..)
        obtain rfl | hy := List.mem_cons.1 hy
        · exact (lo _ _ hb).trans (ih z z (List.mem_cons_self ..))
        · exact ih z y (List.mem_cons_of_mem _ hy)

/-- One that is better than every other, and that no other is better than, is the best. -/
theorem bestBy_eq_some {α : Type} {better : α → α → Bool} {l : List α} {x : α} (hx : x ∈ l)
    (h : ∀ y ∈ l, y ≠ x → better x y = true ∧ better y x = false) : bestBy better l = some x := by
  have hold : ∀ ys : List α, (∀ y ∈ ys, y ≠ x → better y x = false) → ys.foldl (fun b y => if better y b then y else b) x = x := by
    intro ys hys
    induction ys with
    | nil => rfl
    | cons y ys ih =>
      rw [List.foldl_cons]
      by_cases hy : y = x
      · rw [hy, ite_self]; exact ih (fun z hz => hys z (List.mem_cons_of_mem _ hz))
      · rw [hys y (List.mem_cons_self ..) hy, if_neg Bool.false_ne_true]
        exact ih (fun z hz => hys z (List.mem_cons_of_mem _ hz))
  cases l with
  | nil => cases hx
  | cons z zs =>
    refine congrArg some ?_
    induction zs generalizing z with
    | nil => exact (List.mem_singleton.1 hx).symm
    | cons w ws ih =>
      by_cases hz : z = x
      · subst hz
        exact hold _ (fun y hy hne => (h y (List.mem_cons_of_mem _ hy) hne).2)
      · have hxw : x ∈ w :: ws := (List.mem_cons.1 hx).resolve_left (fun e => hz e.symm)
        rw [List.foldl_cons]
        by_cases hw : w = x
        · subst hw
          rw [(h z (List.mem_cons_self ..) hz).1, if_pos rfl]
          exact hold _ (fun y hy hne => (h y (List.mem_cons_of_mem _ (List.mem_cons_of_mem _ hy)) hne).2)
        · have hxs : x ∈ ws := (List.mem_cons.1 hxw).resolve_left (fun e => hw e.symm)
          split
          · exact ih w hxw (fun y hy => h y (List.mem_cons_of_mem _ hy))
          · exact ih z (List.mem_cons_of_mem _ hxs) (fun y hy => h y (by
              obtain rfl | hy := List.mem_cons.1 hy
              · exact List.mem_cons_self ..
              · exact List.mem_cons_of_mem _ (List.mem_cons_of_mem _ hy)))

/-! ### Step 1 of R35 -/

theorem olderGroup_oldest {l : List Group} {g : Group} (h : bestBy olderGroup l = some g) : ∀ k ∈ l, k.age ≤ g.age := by
  refine bestBy_key Group.age (fun a b hab => ?_) (fun a b hab => ?_) h <;>
    simp only [olderGroup, Bool.or_eq_true, Bool.or_eq_false_iff, Bool.and_eq_true, decide_eq_true_eq, decide_eq_false_iff_not, beq_iff_eq] at hab <;> omega

theorem widerGroup_widest {l : List Group} {g : Group} (h : bestBy widerGroup l = some g) : ∀ k ∈ l, laneCount k.lanes ≤ laneCount g.lanes := by
  refine bestBy_key (fun g => laneCount g.lanes) (fun a b hab => ?_) (fun a b hab => ?_) h <;>
    simp only [widerGroup, Bool.or_eq_true, Bool.or_eq_false_iff, Bool.and_eq_true, decide_eq_true_eq, decide_eq_false_iff_not, beq_iff_eq] at hab <;> omega

/-- A group of age 32 or more comes first (R35). -/
theorem firstChoice_due {gs : List Group} (h : ∃ k ∈ gs, 32 ≤ k.age) :
    firstChoice gs = bestBy olderGroup (gs.filter (fun g => decide (32 ≤ g.age))) := by
  obtain ⟨k, hk, ha⟩ := h
  have : (gs.filter (fun g => decide (32 ≤ g.age))).isEmpty = false :=
    List.isEmpty_eq_false_iff_exists_mem.2 ⟨k, List.mem_filter.2 ⟨hk, decide_eq_true ha⟩⟩
  simp [firstChoice, this]

/-- Where no group is due and none is active, the oldest (R35). -/
theorem firstChoice_parked {gs : List Group} (h : ∀ k ∈ gs, k.age < 32) (hp : ∀ k ∈ gs, k.active = false) :
    firstChoice gs = bestBy olderGroup gs := by
  have e : gs.filter (fun g => decide (32 ≤ g.age)) = [] := List.filter_eq_nil_iff.2 (fun k hk => by have := h k hk; simp; omega)
  have a : gs.all (fun g => !g.active) = true := List.all_eq_true.2 (fun k hk => by rw [hp k hk]; rfl)
  rw [firstChoice, e]
  simp [a]

/-- Where no group is due, the widest of the active ones (R35). -/
theorem firstChoice_active {gs : List Group} (h : ∀ k ∈ gs, k.age < 32) (ha : ∃ k ∈ gs, k.active = true) :
    firstChoice gs = bestBy widerGroup (gs.filter Group.active) := by
  have e : gs.filter (fun g => decide (32 ≤ g.age)) = [] := List.filter_eq_nil_iff.2 (fun k hk => by have := h k hk; simp; omega)
  obtain ⟨k, hk, hka⟩ := ha
  have a : gs.all (fun g => !g.active) = false := List.all_eq_false.2 ⟨k, hk, by simp [hka]⟩
  rw [firstChoice, e]
  simp [a]

/-- The three cases of step 1 (R35): some group is due, none is and all are parked, none is due and some are active. -/
theorem firstChoice_cases (gs : List Group) :
    (∃ k ∈ gs, 32 ≤ k.age) ∨ ((∀ k ∈ gs, k.age < 32) ∧ ∀ k ∈ gs, k.active = false) ∨ ((∀ k ∈ gs, k.age < 32) ∧ ∃ k ∈ gs, k.active = true) := by
  by_cases hd : ∃ k ∈ gs, 32 ≤ k.age
  · exact .inl hd
  · have hy : ∀ k ∈ gs, k.age < 32 := fun k hk => Nat.lt_of_not_le (fun h => hd ⟨k, hk, h⟩)
    by_cases ha : ∃ k ∈ gs, k.active = true
    · exact .inr (.inr ⟨hy, ha⟩)
    · exact .inr (.inl ⟨hy, fun k hk => Bool.eq_false_iff.2 (fun h => ha ⟨k, hk, h⟩)⟩)

theorem firstChoice_mem {gs : List Group} {g : Group} (h : firstChoice gs = some g) : g ∈ gs := by
  obtain hd | ⟨hy, hp⟩ | ⟨hy, ha⟩ := firstChoice_cases gs
  · exact List.mem_of_mem_filter (bestBy_mem (firstChoice_due hd ▸ h))
  · exact bestBy_mem (firstChoice_parked hy hp ▸ h)
  · exact List.mem_of_mem_filter (bestBy_mem (firstChoice_active hy ha ▸ h))

theorem firstChoice_isSome {gs : List Group} (h : gs ≠ []) : (firstChoice gs).isSome = true := by
  obtain hd | ⟨hy, hp⟩ | ⟨hy, ha⟩ := firstChoice_cases gs
  · rw [firstChoice_due hd]
    obtain ⟨k, hk, hka⟩ := hd
    exact bestBy_isSome _ (List.ne_nil_of_mem (List.mem_filter.2 ⟨hk, decide_eq_true hka⟩))
  · rw [firstChoice_parked hy hp]
    exact bestBy_isSome _ h
  · rw [firstChoice_active hy ha]
    obtain ⟨k, hk, hka⟩ := ha
    exact bestBy_isSome _ (List.ne_nil_of_mem (List.mem_filter.2 ⟨hk, hka⟩))

/-- A group of age 32 or more chosen is the oldest of all. -/
theorem firstChoice_oldest {gs : List Group} {g : Group} (h : firstChoice gs = some g) (hd : ∃ k ∈ gs, 32 ≤ k.age) :
    32 ≤ g.age ∧ ∀ k ∈ gs, k.age ≤ g.age := by
  rw [firstChoice_due hd] at h
  have hg : 32 ≤ g.age := by simpa using (List.mem_filter.1 (bestBy_mem h)).2
  refine ⟨hg, fun k hk => ?_⟩
  by_cases hka : 32 ≤ k.age
  · exact olderGroup_oldest h k (List.mem_filter.2 ⟨hk, decide_eq_true hka⟩)
  · omega

/-! ### The counts of slots waited -/

/-- The state with other counts of the selections that its furrows have waited through. -/
def State.withWaits (s : State) (w : Furrow → Nat) : State := { s with furrows := s.furrows.map (fun (f : Furrow) => { f with waited := w f }) }

/-- A furrow's count after its quarter has selected the furrow of a slot (R34). -/
def State.waitAfter (s : State) (core quarter slot : Nat) (f : Furrow) : Nat :=
  if f.core == core && quarterOf f.slot == quarter then
    (if f.slot = slot then 0 else if (s.eligibleGroups f).isEmpty then f.waited else f.waited + 1)
  else f.waited

theorem State.countWait_eq (s : State) (core quarter slot : Nat) : s.countWait core quarter slot = s.withWaits (s.waitAfter core quarter slot) := by
  unfold State.countWait State.withWaits State.waitAfter
  congr 1
  refine List.map_congr_left (fun f _ => ?_)
  split_ifs <;> rfl

theorem keeps_waited (w : Furrow → Nat) : KeepsFurrow (fun f => { f with waited := w f }) :=
  ⟨fun _ => rfl, fun _ => rfl, fun _ => rfl, fun _ _ => rfl⟩

theorem quiet_withWaits (s : State) (w : Furrow → Nat) : Quiet s (s.withWaits w) := quiet_map s (keeps_waited w)

theorem State.furrow?_withWaits (s : State) (w : Furrow → Nat) (c n : Nat) :
    (s.withWaits w).furrow? c n = (s.furrow? c n).map (fun f => { f with waited := w f }) :=
  s.furrow?_map (fun f => { f with waited := w f }) (fun _ => ⟨rfl, rfl⟩) c n

/-- Trap permits do not depend on the counts (R322, R323). -/
theorem State.permitFor_withWaits (s : State) (w : Furrow → Nat) (f : Furrow) (n : Nat) (m : Mask) :
    (s.withWaits w).permitFor { f with waited := n } m = s.permitFor f m :=
  State.permitFor_congr (t := s.withWaits w) (k := fun v => { v with waited := w v })
    ⟨fun _ => ⟨rfl, rfl⟩, fun _ => rfl, fun _ => rfl, fun _ => rfl, fun _ => rfl⟩ rfl (fun _ => rfl) f m

/-- Nor does what a group waits for (R33). -/
theorem State.waitMet_withWaits (s : State) (w : Furrow → Nat) (f : Furrow) (n : Nat) (g : Group) (x : Wait) :
    (s.withWaits w).waitMet { f with waited := n } g x = s.waitMet f g x := by
  cases x <;> rfl

/-- Which groups are eligible does not depend on the counts of slots waited. -/
theorem State.eligibleGroup_withWaits (s : State) (w : Furrow → Nat) (f : Furrow) (n : Nat) (g : Group) :
    (s.withWaits w).eligibleGroup { f with waited := n } g = s.eligibleGroup f g := by
  have hback : ∀ b, (s.withWaits w).backoffOver { f with waited := n } g.lanes b = s.backoffOver f g.lanes b := fun b => by
    unfold State.backoffOver
    rw [State.permitFor_withWaits]
    rfl
  have held : (s.withWaits w).heldBack { f with waited := n } = s.heldBack f := rfl
  have blocked : ({ f with waited := n } : Furrow).blocked = f.blocked := rfl
  unfold State.eligibleGroup
  simp only [hback, State.waitMet_withWaits, held, blocked]

/-! ### The choice in the selected furrow -/

/-- A furrow below level 3 with an eligible group issues next, with a group of its own (R35); no register changes. -/
theorem State.choose_issues {s : State} {f : Furrow} (hf : s.furrow? f.core f.slot = some f) (hl : f.level ≠ 3) (he : s.eligibleGroups f ≠ []) :
    ∃ q f', (s.choose f).issue = some q ∧ q.core = f.core ∧ q.slot = f.slot ∧ q.inChain = false
      ∧ (∃ g ∈ f.groups, g.lanes = q.lanes ∧ s.eligibleGroup f g = true)
      ∧ (s.choose f).furrow? f.core f.slot = some f' ∧ f'.waited = f.waited ∧ f'.regs = f.regs
      ∧ (∀ c n, (c ≠ f.core ∨ n ≠ f.slot) → (s.choose f).regs? c n = s.regs? c n) ∧ (s.choose f).mem = s.mem ∧ (s.choose f).cycles = s.cycles := by
  obtain ⟨ch, hch⟩ : ∃ ch, ch = if (s.eligibleGroups f).all Group.yielded then s.eligibleGroups f
      else (s.eligibleGroups f).filter (fun g => !g.yielded) := ⟨_, rfl⟩
  have hsub : ∀ g ∈ ch, g ∈ s.eligibleGroups f := fun g hg => by
    rw [hch] at hg
    split at hg
    · exact hg
    · exact List.mem_of_mem_filter hg
  have hne : ch ≠ [] := by
    rw [hch]
    split
    · exact he
    · rename_i hy
      obtain ⟨g, hg, hgy⟩ := List.all_eq_false.1 (Bool.eq_false_iff.2 hy)
      exact List.ne_nil_of_mem (List.mem_filter.2 ⟨hg, by simpa using hgy⟩)
  obtain ⟨g, hg⟩ := Option.isSome_iff_exists.1 (firstChoice_isSome hne)
  obtain ⟨hgm, hge⟩ := List.mem_filter.1 (hsub g (firstChoice_mem hg))
  have hc : ∃ (f1 : Furrow) (q : Issue), s.choose f = { s.setFurrow f1 with issue := some q } ∧ q.core = f.core ∧ q.slot = f.slot
      ∧ q.inChain = false ∧ q.lanes = g.lanes ∧ f1.core = f.core ∧ f1.slot = f.slot ∧ f1.waited = f.waited ∧ f1.regs = f.regs := by
    unfold State.choose
    rw [if_neg hl]
    dsimp only
    rw [← hch, hg]
    exact ⟨_, _, rfl, rfl, rfl, rfl, rfl, rfl, rfl, rfl, rfl⟩
  obtain ⟨f1, q, e, qc, qs, qi, ql, fc, fs, fw, fr⟩ := hc
  rw [e]
  refine ⟨q, f1, rfl, qc, qs, qi, ⟨g, hgm, ql.symm, hge⟩, ?_, fw, fr, fun c n hcn => ?_, rfl, rfl⟩
  · exact State.furrow?_setFurrow_self hf fc fs
  · exact congrArg (Option.map Furrow.regs) (State.furrow?_setFurrow_ne (by rw [fc, fs]; exact hcn))

/-! ### The choice of a furrow -/

/-- A furrow of a quarter with an eligible group competes (R34). -/
def State.competes (s : State) (core quarter : Nat) (f : Furrow) : Prop :=
  (s.quarterFurrows core quarter).contains f = true ∧ s.eligibleGroups f ≠ []

theorem State.mem_competing {s : State} {core quarter : Nat} {f : Furrow} :
    f ∈ (s.quarterFurrows core quarter).filter (fun f => !(s.eligibleGroups f).isEmpty) ↔ s.competes core quarter f := by
  simp [State.competes]

theorem State.selectFurrow_none {s : State} {core quarter : Nat} (h : ∀ f, ¬s.competes core quarter f) : s.selectFurrow core quarter = none := by
  have : (s.quarterFurrows core quarter).filter (fun f => !(s.eligibleGroups f).isEmpty) = [] :=
    List.eq_nil_iff_forall_not_mem.2 (fun f hf => h f (State.mem_competing.1 hf))
  rw [State.selectFurrow, this]
  rfl

/-- The furrow that has waited longest, the lower slot of two, is selected. -/
theorem State.selectFurrow_some {s : State} {core quarter : Nat} {f : Furrow} (hf : s.competes core quarter f)
    (h : ∀ v, s.competes core quarter v → v ≠ f → v.waited < f.waited ∨ (v.waited = f.waited ∧ f.slot < v.slot)) :
    s.selectFurrow core quarter = some f := by
  refine bestBy_eq_some (State.mem_competing.2 hf) (fun v hv hne => ?_)
  have := h v (State.mem_competing.1 hv) hne
  constructor
  · simp only [Bool.or_eq_true, Bool.and_eq_true, decide_eq_true_eq, beq_iff_eq]; omega
  · simp only [Bool.or_eq_false_iff, Bool.and_eq_false_iff, decide_eq_false_iff_not, beq_eq_false_iff_ne, ne_eq]; omega

/-- The furrow selected waits from 0 again and issues (R34, R35): counting the slot for the others changes neither what is eligible nor a register. -/
theorem State.choose_counted {s : State} {core quarter : Nat} {f : Furrow} (hf : s.competes core quarter f)
    (hp : s.furrow? core f.slot = some f) (hl : f.level ≠ 3) :
    let u := s.countWait core quarter f.slot
    let f1 : Furrow := { f with waited := 0 }
    u.furrow? core f.slot = some f1
      ∧ ∃ q f', (u.choose f1).issue = some q ∧ q.core = core ∧ q.slot = f.slot ∧ q.inChain = false
        ∧ (∃ g ∈ f.groups, g.lanes = q.lanes ∧ s.eligibleGroup f g = true)
        ∧ (u.choose f1).furrow? core f.slot = some f' ∧ f'.waited = 0 ∧ f'.regs = f.regs
        ∧ (∀ c n, (c ≠ core ∨ n ≠ f.slot) → (u.choose f1).regs? c n = s.regs? c n) ∧ (u.choose f1).mem = s.mem
        ∧ (u.choose f1).cycles = s.cycles := by
  intro u f1
  have hq : f.core = core ∧ quarterOf f.slot = quarter := by
    have := hf.1
    rw [List.contains_iff_mem, State.quarterFurrows, List.mem_filter] at this
    simpa using this.2
  have hu : u = s.withWaits (s.waitAfter core quarter f.slot) := State.countWait_eq s core quarter f.slot
  have hw : u.furrow? core f.slot = some f1 := by
    rw [hu, State.furrow?_withWaits, hp]
    simp [State.waitAfter, hq, f1]
  have hel : ∀ g, u.eligibleGroup f1 g = s.eligibleGroup f g := fun g => hu ▸ State.eligibleGroup_withWaits s _ f 0 g
  have quiet : Quiet s u := hu ▸ quiet_withWaits s _
  obtain rfl := hq.1
  obtain ⟨q, f', hi, hc, hs, hch, ⟨g, hg, hgl, hge⟩, hown, hwait, hreg, hothers, hmem, hcyc⟩ :=
    State.choose_issues (f := f1) hw hl (by rw [State.eligibleGroups, funext hel]; exact hf.2)
  refine ⟨hw, q, f', hi, hc, hs, hch, ⟨g, hg, hgl, (hel g).symm.trans hge⟩, hown, hwait, hreg, fun c n hcn => (hothers c n hcn).trans (quiet.regs c n), ?_, ?_⟩
  · rw [hmem, hu]; rfl
  · rw [hcyc, hu]; rfl

/-- The state in which a quarter selects: time passed, every furrow of it prepared, pool entries given out. -/
def State.beforeChoice (s : State) (core quarter dt : Nat) : State :=
  (((s.tick dt).quarterFurrows core quarter).foldl (fun s f => s.prepareFurrow core f.slot) (s.tick dt)).handout core quarter

theorem execIssueSelection_none {s : State} {core quarter dt : Nat} (h : (s.beforeChoice core quarter dt).selectFurrow core quarter = none) :
    exec (.issueSelection core quarter dt) s = .next (s.beforeChoice core quarter dt) := by
  simp only [exec_issueSelection, execIssueSelection]
  rw [State.beforeChoice] at h
  rw [h]
  rfl

theorem execIssueSelection_some {s : State} {core quarter dt : Nat} {f f1 : Furrow}
    (h : (s.beforeChoice core quarter dt).selectFurrow core quarter = some f)
    (hf : ((s.beforeChoice core quarter dt).countWait core quarter f.slot).furrow? core f.slot = some f1) :
    exec (.issueSelection core quarter dt) s = .next (((s.beforeChoice core quarter dt).countWait core quarter f.slot).choose f1) := by
  simp only [exec_issueSelection, execIssueSelection]
  rw [State.beforeChoice] at h hf
  rw [h]
  dsimp only
  rw [hf]
  rfl

/-- Settles O40: the furrow selected is the best of those that compete, the group the first choice among its eligible ones. -/
theorem issueSelection : Obligations.IssueSelection := by
  unfold Obligations.IssueSelection
  refine ⟨fun s core quarter dt => ?_, fun gs g h => ⟨firstChoice_mem h, firstChoice_oldest h, fun hy ha => ?_, fun hp => ?_⟩,
    fun gs h => firstChoice_isSome h⟩
  · show (_ → exec _ s = .next (s.beforeChoice core quarter dt)) ∧ _
    refine ⟨fun h => execIssueSelection_none (State.selectFurrow_none h), fun f hf hp hl hbest => ?_⟩
    change (s.beforeChoice core quarter dt).furrow? core f.slot = some f at hp
    have hsel := State.selectFurrow_some (s := s.beforeChoice core quarter dt) hf hbest
    obtain ⟨hw, q, f', hi, hc, hs, hch, hg, hown, hwait, hreg, hothers, hmem, hcyc⟩ := State.choose_counted hf hp hl
    rw [execIssueSelection_some hsel hw]
    exact ⟨_, q, f', rfl, hi, hc, hs, hch, hg, hown, hwait, hreg, hothers, hmem, hcyc⟩
  · rw [firstChoice_active hy ha] at h
    exact ⟨(List.mem_filter.1 (bestBy_mem h)).2, fun k hk hka => widerGroup_widest h k (List.mem_filter.2 ⟨hk, hka⟩)⟩
  · obtain hd | ⟨hy, -⟩ | ⟨-, k, hk, hka⟩ := firstChoice_cases gs
    · exact (firstChoice_oldest h hd).2
    · exact olderGroup_oldest (firstChoice_parked hy hp ▸ h)
    · rw [hp k hk] at hka; cases hka

end Sys2Proof.Machine
end

section
/-! O21: reads and writes of the system registers. -/
namespace Sys2Proof.Machine

/-! ### Reads (R316, R317, R319) -/

/-- A register of a frame that may be missing. -/
theorem frameReg_eq (o : Option Frame) (n : Nat) :
    frameReg o n = match o with
      | some fr => frameReg (some fr) n
      | none => 0 := by
  cases o <;> rfl

/-- A register of the innermost supervisor frame. -/
theorem frameReg_supFrame (f : Furrow) (n : Nat) :
    frameReg f.supFrame n = match f.frame? 2, f.frame? 1 with
      | some fr, _ => frameReg (some fr) n
      | none, some fr => frameReg (some fr) n
      | none, none => 0 := by
  unfold Furrow.supFrame
  cases f.frame? 2 <;> cases f.frame? 1 <;> rfl

/-- `HPAR` k, whatever k (R348). -/
theorem readSys_hpar (s : State) (f : Furrow) (k : Fin 16) :
    s.readSys f (0x280#12 + BitVec.ofNat 12 k.val).toNat = ((s.ctx? (s.ctxOf f)).getD { ctx := 0 }).hpar[k] := by
  fin_cases k <;> rfl

/-- Every register named reads as its value. -/
theorem readSys_sysValues (s : State) (f : Furrow) : ∀ p ∈ sysValues s f, s.readSys f p.1.toNat = p.2 := by
  unfold sysValues
  simp only [List.forall_mem_append, List.forall_mem_cons, List.forall_mem_map]
  exact ⟨⟨
    -- user registers and the counters of R86
    rfl, rfl, rfl, rfl, rfl, rfl, rfl, rfl, rfl, rfl,
    -- supervisor registers and the innermost supervisor frame
    rfl, frameReg_supFrame f 0, frameReg_supFrame f 1, frameReg_supFrame f 2, frameReg_supFrame f 3, rfl, rfl, rfl, rfl, rfl, rfl, rfl, rfl, rfl, rfl, rfl,
    -- hypervisor registers and the frame of level 3
    rfl, rfl, rfl, frameReg_eq (f.frame? 3) 0, frameReg_eq (f.frame? 3) 1, frameReg_eq (f.frame? 3) 2, frameReg_eq (f.frame? 3) 3, rfl,
    fun _ h => absurd h List.not_mem_nil⟩, fun k _ => readSys_hpar s f k⟩

/-- `srr` of a register that the level may read (R198). -/
theorem srr_writesW {s : State} {q : Issue} {f : Furrow} {g : Group} {x : SR} {t : Right × Right × Right} (ht : sysRights x.srn.toNat = some t)
    (hr : rightAt t f.level ≠ .none) : WritesW s q f g (.srr x) x.w.val (s.readSys f x.srn.toNat) :=
  writesW_of (fun h => by rw [exec_srr, execSrr, running_issues h, ht]; exact if_neg hr)

/-! ### Writes (R198, R316, R333, R348) -/

/-- A level may write a register. -/
def MayWrite (f : Furrow) (n : BitVec 12) : Prop := ∃ t, sysRights n.toNat = some t ∧ rightAt t f.level = .rw

/-- `srw` of a register that the level may write (R198): the write, or a wait. -/
theorem exec_srw_allowed {s : State} {q : Issue} {f : Furrow} {g : Group} {x : SR} (h : Issues s q f g (.srw x)) (hr : MayWrite f x.srn) :
    exec (.srw x) s =
      let n := x.srn.toNat
      let v := f.readW x.w.val
      if s.asidWaits f g n v then .next (s.waitOn q g .fence)
      else (if n = 0x181 ∧ s.asidFree (s.ctxOf f) (v.setWidth 16) then (s.writeSys f n v).fullFence f g.lanes .pkg else s.writeSys f n v).skip (.srw x) q g := by
  obtain ⟨t, ht, hrw⟩ := hr
  rw [exec_srw, execSrw, running_issues h, ht]
  simp only [writeCause, hrw]

/-- A write of any register but `TASID_S` neither waits nor fences. -/
theorem exec_srw_plain {s : State} {q : Issue} {f : Furrow} {g : Group} {x : SR} (h : Issues s q f g (.srw x)) (hr : MayWrite f x.srn)
    (hn : x.srn.toNat ≠ 0x181) : exec (.srw x) s = (s.writeSys f x.srn.toNat (f.readW x.w.val)).skip (.srw x) q g := by
  rw [exec_srw_allowed h hr]
  have hb : (x.srn.toNat == 0x181) = false := beq_eq_false_iff_ne.2 hn
  simp only [State.asidWaits, hb, Bool.false_and, Bool.false_eq_true, if_false, hn, false_and]

/-- A register of the context written. -/
theorem srw_onCtx {s : State} {q : Issue} {f : Furrow} {g : Group} {x : SR} {k : Ctx → Ctx} (hn : x.srn.toNat ≠ 0x181)
    (hw : s.writeSys f x.srn.toNat (f.readW x.w.val) = s.onCtx (s.ctxOf f) k) (h : Issues s q f g (.srw x)) (hr : MayWrite f x.srn) :
    Does s q g (.srw x) (s.onCtx (s.ctxOf f) k) f :=
  does_of_skip h rfl h.furrow (SameRun.refl f) rfl rfl (by rw [exec_srw_plain h hr hn, hw])

/-- The low 57 bits of a word (R316). -/
theorem low57_eq_and (x : W64) : (x.setWidth 57).setWidth 64 = x &&& 0x01FFFFFFFFFFFFFF := by
  have hm : (0x01FFFFFFFFFFFFFF : W64) = (BitVec.allOnes 57).setWidth 64 := by decide
  rw [hm]
  refine BitVec.eq_of_getLsbD_eq (fun i hi => ?_)
  simp only [BitVec.getLsbD_setWidth, BitVec.getLsbD_and, BitVec.getLsbD_allOnes]
  by_cases h : i < 57 <;> simp [h, hi]

theorem writeSys_bpt (s : State) (f : Furrow) (k : Fin 4) (x : W64) :
    s.writeSys f (0x110#12 + BitVec.ofNat 12 k.val).toNat x
      = s.onCtx (s.ctxOf f) (fun c => { c with bpt := c.bpt.set k (x &&& 0x8000000000FFFFFF) }) := by
  fin_cases k <;> rfl

theorem writeSys_wpt (s : State) (f : Furrow) (k : Fin 2) (x : W64) :
    s.writeSys f (0x118#12 + BitVec.ofNat 12 k.val).toNat x = s.onCtx (s.ctxOf f) (fun c => { c with wpt := c.wpt.set k x }) := by
  fin_cases k <;> rfl

theorem writeSys_hpar (s : State) (f : Furrow) (k : Fin 16) (x : W64) :
    s.writeSys f (0x280#12 + BitVec.ofNat 12 k.val).toNat x
      = s.onCtx (s.ctxOf f) (fun c => { c with hpar := c.hpar.set k (x &&& 0xBFFFFFFFFFFFFFFF) }) := by
  fin_cases k <;> rfl

/-- `FPENV` written: the group's own register, and nothing else. -/
theorem srw_fpenv {s : State} {q : Issue} {f : Furrow} {g : Group} {x : SR} (hn : x.srn = 0) (h : Issues s q f g (.srw x)) (hr : MayWrite f x.srn) :
    Does s q g (.srw x) s { f with fpenv := (f.readW x.w.val).setWidth 32 &&& 0x3F3BF } := by
  obtain ⟨hc, hs⟩ := State.furrow?_place h.furrow
  obtain ⟨own, others⟩ := State.furrow?_onFurrow_at h.furrow (fun u => { u with fpenv := (f.readW x.w.val).setWidth 32 &&& fpenvMask })
    (fun _ hc hs => ⟨hc, hs⟩)
  have he : exec (.srw x) s = (s.onFurrow q.core q.slot (fun u => { u with fpenv := (f.readW x.w.val).setWidth 32 &&& fpenvMask })).skip (.srw x) q g := by
    rw [exec_srw_plain h hr (by rw [hn]; decide), hn, ← hc, ← hs]
    rfl
  obtain ⟨t, ht, hl, ho, hrest⟩ := does_of_skip
    (u := s.onFurrow q.core q.slot (fun u => { u with fpenv := (f.readW x.w.val).setWidth 32 &&& fpenvMask }))
    (f1 := { f with fpenv := (f.readW x.w.val).setWidth 32 &&& 0x3F3BF }) h rfl own ⟨rfl, rfl, rfl, rfl, rfl, rfl, rfl, rfl⟩ rfl rfl he
  exact ⟨t, ht, hl, fun c n hcn => (ho c n hcn).trans (congrArg (Option.map Furrow.regs) (others c n hcn)), hrest⟩

/-! ### `TASID_S` (R349) -/

/-- Whether a write to `TASID_S` takes effect, as the statement says it. -/
theorem asidFree_iff (s : State) (ctx : Nat) (a : BitVec 16) :
    s.asidFree ctx a = true ↔ s.ctxs.any (fun c => c.ctx != ctx && c.tasid == a) = false ∧ ¬(0xFFF0 ≤ a.toNat ∧ a.toNat ≤ 0xFFF5) := by
  simp only [State.asidFree, Bool.and_eq_true, Bool.not_eq_true', decide_eq_false_iff_not]

/-- A write of `TASID_S` that takes no effect is ignored. -/
theorem srw_tasid_ignored {s : State} {q : Issue} {f : Furrow} {g : Group} {x : SR} (hn : x.srn = 0x181)
    (hfree : s.asidFree (s.ctxOf f) ((f.readW x.w.val).setWidth 16) = false) (h : Issues s q f g (.srw x)) (hr : MayWrite f x.srn) :
    Does s q g (.srw x) s f := by
  refine does_of_skip h rfl h.furrow (SameRun.refl f) rfl rfl ?_
  have hw : s.writeSys f 0x181 (f.readW x.w.val) = s := by
    show s.writeAsid (s.ctxOf f) ((f.readW x.w.val).setWidth 16) = s
    rw [State.writeAsid, hfree]
    rfl
  rw [exec_srw_allowed h hr, hn]
  simp [State.asidWaits, hfree, hw]

/-- A write of `TASID_S` that takes effect drops the old ASID's translations, once nothing that needs them is outstanding. -/
theorem srw_tasid_effect {s : State} {q : Issue} {f : Furrow} {g : Group} {x : SR} (hn : x.srn = 0x181)
    (hfree : s.asidFree (s.ctxOf f) ((f.readW x.w.val).setWidth 16) = true) (hst : f.storing g.lanes = false)
    (hout : s.outstanding (TlbEntry.ofAsid (s.asidOf (s.ctxOf f))) = false) (h : Issues s q f g (.srw x)) (hr : MayWrite f x.srn) :
    Does s q g (.srw x) (((s.onCtx (s.ctxOf f) (fun c => { c with tasid := (f.readW x.w.val).setWidth 16 })).tlbDrop
      (TlbEntry.ofAsid (s.asidOf (s.ctxOf f)))).fullFence f g.lanes .pkg) f := by
  obtain ⟨hc, hs⟩ := State.furrow?_place h.furrow
  have hw : s.writeSys f 0x181 (f.readW x.w.val) = (s.onCtx (s.ctxOf f) (fun c => { c with tasid := (f.readW x.w.val).setWidth 16 })).tlbDrop
      (TlbEntry.ofAsid (s.asidOf (s.ctxOf f))) := by
    show s.writeAsid (s.ctxOf f) ((f.readW x.w.val).setWidth 16) = _
    rw [State.writeAsid, hfree]
    rfl
  obtain ⟨v, hv, hgo⟩ := State.fullFence_own (s := s.writeSys f 0x181 (f.readW x.w.val)) (f := f)
    (by rw [hw, hc, hs]; exact h.furrow) g.lanes
  rw [← hw]
  refine does_of_skip h (by rw [hw]; rfl) (by rw [← hc, ← hs]; exact hv) hgo.run hgo.spec hgo.regs ?_
  rw [exec_srw_allowed h hr, hn]
  simp [State.asidWaits, hfree, hst, hout]

/-- And waits until then (R349, R364). -/
theorem srw_tasid_waits {s : State} {q : Issue} {f : Furrow} {g : Group} {x : SR} (hn : x.srn = 0x181)
    (hfree : s.asidFree (s.ctxOf f) ((f.readW x.w.val).setWidth 16) = true)
    (hout : f.storing g.lanes = true ∨ s.outstanding (TlbEntry.ofAsid (s.asidOf (s.ctxOf f))) = true) (h : Issues s q f g (.srw x))
    (hl : f.level = 3) : WaitsFor s q f g (.srw x) .fence := by
  refine waitsFor_of_waitOn h ?_
  rw [exec_srw_allowed h ⟨_, by rw [hn]; rfl, by rw [hl]; rfl⟩, hn]
  simp only [State.asidWaits, hfree]
  simp [hout]

/-- Settles O21: reads by the table of values, writes register by register, `TASID_S` by its three cases. -/
theorem systemRegisters : Obligations.SystemRegisters := by
  unfold Obligations.SystemRegisters
  refine ⟨fun s q f g => ⟨fun x t ht hr => srr_writesW ht hr, readSys_sysValues s f⟩, fun s q f g c w => ?_⟩
  intro x ctx is
  -- a register of the context other than `TASID_S`
  have onCtx : ∀ (n : BitVec 12) (k : Ctx → Ctx), n.toNat ≠ 0x181 → s.writeSys f n.toNat x = s.onCtx ctx k → is n (s.onCtx ctx k) f :=
    fun n k hn hw h hr => srw_onCtx hn hw h hr
  have free := asidFree_iff s ctx (x.setWidth 16)
  refine ⟨fun h hr => srw_fpenv rfl h hr, onCtx _ _ (by decide) rfl,
    onCtx _ _ (by decide) (congrArg (fun v => s.onCtx ctx (fun c => { c with tvecS := v })) (low57_eq_and x)),
    onCtx _ _ (by decide) rfl, onCtx _ _ (by decide) rfl, fun k => onCtx _ _ (by revert k; decide) (writeSys_bpt s f k x),
    fun k => onCtx _ _ (by revert k; decide) (writeSys_wpt s f k x), onCtx _ _ (by decide) rfl, fun hbad h hr => ?_, fun hany hres => ?_,
    onCtx _ _ (by decide) rfl, onCtx _ _ (by decide) rfl,
    onCtx _ _ (by decide) (congrArg (fun v => s.onCtx ctx (fun c => { c with tvecH := v })) (low57_eq_and x)),
    fun k => onCtx _ _ (by revert k; decide) (writeSys_hpar s f k x), fun h hr => ?_⟩
  · refine srw_tasid_ignored rfl (Bool.eq_false_iff.2 (fun hf => ?_)) h hr
    obtain ⟨hany, hres⟩ := free.1 hf
    exact hbad.elim (fun ha => by rw [hany] at ha; cases ha) hres
  · exact ⟨fun hst hout h hr => srw_tasid_effect rfl (free.2 ⟨hany, hres⟩) hst hout h hr,
      fun hout h hl => srw_tasid_waits rfl (free.2 ⟨hany, hres⟩) hout h hl⟩
  · exact does_of_skip h rfl h.furrow (SameRun.refl f) rfl rfl (exec_srw_plain h hr (show (0x290#12).toNat ≠ 0x181 by decide))

end Sys2Proof.Machine
end

section
/-! O42: back-offs, the watchdog and HALT requests. -/
namespace Sys2Proof.Machine

/-! ### A furrow at its speculative fence again (R148) -/

theorem Group.atFence_keeps (g : Group) : g.atFence.lanes = g.lanes ∧ g.atFence.level = g.level ∧ g.atFence.retry = g.retry := by
  unfold Group.atFence
  split <;> exact ⟨rfl, rfl, rfl⟩

/-- A group that waits for no fence rolled back stands where it is. -/
theorem Group.atFence_self {g : Group} (h : ∀ pc c m, g.wait ≠ some (.rolledFence pc c m)) : g.atFence = g := by
  unfold Group.atFence
  split
  · rename_i pc c m e
    exact absurd e (h pc c m)
  · rfl

/-- The furrow with every group at its fence. -/
def Furrow.atFence (f : Furrow) : Furrow := { f with groups := f.groups.map Group.atFence }

theorem State.abandonSpec_none {s : State} {core slot : Nat} {f : Furrow} (hf : s.furrow? core slot = some f) (hs : f.spec = none) :
    s.abandonSpec core slot = s.onFurrow core slot Furrow.atFence := by
  unfold State.abandonSpec
  simp only [hf, hs]
  rfl

/-! ### A trap entered after a change that its entry does not see -/

/-- Furrow v traps as f does: the same place, context, level, permit, and registers that an entry keeps. -/
structure TrapsAs (f v : Furrow) : Prop where
  place : v.core = f.core ∧ v.slot = f.slot
  field : v.field = f.field
  level : v.level = f.level
  running : v.running = f.running
  permit : v.permit = f.permit
  regs : v.v = f.v ∧ v.w = f.w ∧ v.wbank = f.wbank ∧ v.p = f.p ∧ v.pbank = f.pbank ∧ v.s = f.s ∧ v.opq = f.opq ∧ v.h = f.h ∧ v.fpenv = f.fpenv
    ∧ v.ext = f.ext

/-- A trap taken of v is a trap taken of f. -/
theorem TrapTaken.of_as {t : State} {q : Issue} {f v : Furrow} {r : TrapReq} {n : Nat} (h : TrapTaken t q v r n) (e : TrapsAs f v) :
    TrapTaken t q f r n := by
  obtain ⟨f', hf', hl, ⟨fr, h1, h2, h3, h4, h5, h6, h7, h8⟩, hg, hheld, hp, hv, hw, hwb, hpr, hpb, hs, hopq, hh, hfp, hext⟩ := h
  obtain ⟨ev, ew, ewb, ep, epb, es, eopq, eh, efp, eext⟩ := e.regs
  exact ⟨f', hf', hl, ⟨fr, h1, h2, h3, h4.trans e.level, h5, h6, h7, h8⟩, hg, e.running ▸ hheld, e.level ▸ hp, hv.trans ev, hw.trans ew, hwb.trans ewb,
    hpr.trans ep, hpb.trans epb, hs.trans es, hopq.trans eopq, hh.trans eh, hfp.trans efp, hext.trans eext⟩

/-- A trap that can be entered can be entered of v, in a state with the same contexts and fields and the same free permits. -/
theorem TrapReady.of_as {s t : State} {q : Issue} {f v : Furrow} {r : TrapReq} {n : Nat} (h : TrapReady s q f r n) (e : TrapsAs f v)
    (hfields : t.fields = s.fields) (hctxs : t.ctxs = s.ctxs) (hp : t.permitFor v r.lanes = s.permitFor f r.lanes) : TrapReady t q v r n := by
  obtain ⟨⟨c, hc, hr⟩, hne, hin, hperm, hfirst⟩ := h
  have hctx : t.ctx? (t.ctxOf v) = s.ctx? (s.ctxOf f) := by
    unfold State.ctx? State.ctxOf State.field?
    rw [hfields, hctxs, e.field]
  exact ⟨⟨c, hctx.trans hc, by rw [e.level]; exact hr⟩, hne, by rw [e.running]; exact hin, by rw [e.level, e.permit, hp]; exact hperm, hfirst⟩

/-! ### Permit retries (R323) -/

section Retry
variable {s : State} {core slot : Nat} {f : Furrow} {g : Group} {b : Backoff} {r : TrapReq} {n : Nat}

/-- A group's back-off with a trap that has run out. -/
def State.retryDueOf (s : State) (f : Furrow) (g : Group) : Bool :=
  g.level == f.level && g.backoff.any (fun b => b.trap.isSome && s.backoffOver f g.lanes b)

/-- Where one group alone backs off, only that group's retry can be due. -/
theorem find_retry (hg : f.group? g.lanes = some g) (hb : g.backoff = some b) (hr : b.trap = some r) (ho : ∀ h ∈ f.groups, h ≠ g → h.backoff = none) :
    f.groups.find? (s.retryDueOf f) = if s.backoffOver f g.lanes b then some g else none := by
  obtain ⟨hm, hl, -⟩ := Furrow.group?_some hg
  have hdue : s.retryDueOf f g = s.backoffOver f g.lanes b := by simp [State.retryDueOf, hl, hb, hr]
  have honly : ∀ h ∈ f.groups, s.retryDueOf f h = true → h = g := fun h hh hd => by
    by_contra hne
    simp [State.retryDueOf, ho h hh hne] at hd
  split
  · rename_i hover
    obtain ⟨h, hh⟩ := Option.isSome_iff_exists.1 (List.find?_isSome.2 ⟨g, hm, hdue.trans hover⟩)
    rw [hh, honly h (List.mem_of_find?_eq_some hh) (List.find?_some hh)]
  · rename_i hover
    refine List.find?_eq_none.2 (fun h hh hd => hover ?_)
    rw [← hdue, ← honly h hh hd]
    exact hd

/-- What a permit retry does for the one group that backs off. -/
theorem exec_trapPermitRetry_eq (hf : s.furrow? core slot = some f) (hg : f.group? g.lanes = some g) (hb : g.backoff = some b) (hr : b.trap = some r)
    (ho : ∀ h ∈ f.groups, h ≠ g → h.backoff = none) (hn : f.needPermit = none) :
    exec (.trapPermitRetry core slot) s = .next
      (if s.backoffOver f g.lanes b = true ∧ f.openSlot = none then (if r.code = 4 then s.takeStep core slot else s.enterTrap core slot (f.retried r)) else s) := by
  have hfind := find_retry (s := s) hg hb hr ho
  simp only [exec_trapPermitRetry, execTrapPermitRetry, hf, hn]
  change Host.Outcome.next (match f.groups.find? (s.retryDueOf f) with | none => s | some g => _) = _
  rw [hfind]
  by_cases hover : s.backoffOver f g.lanes b = true
  · cases f.openSlot <;> simp [hover, hb, hr]
  · simp [hover]

/-- A stepped return whose STEP can be entered takes it (R331). -/
theorem State.takeStep_taken {q : Issue} {m : Mask} {gone : Bool} (hf : s.furrow? q.core q.slot = some f) (hs : f.step = some (n, m, gone))
    (hn : n ≠ 0) (hm : m &&& f.running ≠ 0) (hp : f.level ≠ 0 ∨ f.permit = true ∨ s.permitFor f (m &&& f.running) = true) :
    TrapTaken (s.takeStep q.core q.slot) q f (f.stepTrap (m &&& f.running)) n := by
  have hgo : ¬(f.level = 0 ∧ (!f.permit) = true ∧ (!s.permitFor f (m &&& f.running)) = true) := by
    rintro ⟨h1, h2, h3⟩
    rcases hp with h | h | h
    · exact h h1
    · rw [h] at h2; cases h2
    · rw [h] at h3; cases h3
  have he : s.takeStep q.core q.slot = (s.onFurrow q.core q.slot (fun f => { f with step := none })).enterLevel { f with step := none } n
      (f.stepTrap (m &&& f.running)) := by
    unfold State.takeStep
    simp only [hf, hs, hm, if_false]
    exact if_neg hgo
  obtain ⟨k, hk⟩ := State.enterLevel_own (s := s.onFurrow q.core q.slot (fun f => { f with step := none })) 
    (State.furrow?_onFurrow_self hf (fun f => { f with step := none }) (fun _ => ⟨rfl, rfl⟩)) n (f.stepTrap (m &&& f.running))
  have hin : (f.stepTrap (m &&& f.running)).lanes &&& f.running = (f.stepTrap (m &&& f.running)).lanes := by
    simp [Furrow.stepTrap, BitVec.and_assoc]
  have taken : TrapTaken (s.takeStep q.core q.slot) q { f with step := none } (f.stepTrap (m &&& f.running)) n :=
    trapTaken_of_entered (Furrow.entered_entered _ hn _) (by rw [he]; exact hk) hin
  exact taken.of_as ⟨⟨rfl, rfl⟩, rfl, rfl, rfl, rfl, ⟨rfl, rfl, rfl, rfl, rfl, rfl, rfl, rfl, rfl, rfl⟩⟩

/-- A trap that finds no permit backs off, twice as long as before (R323). -/
theorem State.backOff_again (hf : s.furrow? core slot = some f) (hg : f.group? g.lanes = some g) (hb : g.backoff = some b)
    (hl : f.groupOf? (lowestLane r.lanes) = some g) :
    ∃ f' h b', (s.backOff f r).furrow? core slot = some f' ∧ f'.regs = f.regs ∧ f'.group? g.lanes = some h ∧ h.backoff = some b'
      ∧ b'.length = min 8192 (2 * b.length) ∧ b'.failed = b.failed + 1 ∧ b'.deadline = s.cycles + b'.length := by
  obtain ⟨rfl, rfl⟩ := State.furrow?_place hf
  obtain ⟨b', hb'⟩ : ∃ b', b' = nextBackoff s.cycles g.backoff (if keptPending r.code || r.late then some r else none) := ⟨_, rfl⟩
  obtain ⟨k, hk⟩ : ∃ k : Group → Group, k = fun g => { g with backoff := some b', wait := none } := ⟨_, rfl⟩
  have hkeep : ∀ g, (k g).lanes = g.lanes ∧ (k g).level = g.level := fun _ => by rw [hk]; exact ⟨rfl, rfl⟩
  have he : (s.backOff f r).furrow? f.core f.slot = some (f.onGroup g.lanes k) := by
    unfold State.backOff
    rw [hl]
    dsimp only
    rw [← hb', ← hk]
    exact State.furrow?_onFurrow_self (by split <;> exact hf) (fun f => f.onGroup g.lanes k) (fun _ => ⟨rfl, rfl⟩)
  rw [hb] at hb'
  exact ⟨_, k g, b', he, rfl, (f.group?_onGroup g.lanes k hkeep).trans (by rw [hg]; rfl), by rw [hk], by rw [hb']; rfl, by rw [hb']; rfl, by rw [hb']; rfl⟩

end Retry

/-! ### A change of groups that neither their lanes nor their retries show -/

/-- Furrows whose groups have the same levels, lanes and back-offs have the same running lanes. -/
theorem Furrow.running_congr {f v : Furrow} (hg : v.groups.map Group.retry = f.groups.map Group.retry) (hl : v.level = f.level) : v.running = f.running := by
  refine BitVec.eq_of_getLsbD_eq (fun l _ => ?_)
  have h0 : inMask (0 : Mask) l = false := BitVec.getLsbD_zero
  change inMask v.running l = inMask f.running l
  rw [Furrow.running, Furrow.running, inMask_union, inMask_union, h0, Bool.false_or, Bool.false_or, List.any_filter, List.any_filter, hl]
  exact any_retry hg (fun x => x.1 == f.level && inMask x.2.1 l)

/-- The furrow with its groups changed one by one. -/
def Furrow.withGroups (f : Furrow) (k : Group → Group) : Furrow := { f with groups := f.groups.map k }

theorem Furrow.onGroup_eq (f : Furrow) (m : Mask) (k : Group → Group) :
    f.onGroup m k = f.withGroups (fun g => if g.level == f.level && g.lanes == m then k g else g) := rfl

theorem map_retry {l : List Group} {k : Group → Group} (h : ∀ g, (k g).retry = g.retry) : (l.map k).map Group.retry = l.map Group.retry := by
  rw [List.map_map]
  exact List.map_congr_left (fun g _ => h g)

theorem keepsPermits_groups (k : Furrow → Group → Group) (hk : ∀ f g, (k f g).retry = g.retry) (t : Furrow → Bool) :
    KeepsPermits (fun f => if t f then f.withGroups (k f) else f) where
  place f := by split <;> exact ⟨rfl, rfl⟩
  permit f := by split <;> rfl
  need f := by split <;> rfl
  level f := by split <;> rfl
  groups f := by
    split
    · exact map_retry (hk f)
    · rfl

/-- A furrow whose groups' waits alone have changed traps as before. -/
theorem trapsAs_groups (f : Furrow) {k : Group → Group} (hk : ∀ g, (k g).retry = g.retry) : TrapsAs f (f.withGroups k) :=
  ⟨⟨rfl, rfl⟩, rfl, rfl, Furrow.running_congr (map_retry hk) rfl, rfl, ⟨rfl, rfl, rfl, rfl, rfl, rfl, rfl, rfl, rfl, rfl⟩⟩

theorem TrapsAs.trans {a b c : Furrow} (h : TrapsAs a b) (k : TrapsAs b c) : TrapsAs a c := by
  obtain ⟨⟨h1, h2⟩, h3, h4, h5, h6, g1, g2, g3, g4, g5, g6, g7, g8, g9, g10⟩ := h
  obtain ⟨⟨k1, k2⟩, k3, k4, k5, k6, i1, i2, i3, i4, i5, i6, i7, i8, i9, i10⟩ := k
  exact ⟨⟨k1.trans h1, k2.trans h2⟩, k3.trans h3, k4.trans h4, k5.trans h5, k6.trans h6,
    ⟨i1.trans g1, i2.trans g2, i3.trans g3, i4.trans g4, i5.trans g5, i6.trans g6, i7.trans g7, i8.trans g8, i9.trans g9, i10.trans g10⟩⟩

/-- State t holds furrow v where s holds f, and v can take the traps that f could. -/
structure StillTraps (s : State) (core slot : Nat) (f : Furrow) (t : State) (v : Furrow) : Prop where
  furrow : t.furrow? core slot = some v
  same : TrapsAs f v
  fields : t.fields = s.fields
  ctxs : t.ctxs = s.ctxs
  permits : ∀ m, t.permitFor v m = s.permitFor f m

theorem StillTraps.trans {s t u : State} {core slot : Nat} {f v w : Furrow} (h : StillTraps s core slot f t v) (k : StillTraps t core slot v u w) :
    StillTraps s core slot f u w :=
  ⟨k.furrow, h.same.trans k.same, k.fields.trans h.fields, k.ctxs.trans h.ctxs, fun m => (k.permits m).trans (h.permits m)⟩

section Still
variable {s : State} {core slot : Nat} {f : Furrow}

/-- A change of f that permits do not see leaves the free ones for it. -/
theorem State.permitFor_onFurrow (hf : s.furrow? core slot = some f) (k : Furrow → Furrow)
    (hk : KeepsPermits (fun f => if f.core == core && f.slot == slot then k f else f)) (m : Mask) :
    (s.onFurrow core slot k).permitFor (k f) m = s.permitFor f m := by
  have own : (if f.core == core && f.slot == slot then k f else f) = k f := if_pos (by simp [State.furrow?_place hf])
  exact own ▸ State.permitFor_congr (t := s.onFurrow core slot k) hk rfl (fun _ => rfl) f m

theorem stillTraps_onGroups (hf : s.furrow? core slot = some f) (k : Furrow → Group → Group) (hk : ∀ f g, (k f g).retry = g.retry) :
    StillTraps s core slot f (s.onFurrow core slot (fun f => f.withGroups (k f))) (f.withGroups (k f)) where
  furrow := State.furrow?_onFurrow_self hf (fun f => f.withGroups (k f)) (fun _ => ⟨rfl, rfl⟩)
  same := trapsAs_groups f (hk f)
  fields := rfl
  ctxs := rfl
  permits := State.permitFor_onFurrow hf (fun f => f.withGroups (k f)) (keepsPermits_groups k hk _)

/-- A load dropped from its reuse table (R80). -/
theorem stillTraps_dropFilling (hf : s.furrow? core slot = some f) (m : Mask) : StillTraps s core slot f (s.dropFilling core slot m) f where
  furrow := hf
  same := ⟨⟨rfl, rfl⟩, rfl, rfl, rfl, rfl, ⟨rfl, rfl, rfl, rfl, rfl, rfl, rfl, rfl, rfl, rfl⟩⟩
  fields := rfl
  ctxs := rfl
  permits l := State.permitFor_congr (t := s.dropFilling core slot m) (k := fun f => f) ⟨fun _ => ⟨rfl, rfl⟩, fun _ => rfl, fun _ => rfl, fun _ => rfl, fun _ => rfl⟩
    (List.map_id' s.furrows).symm (fun c => s.reserve_onCore core _ (by exact fun _ => ⟨rfl, rfl⟩) c) f l

/-- A flag of a furrow that no trap sees. -/
theorem stillTraps_haltPend (hf : s.furrow? core slot = some f) (b : Bool) :
    StillTraps s core slot f (s.onFurrow core slot (fun f => { f with haltPend := b })) { f with haltPend := b } where
  furrow := State.furrow?_onFurrow_self hf (fun f => { f with haltPend := b }) (fun _ => ⟨rfl, rfl⟩)
  same := ⟨⟨rfl, rfl⟩, rfl, rfl, rfl, rfl, ⟨rfl, rfl, rfl, rfl, rfl, rfl, rfl, rfl, rfl, rfl⟩⟩
  fields := rfl
  ctxs := rfl
  permits := State.permitFor_onFurrow hf (fun f => { f with haltPend := b })
    ⟨fun f => by split <;> exact ⟨rfl, rfl⟩, fun f => by split <;> rfl, fun f => by split <;> rfl, fun f => by split <;> rfl,
      fun f => by split <;> rfl⟩

/-- A furrow that does not run ahead, at its fence (R148). -/
theorem stillTraps_abandonSpec (hf : s.furrow? core slot = some f) (hs : f.spec = none) :
    StillTraps s core slot f (s.abandonSpec core slot) f.atFence := by
  rw [State.abandonSpec_none hf hs]
  exact stillTraps_onGroups hf (fun _ => Group.atFence) (fun _ g => g.atFence_keeps.2.2)

/-- A trap of f is taken of the furrow that stands for it. -/
theorem StillTraps.taken {q : Issue} {t : State} {v : Furrow} (h : StillTraps s q.core q.slot f t v) {r : TrapReq} {n : Nat} (hr : TrapReady s q f r n) :
    TrapTaken (t.enterTrap q.core q.slot r) q f r n :=
  (State.enterTrap_taken h.furrow (hr.of_as h.same h.fields h.ctxs (h.permits _))).of_as h.same

end Still

/-! ### The watchdog (R46, R47) -/

section Watchdog
variable {s : State} {core slot : Nat} {f : Furrow}

/-- The one element that meets a test is the best of those that do. -/
theorem bestBy_filter_only {α : Type} (better : α → α → Bool) {l : List α} {t : α → Bool} {x : α} (hx : x ∈ l) (ht : t x = true)
    (ho : ∀ y ∈ l, t y = true → y = x) : bestBy better (l.filter t) = some x := by
  obtain ⟨y, hy⟩ := Option.isSome_iff_exists.1 (bestBy_isSome better (List.ne_nil_of_mem (List.mem_filter.2 ⟨hx, ht⟩)))
  obtain ⟨hm, hty⟩ := List.mem_filter.1 (bestBy_mem hy)
  rw [hy, ho y hm hty]

/-- Where no group's counter has reached the interval, the watchdog does nothing. -/
theorem exec_watchdog_idle (hf : s.furrow? core slot = some f) (hi : ∀ g ∈ f.groups, ∀ c, s.ctx? (s.ctxOf f) = some c → g.wdog < c.interval)
    (hc : (s.ctx? (s.ctxOf f)).isSome = true) : exec (.watchdog core slot) s = .next s := by
  obtain ⟨c, hc⟩ := Option.isSome_iff_exists.1 hc
  simp only [exec_watchdog, execWatchdog, hf, hc, Option.map_some, Option.getD_some]
  split
  · rfl
  · rw [List.filter_eq_nil_iff.2 (fun g hg => by have := hi g hg c hc; simp; omega)]
    rfl

/-- A group with its watchdog counter at 0. -/
def Group.fresh (g : Group) : Group := { g with wdog := 0 }

/-- A group at no fence rolled back, found with its counter at 0 once the furrow is at its fence. -/
theorem Furrow.group?_fresh {g : Group} (hg : f.group? g.lanes = some g) (hw : ∀ pc c m, g.wait ≠ some (.rolledFence pc c m)) :
    (f.atFence.onGroup g.lanes Group.fresh).group? g.lanes = some g.fresh := by
  have hfence : f.atFence.group? g.lanes = some g := by
    refine (find?_map_key (fun x : Group => x.level == f.level && x.lanes == g.lanes) Group.atFence
      (fun x => by obtain ⟨h1, h2, -⟩ := x.atFence_keeps; rw [h1, h2]) f.groups).trans ?_
    rw [show f.groups.find? _ = some g from hg, Option.map_some, Group.atFence_self hw]
  rw [Furrow.group?_onGroup _ _ Group.fresh (fun x => ⟨rfl, rfl⟩), hfence]
  rfl

/-- The group whose counter alone has reached the interval takes WATCHDOG at its PC. -/
theorem exec_watchdog_taken {g : Group} {c : Ctx} {n : Nat} (hf : s.furrow? core slot = some f) (hcount : s.counts f = true) (hopen : f.openSlot = none)
    (hstep : f.step = none) (hspec : f.spec = none) (hunder : g.underway = false) (hwait : ∀ pc c m, g.wait ≠ some (.rolledFence pc c m))
    (hg : f.group? g.lanes = some g) (hc : s.ctx? (s.ctxOf f) = some c) (hdue : c.interval ≤ g.wdog)
    (ho : ∀ h ∈ f.groups, h.backoff = none ∧ h.pend = none ∧ (h ≠ g → h.wdog < c.interval)) {q : Issue} (hq : q.core = core ∧ q.slot = slot)
    (hr : TrapReady s q f (trapAt g.lanes 7 0 g.pc) n) :
    ∃ t, exec (.watchdog core slot) s = .next t ∧ TrapTaken t q f (trapAt g.lanes 7 0 g.pc) n := by
  obtain ⟨rfl, rfl⟩ := hq
  have hl0 : f.level = 0 := by
    simp only [State.counts, Bool.and_eq_true, beq_iff_eq] at hcount
    exact hcount.1.1.1.1
  obtain ⟨hm, hgl, -⟩ := Furrow.group?_some hg
  obtain ⟨t, ht⟩ : ∃ t : Group → Bool, t = fun g => g.level == 0 && decide (c.interval ≤ g.wdog) && g.pend.isNone && !g.underway
      && g.backoff.all (fun b => b.trap.isNone) && f.step.all (fun t => t.2.1 == g.lanes) := ⟨_, rfl⟩
  have hpick : ∀ better, bestBy better (f.groups.filter t) = some g := fun better => by
    refine bestBy_filter_only better hm (by simp [ht, hgl, hl0, hdue, (ho g hm).1, (ho g hm).2.1, hunder, hstep]) (fun h hhm hht => ?_)
    by_contra hne
    have hlow := (ho h hhm).2.2 hne
    simp only [ht, Bool.and_eq_true, decide_eq_true_eq] at hht
    omega
  have fence := stillTraps_abandonSpec hf hspec
  have drop := fence.trans (stillTraps_dropFilling fence.furrow g.lanes)
  have still := drop.trans (stillTraps_onGroups drop.furrow
    (fun v x => if x.level == v.level && x.lanes == g.lanes then x.fresh else x) (fun _ x => by split <;> rfl))
  have hfound : ((((s.abandonSpec q.core q.slot).dropFilling q.core q.slot g.lanes).onFurrow q.core q.slot
      (fun f => f.onGroup g.lanes (fun g => { g with wdog := 0 }))).furrow? q.core q.slot).bind (fun f => f.group? g.lanes) = some g.fresh := by
    refine (congrArg (fun o => Option.bind o (fun f => f.group? g.lanes)) still.furrow).trans ?_
    exact Furrow.group?_fresh hg hwait
  refine ⟨_, ?_, still.taken hr⟩
  simp only [exec_watchdog, execWatchdog, hf, hc, Option.map_some, Option.getD_some, hcount, hopen]
  rw [← ht, hpick]
  simp only [Bool.not_true, Bool.false_eq_true, Option.isSome_none, or_self, if_false, hfound]
  rfl

end Watchdog

/-! ### HALT requests (R334) -/

section Halt
variable {s : State} {core slot : Nat} {f : Furrow}

theorem Furrow.entries_haltPend (f : Furrow) (k : Group → Bool) : (f.entries k).haltPend = f.haltPend := rfl

/-- A furrow with no trap pending takes none. -/
theorem State.takePending_none (hf : s.furrow? core slot = some f) (hp : ∀ g ∈ f.groups, g.pend = none) : s.takePending core slot = s := by
  unfold State.takePending
  simp only [hf]
  split
  · rfl
  · rw [List.filter_eq_nil_iff.2 (fun g hg => by simp [hp g hg])]
    rfl

/-- A HALT that is not due stays pending. -/
theorem State.takeHalt_idle (hf : s.furrow? core slot = some f) (hd : f.haltDue = false) : s.takeHalt core slot = s := by
  unfold State.takeHalt
  simp [hf, hd]

/-- A HALT that is due is taken by every running lane at its own PC, and is pending no longer. -/
theorem State.takeHalt_taken {q : Issue} {n : Nat} (hf : s.furrow? q.core q.slot = some f) (hs : f.spec = none)
    (hw : ∀ g ∈ f.groups, ∀ pc c m, g.wait ≠ some (.rolledFence pc c m)) (hd : f.haltDue = true) (hr : TrapReady s q f f.haltTrap n) :
    ∃ f', TrapTaken (s.takeHalt q.core q.slot) q f f.haltTrap n ∧ (s.takeHalt q.core q.slot).furrow? q.core q.slot = some f' ∧ f'.haltPend = false := by
  have hself : f.atFence = f := by
    rw [Furrow.atFence, List.map_congr_left (fun g hg => Group.atFence_self (hw g hg)), List.map_id']
  have fence := stillTraps_abandonSpec hf hs
  rw [hself] at fence
  have still := fence.trans (stillTraps_haltPend fence.furrow false)
  have he : s.takeHalt q.core q.slot = State.enterTrap ((s.abandonSpec q.core q.slot).onFurrow q.core q.slot (fun f => { f with haltPend := false }))
      q.core q.slot f.haltTrap := by
    unfold State.takeHalt
    simp only [hf, hd, Bool.not_true, Bool.false_eq_true, if_false, still.furrow]
    rfl
  have hr' := hr.of_as still.same still.fields still.ctxs (still.permits _)
  obtain ⟨c, -, hroute⟩ := hr.route
  obtain ⟨k, hk⟩ := State.enterTrap_entered still.furrow hr'
  rw [he]
  have hnone := (Furrow.entered_entered { f with haltPend := false } (routeTrap_ne_zero hroute) f.haltTrap).haltPend
  exact ⟨_, still.taken hr, hk, (Furrow.entries_haltPend _ k).trans hnone⟩

theorem exec_haltRequestArrive_eq {k : Nat} (hk : nth? s.furrows k = some f) (hf : s.furrow? f.core f.slot = some f)
    (hp : ∀ g ∈ f.groups, g.pend = none) : exec (.haltRequestArrive k) s = .next (s.takeHalt f.core f.slot) := by
  simp only [exec_haltRequestArrive, execHaltRequestArrive, hk, State.takePending_none hf hp]

end Halt

/-- Settles O42: a retry goes by what the one group that backs off keeps of its trap, the watchdog by the one counter that has reached the interval, and
a HALT by `Furrow.haltDue`; each trap they take is entered of a furrow that differs from f in nothing that an entry keeps (`StillTraps`). -/
theorem trapEvents : Obligations.TrapEvents := by
  intro s core slot f hf hcore hslot q
  subst hcore hslot
  refine ⟨fun g b r n hg _ hb hr ho hn => ?_, fun g n c hcount hopen hstep hspec hunder hwait hg _ hc hdue ho hready =>
    exec_watchdog_taken hf hcount hopen hstep hspec hunder hwait hg hc hdue ho ⟨rfl, rfl⟩ hready, exec_watchdog_idle hf,
    fun k n hk hs hw hd hready => ?_, fun k hk hd hp => ?_⟩
  · have he := exec_trapPermitRetry_eq (s := s) hf hg hb hr ho hn
    have retried : s.backoffOver f g.lanes b = true → f.openSlot = none → r.code ≠ 4 →
        exec (.trapPermitRetry f.core f.slot) s = .next (s.enterTrap f.core f.slot (f.retried r)) := fun h1 h2 h3 => by
      rw [he, if_pos ⟨h1, h2⟩, if_neg h3]
    refine ⟨fun h => ?_, fun h1 h2 h4 h6 hready => ?_, fun h1 h2 h6 hready => ?_, fun m k h1 h2 h4 hst hn0 hm hperm => ?_,
      fun h1 h2 h4 h6 hroute hl hne hin hp hfree hlow => ?_, fun h => ?_⟩
    · rw [he, if_neg (fun h' => h h'.2)]
    · refine ⟨_, retried h1 h2 h4, ?_⟩
      rw [Furrow.retried, if_neg h6]
      exact State.enterTrap_taken (q := q) hf hready
    · refine ⟨_, retried h1 h2 (by omega), ?_⟩
      rw [Furrow.retried, if_pos h6]
      exact State.enterTrap_taken (q := q) hf hready
    · exact ⟨_, by rw [he, if_pos ⟨h1, h2⟩, if_pos h4], State.takeStep_taken (q := q) hf hst hn0 hm hperm⟩
    · obtain ⟨c, hc, hroute⟩ := hroute
      obtain ⟨f', h, b', hback⟩ := State.backOff_again hf hg hb hlow
      refine ⟨_, f', h, b', ?_, hback⟩
      rw [retried h1 h2 h4, Furrow.retried, if_neg h6, State.enterTrap_routed hf hne hin hc (hl ▸ hroute), if_pos (by simp [hl, hp, hfree])]
    · rw [he, if_neg (fun h' => by rw [h] at h'; exact Bool.false_ne_true h'.1)]
  · have hp : ∀ g ∈ f.groups, g.pend = none := by
      simp only [Furrow.haltDue, Bool.and_eq_true, List.all_eq_true] at hd
      exact fun g hg => Option.isNone_iff_eq_none.1 (hd.2 g hg).1
    obtain ⟨f', h1, h2, h3⟩ := State.takeHalt_taken (q := q) hf hs hw hd hready
    exact ⟨_, f', exec_haltRequestArrive_eq hk hf hp, h1, h2, h3⟩
  · rw [exec_haltRequestArrive_eq hk hf hp, State.takeHalt_idle hf hd]

end Sys2Proof.Machine
end

section
/-! What the agents of coherence and the base die leave (R371 to R398): the fields, the contexts, and every furrow's slot but for waits that wake, where no
furrow runs ahead of a speculative fence. -/
namespace Sys2Proof.Machine

/-! ### The relation -/

/-- A furrow apart from its groups. -/
def Furrow.bare (f : Furrow) : Furrow := { f with groups := [] }

/-- The furrows at a place, apart from their groups. -/
def State.standing (s : State) (c n : Nat) : List Furrow := (s.furrows.filter (fun f => f.core == c && f.slot == n)).map Furrow.bare

/-- State t is s after work behind the furrows: fields and contexts are as they were, the furrows too where none runs ahead, and no field has gained a
furrow. -/
structure Backstage (s t : State) : Prop where
  fields : t.fields = s.fields
  ctxs : t.ctxs = s.ctxs
  standing : ∀ c n, (∀ f ∈ s.standing c n, f.spec = none) → t.standing c n = s.standing c n
  origin : ∀ f ∈ t.furrows, ∃ g ∈ s.furrows, g.field = f.field

theorem Backstage.of_eq {s t : State} (hf : t.fields = s.fields) (hc : t.ctxs = s.ctxs) (hu : t.furrows = s.furrows) : Backstage s t :=
  ⟨hf, hc, fun c n _ => by rw [State.standing, hu]; rfl, fun f h => ⟨f, hu ▸ h, rfl⟩⟩

theorem Backstage.refl (s : State) : Backstage s s := .of_eq rfl rfl rfl

theorem Backstage.trans {a b c : State} (h : Backstage a b) (k : Backstage b c) : Backstage a c where
  fields := k.fields.trans h.fields
  ctxs := k.ctxs.trans h.ctxs
  standing x n hs := (k.standing x n (by rw [h.standing x n hs]; exact hs)).trans (h.standing x n hs)
  origin f hf := by
    obtain ⟨g, hg, e⟩ := k.origin f hf
    obtain ⟨u, hu, e'⟩ := h.origin g hg
    exact ⟨u, hu, e'.trans e⟩

/-- Work done once for each of a list. -/
theorem Backstage.foldl {α : Type} {k : State → α → State} (h : ∀ s x, Backstage s (k s x)) (l : List α) (s : State) : Backstage s (l.foldl k s) :=
  List.foldlRecOn l k (Backstage.refl s) (fun t ht x _ => ht.trans (h t x))

theorem Backstage.ite {s a b : State} {p : Prop} [Decidable p] (ha : Backstage s a) (hb : Backstage s b) : Backstage s (if p then a else b) := by
  split
  · exact ha
  · exact hb

/-- Groups alone changed. -/
theorem backstage_groups (s : State) (k : Furrow → Furrow) (hk : ∀ f, (k f).bare = f.bare) : Backstage s { s with furrows := s.furrows.map k } := by
  have same : ∀ f, (k f).field = f.field ∧ (k f).core = f.core ∧ (k f).slot = f.slot := fun f => by
    have h := hk f
    unfold Furrow.bare at h
    simp only [Furrow.mk.injEq] at h
    exact ⟨h.2.2.1, h.1, h.2.1⟩
  refine ⟨rfl, rfl, fun c n _ => ?_, fun f hf => ?_⟩
  · have e : (fun f : Furrow => f.core == c && f.slot == n) ∘ k = fun f => f.core == c && f.slot == n :=
      funext fun f => by rw [Function.comp_apply, (same f).2.1, (same f).2.2]
    rw [State.standing, State.standing, List.filter_map, List.map_map, e]
    exact List.map_congr_left (fun f _ => hk f)
  · obtain ⟨g, hg, rfl⟩ := List.mem_map.1 hf
    exact ⟨g, hg, (same g).1.symm⟩

/-- A furrow of s that runs ahead put back changed, after other such work. -/
theorem Backstage.setFurrow {s t : State} (h : Backstage s t) {f v : Furrow} (hf : f ∈ s.furrows) (hs : f.spec ≠ none)
    (hp : v.core = f.core ∧ v.slot = f.slot) (hv : v.field = f.field) : Backstage s (t.setFurrow v) where
  fields := h.fields
  ctxs := h.ctxs
  standing c n hn := by
    have away : ¬(v.core = c ∧ v.slot = n) := fun e =>
      hs (hn f.bare (List.mem_map_of_mem (List.mem_filter.2 ⟨hf, by simp [← hp.1, ← hp.2, e]⟩)))
    have hit : (fun g : Furrow => g.core == c && g.slot == n) ∘ (fun g => if g.core == v.core && g.slot == v.slot then v else g)
        = fun g => g.core == c && g.slot == n := funext fun g => by
      rw [Function.comp_apply]
      split
      · rename_i e
        simp only [Bool.and_eq_true, beq_iff_eq] at e
        rw [e.1, e.2]
      · rfl
    rw [← h.standing c n hn, State.standing, State.standing, State.setFurrow, List.filter_map, hit, List.map_map]
    refine List.map_congr_left (fun g hg => ?_)
    have hg := (List.mem_filter.1 hg).2
    rw [Function.comp_apply, if_neg]
    intro e
    simp only [Bool.and_eq_true, beq_iff_eq] at e hg
    exact away ⟨e.1 ▸ hg.1, e.2 ▸ hg.2⟩
  origin g hg := by
    obtain ⟨u, hu, rfl⟩ := List.mem_map.1 hg
    split
    · exact ⟨f, hf, hv.symm⟩
    · exact h.origin u hu

/-! ### Sectors, messages and waits -/

section Agents
variable (s : State)

theorem backstage_onHolder (pa a : Nat) (k : Holder → Holder) : Backstage s (s.onHolder pa a k) := .of_eq rfl rfl rfl

theorem backstage_setSector (x : Sector) : Backstage s (s.setSector x) := .of_eq rfl rfl rfl

theorem backstage_send (m : Message) : Backstage s (s.send m) := .of_eq rfl rfl rfl

theorem backstage_sendTo (dsts : List Nat) (m : Message) : Backstage s (s.sendTo dsts m) := .foldl (fun s _ => backstage_send s _) _ s

theorem backstage_onCore (c : Nat) (k : Core → Core) : Backstage s (s.onCore c k) := .of_eq rfl rfl rfl

theorem backstage_onVf (n : Nat) (k : Vf → Vf) : Backstage s (s.onVf n k) := .of_eq rfl rfl rfl

theorem backstage_killLoads (on : Nat → Bool) (t : ReuseEntry → Bool) : Backstage s (s.killLoads on t) := .of_eq rfl rfl rfl

theorem backstage_wake (t : Watch → Bool) : Backstage s (s.wake t) := backstage_groups s _ (fun _ => rfl)

theorem backstage_rollbackReaders (on : Nat → Bool) (pa : Nat) : Backstage s (s.rollbackReaders on pa) := by
  refine List.foldlRecOn s.furrows _ (Backstage.refl s) (fun t ht f hf => ?_)
  split
  · rename_i sf hsf
    split
    · exact (ht.setFurrow (v := f.rollback sf sf.nextPc _) hf (by rw [hsf]; exact Option.some_ne_none _) ⟨rfl, rfl⟩ rfl).trans (.of_eq rfl rfl rfl)
    · exact ht
  · exact ht

theorem backstage_dropL1 (on : Nat → Bool) (pa : Nat) : Backstage s (s.dropL1 on pa) := by
  refine .trans (.trans (.trans ?_ (backstage_killLoads _ _ _)) (backstage_rollbackReaders _ _ _)) (backstage_wake _ _)
  exact .of_eq rfl rfl rfl

theorem backstage_tokenLost (die pa : Nat) (last : Bool) : Backstage s (s.tokenLost die pa last) := by
  unfold State.tokenLost
  split
  · exact backstage_dropL1 s _ pa
  · exact ((backstage_killLoads s _ _).trans (backstage_rollbackReaders _ _ pa)).trans (backstage_wake _ _)

theorem backstage_agentLost (a pa : Nat) (last : Bool) : Backstage s (s.agentLost a pa last) := by
  unfold State.agentLost
  split
  · exact backstage_tokenLost s a pa last
  · exact .refl s

/-! ### Tokens given and requested (R372 to R382) -/

theorem backstage_startHostOp (pa : Nat) (op : HostOp) : Backstage s (s.startHostOp pa op) := by
  unfold State.startHostOp
  dsimp only
  split
  · exact .refl s
  · exact backstage_setSector s _

theorem backstage_giveOne (pa src dst : Nat) : Backstage s (s.giveOne pa src dst) :=
  ((backstage_setSector s _).trans (backstage_agentLost _ src pa false)).trans (backstage_send _ _)

theorem backstage_giveAll (pa src dst : Nat) : Backstage s (s.giveAll pa src dst) := by
  unfold State.giveAll
  dsimp only
  split
  · exact .refl s
  · exact ((backstage_setSector s _).trans (backstage_agentLost _ src pa true)).trans (backstage_send _ _)

theorem backstage_forward (pa a r : Nat) : Backstage s (s.forward pa a r) := by
  unfold State.forward
  dsimp only
  split_ifs
  · exact .refl s
  · exact backstage_startHostOp s pa _
  · exact backstage_startHostOp s pa _
  · exact backstage_giveAll s pa a r

theorem backstage_answer (pa a src : Nat) (write : Bool) : Backstage s (s.answer pa a src write) := by
  unfold State.answer
  dsimp only
  split_ifs
  · exact .refl s
  · exact backstage_forward s pa a src
  · exact .refl s
  · exact backstage_startHostOp s pa _
  · exact backstage_giveOne s pa a src
  · exact backstage_startHostOp s pa _
  · exact backstage_startHostOp s pa _
  · exact backstage_giveAll s pa a src

theorem backstage_accessDone (a pa : Nat) (wr : Bool) : Backstage s (s.accessDone a pa wr) := by
  unfold State.accessDone
  dsimp only
  have sent : ∀ (k : Holder → Holder) (b : Bool) (m : Message), Backstage s (if b then (s.onHolder pa a k).send m else s.onHolder pa a k) :=
    fun k b m => .ite (.of_eq rfl rfl rfl) (.of_eq rfl rfl rfl)
  refine .ite (sent _ _ _) ?_
  exact .trans (.trans (sent _ _ _) (backstage_onHolder _ _ _ _)) (.foldl (fun t q => backstage_answer t _ _ _ _) _ _)

theorem backstage_activateNext (pa : Nat) : Backstage s (s.activateNext pa) := by
  unfold State.activateNext
  dsimp only
  split
  · exact .refl s
  · split
    · exact .refl s
    · refine .trans ?_ (backstage_forward _ _ _ _)
      refine .trans ?_ (backstage_sendTo _ _ _)
      exact .of_eq rfl rfl rfl

theorem backstage_deactivate (pa a : Nat) : Backstage s (s.deactivate pa a) := by
  unfold State.deactivate
  dsimp only
  split
  · exact .refl s
  · refine .trans ?_ (.foldl (α := Sector) (k := fun t y => t.activateNext y.pa) (fun t y => backstage_activateNext t y.pa) _ _)
    refine .trans ?_ (backstage_sendTo _ _ _)
    exact .of_eq rfl rfl rfl

theorem backstage_addPending (pa a : Nat) (write : Bool) : Backstage s (s.addPending pa a write) := by
  unfold State.addPending
  dsimp only
  split
  · exact .refl s
  · exact (backstage_setSector s _).trans (backstage_activateNext _ pa)

theorem backstage_request (a pa : Nat) (write : Bool) (core : Nat) : Backstage s (s.request a pa write core) := by
  unfold State.request
  split
  · exact (backstage_onHolder s pa a _).trans (backstage_sendTo _ _ _)
  · exact .refl s

theorem backstage_requestBase (sec : Nat) : Backstage s (s.requestBase sec) := by
  unfold State.requestBase
  split
  · exact (backstage_onHolder s sec 14 _).trans (backstage_addPending _ sec 14 true)
  · exact backstage_request s _ sec false 0

theorem backstage_baseReadDone (sec : Nat) : Backstage s (s.baseReadDone sec) := by
  unfold State.baseReadDone
  dsimp only
  split
  · split
    · exact ((backstage_setSector s _).trans (backstage_onHolder _ sec 14 _)).trans (backstage_deactivate _ sec 14)
    · exact .refl s
  · unfold State.readHeld
    dsimp only
    split
    · exact backstage_accessDone s _ _ false
    · exact .refl s

/-! ### The base die's writes (R372) -/

theorem backstage_keepHome (sec : Nat) : Backstage s (s.keepHome sec) := by
  unfold State.keepHome
  split
  · split
    · exact .refl s
    · exact backstage_setSector s _
  · exact .refl s

theorem backstage_performWrite (pa : Nat) (bs : List Byte) (writer : Option (Nat × Nat)) : Backstage s (s.performWrite pa bs writer) := by
  unfold State.performWrite
  dsimp only
  have written : Backstage s (((sectorsOf pa bs.length).foldl State.keepHome (if writer.isNone then s.settleBytes 0 0 pa bs.length else s)).writeBytes pa
      bs) := by
    refine .trans (b := (sectorsOf pa bs.length).foldl State.keepHome (if writer.isNone then s.settleBytes 0 0 pa bs.length else s)) ?_ (.of_eq rfl rfl rfl)
    refine .trans (b := if writer.isNone then s.settleBytes 0 0 pa bs.length else s) ?_ (.foldl (fun t sec => backstage_keepHome t sec) _ _)
    exact .ite (.of_eq rfl rfl rfl) (.refl s)
  refine .trans ?_ (.foldl (fun t sec => ?_) _ _)
  · split
    · exact written.trans (backstage_killLoads _ _ _)
    · exact written
  · exact .trans (.trans (backstage_dropL1 t _ _) (.ite (backstage_onHolder _ _ _ _) (.refl _))) (backstage_wake _ _)

theorem backstage_raiseIrq (vf vec : Nat) : Backstage s (s.raiseIrq vf vec) := by
  unfold State.raiseIrq
  split
  · split
    · exact .of_eq rfl rfl rfl
    · exact .refl s
  · exact .refl s

theorem backstage_setEvent (vf bit : Nat) : Backstage s (s.setEvent vf bit) := (backstage_onVf s vf _).trans (backstage_raiseIrq _ vf 8)

theorem backstage_performOuter (o : OuterOp) : Backstage s (s.performOuter o) := by
  have noted : Backstage s (if (s.outerBytes o).isEmpty ∨ s.isPeer o.pa ∨ o.agent = s.homeAgent o.pa
      then (if (s.outerBytes o).isEmpty then s else s.performWrite o.pa (s.outerBytes o) none)
      else (if (s.outerBytes o).isEmpty then s else s.performWrite o.pa (s.outerBytes o) none).onHolder o.pa o.agent (fun h => { h with dirty := true })) := by
    have written := Backstage.ite (p := (s.outerBytes o).isEmpty = true) (.refl s) (backstage_performWrite s o.pa (s.outerBytes o) none)
    exact .ite written (written.trans (backstage_onHolder _ _ _ _))
  have raised : ∀ t : State, Backstage t (match o.irq with
      | some (vf, vec) => t.raiseIrq vf vec
      | none => t) := fun t => by
    split
    · exact backstage_raiseIrq t _ _
    · exact .refl t
  unfold State.performOuter
  refine .trans (noted.trans ?_) (raised _)
  refine .ite (.refl _) ?_
  cases o.kind with
  | pod _ => exact .trans (backstage_accessDone _ _ _ _) (backstage_giveAll _ _ _ _)
  | cxl _ => exact .trans (backstage_setSector _ _) (backstage_accessDone _ _ _ _)
  | base =>
    refine .ite (.trans ?_ (backstage_deactivate _ _ _)) (backstage_accessDone _ _ _ _)
    exact .of_eq rfl rfl rfl

theorem backstage_requestOuter (o : OuterOp) : Backstage s (s.requestOuter o) := by
  unfold State.requestOuter
  dsimp only
  split_ifs
  · exact .refl s
  · exact (backstage_onHolder s _ 14 _).trans (backstage_addPending _ _ 14 true)
  · exact backstage_startHostOp s _ _
  · exact backstage_request s _ _ _ 0

end Agents

theorem backstage_runOuter (os : List OuterOp) : ∀ (stop : Bool) (secs : List Nat) (s : State), Backstage s (runOuter os stop secs s).1 := by
  induction os with
  | nil => exact fun _ _ s => .refl s
  | cons o os ih =>
    intro stop secs s
    unfold runOuter
    dsimp only
    split
    · exact (backstage_performOuter s o).trans (ih _ _ _)
    · exact ih _ _ s

section BaseDie
variable (s : State)

theorem backstage_settleOuter : Backstage s s.settleOuter := by
  unfold State.settleOuter
  dsimp only
  split
  · exact .refl s
  · refine .trans (.trans (backstage_runOuter s.outer false [] s) ?_) (.foldl (fun t o => backstage_requestOuter t o) _ _)
    exact .of_eq rfl rfl rfl

theorem backstage_addOuter (os : List OuterOp) : Backstage s (s.addOuter os) :=
  .trans (b := { s with outer := s.outer ++ os }) (.of_eq rfl rfl rfl) (backstage_settleOuter _)

theorem backstage_baseWrite (pa : Nat) (bs : List Byte) : Backstage s (s.baseWrite pa bs) := backstage_addOuter s _

theorem backstage_recordNow (ctx queue : Nat) (done : BitVec 64) (bs : List Byte) : Backstage s (s.recordNow ctx queue done bs) := by
  have event : Backstage s ((s.setEvent (vfOfCtx ctx) 6).raiseIrq (vfOfCtx ctx) queue) := (backstage_setEvent s _ 6).trans (backstage_raiseIrq _ _ _)
  unfold State.recordNow
  dsimp only
  split
  · exact backstage_raiseIrq s _ _
  split
  · exact event
  split
  · exact backstage_onVf s _ _
  split
  · split
    · exact event
    · exact backstage_addOuter s _
  · exact event

/-- A completion record, written now or kept for its turn (R372, R425). -/
theorem backstage_writeRecord (ctx queue : Nat) (done : BitVec 64) (bs : List Byte) : Backstage s (s.writeRecord ctx queue done bs) := by
  unfold State.writeRecord
  dsimp only
  split
  · refine .trans ?_ (.foldl (fun t sec => backstage_requestBase t sec) _ _)
    exact .of_eq rfl rfl rfl
  · exact (Backstage.foldl (fun t sec => backstage_baseReadDone t sec) _ s).trans (backstage_recordNow _ _ _ _ _)

end BaseDie

end Sys2Proof.Machine
end

section
/-! A trap of an instruction (R318 to R321): entered, or the end of its context. -/
namespace Sys2Proof.Machine

/-! ### Context faults (R321, R398) -/

theorem State.endField_ctxs (s : State) (id : Nat) : (s.endField id).ctxs = s.ctxs := by
  unfold State.endField
  dsimp only
  split
  · rfl
  · split_ifs <;> rfl

theorem State.endScheme_ctxs (s : State) (id code detail : Nat) (loc : BitVec 64) : (s.endScheme id code detail loc).ctxs = s.ctxs := by
  unfold State.endScheme
  split
  · rfl
  · dsimp only
    split
    · rfl
    · exact (backstage_writeRecord _ _ _ _ _).ctxs

/-- A context that runs and is no service context ends with the reason given. -/
theorem State.endContext_ended {s : State} {n : Nat} {c : Ctx} (hc : s.ctx? n = some c) (hs : c.service = false) (he : c.ended = none) (e : CtxEnd) :
    ((s.endContext n e).ctx? n).bind Ctx.ended = some e := by
  have ended : ((s.onCtx n (fun c => { c with ended := some e })).ctx? n).bind Ctx.ended = some e := by
    have look : (s.onCtx n (fun c => { c with ended := some e })).ctx? n = some { c with ended := some e } :=
      (find?_mapIf (fun x : Ctx => x.ctx == n) (fun c => { c with ended := some e }) (fun _ => rfl) s.ctxs).trans
        (by rw [show s.ctxs.find? _ = some c from hc]; rfl)
    rw [look]
    rfl
  have fields : ∀ (l : List Field) (t : State), (l.foldl (fun s f => s.endField f.id) t).ctxs = t.ctxs := fun l t =>
    List.foldlRecOn l _ (motive := fun u => u.ctxs = t.ctxs) rfl (fun u hu f _ => (State.endField_ctxs u f.id).trans hu)
  have schemes : ∀ (l : List Scheme) (t : State), (l.foldl (fun s x => s.endScheme x.id e.code e.detail e.loc) t).ctxs = t.ctxs := fun l t =>
    List.foldlRecOn l _ (motive := fun u => u.ctxs = t.ctxs) rfl (fun u hu x _ => (State.endScheme_ctxs u x.id _ _ _).trans hu)
  have kept : (s.endContext n e).ctxs = (s.onCtx n (fun c => { c with ended := some e })).ctxs := by
    unfold State.endContext
    simp only [hc, hs, he, Option.isSome_none, Bool.or_false, Bool.false_eq_true, if_false]
    split
    · rw [(backstage_setEvent _ _ _).ctxs, schemes, fields]
    · rw [schemes, fields]
  rw [State.ctx?, kept]
  exact ended

/-- A context fault of a furrow whose context runs and is no service context ends it (R321). -/
theorem State.contextFault_ended {s : State} {core slot n cause : Nat} {c : Ctx} {loc : BitVec 64} (hc : s.ctx? n = some c) (hs : c.service = false)
    (he : c.ended = none) :
    ((s.contextFault core slot n cause loc).ctx? n).bind Ctx.ended = some { code := 3, detail := 3 * 256 + cause, loc := loc } := by
  unfold State.contextFault
  simp only [hc, Option.any_some, hs, Bool.false_eq_true, if_false]
  exact State.endContext_ended (s := s.onFurrow core slot Furrow.stop) hc hs he _

/-- One of a service context stops its furrow alone (R18, log 99). -/
theorem State.contextFault_service {s : State} {core slot n cause : Nat} {c : Ctx} {loc : BitVec 64} (hc : s.ctx? n = some c) (hs : c.service = true) :
    s.contextFault core slot n cause loc = s.onFurrow core slot (fun f => { f with dead := true }) := by
  unfold State.contextFault
  simp only [hc, Option.any_some, hs, if_true]

/-! ### The trap of an issuing instruction -/

/-- A trap of a group that issues alone is entered with nothing issuing. -/
theorem State.trapIssue_alone {s : State} {q : Issue} {f : Furrow} {g : Group} {i : Instr} {r : TrapReq} (h : Issues s q f g i) (h2 : q.second = none) :
    s.trapIssue q r = ({ s with issue := none } : State).enterTrap q.core q.slot r := by
  unfold State.trapIssue State.trapInSlot
  simp only [h.furrow, Option.any_some, h.ahead, Option.isSome_none, Bool.false_eq_true, if_false, h.own, h2, h.alone]

/-- An instruction that answers its trap alone takes it. -/
theorem traps_of_trapIssue {s : State} {q : Issue} {f : Furrow} {g : Group} {i : Instr} {r : TrapReq} (h : Issues s q f g i)
    (he : exec i s = .next (s.trapIssue q r)) : Traps s q f i r := by
  refine ⟨fun n hr => ?_, fun c hc hroute hend h2 hne hin => ?_⟩
  · have ready : TrapReady { s with issue := none } q f r n := ⟨hr.route, hr.lanes, hr.inside, hr.permit, hr.first⟩
    exact ⟨_, he.trans (congrArg _ (State.trapIssue_alone h hr.first)), State.enterTrap_taken (s := { s with issue := none }) h.furrow ready⟩
  · have hn : c.ctx = s.ctxOf f := by simpa using List.find?_some hc
    have fault : s.trapIssue q r = ({ s with issue := none } : State).contextFault q.core q.slot (s.ctxOf f) r.code (s.locOf f) :=
      (State.trapIssue_alone h h2).trans (State.enterTrap_unrouted (s := { s with issue := none }) h.furrow hne hin hc hroute)
    refine ⟨_, he.trans (congrArg _ fault), fun hs => ?_, fun hs => ?_⟩
    · rw [hn]
      exact State.contextFault_ended (s := { s with issue := none }) hc hs hend
    · rw [State.contextFault_service (s := { s with issue := none }) hc hs]
      exact ⟨_, State.furrow?_onFurrow_self (s := { s with issue := none }) h.furrow (fun f => { f with dead := true }) (fun _ => ⟨rfl, rfl⟩), rfl, rfl⟩

end Sys2Proof.Machine
end

section
/-! O36: basin claims, publications, releases, waits and traps. -/
namespace Sys2Proof.Machine

/-! ### The evaluation of a scheme (R401) -/

/-- State t is s with further fields: nothing issuing and no furrow has changed. -/
structure OpensFields (s t : State) : Prop where
  furrows : t.furrows = s.furrows
  issue : t.issue = s.issue
  fields : ∃ l, t.fields = s.fields ++ l

theorem OpensFields.refl (s : State) : OpensFields s s := ⟨rfl, rfl, [], (List.append_nil _).symm⟩

theorem OpensFields.trans {a b c : State} (h : OpensFields a b) (k : OpensFields b c) : OpensFields a c := by
  obtain ⟨l, hl⟩ := h.fields
  obtain ⟨m, hm⟩ := k.fields
  exact ⟨k.furrows.trans h.furrows, k.issue.trans h.issue, l ++ m, by rw [hm, hl, List.append_assoc]⟩

/-- An evaluation opens fields, and does nothing else to fields and furrows. -/
theorem State.evaluate_opens (s : State) (scheme : Nat) : OpensFields s (s.evaluate scheme) := by
  unfold State.evaluate
  split
  · exact .refl s
  split
  · exact .refl s
  refine List.foldlRecOn _ _ (OpensFields.refl s) (fun t ht ix _ => ht.trans ?_)
  split
  · exact .refl t
  split
  · exact .refl t
  split
  · exact ⟨rfl, rfl, _, rfl⟩
  · exact .refl t

/-! ### Reads of a port (R59 to R61) -/

section Ports
variable {s : State} {q : Issue} {f : Furrow} {g : Group} {x : SEport} {fl : Field}

/-- A slot of a basin claimed by a furrow (R59), the claim an acquire (R275). -/
def State.claimSlot (s : State) (f : Furrow) (m : Mask) (port sc b n : Nat) (k : Basin → Basin) : State :=
  (((s.onBasin sc b k).onField f.field (fun fl => { fl with claims := fl.claims ++
    [{ port := port, basin := b, slot := n, furrowIx := f.ix }] })).acquire f true .pkg).sync f m false true .pkg

/-- A read that finds a slot claims it and answers its address. -/
theorem does_claim {out : Bool} {sc b n : Nat} {addr : W64} {k : Basin → Basin} (h : Issues s q f g (.qclaim x))
    (hr : s.portRead f x.q = some (.slot out sc b n addr))
    (hk : k = fun y => if out then { y with empty := y.empty.drop 1, filling := y.filling ++ [n] }
      else { y with full := y.full.drop 1, reading := y.reading ++ [n] }) :
    Does s q g (.qclaim x) (s.claimSlot f g.lanes x.q.val sc b n k) (f.writeW x.wa.val addr) := by
  obtain ⟨hc, hs⟩ := State.furrow?_place h.furrow
  obtain ⟨v, hv, hon⟩ := State.sync_acquire_own (s := (s.onBasin sc b k).onField f.field (fun fl => { fl with claims := fl.claims ++
    [{ port := x.q.val, basin := b, slot := n, furrowIx := f.ix }] })) (f := f) (by rw [hc, hs]; exact h.furrow) g.lanes
  have again : (s.claimSlot f g.lanes x.q.val sc b n k).again f = v := by
    unfold State.again
    exact congrArg (fun o => Option.getD o f) hv
  refine does_of_writeW (u := s.claimSlot f g.lanes x.q.val sc b n k) h rfl (by rw [← hc, ← hs]; exact hv) hon ?_
  rw [exec_qclaim, execQclaim, running_issues h, hr, ← again, hk]
  rfl

/-- A read that finds no more input writes 0. -/
theorem does_noInput (h : Issues s q f g (.qclaim x)) (hr : s.portRead f x.q = some .ended) : Does s q g (.qclaim x) s (f.writeW x.wa.val 0) :=
  writesW_of (fun h => by rw [exec_qclaim, execQclaim, running_issues h, hr]) h

/-- A read that withdraws its field writes 0 (R61, R401). -/
theorem does_withdraw (h : Issues s q f g (.qclaim x)) (hr : s.portRead f x.q = some .withdrawn) (hfl : s.field? f.field = some fl) :
    Does s q g (.qclaim x) (s.withdraw fl) (f.writeW x.wa.val 0) :=
  does_of_writeW (u := s.withdraw fl) h rfl h.furrow (GoesOnAs.refl f) (by rw [exec_qclaim, execQclaim, running_issues h, hr]; simp only [hfl])

/-- A read that finds neither waits. -/
theorem waits_claim (h : Issues s q f g (.qclaim x)) (hr : s.portRead f x.q = some .wait) : WaitsFor s q f g (.qclaim x) (.basin x.q) :=
  waitsFor_of_waitOn h (by rw [exec_qclaim, execQclaim, running_issues h, hr])

/-- Reads and writes of a port that is not bound trap. -/
theorem traps_unbound (hp : s.portOf f x.q = none) :
    (Issues s q f g (.qclaim x) → Traps s q f (.qclaim x) (trapAt g.lanes 0x1E 0 g.pc))
    ∧ (Issues s q f g (.qput x) → Traps s q f (.qput x) (trapAt g.lanes 0x1E 0 g.pc)) := by
  refine ⟨fun h => traps_of_trapIssue h ?_, fun h => traps_of_trapIssue h ?_⟩
  · rw [exec_qclaim, execQclaim, running_issues h]
    simp only [State.portRead, hp]
    rfl
  · rw [exec_qput, execQput, running_issues h]
    simp only [hp]
    rfl

/-! ### Writes of a port (R59, R60) -/

/-- A slot published or released (R59, R60), with the order that a publication gives (R275). -/
def State.givenSlot (s : State) (f : Furrow) (out : Bool) (sc b : Nat) (k : Claim) : State :=
  let s1 := s.onBasin sc b (fun y => if out then { y with filling := setRemove y.filling k.slot, full := y.full ++ [k.slot] }
    else { y with reading := setRemove y.reading k.slot, empty := y.empty ++ [k.slot] })
  (if out then s1.publish (f.party 0xFFFFFFFF) 5 else s1).onField f.field (fun fl => { fl with claims := fl.claims.filter (fun c => c != k) })

/-- The furrows and the issuing group stay. -/
theorem State.givenSlot_opens (s : State) (f : Furrow) (out : Bool) (sc b : Nat) (k : Claim) :
    (s.givenSlot f out sc b k).furrows = s.furrows ∧ (s.givenSlot f out sc b k).issue = s.issue := by
  unfold State.givenSlot
  cases out <;> exact ⟨rfl, rfl⟩

section Bound
variable {out : Bool} {sc : Scheme} {b : Nat} {bs : Basin} (hfl : s.field? f.field = some fl) (hp : s.portOf f x.q = some (out, sc, b, bs))
include hfl hp

theorem exec_qput_unclaimed (h : Issues s q f g (.qput x)) (hk : fl.claimAt f x.q bs (f.readW x.wa.val) = none) :
    exec (.qput x) s = .next (s.trapIssue q (trapAt g.lanes 0x1E 0 g.pc)) := by
  rw [exec_qput, execQput, running_issues h]
  simp only [hp, hfl, hk]
  rfl

theorem exec_qput_claimed {k : Claim} (h : Issues s q f g (.qput x)) (hk : fl.claimAt f x.q bs (f.readW x.wa.val) = some k) :
    exec (.qput x) s = if out && f.busy then .next (s.waitOn q g .furrowDrain)
      else ((s.givenSlot f out sc.id b k).evaluate sc.id).skip (.qput x) q g := by
  rw [exec_qput, execQput, running_issues h]
  simp only [hp, hfl, hk]
  rfl

/-- A write of a claimed address gives the slot on and evaluates the scheme (R401). -/
theorem does_give {k : Claim} (h : Issues s q f g (.qput x)) (hk : fl.claimAt f x.q bs (f.readW x.wa.val) = some k) (hgo : out = false ∨ f.busy = false) :
    Does s q g (.qput x) ((s.givenSlot f out sc.id b k).evaluate sc.id) f := by
  obtain ⟨hfu, hi⟩ := s.givenSlot_opens f out sc.id b k
  have opens := (s.givenSlot f out sc.id b k).evaluate_opens sc.id
  have same : ((s.givenSlot f out sc.id b k).evaluate sc.id).furrow? q.core q.slot = some f := by
    rw [State.furrow?, opens.furrows, hfu]
    exact h.furrow
  refine does_of_skip h (opens.issue.trans hi) same (SameRun.refl f) rfl rfl ?_
  rw [exec_qput_claimed hfl hp h hk, if_neg]
  rcases hgo with e | e <;> simp [e]

end Bound
end Ports

/-- Settles O36, by what `State.portRead` finds and by the claim at the address written. -/
theorem basinPorts : Obligations.BasinPorts := by
  intro s q f g x fl hfl _
  refine ⟨traps_unbound, ?_⟩
  intro out sc b bs hp claimed
  refine ⟨fun h => ⟨fun n rest ho he => ?_, fun n rest ho hw he => ?_, fun ho hover => ?_, fun ho hw he hend hwd => ?_, fun hwait => ?_⟩,
    fun h => ⟨fun hk => traps_of_trapIssue h (exec_qput_unclaimed hfl hp h hk), fun k hk ho hb => waitsFor_of_waitOn h ?_,
      fun k hk hgo => does_give hfl hp h hk hgo⟩⟩
  · subst ho
    exact does_claim (out := true) h (by simp only [State.portRead, hp, hfl, he, if_true]) rfl
  · subst ho
    exact does_claim (out := false) h (by simp only [State.portRead, hp, hfl, hw, he, Bool.false_eq_true, if_false]) rfl
  · subst ho
    refine does_noInput h ?_
    simp only [State.portRead, hp, hfl, Bool.false_eq_true, if_false]
    rcases hover with hw | ⟨he, hend⟩
    · rw [if_pos hw]
    · simp only [he, hend, if_true, ite_self]
  · subst ho
    exact does_withdraw h (by simp only [State.portRead, hp, hfl, hw, he, hend, hwd, Bool.false_eq_true, if_false, if_true]) hfl
  · refine waits_claim h ?_
    cases out with
    | true =>
      have he : bs.empty = [] := hwait
      simp only [State.portRead, hp, hfl, he, if_true]
    | false =>
      obtain ⟨hw, he, hend, hwd⟩ : fl.withdrawn = false ∧ bs.full = [] ∧ bs.ended = false ∧ s.withdraws sc fl = false := hwait
      simp only [State.portRead, hp, hfl, hw, he, hend, hwd, Bool.false_eq_true, if_false]
  · rw [exec_qput_claimed hfl hp h hk, if_pos (by rw [ho, hb]; rfl)]

end Sys2Proof.Machine
end

section
/-! O48: placement, victims and saved fields. -/
namespace Sys2Proof.Machine

/-! ### Saves and places leave the rest of the package as it is -/

/-- A furrow's place, field and index are seen apart from its groups. -/
theorem Furrow.bare_same {f v : Furrow} (h : v.bare = f.bare) :
    (v.core = f.core ∧ v.slot = f.slot ∧ v.field = f.field ∧ v.ix = f.ix) ∧ v.spec = f.spec ∧ v.step = f.step ∧ v.w = f.w ∧ v.p = f.p ∧ v.h = f.h := by
  unfold Furrow.bare at h
  simp only [Furrow.mk.injEq] at h
  tauto

/-- Pool entries given out are a change of groups. -/
theorem entries_guard_bare (k : Furrow → Furrow) (hk : ∀ f, ∃ a, k f = f.entries a) (t : Furrow → Bool) (f : Furrow) :
    (if t f then k f else f).bare = f.bare := by
  obtain ⟨a, ha⟩ := entries_guard k hk t f
  rw [ha]
  rfl

theorem backstage_handoutFree (c q n : Nat) : ∀ s : State, Backstage s (State.handoutFree c q n s) := by
  induction n with
  | zero => exact fun s => .refl s
  | succ n ih =>
    intro s
    unfold State.handoutFree
    dsimp only
    split
    · rename_i slot g _
      exact (backstage_groups s _ (fun f => entries_guard_bare _ (fun f => f.activate_entries g) (fun f => f.core == c && f.slot == slot) f)).trans (ih _)
    · exact .refl s

theorem backstage_handout (s : State) (c q : Nat) : Backstage s (s.handout c q) :=
  (backstage_groups s _ (fun f => entries_guard_bare _ Furrow.ownEntry_entries (fun f => f.core == c && quarterOf f.slot == q) f)).trans
    (backstage_handoutFree c q _ _)

/-- Pool entries given out once the reuse entries of values no longer live have gone (R78). -/
theorem backstage_purgedHandout (s : State) (c q : Nat) : Backstage s ((s.purgeReuse c q).handout c q) :=
  .trans (b := s.purgeReuse c q) (.of_eq rfl rfl rfl) (backstage_handout _ c q)

section Area
variable (s : State)

theorem backstage_describe (fl : Field) (st : Nat) : Backstage s (s.describe fl st) := by
  unfold State.describe
  split
  · exact .refl s
  · exact .trans (backstage_baseWrite s _ _) (backstage_baseWrite _ _ _)

theorem backstage_linkImages (n : Nat) : Backstage s (s.linkImages n) := by
  unfold State.linkImages
  split
  · exact .refl s
  · exact .trans (backstage_baseWrite s _ _) (.foldl (fun t p => backstage_baseWrite t _ _) _ _)

theorem backstage_loadCounters (n core : Nat) : Backstage s (s.loadCounters n core) := by
  unfold State.loadCounters
  split
  · exact .refl s
  · exact .ite (.refl s) (backstage_onCore s _ _)

theorem backstage_storeCounters (n core : Nat) : Backstage s (s.storeCounters n core) := by
  unfold State.storeCounters
  split
  · exact .refl s
  · exact .ite (.refl s) (.trans (backstage_baseWrite s _ _) (backstage_onCore _ _ _))

theorem backstage_writeImage (fl : Field) (fs : List Furrow) : Backstage s (s.writeImage fl fs) := by
  unfold State.writeImage
  split
  · exact .refl s
  · refine .trans (.trans (.trans ?_ (.foldl (fun t f => backstage_baseWrite t _ _) _ _)) (backstage_baseWrite _ _ _)) (backstage_describe _ fl 2)
    exact .trans (backstage_baseWrite s _ _) (backstage_baseWrite _ _ _)

end Area

/-- A field looked up after it has been put back changed. -/
theorem State.field?_replaced {s t : State} {fl new : Field} (hf : s.field? fl.id = some fl) (hn : new.id = fl.id)
    (ht : t.fields = mapIf s.fields (fun f => f.id == fl.id) (fun _ => new)) : t.field? fl.id = some new := by
  have look := find?_map_key (fun f : Field => f.id == fl.id) (fun f => if f.id == fl.id then new else f) (fun f => by
    split
    · rename_i h
      rw [h, hn, beq_self_eq_true]
    · rfl) s.fields
  rw [State.field?, ht]
  refine look.trans ?_
  rw [show s.fields.find? _ = some fl from hf, Option.map_some, beq_self_eq_true]
  rfl

/-! ### Launch (R43, R44) -/

/-- A furrow at the start of its field stands at its place with its index, and does not run ahead. -/
structure Born (f : Furrow) (field core slot ix : Nat) : Prop where
  field : f.field = field
  core : f.core = core
  slot : f.slot = slot
  ix : f.ix = ix
  spec : f.spec = none

theorem launchFurrow_born (fl : Field) (core slot ix : Nat) : Born (launchFurrow fl core slot ix) fl.id core slot ix := by
  unfold launchFurrow
  refine List.foldlRecOn (motive := fun f => Born f fl.id core slot ix) _ _ ⟨rfl, rfl, rfl, rfl, rfl⟩ (fun f h k _ => ?_)
  obtain ⟨h1, h2, h3, h4, h5⟩ := h
  unfold Furrow.writeW
  split_ifs <;> exact ⟨h1, h2, h3, h4, h5⟩

/-- Each furrow of a field falls in a quarter whose share goes beyond it (R43). -/
theorem lt_shareOf {n i : Nat} (b : Nat) (h : i < n) : i / 4 < shareOf n b ((i + b) % 4) := by
  have hnd : ((List.range (i / 4 + 1)).map (fun j => i % 4 + 4 * j)).Nodup :=
    List.nodup_range.map (fun x y e => by omega)
  have hsub : (List.range (i / 4 + 1)).map (fun j => i % 4 + 4 * j) ⊆ (List.range n).filter (fun k => (k + b) % 4 == (i + b) % 4) := fun k hk => by
    obtain ⟨j, hj, rfl⟩ := List.mem_map.1 hk
    have := List.mem_range.1 hj
    rw [List.mem_filter, List.mem_range, beq_iff_eq]
    omega
  have := (hnd.subperm hsub).length_le
  rw [List.length_map, List.length_range] at this
  exact this

section Place
variable {s : State} {fl : Field} {core : Nat}

/-- A core that a field is put on is eligible for it (R399). -/
theorem State.eligible_of_coresFor (h : s.coresFor fl = some [core]) (ht : fl.tsize = 0) : s.eligible fl core = true := by
  unfold State.coresFor at h
  rw [if_pos ht] at h
  split at h
  · cases h
  · obtain ⟨c, hc, e⟩ := Option.map_eq_some_iff.1 h
    obtain rfl : c = core := by simpa using e
    exact (List.mem_filter.1 (bestBy_mem hc)).2

/-- The slot that a field's furrow i gets on an eligible core is free (R43). -/
theorem State.slotsFor_free (h : s.eligible fl core = true) {i : Nat} (hi : i < fl.fcount) :
    s.furrow? core ((s.slotsFor core (s.offsetFor core fl.service) fl.fcount fl.service).getD i 0) = none := by
  obtain ⟨b, hb⟩ : ∃ b, b = s.offsetFor core fl.service := ⟨_, rfl⟩
  have hfit : s.quartersFit core b fl = true := by
    simp only [State.eligible, State.fitsOn, Bool.and_eq_true] at h
    rw [hb]
    exact h.1.1.2.1
  have hroom : shareOf fl.fcount b ((i + b) % 4) ≤ (s.freeSlots core ((i + b) % 4) fl.service).length := by
    simp only [State.quartersFit, List.all_eq_true, Bool.and_eq_true, decide_eq_true_eq] at hfit
    exact (hfit _ (List.mem_range.2 (by omega))).1
  have hlt := (lt_shareOf b hi).trans_le hroom
  have hslot : (s.slotsFor core b fl.fcount fl.service).getD i 0 = (s.freeSlots core ((i + b) % 4) fl.service)[i / 4] := by
    simp [State.slotsFor, hi, hlt]
  have hm := List.getElem_mem hlt
  rw [← hb, hslot]
  simp only [State.freeSlots, List.mem_filter, Bool.and_eq_true, Option.isNone_iff_eq_none] at hm
  exact hm.2.1

/-- A field as it is resident on a core (R43, R44, R178). -/
def State.placed (s : State) (fl : Field) (core : Nat) : Field :=
  { fl with status := .resident, core := core, qoff := s.offsetFor core fl.service, placedAt := s.cycles + 1,
            image := if fl.service then none else s.imageSlot fl.ctx fl.imageSize, caddy := fl.kernel.caddy,
            loc0 := locId s.pkg core ((s.slotsFor core (s.offsetFor core fl.service) fl.fcount fl.service).headD 0),
            sp := { size := fl.kernel.scratch }, tile := { size := fl.kernel.tiles }, bsl := { size := 64 * fl.kernel.bslice } }

/-- The furrows that a field starts with on a core (R43, R44). -/
def State.launched (s : State) (fl : Field) (core : Nat) : List Furrow :=
  (List.range fl.fcount).map (fun i =>
    launchFurrow (s.placed fl core) core ((s.slotsFor core (s.offsetFor core fl.service) fl.fcount fl.service).getD i 0) i)

/-- A start puts the field and its furrows on the core; the rest is behind the furrows. -/
theorem State.startField_backstage (hf : s.field? fl.id = some fl) :
    ∃ u : State, Backstage u (s.startField fl.id core) ∧ u.fields = mapIf s.fields (fun f => f.id == fl.id) (fun _ => s.placed fl core)
      ∧ u.furrows = s.furrows ++ s.launched fl core := by
  have load : (s.loadCounters fl.ctx core).fields = s.fields ∧ (s.loadCounters fl.ctx core).furrows = s.furrows := by
    unfold State.loadCounters
    dsimp only
    split
    · exact ⟨rfl, rfl⟩
    · split <;> exact ⟨rfl, rfl⟩
  refine ⟨{ (s.loadCounters fl.ctx core).onField fl.id (fun _ => s.placed fl core) with
    furrows := (s.loadCounters fl.ctx core).furrows ++ s.launched fl core }, ?_, ?_, ?_⟩
  · unfold State.startField
    rw [hf]
    exact .ite (.refl _) (.trans (backstage_describe _ _ 1) (backstage_linkImages _ _))
  · rw [← load.1]
    rfl
  · rw [← load.2]

/-- A field started on an eligible core stands there with all its furrows. -/
theorem State.startField_resident (hf : s.field? fl.id = some fl) (he : s.eligible fl core = true) :
    (s.startField fl.id core).field? fl.id = some (s.placed fl core)
      ∧ ∀ i, i < fl.fcount → ∃ f ∈ (s.startField fl.id core).furrows, f.field = fl.id ∧ f.core = core ∧ f.ix = i := by
  obtain ⟨u, hu, hfields, hfurrows⟩ := State.startField_backstage (core := core) hf
  refine ⟨State.field?_replaced hf rfl (hu.fields.trans hfields), fun i hi => ?_⟩
  obtain ⟨n, hn⟩ : ∃ n, n = (s.slotsFor core (s.offsetFor core fl.service) fl.fcount fl.service).getD i 0 := ⟨_, rfl⟩
  have free : s.furrow? core n = none := hn ▸ State.slotsFor_free he hi
  have alone : ∀ f ∈ u.standing core n, f.spec = none := fun f h => by
    obtain ⟨v, hv, rfl⟩ := List.mem_map.1 h
    obtain ⟨hv, hat⟩ := List.mem_filter.1 hv
    rw [hfurrows, List.mem_append] at hv
    obtain hv | hv := hv
    · exact absurd hat (List.find?_eq_none.1 free v hv)
    · obtain ⟨j, -, rfl⟩ := List.mem_map.1 hv
      exact (launchFurrow_born _ _ _ _).spec
  obtain ⟨x, hx⟩ : ∃ x, x = launchFurrow (s.placed fl core) core n i := ⟨_, rfl⟩
  obtain ⟨b1, b2, b3, b4, -⟩ := launchFurrow_born (s.placed fl core) core n i
  rw [← hx] at b1 b2 b3 b4
  have there : x.bare ∈ u.standing core n := by
    refine List.mem_map_of_mem (List.mem_filter.2 ⟨?_, by rw [b2, b3, beq_self_eq_true, beq_self_eq_true]; rfl⟩)
    rw [hfurrows, hx, hn]
    exact List.mem_append_right _ (List.mem_map.2 ⟨i, List.mem_range.2 hi, rfl⟩)
  rw [← hu.standing core n alone] at there
  obtain ⟨f, hfm, e⟩ := List.mem_map.1 there
  obtain ⟨⟨e1, -, e3, e4⟩, -⟩ := Furrow.bare_same e
  exact ⟨f, (List.mem_filter.1 hfm).1, e3.trans b1, e1.trans b2, e4.trans b4⟩

end Place

/-! ### Placement (R399, R400) -/

section FieldPlace
variable {s : State} {part : Nat}

theorem State.nextPlaced_one {fl : Field} {core : Nat}
    (hb : bestBy s.waitsBefore ((s.waitingFields part).filter (fun f => (s.coresFor f).isSome)) = some fl) (hc : s.coresFor fl = some [core])
    (ht : fl.tsize = 0) : s.nextPlaced part = [(fl, core)] := by
  unfold State.nextPlaced State.terraceOf
  simp only [hb, hc, ht, if_true]
  rfl

theorem State.nextPlaced_none (h : ∀ f ∈ s.waitingFields part, s.coresFor f = none) : s.nextPlaced part = [] := by
  unfold State.nextPlaced
  rw [List.filter_eq_nil_iff.2 (fun f hf => by simp [h f hf])]
  rfl

/-- What the base die does with sectors whose homes lack tokens waits for them (R372). -/
theorem State.whenRead_lacking {i : Instr} {secs : List Nat} {k : State → State} (h : s.baseLacking secs ≠ []) :
    s.whenRead i secs k = (s.baseLacking secs).foldl State.requestBase { s with deferred := s.deferred ++ [(i, secs)] } := by
  unfold State.whenRead
  exact if_neg (by simpa using h)

/-- It happens at once where none is lacking. -/
theorem State.whenRead_held {i : Instr} {secs : List Nat} {k : State → State} (h : s.baseLacking secs = []) :
    s.whenRead i secs k = k (secs.foldl State.baseReadDone s) := by
  unfold State.whenRead
  simp only [h, List.isEmpty_nil, if_true]

/-- A waiting field that is placed is started on its core, and its scheme evaluated. -/
theorem State.place_one {r : State} {fl : Field} {core : Nat} (hp : fl.status = .waiting) (hf : r.field? fl.id = some fl)
    (he : r.eligible fl core = true) :
    ((r.putField fl core).evaluate fl.scheme).field? fl.id = some (r.placed fl core)
      ∧ ∀ i, i < fl.fcount → ∃ f ∈ ((r.putField fl core).evaluate fl.scheme).furrows, f.field = fl.id ∧ f.core = core ∧ f.ix = i := by
  have put : r.putField fl core = r.startField fl.id core := if_neg (by rw [hp]; decide)
  obtain ⟨hfield, hfurrows⟩ := State.startField_resident hf he
  have opens := (r.startField fl.id core).evaluate_opens fl.scheme
  obtain ⟨l, hl⟩ := opens.fields
  rw [put]
  refine ⟨?_, fun i hi => ?_⟩
  · rw [State.field?, hl, List.find?_append, show (r.startField fl.id core).fields.find? _ = some _ from hfield]
    rfl
  · rw [opens.furrows]
    exact hfurrows i hi

end FieldPlace

/-! ### Victims (R402, R404) -/

theorem State.collect_field? (s : State) (ids : List Nat) {f : Field} (hf : s.field? f.id = some f) :
    (s.collect ids).field? f.id = some (if f.status = .resident ∧ f.id ∈ ids then { f with status := .collecting, collection := s.nextId } else f) := by
  have look := find?_map_key (fun x : Field => x.id == f.id)
    (fun x => if ids.contains x.id ∧ x.status = .resident then { x with status := .collecting, collection := s.nextId } else x)
    (fun x => by split <;> rfl) s.fields
  refine look.trans ?_
  rw [show s.fields.find? _ = some f from hf, Option.map_some]
  simp only [List.contains_iff_mem, and_comm]

/-! ### Saving (R404 to R412) -/

/-- State t is s with some furrows' groups changed. -/
structure Regrouped (s t : State) : Prop where
  fields : t.fields = s.fields
  furrows : ∃ k : Furrow → Furrow, (∀ f, (k f).bare = f.bare) ∧ t.furrows = s.furrows.map k

theorem Regrouped.refl (s : State) : Regrouped s s := ⟨rfl, id, fun _ => rfl, (List.map_id _).symm⟩

/-- A furrow looked up after its groups have changed. -/
theorem Regrouped.look {s t : State} (h : Regrouped s t) {c n : Nat} {f : Furrow} (hf : s.furrow? c n = some f) :
    ∃ v, t.furrow? c n = some v ∧ v.bare = f.bare := by
  obtain ⟨k, hk, e⟩ := h.furrows
  refine ⟨k f, ?_, hk f⟩
  have place : ∀ f, (k f).core = f.core ∧ (k f).slot = f.slot := fun f => by
    obtain ⟨⟨h1, h2, -⟩, -⟩ := Furrow.bare_same (hk f)
    exact ⟨h1, h2⟩
  have := s.furrow?_map k place c n
  rw [hf] at this
  rw [State.furrow?, e]
  exact this

theorem Regrouped.atFence {s t : State} (h : Regrouped s t) (c n : Nat) : Regrouped s (t.onFurrow c n Furrow.atFence) := by
  obtain ⟨k, hk, e⟩ := h.furrows
  refine ⟨h.fields, fun f => if (k f).core == c && (k f).slot == n then (k f).atFence else k f, fun f => ?_, ?_⟩
  · dsimp only
    split <;> exact hk f
  · rw [State.onFurrow, e, List.map_map]
    rfl

/-- Furrows with no step due and no fence ahead are at their boundaries but for the fences that they wait for (R148, R340). -/
theorem State.settleFurrows_regrouped {s : State} {core : Nat} {slots : List Nat}
    (h : ∀ n ∈ slots, ∃ f, s.furrow? core n = some f ∧ f.spec = none ∧ f.step = none) : Regrouped s (s.settleFurrows core slots) := by
  refine List.foldlRecOn slots _ (Regrouped.refl s) (fun t ht n hn => ?_)
  obtain ⟨f, hf, hspec, hstep⟩ := h n hn
  obtain ⟨v, hv, e⟩ := ht.look hf
  obtain ⟨-, e1, e2, -⟩ := Furrow.bare_same e
  have stay : (if (t.furrow? core n).any (fun f => f.step.any (fun t => t.2.2)) then t.takeStep core n else t) = t :=
    if_neg (by rw [hv, Option.any_some, e2, hstep]; exact Bool.false_ne_true)
  dsimp only
  rw [stay, State.abandonSpec_none hv (e1.trans hspec)]
  exact ht.atFence core n

/-- A furrow's image keeps its index and registers. -/
theorem Furrow.atRest_keeps (f : Furrow) : f.atRest.ix = f.ix ∧ f.atRest.w = f.w ∧ f.atRest.p = f.p ∧ f.atRest.h = f.h := by
  obtain ⟨a, b, c, hf⟩ : ∃ a b c, f.groups.foldl (fun (f : Furrow) g => f.closeInst g.inst) f = { f with clauses := a, counts := b, flags := c } :=
    ⟨_, _, _, closeInsts_flags _ f⟩
  unfold Furrow.atRest
  rw [hf]
  exact ⟨rfl, rfl, rfl, rfl⟩

section Collect
variable {s : State} {fl : Field}

/-- A collection that is not due changes nothing. -/
theorem exec_preemptCollectComplete_idle (hf : s.field? fl.id = some fl)
    (h : fl.status ≠ .collecting ∨ (∀ f ∈ s.furrows, f.field ≠ fl.id) ∨ s.acknowledged fl.collection = false) :
    exec (.preemptCollectComplete fl.id) s = .next s := by
  simp only [exec_preemptCollectComplete, execPreemptCollectComplete, hf]
  refine congrArg _ (if_pos ?_)
  rcases h with h | h | h
  · exact .inl h
  · exact .inr (.inl (by rw [List.filter_eq_nil_iff.2 (fun f hm => by simpa using h f hm)]; rfl))
  · exact .inr (.inr (by rw [h]; rfl))

/-- A field saved with the furrows that it has now (R404, R412). -/
def Field.savedAs (fl : Field) (now : List Furrow) : Field :=
  { fl with status := .saved, placedAt := 0, saved := now.map Furrow.atRest, area := fl.areaBytes }

/-- The package without a field's furrows, the field saved with them and its commands rewound (R404). -/
def State.taken (s : State) (fl : Field) : State :=
  let now := s.furrows.filter (fun f => f.field == fl.id)
  { s.onField fl.id (fun _ => fl.savedAs now) with
    furrows := s.furrows.filter (fun f => f.field != fl.id),
    commands := s.commands.map (fun (c : Command) => if c.field == fl.id then rewind now c else c) }

/-- One that is due settles the field's furrows and takes them off; the rest is behind the furrows. -/
theorem exec_preemptCollectComplete_due (hf : s.field? fl.id = some fl)
    (hdue : ¬(fl.status ≠ .collecting ∨ (s.furrows.filter (fun f => f.field == fl.id)).isEmpty = true ∨ (!s.acknowledged fl.collection) = true)) :
    ∃ t, exec (.preemptCollectComplete fl.id) s = .next t
      ∧ Backstage ((s.settleFurrows fl.core ((s.furrows.filter (fun f => f.field == fl.id)).map Furrow.slot)).taken fl) t := by
  simp only [exec_preemptCollectComplete, execPreemptCollectComplete, hf]
  refine ⟨_, congrArg _ (if_neg hdue), ?_⟩
  refine .trans ?_ (backstage_storeCounters _ _ _)
  refine .trans ?_ (backstage_writeImage _ _ _)
  refine .trans ?_ (.foldl (fun t q => backstage_purgedHandout t fl.core q) _ _)
  exact .of_eq rfl rfl rfl

/-- One that is due saves the field with its furrows' registers, and takes them off their core. -/
theorem exec_preemptCollectComplete_saved (hf : s.field? fl.id = some fl) (hst : fl.status = .collecting) (hsome : ∃ f ∈ s.furrows, f.field = fl.id)
    (hmine : ∀ f ∈ s.furrows, f.field = fl.id → f.spec = none ∧ f.step = none ∧ s.furrow? fl.core f.slot = some f)
    (hack : s.acknowledged fl.collection = true) :
    ∃ t fl', exec (.preemptCollectComplete fl.id) s = .next t ∧ t.field? fl.id = some fl' ∧ fl'.status = .saved
      ∧ (∀ f ∈ t.furrows, f.field ≠ fl.id)
      ∧ ∀ f ∈ s.furrows, f.field = fl.id → ∃ g ∈ fl'.saved, g.ix = f.ix ∧ g.w = f.w ∧ g.p = f.p ∧ g.h = f.h := by
  have mine : ∀ {f}, f ∈ s.furrows.filter (fun f => f.field == fl.id) ↔ f ∈ s.furrows ∧ f.field = fl.id := fun {f} => by
    rw [List.mem_filter, beq_iff_eq]
  have settled := State.settleFurrows_regrouped (s := s) (core := fl.core) (slots := (s.furrows.filter (fun f => f.field == fl.id)).map Furrow.slot)
    (fun n hn => by
      obtain ⟨f, hm, rfl⟩ := List.mem_map.1 hn
      obtain ⟨h1, h2⟩ := mine.1 hm
      obtain ⟨h3, h4, h5⟩ := hmine f h1 h2
      exact ⟨f, h5, h3, h4⟩)
  have hdue : ¬(fl.status ≠ .collecting ∨ (s.furrows.filter (fun f => f.field == fl.id)).isEmpty = true ∨ (!s.acknowledged fl.collection) = true) := by
    obtain ⟨f, h1, h2⟩ := hsome
    rintro (h | h | h)
    · exact h hst
    · exact List.ne_nil_of_mem (mine.2 ⟨h1, h2⟩) (List.isEmpty_iff.1 h)
    · rw [hack] at h
      cases h
  obtain ⟨t, ht, behind⟩ := exec_preemptCollectComplete_due hf hdue
  generalize s.settleFurrows fl.core ((s.furrows.filter (fun f => f.field == fl.id)).map Furrow.slot) = s1 at settled behind
  refine ⟨t, _, ht, State.field?_replaced (new := fl.savedAs (s1.furrows.filter (fun f => f.field == fl.id))) hf rfl ?_, rfl, fun f hft => ?_,
    fun f h1 h2 => ?_⟩
  · rw [behind.fields, ← settled.fields]
    rfl
  · obtain ⟨g, hg, e⟩ := behind.origin f hft
    have := (List.mem_filter.1 hg).2
    rw [← e]
    simpa using this
  · obtain ⟨k, hk, e⟩ := settled.furrows
    obtain ⟨⟨-, -, e3, e4⟩, -, -, e5, e6, e7⟩ := Furrow.bare_same (hk f)
    obtain ⟨r1, r2, r3, r4⟩ := (k f).atRest_keeps
    refine ⟨(k f).atRest, List.mem_map_of_mem ?_, r1.trans e4, r2.trans e5, r3.trans e6, r4.trans e7⟩
    rw [e]
    exact List.mem_filter.2 ⟨List.mem_map_of_mem h1, by rw [e3, h2, beq_self_eq_true]⟩

end Collect

/-- Settles O48: a placement starts the one field on the eligible core, a request marks the victims, and a collection that is due takes the field's furrows
off; what the base die then writes is behind the furrows (`Backstage`). -/
theorem placementAndPreemption : Obligations.PlacementAndPreemption := by
  intro s part
  dsimp only
  refine ⟨fun hl => ?_, fun fl core hl hb hc ht hw hf => ?_, fun hn => ?_, fun fl vs hidle hb hv => ?_, fun hbusy => ?_, fun fl hf =>
    ⟨fun hst hsome hmine hack => exec_preemptCollectComplete_saved hf hst hsome hmine hack, exec_preemptCollectComplete_idle hf⟩⟩
  · rw [exec_fieldPlace, execFieldPlace, State.whenRead_lacking hl]
  · obtain ⟨h1, h2⟩ := State.place_one hw hf (State.eligible_of_coresFor hc ht)
    refine ⟨_, _, ?_, h1, rfl, rfl, rfl, rfl, rfl, h2⟩
    rw [exec_fieldPlace, execFieldPlace, State.whenRead_held hl, State.nextPlaced_one hb hc ht]
    rfl
  · rw [exec_fieldPlace, execFieldPlace, State.nextPlaced_none hn]
    refine congrArg _ ((State.whenRead_held rfl).trans ?_)
    change (match s.nextPlaced part with | [] => s | (fl, c) :: xs => _) = s
    rw [State.nextPlaced_none hn]
  · have hno : s.fields.any (fun f => f.status == .collecting && s.partOf f.ctx == part) = false :=
      List.any_eq_false.2 (fun f hm => by
        have := hidle f hm
        simpa using this)
    refine ⟨s.collect (vs.map Field.id), ?_, rfl, fun f hf => s.collect_field? (vs.map Field.id) hf⟩
    simp only [exec_preemptRequest, execPreemptRequest, hno, hb, hv]
    rfl
  · obtain ⟨f, hm, hst, hpart⟩ := hbusy
    have hyes : s.fields.any (fun f => f.status == .collecting && s.partOf f.ctx == part) = true :=
      List.any_eq_true.2 ⟨f, hm, by simp [hst, hpart]⟩
    simp only [exec_preemptRequest, execPreemptRequest, hyes, if_true]

end Sys2Proof.Machine
end

section
/-! O5: what a register reads after a write, at every level, and the elements of a lane put together. -/
namespace Sys2Proof.Machine

/-! ### Uniform and predicate registers (R65, R67, R314) -/

/-- The furrow at another level. -/
def Furrow.atLevel (f : Furrow) (b : Nat) : Furrow := { f with level := b }

theorem Furrow.atLevel_self (f : Furrow) : f.atLevel f.level = f := rfl

/-- What a `w` register reads at level b after a write at the furrow's own level: registers below 56 are the same at all levels, the others are those of
the level's bank. -/
theorem readW_writeW_atLevel (f : Furrow) (n k : Fin 64) (x : W64) (b : Nat) :
    ((f.writeW n.val x).atLevel b).readW k.val =
      if n = k ∧ n ≠ 0 ∧ (n.val < 56 ∨ f.level % 4 = b % 4) then x else (f.atLevel b).readW k.val := by
  have hn : n.val % 64 = n.val := Nat.mod_eq_of_lt n.isLt
  have hk : k.val % 64 = k.val := Nat.mod_eq_of_lt k.isLt
  have hz : n = 0 ↔ n.val = 0 := Fin.ext_iff
  simp only [Furrow.writeW, Furrow.readW, Furrow.atLevel, hn, hk, ne_eq, hz, Fin.ext_iff]
  by_cases h0 : n.val = 0
  · simp [h0]
  by_cases hlow : n.val < 56
  · simp only [h0, hlow, if_true, if_false, Fin.getElem_fin, Vector.getElem_set, Fin.ofNat]
    by_cases k0 : k.val = 0
    · simp [k0, h0]
    by_cases klow : k.val < 56
    · simp only [k0, klow, if_true, if_false, Nat.mod_eq_of_lt hlow, Nat.mod_eq_of_lt klow]
      simp
    · have : n.val ≠ k.val := by omega
      simp [k0, klow, this]
  · simp only [h0, hlow, if_false, Fin.getElem_fin, Vector.getElem_set, Fin.ofNat]
    by_cases k0 : k.val = 0
    · simp [k0, h0]
    by_cases klow : k.val < 56
    · have : n.val ≠ k.val := by omega
      simp [k0, klow, this]
    · have e : (n.val - 56) % 8 = (k.val - 56) % 8 ↔ n.val = k.val := by omega
      simp only [k0, klow, if_false]
      by_cases hb : f.level % 4 = b % 4
      · simp [hb, Vector.getElem_set, e]
      · simp [hb]

theorem readW_writeW (f : Furrow) (n k : Fin 64) (x : W64) :
    (f.writeW n.val x).readW k.val = if n = k ∧ n ≠ 0 then x else f.readW k.val := by
  have hl : (f.writeW n.val x).level = f.level := (sameRun_writeW f n.val x).level
  have h : (f.writeW n.val x).readW k.val = _ := readW_writeW_atLevel f n k x (f.writeW n.val x).level
  rw [h, hl, f.atLevel_self]
  simp

/-- What a lane of a predicate register reads at level b after a write of some lanes at the furrow's own level. -/
theorem readP_writeP_atLevel (f : Furrow) (n k : Fin 8) (m x : Mask) (b : Nat) {i : Nat} (hi : i < 32) :
    inMask (((f.writeP n.val m x).atLevel b).readP k.val) i =
      if n = k ∧ n ≠ 7 ∧ (n.val < 6 ∨ f.level % 4 = b % 4) ∧ inMask m i then inMask x i else inMask ((f.atLevel b).readP k.val) i := by
  have hn : n.val % 8 = n.val := Nat.mod_eq_of_lt n.isLt
  have hk : k.val % 8 = k.val := Nat.mod_eq_of_lt k.isLt
  have h7 : n = 7 ↔ n.val = 7 := Fin.ext_iff
  have merged : ∀ y : Mask, inMask ((y &&& ~~~m) ||| (x &&& m)) i = if inMask m i then inMask x i else inMask y i := fun y => by
    rw [inMask_or, inMask_and, inMask_and, inMask_not _ hi]
    cases inMask m i <;> simp
  simp only [Furrow.writeP, Furrow.atLevel, ne_eq, h7, Fin.ext_iff, hn]
  by_cases n7 : n.val = 7
  · simp [n7]
  by_cases n6 : n.val = 6
  · simp only [n6, if_true, Furrow.readP, hk, Fin.getElem_fin, Fin.ofNat]
    by_cases k6 : k.val = 6
    · by_cases hb : f.level % 4 = b % 4
      · simp [k6, hb, merged]
      · simp [k6, hb]
    · by_cases k7 : k.val = 7
      · simp [k7]
      · simp [k6, k7, Ne.symm k6]
  · have nlow : n.val < 6 := by omega
    simp only [n7, n6, nlow, if_false, Furrow.readP, hn, hk, Fin.getElem_fin, Vector.getElem_set, Fin.ofNat]
    by_cases k7 : k.val = 7
    · simp [k7, n7]
    by_cases k6 : k.val = 6
    · simp [k6, n6]
    · have klow : k.val < 6 := by omega
      simp only [k7, k6, if_false, Nat.mod_eq_of_lt nlow, Nat.mod_eq_of_lt klow]
      by_cases hnk : n.val = k.val
      · simp [hnk, merged]
      · simp [hnk]

theorem readP_writeP (f : Furrow) (n k : Fin 8) (m x : Mask) {i : Nat} (hi : i < 32) :
    inMask ((f.writeP n.val m x).readP k.val) i = if n = k ∧ n ≠ 7 ∧ inMask m i then inMask x i else inMask (f.readP k.val) i := by
  have hl : (f.writeP n.val m x).level = f.level := (sameRun_writeP f n.val m x).level
  have h : inMask ((f.writeP n.val m x).readP k.val) i = _ := readP_writeP_atLevel f n k m x (f.writeP n.val m x).level hi
  rw [h, hl, f.atLevel_self]
  simp

/-! ### Vector registers, lane by lane (R68, R211) -/

/-- Bit j of a register whose lanes up to n are put together. -/
theorem getLsbD_lanesFold (x : Nat → W32) (n j : Nat) :
    ((List.range n).foldl (fun r i => r ||| ((x i).setWidth 1024 <<< (32 * i))) (0 : VReg)).getLsbD j =
      (decide (j < 1024) && decide (j < 32 * n) && (x (j / 32)).getLsbD (j % 32)) := by
  induction n with
  | zero => simp
  | succ n ih =>
    rw [List.range_succ, List.foldl_append, List.foldl_cons, List.foldl_nil, BitVec.getLsbD_or, ih]
    by_cases hj : j < 1024
    · by_cases hlow : j < 32 * n
      · simp [hj, hlow, show j < 32 * (n + 1) by omega]
      · by_cases hin : j < 32 * (n + 1)
        · have e : j / 32 = n ∧ j % 32 = j - 32 * n := by omega
          simp [hj, hlow, hin, e]
        · simp [hj, hlow, hin, BitVec.getLsbD_of_ge _ _ (show 32 ≤ j - 32 * n by omega)]
    · simp [hj]

theorem laneV_vOfLanes (x : Nat → W32) {i : Nat} (hi : i < 32) : laneV (vOfLanes x) i = x i := by
  refine BitVec.eq_of_getLsbD_eq (fun j hj => ?_)
  rw [laneV, BitVec.getLsbD_extractLsb', vOfLanes, getLsbD_lanesFold]
  have e : (32 * i + j) / 32 = i ∧ (32 * i + j) % 32 = j := by omega
  simp [e, hj, show 32 * i + j < 1024 by omega]

theorem laneV_mergeV (old : VReg) (m : Mask) (x : Nat → W32) {i : Nat} (hi : i < 32) :
    laneV (mergeV old m x) i = if inMask m i then x i else laneV old i := laneV_vOfLanes _ hi

theorem laneOf_writeV (f : Furrow) {d n : Nat} (hd : d < 128) (hn : n < 128) (m : Mask) (x : Nat → W32) {i : Nat} (hi : i < 32) :
    (f.writeV d m x).laneOf n i = if n = d ∧ inMask m i then x i else f.laneOf n i := by
  by_cases h : n = d
  · subst h
    simp [Furrow.laneOf, Furrow.writeV, Furrow.readV, laneV_mergeV _ m x hi]
  · simp [Furrow.laneOf, Furrow.writeV, Furrow.readV, Nat.mod_eq_of_lt hd, Nat.mod_eq_of_lt hn, h, Ne.symm h]

theorem laneOf_writePair (f : Furrow) {d n : Nat} (hd : d < 127) (hn : n < 128) (m : Mask) (x : Nat → W64) {i : Nat} (hi : i < 32) :
    (f.writePair d m x).laneOf n i =
      if inMask m i ∧ n = d then (x i).extractLsb' 0 32 else if inMask m i ∧ n = d + 1 then (x i).extractLsb' 32 32 else f.laneOf n i := by
  have low : (x i).setWidth 32 = (x i).extractLsb' 0 32 := BitVec.eq_of_getLsbD_eq (fun j hj => by simp [hj])
  have high : (x i >>> 32).setWidth 32 = (x i).extractLsb' 32 32 := BitVec.eq_of_getLsbD_eq (fun j hj => by simp [hj])
  rw [Furrow.writePair, laneOf_writeV _ (by omega) hn m _ hi, laneOf_writeV f (by omega) hn m _ hi, low, high]
  by_cases h1 : n = d
  · simp [h1]
  · simp [h1, and_comm]

/-! ### Elements put together (R209) -/

/-- The first n results side by side, each in w bits, with the flags of all of them. -/
def packedElems (w : Nat) (r : Nat → Nat × Nat) (n : Nat) : Nat × Nat :=
  (List.range n).foldl (fun a k => (a.1 + (r k).1 * 2 ^ (w * k), a.2 ||| (r k).2)) (0, 0)

theorem lanePack_eq (t : Ty) (r : Nat → Nat × Nat) : lanePack t r = packedElems t.width r (perLane t) := rfl

theorem packedElems_succ (w : Nat) (r : Nat → Nat × Nat) (n : Nat) :
    (packedElems w r (n + 1)).1 = (packedElems w r n).1 + (r n).1 * 2 ^ (w * n) := by
  rw [packedElems, List.range_succ, List.foldl_append]
  rfl

/-- Results of w bits are the digits of the whole. -/
theorem packedElems_digits {w : Nat} {r : Nat → Nat × Nat} (hr : ∀ j, (r j).1 < 2 ^ w) (n : Nat) :
    (packedElems w r n).1 < 2 ^ (w * n) ∧ ∀ k, k < n → bitsOf (packedElems w r n).1 (w * k) w = (r k).1 := by
  induction n with
  | zero => exact ⟨by simp [packedElems], fun k hk => by omega⟩
  | succ n ih =>
    obtain ⟨hlt, hk⟩ := ih
    rw [packedElems_succ]
    generalize (packedElems w r n).1 = a at hlt hk ⊢
    refine ⟨?_, fun k hkn => ?_⟩
    · calc a + (r n).1 * 2 ^ (w * n) < 2 ^ (w * n) + (r n).1 * 2 ^ (w * n) := by omega
        _ = ((r n).1 + 1) * 2 ^ (w * n) := by ring
        _ ≤ 2 ^ w * 2 ^ (w * n) := Nat.mul_le_mul_right _ (hr n)
        _ = 2 ^ (w * (n + 1)) := by ring
    · rw [bitsOf, Nat.shiftRight_eq_div_pow]
      by_cases h : k = n
      · subst h
        rw [Nat.add_mul_div_right _ _ (Nat.two_pow_pos _), Nat.div_eq_of_lt hlt, Nat.zero_add, Nat.mod_eq_of_lt (hr k)]
      · have hk' : k < n := by omega
        have e : (r n).1 * 2 ^ (w * n) = 2 ^ (w * k) * (2 ^ w * ((r n).1 * 2 ^ (w * (n - k - 1)))) := by
          have : w * n = w * k + (w + w * (n - k - 1)) := by
            obtain ⟨d, rfl⟩ : ∃ d, n = k + 1 + d := ⟨n - k - 1, by omega⟩
            rw [show k + 1 + d - k - 1 = d by omega]
            ring
          rw [this, pow_add, pow_add]
          ring
        have hk := hk k hk'
        rw [bitsOf, Nat.shiftRight_eq_div_pow] at hk
        rw [e, Nat.add_mul_div_left _ _ (Nat.two_pow_pos _), Nat.add_mul_mod_self_left, hk]

/-- Settles O5: the two sides of each bank by `readW_writeW_atLevel` and `readP_writeP_atLevel`, lanes by `laneOf_writeV`, elements by their digits. -/
theorem registerFiles : Obligations.RegisterFiles := by
  unfold Obligations.RegisterFiles
  refine ⟨⟨fun f => ⟨rfl, rfl⟩, readW_writeW, fun f n k m x i hi => readP_writeP f n k m x hi, fun f n k a b x => ?_, fun f n k a b m x i => ?_⟩,
    ⟨fun f d n m x i hi => ?_, fun f d n m x i hi hd hn => laneOf_writePair f hd hn m x hi⟩, fun t r k _ hk hr => (packedElems_digits hr _).2 k hk⟩
  · intro at_ hab
    refine (readW_writeW_atLevel (f.atLevel a.val) n k x b.val).trans ?_
    have : ¬ (a.val % 4 = b.val % 4) := by omega
    simp [Furrow.atLevel, at_, this]
  · intro at_ hab hi
    refine (readP_writeP_atLevel (f.atLevel a.val) n k m x b.val hi).trans ?_
    have : ¬ (a.val % 4 = b.val % 4) := by omega
    have h7 : n.val < 6 → n ≠ 7 := fun h e => by subst e; simp at h
    simp only [Furrow.atLevel, at_, this, or_false]
    congr 1
    simp only [eq_iff_iff]
    tauto
  · simp only [laneOf_writeV f d.isLt n.isLt m x hi, Fin.ext_iff]

end Sys2Proof.Machine
end

section
/-! O23: traps that an instruction takes before its effect. -/
namespace Sys2Proof.Machine

/-! ### What comes before the effect of every instruction (R69, R315) -/

/-- An instruction that names no extended register and is open to every level issues where its group stands. -/
theorem Stands.issues {s : State} {q : Issue} {f : Furrow} {g : Group} {i : Instr} (h : Stands s q f g) (hu : i.usesExtended = false)
    (hp : isPrivileged i = false) : Issues s q f g i :=
  { h with block := fun hx => absurd (hu.symm.trans hx) Bool.false_ne_true, right := fun hx => absurd (hp.symm.trans hx) Bool.false_ne_true }

/-- Every instruction word but a clause header runs behind the tests of `running`. -/
theorem exec_running {i : Instr} (he : i.isEvent = false) (hc : ∀ x, i ≠ .clause x) :
    ∃ k : State → Issue → Furrow → Group → Out, ∀ s, exec i s = running i s (k s) := by
  cases i <;> simp only [Instr.isEvent, reduceCtorEq] at he
  case clause x => exact absurd rfl (hc x)
  all_goals exact ⟨_, fun _ => rfl⟩

/-- Events name no register and are not privileged. -/
theorem tests_of_event {i : Instr} (h : i.isEvent = true) : i.usesExtended = false ∧ isPrivileged i = false := by
  cases i <;> simp only [Instr.isEvent, reduceCtorEq] at h
  all_goals exact ⟨rfl, rfl⟩

/-- An instruction that names an extended register or is privileged runs behind the tests of `running`. -/
theorem exec_running_of_tested {i : Instr} (h : i.usesExtended = true ∨ isPrivileged i = true) :
    ∃ k : State → Issue → Furrow → Group → Out, ∀ s, exec i s = running i s (k s) := by
  refine exec_running (Bool.eq_false_iff.2 (fun he => ?_)) ?_
  · obtain ⟨hu, hp⟩ := tests_of_event he
    simp [hu, hp] at h
  · rintro x rfl
    exact h.elim (fun h => Bool.false_ne_true h) (fun h => Bool.false_ne_true h)

section Tested
variable {s : State} {q : Issue} {f : Furrow} {g : Group} {i : Instr}

/-- An extended register while the block is not held (R69). -/
theorem exec_extended (h : Stands s q f g) (hu : i.usesExtended = true) (hx : f.ext = .none) (ha : g.accessing = false) :
    exec i s = .next (s.trapIssue q (trapAt g.lanes 0x23 0 g.pc)) := by
  obtain ⟨k, hk⟩ := exec_running_of_tested (.inl hu)
  rw [hk, running, issued, h.issue]
  simp only [h.furrow, h.group, h.ahead, hu, hx, ha]
  rfl

/-- A privileged instruction at level 0 (R315). -/
theorem exec_privileged (h : Stands s q f g) (hp : isPrivileged i = true) (hx : i.usesExtended = true → f.ext ≠ .none) (hl : f.level = 0) :
    exec i s = .next (s.trapIssue q (trapAt g.lanes 0x22 0 g.pc)) := by
  obtain ⟨k, hk⟩ := exec_running_of_tested (.inr hp)
  have block : (i.usesExtended && f.ext == .none) = false := by simpa [imp_iff_not_or] using hx
  rw [hk, running, issued, h.issue]
  simp only [h.furrow, h.group, h.ahead, block, hp, hl]
  rfl

/-- An instruction that answers its trap where its group stands takes it, whichever of the tests it fails (as `traps_of_trapIssue` says of those that
pass them). -/
theorem traps_of_stands {r : TrapReq} (h : Stands s q f g) (he : exec i s = .next (s.trapIssue q r)) : Traps s q f i r := by
  have alone : q.second = none → s.trapIssue q r = ({ s with issue := none } : State).enterTrap q.core q.slot r :=
    State.trapIssue_alone (h.issues (i := .nop false) rfl rfl)
  have hf : ({ s with issue := none } : State).furrow? q.core q.slot = some f := h.furrow
  refine ⟨fun n hr => ?_, fun c hc hroute hend h2 hne hin => ?_⟩
  · have ready : TrapReady { s with issue := none } q f r n := ⟨hr.route, hr.lanes, hr.inside, hr.permit, hr.first⟩
    exact ⟨_, he.trans (congrArg _ (alone hr.first)), State.enterTrap_taken hf ready⟩
  · have hn : c.ctx = s.ctxOf f := by simpa using List.find?_some hc
    have fault : s.trapIssue q r = ({ s with issue := none } : State).contextFault q.core q.slot (s.ctxOf f) r.code (s.locOf f) :=
      (alone h2).trans (State.enterTrap_unrouted hf hne hin hc hroute)
    refine ⟨_, he.trans (congrArg _ fault), fun hs => ?_, fun hs => ?_⟩
    · rw [hn]
      exact State.contextFault_ended (s := { s with issue := none }) hc hs hend
    · rw [State.contextFault_service (s := { s with issue := none }) hc hs]
      exact ⟨_, State.furrow?_onFurrow_self hf (fun f => { f with dead := true }) (fun _ => ⟨rfl, rfl⟩), rfl, rfl⟩

/-- The privileged instructions (R315). -/
theorem isPrivileged_of {i : Instr} (h : i.major = 0x1C ∨ (∃ x, i = .tret x) ∨ (∃ c, i = .fend c) ∨ (∃ x, i = .cend x) ∨ (∃ x, i = .dhalt x)) :
    isPrivileged i = true := by
  obtain h | ⟨x, rfl⟩ | ⟨x, rfl⟩ | ⟨x, rfl⟩ | ⟨x, rfl⟩ := h
  · unfold isPrivileged
    split <;> simp [h]
  all_goals rfl

/-! ### Traps of the instruction itself -/

/-- A call with a full stack (R189). -/
theorem exec_call_full {x : SB} {bad : Mask} (h : Issues s q f g (.call x))
    (he : bad = f.activeSet (.call x) g &&& maskOf (fun l => decide (16 ≤ (laneAt f.lanes l).depthAt f.level))) (hb : bad ≠ 0) :
    exec (.call x) s = .next (s.trapIssue q (trapAt bad 0x24 0 g.pc)) := by
  subst he
  rw [exec_call, execCall, running_issues h]
  exact if_pos hb

/-- A return at the floor of its trap (R189, R328). -/
theorem exec_ret_floor {x : SCg} {bad : Mask} (h : Issues s q f g (.ret x))
    (he : bad = f.activeSet (.ret x) g &&& maskOf (fun l => decide ((laneAt f.lanes l).depthAt f.level ≤ f.floorOf l))) (hb : bad ≠ 0) :
    exec (.ret x) s = .next (s.trapIssue q (trapAt bad 0x24 0 g.pc)) := by
  subst he
  rw [exec_ret, execRet, running_issues h]
  exact if_pos hb

/-- A computed target past the code (R190). -/
theorem withTarget_past {wa : Fin 64} {k : Issue → Furrow → Group → Nat → Out} (h : Issues s q f g i) (hm : f.activeSet i g ≠ 0)
    (hp : (s.codeOf f).2 ≤ (f.readW wa.val).toNat) : withTarget i wa s k = .next (s.trapIssue q (trapAt (f.activeSet i g) 0x20 0 g.pc)) := by
  rw [withTarget, running_issues h]
  exact if_pos ⟨hm, hp⟩

/-- `exit` above level 0 (R190). -/
theorem exec_exit_above {x : SCg} (h : Issues s q f g (.exit x)) (hm : f.activeSet (.exit x) g ≠ 0) (hl : f.level ≠ 0) :
    exec (.exit x) s = .next (s.trapIssue q (trapAt (f.activeSet (.exit x) g) 0x20 0 g.pc)) := by
  rw [exec_exit, execExit, running_issues h]
  exact (if_neg hm).trans (if_pos hl)

/-- A read of a system register that does not exist, or that the level may not read (R198). -/
theorem exec_srr_denied {x : SR} {c : Nat} (h : Issues s q f g (.srr x))
    (hc : (sysRights x.srn.toNat = none ∧ c = 0x20) ∨ ∃ t, sysRights x.srn.toNat = some t ∧ rightAt t f.level = .none ∧ c = 0x22) :
    exec (.srr x) s = .next (s.trapIssue q (trapAt g.lanes c 0 g.pc)) := by
  rw [exec_srr, execSrr, running_issues h]
  obtain ⟨hn, rfl⟩ | ⟨t, ht, hr, rfl⟩ := hc
  · rw [hn]
    rfl
  · rw [ht]
    exact if_pos hr

/-- A write of one that does not exist, or that the level may not write (R198). -/
theorem exec_srw_denied {x : SR} {c : Nat} (h : Issues s q f g (.srw x))
    (hc : (sysRights x.srn.toNat = none ∧ c = 0x20) ∨ ∃ t, sysRights x.srn.toNat = some t ∧ writeCause t f.level = some c) :
    exec (.srw x) s = .next (s.trapIssue q (trapAt g.lanes c 0 g.pc)) := by
  rw [exec_srw, execSrw, running_issues h]
  obtain ⟨hn, rfl⟩ | ⟨t, ht, hw⟩ := hc
  · rw [hn]
    rfl
  · simp only [ht, hw]
    rfl

end Tested

/-- Settles O23: the tests that every instruction runs behind, then each instruction's own. -/
theorem instructionTraps : Obligations.InstructionTraps := by
  intro s q f g h
  have srr : ∀ x, Issues s q f g (.srr x) := fun x => h.issues rfl rfl
  have srw : ∀ x, Issues s q f g (.srw x) := fun x => h.issues rfl rfl
  dsimp only
  refine ⟨fun i hu hx ha => traps_of_stands h (exec_extended h hu hx ha),
    fun i hp hx hl => traps_of_stands h (exec_privileged h (isPrivileged_of hp) hx hl),
    fun x hb => traps_of_stands h (exec_call_full (h.issues rfl rfl) rfl hb),
    fun x hb => traps_of_stands h (exec_ret_floor (h.issues rfl rfl) rfl hb),
    fun x hp => ⟨fun hm => traps_of_stands h ((exec_jmp s x).trans (withTarget_past (h.issues rfl rfl) hm hp)),
      fun hm => traps_of_stands h ((exec_callr s x).trans (withTarget_past (h.issues rfl rfl) hm hp))⟩,
    fun x hm hl => traps_of_stands h (exec_exit_above (h.issues rfl rfl) hm hl),
    fun x hn => ⟨traps_of_stands h (exec_srr_denied (srr x) (.inl ⟨hn, rfl⟩)), traps_of_stands h (exec_srw_denied (srw x) (.inl ⟨hn, rfl⟩))⟩,
    fun x t ht => ⟨fun hr => ⟨traps_of_stands h (exec_srr_denied (srr x) (.inr ⟨t, ht, hr, rfl⟩)),
      traps_of_stands h (exec_srw_denied (srw x) (.inr ⟨t, ht, by rw [writeCause, hr]⟩))⟩,
      fun hr hup => traps_of_stands h (exec_srw_denied (srw x) (.inr ⟨t, ht, ?_⟩)),
      fun hr h1 h2 => traps_of_stands h (exec_srw_denied (srw x) (.inr ⟨t, ht, ?_⟩))⟩⟩
  · rw [writeCause, hr]
    exact if_pos hup
  · rw [writeCause, hr]
    exact if_neg (not_or.2 ⟨h1, h2⟩)

end Sys2Proof.Machine
end

section
/-! O39: the extended block taken and dropped, and translations dropped everywhere. -/
namespace Sys2Proof.Machine

/-- A furrow looked up in a state with the same furrows. -/
theorem State.furrow?_congr {s t : State} (h : t.furrows = s.furrows) (c n : Nat) : t.furrow? c n = s.furrow? c n := by
  rw [State.furrow?, h]
  rfl

section Frames
variable {s u : State} {q : Issue} {f : Furrow} {g : Group} {i : Instr}

/-! ### Instructions that complete after a change of their furrow that is no write of registers -/

/-- An instruction whose effect puts furrow v in its slot, and changes no other furrow of u's, completes with v's registers. -/
theorem does_of_changed {w : State} {v : Furrow} (h : Issues s q f g i) (hv : w.furrow? q.core q.slot = some v) (hg : v.groups = f.groups)
    (hl : v.level = f.level) (hs : v.step = f.step) (he : v.ending = f.ending) (ho : OthersKept u w q)
    (hr : w = { u with furrows := w.furrows, cores := w.cores }) (hx : exec i s = w.skip i q g) : Does s q g i u v := by
  have hgl := (Furrow.group?_some h.group).2.2
  obtain ⟨own, others, rest⟩ := stepOver_own w q g (nextPc g.pc i.words) i.chained hv
    (show v.group? g.lanes = some g by rw [Furrow.group?_congr hg hl, hgl]; exact h.group) (hs.trans h.step) h.alone h.own (he.trans h.lives)
  exact ⟨_, hx, own, fun c n hcn => (others c n hcn).trans (ho c n hcn), by rw [rest, hr]⟩

/-! ### Instructions that wait after an effect on the rest of the state -/

/-- An instruction that waits after a change that furrows do not see. -/
theorem waitsFor_of_waitOn_after {w : Wait} (h : Issues s q f g i) (hf : u.furrows = s.furrows) (hi : u.issue = s.issue) (hm : u.mem = s.mem)
    (hfl : u.fields = s.fields) (hc : u.commands = s.commands) (hx : exec i s = .next (u.waitOn q g w)) : WaitsFor s q f g i w := by
  intro hu
  have look := State.furrow?_congr hf
  have h' : Issues u q f g i := h.of_state hi ((look _ _).trans h.furrow) (SameRun.refl f) rfl
  have hst : (u.furrow? q.core q.slot).any (fun f => f.stepping && f.step.any (fun t => !t.2.2)) = false := by
    rw [h'.furrow]; simp [h.step]
  have hback : u.waitOn q g w = u.standBack q g w id := by
    unfold State.waitOn State.waitWith
    simp only [h.own, hst, Bool.false_eq_true, if_false]
  obtain ⟨k, x, e, hk, hw⟩ := standBack_waits h' hu w
  obtain ⟨f', h', h1, h2, h3, h4, h5, h6⟩ := waits_onFurrow h'.furrow k hk hw x
  exact ⟨_, f', h', hx.trans (congrArg _ (hback.trans e)), h1, h2, h3, h4, h5,
    fun c n hcn => (h6 c n hcn).trans (congrArg (Option.map Furrow.regs) (look c n)), hm, hfl, hc⟩

end Frames

/-! ### The extended block (R69, R71) -/

section Blocks
variable {s : State} {q : Issue} {f : Furrow} {g : Group} {x : LX0}

theorem Furrow.converged_iff (f : Furrow) (i : Instr) (g : Group) : f.converged i g = true ↔ g.lanes = f.running ∧ f.activeSet i g = g.lanes := by
  simp [Furrow.converged]

/-- What an `xacq` with no other waiting before it is granted. -/
theorem State.newAcq_alone (h : s.acqWaiters f.core (quarterOf f.slot) = []) :
    s.newAcq f = if s.rightFree f.field f.core (quarterOf f.slot) then some .right
      else if 144 ≤ s.physFree f.core (quarterOf f.slot) then some (.unreserved s.nextId) else none := by
  simp [State.newAcq, State.decideAcq, h]

/-- A block granted or dropped changes nothing of the run of its furrow but the block. -/
theorem Furrow.grantExt_keeps (f : Furrow) (e : Ext) : (f.grantExt e).core = f.core ∧ (f.grantExt e).slot = f.slot ∧ (f.grantExt e).groups = f.groups
    ∧ (f.grantExt e).level = f.level ∧ (f.grantExt e).step = f.step ∧ (f.grantExt e).ending = f.ending := by
  unfold Furrow.grantExt
  exact ⟨rfl, rfl, rfl, rfl, rfl, rfl⟩

theorem exec_xacq_granted {e : Ext} (h : Issues s q f g (.xacq x)) (hw : f.converged (.xacq x) g = true) (hx : f.ext = .none) (he : s.newAcq f = some e) :
    Does s q g (.xacq x) { s with nextId := s.nextId + 1 } (f.grantExt e) := by
  obtain ⟨hc, hs⟩ := State.furrow?_place h.furrow
  have hf : ({ s with nextId := s.nextId + 1 } : State).furrow? q.core q.slot = some f := (State.furrow?_congr (by rfl) _ _).trans h.furrow
  obtain ⟨own, others⟩ := State.furrow?_onFurrow_at hf (fun u => u.grantExt e)
    (fun v hc hs => ⟨(v.grantExt_keeps e).1.trans hc, (v.grantExt_keeps e).2.1.trans hs⟩)
  obtain ⟨-, -, hg, hl, hst, hend⟩ := f.grantExt_keeps e
  refine does_of_changed h own hg hl hst hend (fun c n hcn => congrArg (Option.map Furrow.regs) (others c n hcn)) rfl ?_
  rw [exec_xacq, execXacq, running_issues h, hw]
  simp only [hx, he, hc, hs]
  rfl

theorem exec_xacq_full (h : Issues s q f g (.xacq x)) (hw : f.converged (.xacq x) g = true) (hx : f.ext = .none) (he : s.newAcq f = none) :
    WaitsFor s q f g (.xacq x) (.xacq s.nextId) := by
  refine waitsFor_of_waitOn_after (u := { s with nextId := s.nextId + 1 }) h rfl rfl rfl rfl rfl ?_
  rw [exec_xacq, execXacq, running_issues h, hw]
  simp only [hx, he]
  rfl

/-- A right passed on goes to a furrow with a block of another kind, so not to one without a block (R71). -/
theorem State.passRight_other {s : State} {c n : Nat} {v : Furrow} (hv : s.furrow? c n = some v) (ho : ∀ w ∈ s.furrows, w.core = c → w.slot = n → w.ext = .none)
    (fd k : Nat) : (s.passRight fd c k).furrow? c n = some v := by
  unfold State.passRight
  dsimp only
  split
  · exact hv
  · split
    · rename_i w hw
      have hm := bestBy_mem hw
      simp only [State.quarterFurrows, List.mem_filter, Bool.and_eq_true, beq_iff_eq] at hm
      obtain ⟨⟨hmem, hc, -⟩, -, hx⟩ := hm
      have hne : c ≠ c ∨ n ≠ w.slot := .inr (fun hn => by rw [ho w hmem hc hn.symm] at hx; cases hx)
      rw [State.furrow?_onFurrow_ne (fun f => { f with ext := .right }) (fun _ => ⟨rfl, rfl⟩) hne]
      exact hv
    · exact hv

theorem exec_xrel_held (h : Issues s q f g (.xrel x)) (hw : f.converged (.xrel x) g = true) (hx : f.ext ≠ .none) :
    Does s q g (.xrel x) (((s.setFurrow f.dropExt).purgeReuse f.core (quarterOf f.slot)).passRight f.field f.core (quarterOf f.slot)) f.dropExt := by
  obtain ⟨hc, hs⟩ := State.furrow?_place h.furrow
  obtain ⟨kc, ks, kg, kl, kst, kend⟩ := f.grantExt_keeps .none
  have own : ((s.setFurrow f.dropExt).purgeReuse f.core (quarterOf f.slot)).furrow? q.core q.slot = some f.dropExt :=
    State.furrow?_setFurrow_self h.furrow (kc.trans hc) (ks.trans hs)
  have free : ∀ w ∈ ((s.setFurrow f.dropExt).purgeReuse f.core (quarterOf f.slot)).furrows, w.core = q.core → w.slot = q.slot → w.ext = .none := by
    intro w hw h1 h2
    obtain ⟨v, -, rfl⟩ := List.mem_map.1 hw
    split at h1
    · rename_i hv
      rw [if_pos hv]
      rfl
    · rename_i hv
      rw [if_neg hv] at h2
      exact absurd (by simp [Furrow.dropExt, kc, ks, h1, h2, hc, hs]) hv
  refine does_of_changed h ?_ kg kl kst kend (fun _ _ _ => rfl) rfl ?_
  · rw [hc] at own free ⊢
    exact State.passRight_other own free _ _
  · rw [exec_xrel, execXrel, running_issues h, hw]
    exact if_neg hx

/-- Registers below 48 stay, the others read 0 (R69). -/
theorem Furrow.readV_grantExt (f : Furrow) (e : Ext) (n : Fin 128) : (f.grantExt e).readV n.val = if n.val < 48 then f.readV n.val else 0 := by
  have hn : Fin.ofNat 128 n.val = n := Fin.ext (Nat.mod_eq_of_lt n.isLt)
  simp only [Furrow.readV, Furrow.grantExt, hn, Fin.getElem_fin, Vector.getElem_ofFn]

end Blocks

/-! ### Translations dropped (R364, R365, R370) -/

section Shootdown

/-- The load entries of a reuse table are doomed. -/
def LoadsDoomed (l : List ReuseEntry) : Prop := ∀ e ∈ l, e.load = true → ∃ a m, e.phase = .doomed a m

/-- A counter raised changes neither TLBs nor reuse tables. -/
theorem Core.onCounters_keeps (c : Core) (n : Nat) (k : Counters → Counters) :
    (c.onCounters n k).tlb = c.tlb ∧ (c.onCounters n k).tlb0 = c.tlb0 ∧ (c.onCounters n k).reuse = c.reuse := by
  unfold Core.onCounters
  split <;> exact ⟨rfl, rfl, rfl⟩

/-- Counters raised change neither TLBs nor reuse tables. -/
theorem Core.foldl_onCounters_keeps (l : List ReuseEntry) (k : Counters → Counters) (c : Core) :
    let d := l.foldl (fun c e => c.onCounters e.ctx k) c
    d.tlb = c.tlb ∧ d.tlb0 = c.tlb0 ∧ d.reuse = c.reuse := by
  induction l generalizing c with
  | nil => exact ⟨rfl, rfl, rfl⟩
  | cons e l ih =>
    obtain ⟨h1, h2, h3⟩ := c.onCounters_keeps e.ctx k
    obtain ⟨i1, i2, i3⟩ := ih (c.onCounters e.ctx k)
    exact ⟨i1.trans h1, i2.trans h2, i3.trans h3⟩

/-- A kill event keeps of the load entries none but doomed ones (R83). -/
theorem loadsDoomed_killed (l : List ReuseEntry) :
    LoadsDoomed (l.filterMap (fun e => if (e.load && true) = true then (match e.phase with
      | .valid => none
      | .filling n m => some { e with phase := .doomed n m }
      | .doomed .. => some e) else some e)) := by
  intro e he hload
  obtain ⟨x, -, hx⟩ := List.mem_filterMap.1 he
  by_cases hl : x.load = true
  · rw [if_pos (by rw [hl]; rfl)] at hx
    cases hp : x.phase with
    | valid => simp [hp] at hx
    | filling n m =>
      simp only [hp, Option.some.injEq] at hx
      exact ⟨n, m, by rw [← hx]⟩
    | doomed n m =>
      simp only [hp, Option.some.injEq] at hx
      exact ⟨n, m, by rw [← hx, hp]⟩
  · rw [if_neg (by simpa using hl)] at hx
    cases hx
    exact absurd hload hl

/-- A kill event in one quarter keeps the TLBs and the tables of the other quarters, and leaves its own without a load entry that is not doomed. -/
theorem Core.killQuarter_keeps (c : Core) (q : Nat) :
    (c.killQuarter q (fun _ => true)).tlb = c.tlb ∧ (c.killQuarter q (fun _ => true)).tlb0 = c.tlb0
      ∧ ∃ left, (c.killQuarter q (fun _ => true)).reuse = c.reuse.set (Fin.ofNat 4 q) left ∧ LoadsDoomed left := by
  obtain ⟨h1, h2, h3⟩ := Core.foldl_onCounters_keeps (c.reuse[Fin.ofNat 4 q].filter (fun e => (e.load && true) && (match e.phase with
    | .doomed .. => false
    | _ => true))) (fun k => { k with kill := k.kill + 1 }) { c with reuse := c.reuse.set (Fin.ofNat 4 q) (c.reuse[Fin.ofNat 4 q].filterMap
      (fun e => if (e.load && true) = true then (match e.phase with
        | .valid => none
        | .filling n m => some { e with phase := .doomed n m }
        | .doomed .. => some e) else some e)) }
  exact ⟨h1, h2, _, h3, loadsDoomed_killed _⟩

/-- A kill event on every load entry of a core (R83). -/
theorem Core.kill_all (c : Core) :
    (c.kill (fun _ => true)).tlb = c.tlb ∧ (c.kill (fun _ => true)).tlb0 = c.tlb0 ∧ ∀ n : Fin 4, LoadsDoomed (c.kill (fun _ => true)).reuse[n] := by
  have four : c.kill (fun _ => true) = (((c.killQuarter 0 (fun _ => true)).killQuarter 1 (fun _ => true)).killQuarter 2 (fun _ => true)).killQuarter 3
      (fun _ => true) := by
    simp only [Core.kill, show List.range 4 = [0, 1, 2, 3] by decide, List.foldl]
  obtain ⟨a0, b0, l0, r0, d0⟩ := c.killQuarter_keeps 0
  obtain ⟨a1, b1, l1, r1, d1⟩ := Core.killQuarter_keeps (c.killQuarter 0 (fun _ => true)) 1
  obtain ⟨a2, b2, l2, r2, d2⟩ := Core.killQuarter_keeps ((c.killQuarter 0 (fun _ => true)).killQuarter 1 (fun _ => true)) 2
  obtain ⟨a3, b3, l3, r3, d3⟩ := Core.killQuarter_keeps (((c.killQuarter 0 (fun _ => true)).killQuarter 1 (fun _ => true)).killQuarter 2 (fun _ => true)) 3
  rw [four]
  refine ⟨a3.trans (a2.trans (a1.trans a0)), b3.trans (b2.trans (b1.trans b0)), fun n => ?_⟩
  rw [r3, r2, r1, r0]
  fin_cases n
  · simpa [Vector.getElem_set] using d0
  · simpa [Vector.getElem_set] using d1
  · simpa [Vector.getElem_set] using d2
  · simpa [Vector.getElem_set] using d3

/-- The cores after a shootdown. -/
theorem State.mem_cores_shootdown {s : State} {t : TlbEntry → Bool} {k : Core} (h : k ∈ (s.shootdown t).cores) :
    ∃ c ∈ s.cores, k = Core.kill { c with tlb := c.tlb.filter (fun e => !t e), tlb0 := Vector.ofFn (fun q : Fin 4 => c.tlb0[q].filter (fun e => !t e)) }
      (fun _ => true) := by
  obtain ⟨d, hd, rfl⟩ := List.mem_map.1 h
  obtain ⟨c, hc, rfl⟩ := List.mem_map.1 hd
  exact ⟨c, hc, if_pos rfl⟩

/-- Translations and loads are gone after a shootdown (R364, R370). -/
theorem State.shootdown_drops (s : State) (t : TlbEntry → Bool) :
    (∀ d : Fin 6, (s.shootdown t).dies[d].tlb = s.dies[d].tlb.filter (fun e => !t e) ∧ (s.shootdown t).dies[d].walks = [])
    ∧ ∀ k ∈ (s.shootdown t).cores, (∀ e ∈ k.tlb, t e = false) ∧ (∀ n : Fin 4, ∀ e ∈ k.tlb0[n], t e = false) ∧ ∀ n : Fin 4, LoadsDoomed k.reuse[n] := by
  refine ⟨fun d => ?_, fun k hk => ?_⟩
  · simp [State.shootdown, State.tlbDrop, State.killLoads]
  · obtain ⟨c, -, rfl⟩ := State.mem_cores_shootdown hk
    obtain ⟨ht, h0, hl⟩ := Core.kill_all { c with tlb := c.tlb.filter (fun e => !t e), tlb0 := Vector.ofFn (fun q : Fin 4 => c.tlb0[q].filter (fun e => !t e)) }
    rw [ht, h0]
    refine ⟨fun e he => by simpa using (List.mem_filter.1 he).2, fun n e he => ?_, hl⟩
    simp only [Fin.getElem_fin, Vector.getElem_ofFn] at he
    simpa using (List.mem_filter.1 he).2

end Shootdown

section Invalidate
variable {s : State} {q : Issue} {f : Furrow} {g : Group} {i : Instr}

theorem Furrow.asidIn_eq (f : Furrow) (a : Fin 64) : f.asidIn a = (f.readW a.val).toNat % 65536 := by
  simp [Furrow.asidIn, bitsOf]

theorem State.ownAsid_iff (s : State) (f : Furrow) (n : Nat) :
    s.ownAsid f n = true ↔ s.isService f = true ∨ f.level = 3 ∨ ∃ c, s.ctx? (s.ctxOf f) = some c ∧ c.tasid.toNat = n := by
  simp [State.ownAsid, or_assoc, Option.any_eq_true]

theorem State.anyAsid_iff (s : State) (f : Furrow) : s.anyAsid f = true ↔ s.isService f = true ∨ f.level = 3 := by
  simp [State.anyAsid]

/-- What `tlbinv` does of the entries t where P says that the context may name them. -/
theorem invalidates {legal : Furrow → Bool} {t : Furrow → TlbEntry → Bool} {P : Prop} (hx : exec i s = tlbInvalidate i s legal t)
    (hP : legal f = true ↔ P) (h : Issues s q f g i) :
    (f.activeSet i g = 0 → Does s q g i s f)
    ∧ (f.activeSet i g ≠ 0 → ¬P → Traps s q f i (trapAt g.lanes 0x22 0 g.pc))
    ∧ (f.activeSet i g ≠ 0 → P → f.storing g.lanes = true → WaitsFor s q f g i .fence)
    ∧ (f.activeSet i g ≠ 0 → P → f.storing g.lanes = false →
        (s.outstanding (t f) = true → WaitsFor s q f g i .fence)
        ∧ (s.outstanding (t f) = false → Does s q g i ((s.shootdown (t f)).fullFence f g.lanes .pkg) f)) := by
  rw [← hP]
  rw [tlbInvalidate, running_issues h] at hx
  refine ⟨fun ha => ?_, fun ha hl => ?_, fun ha hl hst => ?_, fun ha hl hst => ⟨fun ho => ?_, fun ho => ?_⟩⟩
  · exact does_of_skip h rfl h.furrow (SameRun.refl f) rfl rfl (hx.trans (if_pos ha))
  · exact traps_of_trapIssue h ((hx.trans (if_neg ha)).trans (if_pos (by simpa using hl)))
  · refine waitsFor_of_waitOn h ((hx.trans (if_neg ha)).trans ?_)
    simp [hl, hst]
  · refine waitsFor_of_waitOn_after (u := s.shootdown (t f)) h rfl rfl rfl rfl rfl ((hx.trans (if_neg ha)).trans ?_)
    simp [hl, hst, ho]
  · obtain ⟨hc, hs⟩ := State.furrow?_place h.furrow
    obtain ⟨v, hv, hgo⟩ := State.fullFence_own (s := s.shootdown (t f)) (f := f) (by rw [hc, hs]; exact h.furrow) g.lanes
    refine does_of_skip h rfl (by rw [← hc, ← hs]; exact hv) hgo.run hgo.spec hgo.regs ((hx.trans (if_neg ha)).trans ?_)
    simp [hl, hst, ho]

end Invalidate

/-- Settles O39: `xacq` and `xrel` by the state of the block, `tlbinv` by one law of its four forms, and what a shootdown leaves. -/
theorem blocksAndShootdowns : Obligations.BlocksAndShootdowns := by
  refine ⟨fun s q f g x => ?_, fun f e n => ⟨by unfold Furrow.grantExt; rfl, f.readV_grantExt e n, by unfold Furrow.dropExt; rfl⟩, fun s q f g x y z => ?_,
    fun s t => ?_⟩
  · intro whole k
    refine ⟨fun h => ⟨fun hw => ?_, fun hw hx => ?_, fun hw hx ha => ⟨fun hr => ?_, fun hr hp => ?_, fun hr hp => ?_⟩⟩,
      fun h => ⟨fun hw => ?_, fun hw hx => ?_, fun hw hx => exec_xrel_held h ((f.converged_iff _ g).2 hw) hx⟩⟩
    · refine traps_of_trapIssue h ?_
      rw [exec_xacq, execXacq, running_issues h, Bool.eq_false_iff.2 (fun hc => hw ((f.converged_iff _ g).1 hc))]
      rfl
    · refine does_of_skip h rfl h.furrow (SameRun.refl f) rfl rfl ?_
      rw [exec_xacq, execXacq, running_issues h, (f.converged_iff _ g).2 hw]
      exact if_pos hx
    · exact exec_xacq_granted h ((f.converged_iff _ g).2 hw) hx (by rw [State.newAcq_alone ha, if_pos hr])
    · exact exec_xacq_granted h ((f.converged_iff _ g).2 hw) hx (by rw [State.newAcq_alone ha, if_neg (by simpa using hr), if_pos hp])
    · exact exec_xacq_full h ((f.converged_iff _ g).2 hw) hx (by rw [State.newAcq_alone ha, if_neg (by simpa using hr), if_neg (Nat.not_le.2 hp)])
    · refine traps_of_trapIssue h ?_
      rw [exec_xrel, execXrel, running_issues h, Bool.eq_false_iff.2 (fun hc => hw ((f.converged_iff _ g).1 hc))]
      rfl
    · refine does_of_skip h rfl h.furrow (SameRun.refl f) rfl rfl ?_
      rw [exec_xrel, execXrel, running_issues h, (f.converged_iff _ g).2 hw]
      exact if_pos hx
  · intro low own any kills
    refine ⟨fun h => ?_, fun h => ?_, invalidates (exec_tlbinvNong s z) (s.anyAsid_iff f),
      invalidates (exec_tlbinvAll s z) (s.anyAsid_iff f)⟩
    · have := invalidates (P := own x.a) (exec_tlbinvAsid s x) ((s.ownAsid_iff f _).trans (by rw [Furrow.asidIn_eq])) h
      rwa [Furrow.asidIn_eq] at this
    · have := invalidates (P := own y.a) (exec_tlbinvPage s y) ((s.ownAsid_iff f _).trans (by rw [Furrow.asidIn_eq])) h
      rwa [Furrow.asidIn_eq] at this
  · obtain ⟨dies, cores⟩ := s.shootdown_drops t
    exact ⟨dies, fun k hk => cores k hk, rfl, rfl⟩

end Sys2Proof.Machine
end

section
/-! O41: INSTRUCTION_COMPLETE where two furrows stand in one slot. -/
namespace Sys2Proof.Machine

/-- A group whose load of the scratchpad has issued and needs no token. -/
def loadingGroup : Group :=
  { lanes := 1, pc := 0, level := 0, wait := some (.access false 1 [{ lane := 0, ea := 0, off := 0, size := 4, spot := .scratch 0 0 }] []
      (.ld { c := false, d := 4, a := 2, b := .imm 0, c3 := 0, g := 7, am := false, scl := 0, x2 := false, ty := .n32, scope := .thread, vol := false })) }

/-- A furrow with that group. -/
def loadingFurrow : Furrow := { core := 0, slot := 0, field := 0, ix := 0, groups := [loadingGroup] }

/-- A furrow in the same slot with a closed clause that no store holds back. -/
def closedClauseFurrow : Furrow := { core := 0, slot := 0, field := 0, ix := 0, clauses := [(0, true, [])] }

/-- Both in slot 0 of core 0: nothing in the statement excludes it. -/
def sharedSlot : State := { State.reset with furrows := [loadingFurrow, closedClauseFurrow] }

theorem nextAccess_sharedSlot : sharedSlot.nextAccess loadingFurrow = some loadingGroup := by decide +kernel

/-- The event settles the clauses of every furrow of the slot. -/
theorem clauses_instructionComplete_sharedSlot : ∃ t, exec (.instructionComplete 0 0) sharedSlot = .next t ∧ t.furrows.map Furrow.clauses = [[], []] :=
  ⟨_, rfl, by decide +kernel⟩

/-- Refutes O41: its clause on a load that goes on says that the level and the issue register alone change, and no hypothesis says that one furrow
alone stands in the slot. Where a second one does, the event settles that one's closed clause too (R168), so the state differs in its clauses. -/
theorem not_completionEvents : ¬ Obligations.CompletionEvents := by
  intro h
  obtain ⟨-, -, goesOn, -⟩ := h sharedSlot 0 0 loadingFurrow rfl rfl rfl (by decide)
  obtain ⟨t, ht, settled⟩ := clauses_instructionComplete_sharedSlot
  have e := goesOn loadingGroup rfl (by decide) nextAccess_sharedSlot
  rw [ht] at e
  injection e with e
  rw [e] at settled
  exact absurd settled (by decide)

end Sys2Proof.Machine
end

section
/-! O43: what the agents of coherence leave besides the furrows and fields: the count of identifiers, memory, and the TLBs of the dies. -/
namespace Sys2Proof.Machine

/-- What work on tokens leaves alone: the count of identifiers, memory, and the TLBs of the dies. -/
def State.aside (s : State) := (s.nextId, s.mem, s.dies.map Die.tlb)

/-- A fold whose steps keep p keeps it. -/
theorem foldl_keeps {σ α β : Type} (p : σ → β) {k : σ → α → σ} (h : ∀ s x, p (k s x) = p s) (l : List α) (s : σ) : p (l.foldl k s) = p s :=
  List.foldlRecOn (motive := fun t => p t = p s) l k rfl (fun t ht x _ => (h t x).trans ht)

/-- What two states keep of p, a choice of them keeps. -/
theorem ite_keeps {σ β : Type} (p : σ → β) {a b : σ} {x : β} {c : Prop} [Decidable c] (ha : p a = x) (hb : p b = x) : p (if c then a else b) = x := by
  split
  · exact ha
  · exact hb

section Tokens
variable (s : State)

theorem State.aside_setSector (x : Sector) : (s.setSector x).aside = s.aside := rfl

theorem State.aside_onHolder (pa a : Nat) (k : Holder → Holder) : (s.onHolder pa a k).aside = s.aside := rfl

theorem State.aside_send (m : Message) : (s.send m).aside = s.aside := rfl

theorem State.aside_sendTo (dsts : List Nat) (m : Message) : (s.sendTo dsts m).aside = s.aside := foldl_keeps State.aside (fun t _ => t.aside_send _) _ s

theorem State.aside_rollbackReaders (on : Nat → Bool) (pa : Nat) : (s.rollbackReaders on pa).aside = s.aside := by
  refine foldl_keeps State.aside (fun t f => ?_) _ s
  split
  · split
    · rfl
    · rfl
  · rfl

theorem State.aside_dropL1 (on : Nat → Bool) (pa : Nat) : (s.dropL1 on pa).aside = s.aside :=
  State.aside_rollbackReaders _ on pa

theorem State.aside_agentLost (a pa : Nat) (last : Bool) : (s.agentLost a pa last).aside = s.aside := by
  unfold State.agentLost State.tokenLost
  split_ifs
  · exact s.aside_dropL1 _ pa
  · exact State.aside_rollbackReaders _ _ pa
  · rfl

theorem State.aside_giveOne (pa src dst : Nat) : (s.giveOne pa src dst).aside = s.aside := State.aside_agentLost _ src pa false

theorem State.aside_giveAll (pa src dst : Nat) : (s.giveAll pa src dst).aside = s.aside := by
  unfold State.giveAll
  dsimp only
  split
  · rfl
  · exact State.aside_agentLost _ src pa true

theorem State.aside_startHostOp (pa : Nat) (op : HostOp) : (s.startHostOp pa op).aside = s.aside := by
  unfold State.startHostOp
  dsimp only
  split <;> rfl

theorem State.aside_forward (pa a r : Nat) : (s.forward pa a r).aside = s.aside := by
  unfold State.forward
  dsimp only
  split_ifs
  · rfl
  · exact s.aside_startHostOp pa _
  · exact s.aside_startHostOp pa _
  · exact s.aside_giveAll pa a r

theorem State.aside_answer (pa a src : Nat) (write : Bool) : (s.answer pa a src write).aside = s.aside := by
  unfold State.answer
  dsimp only
  split_ifs
  · rfl
  · exact s.aside_forward pa a src
  · rfl
  · exact s.aside_startHostOp pa _
  · exact s.aside_giveOne pa a src
  · exact s.aside_startHostOp pa _
  · exact s.aside_startHostOp pa _
  · exact s.aside_giveAll pa a src

theorem State.aside_accessDone (a pa : Nat) (wr : Bool) : (s.accessDone a pa wr).aside = s.aside := by
  unfold State.accessDone
  dsimp only
  have sent : ∀ (k : Holder → Holder) (b : Bool) (m : Message), (if b then (s.onHolder pa a k).send m else s.onHolder pa a k).aside = s.aside :=
    fun k b m => ite_keeps State.aside rfl rfl
  refine ite_keeps State.aside (sent _ _ _) ?_
  exact (foldl_keeps State.aside (fun t (q : Nat × Bool × Nat) => t.aside_answer _ _ _ _) _ _).trans ((State.aside_onHolder _ _ _ _).trans (sent _ _ _))

theorem State.aside_activateNext (pa : Nat) : (s.activateNext pa).aside = s.aside := by
  unfold State.activateNext
  dsimp only
  split
  · rfl
  · split
    · rfl
    · exact (State.aside_forward _ _ _ _).trans (State.aside_sendTo _ _ _)

theorem State.aside_deactivate (pa a : Nat) : (s.deactivate pa a).aside = s.aside := by
  unfold State.deactivate
  dsimp only
  split
  · rfl
  · exact (foldl_keeps State.aside (fun t (y : Sector) => t.aside_activateNext y.pa) _ _).trans (State.aside_sendTo _ _ _)

theorem State.aside_addPending (pa a : Nat) (write : Bool) : (s.addPending pa a write).aside = s.aside := by
  unfold State.addPending
  dsimp only
  split
  · rfl
  · exact State.aside_activateNext _ pa

theorem State.aside_request (a pa : Nat) (write : Bool) (core : Nat) : (s.request a pa write core).aside = s.aside := by
  unfold State.request
  split
  · exact State.aside_sendTo _ _ _
  · rfl

end Tokens

/-! ### The base die's writes raise no identifier -/

section BaseWrites
variable (s : State)

theorem State.nextId_of_aside {s t : State} (h : t.aside = s.aside) : t.nextId = s.nextId := congrArg Prod.fst h

theorem State.nextId_wake (t : Watch → Bool) : (s.wake t).nextId = s.nextId := rfl

theorem State.nextId_keepHome (sec : Nat) : (s.keepHome sec).nextId = s.nextId := by
  unfold State.keepHome
  split
  · split <;> rfl
  · rfl

theorem State.nextId_performWrite (pa : Nat) (bs : List Byte) (writer : Option (Nat × Nat)) : (s.performWrite pa bs writer).nextId = s.nextId := by
  unfold State.performWrite
  dsimp only
  have kept : ((sectorsOf pa bs.length).foldl State.keepHome (if writer.isNone then s.settleBytes 0 0 pa bs.length else s)).nextId = s.nextId :=
    (foldl_keeps State.nextId State.nextId_keepHome _ _).trans (ite_keeps State.nextId rfl rfl)
  refine (foldl_keeps State.nextId (fun t sec => ?_) _ _).trans ?_
  · have dropped : ∀ on, (t.dropL1 on sec).nextId = t.nextId := fun on => State.nextId_of_aside (t.aside_dropL1 on sec)
    rw [State.nextId_wake]
    exact ite_keeps State.nextId ((State.nextId_of_aside (State.aside_onHolder _ _ _ _)).trans (dropped _)) (dropped _)
  · split
    · exact kept
    · exact kept

theorem State.nextId_raiseIrq (vf vec : Nat) : (s.raiseIrq vf vec).nextId = s.nextId := by
  unfold State.raiseIrq
  split
  · split <;> rfl
  · rfl

theorem State.nextId_performOuter (o : OuterOp) : (s.performOuter o).nextId = s.nextId := by
  have raised : ∀ t : State, (match o.irq with
      | some (vf, vec) => t.raiseIrq vf vec
      | none => t).nextId = t.nextId := fun t => by
    split
    · exact t.nextId_raiseIrq _ _
    · rfl
  have written : (if (s.outerBytes o).isEmpty then s else s.performWrite o.pa (s.outerBytes o) none).nextId = s.nextId :=
    ite_keeps State.nextId rfl (s.nextId_performWrite _ _ _)
  have noted : (if (s.outerBytes o).isEmpty ∨ s.isPeer o.pa ∨ o.agent = s.homeAgent o.pa
      then (if (s.outerBytes o).isEmpty then s else s.performWrite o.pa (s.outerBytes o) none)
      else (if (s.outerBytes o).isEmpty then s else s.performWrite o.pa (s.outerBytes o) none).onHolder o.pa o.agent
        (fun h => { h with dirty := true })).nextId = s.nextId := ite_keeps State.nextId written written
  unfold State.performOuter
  refine (raised _).trans (ite_keeps State.nextId noted ?_)
  cases o.kind with
  | pod _ => exact ((State.nextId_of_aside (State.aside_giveAll _ _ _ _)).trans (State.nextId_of_aside (State.aside_accessDone _ _ _ _))).trans noted
  | cxl _ => exact (State.nextId_of_aside (State.aside_accessDone _ _ _ _)).trans noted
  | base =>
    refine ite_keeps State.nextId ?_ ((State.nextId_of_aside (State.aside_accessDone _ _ _ _)).trans noted)
    exact (State.nextId_of_aside (State.aside_deactivate _ _ _)).trans noted

theorem State.nextId_runOuter (os : List OuterOp) : ∀ (stop : Bool) (secs : List Nat) (s : State), (runOuter os stop secs s).1.nextId = s.nextId := by
  induction os with
  | nil => exact fun _ _ s => rfl
  | cons o os ih =>
    intro stop secs s
    unfold runOuter
    dsimp only
    split
    · exact (ih _ _ _).trans (s.nextId_performOuter o)
    · exact ih _ _ s

theorem State.aside_requestOuter (o : OuterOp) : (s.requestOuter o).aside = s.aside := by
  unfold State.requestOuter
  dsimp only
  split_ifs
  · rfl
  · exact State.aside_addPending _ _ 14 true
  · exact s.aside_startHostOp _ _
  · exact s.aside_request _ _ _ 0

theorem State.nextId_addOuter (os : List OuterOp) : (s.addOuter os).nextId = s.nextId := by
  unfold State.addOuter State.settleOuter
  refine ite_keeps State.nextId rfl ?_
  exact (State.nextId_of_aside (foldl_keeps State.aside State.aside_requestOuter _ _)).trans (State.nextId_runOuter _ _ _ _)

theorem State.nextId_describe (fl : Field) (st : Nat) : (s.describe fl st).nextId = s.nextId := by
  unfold State.describe
  split
  · rfl
  · exact (State.nextId_addOuter _ _).trans (s.nextId_addOuter _)

theorem State.nextId_linkImages (n : Nat) : (s.linkImages n).nextId = s.nextId := by
  unfold State.linkImages
  split
  · rfl
  · exact (foldl_keeps State.nextId (fun t (p : Nat × Nat) => t.nextId_addOuter _) _ _).trans (s.nextId_addOuter _)

theorem State.nextId_storeCounters (n core : Nat) : (s.storeCounters n core).nextId = s.nextId := by
  unfold State.storeCounters
  split
  · rfl
  · exact ite_keeps State.nextId rfl (s.nextId_addOuter _)

end BaseWrites

/-! ### A field that leaves (R53) -/

section Retire
variable (s : State) (fl : Field)

/-- Fields are as they were, and no identifier has been given. -/
structure NoNewField (s t : State) : Prop where
  fields : t.fields = s.fields
  nextId : t.nextId = s.nextId

theorem NoNewField.refl (s : State) : NoNewField s s := ⟨rfl, rfl⟩

theorem NoNewField.trans {a b c : State} (h : NoNewField a b) (k : NoNewField b c) : NoNewField a c :=
  ⟨k.fields.trans h.fields, k.nextId.trans h.nextId⟩

theorem NoNewField.foldl {α : Type} {k : State → α → State} (h : ∀ s x, NoNewField s (k s x)) (l : List α) (s : State) : NoNewField s (l.foldl k s) :=
  List.foldlRecOn l k (NoNewField.refl s) (fun t ht x _ => ht.trans (h t x))

/-- A field removed leaves the others, and no identifier is given. -/
theorem State.removeField_fields : (s.removeField fl).fields = s.fields.filter (fun f => f.id != fl.id) ∧ (s.removeField fl).nextId = s.nextId := by
  obtain ⟨u, hu⟩ : ∃ u, u = fl.claims.foldr (fun k s => s.returnClaim fl.scheme k) s := ⟨_, rfl⟩
  have claims : NoNewField s u := by
    rw [hu, ← List.foldl_reverse]
    exact .foldl (k := fun t k => t.returnClaim fl.scheme k) (fun _ _ => ⟨rfl, rfl⟩) _ s
  have described : NoNewField u (if fl.image.isSome then u.describe fl 0 else u) := by
    split
    · exact ⟨(backstage_describe u fl 0).fields, u.nextId_describe fl 0⟩
    · exact .refl u
  have linked : ∀ v : State, NoNewField v (if fl.image.isSome then v.linkImages fl.ctx else v) := fun v => by
    split
    · exact ⟨(backstage_linkImages v _).fields, v.nextId_linkImages _⟩
    · exact .refl v
  have stored : ∀ v : State, NoNewField v (if fl.placedAt ≠ 0 then v.storeCounters fl.ctx fl.core else v) := fun v => by
    split
    · exact ⟨(backstage_storeCounters v _ _).fields, v.nextId_storeCounters _ _⟩
    · exact .refl v
  have before := claims.trans described
  have after := fun v => (linked v).trans (stored _)
  unfold State.removeField
  rw [← hu]
  exact ⟨(after _).fields.trans (congrArg (List.filter _) before.fields), (after _).nextId.trans before.nextId⟩

/-- What no longer holds a field of an identifier given before does not gain one. -/
structure NeverAgain (id : Nat) (s : State) : Prop where
  gone : s.field? id = none
  given : id < s.nextId

theorem NeverAgain.of_noNew {id : Nat} {s t : State} (h : NeverAgain id s) (k : NoNewField s t) : NeverAgain id t :=
  ⟨by rw [State.field?, k.fields]; exact h.gone, by rw [k.nextId]; exact h.given⟩

/-- Fields that open have identifiers that were not given before. -/
theorem NeverAgain.openFields {id : Nat} {s : State} (h : NeverAgain id s) (sc : Scheme) (ix : Nat) (r : Reach) : NeverAgain id (s.openFields sc ix r) := by
  obtain ⟨gone, given⟩ := h
  refine ⟨?_, Nat.lt_of_lt_of_le given (Nat.le_add_right _ _)⟩
  refine List.find?_append.trans ?_
  rw [show s.fields.find? (fun f => f.id == id) = none from gone, Option.none_or, List.find?_eq_none]
  intro f hf
  obtain ⟨m, -, rfl⟩ := List.mem_map.1 hf
  simp only [reachField, beq_iff_eq]
  omega

theorem NeverAgain.evaluate {id : Nat} {s : State} (h : NeverAgain id s) (scheme : Nat) : NeverAgain id (s.evaluate scheme) := by
  unfold State.evaluate
  split
  · exact h
  split
  · exact h
  refine List.foldlRecOn _ _ h (fun t ht ix _ => ?_)
  split
  · exact ht
  split
  · exact ht
  split
  · exact ht.openFields _ _ _
  · exact ht

theorem noNewField_endReaches (scheme n : Nat) : ∀ s : State, NoNewField s (State.endReaches scheme n s) := by
  induction n with
  | zero => exact fun s => .refl s
  | succ n ih =>
    intro s
    unfold State.endReaches
    split
    · exact .refl s
    · refine NoNewField.trans (.foldl (fun t ix => ?_) _ s) (ih _)
      split
      · exact .refl t
      · split
        · exact ⟨rfl, rfl⟩
        · exact .refl t

theorem State.endScheme_fields (s : State) (id code detail : Nat) (loc : BitVec 64) : (s.endScheme id code detail loc).fields = s.fields := by
  unfold State.endScheme
  split
  · rfl
  · dsimp only
    split
    · rfl
    · exact (backstage_writeRecord _ _ _ _ _).fields

/-- A scheme settled opens no field of an identifier given before. -/
theorem NeverAgain.settleScheme {id : Nat} {s : State} (h : NeverAgain id s) (scheme : Nat) : (s.settleScheme scheme).field? id = none := by
  unfold State.settleScheme
  split
  · exact h.gone
  · rename_i sc _
    dsimp only
    obtain ⟨s2, hs2⟩ : ∃ s2, s2 = State.endReaches scheme 16 ((List.range sc.reaches.length).foldl (fun s ix => s.dispatchOver scheme ix) s) := ⟨_, rfl⟩
    have settled : NeverAgain id s2 := by
      rw [hs2]
      exact h.of_noNew ((NoNewField.foldl (k := fun t ix => t.dispatchOver scheme ix) (fun _ _ => ⟨rfl, rfl⟩) _ s).trans (noNewField_endReaches scheme 16 _))
    rw [← hs2]
    split_ifs
    · exact h.gone
    · rw [State.field?, State.endScheme_fields]
      exact settled.gone
    · exact (settled.evaluate scheme).gone

/-- A field that retires leaves (R53). -/
theorem exec_fieldRetire_gone (hf : s.field? fl.id = some fl) (hm : s.mayRetire fl = true) (hs : fl.service = false) (hn : fl.id < s.nextId) :
    ∃ t, exec (.fieldRetire fl.id) s = .next t ∧ t.field? fl.id = none := by
  obtain ⟨fields, nextId⟩ := s.removeField_fields fl
  have gone : NeverAgain fl.id (s.removeField fl) := by
    refine ⟨?_, by rw [nextId]; exact hn⟩
    rw [State.field?, fields, List.find?_eq_none]
    intro f hf
    simpa using (List.mem_filter.1 hf).2
  refine ⟨_, ?_, gone.settleScheme fl.scheme⟩
  simp [execFieldRetire, hf, hm, hs]

end Retire

/-! ### Waiting blocks (R71, R73) -/

section Waiting
variable {s : State} {core quarter n : Nat} {f : Furrow}

/-- A furrow whose waiting `xacq` is granted. -/
def Furrow.acquired (e : Ext) (f : Furrow) : Furrow :=
  { f.grantExt e with groups := (f.grantExt e).groups.map (fun (g : Group) => if g.acqOrder.isSome then { g with wait := none } else g) }

theorem Furrow.acquired_place (e : Ext) (f : Furrow) : (f.acquired e).core = f.core ∧ (f.acquired e).slot = f.slot := by
  unfold Furrow.acquired Furrow.grantExt
  exact ⟨rfl, rfl⟩

theorem Furrow.acquired_regs (e : Ext) (f : Furrow) : (f.acquired e).regs = (f.grantExt e).regs := by
  unfold Furrow.acquired
  generalize f.grantExt e = v
  rfl

theorem Furrow.acquired_noOrder (e : Ext) (f : Furrow) : ∀ g ∈ (f.acquired e).groups, g.acqOrder = none := by
  intro g hg
  obtain ⟨x, -, rfl⟩ := List.mem_map.1 hg
  split
  · rfl
  · rename_i h
    simpa using h

theorem exec_xacqGrant_alone (hw : s.acqWaiters core quarter = [(n, f)]) :
    exec (.xacqGrant core quarter) s = .next (match s.decideAcq f [] with
      | none => s
      | some e => ({ s with nextId := s.nextId + 1 } : State).onFurrow core f.slot (Furrow.acquired e)) := by
  rw [exec_xacqGrant, execXacqGrant, hw, show sortBy _ [(n, f)] = [(n, f)] from rfl]
  cases h : s.decideAcq f [] with
  | none => simp [h]
  | some e =>
    simp only [List.head?_cons, Option.bind_some, h, Option.map_some]
    rfl

/-- The one `xacq` that waits is granted what is decided for it. -/
theorem exec_xacqGrant_granted {e : Ext} (hw : s.acqWaiters core quarter = [(n, f)]) (hf : s.furrow? core f.slot = some f)
    (he : s.decideAcq f [] = some e) :
    ∃ t f', exec (.xacqGrant core quarter) s = .next t ∧ t.furrow? core f.slot = some f' ∧ f'.regs = (f.grantExt e).regs
      ∧ (∀ g ∈ f'.groups, g.acqOrder = none) ∧ t.nextId = s.nextId + 1 ∧ t.mem = s.mem := by
  have look : ({ s with nextId := s.nextId + 1 } : State).furrow? core f.slot = some f := hf
  obtain ⟨own, -⟩ := State.furrow?_onFurrow_at look (Furrow.acquired e)
    (fun v hc hs => ⟨(v.acquired_place e).1.trans hc, (v.acquired_place e).2.trans hs⟩)
  exact ⟨_, f.acquired e, by rw [exec_xacqGrant_alone hw, he], own, f.acquired_regs e, f.acquired_noOrder e, rfl, rfl⟩

end Waiting

/-! ### Walks that a prefetch left (R258, R350, R351, R372) -/

section Prefetch

/-- State t is s after a prefetch: furrows and fields as after work behind them, memory and the TLBs of the dies as they were. -/
structure Prefetched (s t : State) : Prop where
  back : Backstage s t
  aside : t.aside = s.aside

theorem Prefetched.refl (s : State) : Prefetched s s := ⟨.refl s, rfl⟩

theorem Prefetched.trans {a b c : State} (h : Prefetched a b) (k : Prefetched b c) : Prefetched a c := ⟨h.back.trans k.back, k.aside.trans h.aside⟩

theorem Prefetched.ite {s a b : State} {p : Prop} [Decidable p] (ha : Prefetched s a) (hb : Prefetched s b) : Prefetched s (if p then a else b) := by
  split
  · exact ha
  · exact hb

theorem Prefetched.foldl {α : Type} {k : State → α → State} (h : ∀ s x, Prefetched s (k s x)) (l : List α) (s : State) : Prefetched s (l.foldl k s) :=
  List.foldlRecOn l k (Prefetched.refl s) (fun t ht x _ => ht.trans (h t x))

variable (s : State)

theorem prefetched_onDie (d : Nat) (k : Die → Die) (hk : ∀ x, (k x).tlb = x.tlb) : Prefetched s (s.onDie d k) := by
  refine ⟨.of_eq rfl rfl rfl, ?_⟩
  have tlbs : (s.onDie d k).dies.map Die.tlb = s.dies.map Die.tlb := by
    ext1 i hi
    simp only [State.onDie, Vector.getElem_map, Vector.getElem_set]
    split
    · rename_i h
      subst h
      exact hk _
    · rfl
  rw [State.aside, tlbs]
  rfl

theorem prefetched_onCore (c : Nat) (k : Core → Core) : Prefetched s (s.onCore c k) := ⟨backstage_onCore s c k, rfl⟩

theorem prefetched_dropL1 (on : Nat → Bool) (pa : Nat) : Prefetched s (s.dropL1 on pa) := ⟨backstage_dropL1 s on pa, s.aside_dropL1 on pa⟩

theorem prefetched_dropPeer (die : Nat) (secs : List Nat) : Prefetched s (s.dropPeer die secs) :=
  (prefetched_onDie s die _ (fun _ => by rfl)).trans (.foldl (k := fun t sec => t.dropL1 (fun c => dieOf c == die) sec) (fun t sec => prefetched_dropL1 t _ sec) secs _)

theorem prefetched_makeRoom (die pa : Nat) : Prefetched s (s.makeRoom die pa) := by
  unfold State.makeRoom
  dsimp only
  exact .ite (.refl s) (.ite (prefetched_dropPeer s die _) ⟨backstage_giveAll s _ _ _, s.aside_giveAll _ _ _⟩)

theorem prefetched_fillPeer (die sec : Nat) (bs : List Byte) : Prefetched s (s.fillPeer die sec bs) := by
  unfold State.fillPeer
  dsimp only
  split
  · exact .refl s
  · refine (Prefetched.trans ?_ (prefetched_makeRoom _ die sec)).trans (prefetched_onDie _ die _ (fun _ => by rfl))
    split
    · split
      · exact (prefetched_dropPeer s die _).trans (prefetched_onDie _ die _ (fun _ => by rfl))
      · exact prefetched_onDie s die _ (fun _ => by rfl)
    · exact prefetched_onDie s die _ (fun _ => by rfl)

theorem prefetched_fillL1 (core sec : Nat) : Prefetched s (s.fillL1 core sec) := by
  unfold State.fillL1
  dsimp only
  split
  · exact .refl s
  · refine Prefetched.trans ?_ (prefetched_onCore _ core _)
    split
    · exact .refl s
    · exact prefetched_dropL1 s _ _

theorem prefetched_afterLoad (core : Nat) (l1 : Bool) (secs : List Nat) : Prefetched s (s.afterLoad core l1 secs) := by
  have peers : Prefetched s (secs.foldl (fun s sec => if s.isPeer sec then s.fillPeer (dieOf core) sec (s.bytesAt sec 64) else s) s) := by
    refine .foldl (fun t sec => ?_) secs s
    split
    · exact prefetched_fillPeer t _ _ _
    · exact .refl t
  unfold State.afterLoad
  dsimp only
  split
  · exact peers.trans (.foldl (fun t sec => prefetched_fillL1 t core sec) secs _)
  · exact peers

theorem prefetched_request (a pa : Nat) (write : Bool) (core : Nat) : Prefetched s (s.request a pa write core) :=
  ⟨backstage_request s a pa write core, s.aside_request a pa write core⟩

theorem prefetched_assignWalks (d : Nat) : Prefetched s (s.assignWalks d) := by
  unfold State.assignWalks
  exact prefetched_onDie s d _ (fun _ => by rfl)

theorem prefetched_prefetch (core ctx level cls : Nat) (hold : Bool) (va : Nat) : Prefetched s (s.prefetch core ctx level cls hold va) := by
  unfold State.prefetch
  split
  · exact .refl s
  split
  · exact .refl s
  split
  · exact (prefetched_onDie s _ _ (fun _ => by rfl)).trans (prefetched_assignWalks _ _)
  split
  · exact .refl s
  · exact .refl s
  dsimp only
  split_ifs
  · exact prefetched_afterLoad s core _ _
  · exact prefetched_afterLoad s core _ _
  · exact prefetched_request s _ _ false core
  · exact (prefetched_request s _ _ false core).trans ⟨backstage_onHolder _ _ _ _, rfl⟩

/-- The registers in a slot are those of the first furrow that stands there. -/
theorem State.regs?_standing (c n : Nat) : s.regs? c n = (s.standing c n).head?.map Furrow.regs := by
  rw [State.regs?, State.furrow?, State.standing, List.head?_map, List.head?_filter, Option.map_map]
  rfl

/-- Work behind the furrows leaves every register where none runs ahead. -/
theorem Backstage.regs? {s t : State} (h : Backstage s t) (hn : NoneAhead s) (c n : Nat) : t.regs? c n = s.regs? c n := by
  rw [State.regs?_standing, State.regs?_standing, h.standing c n (fun f hf => ?_)]
  obtain ⟨v, hv, rfl⟩ := List.mem_map.1 hf
  exact hn v (List.mem_filter.1 hv).1

/-- What keeps the TLBs of the dies keeps each. -/
theorem State.die_tlb_of_aside {s t : State} (h : t.aside = s.aside) (d : Nat) : (t.die d).tlb = (s.die d).tlb := by
  have tlbs : t.dies.map Die.tlb = s.dies.map Die.tlb := congrArg (fun x => x.2.2) h
  have := congrArg (fun v => v[Fin.ofNat 6 d]) tlbs
  simpa [State.die] using this

/-- A fill puts its entry in the L2 TLB of the core's die. -/
theorem State.mem_tlbFill (core : Nat) (e : TlbEntry) : e ∈ ((s.tlbFill core e).die (dieOf core)).tlb := by
  simp [State.tlbFill, State.die, State.onDie, tlbInsert]

/-- A walk in a context that stands goes on by its tokens, then by its end. -/
theorem exec_pageWalk_found {s s1 : State} {n d j : Nat} {w : Walk} {c : Ctx} (hw : nth? s.walksNow n = some (d, j, w))
    (h1 : s1 = (s.onDie d (fun x => { x with walks := dropNth x.walks j })).assignWalks d) (hc : s.ctx? w.ctx = some c) :
    exec (.pageWalk n) s = .next (match s.walkLack d c w.va with
      | some sec => s.request d sec false w.core
      | none => match s1.walk c w.va with
        | .stop .. => s1
        | .leaf e => if s1.rangeOk c (e.frame w.va) then (s1.tlbFill w.core e).prefetch w.core w.ctx w.level w.cls w.hold w.va else s1) := by
  have hc1 : s1.ctx? w.ctx = some c := by
    rw [h1]
    exact hc
  rw [exec_pageWalk, execPageWalk, hw]
  simp only [← h1, hc1] <;> rfl

/-- A walk that ends at a leaf in range fills the TLBs, and no byte, field or register changes. -/
theorem walked_leaf {s s1 : State} (hs : Backstage s s1) (hm : s1.mem = s.mem) (hn : NoneAhead s) (e : TlbEntry) (core ctx level cls : Nat) (hold : Bool)
    (va : Nat) :
    let t := (s1.tlbFill core e).prefetch core ctx level cls hold va
    e ∈ (t.die (dieOf core)).tlb ∧ t.mem = s.mem ∧ t.fields = s.fields ∧ ∀ k m, t.regs? k m = s.regs? k m := by
  intro t
  obtain ⟨back, aside⟩ := prefetched_prefetch (s1.tlbFill core e) core ctx level cls hold va
  have all : Backstage s t := (hs.trans (.of_eq (t := s1.tlbFill core e) rfl rfl rfl)).trans back
  exact ⟨by rw [State.die_tlb_of_aside aside]; exact State.mem_tlbFill s1 core e, (congrArg (fun x => x.2.1) aside).trans hm, all.fields, all.regs? hn⟩

end Prefetch

/-- Settles O43: the one that waits by what is decided for it, a retiring field by the identifiers of the fields that open after it, a walk by its end. -/
theorem blockAndFieldEvents : Obligations.BlockAndFieldEvents := by
  refine ⟨⟨fun s core quarter n f hw hf => ?_, fun s core slot f hf => ⟨fun hsp hp => ?_, fun hno => ?_⟩, fun s fl hf => ⟨fun hm hs hn => ?_, fun hm => ?_⟩⟩,
    fun s n d j w c hn hw hc => ?_⟩
  · intro k granted
    refine ⟨fun hr => exec_xacqGrant_granted hw hf ?_, fun hr hp => exec_xacqGrant_granted hw hf ?_, fun hr hp => ?_⟩
    · simp [State.decideAcq, show s.rightFree f.field f.core (quarterOf f.slot) = true from hr]
    · simp [State.decideAcq, show s.rightFree f.field f.core (quarterOf f.slot) = false from hr, show 144 ≤ s.physFree f.core (quarterOf f.slot) from hp]
    · have none : s.decideAcq f [] = none := by
        simp [State.decideAcq, show s.rightFree f.field f.core (quarterOf f.slot) = false from hr, show s.physFree f.core (quarterOf f.slot) < 144 from hp]
      rw [exec_xacqGrant_alone hw, none]
  · obtain ⟨rfl, rfl⟩ := State.furrow?_place hf
    refine ⟨s.reload f, _, ?_, State.furrow?_onFurrow_self hf (fun v => { v with spilled := false, unnamed := _ }) (fun _ => ⟨rfl, rfl⟩), rfl, rfl⟩
    simp [execRegisterReload, hf, hsp, hp]
  · have due : (f.spilled && decide (144 ≤ s.physFree core (quarterOf slot))) = false := by
      rcases hno with h | h
      · simp [h]
      · simp [h]
    simp [execRegisterReload, hf, due]
  · exact exec_fieldRetire_gone s fl hf hm hs hn
  · simp [execFieldRetire, hf, hm]
  · intro s1
    have back : Backstage s s1 := .of_eq rfl rfl rfl
    have run := exec_pageWalk_found hw (s1 := s1) rfl hc
    refine ⟨fun sec hl => by rw [run, hl], fun e hl he hr => ?_, fun hl hbad => ?_⟩
    · exact ⟨_, by rw [run, hl, he]; exact congrArg _ (if_pos hr), walked_leaf back rfl hn e w.core w.ctx w.level w.cls w.hold w.va⟩
    · rw [run, hl]
      cases he : s1.walk c w.va with
      | stop _ _ _ _ => rfl
      | leaf e => simp [hbad e he]

end Sys2Proof.Machine
end

section
/-! O7: the integer rows of R214 and R215, and how an exact integer result is narrowed (R88, R89). -/
namespace Sys2Proof.Machine

/-! ### Wrapping and reading back (R88, R114) -/

theorem wrap_cast (x : Int) (n : Nat) : (wrap x n : Int) = x % 2 ^ n := by
  rw [wrap, Int.toNat_of_nonneg (Int.emod_nonneg _ (by positivity))]
  push_cast
  rfl

theorem wrap_lt (x : Int) (n : Nat) : wrap x n < 2 ^ n := by
  have := Int.emod_lt_of_pos x (show (0 : Int) < 2 ^ n by positivity)
  rw [← wrap_cast] at this
  exact_mod_cast this

theorem wrap_congruent (x : Int) (n : Nat) : (2 ^ n : Int) ∣ (wrap x n : Int) - x := by
  rw [wrap_cast]
  exact Dvd.intro (-(x / 2 ^ n)) (by linarith [Int.emod_add_mul_ediv x (2 ^ n)])

/-- A number of n bits read signed. -/
theorem sext_wrap {x : Int} {n : Nat} (hn : 0 < n) (hlo : -(2 ^ (n - 1)) ≤ x) (hhi : x ≤ 2 ^ (n - 1) - 1) : sext (wrap x n) n = x := by
  have half : (2 : Int) ^ n = 2 * 2 ^ (n - 1) := by rw [← pow_succ', Nat.sub_add_cancel hn]
  have key : (wrap x n : Int) = if x < 0 then x + 2 ^ n else x := by
    rw [wrap_cast]
    split
    · rw [← Int.add_emod_right, Int.emod_eq_of_lt (by omega) (by omega)]
    · exact Int.emod_eq_of_lt (by omega) (by omega)
  have cmp : 2 ^ (n - 1) ≤ wrap x n ↔ (2 : Int) ^ (n - 1) ≤ (wrap x n : Int) := by exact_mod_cast Iff.rfl
  unfold sext
  rw [Nat.mod_eq_of_lt (wrap_lt x n)]
  simp only [cmp, key, hn.ne', ne_eq, not_false_eq_true, true_and]
  split_ifs <;> omega

theorem width_pos (t : Ty) : 0 < t.width := by cases t <;> decide

/-- An integer type reads back every value of its range from that value's bits. -/
theorem intOf_wrap {t : Ty} {x : Int} (hlo : (intRange t).1 ≤ x) (hhi : x ≤ (intRange t).2) : intOf t (wrap x t.width) = x := by
  unfold intRange at hlo hhi
  unfold intOf
  split
  · rename_i hs
    rw [if_pos hs] at hlo hhi
    exact sext_wrap (width_pos t) hlo hhi
  · rename_i hs
    rw [if_neg hs] at hlo hhi
    rw [Nat.mod_eq_of_lt (wrap_lt x _), wrap_cast, Int.emod_eq_of_lt hlo (by simpa using Int.lt_of_le_sub_one hhi)]

theorem intRange_nonempty (t : Ty) : (intRange t).1 ≤ (intRange t).2 := by
  have : (1 : Int) ≤ 2 ^ t.width ∧ (1 : Int) ≤ 2 ^ (t.width - 1) := ⟨one_le_pow₀ (by norm_num), one_le_pow₀ (by norm_num)⟩
  unfold intRange
  split <;> dsimp only <;> omega

/-! ### Clamping (R89, R101) -/

/-- The clamped result is the nearest value of the range, and a clamp raises SAT and NX. -/
theorem satInt_clamps (t : Ty) (x : Int) :
    intOf t (satInt x t).1 = max (intRange t).1 (min (intRange t).2 x)
      ∧ (satInt x t).2 = if (intRange t).1 ≤ x ∧ x ≤ (intRange t).2 then 0 else flSAT ||| flNX := by
  have hne := intRange_nonempty t
  unfold satInt
  dsimp only
  by_cases hlo : x < (intRange t).1
  · rw [if_pos hlo, intOf_wrap le_rfl hne, if_neg (by omega)]
    exact ⟨by omega, rfl⟩
  by_cases hhi : (intRange t).2 < x
  · rw [if_neg hlo, if_pos hhi, intOf_wrap hne le_rfl, if_neg (by omega)]
    exact ⟨by omega, rfl⟩
  · rw [if_neg hlo, if_neg hhi, intOf_wrap (by omega) (by omega), if_pos (by omega)]
    exact ⟨by omega, rfl⟩

/-! ### The rows -/

/-- A row of R214 or R215 writes the narrowing of its exact result in every element of its active lanes. -/
theorem integerRow_writes {s : State} {q : Issue} {f : Furrow} {g : Group} {i : Instr} {x : LV} {op : Int → Int → Int → Int}
    (he : exec i s = integerRow i x op s) :
    WritesElems s q f g i x (fun a b c => intResult x.sat x.ty (op (intOf x.ty a) (intOf x.ty b) (intOf x.ty c))) :=
  elementwise_writes (op := fun _ a b c => intResult x.sat x.ty (op (intOf x.ty a) (intOf x.ty b) (intOf x.ty c))) he

/-- What each row computes exactly. -/
theorem exec_integerOps (s : State) (x : LV) : ∀ p ∈ integerOps x, exec p.1 s = integerRow p.1 x p.2 s := by
  have smaller : (fun a b _ : Int => if a ≤ b then a else b) = fun a b _ => min a b := by funext a b _; exact (Int.min_def a b).symm
  have larger : (fun a b _ : Int => if b ≤ a then a else b) = fun a b _ => max a b := by funext a b _; exact (max_def' a b).symm
  simp only [integerOps, List.forall_mem_cons]
  exact ⟨exec_vadd s x, exec_vsub s x, exec_vmul s x, exec_vmulh s x, exec_vmad s x, exec_vdiv s x, exec_vrem s x,
    (exec_vmin s x).trans (by rw [execVmin, smaller]), (exec_vmax s x).trans (by rw [execVmax, larger]),
    exec_vabs s x, exec_vneg s x, exec_vabsd s x, List.forall_mem_nil _⟩

/-- Settles O7: each row runs in the frame of R211 with its exact result, which `intResult` wraps or clamps. -/
theorem vectorInteger : Obligations.VectorInteger := by
  unfold Obligations.VectorInteger
  refine ⟨fun s q f g x p hp => integerRow_writes (exec_integerOps s x p hp), fun t x _ => ⟨⟨rfl, wrap_congruent x _, wrap_lt x _⟩, ?_⟩⟩
  have lo : (if t.isSigned = true then -(2 : Int) ^ (t.width - 1) else 0) = (intRange t).1 := by unfold intRange; split <;> rfl
  have hi : (if t.isSigned = true then (2 : Int) ^ (t.width - 1) - 1 else 2 ^ t.width - 1) = (intRange t).2 := by unfold intRange; split <;> rfl
  simp only [lo, hi]
  exact satInt_clamps t x

end Sys2Proof.Machine
end

section
/-! O11: a value that a format holds rounds to itself. The bits are their sign, exponent and mantissa fields; a decoded value has its leading bit where
the format puts it, so that rounding shifts nothing out. -/
namespace Sys2Proof.Machine

/-! ### The fields of a stored value (R90) -/

/-- Exponent and mantissa fields of a value's bits. -/
def expField (t : Ty) (x : Nat) : Nat := bitsOf x (fmtOf t).mbits (fmtOf t).ebits
def manField (t : Ty) (x : Nat) : Nat := bitsOf x 0 (fmtOf t).mbits
/-- Its sign. -/
def signField (t : Ty) (x : Nat) : Bool := x.testBit ((fmtOf t).ebits + (fmtOf t).mbits)

theorem expField_lt (t : Ty) (x : Nat) : expField t x < 2 ^ (fmtOf t).ebits := Nat.mod_lt _ (Nat.two_pow_pos _)

theorem manField_lt (t : Ty) (x : Nat) : manField t x < 2 ^ (fmtOf t).mbits := Nat.mod_lt _ (Nat.two_pow_pos _)

/-- The three fields make the bits up. -/
theorem fields_join {t : Ty} {x : Nat} (hx : x < 2 ^ ((fmtOf t).ebits + (fmtOf t).mbits + 1)) :
    signBit t (signField t x) + expField t x * 2 ^ (fmtOf t).mbits + manField t x = x := by
  unfold signBit signField expField manField bitsOf
  dsimp only
  generalize (fmtOf t).ebits = e at *
  generalize (fmtOf t).mbits = m at *
  have htop : x / 2 ^ m / 2 ^ e = if x.testBit (e + m) then 1 else 0 := by
    have hlt : x / 2 ^ (e + m) < 2 := Nat.div_lt_of_lt_mul (by rw [← pow_succ]; exact hx)
    rw [Nat.div_div_eq_div_mul, ← pow_add, Nat.add_comm m e, Nat.testBit_eq_decide_div_mod_eq, Nat.mod_eq_of_lt hlt]
    generalize x / 2 ^ (e + m) = y at hlt
    simp only [decide_eq_true_eq]
    split <;> omega
  have hsign : (if x.testBit (e + m) then 2 ^ (e + m) else 0) = 2 ^ e * (x / 2 ^ m / 2 ^ e) * 2 ^ m := by
    rw [htop]
    split <;> ring
  rw [Nat.shiftRight_zero, Nat.shiftRight_eq_div_pow, hsign, ← Nat.add_mul, Nat.div_add_mod, Nat.mul_comm, Nat.div_add_mod]

/-- What the stored float formats have in common: one sign bit, and the exponent field of all ones either holds infinities and NaNs, or, in `.e4m3`,
numbers but for one NaN of each sign (R90, R91). -/
structure StoredFloat (t : Ty) : Prop where
  ne : t ≠ .e8m0
  width : t.width = (fmtOf t).ebits + (fmtOf t).mbits + 1
  top : ((fmtOf t).hasInf = true ∧ t ≠ .e4m3 ∧ (fmtOf t).emax + 2 = 2 ^ (fmtOf t).ebits ∧ (fmtOf t).mmax + 1 = 2 ^ (fmtOf t).mbits) ∨ t = .e4m3

theorem storedFloat_of_mem {t : Ty} (h : t ∈ [Ty.f16, .bf16, .f32, .f64, .e4m3, .e5m2]) : StoredFloat t := by
  fin_cases h <;> exact ⟨by decide, by decide, by decide⟩

/-- What the bits of a number decode to: an infinity, a subnormal value or zero, or a normal value no greater than the largest finite one. -/
theorem decodeNum_cases {t : Ty} (ht : StoredFloat t) {x : Nat} (hn : (decodeNum t x).isNan = false) :
    (decodeNum t x = .inf (signField t x) ∧ (fmtOf t).hasInf = true ∧ expField t x = 2 ^ (fmtOf t).ebits - 1 ∧ manField t x = 0)
    ∨ (decodeNum t x = .fin (signField t x) (manField t x) (1 - ((fmtOf t).bias : Int) - (fmtOf t).mbits) ∧ expField t x = 0)
    ∨ (decodeNum t x = .fin (signField t x) (manField t x + 2 ^ (fmtOf t).mbits) ((expField t x : Int) - (fmtOf t).bias - (fmtOf t).mbits)
      ∧ 0 < expField t x ∧ expField t x ≤ (fmtOf t).emax ∧ (expField t x = (fmtOf t).emax → manField t x ≤ (fmtOf t).mmax)) := by
  have he := expField_lt t x
  have hm := manField_lt t x
  have hd : decodeNum t x = if (fmtOf t).hasInf ∧ expField t x = 2 ^ (fmtOf t).ebits - 1 then
        (if manField t x = 0 then .inf (signField t x) else .nan (t != .e5m2 && !x.testBit ((fmtOf t).mbits - 1)))
      else if t = .e4m3 ∧ expField t x = 15 ∧ manField t x = 7 then .nan false
      else if expField t x = 0 then .fin (signField t x) (manField t x) (1 - ((fmtOf t).bias : Int) - (fmtOf t).mbits)
      else .fin (signField t x) (manField t x + 2 ^ (fmtOf t).mbits) ((expField t x : Int) - (fmtOf t).bias - (fmtOf t).mbits) := by
    rw [decodeNum, if_neg ht.ne]
    rfl
  rw [hd] at hn ⊢
  split_ifs at hn ⊢ with hinf hzero he4 hsub
  · exact .inl ⟨rfl, hinf.1, hinf.2, hzero⟩
  · cases hn
  · cases hn
  · exact .inr (.inl ⟨rfl, hsub⟩)
  · refine .inr (.inr ⟨rfl, by omega, ?_⟩)
    obtain ⟨hi, -, hmax, hman⟩ | rfl := ht.top
    · have : expField t x ≠ 2 ^ (fmtOf t).ebits - 1 := fun h => hinf ⟨hi, h⟩
      omega
    · have code : ¬(expField .e4m3 x = 15 ∧ manField .e4m3 x = 7) := fun h => he4 ⟨rfl, h⟩
      simp only [fmtOf] at he hm ⊢
      omega

/-! ### Rounding what needs none (R103) -/

theorem roundInt_noShift (m : Nat) (neg : Bool) (rm : Mode) : roundInt m 0 neg rm = (m, false) := by
  simp [roundInt]

theorem log2_leadingBit {m k : Nat} (h : m < 2 ^ k) : Nat.log2 (m + 2 ^ k) = k :=
  (Nat.log2_eq_iff (by positivity)).2 ⟨by omega, by rw [pow_succ]; omega⟩

/-- A subnormal magnitude of a format keeps its mantissa. -/
theorem roundFin_subnormal (neg : Bool) {m : Nat} (t : Ty) (rm : Mode) (sat : Bool) (h0 : m ≠ 0) (hm : m < 2 ^ (fmtOf t).mbits) :
    roundFin neg m (1 - ((fmtOf t).bias : Int) - (fmtOf t).mbits) t rm false sat = (signBit t neg + m, 0) := by
  have hlog : Nat.log2 m < (fmtOf t).mbits := (Nat.log2_lt h0).2 hm
  have hev : floorLog2 m (1 - ((fmtOf t).bias : Int) - (fmtOf t).mbits) < 1 - ((fmtOf t).bias : Int) := by unfold floorLog2; omega
  unfold roundFin
  dsimp only
  rw [if_neg (by omega), max_eq_right hev.le, sub_self, roundInt_noShift]
  have h1 : ¬ 2 ^ ((fmtOf t).mbits + 1) ≤ m := by rw [pow_succ]; omega
  simp [h1, hm.not_ge]

/-- A normal magnitude of a format keeps its exponent and mantissa. -/
theorem roundFin_normal (neg : Bool) {ef mf : Nat} (t : Ty) (rm : Mode) (sat : Bool) (hm : mf < 2 ^ (fmtOf t).mbits) (h0 : 0 < ef)
    (he : ef ≤ (fmtOf t).emax) (hmax : ef = (fmtOf t).emax → mf ≤ (fmtOf t).mmax) :
    roundFin neg (mf + 2 ^ (fmtOf t).mbits) ((ef : Int) - (fmtOf t).bias - (fmtOf t).mbits) t rm false sat
      = (signBit t neg + ef * 2 ^ (fmtOf t).mbits + mf, 0) := by
  have hev : floorLog2 (mf + 2 ^ (fmtOf t).mbits) ((ef : Int) - (fmtOf t).bias - (fmtOf t).mbits) = (ef : Int) - (fmtOf t).bias := by
    rw [floorLog2, log2_leadingBit hm]; omega
  unfold roundFin
  dsimp only
  rw [hev, if_neg (by omega), max_eq_left (by omega), sub_self, roundInt_noShift]
  have h1 : ¬ 2 ^ ((fmtOf t).mbits + 1) ≤ mf + 2 ^ (fmtOf t).mbits := by rw [pow_succ]; omega
  have fits : ef = (fmtOf t).emax → ¬ (fmtOf t).mmax < mf := fun h => (hmax h).not_gt
  simpa [h1, he.not_gt] using fun h hgt => absurd hgt (fits h)

/-- Settles O11, by what the bits decode to: each kind of value is put together from its fields again. -/
theorem formatValuesExact : Obligations.FormatValuesExact := by
  unfold Obligations.FormatValuesExact
  intro t rm x ht hx hn
  have ht := storedFloat_of_mem ht
  have hj := fields_join (t := t) (x := x) (ht.width ▸ hx)
  obtain ⟨hd, hi, he, hm⟩ | ⟨hd, he⟩ | ⟨hd, h0, he, hmax⟩ := decodeNum_cases ht hn
  · have : infBits t (signField t x) = x := by rw [infBits, ← he]; omega
    rw [hd, roundNum]
    simp [hi, this]
  · rw [he, Nat.zero_mul, Nat.add_zero] at hj
    rw [hd, roundNum]
    by_cases h0 : manField t x = 0
    · rw [h0, Nat.add_zero] at hj
      rw [if_pos h0, hj]
    · rw [if_neg h0, roundFin_subnormal _ t rm _ h0 (manField_lt t x), hj]
  · rw [hd, roundNum, if_neg (by positivity), roundFin_normal _ t rm _ (manField_lt t x) h0 he hmax, hj]

end Sys2Proof.Machine
end

section
/-! O10: the floating-point trap where two groups hold the same lanes. -/
namespace Sys2Proof.Machine

/-- The group that issues: lane 0. -/
def comparingGroup : Group := { lanes := 1, pc := 0, level := 0 }

/-- A back-off with eight failed retries behind it, which a reservation stands for (R323). -/
def longBackoff : Backoff := { trap := none, length := 8192, failed := 8, deadline := 0 }

/-- A furrow whose NaNs trap: beside the group that issues, one of the same lanes and one of lane 1 back off. -/
def twiceHeldFurrow : Furrow :=
  { core := 0, slot := 0, field := 0, ix := 0, fpenv := 0x10000, w := (Vector.replicate 56 0).set 2 0x7FC00000,
    groups := [comparingGroup, { comparingGroup with backoff := some longBackoff }, { comparingGroup with lanes := 2, backoff := some longBackoff }] }

/-- Its group of lane 0 issues, the first of the two. -/
def laneZeroIssue : Issue := { core := 0, slot := 0, lanes := 1 }

/-- A furrow that holds a trap permit of the core. -/
def permitHolder (slot : Nat) : Furrow := { core := 0, slot := slot, field := 0, ix := slot, permit := true }

/-- That furrow issues, one permit of four is free, and lane 0 is ahead of lane 1 in the reservation list: nothing in the statement excludes it. -/
def twiceHeld : State :=
  { State.reset with
    issue := some laneZeroIssue, furrows := [twiceHeldFurrow, permitHolder 1, permitHolder 2, permitHolder 3], ctxs := [{ ctx := 0 }],
    cores := [{ ix := 0, reserve := [(0, 1), (0, 2)] }] }

/-- `vcmp.lt.f32` of 0 with the NaN in `w2`. -/
def nanCompare : LV := { c := false, d := 1, a := 0, b := .w 2, c3 := 0, g := 7, ty := .f32, rm := .dyn, sat := false }

theorem nanCompare_issues :
    Issues twiceHeld laneZeroIssue twiceHeldFurrow comparingGroup (.vcmp .lt nanCompare) where
  issue := rfl
  furrow := by decide +kernel
  group := by decide +kernel
  ahead := rfl
  step := rfl
  alone := rfl
  own := rfl
  lives := rfl
  block := by decide +kernel
  right := by decide +kernel

/-- Lane 0 alone is active, and its comparison raises NV. -/
theorem nanCompare_active : twiceHeldFurrow.activeSet (.vcmp .lt nanCompare) comparingGroup = 1 := by decide +kernel

theorem nanCompare_raises :
    flagsOver 1 (fun l => (condition twiceHeldFurrow .lt nanCompare.ty
      (elem nanCompare.ty (twiceHeldFurrow.laneBits nanCompare.ty nanCompare.a.val l) 0)
      (twiceHeldFurrow.bElem nanCompare.ty nanCompare.b l 0)).2) &&& twiceHeldFurrow.trapEnables = flNV := by decide +kernel

/-- A permit is free for the trap while the reservation of lane 0 stands. -/
theorem nanCompare_lateReady (info : Nat) (pc : BitVec 24) :
    LateReady twiceHeld laneZeroIssue twiceHeldFurrow comparingGroup (trapAt 1 0x28 info pc) 3 := by
  refine ⟨⟨⟨{ ctx := 0 }, ?ctx, ?route⟩, ?lanes, ?inside, .inr (.inr ?permit), rfl⟩, .inl rfl⟩
  case ctx => decide +kernel
  case route => exact (by decide +kernel : routeTrap { ctx := 0 } 0x28 0 = some 3)
  case lanes => exact (by decide +kernel : (1 : Mask) ≠ 0)
  case inside => exact (by decide +kernel : 1 &&& twiceHeldFurrow.running = 1)
  case permit => exact (by decide +kernel : twiceHeld.permitFor twiceHeldFurrow 1 = true)

/-- What `vcmp` answers where its active set is not empty (R222): the lanes' conditions in `pD` and their flags, and the instruction completes. -/
theorem exec_vcmp_done {s : State} {q : Issue} {f : Furrow} {g : Group} {cc : Cc} {x : LV} (h : Issues s q f g (.vcmp cc x))
    (hm : f.activeSet (.vcmp cc x) g ≠ 0) :
    let r := tableOf (fun l => condition f cc x.ty (elem x.ty (f.laneBits x.ty x.a.val l) 0) (f.bElem x.ty x.b l 0))
    let m := f.activeSet (.vcmp cc x) g
    exec (.vcmp cc x) s =
      s.done (.vcmp cc x) q (f.writeP x.d.val m (maskOf (fun l => (laneAt r l).1))) g m (flagsOver m (fun l => (laneAt r l).2)) := by
  intro r m
  rw [exec_vcmp, execVcmp, running_issues h]
  exact if_neg hm

/-- Completing ends the back-off of every group of lane 0 (R46), and with it that reservation: the trap backs off behind lane 1. -/
theorem nanCompare_backs_off :
    ∃ t, exec (.vcmp .lt nanCompare) twiceHeld = .next t ∧ (t.furrow? laneZeroIssue.core laneZeroIssue.slot).map Furrow.level = some 0 :=
  ⟨_, exec_vcmp_done nanCompare_issues (by decide +kernel), by decide +kernel⟩

/-- Refutes O10: its hypotheses say that the issuing group holds no permit by a back-off of its own, and not that no other group has its lanes. Where one
with a long back-off has, completing ends that back-off as well, and with it the reservation that a permit was free for (R323): the trap is not
entered, its group backs off. -/
theorem not_floatTrapTaken : ¬ Obligations.FloatTrapTaken := by
  unfold Obligations.FloatTrapTaken
  intro h
  obtain ⟨-, -, compare, -⟩ := h twiceHeld laneZeroIssue twiceHeldFurrow comparingGroup .lt nanCompare
  rw [nanCompare_active] at compare
  obtain ⟨t, ht, f', hf', hlevel, -⟩ := compare 3 nanCompare_issues (.inr (by decide +kernel)) (by rw [nanCompare_raises]; decide)
    (nanCompare_lateReady _ _)
  obtain ⟨t', ht', waits⟩ := nanCompare_backs_off
  obtain rfl : t = t' := by rw [ht] at ht'; injection ht'
  rw [hf', Option.map_some, hlevel] at waits
  exact absurd waits (by decide)

end Sys2Proof.Machine
end

section
/-! O60: every step keeps the canonical form of memory and of the fields' stores. A lemma for each operation of a step says that it keeps the form; what
writes no bytes keeps it because it leaves `mem` and `fields` as they are, what writes bytes does so through `Mem.writeBytes` and `Store.writeBytes`,
which keep it by themselves. -/
namespace Sys2Proof.Machine
/-! ### The form of a field's stores -/

/-- A field's own stores are in canonical form. -/
def Field.StoresOk (fl : Field) : Prop := cellsOk 0 fl.sp.cells = true ∧ cellsOk 0 fl.tile.cells = true ∧ cellsOk 0 fl.bsl.cells = true

namespace Field.StoresOk
variable {fl : Field} (h : fl.StoresOk) (a : Nat) (bs : List Byte)
include h

theorem writeScratchpad : StoresOk { fl with sp := fl.sp.writeBytes a bs } := ⟨Store.writeBytes_ok h.1 a bs, h.2⟩

theorem writeTile : StoresOk { fl with tile := fl.tile.writeBytes a bs } := ⟨h.1, Store.writeBytes_ok h.2.1 a bs, h.2.2⟩

theorem writeSlice : StoresOk { fl with bsl := fl.bsl.writeBytes a bs } := ⟨h.1, h.2.1, Store.writeBytes_ok h.2.2 a bs⟩

/-- A soft error poisons words and changes no byte. -/
theorem spoil (space : Nat) (ws : List Nat) : (fl.spoil space ws).StoresOk := by
  unfold Field.spoil
  split_ifs <;> exact h

end Field.StoresOk

/-! ### What becomes of the form when memory or the fields change, or neither -/

/-- An outcome leaves bytes in canonical form: where it goes on, the next state's are. -/
def NextOk : Out → Prop
  | .next t => BytesOk t
  | _ => True

/-- A contribution leaves bytes in canonical form, however it ends. -/
def PayOk : Paying → Prop
  | .done t | .absent t | .fault t .. | .lost t _ | .busy t => BytesOk t

section Changes
variable {s t : State} (h : BytesOk s)
include h

/-- Work of the agents of coherence. -/
theorem BytesOk.of_backstage (hb : Backstage s t) (ha : t.aside = s.aside) : BytesOk t :=
  h.of_eq (congrArg (fun x => x.2.1) ha) hb.fields

theorem BytesOk.filterFields {p : Field → Bool} (hm : t.mem = s.mem) (hf : t.fields = s.fields.filter p) : BytesOk t :=
  ⟨h.mem.of_mem hm, by rw [hf]; exact fun fl m => h.fields fl (List.mem_of_mem_filter m)⟩

theorem BytesOk.addFields {fs : List Field} (hfs : ∀ fl ∈ fs, fl.StoresOk) (hm : t.mem = s.mem)
    (hf : t.fields = s.fields ++ fs) : BytesOk t :=
  ⟨h.mem.of_mem hm, by rw [hf]; exact List.forall_mem_append.2 ⟨h.fields, hfs⟩⟩

theorem BytesOk.mapFields {k : Field → Field} (hk : ∀ fl, fl.StoresOk → (k fl).StoresOk) (hm : t.mem = s.mem)
    (hf : t.fields = s.fields.map k) : BytesOk t :=
  ⟨h.mem.of_mem hm, by rw [hf]; exact List.forall_mem_map.2 fun fl m => hk fl (h.fields fl m)⟩

/-- A change of a field that leaves its stores alone. -/
theorem BytesOk.onFieldRest {id : Nat} {k : Field → Field}
    (hk : ∀ fl, (k fl).sp = fl.sp ∧ (k fl).tile = fl.tile ∧ (k fl).bsl = fl.bsl) : BytesOk (s.onField id k) :=
  h.onField id k fun fl m => by
    obtain ⟨hsp, htile, hbsl⟩ := hk fl
    rw [hsp, htile, hbsl]
    exact h.fields fl m

end Changes

/-! ### Choices, folds and pairs -/

section Control
variable {α β : Type} {s t : State}

theorem BytesOk.ite {p : Prop} [Decidable p] (hs : BytesOk s) (ht : BytesOk t) : BytesOk (if p then s else t) := by
  split
  · exact hs
  · exact ht

theorem BytesOk.ite_fst {a b : State × α} {p : Prop} [Decidable p] (ha : BytesOk a.1) (hb : BytesOk b.1) : BytesOk (if p then a else b).1 := by
  split
  · exact ha
  · exact hb

theorem NextOk.ite {a b : Out} {p : Prop} [Decidable p] (ha : NextOk a) (hb : NextOk b) : NextOk (if p then a else b) := by
  split
  · exact ha
  · exact hb

theorem BytesOk.pair {x : α} (h : BytesOk t) : BytesOk (t, x).1 := h

theorem BytesOk.of_fst {p : State × α} {x : α} (h : BytesOk p.1) (e : p = (t, x)) : BytesOk t := by
  rw [e] at h
  exact h

theorem PayOk.of_eq {p r : Paying} (h : PayOk p) (e : p = r) : PayOk r := e ▸ h

theorem NextOk.of_map {o : Option α} {k : α → Out} {r : Out} (hk : ∀ x, NextOk (k x)) (e : o.map k = some r) : NextOk r := by
  obtain ⟨x, -, rfl⟩ := Option.map_eq_some_iff.1 e
  exact hk x

theorem BytesOk.elim {o : Option α} {k : α → State} (h : BytesOk s) (hk : ∀ x, BytesOk (k x)) : BytesOk (o.elim s k) := by
  cases o with
  | none => exact h
  | some x => exact hk x

theorem BytesOk.foldl {k : State → α → State} {l : List α} (h : BytesOk s) (hk : ∀ t x, BytesOk t → BytesOk (k t x)) : BytesOk (l.foldl k s) :=
  List.foldlRecOn l k h (fun t ht x _ => hk t x ht)

theorem BytesOk.foldl_fst {k : State × β → α → State × β} {l : List α} {p : State × β} (h : BytesOk p.1)
    (hk : ∀ p x, BytesOk p.1 → BytesOk (k p x).1) : BytesOk (l.foldl k p).1 :=
  List.foldlRecOn (motive := fun r => BytesOk r.1) l k h (fun r hr x _ => hk r x hr)

theorem BytesOk.foldr {k : α → State → State} {l : List α} (h : BytesOk s) (hk : ∀ x t, BytesOk t → BytesOk (k x t)) : BytesOk (l.foldr k s) := by
  induction l with
  | nil => exact h
  | cons x l ih => exact hk x _ ih

end Control

section Kept
variable {s : State} {i : Instr} {q : Issue} {f : Furrow} {g : Group} {lanes m : Mask} {c : Command} {fl : Field} {k : AccessKind} {o : Origin}
  {x : LM} {w : Wait} {r : TrapReq} {write : Bool} {bs : List Byte} {secs : List Nat} {us : List (Nat × Nat)} {load : Option (Nat × List Nat)}
  {core pa n ctx vf slot die a id pf cmd sector field agent va quarter addr code size off scheme ld sec key unit level info part space src dst : Nat}

/-! ### Changes of one part of the state beside memory and the fields -/

theorem BytesOk.poisonSector (h : BytesOk s) : BytesOk (s.poisonSector pa) := h.of_eq rfl rfl

theorem BytesOk.setFurrow (h : BytesOk s) : BytesOk (s.setFurrow f) := h.of_eq rfl rfl

theorem BytesOk.onFurrow {k : Furrow → Furrow} (h : BytesOk s) : BytesOk (s.onFurrow core slot k) := h.of_eq rfl rfl

theorem BytesOk.onCtx {c : Nat} {k : Ctx → Ctx} (h : BytesOk s) : BytesOk (s.onCtx c k) := h.of_eq rfl rfl

theorem BytesOk.onCore {c : Nat} {k : Core → Core} (h : BytesOk s) : BytesOk (s.onCore c k) := h.of_eq rfl rfl

theorem BytesOk.onDie {d : Nat} {k : Die → Die} (h : BytesOk s) : BytesOk (s.onDie d k) := h.of_eq rfl rfl

theorem BytesOk.onScheme {k : Scheme → Scheme} (h : BytesOk s) : BytesOk (s.onScheme id k) := h.of_eq rfl rfl

theorem BytesOk.onCmd {k : Command → Command} (h : BytesOk s) : BytesOk (s.onCmd id k) := h.of_eq rfl rfl

theorem BytesOk.onColl {k : Collective → Collective} (h : BytesOk s) : BytesOk (s.onColl id k) := h.of_eq rfl rfl

theorem BytesOk.onVf {k : Vf → Vf} (h : BytesOk s) : BytesOk (s.onVf n k) := h.of_eq rfl rfl

theorem BytesOk.onLd {k : Ld → Ld} (h : BytesOk s) : BytesOk (s.onLd n k) := h.of_eq rfl rfl

theorem BytesOk.onQuad {k : Quad → Quad} (h : BytesOk s) : BytesOk (s.onQuad n k) := h.of_eq rfl rfl

theorem BytesOk.tickFree (h : BytesOk s) : BytesOk s.tickFree := h.of_eq rfl rfl

/-! ### What the parties have seen -/

theorem BytesOk.noteReads {p : Party} {seqs : List Nat} (h : BytesOk s) : BytesOk (s.noteReads p seqs) := .ite h (h.of_eq rfl rfl)

theorem BytesOk.noteLast {p : Party} (h : BytesOk s) : BytesOk (s.noteLast p space field addr n) := h.noteReads

theorem BytesOk.wake {t : Watch → Bool} (h : BytesOk s) : BytesOk (s.wake t) := h.of_eq rfl rfl

theorem BytesOk.settleBytes (h : BytesOk s) : BytesOk (s.settleBytes space field addr n) := h.of_eq rfl rfl

theorem BytesOk.noteUnit {old : List Byte} (h : BytesOk s) : BytesOk (s.noteUnit o space field addr old) := h.of_eq rfl rfl

theorem BytesOk.noteUnder {w : Write} (h : BytesOk s) : BytesOk (s.noteUnder o w bs) := h.of_eq rfl rfl

theorem BytesOk.noteWrite {old : List Byte} (h : BytesOk s) : BytesOk (s.noteWrite o space field addr us old) := h.foldl (fun _ _ h1 => h1.noteUnit)

theorem BytesOk.fuse {op : Nat} (h : BytesOk s) : BytesOk (s.fuse op) := h.of_eq rfl rfl

theorem BytesOk.publish {p : Party} {scope : Nat} {firm : Bool} (h : BytesOk s) : BytesOk (s.publish p scope firm) := h.of_eq rfl rfl

theorem BytesOk.publishReleases {p : Party} (h : BytesOk s) : BytesOk (s.publishReleases p) := h.of_eq rfl rfl

theorem BytesOk.undiverge {p : Party} (h : BytesOk s) : BytesOk (s.undiverge p) := h.of_eq rfl rfl

theorem BytesOk.raiseFloor {scope : Nat} (h : BytesOk s) : BytesOk (s.raiseFloor f lanes scope) := h.onFurrow

theorem BytesOk.expire (h : BytesOk s) : BytesOk s.expire := .of_eq (.ite h h.wake) rfl rfl

theorem BytesOk.bindLanes {p : Party} {t : Write → Bool} (h : BytesOk s) : BytesOk (s.bindLanes p t) := h.noteReads

theorem BytesOk.bindPushes {p : Party} {cls : Cls} {t : Write → Bool} (h : BytesOk s) : BytesOk (s.bindPushes p cls t) := h.of_eq rfl rfl

theorem BytesOk.bindCommand {p : Party} {cls : Cls} (h : BytesOk s) : BytesOk (s.bindCommand p cls cmd) := h.of_eq rfl rfl

theorem BytesOk.observed {scope : Nat} {cmds : List Nat} (h : BytesOk s) : BytesOk (s.observed f scope cmds) := h.of_eq rfl rfl

theorem BytesOk.learned {scope : Nat} {cmds : List Nat} (h : BytesOk s) : BytesOk (s.learned f lanes scope cmds) := .observed (h.of_eq rfl rfl)

theorem BytesOk.sawFlip {scope : Nat} (h : BytesOk s) : BytesOk (s.sawFlip f lanes scope space field addr) := h.bindLanes.learned

theorem BytesOk.flipAt (h : BytesOk s) : BytesOk (s.flipAt space field addr) := h.of_eq rfl rfl

theorem BytesOk.crossPath {a b : Cls} (h : BytesOk s) : BytesOk (s.crossPath f lanes a b) := .ite h (.ite h.bindLanes h.bindPushes)

/-! ### The reuse entries of a quarter -/

theorem BytesOk.onReuse {k : List ReuseEntry → List ReuseEntry} (h : BytesOk s) : BytesOk (s.onReuse core quarter k) := h.onCore

theorem BytesOk.purgeReuse (h : BytesOk s) : BytesOk (s.purgeReuse core quarter) := h.onCore

/-! ### Tokens and holders of sectors, and the write of memory -/

theorem BytesOk.setSector {x : Sector} (h : BytesOk s) : BytesOk (s.setSector x) := h.of_eq rfl rfl

theorem BytesOk.onHolder {k : Holder → Holder} (h : BytesOk s) : BytesOk (s.onHolder pa a k) := h.setSector

theorem BytesOk.killLoads {onCore : Nat → Bool} {t : ReuseEntry → Bool} (h : BytesOk s) : BytesOk (s.killLoads onCore t) := h.of_eq rfl rfl

theorem BytesOk.rollbackSpec {sf : SpecFence} {pc : BitVec 24} {w : Option Wait} (h : BytesOk s) : BytesOk (s.rollbackSpec f sf pc w) :=
  h.setFurrow.purgeReuse.onCore

theorem BytesOk.dropL1 {onCore : Nat → Bool} (h : BytesOk s) : BytesOk (s.dropL1 onCore pa) :=
  h.of_backstage (backstage_dropL1 s _ _) (s.aside_dropL1 _ _)

theorem BytesOk.agentLost {last : Bool} (h : BytesOk s) : BytesOk (s.agentLost a pa last) :=
  h.of_backstage (backstage_agentLost s _ _ _) (s.aside_agentLost _ _ _)

theorem BytesOk.onAgentErrs {k : ErrCounters → ErrCounters} (h : BytesOk s) : BytesOk (s.onAgentErrs a k) :=
  .ite h.onDie (.ite h.onDie (h.of_eq rfl rfl))

theorem BytesOk.send {m : Message} (h : BytesOk s) : BytesOk (s.send m) := h.of_eq rfl rfl

theorem BytesOk.sendTo {dsts : List Nat} {m : Message} (h : BytesOk s) : BytesOk (s.sendTo dsts m) :=
  h.of_backstage (backstage_sendTo s _ _) (s.aside_sendTo _ _)

theorem BytesOk.giveAll (h : BytesOk s) : BytesOk (s.giveAll pa src dst) := h.of_backstage (backstage_giveAll s _ _ _) (s.aside_giveAll _ _ _)

theorem BytesOk.countAccess {d : Nat} (h : BytesOk s) : BytesOk (s.countAccess pa d).1 := h.of_eq rfl rfl

theorem BytesOk.firstAttempt (h : BytesOk s) : BytesOk (s.firstAttempt a pa write core) := h.onHolder.sendTo

theorem BytesOk.request (h : BytesOk s) : BytesOk (s.request a pa write core) :=
  h.of_backstage (backstage_request s _ _ _ _) (s.aside_request _ _ _ _)

theorem BytesOk.startHostOp {op : HostOp} (h : BytesOk s) : BytesOk (s.startHostOp pa op) :=
  h.of_backstage (backstage_startHostOp s _ _) (s.aside_startHostOp _ _)

theorem BytesOk.forward {r : Nat} (h : BytesOk s) : BytesOk (s.forward pa a r) := h.of_backstage (backstage_forward s _ _ _) (s.aside_forward _ _ _)

theorem BytesOk.answer (h : BytesOk s) : BytesOk (s.answer pa a src write) := h.of_backstage (backstage_answer s _ _ _ _) (s.aside_answer _ _ _ _)

theorem BytesOk.accessDone {wr : Bool} (h : BytesOk s) : BytesOk (s.accessDone a pa wr) :=
  h.of_backstage (backstage_accessDone s _ _ _) (s.aside_accessDone _ _ _)

theorem BytesOk.readHeld (h : BytesOk s) : BytesOk (s.readHeld a pa) := .ite h.accessDone h

theorem BytesOk.activateNext (h : BytesOk s) : BytesOk (s.activateNext pa) := h.of_backstage (backstage_activateNext s _) (s.aside_activateNext _)

theorem BytesOk.addPending (h : BytesOk s) : BytesOk (s.addPending pa a write) :=
  h.of_backstage (backstage_addPending s _ _ _) (s.aside_addPending _ _ _)

theorem BytesOk.deactivate (h : BytesOk s) : BytesOk (s.deactivate pa a) := h.of_backstage (backstage_deactivate s _ _) (s.aside_deactivate _ _)

theorem BytesOk.keepHome (h : BytesOk s) : BytesOk (s.keepHome sec) := by
  unfold State.keepHome
  split
  · exact .ite h h.setSector
  · exact h

/-- The one write of memory's bytes behind every store: what goes before it settles bytes and homes, what comes after it tells who watches. -/
theorem BytesOk.performWrite {writer : Option (Nat × Nat)} (h : BytesOk s) : BytesOk (s.performWrite pa bs writer) := by
  unfold State.performWrite
  extract_lets s0 s1 s2
  have h0 : BytesOk s0 := .foldl (.ite h.settleBytes h) fun _ _ ht => ht.keepHome
  have h1 : BytesOk s1 := h0.writeBytes _ _
  have h2 : BytesOk s2 := by
    unfold s2
    split
    · exact h1.killLoads
    · exact h1
  exact h2.foldl fun _ _ ht => .wake (.ite ht.dropL1.onHolder ht.dropL1)

theorem BytesOk.writeScratch (h : BytesOk s) : BytesOk (s.writeScratch field a bs) :=
  BytesOk.wake (h.onField field _ fun _ m => Field.StoresOk.writeScratchpad (h.fields _ m) a bs)

/-! ### Translation and fault queues -/

theorem BytesOk.tlbFill {e : TlbEntry} (h : BytesOk s) : BytesOk (s.tlbFill core e) := by
  unfold State.tlbFill
  exact h.onCore.onDie

theorem BytesOk.translateNow (h : BytesOk s) : BytesOk (s.translateNow ctx core va k level).1 := by
  unfold State.translateNow
  split
  · exact h
  · split
    · exact h
    · split
      · exact h
      · exact .ite h.tlbFill h

theorem BytesOk.translate (h : BytesOk s) : BytesOk (s.translate ctx core va k level).1 := by
  unfold State.translate
  split
  · exact h.request
  · exact .translateNow (h.foldl (fun _ _ h1 => h1.readHeld))

theorem BytesOk.tlbDrop {t : TlbEntry → Bool} (h : BytesOk s) : BytesOk (s.tlbDrop t) := by
  unfold State.tlbDrop
  exact .killLoads (h.of_eq rfl rfl)

theorem BytesOk.postFault {r : FaultReport} {w : Waiter} (h : BytesOk s) : BytesOk (s.postFault die r w).1 := by
  unfold State.postFault
  dsimp only
  split
  · exact .pair h.onDie
  · exact .ite_fst h (.pair h.onDie)

theorem BytesOk.postHint (h : BytesOk s) : BytesOk (s.postHint die pa) := by
  unfold State.postHint
  dsimp only
  split
  · exact .onDie (h.of_eq rfl rfl)
  · exact .ite (h.of_eq rfl rfl) (.onDie (h.of_eq rfl rfl))

theorem BytesOk.noteRequest (h : BytesOk s) : BytesOk (s.noteRequest pa die) := .ite h.countAccess.postHint h.countAccess

/-! ### Writes through the base die, records, and the ends of fields, schemes and contexts -/

theorem BytesOk.raiseIrq {vec : Nat} (h : BytesOk s) : BytesOk (s.raiseIrq vf vec) := by
  unfold State.raiseIrq
  split
  · exact .ite h.onVf.tickFree h
  · exact h

theorem BytesOk.setEvent {bit : Nat} (h : BytesOk s) : BytesOk (s.setEvent vf bit) := h.onVf.raiseIrq

theorem BytesOk.performOuter {o : OuterOp} (h : BytesOk s) : BytesOk (s.performOuter o) := by
  unfold State.performOuter
  extract_lets bs s0 s1 _ s2
  have h0 : BytesOk s0 := .ite h h.performWrite
  have h1 : BytesOk s1 := .ite h0 h0.onHolder
  have h2 : BytesOk s2 := by
    refine .ite h1 ?_
    split
    · exact h1.accessDone.giveAll
    · exact h1.setSector.accessDone
    · exact .ite h1.setSector.onHolder.deactivate h1.accessDone
  split
  · exact h2.raiseIrq
  · exact h2

theorem BytesOk.runOuter {l : List OuterOp} {b : Bool} {blocked : List Nat} (h : BytesOk s) : BytesOk (runOuter l b blocked s).1 := by
  induction l generalizing s b blocked with
  | nil => exact h
  | cons x l ih => exact .ite_fst (ih h.performOuter) (ih h)

theorem BytesOk.requestOuter {o : OuterOp} (h : BytesOk s) : BytesOk (s.requestOuter o) :=
  .ite h (.ite h.onHolder.addPending (.ite h.startHostOp h.request))

theorem BytesOk.settleOuter (h : BytesOk s) : BytesOk s.settleOuter := .ite h (.foldl (h.runOuter.of_eq rfl rfl) (fun _ _ h1 => h1.requestOuter))

theorem BytesOk.addOuter {os : List OuterOp} (h : BytesOk s) : BytesOk (s.addOuter os) := .settleOuter (h.of_eq rfl rfl)

theorem BytesOk.requestBase (h : BytesOk s) : BytesOk (s.requestBase sec) := .ite h.onHolder.addPending h.request

theorem BytesOk.baseReadDone (h : BytesOk s) : BytesOk (s.baseReadDone sec) := .ite (.ite h.setSector.onHolder.deactivate h) h.readHeld

theorem BytesOk.whenRead {k : State → State} (h : BytesOk s) (hk : ∀ t, BytesOk t → BytesOk (k t)) : BytesOk (s.whenRead i secs k) :=
  .ite (hk _ (h.foldl (fun _ _ h1 => h1.baseReadDone))) (.foldl (h.of_eq rfl rfl) (fun _ _ h1 => h1.requestBase))

theorem BytesOk.baseWrite (h : BytesOk s) : BytesOk (s.baseWrite pa bs) := h.addOuter

theorem BytesOk.baseWriteIrq {ps : List (Nat × Nat)} {vec : Nat} (h : BytesOk s) : BytesOk (s.baseWriteIrq ps bs vf vec) := h.addOuter

theorem BytesOk.recordNow {queue : Nat} {done : BitVec 64} (h : BytesOk s) : BytesOk (s.recordNow ctx queue done bs) := by
  unfold State.recordNow
  refine .ite h.raiseIrq (.ite h.setEvent.raiseIrq (.ite h.onVf ?_))
  split
  · exact .ite h.setEvent.raiseIrq h.baseWriteIrq
  · exact h.setEvent.raiseIrq

theorem BytesOk.writeRecord {queue : Nat} {done : BitVec 64} (h : BytesOk s) : BytesOk (s.writeRecord ctx queue done bs) :=
  .ite (.foldl (h.of_eq rfl rfl) (fun _ _ h1 => h1.requestBase)) (.recordNow (h.foldl (fun _ _ h1 => h1.baseReadDone)))

theorem BytesOk.settleRecords (h : BytesOk s) : BytesOk s.settleRecords := .ite h (.foldl (h.of_eq rfl rfl) (fun _ _ h1 => h1.writeRecord))

theorem BytesOk.settleBase (h : BytesOk s) : BytesOk s.settleBase := h.settleOuter.settleRecords

theorem BytesOk.endScheme {detail : Nat} {loc : BitVec 64} (h : BytesOk s) : BytesOk (s.endScheme id code detail loc) := by
  unfold State.endScheme
  split
  · exact h
  · exact .ite h h.onScheme.writeRecord

theorem BytesOk.sweep (h : BytesOk s) : BytesOk s.sweep := h.of_eq rfl rfl

theorem BytesOk.endField (h : BytesOk s) : BytesOk (s.endField id) := by
  unfold State.endField
  split
  · exact h
  · refine .ite h ?_
    extract_lets s1 s2 s3
    have h1 : BytesOk s1 := .onFieldRest h fun _ => ⟨rfl, rfl, rfl⟩
    have h2 : BytesOk s2 := h1.of_eq rfl rfl
    have h3 : BytesOk s3 := .ite (h2.of_eq rfl rfl) h2
    exact h3.sweep

theorem BytesOk.endSchemeNow (h : BytesOk s) : BytesOk (s.endSchemeNow id code) := .endScheme (h.foldl (fun _ _ h1 => h1.endField))

theorem BytesOk.endContext {e : CtxEnd} (h : BytesOk s) : BytesOk (s.endContext ctx e) := by
  unfold State.endContext
  split
  · exact h
  · refine .ite h ?_
    extract_lets s1 s2 s3
    have h2 : BytesOk s2 := h.onCtx.foldl fun _ _ ht => ht.endField
    have h3 : BytesOk s3 := h2.foldl fun _ _ ht => ht.endScheme
    exact .ite h3.setEvent h3

theorem BytesOk.contextFault {cause : Nat} {loc : BitVec 64} (h : BytesOk s) : BytesOk (s.contextFault core slot ctx cause loc) :=
  .ite h.onFurrow h.onFurrow.endContext

/-! ### Handing out free registers -/

theorem BytesOk.handoutFree (h : BytesOk s) : BytesOk (State.handoutFree core quarter n s) := by
  induction n generalizing s with
  | zero =>
    unfold State.handoutFree
    exact h
  | succ n ih =>
    unfold State.handoutFree
    dsimp only
    split
    · exact ih h.onFurrow
    · exact h

theorem BytesOk.handout (h : BytesOk s) : BytesOk (s.handout core quarter) := .handoutFree (h.of_eq rfl rfl)

/-! ### Rights, fillings and spilled registers -/

theorem BytesOk.passRight (h : BytesOk s) : BytesOk (s.passRight field core quarter) := by
  unfold State.passRight
  dsimp only
  refine .ite h ?_
  split
  · exact h.onFurrow
  · exact h

theorem BytesOk.dropFilling (h : BytesOk s) : BytesOk (s.dropFilling core slot lanes) := h.onReuse

theorem BytesOk.startFilling (h : BytesOk s) : BytesOk (s.startFilling i f g m load) := by
  unfold State.startFilling
  split
  · exact .ite h.onReuse h
  · exact h

theorem BytesOk.spillOne (h : BytesOk s) : BytesOk (s.spillOne f) := by
  unfold State.spillOne
  split
  · exact h.onFurrow.purgeReuse.baseWrite
  · exact h.onFurrow.purgeReuse

theorem BytesOk.reload (h : BytesOk s) : BytesOk (s.reload f) := h.onFurrow

theorem BytesOk.spill {k : Nat} (h : BytesOk s) : BytesOk (State.spill core quarter k n s) := by
  induction n generalizing s with
  | zero => exact h
  | succ n ih =>
    unfold State.spill
    split
    · exact h
    · exact .ite h (ih h.spillOne)

theorem BytesOk.makeRoomFor {k : Nat} (h : BytesOk s) : BytesOk (s.makeRoomFor core quarter k) := .ite h.spill h

theorem BytesOk.respill {dests : List Nat} (h : BytesOk s) : BytesOk (s.respill f dests) := by
  unfold State.respill
  refine .ite ?_ h
  split
  · exact h.baseWrite
  · exact h

theorem BytesOk.afterVector {f0 : Furrow} {fl : Nat} {begun : Bool} (h : BytesOk s) : BytesOk (s.afterVector i f0 f g m fl load begun).1 := by
  unfold State.afterVector
  dsimp only
  split
  · exact h.setFurrow.purgeReuse.onCore
  · exact .onCore (.onReuse (.respill (.setFurrow (.ite h h.makeRoomFor))))

/-! ### Traps, and the ways in which an instruction leaves the issue slot -/

theorem NextOk.issued {k : Issue → Furrow → Group → Out} (hk : ∀ q f g, NextOk (k q f g)) : NextOk (issued s k) := by
  unfold Machine.issued
  split
  · exact trivial
  · split
    · exact trivial
    · split
      · exact trivial
      · exact hk _ _ _

theorem BytesOk.reap (h : BytesOk s) : BytesOk (s.reap core slot) := by
  unfold State.reap
  split
  · exact h
  · exact .ite h h.setFurrow.sweep.purgeReuse.passRight.handout

theorem BytesOk.reserveFor (h : BytesOk s) : BytesOk (s.reserveFor core slot lanes) := h.onCore

theorem BytesOk.takePermit (h : BytesOk s) : BytesOk (s.takePermit f lanes) := h.onFurrow.onCore

theorem BytesOk.backOff (h : BytesOk s) : BytesOk (s.backOff f r) := by
  unfold State.backOff
  split
  · exact h
  · exact .onFurrow (.ite h.reserveFor h)

theorem BytesOk.enterLevel (h : BytesOk s) : BytesOk (s.enterLevel f n r) := .handout (.onFurrow (.ite h.takePermit h))

theorem BytesOk.enterTrap {r0 : TrapReq} (h : BytesOk s) : BytesOk (s.enterTrap core slot r0) := by
  unfold State.enterTrap
  split
  · exact h
  · refine .ite h ?_
    split
    · exact h
    · split
      · exact h.contextFault
      · exact .ite h.backOff h.enterLevel

theorem BytesOk.takeStep (h : BytesOk s) : BytesOk (s.takeStep core slot) := by
  unfold State.takeStep
  split
  · exact h
  · split
    · exact h
    · exact .ite h.onFurrow (.ite h.backOff h.onFurrow.enterLevel)

theorem BytesOk.settleEnding (h : BytesOk s) : BytesOk (s.settleEnding core slot) := .ite h.onFurrow.reap h

theorem BytesOk.leaveIssue (h : BytesOk s) : BytesOk (s.leaveIssue q n) := .settleEnding (.onFurrow (h.of_eq rfl rfl))

theorem BytesOk.nextInSlot (h : BytesOk s) : BytesOk (s.nextInSlot q) := by
  unfold State.nextInSlot
  split
  · exact h.of_eq rfl rfl
  · split
    · exact .enterTrap (h.of_eq rfl rfl)
    · exact h.of_eq rfl rfl

theorem BytesOk.closeSlot (h : BytesOk s) : BytesOk (s.closeSlot q) := h.onFurrow

theorem BytesOk.settleStep (h : BytesOk s) : BytesOk (s.settleStep core slot) := .ite h.takeStep h

theorem BytesOk.endIssue (h : BytesOk s) : BytesOk (s.endIssue q) := by
  unfold State.endIssue
  dsimp only
  split
  · split
    · exact h.leaveIssue.closeSlot.nextInSlot
    · exact h.leaveIssue.settleStep
  · exact h.nextInSlot

theorem BytesOk.endChain (h : BytesOk s) : BytesOk (s.endChain q lanes) := .endIssue (.handout (.reap (.ite h.onFurrow.settleStep h.onFurrow)))

theorem BytesOk.chainOn (h : BytesOk s) : BytesOk (s.chainOn q lanes) := by
  unfold State.chainOn
  dsimp only
  split
  · exact h.of_eq rfl rfl
  · split
    · exact h.onFurrow.leaveIssue.of_eq rfl rfl
    · exact h.onFurrow.leaveIssue

theorem BytesOk.stepOver {pc : BitVec 24} {chained : Bool} (h : BytesOk s) : BytesOk (s.stepOver q g pc chained) :=
  .ite h.onFurrow.chainOn h.onFurrow.endChain

theorem BytesOk.trapInSlot (h : BytesOk s) : BytesOk (s.trapInSlot q r) := by
  unfold State.trapInSlot
  split
  · exact h.of_eq rfl rfl
  · exact .enterTrap (.of_eq (.ite h.onFurrow h) rfl rfl)
  · exact .enterTrap (h.of_eq rfl rfl)

theorem BytesOk.trapIssue (h : BytesOk s) : BytesOk (s.trapIssue q r) := by
  unfold State.trapIssue
  refine .ite h.onFurrow.endIssue ?_
  split
  · exact h.trapInSlot
  · split
    · exact h.dropFilling.closeSlot.onFurrow.trapInSlot
    · exact h.dropFilling.onFurrow.leaveIssue.settleStep

theorem BytesOk.trapNow (h : BytesOk s) : NextOk (trapNow s q g lanes code info) := h.trapIssue

theorem BytesOk.standBack {k : Furrow → Furrow} (h : BytesOk s) : BytesOk (s.standBack q g w k) := by
  unfold State.standBack
  refine .ite h.onFurrow.endIssue ?_
  split
  · exact h.of_eq rfl rfl
  · exact .ite h.onFurrow.endIssue (h.of_eq rfl rfl)

theorem BytesOk.waitWith {k : Furrow → Furrow} (h : BytesOk s) : BytesOk (s.waitWith q g w k) := by
  unfold State.waitWith
  split
  · exact h.leaveIssue
  · exact .ite h.onFurrow.endChain h.standBack

theorem BytesOk.waitAccess (h : BytesOk s) : BytesOk (s.waitAccess q g i w) := by
  unfold State.waitAccess
  extract_lets s0 s1
  have h1 : BytesOk s1 := .onFurrow (.ite h h.makeRoomFor)
  split
  · exact h1.leaveIssue
  · exact .ite (h1.of_eq rfl rfl) h1.onFurrow.nextInSlot

theorem BytesOk.waitTokens (h : BytesOk s) : BytesOk (s.waitTokens q g w) := h.standBack

theorem BytesOk.waitOn (h : BytesOk s) : BytesOk (s.waitOn q g w) := h.waitWith

theorem BytesOk.advance {fl : Nat} (h : BytesOk s) : BytesOk (s.advance i q f g m fl) := .ite h.stepOver (.ite h.stepOver h.onFurrow.trapIssue)

theorem BytesOk.wrote {fl : Nat} (h : BytesOk s) : BytesOk (s.wrote i q f g m fl load).1 := .ite_fst h.setFurrow h.afterVector

theorem BytesOk.doneWith {fl : Nat} (h : BytesOk s) : NextOk (s.doneWith i q f g m fl load) := h.wrote.advance

theorem BytesOk.done {fl : Nat} (h : BytesOk s) : NextOk (s.done i q f g m fl) := h.doneWith

theorem BytesOk.trapWith (h : BytesOk s) : NextOk (trapWith s q r) := h.trapIssue

theorem BytesOk.skip (h : BytesOk s) : NextOk (s.skip i q g) := h.stepOver

theorem BytesOk.transfer {pcs : Nat → BitVec 24} (h : BytesOk s) : NextOk (s.transfer i q f g pcs) := by
  unfold State.transfer
  dsimp only
  split
  · exact h.setFurrow.chainOn
  · exact h.setFurrow.endChain

theorem BytesOk.sync {rel acq : Bool} {c : Scope} (h : BytesOk s) : BytesOk (s.sync f lanes rel acq c) := by
  have h1 : BytesOk (if rel then s.publish (f.party lanes) c.code else s) := .ite h.publish h
  exact .ite h1.raiseFloor h1

theorem BytesOk.fenceSync {rel acq : Bool} {c : Scope} (h : BytesOk s) : BytesOk (s.fenceSync f lanes rel acq c) := by
  have h1 : BytesOk (if rel then s.publish (f.party lanes) c.code true else s) := .ite h.publish h
  exact .ite h1.raiseFloor h1

theorem BytesOk.releaseHolds (h : BytesOk s) : BytesOk (s.releaseHolds f) := .ite h h.fenceSync.onFurrow

theorem BytesOk.returnTrap {fr : Frame} {steps : Mask} (h : BytesOk s) : BytesOk (s.returnTrap f fr steps) :=
  .handout (.reap (.ite h.setFurrow.takeStep h.setFurrow))

theorem BytesOk.running {k : Issue → Furrow → Group → Out} (h : BytesOk s) (hk : ∀ q f g, NextOk (k q f g)) : NextOk (running i s k) :=
  .issued fun _ _ _ => .ite h.waitOn (.ite h.trapNow (.ite h.trapNow (hk _ _ _)))

/-! ### Rows over the lanes -/

theorem BytesOk.vectorDone {t : Ty} {d : Nat} {r : Nat → Nat × Nat} (h : BytesOk s) : NextOk (vectorDone s i q f g t d r) := .ite h.skip h.done

theorem BytesOk.elementwise {x : LV} {op : Furrow → Nat → Nat → Nat → Nat × Nat} (h : BytesOk s) : NextOk (elementwise i x s op) :=
  h.running (fun _ _ _ => h.vectorDone)

theorem BytesOk.uniform {f : SU} {signed : Bool} {op : W64 → W64 → W64} (h : BytesOk s) : NextOk (uniform i f signed op s) :=
  h.running (fun _ _ _ => h.done)

theorem BytesOk.execUins8 {f : SUImm} (h : BytesOk s) : NextOk (execUins8 f s) := h.running (fun _ _ _ => h.done)

theorem BytesOk.execUpopc {f : SUUn} (h : BytesOk s) : NextOk (execUpopc f s) := h.running (fun _ _ _ => h.done)

theorem BytesOk.execUclz {f : SUUn} (h : BytesOk s) : NextOk (execUclz f s) := h.running (fun _ _ _ => h.done)

theorem BytesOk.integerRow {f : LV} {op : Int → Int → Int → Int} (h : BytesOk s) : NextOk (integerRow i f op s) := h.elementwise

theorem BytesOk.bitRow {f : LV} {op : Nat → Nat → Nat} (h : BytesOk s) : NextOk (bitRow i f op s) := h.elementwise

theorem BytesOk.floatRow {f : LV} {op : Ty → Mode → Bool → Num → Num → Num → Nat × Nat} (h : BytesOk s) : NextOk (floatRow i f op s) := h.elementwise

theorem BytesOk.transcendentalRow {f : LV} {op : Nat} (h : BytesOk s) : NextOk (transcendentalRow i f op s) := h.elementwise

theorem BytesOk.execVcmp {cc : Cc} {f : LV} (h : BytesOk s) : NextOk (execVcmp cc f s) := h.running (fun _ _ _ => .ite h.skip h.done)

theorem BytesOk.execVsel {f : LV} (h : BytesOk s) : NextOk (execVsel f s) := h.running (fun _ _ _ => h.vectorDone)

theorem BytesOk.execVcvt {f : LV} (h : BytesOk s) : NextOk (execVcvt f s) := h.running (fun _ _ _ => h.vectorDone)

theorem BytesOk.packHalf {f : LV} {half : Nat} (h : BytesOk s) : NextOk (packHalf i f half s) := h.running (fun _ _ _ => h.vectorDone)

theorem BytesOk.unpackHalf {f : LV} {half : Nat} (h : BytesOk s) : NextOk (unpackHalf i f half s) := h.running (fun _ _ _ => .ite h.skip h.done)

theorem BytesOk.execVscl {f : LV} (h : BytesOk s) : NextOk (execVscl f s) := h.running (fun _ _ _ => h.vectorDone)

theorem BytesOk.shuffle {f : LV} {src : Nat → Nat → Int} (h : BytesOk s) : NextOk (shuffle i f src s) := h.running (fun _ _ _ => h.vectorDone)

theorem BytesOk.reduction {f : LV} {op : Furrow → List Nat → Nat × Nat} (h : BytesOk s) : NextOk (reduction i f op s) :=
  h.running (fun _ _ _ => h.vectorDone)

theorem BytesOk.foldReduction {f : LV} {k : Fold} (h : BytesOk s) : NextOk (foldReduction i f k s) := h.reduction

theorem BytesOk.bitReduction {f : LV} {op : Nat → Nat → Nat} (h : BytesOk s) : NextOk (bitReduction i f op s) := h.reduction

theorem BytesOk.scan {f : LV} {k : Fold} {exclusive : Bool} (h : BytesOk s) : NextOk (scan i f k exclusive s) := h.running (fun _ _ _ => h.vectorDone)

theorem BytesOk.predicate {pd : Fin 8} {value : Furrow → Mask} (h : BytesOk s) : NextOk (predicate i pd value s) := h.running (fun _ _ _ => h.done)

theorem BytesOk.overActive {k : Furrow → Mask → Furrow} (h : BytesOk s) : NextOk (overActive i s k) := h.running (fun _ _ _ => .ite h.skip h.done)

/-! ### Posting faults -/

theorem BytesOk.postPages {kind : Nat} {l : List (Nat × Bool × Bool × Nat)} (h : BytesOk s) : BytesOk (s.postPages f kind l).1 := by
  induction l generalizing s with
  | nil => exact h
  | cons x l ih =>
    unfold State.postPages
    split
    next e => exact ih (h.postFault.of_fst e)
    next e => exact ih (h.postFault.of_fst e)

theorem BytesOk.suspend {l : List LaneFault} {pc : BitVec 24} {replay whole : Bool} (h : BytesOk s) : BytesOk (s.suspend f l info pc replay whole) :=
  h.postPages.onFurrow

theorem BytesOk.faultIssue {l : List LaneFault} {pc : BitVec 24} {whole : Bool} (h : BytesOk s) : BytesOk (s.faultIssue q f l info pc whole) := by
  unfold State.faultIssue
  refine .ite ?_ (.ite h.trapIssue (.ite h.suspend.endIssue (.ite h.suspend.endIssue h.trapIssue)))
  split
  · exact h.waitOn
  · exact h.endIssue

/-! ### Fetch of a chain -/

theorem BytesOk.rawWord {pc : Nat} (h : BytesOk s) : BytesOk (s.rawWord f pc).1 := by
  unfold State.rawWord
  extract_lets va again
  have walked : BytesOk (if again then s.translateNow (s.ctxOf f) f.core va { fetch := true } f.level
      else s.translate (s.ctxOf f) f.core va { fetch := true } f.level).1 := .ite_fst h.translateNow h.translate
  refine .ite_fst h ?_
  split
  next e => exact walked.of_fst e
  next e => exact walked.of_fst e
  next t _ e =>
    have ht : BytesOk t := walked.of_fst e
    extract_lets s2
    have h2 : BytesOk s2 := .ite ht ht.readHeld
    exact .ite_fst (.pair ht.request) (.ite_fst h2 h2)

theorem BytesOk.fetchWord {pc : Nat} (h : BytesOk s) : BytesOk (s.fetchWord f pc).1 := by
  unfold State.fetchWord
  split
  next t _ e =>
    have ht : BytesOk t := h.rawWord.of_fst e
    split
    · exact ht
    · refine .ite_fst ht (.ite_fst ?_ ht)
      split
      next e1 => exact ht.rawWord.of_fst e1
      · exact ht.rawWord
  · exact h.rawWord

theorem BytesOk.fetchChain {pc : Nat} (h : BytesOk s) : BytesOk (State.fetchChain f n pc s).1 := by
  induction n generalizing s pc with
  | zero => exact h
  | succ n ih =>
    unfold State.fetchChain
    split
    next e => exact .ite_fst (ih (h.fetchWord.of_fst e)) (h.fetchWord.of_fst e)
    next e => exact h.fetchWord.of_fst e

theorem BytesOk.fetchFault {e : Fetched} (h : BytesOk s) : BytesOk (s.fetchFault q f g e) := by
  unfold State.fetchFault
  split
  · exact h.faultIssue
  · exact h.trapIssue

theorem BytesOk.beginChain (h : BytesOk s) : BytesOk (s.beginChain q f g i).1 := by
  unfold State.beginChain
  split
  · exact .ite_fst (h.of_eq rfl rfl) h.waitWith
  · exact .ite_fst h.waitOn (h.of_eq rfl rfl)

theorem BytesOk.firstWord (h : BytesOk s) : BytesOk (s.firstWord q f g).1 := by
  unfold State.firstWord
  extract_lets k r
  have hr : BytesOk r.1 := h.fetchChain
  refine .ite_fst h.trapIssue ?_
  split
  · exact hr.waitTokens
  · split
    · exact hr.trapIssue
    · exact hr.fetchFault
    · refine .ite_fst hr ?_
      split
      · exact hr.trapIssue
      · exact hr.beginChain

theorem BytesOk.laterWord (h : BytesOk s) : BytesOk (s.laterWord q f g).1 := by
  unfold State.laterWord
  dsimp only
  split
  · exact h.fetchChain
  · split
    · exact h.fetchChain.waitTokens
    · exact h.fetchChain.fetchFault
  · exact h.fetchChain.trapIssue

theorem BytesOk.allocate (h : BytesOk s) : BytesOk (s.allocate q g i).1 := by
  unfold State.allocate
  split
  · exact h
  · exact .ite_fst h.waitOn h

theorem BytesOk.prepare (h : BytesOk s) : BytesOk (s.prepare q).1 := by
  unfold State.prepare
  split
  · exact h.of_eq rfl rfl
  · split
    · exact .ite h.endIssue (h.of_eq rfl rfl)
    · refine .ite_fst ?_ ?_
      · split
        · exact h
        · exact h.endIssue
      · split
        next e2 => exact .allocate (.of_fst (.ite_fst h.laterWord h.firstWord) e2)
        · exact .ite_fst h.laterWord h.firstWord

/-! ### Checking lanes, performing the parts of an access, and posted stores -/

theorem BytesOk.globalSpot {l : List (Nat × Nat)} (h : BytesOk s) : BytesOk (s.globalSpot ctx core k level l).1 := by
  induction l generalizing s with
  | nil => exact h
  | cons x l ih =>
    unfold State.globalSpot
    split
    next t _ e =>
      have ht : BytesOk t := h.translate.of_fst e
      split <;> exact (ih ht).of_fst ‹_›
    next t _ _ e =>
      have ht : BytesOk t := h.translate.of_fst e
      extract_lets own
      split <;> exact (ih ht).of_fst ‹_›

theorem BytesOk.laneSpot {align : Nat} {unsup : Spot → Bool} (h : BytesOk s) : BytesOk (s.laneSpot f va size align k unsup).1 := by
  unfold State.laneSpot
  refine .ite_fst h (.ite_fst h ?_)
  extract_lets r
  have hr : BytesOk r.1 := .ite_fst h (by split <;> exact h.globalSpot.of_fst ‹_›)
  clear_value r
  split
  · exact .ite_fst (.pair hr) (.pair hr)
  · exact hr

theorem BytesOk.checkLanes {align : Nat} {unsup : State → Spot → Bool} {ea : Nat → Nat} {l : List Nat} (h : BytesOk s) :
    BytesOk (State.checkLanes f size align k unsup ea l s).1 := by
  induction l generalizing s with
  | nil => exact h
  | cons x l ih => exact ih h.laneSpot

theorem BytesOk.withSpots {align : Nat} {kind : AccessKind} {unsup : State → Spot → Bool} {ea : Nat → Nat} {k : State → List (Nat × Nat × Spot) → Out}
    (h : BytesOk s) (hk : ∀ t l, BytesOk t → NextOk (k t l)) :
    NextOk (withSpots s q f g lanes size align kind unsup ea k) := by
  unfold Machine.withSpots
  dsimp only
  split
  · exact .ite h.checkLanes.waitTokens h.checkLanes.faultIssue
  · split
    · exact h.checkLanes.trapIssue
    · exact hk _ _ h.checkLanes

theorem BytesOk.requestAll (h : BytesOk s) : BytesOk (s.requestAll agent core write secs) := h.foldl (fun _ _ h1 => h1.request)

theorem BytesOk.accessed {wr : Bool} (h : BytesOk s) : BytesOk (s.accessed agent secs wr) := h.foldl (fun _ _ h1 => .ite h1 h1.accessDone)

theorem BytesOk.whenHeld {ts : List Spot} {k : State → Out} (h : BytesOk s) (hk : ∀ t, BytesOk t → NextOk (k t)) :
    NextOk (whenHeld s q f g write ts k) := .ite h.waitOn (.ite h.requestAll.waitTokens (hk _ h))

theorem BytesOk.performParts {perform : State → Part → State × Nat × Bool} {l : List Part} (h : BytesOk s)
    (hperform : ∀ t p, BytesOk t → BytesOk (perform t p).1) :
    BytesOk (performParts perform l s).1 := by
  induction l generalizing s with
  | nil => exact h
  | cons x l ih => exact ih (hperform _ _ h)

theorem BytesOk.withParts {new : List Part} {pre : State → State} {perform : State → Part → State × Nat × Bool} {done : State → List Nat → State}
    {hold : State → State} {k : State → List Got → Out} (h : BytesOk s) (hpre : ∀ t, BytesOk t → BytesOk (pre t))
    (hperform : ∀ t p, BytesOk t → BytesOk (perform t p).1) (hdone : ∀ t l, BytesOk t → BytesOk (done t l))
    (hhold : ∀ t, BytesOk t → BytesOk (hold t)) (hk : ∀ t l, BytesOk t → NextOk (k t l)) :
    NextOk (withParts i s q f g m write new pre perform done hold k) := by
  unfold Machine.withParts
  extract_lets all ready todo r s1 got need s2
  have hr : BytesOk r.1 := .performParts (.ite h (hpre _ h)) hperform
  have h1 : BytesOk s1 := .ite hr (hdone _ _ hr)
  have h2 : BytesOk s2 := h1.requestAll
  have waits : NextOk (.next ((if g.accessing then s2 else hold s2).waitAccess q g i (.access write m todo got i))) :=
    BytesOk.waitAccess (.ite h2 (hhold _ h2))
  exact .ite h1.endIssue (.ite (hk _ _ h1) waits)

theorem BytesOk.noteLastSpot {p : Party} {t : Spot} (h : BytesOk s) : BytesOk (s.noteLastSpot p size t) := by
  unfold State.noteLastSpot
  split
  · exact h.noteLast
  · exact h.foldl (fun _ _ h1 => h1.noteLast)

theorem BytesOk.dropPeer (h : BytesOk s) : BytesOk (s.dropPeer die secs) := h.onDie.foldl (fun _ _ h1 => h1.dropL1)

theorem BytesOk.makeRoom (h : BytesOk s) : BytesOk (s.makeRoom die pa) := .ite h (.ite h.dropPeer h.giveAll)

theorem BytesOk.fillPeer (h : BytesOk s) : BytesOk (s.fillPeer die sec bs) := by
  unfold State.fillPeer
  refine .ite h (.onDie (.makeRoom ?_))
  split
  · exact .ite h.dropPeer.onDie h.onDie
  · exact h.onDie

theorem BytesOk.fillL1 (h : BytesOk s) : BytesOk (s.fillL1 core sec) := .ite h (.onCore (.ite h h.dropL1))

theorem BytesOk.afterLoad {l1 : Bool} (h : BytesOk s) : BytesOk (s.afterLoad core l1 secs) := by
  unfold State.afterLoad
  extract_lets s1
  have h1 : BytesOk s1 := h.foldl fun _ _ ht => .ite ht.fillPeer ht
  exact .ite (h1.foldl fun _ _ ht => ht.fillL1) h1

theorem BytesOk.putGlobal {vpage : Nat} (h : BytesOk s) : BytesOk (s.putGlobal o core vpage pa us bs) := by
  unfold State.putGlobal
  exact .performWrite (.ite h.noteWrite.dropPeer h.noteWrite)

theorem BytesOk.putScratch (h : BytesOk s) : BytesOk (s.putScratch o field off us bs) := h.noteWrite.writeScratch

theorem BytesOk.storeScratch (h : BytesOk s) : BytesOk (s.storeScratch o field off us bs) := by
  unfold State.storeScratch
  refine h.foldl (fun t x h1 => ?_)
  split
  · exact h1.noteUnder
  · exact h1.putScratch

theorem BytesOk.performWrites {op : Nat} {p : Posted} {l : List PostWrite} {blocked : List Nat} (h : BytesOk s) :
    BytesOk (State.performWrites f op p l blocked s).1 := by
  induction l generalizing s blocked with
  | nil => exact h
  | cons x l ih => exact .ite_fst (ih h.putGlobal) (ih h)

theorem BytesOk.performList {l : List Posted} {blocked : List Nat} (h : BytesOk s) : BytesOk (State.performList f l blocked s).1 := by
  induction l generalizing s blocked with
  | nil => exact h
  | cons x l ih => exact ih h.performWrites.accessed

theorem BytesOk.performPosted (h : BytesOk s) : BytesOk (s.performPosted core slot) := by
  unfold State.performPosted
  split
  · exact h
  · exact .ite h h.performList.onFurrow

theorem BytesOk.storeWrites {rel : Nat} {ws : List PostWrite} (h : BytesOk s) : BytesOk (s.storeWrites f g rel ws) :=
  .ite h h.killLoads.onFurrow.performPosted.requestAll

theorem BytesOk.storeLanes {rel : Nat} {as : List (Nat × Nat × Spot)} {data : Nat → List Byte} (h : BytesOk s) :
    BytesOk (s.storeLanes f g rel as data) := by
  unfold State.storeLanes
  refine .storeWrites (h.foldl (fun t x h1 => ?_))
  split
  · exact h1.storeScratch
  · exact h1

theorem BytesOk.forgetLoads (h : BytesOk s) : BytesOk (s.forgetLoads core slot) := h.onCore

theorem BytesOk.dropPeers (h : BytesOk s) : BytesOk (s.dropPeers die) := h.dropPeer.onDie

theorem BytesOk.acquire {acq : Bool} {c : Scope} (h : BytesOk s) : BytesOk (s.acquire f acq c) := by
  unfold State.acquire
  extract_lets s1
  have h1 : BytesOk s1 := .ite h.dropPeers h
  exact .ite h1.forgetLoads h1

/-! ### Loads, stores, gathers and scatters -/

theorem BytesOk.readsDone {l1 : Bool} (h : BytesOk s) : BytesOk (s.readsDone f l1 secs) := h.afterLoad.accessed.tickFree

theorem BytesOk.readPart {p : Part} (h : BytesOk s) : BytesOk (State.readPart f n s p).1 := h.noteReads

theorem BytesOk.partsRead {l1 : Bool} (h : BytesOk s) : BytesOk (State.partsRead f l1 s secs) := h.readsDone.onFurrow

theorem BytesOk.acquiring {acq : Option Scope} (h : BytesOk s) : BytesOk (State.acquiring f acq s) := by
  unfold State.acquiring
  split
  · exact h.acquire
  · exact h

theorem BytesOk.synced {acq : Option Scope} (h : BytesOk s) : BytesOk (s.synced f m acq) := by
  unfold State.synced
  split
  · exact h.sync
  · exact h

theorem BytesOk.hitRead {as : List (Nat × Nat × Spot)} (h : BytesOk s) : BytesOk (s.hitRead f n as) :=
  .onFurrow (h.foldl (fun _ _ h1 => h1.noteLastSpot))

theorem BytesOk.loadLanes {acq : Option Scope} (h : BytesOk s) : NextOk (loadLanes i x acq s) :=
  h.running (fun _ _ _ => .ite h.skip (h.withSpots (fun _ _ h1 => .ite h1.waitOn
      (.ite h1.hitRead.doneWith (h1.withParts (fun _ h2 => h2.acquiring) (fun _ _ h2 => h2.readPart) (fun _ _ h2 => h2.partsRead)
      (fun _ h2 => h2.startFilling) (fun _ _ h2 => .ite h2.trapWith h2.synced.doneWith))))))

theorem BytesOk.loadUniform {acq : Option Scope} (h : BytesOk s) : NextOk (loadUniform i x acq s) := by
  unfold Machine.loadUniform
  refine h.running (fun q f g => .ite h.skip (h.withSpots (fun t l h1 => h1.withParts (fun _ h2 => h2.acquiring) (fun _ _ h2 => h2.readPart)
      (fun _ _ h2 => h2.partsRead) (fun _ h2 => h2.of_eq rfl rfl) (fun t1 l1 h2 => ?_))))
  split
  · exact h2.trapWith
  · exact h2.synced.done

theorem BytesOk.releasing {rel : Bool} {c : Scope} (h : BytesOk s) : BytesOk (s.releasing f m rel c) := .ite h.sync h

theorem BytesOk.storeLane {rel : Bool} (h : BytesOk s) : NextOk (storeLane i x rel s) :=
  h.running (fun _ _ _ => .ite h.skip (h.withSpots (fun _ _ h1 => .ite h1.waitOn h1.releasing.storeLanes.skip)))

theorem BytesOk.storeUniform {rel : Bool} (h : BytesOk s) : NextOk (storeUniform i x rel s) :=
  h.running (fun _ _ _ => .ite h.skip (h.withSpots (fun _ _ h1 => .ite h1.waitOn h1.releasing.storeLanes.skip)))

theorem BytesOk.splitOff {done : Mask} (h : BytesOk s) : BytesOk (s.splitOff i q f g done) := h.setFurrow

theorem BytesOk.stopLanes {t : Stop} (h : BytesOk s) : BytesOk (s.stopLanes q f g info t) := by
  unfold State.stopLanes
  split
  · exact h.endIssue
  · exact h.faultIssue
  · exact h.trapIssue

theorem BytesOk.gatherDone {stopped : Bool} {got : List Got} (h : BytesOk s) : NextOk (gatherDone x q f g m stopped s got) :=
  .ite h.done (BytesOk.ite h.wrote.splitOff.endIssue h.wrote.splitOff.trapIssue)

theorem BytesOk.gatherReads {stopped : Bool} {as : List (Nat × Nat × Spot)} (h : BytesOk s) : NextOk (gatherReads x q f g m stopped as s) :=
  h.withParts (fun _ h1 => h1.of_eq rfl rfl) (fun _ _ h1 => h1.readPart) (fun _ _ h1 => h1.partsRead) (fun _ h1 => h1.of_eq rfl rfl)
      (fun _ _ h1 => h1.gatherDone)

theorem BytesOk.execGth {f : LM} (h : BytesOk s) : NextOk (execGth f s) := by
  unfold Machine.execGth
  refine h.running fun q u g => .ite h.skip (.ite h.gatherReads (.ite h.waitOn ?_))
  extract_lets n c sp d s1 q1
  have hc : BytesOk c.1 := h.publishReleases.checkLanes
  refine .ite hc.waitTokens ?_
  split
  · exact hc.gatherReads
  · refine .ite hc.stopLanes ?_
    have h1 : BytesOk s1 := hc.splitOff.onFurrow
    split
    next t e =>
      have ht : BytesOk t := NextOk.of_map (fun _ => h1.gatherReads) e
      exact ht.stopLanes
    next e => exact .of_map (fun _ => h1.gatherReads) e
    · exact h1.stopLanes

theorem BytesOk.execSct {f : LM} (h : BytesOk s) : NextOk (execSct f s) := by
  unfold Machine.execSct
  refine h.running (fun q u g => .ite h.skip (.ite h.checkLanes.waitTokens ?_))
  split
  · exact h.checkLanes.storeLanes.skip
  · exact BytesOk.stopLanes (.ite h.checkLanes.storeLanes h.checkLanes.storeLanes.splitOff)

/-! ### Atomics -/

theorem BytesOk.putSpot {op lane ea : Nat} {t : Spot} (h : BytesOk s) : BytesOk (s.putSpot f op lane ea t bs) := by
  unfold State.putSpot
  split
  · exact h.putScratch
  · exact h.foldl (fun _ _ h1 => h1.putGlobal)

theorem BytesOk.atomicPart {op : Nat} {new : Nat → Nat → Nat} {p : Part} (h : BytesOk s) : BytesOk (State.atomicPart f op size new s p).1 :=
  .ite_fst h h.noteLastSpot.putSpot

theorem BytesOk.atomic {x : LA} {fadd : Bool} {op : Nat → Nat → Nat → Nat} (h : BytesOk s) : NextOk (atomic i x fadd op s) :=
  h.running (fun _ _ _ => .ite h.skip (h.withSpots (fun _ _ h1 => .ite h1.waitOn
      (h1.releasing.withParts (fun _ h2 => h2.acquiring) (fun _ _ h2 => h2.atomicPart) (fun _ _ h2 => h2.accessed.tickFree)
      (fun _ h2 => h2.of_eq rfl rfl) (fun _ _ h2 => .ite h2.synced.done h2.synced.wrote.onFurrow.trapWith)))))

/-! ### Descriptors, counters, and the placing of fields -/

theorem BytesOk.linkImages (h : BytesOk s) : BytesOk (s.linkImages ctx) := by
  unfold State.linkImages
  split
  · exact h
  · exact h.baseWrite.foldl (fun _ _ h1 => h1.baseWrite)

theorem BytesOk.describe {st : Nat} (h : BytesOk s) : BytesOk (s.describe fl st) := by
  unfold State.describe
  split
  · exact h
  · exact h.baseWrite.baseWrite

theorem BytesOk.loadCounters (h : BytesOk s) : BytesOk (s.loadCounters ctx core) := by
  unfold State.loadCounters
  split
  · exact h
  · exact .ite h h.onCore

theorem BytesOk.storeCounters (h : BytesOk s) : BytesOk (s.storeCounters ctx core) := by
  unfold State.storeCounters
  split
  · exact h
  · exact .ite h h.baseWrite.onCore

theorem BytesOk.startField (h : BytesOk s) : BytesOk (s.startField id core) := by
  unfold State.startField
  split
  · exact h
  next fl _ =>
    extract_lets b slots img s1 k fl1 fs u s2
    have hu : BytesOk u := BytesOk.onField h.loadCounters id _ fun _ _ => ⟨rfl, rfl, rfl⟩
    have h2 : BytesOk s2 := hu.of_eq rfl rfl
    exact .ite h2 h2.describe.linkImages

theorem BytesOk.addSaved {l : List (Furrow × Nat)} (h : BytesOk s) : BytesOk (s.addSaved core l) := by
  induction l generalizing s with
  | nil => exact h
  | cons x l ih => exact ih (h.of_eq rfl rfl)

theorem BytesOk.moveWrites (h : BytesOk s) : BytesOk (s.moveWrites id core) := .dropPeers (h.of_eq rfl rfl)

theorem BytesOk.resumeField (h : BytesOk s) : BytesOk (s.resumeField id core) := by
  unfold State.resumeField
  split
  · exact h
  · split
    · exact h
    · refine .ite h.endContext ?_
      extract_lets b slots loc fs s1 s2 s3 s4 s5
      have h2 : BytesOk s2 := .onFieldRest h.loadCounters fun _ => ⟨rfl, rfl, rfl⟩
      have h4 : BytesOk s4 := .of_eq (s := s3) h2.addSaved rfl rfl
      have h5 : BytesOk s5 := .foldl h4.moveWrites fun _ _ h6 => h6.makeRoomFor
      exact h5.describe

/-! ### Waits on addresses, prefetches and fences -/

theorem BytesOk.execWaita {f : LW} (h : BytesOk s) : NextOk (execWaita f s) := by
  unfold Machine.execWaita
  refine h.running fun q u g => .ite h.skip (.ite h.checkLanes.waitOn (h.withSpots fun t l ht => .ite ht.trapWith ?_))
  extract_lets xs good kept s0 s1 s2 open_ lack s3
  have h1 : BytesOk s1 := .readsDone (ht.foldl fun _ _ h0 => h0.noteReads)
  have h2 : BytesOk s2 := .ite h1 h1.acquire.sync
  exact .ite h2.done h1.requestAll.waitOn

theorem BytesOk.assignWalks (h : BytesOk s) : BytesOk (s.assignWalks die) := by
  unfold State.assignWalks
  exact h.onDie

theorem BytesOk.prefetch {cls : Nat} {hold : Bool} (h : BytesOk s) : BytesOk (s.prefetch core ctx level cls hold va) := by
  unfold State.prefetch
  refine .ite h ?_
  split
  · exact h
  · split
    · exact h.onDie.assignWalks
    · split
      · exact h
      · exact h
      · exact .ite h.afterLoad (.ite h.afterLoad (.ite h.request h.request.onHolder))

theorem BytesOk.execPf {f : LP} (h : BytesOk s) : NextOk (execPf f s) := h.running (fun _ _ _ => BytesOk.skip (h.foldl (fun _ _ h1 => h1.prefetch)))

theorem BytesOk.fenceWith {waits : Bool} {k : State → Furrow → Mask → State} (h : BytesOk s) (hk : ∀ t f m, BytesOk t → BytesOk (k t f m)) :
    NextOk (fenceWith i s waits k) := h.running (fun _ _ _ => .ite h.skip (.ite h.waitOn (BytesOk.skip (hk _ _ _ h))))

theorem BytesOk.execFenceAcq {f : LF} (h : BytesOk s) : NextOk (execFenceAcq f s) := h.fenceWith (fun _ _ _ h1 => h1.acquire.sync)

theorem BytesOk.execFenceRel {f : LF} (h : BytesOk s) : NextOk (execFenceRel f s) := h.fenceWith (fun _ _ _ h1 => h1.acquire.fenceSync)

theorem BytesOk.fullFence {u : Furrow} {c : Scope} (h : BytesOk s) : BytesOk (s.fullFence u m c) := h.acquire.fenceSync

theorem BytesOk.execFenceFull {f : LF} (h : BytesOk s) : NextOk (execFenceFull f s) := h.fenceWith (fun _ _ _ h1 => h1.fullFence)

theorem BytesOk.execFenceSpec {f : LF} (h : BytesOk s) : NextOk (execFenceSpec f s) :=
  h.running (fun _ _ _ => .ite h.skip (.ite h.acquire.onFurrow.skip (.ite h.waitOn h.fullFence.skip)))

theorem BytesOk.execFenceXp {f : LFx} (h : BytesOk s) : NextOk (execFenceXp f s) := h.fenceWith (fun _ _ _ h1 => h1.fullFence.crossPath)

/-! ### Sets, streams, basins and handles -/

theorem BytesOk.execSset {f : SEs} (h : BytesOk s) : NextOk (execSset f s) := h.running (fun _ _ _ => h.done)

theorem BytesOk.execSget {f : SEs} (h : BytesOk s) : NextOk (execSget f s) := h.running (fun _ _ _ => h.done)

theorem BytesOk.execPush {f : SEpush} (h : BytesOk s) : NextOk (execPush f s) := by
  unfold Machine.execPush
  refine h.running fun q u g => ?_
  split
  · exact h.trapNow
  · refine .ite h.trapNow ?_
    split
    · extract_lets c s1 s2
      have h1 : BytesOk s1 := .bindCommand (.of_eq h rfl rfl)
      have h2 : BytesOk s2 := .onFieldRest h1 fun _ => ⟨rfl, rfl, rfl⟩
      exact h2.done
    · exact h.waitOn

theorem BytesOk.sweepStreams (h : BytesOk s) : BytesOk s.sweepStreams := h.of_eq rfl rfl

theorem BytesOk.execQpop {f : SEpop} (h : BytesOk s) : NextOk (execQpop f s) := by
  unfold Machine.execQpop
  refine h.running (fun q u g => ?_)
  split
  · exact h.waitOn
  · exact .ite h.trapNow h.setFurrow.sweepStreams.done

theorem BytesOk.onBasin {b : Nat} {k : Basin → Basin} (h : BytesOk s) : BytesOk (s.onBasin scheme b k) := h.onScheme

theorem BytesOk.withdraw (h : BytesOk s) : BytesOk (s.withdraw fl) := by
  refine h.mapFields (fun fl hfl => ?_) rfl rfl
  split <;> exact hfl

theorem BytesOk.execQclaim {f : SEport} (h : BytesOk s) : NextOk (execQclaim f s) := by
  unfold Machine.execQclaim
  refine h.running (fun q u g => ?_)
  split
  · exact h.trapNow
  · exact h.waitOn
  · exact h.done
  · split
    · exact h.withdraw.done
    · exact h.trapNow
  · exact BytesOk.done (.sync (.acquire (h.onBasin.onFieldRest (fun _ => ⟨rfl, rfl, rfl⟩))))

theorem BytesOk.freeSlot {k : Option Nat} (h : BytesOk s) : BytesOk (s.freeSlot field k) := by
  unfold State.freeSlot
  split
  · exact h
  · exact h.onFieldRest (fun _ => ⟨rfl, rfl, rfl⟩)

theorem BytesOk.sawHandle {u : Furrow} {hh : Fin 16} (h : BytesOk s) : BytesOk (s.sawHandle u g hh) := by
  unfold State.sawHandle
  split
  · exact h.learned
  · exact h

theorem BytesOk.execHwait {f : SEh} (h : BytesOk s) : NextOk (execHwait f s) := by
  unfold Machine.execHwait
  refine h.running (fun q u g => ?_)
  split
  · exact h.freeSlot.done
  · exact h.waitOn
  · exact h.sawHandle.freeSlot.done

theorem BytesOk.execHtest {f : SEh} (h : BytesOk s) : NextOk (execHtest f s) := by
  unfold Machine.execHtest
  refine h.running (fun q u g => ?_)
  split
  · exact h.done
  · exact h.sawHandle.freeSlot.done

theorem BytesOk.resolveSlot {st : W64} (h : BytesOk s) : BytesOk (s.resolveSlot c st) := by
  unfold State.resolveSlot
  extract_lets _ s1 mine s2
  have h1 : BytesOk s1 := .onFieldRest h fun _ => ⟨rfl, rfl, rfl⟩
  have h2 : BytesOk s2 := h1.foldl fun _ _ h3 => h3.foldl fun _ _ h4 => h4.learned
  exact h2.of_eq rfl rfl

theorem BytesOk.cancelCmd (h : BytesOk s) : BytesOk (s.cancelCmd id) := by
  unfold State.cancelCmd
  split
  · exact h
  · split
    · exact .resolveSlot (h.of_eq rfl rfl)
    · exact h.onCmd

theorem BytesOk.execHcancel {f : SEhc} (h : BytesOk s) : NextOk (execHcancel f s) := by
  unfold Machine.execHcancel
  refine h.running (fun q u g => ?_)
  split
  · exact h.cancelCmd.skip
  · exact h.skip

theorem BytesOk.execHget {f : SEh} (h : BytesOk s) : NextOk (execHget f s) := h.running (fun _ _ _ => h.done)

theorem BytesOk.execHset {f : SEh} (h : BytesOk s) : NextOk (execHset f s) := h.running (fun _ _ _ => h.done)

theorem BytesOk.execCset {f : LC} (h : BytesOk s) : NextOk (execCset f s) :=
  h.running (fun _ _ _ => .ite h.trapNow (BytesOk.skip (h.onFieldRest (fun _ => ⟨rfl, rfl, rfl⟩))))

theorem BytesOk.execCclr {f : LC} (h : BytesOk s) : NextOk (execCclr f s) :=
  h.running (fun _ _ _ => .ite h.trapNow (BytesOk.skip (h.onFieldRest (fun _ => ⟨rfl, rfl, rfl⟩))))

theorem BytesOk.execCget {f : LC} (h : BytesOk s) : NextOk (execCget f s) := h.running (fun _ _ _ => .ite h.skip h.done)

/-! ### Reaches and schemes -/

theorem BytesOk.onReach {ix : Nat} {k : Reach → Reach} (h : BytesOk s) : BytesOk (s.onReach scheme ix k) := h.onScheme

theorem BytesOk.openFields {sc : Scheme} {ix : Nat} {r : Reach} (h : BytesOk s) : BytesOk (s.openFields sc ix r) :=
  BytesOk.onReach (.addFields h (List.forall_mem_map.2 fun _ _ => ⟨rfl, rfl, rfl⟩) rfl rfl)

theorem BytesOk.dispatch {ix : Nat} (h : BytesOk s) : BytesOk (s.dispatch scheme ix) := h.onReach

theorem BytesOk.evaluate (h : BytesOk s) : BytesOk (s.evaluate scheme) := by
  unfold State.evaluate
  split
  · exact h
  · refine .ite h (h.foldl (fun t x h1 => ?_))
    split
    · exact h1
    · split
      · exact h1
      · exact .ite h1.openFields h1

theorem BytesOk.dispatchOver {ix : Nat} (h : BytesOk s) : BytesOk (s.dispatchOver scheme ix) := h.onReach.dispatch

theorem BytesOk.endReach {ix : Nat} (h : BytesOk s) : BytesOk (s.endReach scheme ix) := h.onScheme

theorem BytesOk.endReaches (h : BytesOk s) : BytesOk (State.endReaches scheme n s) := by
  induction n generalizing s with
  | zero => exact h
  | succ n ih =>
    unfold State.endReaches
    split
    · exact h
    · refine ih (h.foldl (fun t x h1 => ?_))
      split
      · exact h1
      · exact .ite h1.endReach h1

theorem BytesOk.settleScheme (h : BytesOk s) : BytesOk (s.settleScheme scheme) := by
  unfold State.settleScheme
  split
  · exact h
  · refine .ite h ?_
    extract_lets s1 s2
    have h2 : BytesOk s2 := .endReaches (h.foldl fun _ _ ht => ht.dispatchOver)
    exact .ite h2.endScheme h2.evaluate

theorem BytesOk.returnClaim {k : Claim} (h : BytesOk s) : BytesOk (s.returnClaim scheme k) := h.onBasin

theorem BytesOk.removeField (h : BytesOk s) : BytesOk (s.removeField fl) := by
  unfold State.removeField
  extract_lets s1 s2 s3 s4
  have h1 : BytesOk s1 := h.foldr fun _ _ h1 => h1.returnClaim
  have h2 : BytesOk s2 := .ite h1.describe h1
  have h3 : BytesOk s3 := h2.filterFields rfl rfl
  have h4 : BytesOk s4 := .ite h3.linkImages h3
  exact .ite h4.storeCounters h4

theorem BytesOk.countChunk {ix : Nat} {last : Bool} (h : BytesOk s) : BytesOk (s.countChunk scheme ix last) := h.onReach.settleScheme

/-! ### Transfers of control -/

theorem BytesOk.execClause {f : ClauseH} (h : BytesOk s) : NextOk (execClause f s) := .issued fun _ _ _ => .ite h.waitOn (h.of_eq rfl rfl)

theorem BytesOk.execNop {c : Bool} (h : BytesOk s) : NextOk (execNop c s) := h.running (fun _ _ _ => h.skip)

theorem BytesOk.branchTo {u : Furrow} {pc : BitVec 24} (h : BytesOk s) : NextOk (branchTo i s q u g m pc) := h.transfer

theorem BytesOk.execBra {f : SB} (h : BytesOk s) : NextOk (execBra f s) := h.running (fun _ _ _ => h.branchTo)

theorem BytesOk.callTo {u : Furrow} {pkt : Nat} (h : BytesOk s) : NextOk (callTo i s q u g pkt) := .ite h.trapNow h.branchTo

theorem BytesOk.execCall {f : SB} (h : BytesOk s) : NextOk (execCall f s) := h.running (fun _ _ _ => h.callTo)

theorem BytesOk.withTarget {wa : Fin 64} {k : Issue → Furrow → Group → Nat → Out} (h : BytesOk s) (hk : ∀ q f g n, NextOk (k q f g n)) :
    NextOk (withTarget i wa s k) := h.running (fun _ _ _ => .ite h.trapNow (hk _ _ _ _))

theorem BytesOk.execJmp {f : SCw} (h : BytesOk s) : NextOk (execJmp f s) := h.withTarget (fun _ _ _ _ => h.branchTo)

theorem BytesOk.execCallr {f : SCw} (h : BytesOk s) : NextOk (execCallr f s) := h.withTarget (fun _ _ _ _ => h.callTo)

theorem BytesOk.execRet {f : SCg} (h : BytesOk s) : NextOk (execRet f s) := h.running (fun _ _ _ => .ite h.trapNow h.transfer)

theorem BytesOk.branchIf {f : SCb} {test : W64 → Bool} (h : BytesOk s) : NextOk (branchIf i f test s) := h.running (fun _ _ _ => h.branchTo)

theorem BytesOk.execLoop {f : SCb} (h : BytesOk s) : NextOk (execLoop f s) := h.running (fun _ _ _ => .ite h.skip h.branchTo)

theorem BytesOk.execRcv {f : SCm} (h : BytesOk s) : NextOk (execRcv f s) := h.running (fun _ _ _ => h.undiverge.onFurrow.endChain)

theorem BytesOk.execExit {f : SCg} (h : BytesOk s) : NextOk (execExit f s) :=
  h.running (fun _ _ _ => .ite h.skip (.ite h.trapNow (BytesOk.ite h.setFurrow.chainOn h.setFurrow.endChain)))

theorem BytesOk.execYield {f : SCg} (h : BytesOk s) : NextOk (execYield f s) := h.running (fun _ _ _ => h.onFurrow.skip)

theorem BytesOk.execSysc {f : SCs} (h : BytesOk s) : NextOk (execSysc f s) := h.running (fun _ _ _ => .ite h.skip (.ite h.trapNow h.trapWith))

theorem BytesOk.execBrk {f : SCn} (h : BytesOk s) : NextOk (execBrk f s) := h.running (fun _ _ _ => .ite h.skip (.ite h.trapNow h.trapNow))

theorem BytesOk.execTret {f : SCm} (h : BytesOk s) : NextOk (execTret f s) := by
  unfold Machine.execTret
  refine h.running (fun q u g => ?_)
  split
  · exact h.trapNow
  · exact .ite h.trapNow (.ite h.waitOn h.returnTrap.endIssue)

theorem BytesOk.execFend {c : Bool} (h : BytesOk s) : NextOk (execFend c s) := h.running (fun _ _ _ => .ite h.skip h.endField.endIssue)

theorem BytesOk.execCend {f : SCc} (h : BytesOk s) : NextOk (execCend f s) :=
  h.running (fun _ _ _ => .ite h.trapNow (.ite h.skip h.endContext.endIssue))

theorem BytesOk.execDhalt {f : SCm} (h : BytesOk s) : NextOk (execDhalt f s) := h.running (fun _ _ _ => BytesOk.skip (h.of_eq rfl rfl))

/-! ### Weirs -/

theorem BytesOk.putWeir {rmw : Bool} {a : Nat × Nat × Spot} {w : Weir} (h : BytesOk s) : BytesOk (s.putWeir f g rmw a w) := by
  unfold State.putWeir
  extract_lets s1 s2 p
  have h2 : BytesOk s2 := .putSpot (.ite h.noteLastSpot h)
  exact .ite h2 h2.flipAt

theorem BytesOk.weirChange {wa : Fin 64} {rel : Scope} {rmw : Bool} {k : Furrow → Weir → Weir} (h : BytesOk s) :
    NextOk (weirChange i wa rel rmw k s) := by
  unfold Machine.weirChange
  refine h.running (fun q f g => h.withSpots (fun t l h1 => .ite h1.waitOn
      (h1.releasing.withParts (fun _ h2 => h2.of_eq rfl rfl) (fun _ _ h2 => .ite_fst h2 h2.putWeir) (fun _ _ h2 => h2.accessed.tickFree)
      (fun _ h2 => h2.of_eq rfl rfl) (fun t1 l1 h2 => ?_))))
  split
  · exact h2.skip
  · exact h2.trapWith

theorem BytesOk.weirRead {wa : Fin 64} {k : Issue → Furrow → Group → State → List (Nat × Nat × Spot) → Out} (h : BytesOk s)
    (hk : ∀ q f g t l, BytesOk t → NextOk (k q f g t l)) :
    NextOk (weirRead i wa s k) := h.running (fun _ _ _ => h.withSpots (fun _ _ h1 => h1.whenHeld (fun _ h2 => hk _ _ _ _ _ h2)))

theorem BytesOk.execWwait {f : SEww} (h : BytesOk s) : NextOk (execWwait f s) := by
  unfold Machine.execWwait
  refine h.weirRead (fun q u g t l h1 => ?_)
  split
  · exact h1.skip
  · refine .ite h1.trapWith ?_
    extract_lets s1 p s2
    have h1 : BytesOk s1 := h1.noteLastSpot.readsDone
    have h2 : BytesOk s2 := h1.sawFlip
    exact .ite (BytesOk.skip (.ite h2 h2.acquire.sync)) h1.waitOn

/-! ### The engines' accesses, receivers and completions -/

theorem BytesOk.beginEvent (h : BytesOk s) : BytesOk (s.beginEvent i) := h.of_eq rfl rfl

theorem BytesOk.endEvent (h : BytesOk s) : BytesOk (s.endEvent i) := h.of_eq rfl rfl

theorem BytesOk.engineEvent {k : State → State} (h : BytesOk s) (hk : ∀ t, BytesOk t → BytesOk (k t)) : NextOk (engineEvent i s k) :=
  BytesOk.endEvent (hk _ h.beginEvent)

theorem BytesOk.engineAddr (h : BytesOk s) : BytesOk (s.engineAddr c fl k va n).1 := by
  unfold State.engineAddr
  dsimp only
  refine .ite_fst ?_ (.ite_fst ?_ h)
  · split
    · exact h
    · exact h
    · exact h
  · split
    next e => exact h.globalSpot.of_fst e
    next e => exact .ite_fst (.onCmd (h.globalSpot.of_fst e)) (h.globalSpot.of_fst e)

theorem BytesOk.entryPlace {t : Tensor} {base : Int} (h : BytesOk s) : BytesOk (s.entryPlace c fl t k base part n).1 :=
  .ite_fst h (.ite_fst h h.engineAddr)

theorem BytesOk.elemPlace {t : Tensor} {shift : Int} {r col : Nat} (h : BytesOk s) : BytesOk (s.elemPlace c fl t shift k r col).1 := h.entryPlace

theorem BytesOk.metaPlace {t : Tensor} {r col : Nat} (h : BytesOk s) : BytesOk (s.metaPlace c fl t k r col).1 := .ite_fst h.engineAddr h

theorem BytesOk.placesFrom {α : Type} {f : State → α → State × Except EStop (List Piece)} {l : List α} (h : BytesOk s)
    (hf : ∀ t x, BytesOk t → BytesOk (f t x).1) : BytesOk (placesFrom f l s).1 := by
  induction l generalizing s with
  | nil => exact h
  | cons x l ih =>
    have hx : BytesOk (f s x).1 := hf s x h
    unfold Machine.placesFrom
    split
    next e => exact hx.of_fst e
    next t _ e =>
      have ht : BytesOk t := hx.of_fst e
      split <;> exact (ih ht).of_fst ‹_›

theorem BytesOk.holdRuns {ps : List Piece} (h : BytesOk s) : BytesOk (s.holdRuns id core write ps).1 := .ite_fst h.onCmd h.onCmd.requestAll

theorem BytesOk.afterRuns {ps : List Piece} (h : BytesOk s) : BytesOk (s.afterRuns c ps) := h.noteReads.accessed.foldl (fun _ _ h1 => h1.fillPeer)

theorem BytesOk.readHad {p : Piece} (h : BytesOk s) : BytesOk (s.readHad c key p).1 := by
  unfold State.readHad
  split
  next e => exact h.holdRuns.of_fst e
  next e => exact .afterRuns (h.holdRuns.of_fst e)

theorem BytesOk.readUnitsOf {old : List Had} {l : List Piece} (h : BytesOk s) : BytesOk (State.readUnitsOf c key old l s).1 := by
  induction l generalizing s with
  | nil => exact h
  | cons x l ih =>
    unfold State.readUnitsOf
    refine .ite_fst (ih h) ?_
    split
    next e => exact ih (h.readHad.of_fst e)
    next e => exact ih (h.readHad.of_fst e)

theorem BytesOk.readTransfer {us : List Piece} (h : BytesOk s) : BytesOk (s.readTransfer c key us).1 := h.readUnitsOf.onCmd

theorem BytesOk.endTransfer (h : BytesOk s) : BytesOk (s.endTransfer id key) := h.onCmd

/-- A tile store and a B-slice change here alone, by `Store.writeBytes`. -/
theorem BytesOk.putPiece {p : Piece} (h : BytesOk s) : BytesOk (s.putPiece o core p bs) := by
  unfold State.putPiece
  refine .ite h.putGlobal.accessed (.ite h.putScratch ?_)
  refine BytesOk.onField h.noteWrite _ _ fun fl m => ?_
  have hfl : fl.StoresOk := h.noteWrite.fields fl m
  split
  · exact hfl.writeTile p.addr bs
  · exact hfl.writeSlice p.addr bs

theorem BytesOk.putRuns {ps : List Piece} (h : BytesOk s) : BytesOk (s.putRuns o core ps bs) := h.foldl (fun _ _ h1 => h1.putPiece)

theorem BytesOk.performPut {red : Option (Fold × Ty)} {p : Put} {x : Nat} (h : BytesOk s) : BytesOk (s.performPut o core red p x).1 := by
  unfold State.performPut
  split
  · exact h.putRuns
  · exact .ite_fst h (.putRuns (h.foldl (fun _ _ h1 => h1.noteLast)))

theorem BytesOk.performPuts {red : Option (Fold × Ty)} {val : Nat → Nat} {l : List Put} (h : BytesOk s) :
    BytesOk (State.performPuts o core red val l s).1 := by
  induction l generalizing s with
  | nil => exact h
  | cons x l ih =>
    unfold State.performPuts
    split
    next e => exact ih (h.holdRuns.of_fst e)
    next t e =>
      have ht : BytesOk t := h.holdRuns.of_fst e
      split
      next e1 => exact ht.performPut.of_fst e1
      next e1 => exact ih (ht.performPut.of_fst e1)

theorem BytesOk.suspendCmd {busy badPte : Bool} {wlevel kind : Nat} (h : BytesOk s) :
    BytesOk (s.suspendCmd c ctx unit va code busy badPte wlevel kind) := h.postFault.onCmd

theorem BytesOk.endCmd {detail : Nat} (h : BytesOk s) : BytesOk (s.endCmd id code detail) := h.onCmd

theorem BytesOk.stopCmd {e : EStop} (h : BytesOk s) : BytesOk (s.stopCmd c ctx unit e) := by
  unfold State.stopCmd
  split
  · exact h
  · exact h.suspendCmd
  · exact h.endCmd

theorem BytesOk.statusFirst {op phaseAt : Nat} (h : BytesOk s) : BytesOk (s.statusFirst op phaseAt) := h.of_eq rfl rfl

theorem BytesOk.onReceiver {i : Nat} {k : Receiver → Receiver} (h : BytesOk s) : BytesOk (s.onReceiver id i k) := h.onCmd

theorem BytesOk.weirOff {i : Nat} (h : BytesOk s) : BytesOk (s.weirOff id i) := h.onCmd

theorem BytesOk.payAt {ps : List Piece} {darr dbytes : Nat} {st : Option Nat} (h : BytesOk s) :
    PayOk (s.payAt c ps darr dbytes st) := by
  unfold State.payAt
  split
  · exact h
  split
  next e => exact h.holdRuns.of_fst e
  next t e =>
    have ht : BytesOk t := h.holdRuns.of_fst e
    split
    · exact ht
    · extract_lets old w a s2 o s3 s4
      have h2 : BytesOk s2 := ht.foldl fun _ _ h1 => h1.noteLast
      have h3 : BytesOk s3 := h2.putRuns
      have h4 : BytesOk s4 := .ite h3 (h3.of_eq rfl rfl)
      exact BytesOk.ite h4 h4.statusFirst.flipAt

theorem BytesOk.pay {r : Receiver} {darr dbytes : Nat} {st : Option Nat} (h : BytesOk s) : PayOk (s.pay c r darr dbytes st) := by
  unfold State.pay
  split
  · exact h
  split
  · exact h
  split
  · exact h
  split
  next e => exact (h.engineAddr.of_fst e).payAt
  next e => exact h.engineAddr.of_fst e
  next e => exact h.engineAddr.of_fst e
  next e => exact h.engineAddr.of_fst e

theorem BytesOk.payList {fin : Option (Nat × Bool)} {l : List Nat} (h : BytesOk s) : BytesOk (State.payList id ctx unit fin l s).1 := by
  induction l generalizing s with
  | nil => exact h
  | cons x l ih =>
    unfold State.payList
    dsimp only
    split
    · exact h
    split
    · exact ih h
    refine .ite_fst (ih h) ?_
    split
    next t e =>
      have ht : BytesOk t := h.pay.of_eq e
      exact ih ht.onReceiver
    next t e =>
      have ht : BytesOk t := h.pay.of_eq e
      exact ih ht.onReceiver
    next t _ _ _ _ _ _ e =>
      have ht : BytesOk t := h.pay.of_eq e
      exact ht.suspendCmd.onCmd
    next t _ e =>
      have ht : BytesOk t := h.pay.of_eq e
      exact ih ht.weirOff.onCmd
    next e => exact h.pay.of_eq e

theorem BytesOk.flushOwed (h : BytesOk s) : BytesOk (s.flushOwed c ctx unit).1 := h.payList

theorem BytesOk.retireCmd {st : Nat} (h : BytesOk s) : BytesOk (s.retireCmd c st) := .resolveSlot (.ite h.onCmd (h.of_eq rfl rfl))

theorem BytesOk.markAbsent (h : BytesOk s) : BytesOk (s.markAbsent c) := by
  unfold State.markAbsent
  split
  · exact h
  · exact h.onCmd

theorem BytesOk.finishCmd (h : BytesOk s) : BytesOk (s.finishCmd id ctx unit) := by
  unfold State.finishCmd
  split
  · exact h
  · refine .ite (h.of_eq rfl rfl) ?_
    split
    next e1 => exact h.markAbsent.flushOwed.of_fst e1
    next s1 e1 =>
      have h1 : BytesOk s1 := h.markAbsent.flushOwed.of_fst e1
      split
      · exact h1
      · extract_lets code
        split
        next e2 => exact h1.payList.of_fst e2
        next s2 e2 =>
          have h2 : BytesOk s2 := h1.payList.of_fst e2
          split
          · exact h2
          · exact h2.retireCmd

theorem BytesOk.retryCmd (h : BytesOk s) : BytesOk (s.retryCmd id) := h.onCmd

theorem BytesOk.failCmd (h : BytesOk s) : BytesOk (s.failCmd id) := by
  unfold State.failCmd
  split
  · exact h
  · refine .ite h (.onCmd ?_)
    split
    · exact h.weirOff
    · exact h

/-! ### Service fields and the fault queue -/

theorem BytesOk.serviceStart (h : BytesOk s) : BytesOk (s.serviceStart die) := h.foldl (fun _ _ h1 => .ite h1.startField h1)

theorem BytesOk.serviceAdd (h : BytesOk s) : BytesOk (s.serviceAdd die) :=
  h.foldl fun _ _ h1 => h1.addFields (List.forall_mem_singleton.2 ⟨rfl, rfl, rfl⟩) rfl rfl

theorem BytesOk.switchDone (h : BytesOk s) : BytesOk (s.switchDone die) :=
  .ite h (.ite (h.of_eq rfl rfl) (.foldl (h.of_eq rfl rfl) (fun _ _ h1 => h1.setEvent)))

theorem BytesOk.switchField (h : BytesOk s) : BytesOk (s.switchField fl) := h.endField.serviceStart.switchDone

theorem BytesOk.lastTake {u : Furrow} (h : BytesOk s) : BytesOk (s.lastTake q u g fl w) := .ite h.switchField.endIssue h.waitOn

theorem BytesOk.execSvcpost {f : LR1} (h : BytesOk s) : NextOk (execSvcpost f s) :=
  h.running (fun _ _ _ => .ite h.skip (.ite h.waitOn (.ite h.waitOn h.sync.onDie.skip)))

theorem BytesOk.execSvctake {f : LRd} (h : BytesOk s) : NextOk (execSvctake f s) := by
  unfold Machine.execSvctake
  refine h.running (fun q u g => .ite h.skip (.ite h.trapNow ?_))
  split
  · exact h.waitOn
  · exact h.lastTake
  · exact h.onDie.acquire.sync.done

theorem BytesOk.endWaits (h : BytesOk s) : BytesOk (s.endWaits core slot) := by
  unfold State.endWaits
  split
  · exact h
  · exact h.onFurrow.foldl (fun _ _ h1 => h1.enterTrap)

theorem BytesOk.wakeWaiter {seq : Nat} {fail : Bool} {w : Waiter} (h : BytesOk s) : BytesOk (s.wakeWaiter die seq fail w) := by
  unfold State.wakeWaiter
  split
  · exact h.onFurrow.endWaits
  · exact .ite (.ite h.failCmd h.retryCmd) h
  · exact h

theorem BytesOk.repostFurrow {w : FaultWait} (h : BytesOk s) : BytesOk (s.repostFurrow f w) := h.postPages.onFurrow

theorem BytesOk.repostCmd (h : BytesOk s) : BytesOk (s.repostCmd c) := by
  unfold State.repostCmd
  split
  · exact .ite h.postFault.onCmd h
  · exact h

theorem BytesOk.repost (h : BytesOk s) : BytesOk (s.repost die) :=
  .foldl (h.foldl (fun _ _ h1 => h1.foldl (fun _ _ h2 => h2.repostFurrow))) (fun _ _ h1 => h1.repostCmd)

theorem BytesOk.resolveFault {seq : Nat} {fail : Bool} (h : BytesOk s) : BytesOk (s.resolveFault die seq fail) := by
  unfold State.resolveFault
  split
  · exact h
  · exact .repost (h.onDie.foldl (fun _ _ h1 => h1.wakeWaiter))

theorem BytesOk.execFqtake {f : LRd} (h : BytesOk s) : NextOk (execFqtake f s) := by
  unfold Machine.execFqtake
  dsimp only
  refine h.running (fun q u g => .ite h.skip (.ite h.trapNow ?_))
  split
  · exact h.waitOn
  · exact h.lastTake
  · exact h.onDie.acquire.sync.repost.done

theorem BytesOk.execFqdone {f : LRi} (h : BytesOk s) : NextOk (execFqdone f s) :=
  h.running (fun _ _ _ => .ite h.skip (.ite h.trapNow (.ite h.waitOn h.sync.stepOver.resolveFault)))

theorem BytesOk.execAcrd {f : LRda} (h : BytesOk s) : NextOk (execAcrd f s) :=
  h.running (fun _ _ _ => .ite h.skip (.ite h.trapNow (BytesOk.done (.ite (h.of_eq rfl rfl) h))))

/-! ### System registers and frame words -/

theorem BytesOk.writeAsid {a : BitVec 16} (h : BytesOk s) : BytesOk (s.writeAsid ctx a) := .ite h h.onCtx.tlbDrop

theorem BytesOk.writeSys {x : W64} (h : BytesOk s) : BytesOk (s.writeSys f n x) :=
  .ite h.onFurrow (.ite h.onCtx (.ite h.onCtx (.ite h.onCtx (.ite h.onCtx
      (.ite h.onCtx (.ite h.onCtx (.ite h.onCtx (.ite h.writeAsid (.ite h.onCtx
      (.ite h.onCtx (.ite h.onCtx (.ite h.onCtx (.ite (h.of_eq rfl rfl) h)))))))))))))

theorem BytesOk.execSrr {f : SR} (h : BytesOk s) : NextOk (execSrr f s) := by
  unfold Machine.execSrr
  refine h.running (fun q u g => ?_)
  split
  · exact h.trapNow
  · exact .ite h.trapNow h.done

theorem BytesOk.execSrw {f : SR} (h : BytesOk s) : NextOk (execSrw f s) := by
  unfold Machine.execSrw
  refine h.running (fun q u g => ?_)
  split
  · exact h.trapNow
  · split
    · exact h.trapNow
    · exact .ite h.waitOn (BytesOk.skip (.ite h.writeSys.fullFence h.writeSys))

theorem BytesOk.execTfr {f : LT} (h : BytesOk s) : NextOk (execTfr f s) := by
  unfold Machine.execTfr
  refine h.running (fun q u g => ?_)
  split
  · exact h.trapNow
  · exact h.done

theorem BytesOk.execTfw {f : LT} (h : BytesOk s) : NextOk (execTfw f s) := by
  unfold Machine.execTfw
  refine h.running (fun q u g => ?_)
  split
  · exact h.trapNow
  · split
    · exact h.trapNow
    · exact h.done

/-! ### Upsets -/

theorem BytesOk.spoil {p : UpsetAt} (h : BytesOk s) : BytesOk (s.spoil p).1 := by
  unfold State.spoil
  split
  · exact h
  · exact .ite_fst (.pair h.poisonSector) h
  · exact .ite_fst (.pair h.dropPeer) (.ite_fst h (.ite_fst (.pair h.poisonSector) (.pair h.dropL1)))
  · exact .pair h.dropL1
  · exact h.onField _ _ fun _ m => Field.StoresOk.spoil (h.fields _ m) _ _

theorem BytesOk.meetUpset {u : Upset} (h : BytesOk s) : BytesOk (s.meetUpset u) :=
  .ite h.onAgentErrs (.ite h.onAgentErrs (.ite h.onAgentErrs h.spoil.onAgentErrs))

theorem BytesOk.meetUpsets (h : BytesOk s) : BytesOk s.meetUpsets := .ite h (.foldl (h.of_eq rfl rfl) (fun _ _ h1 => h1.meetUpset))

/-! ### The right of a quarter -/

theorem BytesOk.execXacq {f : LX0} (h : BytesOk s) : NextOk (execXacq f s) := by
  unfold Machine.execXacq
  refine h.running (fun q u g => .ite h.trapNow (.ite h.skip ?_))
  split
  · exact BytesOk.skip (.onFurrow (h.of_eq rfl rfl))
  · exact BytesOk.waitOn (h.of_eq rfl rfl)

theorem BytesOk.execXrel {f : LX0} (h : BytesOk s) : NextOk (execXrel f s) :=
  h.running (fun _ _ _ => .ite h.trapNow (.ite h.skip h.setFurrow.purgeReuse.passRight.skip))

/-! ### Selection of furrows, and the scheduler's events -/

theorem BytesOk.tick {dt : Nat} (h : BytesOk s) : BytesOk (s.tick dt) := .meetUpsets (.expire (h.of_eq rfl rfl))

theorem BytesOk.abandonSpec (h : BytesOk s) : BytesOk (s.abandonSpec core slot) := by
  unfold State.abandonSpec
  split
  · exact h
  · split
    · exact h.onFurrow
    · exact h.rollbackSpec

theorem BytesOk.takeHalt (h : BytesOk s) : BytesOk (s.takeHalt core slot) := by
  unfold State.takeHalt
  dsimp only
  split
  · exact h
  · refine .ite h ?_
    split
    · exact h.abandonSpec.onFurrow
    · exact h.abandonSpec.onFurrow.enterTrap

theorem BytesOk.takePending (h : BytesOk s) : BytesOk (s.takePending core slot) := by
  unfold State.takePending
  split
  · exact h
  · refine .ite h ?_
    split
    · exact h
    · split
      · exact h
      · exact h.onFurrow.enterTrap

theorem BytesOk.mergeFurrow (h : BytesOk s) : BytesOk (s.mergeFurrow f) := h.setFurrow.foldl (fun _ _ h1 => h1.undiverge)

theorem BytesOk.noteWait (h : BytesOk s) : BytesOk (s.noteWait core slot lanes) := by
  unfold State.noteWait
  split
  · exact h
  · refine .ite h ?_
    split
    · exact h
    · exact h.of_eq rfl rfl

theorem BytesOk.prepareFurrow (h : BytesOk s) : BytesOk (s.prepareFurrow core slot) := by
  unfold State.prepareFurrow
  refine .ite h ?_
  extract_lets t free held s1 s2 s3
  have ht : BytesOk t := h.endWaits
  have h1 : BytesOk s1 := .ite (ht.elim fun _ => ht.releaseHolds) ht
  have h2 : BytesOk s2 := .ite (h1.elim fun _ => h1.mergeFurrow) h1
  have h3 : BytesOk s3 := h2.takePending.takeHalt
  split
  · exact .ite (h3.foldl fun _ _ h4 => h4.noteWait) h3
  · exact h3

theorem BytesOk.serveTrap (h : BytesOk s) : BytesOk (s.serveTrap f) := by
  unfold State.serveTrap
  dsimp only
  split
  · exact .ite h.onCtx.returnTrap (.ite h.onCtx.returnTrap (.ite h.onCtx.returnTrap h.contextFault))
  · exact h

theorem BytesOk.choose (h : BytesOk s) : BytesOk (s.choose f) := by
  unfold State.choose
  dsimp only
  refine .ite h.serveTrap ?_
  split
  · exact h
  · exact h.of_eq rfl rfl

theorem BytesOk.chooseSecond (h : BytesOk s) : BytesOk (s.chooseSecond f q) := by
  unfold State.chooseSecond
  dsimp only
  split
  · exact .nextInSlot (h.of_eq rfl rfl)
  · exact h.of_eq rfl rfl

theorem BytesOk.rechoose (h : BytesOk s) : BytesOk (s.rechoose q) := by
  unfold State.rechoose
  split
  · exact h.of_eq rfl rfl
  · exact .ite (.choose (h.of_eq rfl rfl)) (.chooseSecond (h.of_eq rfl rfl))

theorem BytesOk.countWait (h : BytesOk s) : BytesOk (s.countWait core quarter slot) := h.of_eq rfl rfl

theorem BytesOk.execIssueSelection {dt : Nat} (h : BytesOk s) : NextOk (execIssueSelection core quarter dt s) := by
  unfold Machine.execIssueSelection
  extract_lets s1 s2 s3
  have h3 : BytesOk s3 := .handout (h.tick.foldl fun _ _ ht => ht.prepareFurrow)
  split
  · exact h3
  · extract_lets s4
    have h4 : BytesOk s4 := h3.countWait
    split
    · exact h4
    · exact h4.choose

theorem BytesOk.execInstructionComplete (h : BytesOk s) : NextOk (execInstructionComplete core slot s) := by
  unfold Machine.execInstructionComplete
  dsimp only
  split
  · exact h.performPosted
  · split
    · exact h.performPosted.requestAll.of_eq rfl rfl
    · exact h.performPosted.requestAll.onFurrow.settleStep.reap

theorem BytesOk.endSpec {sf : SpecFence} (h : BytesOk s) : BytesOk (s.endSpec core slot f sf) := by
  unfold State.endSpec
  split
  · exact h.fullFence.onFurrow.purgeReuse.enterTrap
  · exact h.fullFence.onFurrow.purgeReuse

theorem BytesOk.endFence (h : BytesOk s) : BytesOk (s.endFence f g) := by
  unfold State.endFence
  split
  · exact h.onFurrow
  · exact h.fullFence.onFurrow
  · exact h

theorem BytesOk.execFenceComplete (h : BytesOk s) : NextOk (execFenceComplete core slot s) := by
  unfold Machine.execFenceComplete
  split
  · exact h
  · split
    · exact BytesOk.ite (.endSpec (h.foldl (fun _ _ h1 => h1.endFence))) (h.foldl (fun _ _ h1 => h1.endFence))
    · exact h.foldl (fun _ _ h1 => h1.endFence)

theorem BytesOk.retryResume {b : Backoff} (h : BytesOk s) : BytesOk (s.retryResume f b) :=
  .ite h.takePermit.onFurrow (.onFurrow (.ite h.reserveFor h))

theorem BytesOk.execTrapPermitRetry (h : BytesOk s) : NextOk (execTrapPermitRetry core slot s) := by
  unfold Machine.execTrapPermitRetry
  split
  · exact h
  · split
    · exact BytesOk.ite h.retryResume h
    · split
      · exact h
      · split
        · exact h
        · exact BytesOk.ite h (.ite h.takeStep h.enterTrap)

theorem BytesOk.execWatchdog (h : BytesOk s) : NextOk (execWatchdog core slot s) := by
  unfold Machine.execWatchdog
  dsimp only
  split
  · exact h
  · refine BytesOk.ite h ?_
    split
    · exact h
    · split
      · exact h.abandonSpec.dropFilling.onFurrow
      · exact h.abandonSpec.dropFilling.onFurrow.enterTrap

theorem BytesOk.execHaltRequestArrive (h : BytesOk s) : NextOk (execHaltRequestArrive n s) := by
  unfold Machine.execHaltRequestArrive
  split
  · exact h
  · exact h.takePending.takeHalt

theorem BytesOk.execXacqGrant (h : BytesOk s) : NextOk (execXacqGrant core quarter s) := by
  unfold Machine.execXacqGrant
  dsimp only
  split
  · exact h
  · exact BytesOk.onFurrow (h.of_eq rfl rfl)

theorem BytesOk.execRegisterReload (h : BytesOk s) : NextOk (execRegisterReload core slot s) := by
  unfold Machine.execRegisterReload
  split
  · exact h
  · exact BytesOk.ite h.reload h

theorem BytesOk.execFieldRetire (h : BytesOk s) : NextOk (execFieldRetire field s) := by
  unfold Machine.execFieldRetire
  split
  · exact h
  · exact BytesOk.ite h (.ite h.removeField.serviceStart.switchDone h.removeField.settleScheme)

/-! ### Submission queues, placement and preemption -/

theorem BytesOk.onQueue {q : Nat} {k : Sq → Sq} (h : BytesOk s) : BytesOk (s.onQueue vf q k) := h.onVf

theorem BytesOk.writeTail {q x : Nat} (h : BytesOk s) : BytesOk (s.writeTail vf q x) := .ite h h.onQueue

theorem BytesOk.consume {q : Nat} (h : BytesOk s) : BytesOk (s.consume vf q) := h.onQueue.onVf

theorem BytesOk.acceptLaunch {c : Ctx} {q dseq : Nat} {l : LaunchRead} (h : BytesOk s) : BytesOk (s.acceptLaunch c q dseq l) :=
  .evaluate (h.of_eq rfl rfl)

theorem BytesOk.endedLaunch {c : Ctx} {q dseq : Nat} {l : LaunchRead} {detail : Nat} {loc : BitVec 64} (h : BytesOk s) :
    BytesOk (s.endedLaunch c q dseq l code detail loc) := .endScheme (h.of_eq rfl rfl)

theorem BytesOk.launch {c : Ctx} {q dseq : Nat} (h : BytesOk s) : BytesOk (s.launch c q dseq addr) := by
  unfold State.launch
  split
  · exact h.endedLaunch
  · exact .ite h.endedLaunch h.acceptLaunch

theorem BytesOk.cancelScheme {dseq : Nat} (h : BytesOk s) : BytesOk (s.cancelScheme ctx dseq) := by
  unfold State.cancelScheme
  split
  · exact h
  · exact h.endSchemeNow

theorem BytesOk.serveQueue {q : Nat} {want : Nat → Bool} {k : State → Ctx → Sq → Nat → State} (h : BytesOk s)
    (hk : ∀ t c x n, BytesOk t → BytesOk (k t c x n)) :
    BytesOk (s.serveQueue vf q want k) := by
  unfold State.serveQueue
  split
  · exact h
  · refine .ite h ?_
    split
    · exact h.onQueue.setEvent
    · exact .ite h (hk _ _ _ _ h.consume)

theorem BytesOk.execSqEntryLaunch {q : Nat} (h : BytesOk s) : NextOk (execSqEntryLaunch vf q s) :=
  h.whenRead (fun _ h1 => h1.serveQueue (fun _ _ _ _ h2 => .ite h2.launch h2))

theorem BytesOk.execSqEntryCancel {q : Nat} (h : BytesOk s) : NextOk (execSqEntryCancel vf q s) :=
  h.whenRead (fun _ h1 => h1.serveQueue (fun _ _ _ _ h2 => h2.cancelScheme))

theorem BytesOk.putField (h : BytesOk s) : BytesOk (s.putField fl core) := .ite h.resumeField h.startField

theorem BytesOk.execFieldPlace (h : BytesOk s) : NextOk (execFieldPlace part s) := by
  unfold Machine.execFieldPlace
  refine h.whenRead (fun t h1 => ?_)
  split
  · exact h1
  · exact .evaluate (h1.foldl (fun _ _ h2 => h2.putField))

theorem BytesOk.execSchemeTimeout (h : BytesOk s) : NextOk (execSchemeTimeout scheme s) := by
  unfold Machine.execSchemeTimeout
  split
  · exact h
  · exact BytesOk.ite h.endSchemeNow h

theorem BytesOk.collect {ids : List Nat} (h : BytesOk s) : BytesOk (s.collect ids) := by
  refine h.mapFields (fun fl hfl => ?_) rfl rfl
  split <;> exact hfl

theorem BytesOk.execPreemptRequest (h : BytesOk s) : NextOk (execPreemptRequest part s) := by
  unfold Machine.execPreemptRequest
  refine BytesOk.ite h ?_
  split
  · exact h
  · split
    · exact h
    · exact h.collect

theorem BytesOk.writeImage {fs : List Furrow} (h : BytesOk s) : BytesOk (s.writeImage fl fs) := by
  unfold State.writeImage
  split
  · exact h
  · exact .describe (.baseWrite (h.baseWrite.baseWrite.foldl (fun _ _ h1 => h1.baseWrite)))

theorem BytesOk.settleFurrows {slots : List Nat} (h : BytesOk s) : BytesOk (s.settleFurrows core slots) :=
  h.foldl (fun _ _ h1 => .abandonSpec (.ite h1.takeStep h1))

theorem BytesOk.execPreemptCollectComplete (h : BytesOk s) : NextOk (execPreemptCollectComplete field s) := by
  unfold Machine.execPreemptCollectComplete
  extract_lets mine
  split
  · exact h
  next fl e =>
    refine BytesOk.ite h ?_
    extract_lets s1 now saved fl1 u s2 s3 s4
    have hu : BytesOk u := BytesOk.onField h.settleFurrows field _ fun _ _ => h.fields fl (List.mem_of_find?_eq_some e)
    have h4 : BytesOk s4 := BytesOk.foldl (s := s3) (hu.of_eq rfl rfl) fun _ _ h1 => h1.purgeReuse.handout
    exact h4.writeImage.storeCounters

/-! ### Messages of the coherence protocol -/

theorem BytesOk.discardMsg (h : BytesOk s) : BytesOk (s.discardMsg n dst) := .onAgentErrs (h.of_eq rfl rfl)

theorem BytesOk.arriving {n typ : Nat} {r : Message × State} (h : BytesOk s) (e : s.arriving n typ = some r) : BytesOk r.2 := by
  unfold State.arriving at e
  split at e
  · cases e
  · dsimp only at e
    split at e
    · obtain rfl := Option.some.inj e
      exact h.of_eq rfl rfl
    · cases e

theorem BytesOk.arrival {typ : Nat} {k : State → Message → State} (h : BytesOk s) (hk : ∀ t m, BytesOk t → BytesOk (k t m)) :
    NextOk (arrival n typ s k) := by
  unfold Machine.arrival
  split
  · exact h
  next m t e => exact BytesOk.ite h.discardMsg (hk _ _ (h.arriving e))

theorem BytesOk.meet {m : Message} (h : BytesOk s) : BytesOk (s.meet m write) := .ite h.onHolder h.answer

theorem BytesOk.requestAt {m : Message} (h : BytesOk s) : BytesOk (s.requestAt m write) :=
  .ite (.setSector (.ite h.noteRequest h)) (.meet (.ite h.noteRequest h))

theorem BytesOk.execRd (h : BytesOk s) : NextOk (execRd n s) := h.arrival (fun _ _ h1 => h1.requestAt)

theorem BytesOk.execWr (h : BytesOk s) : NextOk (execWr n s) := h.arrival (fun _ _ h1 => h1.requestAt)

theorem BytesOk.settleRequest (h : BytesOk s) : BytesOk (s.settleRequest a pa) := .ite h.accessDone h

theorem BytesOk.execPreq (h : BytesOk s) : NextOk (execPreq n s) := by
  unfold Machine.execPreq
  refine h.arrival (fun t m h1 => .ite h1.setSector ?_)
  split
  · exact h1
  · exact h1.addPending

theorem BytesOk.execPact (h : BytesOk s) : NextOk (execPact n s) := h.arrival (fun _ _ h1 => .ite h1.onHolder.settleRequest h1.onHolder.forward)

theorem BytesOk.execPdeact (h : BytesOk s) : NextOk (execPdeact n s) := h.arrival (fun _ _ h1 => .ite h1.deactivate.settleBase h1.onHolder)

theorem BytesOk.endSnoop {op : HostOp} (h : BytesOk s) : BytesOk (s.endSnoop pa op) := by
  unfold State.endSnoop
  dsimp only
  split
  · exact h.setSector.onHolder.writeBytes _ _
  · exact h.setSector.onHolder

theorem BytesOk.settleSnoop (h : BytesOk s) : BytesOk (s.settleSnoop pa) :=
  .ite h (.ite h (.deactivate (.setSector (h.foldl (fun _ _ h1 => h1.endSnoop)))))

theorem BytesOk.snoop {kind : Nat} {data : Option (List Byte)} (h : BytesOk s) : BytesOk (s.snoop sector kind data) := by
  unfold State.snoop
  dsimp only
  split
  · exact .ite h.startHostOp.settleSnoop h.startHostOp.onHolder.addPending
  · exact h

theorem BytesOk.execCxlCacheResponse (h : BytesOk s) : NextOk (execCxlCacheResponse sector s) := by
  unfold Machine.execCxlCacheResponse
  dsimp only
  split
  · exact h
  · refine BytesOk.ite h.setSector ?_
    split
    · exact h.setSector.forward
    · exact h.setSector.answer

theorem BytesOk.execBackInvalidateResponse (h : BytesOk s) : NextOk (execBackInvalidateResponse sector s) := by
  unfold Machine.execBackInvalidateResponse
  dsimp only
  split
  · exact h
  · split
    · exact h.setSector.forward
    · exact BytesOk.ite h.setSector.settleBase (.ite h.setSector.forward h.setSector.answer)

theorem BytesOk.settleHome (h : BytesOk s) : BytesOk (s.settleHome a pa) := h.settleSnoop.settleBase.settleRequest

theorem BytesOk.tokAtHome {m : Message} (h : BytesOk s) : BytesOk (s.tokAtHome m) := by
  unfold State.tokAtHome
  dsimp only
  split
  · exact .ite h.setSector h
  · refine .ite h ?_
    split
    · exact .ite h.setSector.onHolder.settleHome h.setSector.onHolder.forward
    · exact h.setSector.onHolder.settleHome

theorem BytesOk.fillAsked (h : BytesOk s) : BytesOk (s.fillAsked a pa) := .ite h (h.onHolder.foldl (fun _ _ h1 => h1.afterLoad))

theorem BytesOk.settleHolder (h : BytesOk s) : BytesOk (s.settleHolder a pa) :=
  .settleRequest (.settleBase (.wake (.fillAsked (h.foldl (fun _ _ h1 => h1.performPosted)))))

theorem BytesOk.tokAtHolder {m : Message} (h : BytesOk s) : BytesOk (s.tokAtHolder m) := by
  unfold State.tokAtHolder
  extract_lets x s0 s1
  have h1 : BytesOk s1 := .onHolder (.ite h.makeRoom h)
  refine .ite h ?_
  split
  · exact .ite h1.settleHolder h1.forward
  · exact h1.settleHolder

theorem BytesOk.execTok (h : BytesOk s) : NextOk (execTok n s) := h.arrival (fun _ _ h1 => .ite h1.tokAtHome h1.tokAtHolder)

theorem BytesOk.onHomeErrs {k : ErrCounters → ErrCounters} (h : BytesOk s) : BytesOk (s.onHomeErrs pa k) := h.onAgentErrs

theorem BytesOk.startRecovery {pa0 : Nat} (h : BytesOk s) : BytesOk (s.startRecovery pa0) := .ite h h.setSector.onHolder.onHomeErrs.sendTo

theorem BytesOk.execLost (h : BytesOk s) : NextOk (execLost n s) := h.arrival (fun _ _ h1 => h1.startRecovery)

theorem BytesOk.execRecover (h : BytesOk s) : NextOk (execRecover n s) := h.arrival (fun _ _ h1 => .onHolder (.giveAll (.ite h1.startHostOp h1)))

theorem BytesOk.restart (h : BytesOk s) : BytesOk (s.restart pa a) := by
  unfold State.restart
  refine .ite h ?_
  split
  · exact h.onHolder.firstAttempt
  · exact h.onHolder

theorem BytesOk.execReissue (h : BytesOk s) : NextOk (execReissue n s) := h.arrival (fun _ _ h1 => .ite h1.onHolder.restart.settleBase h1)

theorem BytesOk.answerHeld {m : Message} (h : BytesOk s) : BytesOk (s.answerHeld m) := by
  unfold State.answerHeld
  refine .ite (.ite h ?_) h.meet
  split
  · exact h.addPending
  · exact h

theorem BytesOk.endRecovery {got : Nat} {own : Bool} (h : BytesOk s) : BytesOk (s.endRecovery pa got own) := by
  unfold State.endRecovery
  extract_lets x home lost s0 s1 s2 s3 s4
  have h1 : BytesOk s1 := .onHomeErrs (.ite h.poisonSector h)
  have h3 : BytesOk s3 := h1.setSector.onHolder.sendTo
  have h4 : BytesOk s4 := by
    unfold s4
    split
    · exact h3.forward
    · exact h3.activateNext
  exact BytesOk.settleHome (.restart (h4.foldl fun _ _ ht => ht.answerHeld))

theorem BytesOk.execRecoveryWindowEnd (h : BytesOk s) : NextOk (execRecoveryWindowEnd sector s) := by
  unfold Machine.execRecoveryWindowEnd
  split
  · exact h
  · exact BytesOk.ite h.endRecovery h

theorem BytesOk.broadcast {r : TransReq} (h : BytesOk s) : BytesOk (s.broadcast a pa r) := h.onHolder.sendTo

theorem BytesOk.execTransientTimeout (h : BytesOk s) : NextOk (execTransientTimeout agent sector s) := by
  unfold Machine.execTransientTimeout
  dsimp only
  split
  · exact h
  · exact BytesOk.ite h (.ite h.broadcast h.onHolder.send)

theorem BytesOk.execPersistentTimeout (h : BytesOk s) : NextOk (execPersistentTimeout sector s) := by
  unfold Machine.execPersistentTimeout
  split
  · exact h
  · exact BytesOk.ite h.startRecovery h.settleRequest

theorem BytesOk.execMessageDrop (h : BytesOk s) : NextOk (execMessageDrop n s) := by
  unfold Machine.execMessageDrop
  split
  · exact h
  · exact BytesOk.ite h.discardMsg (.ite (h.of_eq rfl rfl) h)

theorem BytesOk.execHolderEvict (h : BytesOk s) : NextOk (execHolderEvict agent sector s) :=
  BytesOk.ite (.ite h.dropPeer h) (.ite h (.ite (.ite h.startHostOp h) (.ite h.startHostOp h.giveAll)))

theorem BytesOk.loseTokens {unreadable : Bool} (h : BytesOk s) : BytesOk (s.loseTokens agent pa unreadable) :=
  .ite h.agentLost.onHolder.startRecovery h.agentLost.onHolder.send

theorem BytesOk.execCohModeDrainEnd (h : BytesOk s) : NextOk (execCohModeDrainEnd s) := by
  unfold Machine.execCohModeDrainEnd
  split
  · exact h
  · exact BytesOk.ite h (.settleBase (h.of_eq rfl rfl))

/-! ### The start of a command -/

theorem BytesOk.begin {rs : List Receiver} {bad : Option (Nat × Nat)} (h : BytesOk s) : BytesOk (s.begin c rs bad) := h.onCmd

theorem BytesOk.execMma (h : BytesOk s) : NextOk (execMma cmd s) := by
  unfold Machine.execMma
  split
  · exact h.begin
  · exact h

theorem BytesOk.execCopy (h : BytesOk s) : NextOk (execCopy cmd s) := by
  unfold Machine.execCopy
  split
  · exact h.begin
  · exact h

theorem BytesOk.execStream (h : BytesOk s) : NextOk (execStream cmd s) := by
  unfold Machine.execStream
  split
  · exact h.begin
  · exact h

/-! ### K-steps, chunks and rows -/

theorem BytesOk.kstep (h : BytesOk s) : BytesOk (s.kstep c fl) :=
  .ite h.endCmd (.onCmd (.tickFree (.fuse (h.afterRuns.foldl_fst (fun _ _ h1 => h1.putPiece)))))

theorem BytesOk.execMxeKstep (h : BytesOk s) : NextOk (execMxeKstep cmd s) := by
  unfold Machine.execMxeKstep
  split
  · exact BytesOk.ite h.kstep h
  · exact h

theorem BytesOk.chunkPlaces {t : Tensor} {at_ : Region} {shift : Int} {q : Nat} (h : BytesOk s) :
    BytesOk (s.chunkPlaces c fl t at_ shift k q).1 := by
  unfold State.chunkPlaces
  split
  next e => exact (h.placesFrom fun _ _ ht => ht.elemPlace).of_fst e
  next s1 _ e =>
    have h1 : BytesOk s1 := (h.placesFrom fun _ _ ht => ht.elemPlace).of_fst e
    split <;> exact (h1.placesFrom fun _ _ ht => ht.metaPlace).of_fst ‹_›

theorem BytesOk.planDsts {q : Nat} {l : List (Nat × Receiver)} (h : BytesOk s) : BytesOk (State.planDsts c q fl l s).1 := by
  induction l generalizing s with
  | nil => exact h
  | cons x l ih =>
    unfold State.planDsts
    split
    · exact ih h
    · split
      next e => exact h.chunkPlaces.of_fst e
      next t _ _ e =>
        have ht : BytesOk t := h.chunkPlaces.of_fst e
        split <;> exact (ih ht).of_fst ‹_›

theorem BytesOk.planChunk {q : Nat} (h : BytesOk s) : BytesOk (s.planChunk c fl q).1 := by
  unfold State.planChunk
  split
  next e => exact h.chunkPlaces.of_fst e
  next t _ _ e =>
    have ht : BytesOk t := h.chunkPlaces.of_fst e
    split <;> exact ht.planDsts.of_fst ‹_›

theorem BytesOk.readFlight {f : Flight} (h : BytesOk s) : BytesOk (State.readFlight c f s).1 := .ite_fst h h.readTransfer

theorem BytesOk.onFlight {q : Nat} {k : Flight → Flight} (h : BytesOk s) : BytesOk (s.onFlight id q k) := h.onCmd

theorem BytesOk.poisonFlight {q : Nat} (h : BytesOk s) : BytesOk (s.poisonFlight id q) := h.onCmd

theorem BytesOk.landed {f : Flight} (h : BytesOk s) : BytesOk (s.landed id f) := h.onCmd

theorem BytesOk.advanceFlight {q : Nat} (h : BytesOk s) : BytesOk (s.advanceFlight id q) := by
  unfold State.advanceFlight
  split
  · exact h
  · split
    · exact h
    · extract_lets f
      split
      next e => exact .poisonFlight (h.readFlight.of_fst e)
      next t _ e =>
        extract_lets s2 op
        have h2 : BytesOk s2 := .onFlight (.tickFree (h.readFlight.of_fst e))
        refine .ite h2 ?_
        split
        next e1 => exact .poisonFlight (.fuse (h2.performPuts.of_fst e1))
        next e1 =>
          have h4 := (h2.performPuts.of_fst e1).fuse (op := op)
          exact .ite h4.onCmd.landed h4.onCmd.onFlight

theorem BytesOk.settleFlights (h : BytesOk s) : BytesOk (s.settleFlights id ctx) := by
  unfold State.settleFlights
  split
  · exact h
  · extract_lets s1
    have h1 : BytesOk s1 := h.foldl fun _ _ ht => ht.advanceFlight
    split
    · exact h1
    · split
      · refine .ite ?_ h1
        split
        next e => exact (h1.flushOwed.of_fst e).onCmd.stopCmd
        next e => exact h1.flushOwed.of_fst e
      · exact h1

theorem BytesOk.issueChunks {at_ : Nat} (h : BytesOk s) : BytesOk (State.issueChunks id fl n at_ s) := by
  induction n generalizing s at_ with
  | zero => exact h
  | succ n ih =>
    unfold State.issueChunks
    split
    · exact h
    · split
      next e1 => exact h.planChunk.of_fst e1
      next e1 => exact .onCmd (h.planChunk.of_fst e1)
      next e1 => exact ih (.onCmd (h.planChunk.of_fst e1))

theorem BytesOk.execTxeChunkLand {chunk : Nat} (h : BytesOk s) : NextOk (execTxeChunkLand cmd chunk s) := by
  unfold Machine.execTxeChunkLand
  refine h.engineEvent fun t ht => ?_
  split
  · exact ht
  · extract_lets run s1 s2
    have h1 : BytesOk s1 := ht.advanceFlight
    have h2 : BytesOk s2 := ht.issueChunks.advanceFlight
    refine .ite ht.flushOwed (.ite ?_ (.ite ht.settleFlights ?_))
    · split
      · exact .ite h1 h1.flushOwed
      · exact h1
    · split
      · exact .ite h2.settleFlights (.ite h2 h2.flushOwed)
      · exact h2

theorem BytesOk.gxeRead {cover : List (Nat × Nat)} (h : BytesOk s) : BytesOk (s.gxeRead c fl cover va n).1 := by
  unfold State.gxeRead
  refine .ite_fst h ?_
  split
  next e => exact h.engineAddr.of_fst e
  next t _ e =>
    have ht : BytesOk t := h.engineAddr.of_fst e
    refine .ite_fst ht.readTransfer ?_
    split <;> exact ht.readTransfer

theorem BytesOk.gxeAddr {j : Nat} (h : BytesOk s) : BytesOk (s.gxeAddr c fl j).1 := by
  unfold State.gxeAddr
  dsimp only
  refine .ite_fst h ?_
  split
  next e => exact h.gxeRead.of_fst e
  next e => exact h.gxeRead.of_fst e

theorem BytesOk.gxeElem {j : Nat} (h : BytesOk s) : BytesOk (s.gxeElem c fl j).1 := by
  unfold State.gxeElem
  dsimp only
  split
  next e => exact h.gxeAddr.of_fst e
  next t _ _ e =>
    have ht : BytesOk t := h.gxeAddr.of_fst e
    split <;> exact ht.gxeRead.of_fst ‹_›

theorem BytesOk.gxeElems {l : List Nat} (h : BytesOk s) : BytesOk (State.gxeElems c fl l s).1 := by
  induction l generalizing s with
  | nil => exact h
  | cons x l ih =>
    unfold State.gxeElems
    split
    next e => exact h.gxeElem.of_fst e
    next e => exact ih (h.gxeElem.of_fst e)

theorem BytesOk.stopStream {j : Nat} {e : EStop} (h : BytesOk s) : BytesOk (s.stopStream c ctx j e) := by
  unfold State.stopStream
  split
  · exact h
  · exact h.endCmd
  · exact h.endCmd
  · exact h.stopCmd

theorem BytesOk.execGxeRowDeliver (h : BytesOk s) : NextOk (execGxeRowDeliver cmd s) := by
  unfold Machine.execGxeRowDeliver
  refine h.engineEvent fun t ht => ?_
  split
  · exact ht
  · refine .ite ht ?_
    extract_lets first had js
    split
    next e => exact (ht.gxeElems.of_fst e).tickFree.onCmd.stopStream
    next s1 _ e =>
      extract_lets all row s2
      have h2 : BytesOk s2 := (ht.gxeElems.of_fst e).tickFree.onCmd.endTransfer
      split
      · exact h2.onFurrow
      · exact h2

/-! ### Collectives -/

theorem BytesOk.joinColl {rank : Nat} (h : BytesOk s) : BytesOk (s.joinColl c fl rank) := by
  unfold State.joinColl
  refine .ite (.onColl (.onCmd (.onColl ?_))) (.onCmd (.onColl ?_))
  · split
    · exact h
    · exact h.of_eq rfl rfl
  · split
    · exact h
    · exact h.of_eq rfl rfl

theorem BytesOk.startCxe {ok : Nat → Bool} (h : BytesOk s) : NextOk (startCxe ok cmd s) := by
  unfold Machine.startCxe
  dsimp only
  split
  · exact h
  · refine BytesOk.ite h ?_
    split
    · exact h.begin.joinColl
    · exact h.begin

theorem BytesOk.endRanks {k : Collective} {detail : Command → Nat} (h : BytesOk s) : BytesOk (s.endRanks k code detail) := h.of_eq rfl rfl

theorem BytesOk.execCollectiveStart {gid : Nat} {fabric : FabricStart} (h : BytesOk s) : NextOk (execCollectiveStart ctx gid fabric s) := by
  unfold Machine.execCollectiveStart
  split
  · exact h
  · split
    · exact h.onColl.endRanks.onColl
    · exact BytesOk.ite h.onColl.endRanks.onColl h.onColl.onColl

theorem BytesOk.cxeRead {ns : List Nat} (h : BytesOk s) : BytesOk (s.cxeRead c fl key ns).1 := by
  unfold State.cxeRead
  extract_lets t w
  have placed := h.placesFrom (f := fun s n => s.elemPlace c fl t 0 {} (n / w) (n % w)) (l := ns) fun _ _ ht => ht.elemPlace
  split
  next e => exact placed.of_fst e
  next s1 _ e =>
    extract_lets r
    have hr : BytesOk r.1 := (placed.of_fst e).readTransfer
    exact .ite_fst hr (.ite_fst hr hr)

theorem BytesOk.cxeGather {k : Collective} {l : List (Nat × List Nat)} (h : BytesOk s) : BytesOk (State.cxeGather k key l s).1 := by
  induction l generalizing s with
  | nil => exact h
  | cons x l ih =>
    unfold State.cxeGather
    extract_lets one
    have hone : BytesOk one.1 := by
      unfold one
      split
      · split
        · exact h
        · refine .ite_fst h ?_
          split <;> exact h.cxeRead.of_fst ‹_›
      · exact .ite_fst h h
    clear_value one
    split
    · exact hone
    · split
      next e => exact (ih hone).of_fst e
      next e => exact (ih hone).of_fst e

theorem BytesOk.cxeChunk {k : Collective} {rank : Nat} {ext : List (Nat × List Byte)} {js : List (Nat × Nat)} (h : BytesOk s) :
    BytesOk (State.cxeChunk k c rank ext js s).1 := by
  unfold State.cxeChunk
  dsimp only
  split
  next e => exact h.cxeGather.of_fst e
  next e => exact .foldl (.of_eq (h.cxeGather.of_fst e) rfl rfl) (fun _ _ h1 => h1.endTransfer)

theorem BytesOk.stopRank {chunk : Nat} {e : EStop} (h : BytesOk s) : BytesOk (s.stopRank id chunk e) := by
  unfold State.stopRank
  split
  · exact h
  · split
    · exact h
    · exact h
    · exact h.stopCmd

theorem BytesOk.onRank {coll rank : Nat} {f : Rank → Rank} (h : BytesOk s) : BytesOk (s.onRank coll rank f) := h.onColl

theorem BytesOk.noteDests {coll : Nat} {ext : List (Nat × List Byte)} (h : BytesOk s) : BytesOk (s.noteDests coll ext) := h.onColl

theorem BytesOk.execCxeChunkArrive {coll rank chunk : Nat} {ext : List (Nat × List Byte)} (h : BytesOk s) :
    NextOk (execCxeChunkArrive coll rank chunk ext s) := by
  unfold Machine.execCxeChunkArrive
  refine h.engineEvent fun t h1 => ?_
  split
  · exact h1
  · refine .ite h1 ?_
    extract_lets w is
    split
    next e => exact .stopRank (h1.cxeChunk.of_fst e)
    next e =>
      extract_lets s2 s3
      have h2 : BytesOk s2 := .onRank (.noteDests (h1.cxeChunk.of_fst e))
      have h3 : BytesOk s3 := h2.tickFree.onCmd
      exact .ite h3.countChunk h3

theorem BytesOk.destPlaces {k : Collective} {l : List Nat} (h : BytesOk s) : BytesOk (State.destPlaces k c fl l s).1 := by
  induction l generalizing s with
  | nil => exact h
  | cons x l ih =>
    unfold State.destPlaces
    dsimp only
    split
    next e => exact h.elemPlace.of_fst e
    next t _ e =>
      have ht : BytesOk t := h.elemPlace.of_fst e
      split <;> exact (ih ht).of_fst ‹_›

theorem BytesOk.commitSome {k : Collective} {r : Rank} {puts : List Put} (h : BytesOk s) : BytesOk (s.commitSome k r c fl puts).1 :=
  .ite_fst h.performPuts.fuse.onRank.onCmd h.performPuts.fuse.onRank

theorem BytesOk.commitRank {k : Collective} {r : Rank} (h : BytesOk s) : BytesOk (s.commitRank k r c fl).1 := by
  unfold State.commitRank
  split
  · exact h.commitSome
  · split
    next e1 => exact .stopCmd (h.destPlaces.of_fst e1)
    next e1 => exact .commitSome (h.destPlaces.of_fst e1)

theorem BytesOk.abortColl {coll : Nat} (h : BytesOk s) : BytesOk (s.abortColl coll code) := by
  unfold State.abortColl
  split
  · exact h
  · exact h.endRanks.onColl

theorem BytesOk.sweepColls (h : BytesOk s) : BytesOk s.sweepColls := h.of_eq rfl rfl

theorem BytesOk.closeRank (h : BytesOk s) : BytesOk (s.closeRank c fl).1 := by
  unfold State.closeRank
  split
  · exact h
  · split
    · exact h
    · exact .ite_fst (.ite h h.abortColl) (.ite_fst h.commitRank (.ite_fst h.abortColl (.ite_fst h.commitRank h)))

theorem BytesOk.execEngineComplete (h : BytesOk s) : NextOk (execEngineComplete cmd s) := by
  unfold Machine.execEngineComplete
  refine h.engineEvent fun t ht => ?_
  split
  · exact ht
  · split
    · exact ht
    · extract_lets mayRun s1
      have h1 : BytesOk s1 := .ite ht.onCmd ht
      refine .ite ht (.ite (.ite (.resolveSlot (ht.of_eq rfl rfl)) ht) (.ite ht.settleFlights (.ite ht (.ite ?_ (.ite h1.finishCmd h1)))))
      split
      next e => exact (h1.closeRank.of_fst e).finishCmd.sweepColls
      next e => exact h1.closeRank.of_fst e

theorem BytesOk.execCollectiveTimeout {loss : RankLoss} (h : BytesOk s) : NextOk (execCollectiveTimeout loss s) := by
  unfold Machine.execCollectiveTimeout
  split
  · exact h
  · exact BytesOk.ite h (.ite (.ite h.abortColl h) (.ite h.abortColl h))

theorem BytesOk.execCollectiveRedo {coll : Nat} {plane : Option Nat} (h : BytesOk s) : NextOk (execCollectiveRedo coll plane s) := by
  unfold Machine.execCollectiveRedo
  split
  · exact h
  · exact BytesOk.ite h (.ite (.abortColl (h.of_eq rfl rfl)) (.onColl (h.of_eq rfl rfl)))

/-! ### Invalidations of translations -/

theorem BytesOk.shootdown {t : TlbEntry → Bool} (h : BytesOk s) : BytesOk (s.shootdown t) := h.of_eq rfl rfl

theorem BytesOk.tlbInvalidate {legal : Furrow → Bool} {t : Furrow → TlbEntry → Bool} (h : BytesOk s) : NextOk (tlbInvalidate i s legal t) :=
  h.running (fun _ _ _ => .ite h.skip (.ite h.trapNow (.ite h.waitOn (.ite h.shootdown.waitOn h.shootdown.fullFence.skip))))

/-! ### Management commands and registers -/

theorem BytesOk.releaseRecords {q : Nat} (h : BytesOk s) : BytesOk (s.releaseRecords vf q) :=
  .settleRecords (h.onVf.foldl (fun _ _ h1 => h1.writeRecord))

theorem BytesOk.claimQueue {q gen : Nat} (h : BytesOk s) : BytesOk (s.claimQueue vf q gen) := .ite h (.ite h.onQueue.releaseRecords h.onQueue)

theorem BytesOk.writeVfWord {x : Nat} (h : BytesOk s) : BytesOk (s.writeVfWord vf off x) :=
  .ite h (.ite h.onVf (.ite h (.ite h.writeTail (.ite h.claimQueue (.ite h (.ite h.onQueue (.ite h.onQueue h)))))))

theorem BytesOk.writeWords {k : State → Nat → Nat → State} {val : Nat} (h : BytesOk s) (hk : ∀ t a x, BytesOk t → BytesOk (k t a x)) :
    BytesOk (writeWords k off val s) := .ite (hk _ _ _ h) (.ite (hk _ _ _ (hk _ _ _ h)) h)

theorem BytesOk.execTasidSWrite {asid : Nat} (h : BytesOk s) : NextOk (execTasidSWrite ctx asid s) :=
  BytesOk.ite h (.ite (h.of_eq rfl rfl) h.writeAsid)

theorem BytesOk.complete {status : Nat} {words : List (BitVec 64)} (h : BytesOk s) : BytesOk (s.complete pf status words) := h.onLd

theorem BytesOk.command {k : State → State} (h : BytesOk s) (hk : ∀ t, BytesOk t → BytesOk (k t)) : BytesOk (s.command pf i k) :=
  .ite h (.ite h.complete (hk _ h))

theorem BytesOk.vfCommand {k : State → State} (h : BytesOk s) (hk : ∀ t, BytesOk t → BytesOk (k t)) : BytesOk (s.vfCommand pf vf i k) :=
  h.command (fun _ h1 => .ite h1.complete (.ite h1.complete (hk _ h1)))

theorem BytesOk.ctxCommand {k : State → Ctx → State} (h : BytesOk s) (hk : ∀ t c, BytesOk t → BytesOk (k t c)) :
    BytesOk (s.ctxCommand pf vf i k) := by
  unfold State.ctxCommand
  refine h.vfCommand (fun t h1 => ?_)
  split
  · exact h1.complete
  · exact hk _ _ h1

theorem BytesOk.serveOn (h : BytesOk s) : BytesOk (s.serveOn pf i) := h.onLd

theorem BytesOk.whenPfRead {k : State → State} (h : BytesOk s) (hk : ∀ t, BytesOk t → BytesOk (k t)) : BytesOk (s.whenPfRead pf i secs k) :=
  .ite (h.whenRead hk) (h.serveOn.whenRead hk)

theorem BytesOk.writePfWord {x : Nat} (h : BytesOk s) : BytesOk (State.writePfWord i s pf off x) :=
  .ite h (.ite h.onLd (.ite (.ite h (h.command (fun _ h1 => h1.complete))) h))

theorem BytesOk.execRegisterWrite {val : Nat} (h : BytesOk s) : NextOk (execRegisterWrite vf off val s) :=
  h.writeWords (fun _ _ _ h1 => .ite h1.writeVfWord h1.writePfWord)

theorem BytesOk.execCtxCreate {descr : Nat} (h : BytesOk s) : NextOk (execCtxCreate pf vf descr s) :=
  h.vfCommand (fun _ h1 => .ite h1.complete (h1.whenPfRead (fun _ h2 => .ite h2.complete (.complete (.onVf (.baseWrite (h2.of_eq rfl rfl)))))))

theorem BytesOk.forgetCtx (h : BytesOk s) : BytesOk (s.forgetCtx ctx) := h.of_eq rfl rfl

theorem BytesOk.keepRecords (h : BytesOk s) : BytesOk (s.keepRecords vf) := by
  unfold State.keepRecords
  extract_lets s1
  have h1 : BytesOk s1 := h.foldl fun _ _ h1 => h1.releaseRecords
  exact h1.of_eq (State.onVf_mem _ _ _) (State.onVf_fields _ _ _)

theorem BytesOk.execCtxDestroy (h : BytesOk s) : NextOk (execCtxDestroy pf vf s) :=
  h.ctxCommand (fun _ _ h1 => .ite h1.endContext.serveOn h1.endContext.keepRecords.forgetCtx.complete)

theorem BytesOk.execGroupSet {gid ranks timeout table : Nat} (h : BytesOk s) : NextOk (execGroupSet pf vf gid ranks timeout table s) :=
  h.ctxCommand (fun _ _ h1 => .ite h1.complete (.ite h1.complete (h1.whenPfRead (fun _ h2 => .ite h2.complete h2.onCtx.complete))))

theorem BytesOk.resetQueue {q : Nat} (h : BytesOk s) : BytesOk (s.resetQueue vf q) := by
  unfold State.resetQueue
  extract_lets s1 s2
  have h1 : BytesOk s1 := h.foldl fun _ _ ht => ht.endSchemeNow
  have h2 : BytesOk s2 := .ite h1.releaseRecords h1
  exact h2.onQueue

theorem BytesOk.execQueueReset {q : Nat} (h : BytesOk s) : NextOk (execQueueReset pf vf q s) :=
  h.ctxCommand (fun _ _ h1 => .ite h1.complete h1.resetQueue.complete)

theorem BytesOk.execQuadAssign {quad : Nat} (h : BytesOk s) : NextOk (execQuadAssign pf quad part s) :=
  h.command (fun _ h1 => .ite h1.complete (.ite h1.complete (.ite h1.complete h1.onQuad.collect)))

theorem BytesOk.execScrubComplete {quad : Nat} (h : BytesOk s) : NextOk (execScrubComplete quad s) := by
  unfold Machine.execScrubComplete
  split
  · exact h
  · exact BytesOk.ite h (.complete (h.of_eq rfl rfl))

theorem BytesOk.execCountersRead (h : BytesOk s) : NextOk (execCountersRead pf die s) := h.command (fun _ h1 => .ite h1.complete h1.complete)

theorem BytesOk.execLinkStatus (h : BytesOk s) : NextOk (execLinkStatus pf s) := h.command (fun _ h1 => h1.complete)

theorem BytesOk.execVfBind (h : BytesOk s) : NextOk (execVfBind pf vf ld s) :=
  h.command (fun _ h1 => .ite h1.complete (.ite h1.complete (.ite h1.complete h1.onVf.complete)))

theorem BytesOk.buildService (h : BytesOk s) : BytesOk s.buildService := h.foldl (fun _ _ h1 => .ite h1 (h1.of_eq rfl rfl))

theorem BytesOk.switchDie (h : BytesOk s) : BytesOk (s.switchDie die) :=
  .ite (h.of_eq rfl rfl) (.switchDone (.serviceStart (h.serviceAdd.foldl (fun _ _ h1 => h1.endField))))

theorem BytesOk.bringUp (h : BytesOk s) : BytesOk s.bringUp := h.of_eq rfl rfl

theorem BytesOk.switchTo {f : Firmware} (h : BytesOk s) : BytesOk (s.switchTo f) :=
  .foldl (.buildService (.of_eq (.ite h.bringUp h) rfl rfl)) (fun _ _ h1 => h1.switchDie)

theorem BytesOk.releaseKept (h : BytesOk s) : BytesOk s.releaseKept := h.foldl (fun _ _ h1 => h1.onVf.foldl (fun _ _ h2 => h2.baseWriteIrq))

theorem BytesOk.usableLd (h : BytesOk s) : BytesOk (s.usableLd ld) :=
  .ite h.onLd (h.onLd.releaseKept.foldl (fun _ _ h1 => h1.setEvent.foldl (fun _ _ h2 => .ite h2 h2.releaseRecords)))

theorem BytesOk.execFwOffer (h : BytesOk s) : NextOk (execFwOffer pf addr size s) :=
  BytesOk.ite h (h.whenPfRead (fun _ h1 => .complete (.ite (.ite h1.switchTo h1) (.usableLd (.ite h1.switchTo h1)))))

theorem BytesOk.execAttest {nonce : List Byte} (h : BytesOk s) : NextOk (execAttest pf addr nonce s) := by
  unfold Machine.execAttest
  refine h.command (fun t h1 => ?_)
  split
  · exact h1.complete
  · exact h1.baseWrite.complete

theorem BytesOk.execDbgWrite {msg : List Byte} (h : BytesOk s) : NextOk (execDbgWrite pf vf msg s) := by
  unfold Machine.execDbgWrite
  refine h.ctxCommand (fun t c h1 => h1.whenPfRead (fun t1 h2 => ?_))
  split
  · exact h2.complete
  · exact h2.baseWrite.baseWrite.complete

theorem BytesOk.observeTail {c : Ctx} (h : BytesOk s) : BytesOk (s.observeTail c) := by
  unfold State.observeTail
  split
  · exact h
  · exact .ite h h.onCtx.setEvent

theorem BytesOk.execMailboxTailObserve (h : BytesOk s) : NextOk (execMailboxTailObserve ctx s) := by
  unfold Machine.execMailboxTailObserve
  split
  · exact h
  · exact h.whenRead (fun _ h1 => h1.observeTail)

/-! ### Devices, links and the package's resets -/

theorem BytesOk.discardLine (h : BytesOk s) : BytesOk (s.discardLine pa) := by
  unfold State.discardLine
  extract_lets s1
  have h1 : BytesOk s1 := by
    unfold s1
    split
    · exact h.dropL1.writeBytes _ _
    · exact h.dropL1
  exact h1.of_eq rfl rfl

theorem BytesOk.loseHostCopies {hh : Nat} (h : BytesOk s) : BytesOk (s.loseHostCopies hh) := h.foldl (fun _ _ h1 => h1.setSector.loseTokens)

theorem BytesOk.orphanQueues (h : BytesOk s) : BytesOk (s.orphanQueues ld) := h.foldl (fun _ _ h1 => h1.onVf)

theorem BytesOk.execLdDetach (h : BytesOk s) : NextOk (execLdDetach ld s) := by
  unfold Machine.execLdDetach
  split
  · exact h
  · exact BytesOk.ite h (.orphanQueues (.onLd (.foldl (h.loseHostCopies.of_eq rfl rfl) (fun _ _ h1 => h1.discardLine))))

theorem BytesOk.execOrphanTimeout (h : BytesOk s) : NextOk (execOrphanTimeout ctx s) := by
  unfold Machine.execOrphanTimeout
  split
  · exact BytesOk.ite h (h.foldl (fun _ _ h1 => .ite h1.resetQueue h1))
  · exact h

theorem BytesOk.execLinkFailure {port : Nat} (h : BytesOk s) : NextOk (execLinkFailure port s) :=
  BytesOk.ite (h.of_eq rfl rfl) (.ite (h.of_eq rfl rfl) h)

theorem BytesOk.execFmApiRequest {grant : Bool} {host : Nat} (h : BytesOk s) : NextOk (execFmApiRequest grant ld host s) :=
  BytesOk.ite h (.ite (h.of_eq rfl rfl) (.ite h h.onLd))

theorem BytesOk.execPeerLineReread (h : BytesOk s) : NextOk (execPeerLineReread core slot s) := by
  unfold Machine.execPeerLineReread
  split
  · exact h
  · exact h.dropPeer.onFurrow

theorem BytesOk.execThermalHalt (h : BytesOk s) : NextOk (execThermalHalt s) := by
  have halt : ∀ t, BytesOk t → BytesOk { t with halted := true } := fun _ ht => ht.of_eq rfl rfl
  exact halt _ (h.foldl fun _ _ h1 => h1.setEvent)

/-- A reset drops the fields and filters memory's list, which stays in order. -/
theorem BytesOk.resetKept (h : BytesOk s) : BytesOk s.resetKept := ⟨cellsOk_filter h.mem _, fun _ m => nomatch m⟩

/-! ### Publishing into a basin -/

theorem BytesOk.execQput {f : SEport} (h : BytesOk s) : NextOk (execQput f s) := by
  unfold Machine.execQput
  refine h.running (fun q u g => ?_)
  split
  · split
    · exact h.trapNow
    · exact .ite h.waitOn (BytesOk.skip (.evaluate (.onFieldRest (.ite h.onBasin.publish h.onBasin) (fun _ => ⟨rfl, rfl, rfl⟩))))
  · exact h.trapNow

/-! ### Page walks -/

theorem BytesOk.execPageWalk (h : BytesOk s) : NextOk (execPageWalk n s) := by
  unfold Machine.execPageWalk
  dsimp only
  split
  · exact h
  · split
    · exact h.onDie.assignWalks
    · split
      · exact h.request
      · split
        · exact h.onDie.assignWalks
        · exact BytesOk.ite h.onDie.assignWalks.tlbFill.prefetch h.onDie.assignWalks

/-! ### Every instruction and every event -/

/-- What an instruction or an event does, whichever it is. -/
theorem BytesOk.exec (h : BytesOk s) : NextOk (exec i s) := by
  unfold Machine.exec
  cases i with
  | clause => exact h.execClause
  | nop => exact h.execNop
  | uadd | usub | ursub | umul | umulhI64 | umulhN64 | udivI64 | udivN64 | uremI64 | uremN64 | uminI64 | umaxI64
  | uminN64 | umaxN64 | uand | uor | uxor | uandn | ushl | ushrN64 | ushrI64 | urot | useq | usne | usltI64 | usltN64
  | usleI64 | usleN64 => exact h.uniform
  | uins8 => exact h.execUins8
  | upopc => exact h.execUpopc
  | uclz => exact h.execUclz
  | bra => exact h.execBra
  | call => exact h.execCall
  | jmp => exact h.execJmp
  | callr => exact h.execCallr
  | ret => exact h.execRet
  | bwz | bwnz => exact h.branchIf
  | rcv => exact h.execRcv
  | exit => exact h.execExit
  | yield => exact h.execYield
  | loop => exact h.execLoop
  | sysc => exact h.execSysc
  | brk => exact h.execBrk
  | tret => exact h.execTret
  | fend => exact h.execFend
  | cend => exact h.execCend
  | dhalt => exact h.execDhalt
  | pand | por | pxor | pandn | pnot | plt => exact h.predicate
  | srr => exact h.execSrr
  | srw => exact h.execSrw
  | push => exact h.execPush
  | qpop => exact h.execQpop
  | qclaim => exact h.execQclaim
  | qput => exact h.execQput
  | hwait => exact h.execHwait
  | htest => exact h.execHtest
  | hcancel => exact h.execHcancel
  | hget => exact h.execHget
  | hset => exact h.execHset
  | sset => exact h.execSset
  | sget => exact h.execSget
  | winit | warr | wexp => exact h.weirChange
  | wwait => exact h.execWwait
  | vadd | vsub | vmul | vmulh | vmad | vdiv | vrem | vmin | vmax | vabs | vneg | vabsd => exact h.integerRow
  | vand | vor | vxor | vandn | vnot | vshl | vrot | vpopc | vclz | vbrev | vbfe | vmov => exact h.bitRow
  | vshr | vbfi | vfabs | vfneg | vfscale | vset | vfclass => exact h.elementwise
  | vfadd | vfsub | vfmul | vfma | vfms | vfnma | vfdiv | vfsqrt | vfmin | vfmax | vfrint => exact h.floatRow
  | vcmp => exact h.execVcmp
  | vsel => exact h.execVsel
  | vcvt => exact h.execVcvt
  | vpklo | vpkhi => exact h.packHalf
  | vupklo | vupkhi => exact h.unpackHalf
  | vscl => exact h.execVscl
  | vrcp | vrsqrt | vexp2 | vlog2 | vsinpi | vcospi | vtanh => exact h.transcendentalRow
  | vfirst | vballot | psetw | vall | vany | vuni | vlane => exact h.overActive
  | shflIdx | shflUp | shflDown | shflXor => exact h.shuffle
  | vredAdd | vredMin | vredMax => exact h.foldReduction
  | vredAnd | vredOr | vredXor => exact h.bitReduction
  | vscanAdd | vscanMin | vscanMax | vscanxAdd | vscanxMin | vscanxMax => exact h.scan
  | xacq => exact h.execXacq
  | xrel => exact h.execXrel
  | ld | ldAcq => exact h.loadLanes
  | ldw | ldwAcq => exact h.loadUniform
  | st | stRel => exact h.storeLane
  | stw | stwRel => exact h.storeUniform
  | gth => exact h.execGth
  | sct => exact h.execSct
  | atomAdd | atomMin | atomMax | atomAnd | atomOr | atomXor | atomExch | atomCas | atomFadd => exact h.atomic
  | waita => exact h.execWaita
  | pf => exact h.execPf
  | fenceAcq => exact h.execFenceAcq
  | fenceRel => exact h.execFenceRel
  | fenceFull => exact h.execFenceFull
  | fenceSpec => exact h.execFenceSpec
  | fenceXp => exact h.execFenceXp
  | cset => exact h.execCset
  | cclr => exact h.execCclr
  | cget => exact h.execCget
  | tfr => exact h.execTfr
  | tfw => exact h.execTfw
  | svcpost => exact h.execSvcpost
  | svctake => exact h.execSvctake
  | fqtake => exact h.execFqtake
  | fqdone => exact h.execFqdone
  | tlbinvAsid | tlbinvPage | tlbinvNong | tlbinvAll => exact h.tlbInvalidate
  | acrd => exact h.execAcrd
  | issueSelection => exact h.execIssueSelection
  | instructionComplete => exact h.execInstructionComplete
  | fenceComplete => exact h.execFenceComplete
  | trapPermitRetry => exact h.execTrapPermitRetry
  | watchdog => exact h.execWatchdog
  | haltRequestArrive => exact h.execHaltRequestArrive
  | xacqGrant => exact h.execXacqGrant
  | registerReload => exact h.execRegisterReload
  | fieldRetire => exact h.execFieldRetire
  | mma => exact h.execMma
  | copy => exact h.execCopy
  | stream => exact h.execStream
  | allreduce | reduceScatter | allgather | broadcast | send => exact h.startCxe
  | mxeKstep => exact h.execMxeKstep
  | txeChunkLand => exact h.execTxeChunkLand
  | gxeRowDeliver => exact h.execGxeRowDeliver
  | cxeChunkArrive => exact h.execCxeChunkArrive
  | engineComplete => exact h.execEngineComplete
  | collectiveStart => exact h.execCollectiveStart
  | collectiveTimeout => exact h.execCollectiveTimeout
  | collectiveRedo => exact h.execCollectiveRedo
  | pageWalk => exact h.execPageWalk
  | sqTail => exact h.writeTail
  | sqEntryLaunch => exact h.execSqEntryLaunch
  | sqEntryCancel => exact h.execSqEntryCancel
  | fieldPlace => exact h.execFieldPlace
  | schemeEvaluate => exact h.evaluate
  | preemptRequest => exact h.execPreemptRequest
  | preemptCollectComplete => exact h.execPreemptCollectComplete
  | schemeTimeout => exact h.execSchemeTimeout
  | scrubComplete => exact h.execScrubComplete
  | ctxCreate => exact h.execCtxCreate
  | ctxDestroy => exact h.execCtxDestroy
  | groupSet => exact h.execGroupSet
  | queueReset => exact h.execQueueReset
  | quadAssign => exact h.execQuadAssign
  | countersRead => exact h.execCountersRead
  | fwOffer => exact h.execFwOffer
  | attest => exact h.execAttest
  | dbgWrite => exact h.execDbgWrite
  | linkStatus => exact h.execLinkStatus
  | vfBind => exact h.execVfBind
  | sqClaim => exact h.claimQueue
  | tasidSWrite => exact h.execTasidSWrite
  | registerWrite => exact h.execRegisterWrite
  | ldDetach => exact h.execLdDetach
  | ldReattach => exact BytesOk.ite h h.onLd
  | orphanTimeout => exact h.execOrphanTimeout
  | mailboxTailObserve => exact h.execMailboxTailObserve
  | rd => exact h.execRd
  | wr => exact h.execWr
  | tok => exact h.execTok
  | preq => exact h.execPreq
  | pact => exact h.execPact
  | pdeact => exact h.execPdeact
  | lost => exact h.execLost
  | recover => exact h.execRecover
  | reissue => exact h.execReissue
  | transientTimeout => exact h.execTransientTimeout
  | persistentTimeout => exact h.execPersistentTimeout
  | orderedTimeout => exact BytesOk.ite h.startRecovery h
  | recoveryWindowEnd => exact h.execRecoveryWindowEnd
  | messageDrop => exact h.execMessageDrop
  | holderEvict => exact h.execHolderEvict
  | tokenStateError => exact BytesOk.ite h h.loseTokens
  | snpdata | snpinv => exact h.snoop
  | snpcur => exact h
  | backInvalidateResponse => exact h.execBackInvalidateResponse
  | cohModeWrite | powerLimit | thermalThrottle => exact BytesOk.ite h (h.of_eq rfl rfl)
  | cohModeDrainEnd => exact h.execCohModeDrainEnd
  | linkFailure => exact h.execLinkFailure
  | thermalHalt => exact h.execThermalHalt
  | powerOnReset => exact h.resetKept
  | cxlMemRequest | podAgentRequest => exact BytesOk.ite h h.addOuter
  | cxlCacheResponse => exact h.execCxlCacheResponse
  | peerLineReread => exact h.execPeerLineReread
  | recoverRecordExpiry => exact BytesOk.ite h.onHolder h
  | fmApiRequest => exact h.execFmApiRequest
  | modulePowerRemoval => exact h.resetKept.of_eq rfl rfl

/-! ### What is due -/

theorem BytesOk.deferredDue {d : Instr × State} (h : BytesOk s) (e : s.deferredDue = some d) : BytesOk d.2 := by
  obtain ⟨_, _, rfl⟩ := Option.map_eq_some_iff.1 e
  exact h.of_eq rfl rfl

theorem BytesOk.dueNow {d : Instr × State} (h : BytesOk s) (e : s.dueNow = some d) : BytesOk d.2 := by
  unfold State.dueNow at e
  split at e
  · obtain rfl := Option.some.inj e
    exact h
  · obtain rfl := Option.some.inj e
    exact h
  · obtain e | ⟨_, e⟩ := Option.or_eq_some_iff.1 e
    · exact h.deferredDue e
    · obtain ⟨_, _, rfl⟩ := Option.map_eq_some_iff.1 e
      exact h

/-! ### A step -/

/-- A group that issues goes on with its instruction, otherwise the event that is due or comes in is met. -/
theorem BytesOk.step (h : BytesOk s) : NextOk (step s) := by
  unfold Machine.step
  refine .ite trivial (.ite trivial ?_)
  split
  · refine .ite h.rechoose ?_
    split
    next e => exact (h.prepare.of_fst e).exec
    next e => exact h.prepare.of_fst e
  · split
    next e =>
      split at e
      · cases e
      · exact (h.dueNow e).exec
    · exact BytesOk.exec (h.of_eq rfl rfl)
    · exact h.exec

end Kept

/-- Settles O60: every operation of a step, down to the writes of bytes, keeps the form (`BytesOk.step`). -/
theorem memoryStaysCanonical : Obligations.MemoryStaysCanonical := by
  unfold Obligations.MemoryStaysCanonical
  intro s t h e
  have kept := h.step
  rw [show step s = .next t from e] at kept
  exact kept

end Sys2Proof.Machine
end

section
/-! O31: an acquire of `.pod` scope that rolls back a furrow which runs ahead of its speculative fence. -/
namespace Sys2Proof.Machine

/-- A sector homed in package 1. -/
def peerSector : Nat := 2 ^ 50 + 2 ^ 42 + 0x1000

/-- The furrow whose lane acquires. -/
def acquiringFurrow : Furrow := { core := 1, slot := 0, field := 0, ix := 0, groups := [{ lanes := 1, pc := 0, level := 0 }] }

/-- Its neighbour in the quarter runs ahead of a speculative fence at PC 0: it has read the peer's sector, and has written 5 to `v4`, which held 0. -/
def aheadFurrow : Furrow :=
  { core := 1, slot := 1, field := 0, ix := 1, groups := [{ lanes := 1, pc := 16, level := 0 }], v := (Vector.replicate 128 0).set 4 5,
    spec := some { v := Vector.replicate 128 0, unnamed := [], kept := [4], clause := none, fpenv := 0, fencePc := 0, nextPc := 8, scope := .pkg,
                   lanes := 1, readSet := [peerSector], heldTrap := none } }

/-- The arithmetic reuse entry of that write: a result of 5 from zero sources. -/
def aheadEntry : ReuseEntry :=
  { set := 0, ctx := 0, level := 0, key := [], names := [0], results := [5], flags := 0, load := false, region := 0, sectors := [] }

/-- Both furrows in quarter 0 of core 1, whose die and L1 hold the peer's sector; the entry stands in the quarter's table. -/
def peerReadAhead : State :=
  { State.reset with
    furrows := [acquiringFurrow, aheadFurrow], pod := [1], cores := [{ ix := 1, reuse := (Vector.replicate 4 []).set 0 [aheadEntry], l1 := [peerSector] }],
    dies := State.reset.dies.set 0 { State.reset.dies[0] with peerLines := [(peerSector, 0, List.replicate 64 0)] } }

/-- The entry names live values only (R78): 0, and the 5 in the neighbour's `v4`. -/
theorem aheadEntry_live : aheadEntry ∈ (peerReadAhead.core 1).reuse[(0 : Fin 4)] ∧ liveEntry (fun c => peerReadAhead.liveNamed 1 0 c) aheadEntry = true := by
  decide +kernel

/-- The acquire takes the peer's line from the L1 (R153), so the neighbour rolls back (R146, R147): no register holds 5 any more, and the entry leaves
the table (R78). -/
theorem acquire_rolls_back :
    let t := peerReadAhead.acquire acquiringFurrow true .pod
    (t.furrow? 1 1).map (fun f => (f.spec.isSome, f.readV 4)) = some (false, 0)
      ∧ (t.core acquiringFurrow.core).reuse[Fin.ofNat 4 (quarterOf acquiringFurrow.slot)] = [] := by
  decide +kernel

/-- Refutes O31: its second clause says of every state that an acquire of `.core` scope or wider keeps the reuse entries of its quarter that are no
loads'. One of `.pod` scope discards the peers' lines; where another furrow of the quarter has read one ahead of its speculative fence, that furrow
rolls back, and an arithmetic entry that names a value only it held leaves the table with that value (R78, R83). -/
theorem not_fences : ¬ Obligations.Fences := by
  unfold Obligations.Fences
  rintro ⟨-, acquires, -⟩
  obtain ⟨-, -, keeps, -⟩ := acquires peerReadAhead acquiringFurrow true .pod
  obtain ⟨-, arithmetic⟩ := keeps (by decide)
  have stays := arithmetic aheadEntry aheadEntry_live.1 rfl
  rw [acquire_rolls_back.2] at stays
  exact absurd stays List.not_mem_nil

end Sys2Proof.Machine
end

section
/-! O57, the words: what the decoder reads of a word that the encoder writes, one predicate for each format of R162. -/
namespace Sys2Proof

/-! ### Fields as the decoder reads them -/

theorem fld_eq (w lo n : Nat) : fld w lo n = w / 2 ^ lo % 2 ^ n := by rw [fld, Nat.shiftRight_eq_div_pow]

/-- A register field is its number. -/
theorem fin_of_fld {w lo n k : Nat} [NeZero k] {x : Fin k} (h : fld w lo n = x.val) (hk : 2 ^ n = k := by decide) : Fin.ofNat k (w >>> lo) = x := by
  subst hk; exact Fin.ext h

/-- An immediate field is its bits. -/
theorem bits_of_fld {w lo n : Nat} {x : BitVec n} (h : fld w lo n = x.toNat) : BitVec.ofNat n (w >>> lo) = x :=
  BitVec.eq_of_toNat_eq ((BitVec.toNat_ofNat _ _).trans h)

/-- A bit by division. -/
theorem testBit_of_div {w k : Nat} {b : Bool} (h : w / 2 ^ k % 2 = b.toNat) : w.testBit k = b := by
  rw [Nat.testBit_eq_decide_div_mod_eq, h]
  cases b <;> rfl

/-- A one-bit field is its bit. -/
theorem testBit_of_fld {w k : Nat} {b : Bool} (h : fld w k 1 = b.toNat) : w.testBit k = b := testBit_of_div ((fld_eq w k 1).symm.trans h)

theorem gOf_of_fld {w : Nat} {x : Fin 8} (h : fld w 0 3 = x.val) : gOf w = x := Fin.ext h

/-- Part of a field. -/
theorem fld_of_fld {w lo n x : Nat} (h : fld w lo n = x) (a k : Nat) (hk : a + k ≤ n := by decide) : fld w (lo + a) k = fld x a k := by
  rw [← h, fld_eq, fld_eq, fld_eq, pow_add, ← Nat.div_div_eq_div_mul, ← Nat.mod_mul_right_div_self (w / 2 ^ lo),
    ← Nat.mod_mul_right_div_self (w / 2 ^ lo % 2 ^ n), ← pow_add, Nat.mod_mod_of_dvd _ (pow_dvd_pow 2 hk)]

/-- The low bits of a field hold a value that fits them. -/
theorem fld_low {w lo n x : Nat} (h : fld w lo n = x) (k : Nat) (hx : x < 2 ^ k) (hk : 0 + k ≤ n := by decide) : fld w lo k = x :=
  (fld_of_fld h 0 k hk).trans (by rw [fld_eq, pow_zero, Nat.div_one, Nat.mod_eq_of_lt hx])

/-- The bits of a field above a value that fits the low ones are zero. -/
theorem fld_high {w lo n x : Nat} (h : fld w lo n = x) (k j : Nat) (hx : x < 2 ^ k) (hk : k + j ≤ n := by decide) : fld w (lo + k) j = 0 :=
  (fld_of_fld h k j hk).trans (by rw [fld_eq, Nat.div_eq_of_lt hx, Nat.zero_mod])

/-- Two adjacent fields that are zero are one field that is zero. -/
theorem fld_zero {w lo n k : Nat} (hl : fld w lo n = 0) (hh : fld w (lo + n) k = 0) : fld w lo (n + k) = 0 := by
  rw [fld_eq] at hl hh ⊢
  rw [pow_add, ← Nat.div_div_eq_div_mul] at hh
  rw [pow_add, Nat.mod_mul, hl, hh, Nat.mul_zero]

/-- A field that lies wholly below the major is one of the low 25 bits. -/
theorem fld_word {c : Bool} {m r lo n : Nat} (h : lo + n ≤ 25) : fld (word c m r) lo n = fld r lo n := by
  have e : word c m r = r + 2 ^ (lo + n) * (2 ^ (25 - (lo + n)) * (c.toNat * 2 ^ 6 + m)) := by
    rw [← mul_assoc, ← pow_add, Nat.add_sub_cancel' h, word]; ring
  rw [e, fld_eq, fld_eq, ← Nat.mod_mul_right_div_self, ← pow_add, Nat.add_mul_mod_self_left, pow_add, Nat.mod_mul_right_div_self]

theorem majorOf_word {c : Bool} {m r : Nat} (hm : m < 64) (hr : r < 2 ^ 25) : majorOf (word c m r) = m := by
  rw [majorOf, fld_eq, word]; omega

theorem chainBit_word {c : Bool} {m r : Nat} (hm : m < 64) (hr : r < 2 ^ 25) : chainBit (word c m r) = c :=
  testBit_of_fld (by rw [fld_eq, word]; have := c.toNat_lt; omega)

/-! ### One-word formats (R162) -/

/-- Word w has format SU with these fields; `b` is BI with B. -/
structure IsSU (w m : Nat) (c : Bool) (wd wa op b : Nat) : Prop where
  major : majorOf w = m
  chain : chainBit w = c
  wd : fld w 19 6 = wd
  wa : fld w 13 6 = wa
  op : fld w 9 4 = op
  b : fld w 0 9 = b

theorem isSU_word {m op wd wa b : Nat} {c : Bool} (hm : m < 64) (hd : wd < 64) (ha : wa < 64) (ho : op < 16) (hb : b < 512) :
    IsSU (word c m (wd * 2 ^ 19 + wa * 2 ^ 13 + op * 2 ^ 9 + b)) m c wd wa op b := by
  have hr : wd * 2 ^ 19 + wa * 2 ^ 13 + op * 2 ^ 9 + b < 2 ^ 25 := by omega
  refine ⟨majorOf_word hm hr, chainBit_word hm hr, ?_, ?_, ?_, ?_⟩ <;> rw [fld_word (by decide), fld_eq] <;> omega

/-- Word w has format SB with these fields. -/
structure IsSB (w m : Nat) (c : Bool) (pkt g : Nat) : Prop where
  major : majorOf w = m
  chain : chainBit w = c
  pkt : fld w 4 21 = pkt
  zero : fld w 3 1 = 0
  g : fld w 0 3 = g

theorem isSB_word {m pkt g : Nat} {c : Bool} (hm : m < 64) (hp : pkt < 2 ^ 21) (hg : g < 8) : IsSB (word c m (pkt * 2 ^ 4 + g)) m c pkt g := by
  have hr : pkt * 2 ^ 4 + g < 2 ^ 25 := by omega
  refine ⟨majorOf_word hm hr, chainBit_word hm hr, ?_, ?_, ?_⟩ <;> rw [fld_word (by decide), fld_eq] <;> omega

/-- Word w has format SC with these fields. -/
structure IsSC (w m : Nat) (c : Bool) (wa imm op g : Nat) : Prop where
  major : majorOf w = m
  chain : chainBit w = c
  wa : fld w 19 6 = wa
  imm : fld w 11 8 = imm
  op : fld w 3 8 = op
  g : fld w 0 3 = g

theorem isSC_word {m wa imm op g : Nat} {c : Bool} (hm : m < 64) (ha : wa < 64) (hi : imm < 256) (ho : op < 256) (hg : g < 8) :
    IsSC (word c m (wa * 2 ^ 19 + imm * 2 ^ 11 + op * 2 ^ 3 + g)) m c wa imm op g := by
  have hr : wa * 2 ^ 19 + imm * 2 ^ 11 + op * 2 ^ 3 + g < 2 ^ 25 := by omega
  refine ⟨majorOf_word hm hr, chainBit_word hm hr, ?_, ?_, ?_, ?_⟩ <;> rw [fld_word (by decide), fld_eq] <;> omega

/-- Word w has format SP with these fields. -/
structure IsSP (w m : Nat) (c : Bool) (pd pa pb imm op g : Nat) : Prop where
  major : majorOf w = m
  chain : chainBit w = c
  pd : fld w 22 3 = pd
  pa : fld w 19 3 = pa
  pb : fld w 16 3 = pb
  imm : fld w 8 8 = imm
  op : fld w 3 5 = op
  g : fld w 0 3 = g

theorem isSP_word {m pd pa pb imm op g : Nat} {c : Bool} (hm : m < 64) (hd : pd < 8) (ha : pa < 8) (hb : pb < 8) (hi : imm < 256) (ho : op < 32)
    (hg : g < 8) : IsSP (word c m (pd * 2 ^ 22 + pa * 2 ^ 19 + pb * 2 ^ 16 + imm * 2 ^ 8 + op * 2 ^ 3 + g)) m c pd pa pb imm op g := by
  have hr : pd * 2 ^ 22 + pa * 2 ^ 19 + pb * 2 ^ 16 + imm * 2 ^ 8 + op * 2 ^ 3 + g < 2 ^ 25 := by omega
  refine ⟨majorOf_word hm hr, chainBit_word hm hr, ?_, ?_, ?_, ?_, ?_, ?_⟩ <;> rw [fld_word (by decide), fld_eq] <;> omega

/-- Word w has format SR with these fields, its bits 2 to 0 zero. -/
structure IsSR (w m : Nat) (c : Bool) (r srn op : Nat) : Prop where
  major : majorOf w = m
  chain : chainBit w = c
  r : fld w 19 6 = r
  srn : fld w 7 12 = srn
  op : fld w 3 4 = op
  zero : fld w 0 3 = 0

theorem isSR_word {m r srn op : Nat} {c : Bool} (hm : m < 64) (hw : r < 64) (hs : srn < 2 ^ 12) (ho : op < 16) :
    IsSR (word c m (r * 2 ^ 19 + srn * 2 ^ 7 + op * 2 ^ 3)) m c r srn op := by
  have hr : r * 2 ^ 19 + srn * 2 ^ 7 + op * 2 ^ 3 < 2 ^ 25 := by omega
  refine ⟨majorOf_word hm hr, chainBit_word hm hr, ?_, ?_, ?_, ?_⟩ <;> rw [fld_word (by decide), fld_eq] <;> omega

/-- Word w has format SE with these fields. -/
structure IsSE (w m : Nat) (c : Bool) (q h wa imm op : Nat) : Prop where
  major : majorOf w = m
  chain : chainBit w = c
  q : fld w 21 4 = q
  h : fld w 17 4 = h
  wa : fld w 11 6 = wa
  imm : fld w 3 8 = imm
  op : fld w 0 3 = op

theorem isSE_word {m q h wa imm op : Nat} {c : Bool} (hm : m < 64) (hq : q < 16) (hh : h < 16) (ha : wa < 64) (hi : imm < 256) (ho : op < 8) :
    IsSE (word c m (q * 2 ^ 21 + h * 2 ^ 17 + wa * 2 ^ 11 + imm * 2 ^ 3 + op)) m c q h wa imm op := by
  have hr : q * 2 ^ 21 + h * 2 ^ 17 + wa * 2 ^ 11 + imm * 2 ^ 3 + op < 2 ^ 25 := by omega
  refine ⟨majorOf_word hm hr, chainBit_word hm hr, ?_, ?_, ?_, ?_, ?_⟩ <;> rw [fld_word (by decide), fld_eq] <;> omega

/-! ### Two-word formats (R162) -/

/-- Word u has format LA with these fields; `bbx` is B with BX. -/
structure IsLA (u m d a bbx g : Nat) : Prop where
  major : majorOf u = m
  chain : chainBit u = true
  d : fld u 18 7 = d
  a : fld u 11 7 = a
  bbx : fld u 3 8 = bbx
  g : fld u 0 3 = g

theorem isLA_word {m d a bbx g : Nat} (hm : m < 64) (hd : d < 128) (ha : a < 128) (hb : bbx < 256) (hg : g < 8) :
    IsLA (word true m (d * 2 ^ 18 + a * 2 ^ 11 + bbx * 2 ^ 3 + g)) m d a bbx g := by
  have hr : d * 2 ^ 18 + a * 2 ^ 11 + bbx * 2 ^ 3 + g < 2 ^ 25 := by omega
  refine ⟨majorOf_word hm hr, chainBit_word hm hr, ?_, ?_, ?_, ?_⟩ <;> rw [fld_word (by decide), fld_eq] <;> omega

/-- Word v has format LX with these fields. -/
structure IsLX (v : Nat) (c : Bool) (c3 op mod bk : Nat) : Prop where
  major : majorOf v = 0x3F
  chain : chainBit v = c
  c3 : fld v 18 7 = c3
  op : lxOp v = op
  mod : lxMod v = mod
  bk : lxBk v = bk

theorem isLX_word {c : Bool} {c3 op mod bk : Nat} (hc : c3 < 128) (ho : op < 256) (hm : mod < 256) (hb : bk < 4) :
    IsLX (word c 0x3F (c3 * 2 ^ 18 + op * 2 ^ 10 + mod * 2 ^ 2 + bk)) c c3 op mod bk := by
  have hr : c3 * 2 ^ 18 + op * 2 ^ 10 + mod * 2 ^ 2 + bk < 2 ^ 25 := by omega
  refine ⟨majorOf_word (by decide) hr, chainBit_word (by decide) hr, ?_, ?_, ?_, ?_⟩ <;>
    refine (fld_word (by decide)).trans ?_ <;> rw [fld_eq] <;> omega

end Sys2Proof
end

section
/-! O57: every row decodes from the fields of its format, and so from the words that encode it. -/
namespace Sys2Proof

theorem need_ok {ok : Bool} {i : Instr} (h : ok = true) : need ok i = .ok i := if_pos h

/-! ### One-word rows -/

/-- The second operand of format SU, with BI = 0 (R183). -/
theorem suOperand_reg {w : Nat} {n : Fin 64} (h : fld w 0 9 = (UOp.reg n).bits) :
    w.testBit 8 = false ∧ fld w 6 2 = 0 ∧ Fin.ofNat 64 w = n :=
  ⟨testBit_of_fld (fld_high h 8 1 (n.isLt.trans (by decide))), fld_high h 6 2 n.isLt, fin_of_fld (lo := 0) (fld_low h 6 n.isLt)⟩

/-- The second operand of format SU, with BI = 1 (R183). -/
theorem suOperand_imm {w : Nat} {b : BitVec 8} (h : fld w 0 9 = (UOp.imm b).bits) : w.testBit 8 = true ∧ BitVec.ofNat 8 w = b := by
  have hb : b.toNat < 256 := b.isLt
  refine ⟨testBit_of_fld ((fld_of_fld h 8 1).trans ?_), bits_of_fld (lo := 0) ((fld_of_fld h 0 8).trans ?_)⟩
  · rw [fld_eq, UOp.bits, Bool.toNat_true]; omega
  · rw [fld_eq, UOp.bits]; omega

theorem decodeSU_eq {w m op : Nat} {f : SU} {mk : SU → Instr} (h : IsSU w m f.c f.wd.val f.wa.val op f.b.bits) : decodeSU mk w = .ok (mk f) := by
  obtain ⟨c, wd, wa, b⟩ := f
  obtain ⟨-, hc, hd, ha, -, hb⟩ := h
  cases b with
  | reg n =>
    obtain ⟨zero, high, reg⟩ := suOperand_reg hb
    rw [decodeSU, need_ok (by rw [suOk, zero, high]; rfl), parseSU, hc, fin_of_fld hd, fin_of_fld ha, zero, reg]
    rfl
  | imm x =>
    obtain ⟨one, imm⟩ := suOperand_imm hb
    rw [decodeSU, need_ok (by rw [suOk, one]; rfl), parseSU, hc, fin_of_fld hd, fin_of_fld ha, one, imm]
    rfl

theorem decodeSUUn_eq {w m op : Nat} {f : SUUn} {mk : SUUn → Instr} (h : IsSU w m f.c f.wd.val f.wa.val op 0) : decodeSUUn mk w = .ok (mk f) := by
  rw [decodeSUUn, need_ok (by rw [h.b]; rfl), h.chain, fin_of_fld h.wd, fin_of_fld h.wa]

theorem decodeSB_eq {w m : Nat} {f : SB} {mk : SB → Instr} (h : IsSB w m f.c f.pkt.toNat f.g.val) : decodeSB mk w = .ok (mk f) := by
  rw [decodeSB, need_ok (by rw [h.zero]; rfl), h.chain, bits_of_fld h.pkt, gOf_of_fld h.g]

theorem decodeSCw_eq {w m op : Nat} {f : SCw} {mk : SCw → Instr} (h : IsSC w m f.c f.wa.val 0 op f.g.val) : decodeSCw mk w = .ok (mk f) := by
  rw [decodeSCw, need_ok (by rw [h.imm]; rfl), h.chain, fin_of_fld h.wa, gOf_of_fld h.g]

theorem decodeSCg_eq {w m op : Nat} {f : SCg} {mk : SCg → Instr} (h : IsSC w m f.c 0 0 op f.g.val) : decodeSCg mk w = .ok (mk f) := by
  rw [decodeSCg, need_ok (by rw [fld_zero h.imm h.wa]; rfl), h.chain, gOf_of_fld h.g]

theorem decodeSCb_eq {w m op : Nat} {f : SCb} {mk : SCb → Instr} (h : IsSC w m f.c f.wa.val f.off.toNat op f.g.val) : decodeSCb mk w = .ok (mk f) := by
  rw [decodeSCb, h.chain, fin_of_fld h.wa, bits_of_fld h.imm, gOf_of_fld h.g]

theorem decodeSCm_eq {w m op : Nat} {f : SCm} {mk : SCm → Instr} (h : IsSC w m f.c f.wa.val 0 op 7) : decodeSCm mk w = .ok (mk f) := by
  rw [decodeSCm, need_ok (by rw [h.imm, h.g]; rfl), h.chain, fin_of_fld h.wa]

theorem decodeSP_eq {w m op : Nat} {f : SP3} {mk : SP3 → Instr} (h : IsSP w m f.c f.pd.val f.pa.val f.pb.val 0 op f.g.val) :
    decodeSP mk w = .ok (mk f) := by
  rw [decodeSP, need_ok (by rw [h.imm]; rfl), h.chain, fin_of_fld h.pd, fin_of_fld h.pa, fin_of_fld h.pb, gOf_of_fld h.g]

theorem decodeSEh_eq {w m imm op : Nat} {f : SEh} {mk : SEh → Instr} (h : IsSE w m f.c 0 f.h.val f.wa.val imm op) :
    decodeSEh mk imm w = .ok (mk f) := by
  rw [decodeSEh, need_ok (by rw [h.q, h.imm, beq_self_eq_true, beq_self_eq_true, Bool.and_self]), h.chain, fin_of_fld h.h, fin_of_fld h.wa]

theorem decodeSEs_eq {w m op : Nat} {f : SEs} {mk : SEs → Instr} (h : IsSE w m f.c f.n.val 0 f.wa.val f.k.val op) : decodeSEs mk w = .ok (mk f) := by
  rw [decodeSEs, need_ok (by rw [fld_high h.q 3 1 f.n.isLt, h.h, fld_high h.imm 2 6 f.k.isLt]; rfl), h.chain, fin_of_fld (fld_low h.q 3 f.n.isLt),
    fin_of_fld h.wa, fin_of_fld (fld_low h.imm 2 f.k.isLt)]

/-! ### Fields with names (R166, R222, R255, R259) -/

theorem Ty.code_lt (t : Ty) : t.code < 16 := by cases t <;> decide
theorem Rm.code_lt (r : Rm) : r.code < 8 := by cases r <;> decide
theorem Scope.code_lt (c : Scope) : c.code < 8 := by cases c <;> decide
theorem WaitCc.code_lt (c : WaitCc) : c.code < 4 := by cases c <;> decide
theorem Cls.code_lt (c : Cls) : c.code < 16 := by cases c <;> decide

theorem Ty.ofCode_eq {t : Ty} {n : Nat} (h : n % 16 = t.code) : Ty.ofCode n = t := by rw [Ty.ofCode, h]; cases t <;> rfl
theorem Rm.ofCode_eq {r : Rm} {n : Nat} (h : n % 8 = r.code) : Rm.ofCode n = some r := by rw [Rm.ofCode, h]; cases r <;> rfl
theorem Scope.ofCode_eq {c : Scope} {n : Nat} (h : n % 8 = c.code) : Scope.ofCode n = c := by rw [Scope.ofCode, h]; cases c <;> rfl
theorem WaitCc.ofCode_eq {c : WaitCc} {n : Nat} (h : n % 4 = c.code) : WaitCc.ofCode n = c := by rw [WaitCc.ofCode, h]; cases c <;> rfl
theorem Cls.ofCode_eq {c : Cls} {n : Nat} (h : n % 16 = c.code) : Cls.ofCode n = some c := by rw [Cls.ofCode, h]; cases c <;> rfl

/-- MOD of majors 0x10 to 0x15 read back (R165). -/
theorem modV_read (t : Ty) (r : Rm) (sat : Bool) :
    modV t r sat < 256 ∧ Ty.ofCode (modV t r sat / 16) = t ∧ Rm.ofCode (modV t r sat / 2) = some r ∧ (modV t r sat).testBit 0 = sat := by
  have ht := t.code_lt
  have hr := r.code_lt
  have hs := sat.toNat_lt
  refine ⟨?_, Ty.ofCode_eq ?_, Rm.ofCode_eq ?_, testBit_of_div ?_⟩ <;> rw [modV] <;> omega

/-- MOD of majors 0x16 to 0x1A read back (R165). -/
theorem modM_read (t : Ty) (c : Scope) (vol : Bool) :
    modM t c vol < 256 ∧ Ty.ofCode (modM t c vol / 16) = t ∧ Scope.ofCode (modM t c vol / 2) = c ∧ (modM t c vol).testBit 0 = vol := by
  have ht := t.code_lt
  have hc := c.code_lt
  have hv := vol.toNat_lt
  refine ⟨?_, Ty.ofCode_eq ?_, Scope.ofCode_eq ?_, testBit_of_div ?_⟩ <;> rw [modM] <;> omega

/-! ### Two-word rows -/

theorem BOp.field_lt (b : BOp) : b.field < 256 := by
  cases b with
  | v n => have := n.isLt; simp only [BOp.field]; omega
  | w n => have := n.isLt; simp only [BOp.field]; omega
  | imm x => exact x.isLt

theorem BOp.bk_lt (b : BOp) : b.bk < 4 := by cases b <;> simp [BOp.bk, BOp.kind]

section
variable {u v m d a g c3 op mod bk : Nat} {c : Bool}

/-- The second operand from BK, B and BX (R162, R210). -/
theorem laB_eq {b : BOp} (hu : IsLA u m d a b.field g) (hv : IsLX v c c3 op mod b.bk) : laB u v = some b := by
  have hb := hu.bbx
  rw [laB, hv.bk]
  cases b with
  | v n =>
    have hn : n.val < 128 := n.isLt
    have bx : fld u 3 1 = 0 := (fld_of_fld hb 0 1).trans (by rw [fld_eq, BOp.field]; omega)
    have reg : fld u 4 7 = n.val := (fld_of_fld hb 1 7).trans (by rw [fld_eq, BOp.field]; omega)
    simp only [BOp.bk, BOp.kind, bx, fin_of_fld reg, beq_self_eq_true, if_true]
  | w n =>
    have hn : n.val < 64 := n.isLt
    have bx : fld u 3 1 = 0 := (fld_of_fld hb 0 1).trans (by rw [fld_eq, BOp.field]; omega)
    have high : fld u 10 1 = 0 := (fld_of_fld hb 7 1).trans (by rw [fld_eq, BOp.field]; omega)
    have reg : fld u 4 6 = n.val := (fld_of_fld hb 1 6).trans (by rw [fld_eq, BOp.field]; omega)
    simp only [BOp.bk, BOp.kind, bx, high, fin_of_fld reg, beq_self_eq_true, Bool.and_self, if_true]
  | imm x =>
    simp only [BOp.bk, BOp.kind, laImm, bits_of_fld hb]

theorem laD_eq {x : Fin 128} {bbx : Nat} (hu : IsLA u m x.val a bbx g) : laD u = x := fin_of_fld hu.d
theorem laA_eq {x : Fin 128} {bbx : Nat} (hu : IsLA u m d x.val bbx g) : laA u = x := fin_of_fld hu.a
theorem lxC3_eq {x : Fin 128} (hv : IsLX v c x.val op mod bk) : lxC3 v = x := fin_of_fld hv.c3

theorem decodeLV_eq {f : LV} {mk : LV → Instr} (hu : IsLA u m f.d.val f.a.val f.b.field f.g.val)
    (hv : IsLX v f.c f.c3.val op (modV f.ty f.rm f.sat) f.b.bk) : decodeLV mk u v = .ok (mk f) := by
  obtain ⟨-, ty, rm, sat⟩ := modV_read f.ty f.rm f.sat
  rw [decodeLV, laB_eq hu hv, hv.mod, rm, ty, sat, hv.chain, laD_eq hu, laA_eq hu, lxC3_eq hv, gOf_of_fld hu.g]

/-- OP of majors 0x16 to 0x18 read back (R236). -/
theorem opM_read (am x2 : Bool) (scl : Fin 4) {kind : Nat} (hk : kind < 8) :
    let op := am.toNat * 64 + scl.val * 16 + x2.toNat * 8 + kind
    op < 128 ∧ op % 8 = kind ∧ op.testBit 6 = am ∧ Fin.ofNat 4 (op >>> 4) = scl ∧ op.testBit 3 = x2 := by
  have ha := am.toNat_lt
  have hx := x2.toNat_lt
  have hs : scl.val < 4 := scl.isLt
  refine ⟨?_, ?_, testBit_of_div ?_, fin_of_fld (n := 2) ((fld_eq _ _ _).trans ?_), testBit_of_div ?_⟩ <;> omega

/-- OP of majors 0x19 and 0x1A read back: AM, a field of two bits, the operation (R249, R255). -/
theorem opA_read (am : Bool) {x kind : Nat} (hx : x < 4) (hk : kind < 16) :
    let op := am.toNat * 64 + x * 16 + kind
    op < 128 ∧ op % 16 = kind ∧ op.testBit 6 = am ∧ op / 2 ^ 4 % 4 = x := by
  have ha := am.toNat_lt
  refine ⟨?_, ?_, testBit_of_div ?_, ?_⟩ <;> omega

theorem decodeLM_eq {f : LM} {mk : LM → Instr} {kind : Nat} (hk : kind < 8) (hu : IsLA u m f.d.val f.a.val f.b.field f.g.val)
    (hv : IsLX v f.c f.c3.val (f.am.toNat * 64 + f.scl.val * 16 + f.x2.toNat * 8 + kind) (modM f.ty f.scope f.vol) f.b.bk) :
    decodeLM mk u v = .ok (mk f) := by
  obtain ⟨-, ty, scope, vol⟩ := modM_read f.ty f.scope f.vol
  obtain ⟨lt, -, am, scl, x2⟩ := opM_read f.am f.x2 f.scl hk
  simp only [decodeLM, laB_eq hu hv, hv.op, hv.mod, need_ok (decide_eq_true lt), am, scl, x2, ty, scope, vol, hv.chain, laD_eq hu, laA_eq hu, lxC3_eq hv,
    gOf_of_fld hu.g]

theorem decodeLA_eq {f : LA} {mk : LA → Instr} {kind : Nat} (hk : kind < 16) (hu : IsLA u m f.d.val f.a.val f.b.field f.g.val)
    (hv : IsLX v f.c f.c3.val (f.am.toNat * 64 + f.ord.val * 16 + kind) (modM f.ty f.scope false) f.b.bk) : decodeLA mk u v = .ok (mk f) := by
  obtain ⟨-, ty, scope, vol⟩ := modM_read f.ty f.scope false
  obtain ⟨lt, -, am, ord⟩ := opA_read f.am f.ord.isLt hk
  have ord : Fin.ofNat 4 (lxOp v >>> 4) = f.ord := fin_of_fld (n := 2) (by rw [hv.op, fld_eq]; exact ord)
  rw [hv.op] at ord
  simp only [decodeLA, laB_eq hu hv, hv.op, hv.mod, vol, decide_eq_true lt, Bool.not_false, Bool.and_self, need_ok, am, ord, ty,
    scope, hv.chain, laD_eq hu, laA_eq hu, lxC3_eq hv, gOf_of_fld hu.g]

theorem decodeWaita_eq {f : LW} (hu : IsLA u m f.d.val f.a.val f.b.field f.g.val)
    (hv : IsLX v f.c f.c3.val (f.am.toNat * 64 + f.cc.code * 16 + 8) (modM f.ty f.scope false) f.b.bk) : decodeWaita u v = .ok (.waita f) := by
  obtain ⟨-, ty, scope, vol⟩ := modM_read f.ty f.scope false
  obtain ⟨lt, -, am, cc⟩ := opA_read f.am f.cc.code_lt (kind := 8) (by decide)
  rw [← Nat.shiftRight_eq_div_pow] at cc
  simp only [decodeWaita, laB_eq hu hv, hv.op, hv.mod, vol, decide_eq_true lt, Bool.not_false, Bool.and_self, need_ok, am,
    WaitCc.ofCode_eq cc, ty, scope, hv.chain, laD_eq hu, laA_eq hu, lxC3_eq hv, gOf_of_fld hu.g]

theorem decodePf_eq {f : LP} (hu : IsLA u m 0 f.a.val f.b.field f.g.val)
    (hv : IsLX v f.c 0 (f.am.toNat * 64 + f.hold.toNat * 16 + 12) 0 f.b.bk) : decodePf u v = .ok (.pf f) := by
  obtain ⟨lt, -, am, hold⟩ := opA_read f.am (f.hold.toNat_lt.trans (by decide)) (kind := 12) (by decide)
  have h4 : (f.am.toNat * 64 + f.hold.toNat * 16 + 12).testBit 4 = f.hold := testBit_of_div (by have := f.hold.toNat_lt; omega)
  have h5 : (f.am.toNat * 64 + f.hold.toNat * 16 + 12).testBit 5 = false :=
    testBit_of_div (by have := f.hold.toNat_lt; rw [Bool.toNat_false]; omega)
  simp only [decodePf, laB_eq hu hv, hv.op, decide_eq_true lt, h5, hu.d, hv.c3, hv.mod, beq_self_eq_true, Bool.not_false, Bool.and_self, need_ok, am, h4,
    hv.chain, laA_eq hu, gOf_of_fld hu.g]

theorem decodeLX0_eq {f : LX0} {mk : LX0 → Instr} (hu : IsLA u m 0 0 0 f.g.val) (hv : IsLX v f.c 0 op mod 0) : decodeLX0 mk mod u v = .ok (mk f) := by
  rw [decodeLX0, need_ok (by rw [fld_zero hu.bbx (fld_zero hu.a hu.d), hv.c3, hv.mod, hv.bk, beq_self_eq_true mod]; rfl), hv.chain, gOf_of_fld hu.g]

theorem decodeLF_eq {f : LF} {mk : LF → Instr} (ho : op < 16) (hu : IsLA u m 0 0 0 f.g.val) (hv : IsLX v f.c 0 op (f.scope.code * 2) 0) :
    decodeLF mk u v = .ok (mk f) := by
  have hs := f.scope.code_lt
  have scope : Scope.ofCode (f.scope.code * 2 / 2) = f.scope := Scope.ofCode_eq (by omega)
  have vol : (f.scope.code * 2).testBit 0 = false := testBit_of_div (by rw [Bool.toNat_false]; omega)
  rw [decodeLF, need_ok, hv.chain, gOf_of_fld hu.g, hv.mod, scope]
  rw [fld_zero hu.bbx (fld_zero hu.a hu.d), hv.c3, hv.op, hv.mod, hv.bk, vol, decide_eq_true ho, decide_eq_true (by omega : f.scope.code * 2 < 16)]
  rfl

theorem decodeXp_eq {f : LFx} (hu : IsLA u m 0 0 (f.wr.code * 16 + f.rd.code) f.g.val) (hv : IsLX v f.c 0 4 4 2) : decodeXp u v = .ok (.fenceXp f) := by
  have hr := f.rd.code_lt
  have hw := f.wr.code_lt
  have wr : fld u 7 4 % 16 = f.wr.code := by rw [fld_of_fld hu.bbx 4 4, fld_eq]; omega
  have rd : fld u 3 4 % 16 = f.rd.code := by rw [fld_of_fld hu.bbx 0 4, fld_eq]; omega
  rw [decodeXp, Cls.ofCode_eq wr, Cls.ofCode_eq rd]
  simp only [need_ok, fld_zero hu.a hu.d, hv.c3, hv.op, hv.mod, hv.bk, hv.chain, gOf_of_fld hu.g, beq_self_eq_true, Bool.and_self]

theorem decodeLC_eq {f : LC} {mk : LC → Instr} (hu : IsLA u m f.d.val f.a.val f.id.toNat f.g.val) (hv : IsLX v f.c 0 op 0 2) :
    decodeLC mk u v = .ok (mk f) := by
  rw [decodeLC, need_ok (by rw [hv.c3, hv.mod, hv.bk]; rfl), hv.chain, laD_eq hu, laA_eq hu, laImm, bits_of_fld hu.bbx, gOf_of_fld hu.g]

theorem decodeLT_eq {f : LT} {mk : LT → Instr} (hu : IsLA u m f.d.val f.a.val f.b.field f.g.val)
    (hv : IsLX v f.c 0 op (f.fr.val * 64 + f.sel.toNat) f.b.bk) : decodeLT mk u v = .ok (mk f) := by
  have hf : f.fr.val < 4 := f.fr.isLt
  have hs : f.sel.toNat < 64 := f.sel.isLt
  have fr : Fin.ofNat 4 (lxMod v >>> 6) = f.fr := fin_of_fld (n := 2) (by rw [hv.mod, fld_eq]; omega)
  have sel : BitVec.ofNat 6 (lxMod v) = f.sel := bits_of_fld (w := lxMod v) (lo := 0) (by rw [hv.mod, fld_eq]; omega)
  simp only [decodeLT, laB_eq hu hv, hv.c3, fr, sel, need_ok, beq_self_eq_true, hv.chain, laD_eq hu, laA_eq hu, gOf_of_fld hu.g]

/-- A `w` register in a field of seven bits. -/
theorem fin64_of_fld {w lo : Nat} {x : Fin 64} (h : fld w lo 7 = x.val) : Fin.ofNat 64 (w >>> lo) = x ∧ fld w (lo + 6) 1 = 0 :=
  ⟨fin_of_fld (fld_low h 6 x.isLt), fld_high h 6 1 x.isLt⟩

theorem decodeLR1_eq {f : LR1} {mk : LR1 → Instr} (hu : IsLA u m 0 f.a.val 0 f.g.val) (hv : IsLX v f.c 0 op 0 0) : decodeLR1 mk u v = .ok (mk f) := by
  obtain ⟨a, high⟩ := fin64_of_fld hu.a
  rw [decodeLR1, need_ok (by rw [fld_zero high hu.d, hu.bbx, hv.c3, hv.mod, hv.bk]; rfl), hv.chain, a, gOf_of_fld hu.g]

theorem decodeLRd_eq {f : LRd} {mk : LRd → Instr} (hu : IsLA u m f.d.val 0 0 f.g.val) (hv : IsLX v f.c 0 op 0 0) : decodeLRd mk u v = .ok (mk f) := by
  obtain ⟨d, high⟩ := fin64_of_fld hu.d
  rw [decodeLRd, need_ok (by rw [high, fld_zero hu.bbx hu.a, hv.c3, hv.mod, hv.bk]; rfl), hv.chain, d, gOf_of_fld hu.g]

theorem decodeLR2_eq {f : LR2} {mk : LR2 → Instr} (hu : IsLA u m 0 f.a.val (f.b.val * 2) f.g.val) (hv : IsLX v f.c 0 op 1 1) :
    decodeLR2 mk u v = .ok (mk f) := by
  have hb : f.b.val < 64 := f.b.isLt
  obtain ⟨a, high⟩ := fin64_of_fld hu.a
  obtain ⟨b, bHigh⟩ := fin64_of_fld (x := f.b) ((fld_of_fld hu.bbx 1 7).trans (by rw [fld_eq]; omega))
  have bx : fld u 3 1 = 0 := (fld_of_fld hu.bbx 0 1).trans (by rw [fld_eq]; omega)
  rw [decodeLR2, need_ok (by rw [fld_zero high hu.d, bHigh, bx, hv.c3, hv.mod, hv.bk]; rfl), hv.chain, a, b, gOf_of_fld hu.g]


end

end Sys2Proof
end

section
/-! O57: each row, from the words that encode it back to the instruction. -/
namespace Sys2Proof

/-! ### From the fields of the words to `decode` -/

theorem decode_of_short {w : Nat} {i : Instr} (ws : List Nat) (hm : isLongMajor (majorOf w) = false) (hd : decodeShort w = .ok i)
    (ha : i.accepts = true) : decode (w :: ws) = .ok (i, 1) := by
  simp only [decode, hm, hd, checkAccepts, ha, if_true, Bool.false_eq_true, if_false]; rfl

theorem decode_of_long {u v : Nat} {i : Instr} (ws : List Nat) (hm : isLongMajor (majorOf u) = true) (hc : chainBit u = true)
    (hx : majorOf v = 0x3F) (hd : decodeLong (majorOf u) u v = .ok i) (ha : i.accepts = true) : decode (u :: v :: ws) = .ok (i, 2) := by
  simp only [decode, hm, hc, hx, hd, checkAccepts, ha, if_true, beq_self_eq_true, Bool.and_self]; rfl

theorem isLongMajor_of_lt {m : Nat} (h : m < 0x10) : isLongMajor m = false := decide_eq_false (by omega)

section
variable {m op : Nat} {c : Bool} {i : Instr} {ws : List Nat} (ha : i.accepts = true)
include ha

theorem decode_encodeSU {f : SU} (hd : ∀ w, IsSU w m f.c f.wd.val f.wa.val op f.b.bits → decodeShort w = .ok i) (hm : m < 0x10 := by decide)
    (ho : op < 16 := by decide) : decode (encodeSU m op f ++ ws) = .ok (i, 1) := by
  have hb : f.b.bits < 512 := by
    cases f.b with
    | reg n => exact n.isLt.trans (by decide)
    | imm x => have := x.isLt; simp only [UOp.bits]; omega
  have h := isSU_word (c := f.c) (hm.trans (by decide)) f.wd.isLt f.wa.isLt ho hb
  exact decode_of_short ws (isLongMajor_of_lt (by rwa [h.major])) (hd _ h) ha

theorem decode_encodeSUUn {f : SUUn} (hd : ∀ w, IsSU w 3 f.c f.wd.val f.wa.val op 0 → decodeShort w = .ok i) (ho : op < 16 := by decide) :
    decode (encodeSUUn op f ++ ws) = .ok (i, 1) := by
  have h := isSU_word (c := f.c) (m := 3) (by decide) f.wd.isLt f.wa.isLt ho (b := 0) (by decide)
  rw [Nat.add_zero] at h
  exact decode_of_short ws (isLongMajor_of_lt (by rw [h.major]; decide)) (hd _ h) ha

theorem decode_encodeSB {f : SB} (hd : ∀ w, IsSB w m f.c f.pkt.toNat f.g.val → decodeShort w = .ok i) (hm : m < 0x10 := by decide) :
    decode (encodeSB m f ++ ws) = .ok (i, 1) := by
  have h := isSB_word (c := f.c) (hm.trans (by decide)) f.pkt.isLt f.g.isLt
  exact decode_of_short ws (isLongMajor_of_lt (by rwa [h.major])) (hd _ h) ha

theorem decode_encodeSC {wa imm g : Nat} (hd : ∀ w, IsSC w m c wa imm op g → decodeShort w = .ok i) (hm : m < 0x10 := by decide)
    (hwa : wa < 64 := by omega) (hi : imm < 256 := by omega) (ho : op < 256 := by decide) (hg : g < 8 := by omega) :
    decode (encodeSC m op c wa imm g ++ ws) = .ok (i, 1) := by
  have h := isSC_word (c := c) (hm.trans (by decide)) hwa hi ho hg
  exact decode_of_short ws (isLongMajor_of_lt (by rwa [h.major])) (hd _ h) ha

theorem decode_encodeSP {pd pa pb imm g : Nat} (hd : ∀ w, IsSP w 8 c pd pa pb imm op g → decodeShort w = .ok i) (hpd : pd < 8 := by omega)
    (hpa : pa < 8 := by omega) (hpb : pb < 8 := by omega) (hi : imm < 256 := by omega) (ho : op < 32 := by decide) (hg : g < 8 := by omega) :
    decode (encodeSP op c pd pa pb imm g ++ ws) = .ok (i, 1) := by
  have h := isSP_word (c := c) (m := 8) (by decide) hpd hpa hpb hi ho hg
  exact decode_of_short ws (isLongMajor_of_lt (by rw [h.major]; decide)) (hd _ h) ha

theorem decode_encodeSR {f : SR} (hd : ∀ w, IsSR w 9 f.c f.w.val f.srn.toNat op → decodeShort w = .ok i) (ho : op < 16 := by decide) :
    decode (encodeSR op f ++ ws) = .ok (i, 1) := by
  have h := isSR_word (c := f.c) (m := 9) (by decide) f.w.isLt f.srn.isLt ho
  exact decode_of_short ws (isLongMajor_of_lt (by rw [h.major]; decide)) (hd _ h) ha

theorem decode_encodeSE {q h wa imm : Nat} (hd : ∀ w, IsSE w m c q h wa imm op → decodeShort w = .ok i) (hm : m < 0x10 := by decide)
    (hq : q < 16 := by omega) (hh : h < 16 := by omega) (hwa : wa < 64 := by omega) (hi : imm < 256 := by omega) (ho : op < 8 := by decide) :
    decode (encodeSE m op c q h wa imm ++ ws) = .ok (i, 1) := by
  have h := isSE_word (c := c) (hm.trans (by decide)) hq hh hwa hi ho
  exact decode_of_short ws (isLongMajor_of_lt (by rwa [h.major])) (hd _ h) ha

theorem decode_encodeLong {d a bbx g c3 mod bk : Nat} (hd : ∀ u v, IsLA u m d a bbx g → IsLX v c c3 op mod bk → decodeLong m u v = .ok i)
    (hm : 0x10 ≤ m ∧ m ≤ 0x1C := by decide) (hD : d < 128 := by omega) (hA : a < 128 := by omega) (hb : bbx < 256 := by omega)
    (hg : g < 8 := by omega) (hc : c3 < 128 := by omega) (ho : op < 256 := by omega) (hmod : mod < 256 := by omega) (hbk : bk < 4 := by omega) :
    decode (encodeLong m d a bbx g c c3 op mod bk ++ ws) = .ok (i, 2) := by
  have hu := isLA_word (m := m) (by omega) hD hA hb hg
  have hv := isLX_word (c := c) hc ho hmod hbk
  exact decode_of_long ws (by rw [hu.major]; exact decide_eq_true hm) hu.chain hv.major (by rw [hu.major]; exact hd _ _ hu hv) ha

theorem decode_encodeLV {f : LV} (hd : ∀ u v, IsLA u m f.d.val f.a.val f.b.field f.g.val →
      IsLX v f.c f.c3.val op (modV f.ty f.rm f.sat) f.b.bk → decodeLong m u v = .ok i)
    (hm : 0x10 ≤ m ∧ m ≤ 0x1C := by decide) (ho : op < 256 := by decide) : decode (encodeLV m op f ++ ws) = .ok (i, 2) :=
  decode_encodeLong ha hd hm (hb := f.b.field_lt) (ho := ho) (hmod := (modV_read _ _ _).1) (hbk := f.b.bk_lt)

theorem decode_encodeLM {f : LM} {kind : Nat} (hk : kind < 8) (hd : ∀ u v, IsLA u m f.d.val f.a.val f.b.field f.g.val →
      IsLX v f.c f.c3.val (f.am.toNat * 64 + f.scl.val * 16 + f.x2.toNat * 8 + kind) (modM f.ty f.scope f.vol) f.b.bk → lxOp v % 8 = kind →
        decodeLong m u v = .ok i)
    (hm : 0x10 ≤ m ∧ m ≤ 0x1C := by decide) : decode (encodeLM m kind f ++ ws) = .ok (i, 2) := by
  obtain ⟨lt, low, -⟩ := opM_read f.am f.x2 f.scl hk
  exact decode_encodeLong ha (fun u v hu hv => hd u v hu hv (by rw [hv.op, low])) hm (hb := f.b.field_lt) (hmod := (modM_read _ _ _).1) (hbk := f.b.bk_lt)

theorem decode_encodeLA {f : LA} {kind : Nat} (hk : kind < 16) (hd : ∀ u v, IsLA u 0x19 f.d.val f.a.val f.b.field f.g.val →
      IsLX v f.c f.c3.val (f.am.toNat * 64 + f.ord.val * 16 + kind) (modM f.ty f.scope false) f.b.bk → lxOp v % 16 = kind →
        decodeLong 0x19 u v = .ok i) : decode (encodeLA kind f ++ ws) = .ok (i, 2) := by
  obtain ⟨lt, low, -⟩ := opA_read f.am f.ord.isLt hk
  exact decode_encodeLong ha (fun u v hu hv => hd u v hu hv (by rw [hv.op, low])) (hb := f.b.field_lt) (hmod := (modM_read _ _ _).1) (hbk := f.b.bk_lt)

end

/-! ### Words of one row alone: the clause header and `nop` -/

/-- The low 25 bits of a clause header (R162, format CH). -/
def ClauseH.bits (f : ClauseH) : Nat := f.nr.toNat * 2 ^ 24 + f.len.val * 2 ^ 21 + f.seta.val * 2 ^ 17 + f.setb.val * 2 ^ 13 + f.wait.toNat * 2

theorem ClauseH.bits_lt (f : ClauseH) : f.bits < 2 ^ 25 := by
  have := f.nr.toNat_lt
  have := f.wait.isLt
  simp only [ClauseH.bits]; omega

theorem ClauseH.fld_bits (f : ClauseH) : fld f.bits 0 1 = 0 ∧ fld f.bits 24 1 = f.nr.toNat ∧ fld f.bits 21 3 = f.len.val ∧ fld f.bits 17 4 = f.seta.val
    ∧ fld f.bits 13 4 = f.setb.val ∧ fld f.bits 1 12 = f.wait.toNat := by
  have hn := f.nr.toNat_lt
  have hl : f.len.val < 8 := f.len.isLt
  have ha : f.seta.val < 16 := f.seta.isLt
  have hb : f.setb.val < 16 := f.setb.isLt
  have hw := f.wait.isLt
  refine ⟨?_, ?_, ?_, ?_, ?_, ?_⟩ <;> rw [fld_eq, ClauseH.bits] <;> omega

theorem decode_encode_clause (f : ClauseH) (ws : List Nat) (ha : (Instr.clause f).accepts = true) :
    decode (encode (.clause f) ++ ws) = .ok (.clause f, 1) := by
  have major : majorOf (word false 1 f.bits) = 1 := majorOf_word (by decide) f.bits_lt
  have chain : chainBit (word false 1 f.bits) = false := chainBit_word (by decide) f.bits_lt
  have low {lo n : Nat} (h : lo + n ≤ 25) : fld (word false 1 f.bits) lo n = fld f.bits lo n := fld_word h
  obtain ⟨zero, nr, len, seta, setb, wait⟩ := f.fld_bits
  rw [← low (by decide)] at zero nr len seta setb wait
  refine decode_of_short ws (isLongMajor_of_lt (by rw [← ClauseH.bits, major]; decide)) ?_ ha
  rw [← ClauseH.bits]
  simp only [decodeShort, major, decodeCH, chain, zero, beq_self_eq_true, Bool.not_false, Bool.and_self, need_ok, testBit_of_fld nr, fin_of_fld len,
    fin_of_fld seta, fin_of_fld setb, bits_of_fld wait]

theorem decode_encode_nop (c : Bool) (ws : List Nat) : decode (encode (.nop c) ++ ws) = .ok (.nop c, 1) := by
  have major : majorOf (word c 0x0C 0) = 0x0C := majorOf_word (by decide) (by decide)
  have chain : chainBit (word c 0x0C 0) = c := chainBit_word (by decide) (by decide)
  have zero : fld (word c 0x0C 0) 0 25 = 0 := (fld_word (by decide)).trans (by decide)
  refine decode_of_short ws (isLongMajor_of_lt (by rw [major]; decide)) ?_ rfl
  simp only [decodeShort, major, chain, zero, beq_self_eq_true, need_ok]

/-- Decoding what was encoded, row by row (R156 to R166): the major and the minor find the row, and its format gives every operand back. -/
theorem decode_encode (i : Instr) (ws : List Nat) (ha : i.wf = true) : decode (encode i ++ ws) = .ok (i, i.words) := by
  cases i with
  -- Majors 0x02 to 0x05
  | uadd f | usub f | ursub f | umul f | umulhI64 f | umulhN64 f | udivI64 f | udivN64 f | uremI64 f | uremN64 f | uminI64 f | umaxI64 f | uminN64 f
  | umaxN64 f =>
    exact decode_encodeSU ha fun w h => by simp only [decodeShort, h.major, decode02, h.op, decodeSU_eq h]
  | uins8 f =>
    refine decode_encodeSU ha fun w h => ?_
    obtain ⟨one, imm⟩ := suOperand_imm h.b
    simp only [decodeShort, h.major, decode02, h.op, need_ok one, h.chain, fin_of_fld h.wd, fin_of_fld h.wa, imm]
  | uand f | uor f | uxor f | uandn f | ushl f | ushrN64 f | ushrI64 f | urot f | useq f | usne f | usltI64 f | usltN64 f | usleI64 f | usleN64 f =>
    exact decode_encodeSU ha fun w h => by simp only [decodeShort, h.major, decode03, h.op, decodeSU_eq h]
  | upopc f | uclz f => exact decode_encodeSUUn ha fun w h => by simp only [decodeShort, h.major, decode03, h.op, decodeSUUn_eq h]
  | bra f | call f => exact decode_encodeSB ha fun w h => by simp only [decodeShort, h.major, decodeSB_eq h]
  -- Majors 0x06 and 0x07
  | jmp f | callr f => exact decode_encodeSC ha fun w h => by simp only [decodeShort, h.major, decode06, h.op, decodeSCw_eq h]
  | ret f | exit f | yield f => exact decode_encodeSC ha fun w h => by simp only [decodeShort, h.major, decode06, h.op, decodeSCg_eq h]
  | bwz f | bwnz f | loop f => exact decode_encodeSC ha fun w h => by simp only [decodeShort, h.major, decode06, h.op, decodeSCb_eq h]
  | rcv f => exact decode_encodeSC ha fun w h => by simp only [decodeShort, h.major, decode06, h.op, decodeSCm_eq h]
  | tret f | dhalt f => exact decode_encodeSC ha fun w h => by simp only [decodeShort, h.major, decode07, h.op, decodeSCm_eq h]
  | sysc f =>
    exact decode_encodeSC ha fun w h => by
      simp only [decodeShort, h.major, decode07, h.op, h.chain, fin_of_fld h.wa, bits_of_fld h.imm, gOf_of_fld h.g]
  | brk f =>
    exact decode_encodeSC ha fun w h => by
      simp only [decodeShort, h.major, decode07, h.op, h.wa, beq_self_eq_true, need_ok, h.chain, bits_of_fld h.imm, gOf_of_fld h.g]
  | fend c =>
    exact decode_encodeSC ha fun w h => by
      simp only [decodeShort, h.major, decode07, h.op, fld_zero h.imm h.wa, h.g, beq_self_eq_true, Bool.and_self, need_ok, h.chain]
  | cend f =>
    exact decode_encodeSC ha fun w h => by
      simp only [decodeShort, h.major, decode07, h.op, h.wa, h.g, beq_self_eq_true, Bool.and_self, need_ok, h.chain, bits_of_fld h.imm]
  -- Majors 0x08 and 0x09
  | pand f | por f | pxor f | pandn f => exact decode_encodeSP ha fun w h => by simp only [decodeShort, h.major, decode08, h.op, decodeSP_eq h]
  | pnot f =>
    exact decode_encodeSP ha fun w h => by
      simp only [decodeShort, h.major, decode08, h.op, fld_zero h.imm h.pb, beq_self_eq_true, need_ok, h.chain, fin_of_fld h.pd, fin_of_fld h.pa,
        gOf_of_fld h.g]
  | plt f =>
    exact decode_encodeSP ha fun w h => by
      simp only [decodeShort, h.major, decode08, h.op, fld_zero h.pb h.pa, beq_self_eq_true, need_ok, h.chain, fin_of_fld h.pd, bits_of_fld h.imm,
        gOf_of_fld h.g]
  | srr f | srw f =>
    exact decode_encodeSR ha fun w h => by
      simp only [decodeShort, h.major, decode09, h.op, h.zero, beq_self_eq_true, need_ok, h.chain, fin_of_fld h.r, bits_of_fld h.srn]
  -- Majors 0x0A and 0x0B
  | push f =>
    exact decode_encodeSE ha fun w h => by
      simp only [decodeShort, h.major, decode0A, h.op, h.q, f.q.isLt, decide_true, need_ok, h.chain, fin_of_fld (fld_low h.q 2 f.q.isLt), fin_of_fld h.h,
        fin_of_fld h.wa, bits_of_fld h.imm]
  | hwait f | htest f => exact decode_encodeSE ha fun w h => by simp only [decodeShort, h.major, decode0A, h.op, decodeSEh_eq h]
  | sset f | sget f => exact decode_encodeSE ha fun w h => by simp only [decodeShort, h.major, decode0B, h.op, decodeSEs_eq h]
  | qpop f =>
    exact decode_encodeSE ha fun w h => by
      have hq : f.q.val < 8 := f.q.isLt
      simp only [decodeShort, h.major, decode0A, h.op, h.q, h.h, h.wa, fld_high h.imm 7 1 f.d.isLt, Nat.le_add_left, Nat.add_lt_add_right hq 4, and_self,
        decide_true, beq_self_eq_true, Bool.and_self, need_ok, h.chain, Nat.add_sub_cancel, Fin.ofNat_val_eq_self, fin_of_fld (fld_low h.imm 7 f.d.isLt)]
  | qclaim f | qput f =>
    exact decode_encodeSE ha fun w h => by
      simp only [decodeShort, h.major, decode0A, h.op, h.q, h.h, h.imm, Nat.le_add_left, decide_true, beq_self_eq_true, Bool.and_self, need_ok, h.chain,
        Nat.add_sub_cancel, Fin.ofNat_val_eq_self, fin_of_fld h.wa]
  | hcancel f =>
    exact decode_encodeSE ha fun w h => by
      simp only [decodeShort, h.major, decode0A, h.op, h.q, fld_zero h.imm h.wa, beq_self_eq_true, Bool.and_self, need_ok, h.chain, fin_of_fld h.h]
  | hget f =>
    exact decode_encodeSE ha fun w h => by
      have low : w.testBit 3 = false := testBit_of_fld (fld_of_fld h.imm 0 1)
      simp only [decodeShort, h.major, decode0A, h.op, low, Bool.false_eq_true, if_false, decodeSEh_eq h]
  | hset f =>
    exact decode_encodeSE ha fun w h => by
      have low : w.testBit 3 = true := testBit_of_fld (fld_of_fld h.imm 0 1)
      simp only [decodeShort, h.major, decode0A, h.op, low, if_true, decodeSEh_eq h]
  | winit f | wexp f =>
    exact decode_encodeSE ha fun w h => by
      simp only [decodeShort, h.major, decode0B, h.op, fld_zero h.h h.q, h.imm, beq_self_eq_true, Bool.and_self, need_ok, h.chain, fin_of_fld h.wa]
  | warr f =>
    have hs := f.scope.code_lt
    exact decode_encodeSE ha fun w h => by
      have scope : Scope.ofCode (w >>> 3) = f.scope := Scope.ofCode_eq (fld_low h.imm 3 hs)
      simp only [decodeShort, h.major, decode0B, h.op, fld_zero h.h h.q, fld_high h.imm 3 5 hs, beq_self_eq_true, Bool.and_self, need_ok, h.chain,
        fin_of_fld h.wa, scope]
  | wwait f =>
    have hs := f.scope.code_lt
    have hp := f.p.toNat_lt
    exact decode_encodeSE ha fun w h => by
      have p : w.testBit 6 = f.p := testBit_of_fld ((fld_of_fld h.imm 3 1).trans (by rw [fld_eq]; omega))
      have scope : Scope.ofCode (w >>> 3) = f.scope := Scope.ofCode_eq ((fld_of_fld h.imm 0 3).trans (by rw [fld_eq]; omega))
      simp only [decodeShort, h.major, decode0B, h.op, fld_zero h.h h.q, fld_high h.imm 4 4 (by omega), beq_self_eq_true, Bool.and_self, need_ok, h.chain,
        fin_of_fld h.wa, p, scope]
  -- Majors 0x10 to 0x15
  | vadd f | vsub f | vmul f | vmulh f | vmad f | vdiv f | vrem f | vmin f | vmax f | vabs f | vneg f | vabsd f | vand f | vor f | vxor f | vandn f
  | vnot f | vshl f | vshr f | vrot f | vpopc f | vclz f | vbrev f | vbfe f | vbfi f | vmov f =>
    exact decode_encodeLV ha fun u v hu hv => by simp only [decodeLong, decode10, hv.op, decodeLV_eq hu hv]
  | vfadd f | vfsub f | vfmul f | vfma f | vfms f | vfnma f | vfdiv f | vfsqrt f | vfmin f | vfmax f | vfabs f | vfneg f | vfrint f | vfscale f =>
    exact decode_encodeLV ha fun u v hu hv => by simp only [decodeLong, decode11, hv.op, decodeLV_eq hu hv]
  | vcmp cc f | vset cc f =>
    cases cc <;> exact decode_encodeLV ha fun u v hu hv => by
      simp only [decodeLong, decode12, hv.op, Cc.code, Nat.reduceAdd, decodeLV_eq hu hv]
  | vsel f | vfclass f => exact decode_encodeLV ha fun u v hu hv => by simp only [decodeLong, decode12, hv.op, decodeLV_eq hu hv]
  | vcvt f | vpklo f | vpkhi f | vupklo f | vupkhi f | vscl f =>
    exact decode_encodeLV ha fun u v hu hv => by simp only [decodeLong, decode13, hv.op, decodeLV_eq hu hv]
  | vrcp f | vrsqrt f | vexp2 f | vlog2 f | vsinpi f | vcospi f | vtanh f =>
    exact decode_encodeLV ha fun u v hu hv => by simp only [decodeLong, decode14, hv.op, decodeLV_eq hu hv]
  | vfirst f | vballot f | psetw f | vall f | vany f | vuni f | vlane f | shflIdx f | shflUp f | shflDown f | shflXor f | vredAdd f | vredMin f
  | vredMax f | vredAnd f | vredOr f | vredXor f | vscanAdd f | vscanMin f | vscanMax f | vscanxAdd f | vscanxMin f | vscanxMax f =>
    exact decode_encodeLV ha fun u v hu hv => by simp only [decodeLong, decode15, hv.op, decodeLV_eq hu hv]
  | xacq f | xrel f => exact decode_encodeLong ha fun u v hu hv => by simp only [decodeLong, decode15, hv.op, decodeLX0_eq hu hv]
  -- Majors 0x16 to 0x19
  | ld f | ldAcq f | ldw f | ldwAcq f =>
    exact decode_encodeLM ha (by decide) fun u v hu hv hk => by simp only [decodeLong, decode16, hk, decodeLM_eq (by decide) hu hv]
  | st f | stRel f | stw f | stwRel f =>
    exact decode_encodeLM ha (by decide) fun u v hu hv hk => by simp only [decodeLong, decode17, hk, decodeLM_eq (by decide) hu hv]
  | gth f | sct f =>
    exact decode_encodeLM ha (by decide) fun u v hu hv hk => by simp only [decodeLong, decode18, hk, decodeLM_eq (by decide) hu hv]
  | atomAdd f | atomMin f | atomMax f | atomAnd f | atomOr f | atomXor f | atomExch f | atomCas f | atomFadd f =>
    exact decode_encodeLA ha (by decide) fun u v hu hv hk => by simp only [decodeLong, decode19, hk, decodeLA_eq (by decide) hu hv]
  -- Major 0x1A
  | waita f =>
    obtain ⟨lt, kind, -, -⟩ := opA_read f.am f.cc.code_lt (kind := 8) (by decide)
    refine decode_encodeLong ha (fun u v hu hv => ?_) (hb := f.b.field_lt) (hmod := (modM_read _ _ _).1) (hbk := f.b.bk_lt)
    simp only [decodeLong, decode1A, hv.op, kind, decodeWaita_eq hu hv]
  | pf f =>
    obtain ⟨lt, kind, -, -⟩ := opA_read f.am (f.hold.toNat_lt.trans (by decide)) (kind := 12) (by decide)
    refine decode_encodeLong ha (fun u v hu hv => ?_) (hb := f.b.field_lt) (hbk := f.b.bk_lt)
    simp only [decodeLong, decode1A, hv.op, kind, decodePf_eq hu hv]
  | fenceAcq f | fenceRel f | fenceFull f | fenceSpec f =>
    have hs := f.scope.code_lt
    exact decode_encodeLong ha fun u v hu hv => by simp only [decodeLong, decode1A, hv.op, Nat.reduceMod, decodeLF_eq (by decide) hu hv]
  | fenceXp f =>
    have hw := f.wr.code_lt
    have hr := f.rd.code_lt
    exact decode_encodeLong ha fun u v hu hv => by simp only [decodeLong, decode1A, hv.op, Nat.reduceMod, decodeXp_eq hu hv]
  -- Majors 0x1B and 0x1C
  | cset f | cclr f | cget f => exact decode_encodeLong ha fun u v hu hv => by simp only [decodeLong, decode1B, hv.op, decodeLC_eq hu hv]
  | tfr f | tfw f =>
    have hs := f.sel.isLt
    refine decode_encodeLong ha (fun u v hu hv => ?_) (hb := f.b.field_lt) (hbk := f.b.bk_lt)
    simp only [decodeLong, decode1C, hv.op, decodeLT_eq hu hv]
  | svcpost f => exact decode_encodeLong ha fun u v hu hv => by simp only [decodeLong, decode1C, hv.op, decodeLR1_eq hu hv]
  | svctake f | fqtake f => exact decode_encodeLong ha fun u v hu hv => by simp only [decodeLong, decode1C, hv.op, decodeLRd_eq hu hv]
  | fqdone f =>
    have hf := f.fail.toNat_lt
    refine decode_encodeLong ha fun u v hu hv => ?_
    obtain ⟨a, high⟩ := fin64_of_fld hu.a
    have fail : u.testBit 3 = f.fail := testBit_of_fld (fld_low hu.bbx 1 hf)
    simp only [decodeLong, decode1C, hv.op, fld_zero high hu.d, fld_high hu.bbx 1 7 hf, hv.c3, hv.mod, hv.bk, beq_self_eq_true, Bool.and_self, need_ok,
      hv.chain, a, fail, gOf_of_fld hu.g]
  | acrd f =>
    have hf := f.clr.toNat_lt
    refine decode_encodeLong ha fun u v hu hv => ?_
    obtain ⟨d, dHigh⟩ := fin64_of_fld hu.d
    obtain ⟨a, aHigh⟩ := fin64_of_fld hu.a
    have clr : u.testBit 3 = f.clr := testBit_of_fld (fld_low hu.bbx 1 hf)
    simp only [decodeLong, decode1C, hv.op, dHigh, aHigh, fld_high hu.bbx 1 7 hf, hv.c3, hv.mod, hv.bk, beq_self_eq_true, Bool.and_self, need_ok,
      hv.chain, d, a, clr, gOf_of_fld hu.g]
  | tlbinvAsid f =>
    exact decode_encodeLong ha fun u v hu hv => by simp only [decodeLong, decode1C, hv.op, decodeTlbinv, hv.mod, decodeLR1_eq hu hv]
  | tlbinvPage f =>
    exact decode_encodeLong ha fun u v hu hv => by simp only [decodeLong, decode1C, hv.op, decodeTlbinv, hv.mod, decodeLR2_eq hu hv]
  | tlbinvNong f | tlbinvAll f =>
    exact decode_encodeLong ha fun u v hu hv => by simp only [decodeLong, decode1C, hv.op, decodeTlbinv, hv.mod, decodeLX0_eq hu hv]
  -- Majors 0x01 and 0x0C
  | clause f => exact decode_encode_clause f ws ha
  | nop c => exact decode_encode_nop c ws
  -- An event has no word.
  | _ => exact absurd ha Bool.false_ne_true
/-- Settles O57, row by row. -/
theorem encodeDecode : Obligations.EncodeDecode := by
  unfold Obligations.EncodeDecode
  exact decode_encode

end Sys2Proof
end

section
/-! O56: words written out. -/
namespace Sys2Proof

/-- Settles O56: each word but the reserved one is what its instruction encodes to, and decodes as that. -/
theorem wordsDecode : Obligations.WordsDecode := by
  unfold Obligations.WordsDecode
  exact ⟨decode_encode (.uadd { c := false, wd := 3, wa := 4, b := .imm 0xF9 }) [] rfl, rfl,
    decode_encode (.plt { c := false, pd := 1, n := 8, g := 7 }) [] rfl, decode_encode (.loop { c := false, wa := 12, off := 0xFD, g := 7 }) [] rfl,
    decode_encode (.push { c := false, q := 1, h := 2, wa := 8, sel := 0 }) [] rfl, decode_encode (.hwait { c := false, h := 2, wa := 20 }) [] rfl,
    decode_encode (.tret { c := false, wa := 5 }) [] rfl⟩

end Sys2Proof
end

section
/-! O58: what a step does while a group issues. -/
namespace Sys2Proof.Machine

/-! ### From the issue register to an instruction -/

/-- What a step does with what it has found: an instruction to execute, or only a next state. -/
def ranOf (r : State × Option Instr) : Out :=
  match r with
  | (u, some i) => exec i u
  | (u, none) => .next u

/-- An instruction found for the issuing group runs, unless it would retain a 17th register (R72). -/
def State.runOrHold (u : State) (q : Issue) (g : Group) (i : Instr) : Out := ranOf (u.allocate q g i)

/-- The same of what the search for an instruction answers. -/
def outcomeOf (q : Issue) (g : Group) (r : State × Option Instr) : Out :=
  match r with
  | (u, some i) => u.runOrHold q g i
  | (u, none) => .next u

theorem runOrHold_runs {u : State} {q : Issue} (g : Group) {i : Instr}
    (h : ∀ v, u.furrow? q.core q.slot = some v → v.overRetained (vNames i.readsWrites.2) = false) : u.runOrHold q g i = exec i u := by
  unfold State.runOrHold State.allocate
  cases hv : u.furrow? q.core q.slot with
  | none => rfl
  | some v => simp only [h v hv, Bool.false_eq_true, if_false]; rfl

theorem runOrHold_holds {u : State} {q : Issue} (g : Group) {i : Instr} {v : Furrow} (hv : u.furrow? q.core q.slot = some v)
    (h : v.overRetained (vNames i.readsWrites.2) = true) :
    u.runOrHold q g i = .next (u.waitOn q g (.retain (vNames i.readsWrites.2) (keptOf g.wait))) := by
  unfold State.runOrHold State.allocate
  simp only [hv, h, if_true]; rfl

section Issuing
variable {s : State} {q : Issue} {f : Furrow} {g : Group} (hp : s.powered = true) (hh : s.halted = false) (hq : s.issue = some q)
include hp hh hq

/-- A slot whose choice is to be made again chooses (R35). -/
theorem step_redo (hr : q.redo ≠ .no) : step s = .next (s.rechoose q) := by
  simp [step, hp, hh, hq, hr]

/-- With a group issuing, the step does what `prepare` leads to. -/
theorem step_prepare (hr : q.redo = .no) : step s = ranOf (s.prepare q) := by
  simp only [step, hp, hh, hq, hr, Bool.not_true, Bool.false_and, Bool.false_eq_true, if_false, bne_self_eq_false]
  rfl

variable (hf : s.furrow? q.core q.slot = some f) (hg : f.group? q.lanes = some g) (hr : q.redo = .no)
include hf hg hr

/-- An access under way that completes runs again (R372). -/
theorem step_access (hb : q.back.isSome = true) {b : Bool} {m : Mask} {todo : List Part} {got : List Got} {i : Instr}
    (hw : g.wait = some (.access b m todo got i)) : step s = exec i s := by
  rw [step_prepare hp hh hq hr, State.prepare]
  simp only [hf, hg, hb, if_true, hw]
  rfl

/-- A group that begins or goes on with a chain of its own runs what its next word gives. -/
theorem step_own (hb : q.back = none) : step s = outcomeOf q g (if q.inChain || g.midChain then s.laterWord q f g else s.firstWord q f g) := by
  rw [step_prepare hp hh hq hr, State.prepare]
  simp only [hf, hg, hb, Option.isSome_none, Bool.false_eq_true, if_false]
  obtain ⟨u, _ | i⟩ := (if q.inChain || g.midChain then s.laterWord q f g else s.firstWord q f g) <;> rfl

theorem step_first (hb : q.back = none) (hc : q.inChain = false) (hm : g.midChain = false) : step s = outcomeOf q g (s.firstWord q f g) := by
  rw [step_own hp hh hq hf hg hr hb, hc, hm, Bool.or_self, if_neg Bool.false_ne_true]

theorem step_later (hb : q.back = none) (hc : q.inChain = true ∨ g.midChain = true) : step s = outcomeOf q g (s.laterWord q f g) := by
  rw [step_own hp hh hq hf hg hr hb, if_pos (Bool.or_eq_true_iff.2 hc)]

end Issuing

/-! ### The first word of a chain -/

/-- What a chain that is fetched as far as it can be leads to, from its first instruction. -/
def State.headed (u : State) (q : Issue) (f : Furrow) (g : Group) (e : Option Fetched) (r : Except DecodeErr (Option Instr)) : State × Option Instr :=
  match r with
  | .error _ => (u.trapIssue q (trapAt g.lanes 0x20 0 g.pc), none)
  | .ok none => (u.fetchFault q f g (e.getD .noImm), none)
  | .ok (some i) =>
    if i.major = 1 then (u, some i)
    else match u.breakpoint f g with
      | some b => (u.trapIssue q (trapAt b.1 3 b.2 g.pc), none)
      | none => u.beginChain q f g i

section First
variable {s s1 : State} {q : Issue} {f : Furrow} {g : Group} {ws : List Nat} {e : Option Fetched} {i : Instr}

/-- A PC past the code (R318). -/
theorem firstWord_past (h : (s.codeOf f).2 ≤ packetOf g.pc) : s.firstWord q f g = (s.trapIssue q (trapAt g.lanes 0x20 0 g.pc), none) := by
  rw [State.firstWord, if_pos h]

variable (hpc : packetOf g.pc < (s.codeOf f).2)
include hpc

/-- A word whose sector the die holds no token of (R372). -/
theorem firstWord_wait {x : Nat} (hw : State.fetchChain f (3 - g.pc.toNat / 4 % 3) g.pc.toNat s = (s1, ws, some (.wait x))) :
    s.firstWord q f g = (s1.waitTokens q g (.tokens (dieAgent f.core) [x] false), none) := by
  rw [State.firstWord, if_neg (Nat.not_le.2 hpc)]
  simp only [hw]

variable (hw : State.fetchChain f (3 - g.pc.toNat / 4 % 3) g.pc.toNat s = (s1, ws, e)) (he : ∀ x, e ≠ some (.wait x))
include hw he

theorem firstWord_fetched : s.firstWord q f g = s1.headed q f g e (chainHead (g.pc.toNat / 4 % 3) ws e) := by
  rw [State.firstWord, if_neg (Nat.not_le.2 hpc)]
  simp only [hw]
  obtain _ | x := e
  · rfl
  · cases x with
    | wait sec => exact absurd rfl (he sec)
    | word w => rfl
    | fault code va busy badPte wlevel => rfl
    | noImm => rfl

theorem firstWord_illegal {d : DecodeErr} (hd : chainHead (g.pc.toNat / 4 % 3) ws e = .error d) :
    s.firstWord q f g = (s1.trapIssue q (trapAt g.lanes 0x20 0 g.pc), none) := by
  rw [firstWord_fetched hpc hw he, hd]
  rfl

variable (hd : chainHead (g.pc.toNat / 4 % 3) ws e = .ok (some i))
include hd

/-- A clause header runs as it is (R167). -/
theorem firstWord_header (hi : i.major = 1) : s.firstWord q f g = (s1, some i) := by
  rw [firstWord_fetched hpc hw he, hd]
  exact if_pos hi

variable (hi : i.major ≠ 1)
include hi

/-- A breakpoint traps before its chain (R332). -/
theorem firstWord_breakpoint {b : Mask × Nat} (hb : s1.breakpoint f g = some b) :
    s.firstWord q f g = (s1.trapIssue q (trapAt b.1 3 b.2 g.pc), none) := by
  rw [firstWord_fetched hpc hw he, hd]
  simp only [State.headed, if_neg hi, hb]

theorem firstWord_begins (hb : s1.breakpoint f g = none) : s.firstWord q f g = s1.beginChain q f g i := by
  rw [firstWord_fetched hpc hw he, hd]
  simp only [State.headed, if_neg hi, hb]

end First

/-! ### Clauses before a chain (R167, R168) -/

section Begin
variable (s : State) (q : Issue) (f : Furrow) {g : Group} (i : Instr)

theorem beginChain_outside (hh : g.header = none) (ho : f.spec = none ∨ g.inst = none ∨ g.leaves = false) :
    s.beginChain q f g i
      = ({ s.onFurrow q.core q.slot (fun f => f.leaveClause g) with issue := some { q with reopen := some f } }, some i) := by
  rw [State.beginChain, hh]
  obtain h | h | h := ho <;> simp [h]

theorem beginChain_held (hh : g.header = none) (hs : f.spec.isSome = true) (hi : g.inst.isSome = true) (hl : g.leaves = true) :
    s.beginChain q f g i = (s.waitOn q g .specHold, none) := by
  rw [State.beginChain, hh]
  simp only [hs, hi, hl, Bool.and_self, if_true]

theorem beginChain_enters {h : ClauseH} (hh : g.header = some h) (hw : h.wait &&& ~~~f.flags = 0) :
    s.beginChain q f g i
      = ({ s.onFurrow q.core q.slot (fun f => f.openClause h g) with issue := some { q with reopen := some (f.atHeader g) } }, some i) := by
  rw [State.beginChain, hh]
  exact if_pos hw

theorem beginChain_waits {h : ClauseH} (hh : g.header = some h) (hw : h.wait &&& ~~~f.flags ≠ 0) :
    s.beginChain q f g i = (s.waitWith q g (.flags h.wait) (fun u => (u.closeClause ((u.group? g.lanes).getD g)).atHeader g), none) := by
  rw [State.beginChain, hh]
  exact if_neg hw

end Begin

/-! ### Later words, and the words themselves -/

theorem laterWord_decoded {s s1 : State} {q : Issue} {f : Furrow} {g : Group} {ws : List Nat} {e : Option Fetched} {i : Instr} {rest : List Instr}
    (hw : State.fetchChain f (3 - g.pc.toNat / 4 % 3) g.pc.toNat s = (s1, ws, e)) (hd : prefixInstrs 3 ws = .ok (i :: rest)) :
    s.laterWord q f g = (s1, some i) := by
  rw [State.laterWord]
  simp only [hw, hd]

theorem chainHead_decodeChain {k j : Nat} {ws : List Nat} {i : Instr} {rest : List (Nat × Instr)} (h : decodeChain k ws = .ok ((j, i) :: rest)) :
    chainHead k ws none = .ok (some i) := by
  rw [chainHead, h]
  rfl

section Fetch
variable {s s1 : State} {q : Issue} {f : Furrow} {pc pa : Nat} (hq : s.issue = some q) (hc : q.inChain = false)
  (hg : isGlobal ((s.codeOf f).1 + pc) = true)
  (ht : s.translate (s.ctxOf f) f.core ((s.codeOf f).1 + pc) { fetch := true } f.level = (s1, .ok pa))
include hq hc hg ht

/-- The word of a first chain once its address translates: it waits for a token, or is read (R354, R372). -/
theorem rawWord_translated : s.rawWord f pc =
    if !s1.isPeer pa && !s1.mayAccess (dieAgent f.core) pa false then (s1.request (dieAgent f.core) (sectorOf pa) false f.core, .wait (sectorOf pa))
    else if (s1.readHeld (dieAgent f.core) pa).poisoned pa 4 then (s1.readHeld (dieAgent f.core) pa, .fault 0x1C ((s.codeOf f).1 + pc) false false 0)
    else (s1.readHeld (dieAgent f.core) pa, .word ((s1.readHeld (dieAgent f.core) pa).numAt pa 4)) := by
  simp only [State.rawWord, hq, Option.any_some, hc, hg, ht, Bool.not_true, Bool.not_false, Bool.false_eq_true, if_false, Bool.true_and]

theorem fetchWord_held (hh : s1.isPeer pa = true ∨ s1.mayAccess (dieAgent f.core) pa false = true)
    (hx : (s1.readHeld (dieAgent f.core) pa).poisoned pa 4 = false) (hpat : ∀ p ∈ s.patchesOf f, p.1 ≠ pc / 4) :
    s.fetchWord f pc = (s1.readHeld (dieAgent f.core) pa, .word (leNat ((s1.readHeld (dieAgent f.core) pa).bytesAt pa 4))) := by
  have none_ : (s.patchesOf f).find? (fun p => p.1 == pc / 4) = none := List.find?_eq_none.2 fun p hp => by simpa using hpat p hp
  have token : (!s1.isPeer pa && !s1.mayAccess (dieAgent f.core) pa false) = false := by obtain h | h := hh <;> simp [h]
  rw [State.fetchWord, rawWord_translated hq hc hg ht, token, hx]
  simp only [Bool.false_eq_true, if_false, none_]
  rfl

theorem fetchWord_wait (hp : s1.isPeer pa = false) (hh : s1.mayAccess (dieAgent f.core) pa false = false) :
    s.fetchWord f pc = (s1.request (dieAgent f.core) (sectorOf pa) false f.core, .wait (sectorOf pa)) := by
  rw [State.fetchWord, rawWord_translated hq hc hg ht, hp, hh]
  rfl

end Fetch

/-! ### The obligation -/

/-- Settles O58: the search for an instruction case by case, each with what the step then does. -/
theorem stepRunsInstruction : Obligations.StepRunsInstruction := by
  unfold Obligations.StepRunsInstruction
  intro s q f g hp hh hq hf hg
  refine ⟨step_redo hp hh hq, fun hr => ⟨?decoded, ?token, ?illegal, ?past, fun k j ws i rest => chainHead_decodeChain, ?later, ?access, ?retain, ?word⟩⟩
  case decoded =>
    rintro s1 ws e i ⟨hb, hc, hm⟩ hpc hw he hd
    rw [step_first hp hh hq hf hg hr hb hc hm]
    refine ⟨fun hi => ?_, fun hi hbp ho hs => ?_, fun hi hbp ho hs hin hl => ?_, fun h hi hbp ho hfl => ?_, fun h hi hbp ho hfl => ?_, fun b hi hbp => ?_⟩
    · rw [firstWord_header hpc hw he hd hi]; rfl
    · rw [firstWord_begins hpc hw he hd hi hbp, beginChain_outside s1 q f i ho hs]; rfl
    · rw [firstWord_begins hpc hw he hd hi hbp, beginChain_held s1 q f i ho hs hin hl]; rfl
    · rw [firstWord_begins hpc hw he hd hi hbp, beginChain_enters s1 q f i ho hfl]; rfl
    · rw [firstWord_begins hpc hw he hd hi hbp, beginChain_waits s1 q f i ho hfl]; rfl
    · rw [firstWord_breakpoint hpc hw he hd hi hbp]; rfl
  case token =>
    rintro s1 ws x ⟨hb, hc, hm⟩ hpc hw
    rw [step_first hp hh hq hf hg hr hb hc hm, firstWord_wait hpc hw]; rfl
  case illegal =>
    rintro s1 ws e d ⟨hb, hc, hm⟩ hpc hw he hd
    rw [step_first hp hh hq hf hg hr hb hc hm, firstWord_illegal hpc hw he hd]; rfl
  case past =>
    rintro ⟨hb, hc, hm⟩ hpc
    rw [step_first hp hh hq hf hg hr hb hc hm, firstWord_past hpc]; rfl
  case later =>
    intro s1 ws e i rest hb hc hw hd
    rw [step_later hp hh hq hf hg hr hb hc, laterWord_decoded hw hd]; rfl
  case access => exact fun b m todo got i hb hw => step_access hp hh hq hf hg hr hb hw
  case retain => exact fun u i => ⟨runOrHold_runs g, fun v => runOrHold_holds g⟩
  case word =>
    intro s1 pc pa hc hgl ht
    exact ⟨fetchWord_held hq hc hgl ht, fetchWord_wait hq hc hgl ht⟩

end Sys2Proof.Machine
end

section
/-! O17, the law of `State.transfer`: the lanes of a group by their PCs, the groups of a split, and the end of the chain. -/
namespace Sys2Proof.Machine

/-! ### Lanes of a mask -/

theorem inMask_zero (l : Nat) : inMask (0 : Mask) l = false := BitVec.getLsbD_zero

theorem inMask_oneHot {i l : Nat} (hl : l < 32) : inMask ((1 <<< i : Nat) : Mask) l = decide (l = i) := by
  rw [inMask, BitVec.natCast_eq_ofNat, BitVec.getLsbD_ofNat, Nat.one_shiftLeft, Nat.testBit_two_pow, decide_eq_true hl, Bool.true_and]
  exact decide_eq_decide.2 eq_comm

theorem exists_inMask {m : Mask} (h : m ≠ 0) : ∃ l, l < 32 ∧ inMask m l = true := by
  by_contra hn
  push Not at hn
  exact h (BitVec.eq_of_getLsbD_eq fun l hl => (Bool.eq_false_iff.2 (hn l hl)).trans (inMask_zero l).symm)

theorem mem_lanesOf {m : Mask} {l : Nat} (hl : l < 32) : l ∈ lanesOf m ↔ inMask m l = true := by
  rw [lanesOf, List.mem_filter, List.mem_range, and_iff_right hl]

theorem inMask_maskOf (t : Nat → Bool) {l : Nat} (hl : l < 32) : inMask (maskOf t) l = t l := by
  have key : ∀ (is : List Nat) (m : Mask), inMask (is.foldl (fun m i => if t i then m ||| (1 <<< i) else m) m) l = (inMask m l || (decide (l ∈ is) && t l)) := by
    intro is
    induction is with
    | nil => intro m; simp
    | cons i is ih =>
      intro m
      rw [List.foldl_cons, ih]
      by_cases h : l = i
      · subst h
        cases ht : t l
        · simp
        · rw [if_pos rfl, inMask_or, inMask_oneHot hl]; simp
      · cases ht : t i
        · simp [h]
        · rw [if_pos rfl, inMask_or, inMask_oneHot hl]; simp [h]
  rw [maskOf, key, inMask_zero]
  simp [hl]

/-- A lane that is live is among the furrow's live lanes. -/
theorem inMask_liveLanes {f : Furrow} {l : Nat} (hl : l < 32) (h : (laneAt f.lanes l).status = .live) : inMask f.liveLanes l = true := by
  rw [Furrow.liveLanes, inMask_or, Furrow.lanesIn, inMask_maskOf _ hl, h]; rfl

/-! ### Lanes by PC (R31) -/

/-- Lane l stands in a class of PC x. -/
def InClass (cs : List (BitVec 24 × Mask)) (l : Nat) (x : BitVec 24) : Prop := ∃ c ∈ cs, c.1 = x ∧ inMask c.2 l = true

theorem inClass_cons {c : BitVec 24 × Mask} {cs : List (BitVec 24 × Mask)} {l : Nat} {x : BitVec 24} :
    InClass (c :: cs) l x ↔ (c.1 = x ∧ inMask c.2 l = true) ∨ InClass cs l x := by simp [InClass]

theorem inClass_addToClass (p : BitVec 24) (i : Nat) {l : Nat} (hl : l < 32) (x : BitVec 24) (cs : List (BitVec 24 × Mask)) :
    InClass (addToClass p i cs) l x ↔ (l = i ∧ x = p) ∨ InClass cs l x := by
  have one : p = x ∧ inMask ((1 <<< i : Nat) : Mask) l = true ↔ l = i ∧ x = p := by rw [inMask_oneHot hl, decide_eq_true_iff]; tauto
  induction cs with
  | nil => rw [addToClass, inClass_cons, one]
  | cons c cs ih =>
    obtain ⟨y, m⟩ := c
    unfold addToClass
    split_ifs with hlt heq
    · rw [inClass_cons, one]
    · subst heq
      simp only [inClass_cons, inMask_or, Bool.or_eq_true, and_or_left, one]
      tauto
    · simp only [inClass_cons, ih]; tauto

theorem inClass_classesOf (m : Mask) (pc : Nat → BitVec 24) {l : Nat} (hl : l < 32) (x : BitVec 24) :
    InClass (classesOf m pc) l x ↔ inMask m l = true ∧ x = pc l := by
  have key : ∀ (is : List Nat) (cs : List (BitVec 24 × Mask)),
      InClass (is.foldl (fun cs i => addToClass (pc i) i cs) cs) l x ↔ (l ∈ is ∧ x = pc l) ∨ InClass cs l x := by
    intro is
    induction is with
    | nil => intro cs; simp
    | cons i is ih =>
      intro cs
      rw [List.foldl_cons, ih, inClass_addToClass _ _ hl, List.mem_cons]
      constructor
      · rintro (⟨h, e⟩ | ⟨rfl, e⟩ | h)
        · exact .inl ⟨.inr h, e⟩
        · exact .inl ⟨.inl rfl, e⟩
        · exact .inr h
      · rintro (⟨rfl | h, e⟩ | h)
        · exact .inr (.inl ⟨rfl, e⟩)
        · exact .inl ⟨h, e⟩
        · exact .inr (.inr h)
  rw [classesOf, key, mem_lanesOf hl]
  simp [InClass]

/-- Classes in ascending order of their PCs. -/
def Ascending (cs : List (BitVec 24 × Mask)) : Prop := cs.Pairwise (fun a b => a.1.toNat < b.1.toNat)

theorem addToClass_pc {p : BitVec 24} {i : Nat} {cs : List (BitVec 24 × Mask)} {c : BitVec 24 × Mask} (h : c ∈ addToClass p i cs) :
    c.1 = p ∨ ∃ d ∈ cs, d.1 = c.1 := by
  induction cs with
  | nil => exact .inl (by rw [List.mem_singleton.1 h])
  | cons d cs ih =>
    obtain ⟨y, m⟩ := d
    unfold addToClass at h
    split_ifs at h with hlt heq
    · rcases List.mem_cons.1 h with rfl | h
      · exact .inl rfl
      · exact .inr ⟨c, h, rfl⟩
    · rcases List.mem_cons.1 h with rfl | h
      · exact .inl heq.symm
      · exact .inr ⟨c, List.mem_cons_of_mem _ h, rfl⟩
    · rcases List.mem_cons.1 h with rfl | h
      · exact .inr ⟨_, List.mem_cons_self, rfl⟩
      · exact (ih h).imp_right fun ⟨d, hd, e⟩ => ⟨d, List.mem_cons_of_mem _ hd, e⟩

theorem Ascending.addToClass {p : BitVec 24} {i : Nat} {cs : List (BitVec 24 × Mask)} (h : Ascending cs) : Ascending (addToClass p i cs) := by
  induction cs with
  | nil => exact List.pairwise_singleton _ _
  | cons d cs ih =>
    obtain ⟨y, m⟩ := d
    obtain ⟨hd, hcs⟩ := List.pairwise_cons.1 h
    unfold Machine.addToClass
    split_ifs with hlt heq
    · refine List.pairwise_cons.2 ⟨fun c hc => ?_, h⟩
      rcases List.mem_cons.1 hc with rfl | hc
      · exact hlt
      · exact hlt.trans (hd c hc)
    · exact List.pairwise_cons.2 ⟨hd, hcs⟩
    · refine List.pairwise_cons.2 ⟨fun c hc => ?_, ih hcs⟩
      rcases addToClass_pc hc with e | ⟨d, hm, e⟩
      · have := mt BitVec.eq_of_toNat_eq heq
        rw [e]; dsimp only; omega
      · exact e ▸ hd d hm

theorem ascending_classesOf (m : Mask) (pc : Nat → BitVec 24) : Ascending (classesOf m pc) :=
  List.foldlRecOn (motive := Ascending) (lanesOf m) _ List.Pairwise.nil (fun _ h _ _ => h.addToClass)

/-- Each PC has one class. -/
theorem Ascending.eq_of_pc {cs : List (BitVec 24 × Mask)} (h : Ascending cs) {c d : BitVec 24 × Mask} (hc : c ∈ cs) (hd : d ∈ cs) (e : c.1 = d.1) :
    c = d :=
  List.inj_on_of_nodup_map (f := Prod.fst) (List.pairwise_map.2 (h.imp fun hlt he => by rw [he] at hlt; exact lt_irrefl _ hlt)) hc hd e

theorem keptClass_mem {cs : List (BitVec 24 × Mask)} (h : cs ≠ []) : keptClass cs ∈ cs := by
  obtain ⟨c, cs, rfl⟩ := List.exists_cons_of_ne_nil h
  exact List.foldlRecOn (motive := (· ∈ c :: cs)) (c :: cs) _ (List.mem_cons_self) (fun b hb x hx => by split <;> assumption)

/-! ### The groups of a split (R31) -/

/-- Furrow v is f but for its groups and what counts its clause instances. -/
def Regroups (f v : Furrow) : Prop := v = { f with groups := v.groups, counts := v.counts, clauses := v.clauses }

/-- The group of furrow h stands for class c of group g. -/
def StandsFor (g : Group) (c : BitVec 24 × Mask) (h : Group) : Prop := h.level = g.level ∧ h.lanes = c.2 ∧ h.pc = c.1

/-- Some groups stand for some classes of group g, each for one and each class with one. -/
def StandForAll (g : Group) (cs : List (BitVec 24 × Mask)) (gs : List Group) : Prop :=
  (∀ h ∈ gs, ∃ c ∈ cs, StandsFor g c h) ∧ ∀ c ∈ cs, ∃ h ∈ gs, StandsFor g c h

theorem StandForAll.cons {g h : Group} {c : BitVec 24 × Mask} {cs : List (BitVec 24 × Mask)} {gs : List Group} (hh : StandsFor g c h)
    (hs : StandForAll g cs gs) : StandForAll g (c :: cs) (h :: gs) := by
  refine ⟨fun k hk => ?_, fun d hd => ?_⟩
  · rcases List.mem_cons.1 hk with rfl | hk
    · exact ⟨c, List.mem_cons_self, hh⟩
    · exact (hs.1 k hk).imp fun d hd => ⟨List.mem_cons_of_mem _ hd.1, hd.2⟩
  · rcases List.mem_cons.1 hd with rfl | hd
    · exact ⟨h, List.mem_cons_self, hh⟩
    · exact (hs.2 d hd).imp fun k hk => ⟨List.mem_cons_of_mem _ hk.1, hk.2⟩

theorem Furrow.copyInst_regroups (f : Furrow) (c : Option Clause) : Regroups f (f.copyInst c).1 ∧ (f.copyInst c).1.groups = f.groups := by
  unfold Furrow.copyInst
  split
  · exact ⟨rfl, rfl⟩
  · split <;> exact ⟨rfl, rfl⟩

theorem Regroups.trans {a b c : Furrow} (h : Regroups a b) (k : Regroups b c) : Regroups a c := by
  unfold Regroups at *; rw [k, h]

/-- A further group of a split. -/
theorem addSplit_one (g : Group) (fk : Furrow × Nat) (c : BitVec 24 × Mask) :
    Regroups fk.1 (Furrow.addSplit g fk c).1 ∧ ∃ h, (Furrow.addSplit g fk c).1.groups = fk.1.groups ++ [h] ∧ StandsFor g c h := by
  obtain ⟨hc, hg⟩ := fk.1.copyInst_regroups g.clause
  rw [Furrow.addSplit]
  dsimp only
  rw [hg]
  exact ⟨hc.trans rfl, _, rfl, rfl, rfl, rfl⟩

/-- The further groups of a split follow, one for each class. -/
theorem addSplit_all (g : Group) (cs : List (BitVec 24 × Mask)) (fk : Furrow × Nat) :
    Regroups fk.1 (cs.foldl (Furrow.addSplit g) fk).1
      ∧ ∃ gs, (cs.foldl (Furrow.addSplit g) fk).1.groups = fk.1.groups ++ gs ∧ StandForAll g cs gs := by
  induction cs generalizing fk with
  | nil => exact ⟨rfl, [], (List.append_nil _).symm, fun _ h => (List.not_mem_nil h).elim, fun _ h => (List.not_mem_nil h).elim⟩
  | cons c cs ih =>
    obtain ⟨hc, h, hg, hh⟩ := addSplit_one g fk c
    obtain ⟨hr, gs, hgs, hs⟩ := ih (Furrow.addSplit g fk c)
    exact ⟨hc.trans hr, h :: gs, by rw [List.foldl_cons, hgs, hg, List.append_assoc]; rfl, hs.cons hh⟩

/-- The groups after a split: those of other lanes, and one for each class of PCs. -/
theorem regroup_groups (f : Furrow) (k : Group) (free : Nat) {pcs : Nat → BitVec 24} {cs : List (BitVec 24 × Mask)}
    (he : classesOf (k.lanes &&& f.liveLanes) pcs = cs) (hne : cs ≠ []) :
    Regroups f (f.regroup k free pcs) ∧ ∃ gs, (f.regroup k free pcs).groups = f.groups.filter (fun h => !(h.level == k.level && h.lanes == k.lanes)) ++ gs
      ∧ StandForAll k cs gs := by
  have kept := keptClass_mem hne
  have asc : Ascending cs := he ▸ ascending_classesOf _ _
  unfold Furrow.regroup
  dsimp only
  rw [he]
  split
  · exact absurd rfl hne
  obtain ⟨hr, gs, hg, hs⟩ := addSplit_all k (cs.filter (fun c => c.1 != (keptClass cs).1))
    ({ f with groups := f.groups.filter (fun h => !(h.level == k.level && h.lanes == k.lanes))
        ++ [{ k with lanes := (keptClass cs).2, pc := (keptClass cs).1, midChain := false }] }, free)
  obtain ⟨all, each⟩ := hs.cons (c := keptClass cs) (h := { k with lanes := (keptClass cs).2, pc := (keptClass cs).1, midChain := false })
    ⟨rfl, rfl, rfl⟩
  refine ⟨hr.trans rfl, _ :: gs, by rw [hg, List.append_assoc]; rfl, fun h hh => ?_, fun c hc => each c ?_⟩
  · obtain ⟨c, hc, hst⟩ := all h hh
    rcases List.mem_cons.1 hc with rfl | hc
    · exact ⟨_, kept, hst⟩
    · exact ⟨c, (List.mem_filter.1 hc).1, hst⟩
  · by_cases e : c.1 = (keptClass cs).1
    · exact asc.eq_of_pc hc kept e ▸ List.mem_cons_self
    · exact List.mem_cons_of_mem _ (List.mem_filter.2 ⟨hc, bne_iff_ne.2 e⟩)

/-- What a transfer of control does with the groups of a whole group's furrow (R31): every lane of the group stands at its PC. -/
structure Scatters (f v : Furrow) (g : Group) (pcs : Nat → BitVec 24) : Prop where
  regroups : Regroups f v
  nonempty : v.groups ≠ []
  stands : ∀ l, l < 32 → inMask g.lanes l = true → ∃ h ∈ v.groups, h.level = f.level ∧ inMask h.lanes l = true
  pcs : ∀ l, l < 32 → inMask g.lanes l = true → ∀ h ∈ v.groups, inMask h.lanes l = true → h.pc = pcs l

theorem regroup_scatters {f : Furrow} {g k : Group} (free : Nat) (pcs : Nat → BitVec 24) (hk : k.lanes = g.lanes ∧ k.level = f.level)
    (hlv : g.level = f.level) (hlive : ∀ l, l < 32 → inMask g.lanes l = true → (laneAt f.lanes l).status = .live) (hne : g.lanes ≠ 0)
    (halone : ∀ h ∈ f.groups, h = g ∨ h.lanes &&& g.lanes = 0) : Scatters f (f.regroup k free pcs) g pcs := by
  have inAll : ∀ l x, l < 32 → inMask g.lanes l = true → (InClass (classesOf (k.lanes &&& f.liveLanes) pcs) l x ↔ x = pcs l) := fun l x hl hin => by
    rw [inClass_classesOf _ _ hl, inMask_and, hk.1, hin, inMask_liveLanes hl (hlive l hl hin)]
    exact and_iff_right rfl
  have outside : ∀ h ∈ f.groups.filter (fun h => !(h.level == k.level && h.lanes == k.lanes)), ∀ l, inMask g.lanes l = true → inMask h.lanes l = false :=
    fun h hh l hl => by
      obtain ⟨hm, hd⟩ := List.mem_filter.1 hh
      rcases halone h hm with rfl | hz
      · simp [hk, hlv] at hd
      · have := congrArg (inMask · l) hz
        rwa [inMask_and, hl, Bool.and_true, inMask_zero] at this
  have some_ : classesOf (k.lanes &&& f.liveLanes) pcs ≠ [] := fun he => by
    obtain ⟨l, hl, hin⟩ := exists_inMask hne
    obtain ⟨c, hc, -⟩ := (inAll l _ hl hin).2 rfl
    rw [he] at hc
    exact List.not_mem_nil hc
  obtain ⟨hr, gs, hg, all, each⟩ := regroup_groups f k free rfl some_
  have stands : ∀ l, l < 32 → inMask g.lanes l = true → ∃ h ∈ (f.regroup k free pcs).groups, h.level = f.level ∧ inMask h.lanes l = true :=
    fun l hl hin => by
      obtain ⟨c, hc, -, hcl⟩ := (inAll l _ hl hin).2 rfl
      obtain ⟨h, hh, hlev, hlan, -⟩ := each c hc
      exact ⟨h, hg ▸ List.mem_append_right _ hh, hlev.trans hk.2, hlan ▸ hcl⟩
  refine ⟨hr, fun he => ?_, stands, fun l hl hin h hh hhl => ?_⟩
  · obtain ⟨l, hl, hin⟩ := exists_inMask hne
    obtain ⟨h, hh, -⟩ := stands l hl hin
    exact List.not_mem_nil (he ▸ hh)
  · rw [hg] at hh
    rcases List.mem_append.1 hh with hh | hh
    · rw [outside h hh l hin] at hhl; cases hhl
    · obtain ⟨c, hc, -, hlan, hpc⟩ := all h hh
      rw [hpc]
      exact (inAll l _ hl hin).1 ⟨c, hc, rfl, hlan ▸ hhl⟩

/-! ### The law -/

/-- A furrow with the PCs of another for every mask has its PC for a lane whose groups all stand there. -/
theorem pcAt_of_pcOf {f t : Furrow} {l : Nat} {p : BitVec 24} (hq : ∀ m, t.pcOf m = f.pcOf m)
    (hex : ∃ h ∈ f.groups, h.level = f.level ∧ inMask h.lanes l = true) (hall : ∀ h ∈ f.groups, inMask h.lanes l = true → h.pc = p) :
    t.pcAt l = some p := by
  obtain ⟨h, hm, hlev, hin⟩ := hex
  have some_ : (f.group? h.lanes).isSome = true := List.find?_isSome.2 ⟨h, hm, by simp [hlev]⟩
  have here : (t.group? h.lanes).isSome = true := by
    have := congrArg Option.isSome (hq h.lanes)
    rwa [Furrow.pcOf, Furrow.pcOf, Option.isSome_map, Option.isSome_map, some_] at this
  obtain ⟨k, hk⟩ := Option.isSome_iff_exists.1 here
  obtain ⟨hkm, hkl, hkh⟩ := Furrow.group?_some hk
  obtain ⟨j, hj⟩ := Option.isSome_iff_exists.1 (List.find?_isSome.2 ⟨k, hkm, by simp [hkl, hkh, hin]⟩ : (t.groupOf? l).isSome = true)
  obtain ⟨hjp, as, bs, hsplit, hbefore⟩ := List.find?_eq_some_iff_append.1 hj
  obtain ⟨hjl, hjin⟩ : j.level = t.level ∧ inMask j.lanes l = true := by simpa using hjp
  have first : t.group? j.lanes = some j := List.find?_eq_some_iff_append.2 ⟨by simp [hjl], as, bs, hsplit, fun a ha => by
    have := hbefore a ha
    simp only [Bool.not_eq_true', Bool.and_eq_false_imp, beq_iff_eq] at this ⊢
    intro hal
    rw [beq_eq_false_iff_ne]
    rintro e
    rw [e, hjin] at this
    cases this hal⟩
  have same := hq j.lanes
  rw [Furrow.pcOf, first, Option.map_some, Furrow.pcOf] at same
  obtain ⟨x, hx, hpc⟩ := Option.map_eq_some_iff.1 same.symm
  obtain ⟨hxm, -, hxl⟩ := Furrow.group?_some hx
  rw [Furrow.pcAt, Furrow.groupOf?, hj, Option.map_some, ← hpc, hall x hxm (hxl ▸ hjin)]

end Sys2Proof.Machine
end

section
/-! O17: branches, computed jumps, conditional branches and `loop`. -/
namespace Sys2Proof.Machine

theorem Regroups.regs {f v : Furrow} (h : Regroups f v) : v.regs = f.regs := (congrArg Furrow.regs h).trans rfl

/-- What a regrouped furrow keeps of the run. -/
theorem Regroups.run {f v : Furrow} (h : Regroups f v) : v.core = f.core ∧ v.slot = f.slot ∧ v.level = f.level ∧ v.step = f.step ∧ v.ending = f.ending :=
  ⟨(congrArg Furrow.core h).trans rfl, (congrArg Furrow.slot h).trans rfl, (congrArg Furrow.level h).trans rfl, (congrArg Furrow.step h).trans rfl,
   (congrArg Furrow.ending h).trans rfl⟩

/-- The furrow that a transfer of control leaves before its chain goes on or ends. -/
def Furrow.sent (f : Furrow) (g : Group) (free : Nat) (pcs : Nat → BitVec 24) : Furrow :=
  (f.onLanes g.lanes (fun _ l => { l with dskip := false })).regroup (g.retire f.spec.isSome) free pcs

/-- A transfer of control scatters the lanes of a whole group, whatever else its instruction did to the furrow's registers. -/
theorem sent_scatters {f f1 : Furrow} {g : Group} (free : Nat) (pcs : Nat → BitVec 24) (hg : g ∈ f.groups ∧ g.level = f.level) (w : WholeGroup f g)
    (r : SameRun f f1) (hs : ∀ l, l < 32 → (laneAt f1.lanes l).status = (laneAt f.lanes l).status) :
    Scatters (f1.onLanes g.lanes (fun _ l => { l with dskip := false })) (f1.sent g free pcs) g pcs := by
  have rd := sameRun_onLanes f1 g.lanes (fun _ l => { l with dskip := false })
  have lev : (f1.onLanes g.lanes (fun _ l => { l with dskip := false })).level = g.level := rd.level.trans (r.level.trans hg.2.symm)
  refine regroup_scatters free pcs ⟨rfl, lev.symm⟩ lev.symm (fun l hl hin => ?_) (w.lanes g hg.1) (by rw [rd.groups, r.groups]; exact w.alone)
  have live : (laneAt f1.lanes l).status = .live := (hs l hl).trans (w.live l hl hin)
  simp only [Furrow.onLanes]
  rw [laneAt_tableOf _ hl, if_pos hin]
  exact live

/-- A transfer of control: the furrow put back, and the end of the chain or its next word, which no register and no PC shows. -/
theorem transfer_quiet {s : State} {q : Issue} {f f1 : Furrow} {g : Group} {i : Instr} {pcs : Nat → BitVec 24} (h : Issues s q f g i)
    (r : SameRun f f1) (hs : Scatters (f1.onLanes g.lanes (fun _ l => { l with dskip := false }))
      (f1.sent g ((s.setFurrow f1).poolFree q.core (quarterOf q.slot)) pcs) g pcs) :
    ∃ t, s.transfer i q f1 g pcs = .next t ∧ Quiet (s.setFurrow (f1.sent g ((s.setFurrow f1).poolFree q.core (quarterOf q.slot)) pcs)) t := by
  have rd := sameRun_onLanes f1 g.lanes (fun _ l => { l with dskip := false })
  obtain ⟨hc, hn, -, hstep, hend⟩ := hs.regroups.run
  have place := State.furrow?_place h.furrow
  have own := State.furrow?_setFurrow_self h.furrow (hc.trans (rd.core.trans (r.core.trans place.1))) (hn.trans (rd.slot.trans (r.slot.trans place.2)))
  refine ⟨_, rfl, ?_⟩
  split
  · exact quiet_chainOn _ q _ h.own
  · exact quiet_endChain _ q _ own hs.nonempty (hstep.trans (rd.step.trans (r.step.trans h.step))) h.alone h.own
      (hend.trans (rd.ending.trans (r.ending.trans h.lives)))

/-- The law of `State.transfer`: the registers are those of the instruction's own effect, and every lane of a whole group stands at its PC. -/
theorem transfers_of {s : State} {q : Issue} {f f1 : Furrow} {g : Group} {i : Instr} {pcs : Nat → BitVec 24} (r : SameRun f f1)
    (hs : ∀ l, l < 32 → (laneAt f1.lanes l).status = (laneAt f.lanes l).status) (he : Issues s q f g i → exec i s = s.transfer i q f1 g pcs) :
    Transfers s q f g i f1 pcs := by
  intro h w
  obtain ⟨hmem, hlev, -⟩ := Furrow.group?_some h.group
  have sc := sent_scatters ((s.setFurrow f1).poolFree q.core (quarterOf q.slot)) pcs ⟨hmem, hlev⟩ w r hs
  obtain ⟨t, ht, hq⟩ := transfer_quiet h r sc
  obtain ⟨hc, hn, hl, -, -⟩ := sc.regroups.run
  have rd := sameRun_onLanes f1 g.lanes (fun _ l => { l with dskip := false })
  have place := State.furrow?_place h.furrow
  have core := hc.trans (rd.core.trans (r.core.trans place.1))
  have slot := hn.trans (rd.slot.trans (r.slot.trans place.2))
  have own := State.furrow?_setFurrow_self h.furrow core slot
  refine ⟨t, (he h).trans ht, ?_, fun c n hcn => ?_, hq.rest⟩
  · have hr := hq.regs q.core q.slot
    have hp := hq.pcs q.core q.slot
    simp only [State.regs?, State.pcOf?, own, Option.map_some, Option.bind_some] at hr hp
    obtain ⟨f', hf', hregs⟩ := Option.map_eq_some_iff.1 hr
    simp only [hf', Option.bind_some] at hp
    refine ⟨f', hf', hregs.trans (sc.regroups.regs.trans (f1.regs_dskip g.lanes)), fun l hl' hin => pcAt_of_pcOf hp ?_ (sc.pcs l hl' hin)⟩
    obtain ⟨k, hk, hkl, hkin⟩ := sc.stands l hl' hin
    exact ⟨k, hk, hkl.trans hl.symm, hkin⟩
  · exact (hq.regs c n).trans (congrArg (Option.map Furrow.regs) (State.furrow?_setFurrow_ne (by rw [core, slot]; exact hcn)))

/-! ### The instructions -/

theorem lanes_writeW (f : Furrow) (d : Nat) (v : W64) : (f.writeW d v).lanes = f.lanes := by
  unfold Furrow.writeW
  split
  · rfl
  · split <;> rfl

/-- A branch whose guarded lanes go to one PC, with no effect but the registers of f1. -/
theorem transfers_of_branchTo {s : State} {q : Issue} {f f1 : Furrow} {g : Group} {i : Instr} {m : Mask} {pc : BitVec 24} (r : SameRun f f1)
    (hl : f1.lanes = f.lanes) (hw : i.words = 1) (he : Issues s q f g i → exec i s = branchTo i s q f1 g m pc) :
    Transfers s q f g i f1 (fun l => if inMask m l then pc else g.pc + 4) :=
  transfers_of r (fun l _ => by rw [hl]) (fun h => by rw [he h, branchTo, hw]; rfl)

/-- A jump whose target lies below the code length, where any lane takes it. -/
theorem withTarget_below {s : State} {q : Issue} {f : Furrow} {g : Group} {i : Instr} {wa : Fin 64} (h : Issues s q f g i)
    (ht : f.activeSet i g = 0 ∨ (f.readW wa.val).toNat < (s.codeOf f).2) (k : Issue → Furrow → Group → Nat → Out) :
    withTarget i wa s k = k q f g (f.readW wa.val).toNat := by
  rw [withTarget, running_issues h]
  exact if_neg fun hn => ht.elim hn.1 hn.2.not_gt

/-- `bwz` and `bwnz`: m are the lanes that the test sends off. -/
theorem transfers_of_branchIf {s : State} {q : Issue} {f : Furrow} {g : Group} {i : Instr} {x : SCb} {test : W64 → Bool} {m : Mask} (hw : i.words = 1)
    (he : exec i s = branchIf i x test s) (hm : (if test (f.readW x.wa.val) then f.activeSet i g else 0) = m) :
    Transfers s q f g i f (fun l => if inMask m l then offsetPc g.pc x.off else g.pc + 4) :=
  transfers_of_branchTo (SameRun.refl f) rfl hw (fun h => by rw [he, branchIf, running_issues h, hm])

/-- A `loop` that some lane takes counts once, and its lanes branch while the count is not 0. -/
theorem transfers_loop {s : State} {q : Issue} {f : Furrow} {g : Group} (x : SCb) (hm : f.activeSet (.loop x) g ≠ 0) :
    Transfers s q f g (.loop x) (f.writeW x.wa.val (f.readW x.wa.val - 1))
      (fun l => if inMask (if f.readW x.wa.val = 1 then 0 else f.activeSet (.loop x) g) l then offsetPc g.pc x.off else g.pc + 4) :=
  transfers_of_branchTo (sameRun_writeW f _ _) (lanes_writeW f _ _) rfl (fun h => by
    rw [exec_loop, execLoop, running_issues h]
    simp only [if_neg hm, sub_eq_zero])

/-- Settles O17: the branches are transfers of control, and `loop` that no lane takes retires with no effect. -/
theorem branches : Obligations.Branches := by
  unfold Obligations.Branches
  intro s q f g
  refine ⟨fun x => ?_, fun x ht => ?_, fun x => ?_, fun x => ?_, fun x hm => ?_, fun x hm h => ?_⟩
  · exact transfers_of_branchTo (SameRun.refl f) rfl rfl (fun h => by rw [exec_bra, execBra, running_issues h]; rfl)
  · exact transfers_of_branchTo (SameRun.refl f) rfl rfl (fun h => by rw [exec_jmp, execJmp, withTarget_below h ht]; rfl)
  · exact transfers_of_branchIf rfl (exec_bwz s x) (if_congr beq_iff_eq rfl rfl)
  · exact transfers_of_branchIf rfl (exec_bwnz s x) (by simp only [bne_iff_ne, ne_eq, ite_not])
  · exact transfers_loop x hm
  · exact does_of_skip h rfl h.furrow (SameRun.refl f) rfl rfl (by rw [exec_loop, execLoop, running_issues h]; exact if_pos hm)

end Sys2Proof.Machine
end

section
/-! O19: `nop`, clause headers and the chain after one, `yield`, and reconvergence holds. -/
namespace Sys2Proof.Machine

/-! ### A group through the end of its chain -/

/-- Group b is a with what the issue logic keeps for itself of its pool entry and its chain. -/
def GroupStays (a b : Group) : Prop := b = { a with active := b.active, midChain := b.midChain }

theorem GroupStays.lanes {a b : Group} (h : GroupStays a b) : b.lanes = a.lanes := (congrArg Group.lanes h).trans rfl

theorem GroupStays.level {a b : Group} (h : GroupStays a b) : b.level = a.level := (congrArg Group.level h).trans rfl

theorem GroupStays.yielded {a b : Group} (h : GroupStays a b) : b.yielded = a.yielded := (congrArg Group.yielded h).trans rfl

theorem GroupStays.pc {a b : Group} (h : GroupStays a b) : b.pc = a.pc := (congrArg Group.pc h).trans rfl

theorem GroupStays.rcv {a b : Group} (h : GroupStays a b) : b.rcv = a.rcv := (congrArg Group.rcv h).trans rfl

theorem GroupStays.entry {a b : Group} (h : GroupStays a b) (x : Bool) : GroupStays a { b with active := x } := by
  unfold GroupStays at *; rw [h]

/-- Groups changed in place are found as before. -/
theorem Furrow.group?_map {f v : Furrow} {k : Group → Group} (hl : v.level = f.level) (hg : v.groups = f.groups.map k)
    (hk : ∀ g, (k g).lanes = g.lanes ∧ (k g).level = g.level) (m : Mask) : v.group? m = (f.group? m).map k := by
  unfold Furrow.group?
  rw [hl, hg]
  exact find?_map_key _ k (fun g => by rw [(hk g).1, (hk g).2]) _

/-- A group of a level, its chain over where its lanes are among those given. -/
def Group.chainOver (n : Nat) (m : Mask) (g : Group) : Group := if g.level = n ∧ g.lanes &&& ~~~m = 0 then { g with midChain := false } else g

theorem Group.chainOver_stays (n : Nat) (m : Mask) (g : Group) : GroupStays g (g.chainOver n m) := by
  unfold Group.chainOver
  split <;> rfl

/-- The end of a chain and entries given out leave a group but for its entry and its chain mark. -/
theorem chainEnd_group {f : Furrow} {m n : Mask} {a : Group} (h : f.group? n = some a) (k : Group → Bool) :
    ∃ b, ((chainEnd m f).entries k).group? n = some b ∧ GroupStays a b := by
  have stays := Group.chainOver_stays f.level m
  have ended : (chainEnd m f).group? n = some (a.chainOver f.level m) :=
    (Furrow.group?_map (k := Group.chainOver f.level m) (by simp only [chainEnd, laneEnd, Furrow.onLanes]; rfl)
      (by simp only [chainEnd, laneEnd, Furrow.onLanes]; rfl) (fun g => ⟨(stays g).lanes, (stays g).level⟩) n).trans (congrArg (Option.map _) h)
  have given := (Furrow.group?_map (f := chainEnd m f) (v := (chainEnd m f).entries k) (k := fun g => { g with active := k g }) rfl rfl
    (fun _ => ⟨rfl, rfl⟩) n).trans (congrArg (Option.map _) ended)
  exact ⟨_, given, (stays a).entry _⟩

section Chain
variable {s : State} {q : Issue} {f : Furrow} {a : Group} {m : Mask} (hf : s.furrow? q.core q.slot = some f) (ha : f.group? m = some a)
  (hd : q.deferred = none) (hb : q.back = none)
include hf ha hd hb

theorem endChain_group (hs : f.step = none) (hl : f.ending = false) :
    ∃ f' b, (s.endChain q m).furrow? q.core q.slot = some f' ∧ f'.regs = f.regs ∧ f'.group? m = some b ∧ GroupStays a b := by
  have own := State.furrow?_onFurrow_self hf (chainEnd m) (fun f => ⟨(keeps_chainEnd m).core f, (keeps_chainEnd m).slot f⟩)
  obtain ⟨hstep, hend, hne⟩ := chainEnd_run m f
  have step : (chainEnd m f).step = none := hstep.trans (congrArg (stepMark f.stepping m) hs)
  have running : f.groups ≠ [] := List.ne_nil_of_mem (Furrow.group?_some ha).1
  have settled : (s.onFurrow q.core q.slot (chainEnd m)).settleStep q.core q.slot = s.onFurrow q.core q.slot (chainEnd m) := by
    unfold State.settleStep
    rw [own, Option.any_some, step, Option.any_none, Bool.false_and, Bool.false_and, if_neg Bool.false_ne_true]
  obtain ⟨k, hk⟩ := entriesOnly_handout (s.onFurrow q.core q.slot (chainEnd m)) q.core (quarterOf q.slot) _ _ _ own
  obtain ⟨x, hx⟩ := State.endIssue_eq ((s.onFurrow q.core q.slot (chainEnd m)).handout q.core (quarterOf q.slot)) q hd hb
  obtain ⟨b, hg, hst⟩ := chainEnd_group (m := m) ha k
  refine ⟨(chainEnd m f).entries k, b, ?_, (keeps_chainEnd m).regs f, hg, hst⟩
  rw [State.endChain_eq]
  dsimp only
  rw [settled, ite_self, State.reap_running own (hne running) (hend.trans hl), hx]
  exact hk

omit hd in
theorem chainOn_group : ∃ f' b, (s.chainOn q m).furrow? q.core q.slot = some f' ∧ f'.group? m = some b ∧ GroupStays a b := by
  have hg := (Furrow.group?_onGroup f m (fun g => { g with midChain := true }) (fun _ => ⟨rfl, rfl⟩)).trans (congrArg (Option.map _) ha)
  refine ⟨_, _, ?_, hg, rfl⟩
  unfold State.chainOn
  simp only [hb]
  exact State.furrow?_onFurrow_self hf (fun f => f.onGroup m (fun g => { g with midChain := true })) (fun _ => ⟨rfl, rfl⟩)

end Chain

/-- The next word of the issuing group leaves the group, retired, but for its entry and its chain mark. -/
theorem stepOver_group {s : State} {q : Issue} {g a : Group} {f : Furrow} (pc : BitVec 24) (ch : Bool) (hf : s.furrow? q.core q.slot = some f)
    (ha : f.group? g.lanes = some a) (hs : f.step = none) (hd : q.deferred = none) (hb : q.back = none) (hl : f.ending = false) :
    ∃ f' b, (s.stepOver q g pc ch).furrow? q.core q.slot = some f' ∧ f'.group? g.lanes = some b
      ∧ GroupStays { a.retire f.spec.isSome with pc := pc } b := by
  have own := State.furrow?_onFurrow_self hf (fun f => f.onGroup g.lanes (fun g => { g.retire f.spec.isSome with pc := pc })) (fun _ => ⟨rfl, rfl⟩)
  have here := (Furrow.group?_onGroup f g.lanes (fun g => { g.retire f.spec.isSome with pc := pc }) (fun _ => ⟨rfl, rfl⟩)).trans (congrArg (Option.map _) ha)
  cases ch with
  | true => exact chainOn_group own here hb
  | false =>
    obtain ⟨f', b, h1, -, h2, h3⟩ := endChain_group own here hd hb hs hl
    exact ⟨f', b, h1, h2, h3⟩

/-- An instruction whose only effect is a mark on its own group. -/
theorem skip_onGroup {s : State} {q : Issue} {f : Furrow} {g : Group} {i : Instr} (h : Issues s q f g i) (k : Group → Group)
    (hk : ∀ g, (k g).lanes = g.lanes ∧ (k g).level = g.level) :
    ∃ t, (s.onFurrow q.core q.slot (fun u => u.onGroup g.lanes k)).skip i q g = .next t ∧ Completes s t q g i f
      ∧ ∃ f' b, t.furrow? q.core q.slot = some f' ∧ f'.group? g.lanes = some b
        ∧ GroupStays { (k g).retire f.spec.isSome with pc := nextPc g.pc i.words } b := by
  have here : f.group? g.lanes = some g := (Furrow.group?_some h.group).2.2 ▸ h.group
  have own := State.furrow?_onFurrow_self h.furrow (fun u => u.onGroup g.lanes k) (fun _ => ⟨rfl, rfl⟩)
  have marked := (Furrow.group?_onGroup f g.lanes k hk).trans (congrArg (Option.map k) here)
  obtain ⟨lands, others, rest⟩ := stepOver_own _ q g (nextPc g.pc i.words) i.chained own marked h.step h.alone h.own h.lives
  have group := stepOver_group (nextPc g.pc i.words) i.chained own marked h.step h.alone h.own h.lives
  refine ⟨_, rfl, ⟨lands, fun c n hcn => (others c n hcn).trans ?_, rest⟩, group⟩
  exact congrArg (Option.map Furrow.regs) (State.furrow?_onFurrow_ne (fun u => u.onGroup g.lanes k) (fun _ => ⟨rfl, rfl⟩) hcn)

/-! ### Clauses closed and entered (R167 to R170) -/

/-- Flags may rise from f to v, and none falls. -/
def FlagsRise (f v : Furrow) : Prop := ∃ m, v.flags = f.flags ||| m

theorem FlagsRise.refl (f : Furrow) : FlagsRise f f := ⟨0, BitVec.or_zero.symm⟩

theorem FlagsRise.trans {a b c : Furrow} (h : FlagsRise a b) (k : FlagsRise b c) : FlagsRise a c := by
  obtain ⟨m, hm⟩ := h
  obtain ⟨n, hn⟩ := k
  exact ⟨m ||| n, by rw [hn, hm, BitVec.or_assoc]⟩

theorem FlagsRise.kept {f v : Furrow} (h : FlagsRise f v) : f.flags &&& ~~~v.flags = 0 := by
  obtain ⟨m, hm⟩ := h
  rw [hm, BitVec.not_or, ← BitVec.and_assoc, BitVec.and_not_self]
  exact BitVec.zero_and

theorem Furrow.settleClauses_rise (f : Furrow) : FlagsRise f f.settleClauses := by
  unfold Furrow.settleClauses
  dsimp only
  refine List.foldlRecOn _ _ (FlagsRise.refl f) (fun v hv c _ => hv.trans ?_)
  refine List.foldlRecOn _ _ (FlagsRise.refl v) (fun w hw i _ => hw.trans ?_)
  split
  · exact ⟨_, rfl⟩
  · exact FlagsRise.refl w

/-- Closing a clause lets flags rise (R169). -/
theorem Furrow.closeInst_rise (f : Furrow) (inst : Option Nat) : FlagsRise f (f.closeInst inst) := by
  cases inst with
  | none => exact FlagsRise.refl f
  | some n => exact Furrow.settleClauses_rise { f with clauses := f.clauses.map (fun c => if c.1 == n then (c.1, true, c.2.2) else c) }

theorem FlagsOnly.regs {f v : Furrow} (h : FlagsOnly f v) : v.regs = ({ f with flags := v.flags } : Furrow).regs := (congrArg Furrow.regs h).trans rfl

/-- The clause of a group closed: flags alone, and the group out of it. -/
theorem Furrow.closeClause_flags (f : Furrow) (g : Group) : FlagsOnly (f.onGroup g.lanes (fun g => { g with clause := none })) (f.closeClause g) :=
  Furrow.closeInst_flags _ _

theorem Furrow.closeClause_group {f : Furrow} {g : Group} (h : f.group? g.lanes = some g) :
    (f.closeClause g).group? g.lanes = some { g with clause := none } := by
  have same := f.closeClause_flags g
  exact (Furrow.group?_congr ((congrArg Furrow.groups same).trans rfl) ((congrArg Furrow.level same).trans rfl) _).trans
    ((Furrow.group?_onGroup f g.lanes (fun g => { g with clause := none }) (fun _ => ⟨rfl, rfl⟩)).trans (congrArg (Option.map _) h))

/-- A flag number past 11 names no flag. -/
theorem flagBit_past {n : Nat} (h : ¬ n < 12) : 1#12 <<< n = 0 := BitVec.shiftLeft_eq_zero (Nat.not_lt.1 h)

/-- The flags that a header clears are those of SETA and SETB, each where it names one (R170). -/
theorem headerFlags_mask (x : ClauseH) :
    (headerFlags x).foldl (fun (m : BitVec 12) (i : Fin 12) => m ||| (1#12 <<< i.val)) 0 = (1#12 <<< x.seta.val) ||| (1#12 <<< x.setb.val) := by
  unfold headerFlags
  by_cases ha : x.seta.val < 12 <;> by_cases hb : x.setb.val < 12
  · by_cases e : x.seta.val = x.setb.val
    · simp [hb, e, List.filterMap]
    · simp [ha, hb, e, List.filterMap, List.dedup_cons_of_notMem]
  · simp [ha, hb, flagBit_past hb, List.filterMap]
  · simp [ha, hb, flagBit_past ha, List.filterMap]
  · simp [ha, hb, flagBit_past ha, flagBit_past hb, List.filterMap]

theorem Furrow.openClause_regs (f : Furrow) (x : ClauseH) (g : Group) :
    (f.openClause x g).regs = ({ f with flags := f.flags &&& ~~~((1#12 <<< x.seta.val) ||| (1#12 <<< x.setb.val)) } : Furrow).regs := by
  rw [← headerFlags_mask x]
  rfl

/-- A group that has entered the clause of a header. -/
def Group.entered (x : ClauseH) (n : Nat) (g : Group) : Group :=
  { g with
    header := none, wait := none,
    clause := some { nr := x.nr, len := x.len.val, clend := packetOf g.pc + x.len.val, inst := some n,
                     seta := (headerFlags x).head?, setb := ((headerFlags x).drop 1).head? } }

theorem Furrow.openClause_group {f : Furrow} {g : Group} (x : ClauseH) (h : f.group? g.lanes = some g) :
    (f.openClause x g).group? g.lanes = some (g.entered x f.freshClause) :=
  (Furrow.group?_onGroup _ _ (Group.entered x f.freshClause) (fun _ => ⟨rfl, rfl⟩)).trans (congrArg (Option.map _) h)

/-! ### The instructions -/

theorem issued_stands {s : State} {q : Issue} {f : Furrow} {g : Group} (h : Stands s q f g) (k : Issue → Furrow → Group → Out) :
    issued s k = k q f g := by
  unfold issued
  rw [h.issue]
  simp only [h.furrow, h.group]

/-- A group that has fetched a header. -/
def Group.fetched (x : ClauseH) (g : Group) : Group := { g with pc := g.pc + 4, header := some x, wait := none }

/-- The furrow after its group has fetched a header: the clause it was in closed, and this header the next to enter. -/
def Furrow.atClause (f : Furrow) (x : ClauseH) (g : Group) : Furrow := (f.closeClause g).onGroup g.lanes (Group.fetched x)

theorem exec_clause_stands {s : State} {q : Issue} {f : Furrow} {g : Group} (x : ClauseH) (h : Stands s q f g) :
    exec (.clause x) s = .next { s.setFurrow (f.atClause x g) with issue := some { q with reopen := none } } := by
  rw [exec_clause, execClause, issued_stands h, h.ahead]
  rfl

/-- The furrow in which the promise of R142 holds for what some lanes have stored. -/
def Furrow.undiverged (p : Party) (f : Furrow) : Furrow :=
  if f.field = p.field ∧ f.ix = p.ix then { f with posted := f.posted.map (fun x => { x with diverged := x.diverged &&& ~~~p.lanes }) } else f

theorem Furrow.goesOnAs_undiverged (p : Party) (f : Furrow) : GoesOnAs f (f.undiverged p) := by
  unfold Furrow.undiverged
  split
  · exact ⟨⟨rfl, rfl, rfl, rfl, rfl, rfl, rfl, rfl⟩, rfl, rfl⟩
  · exact GoesOnAs.refl f

theorem State.furrow?_undiverge {s : State} (p : Party) (c n : Nat) : (s.undiverge p).furrow? c n = (s.furrow? c n).map (Furrow.undiverged p) :=
  State.furrow?_map s (Furrow.undiverged p) (fun f => ⟨(f.goesOnAs_undiverged p).run.core, (f.goesOnAs_undiverged p).run.slot⟩) c n

/-- A group held at a reconvergence point (R192). -/
def Group.heldAt (m : Mask) (g : Group) : Group := { g with rcv := some (if m = 0 then 0xFFFFFFFF else m), wait := none, backoff := none }

theorem exec_rcv_issues {s : State} {q : Issue} {f : Furrow} {g : Group} (x : SCm) (h : Issues s q f g (.rcv x)) :
    exec (.rcv x) s = .next (((s.undiverge (f.party g.lanes)).onFurrow q.core q.slot
      (fun u => u.onGroup g.lanes (Group.heldAt ((f.readW x.wa.val).setWidth 32)))).endChain q g.lanes) := by
  rw [exec_rcv, execRcv, running_issues h]
  rfl

/-- Settles O19: the clause's close and entry, and what the chain's end leaves of a group that yields or is held. -/
theorem clausesAndHolds : Obligations.ClausesAndHolds := by
  unfold Obligations.ClausesAndHolds
  intro s q f g
  refine ⟨fun c h => ?nop, fun x h => ?clause, fun x i hf hg hh hb hs => ⟨fun hw => ?waits, fun hw => ?enters⟩, fun x h => ?yield, fun x h => ?rcv⟩
  case nop => exact does_of_skip h rfl h.furrow (SameRun.refl f) rfl rfl (by rw [exec_nop, execNop, running_issues h])
  case clause =>
    obtain ⟨hc, hn⟩ := State.furrow?_place h.furrow
    have same := f.closeClause_flags g
    have core : (f.atClause x g).core = q.core := ((congrArg Furrow.core same).trans rfl).trans hc
    have slot : (f.atClause x g).slot = q.slot := ((congrArg Furrow.slot same).trans rfl).trans hn
    have here : f.group? g.lanes = some g := (Furrow.group?_some h.group).2.2 ▸ h.group
    refine ⟨_, f.atClause x g, _, exec_clause_stands x h.toStands, rfl, State.furrow?_setFurrow_self h.furrow core slot, same.regs, rfl,
      (Furrow.closeInst_rise (f.onGroup g.lanes (fun g => { g with clause := none })) g.inst).kept, fun hi => ?_,
      (Furrow.group?_onGroup _ _ (Group.fetched x) (fun _ => ⟨rfl, rfl⟩)).trans (congrArg (Option.map _) (Furrow.closeClause_group here)), rfl, rfl,
      fun c n hcn => congrArg (Option.map Furrow.regs) (State.furrow?_setFurrow_ne (by rw [core, slot]; exact hcn)), rfl⟩
    change (f.closeClause g).flags = f.flags
    rw [Furrow.closeClause, hi]
    rfl
  case waits => exact congrArg Prod.snd (beginChain_waits s q f i hh hw)
  case enters =>
    have here : f.group? g.lanes = some g := (Furrow.group?_some hg).2.2 ▸ hg
    rw [beginChain_enters s q f i hh hw]
    exact ⟨rfl, f.openClause x g, g.entered x f.freshClause, _, State.furrow?_onFurrow_self hf (fun f => f.openClause x g) (fun _ => ⟨rfl, rfl⟩),
      Furrow.openClause_group x here, f.openClause_regs x g, rfl, rfl, rfl, rfl, rfl⟩
  case yield =>
    obtain ⟨t, ht, hc, f', b, hf', hb, hst⟩ :=
      skip_onGroup h (fun b => { b with yielded := b.yielded || f.activeSet (.yield x) g != 0 }) (fun _ => ⟨rfl, rfl⟩)
    exact ⟨t, by rw [exec_yield, execYield, running_issues h]; exact ht, hc, f', b, hf', hb, hst.yielded⟩
  case rcv =>
    have here : f.group? g.lanes = some g := (Furrow.group?_some h.group).2.2 ▸ h.group
    have on := f.goesOnAs_undiverged (f.party g.lanes)
    have found : (s.undiverge (f.party g.lanes)).furrow? q.core q.slot = some (f.undiverged (f.party g.lanes)) := by
      rw [State.furrow?_undiverge, h.furrow]; rfl
    have own := State.furrow?_onFurrow_self found (fun u => u.onGroup g.lanes (Group.heldAt ((f.readW x.wa.val).setWidth 32))) (fun _ => ⟨rfl, rfl⟩)
    have held := (Furrow.group?_onGroup (f.undiverged (f.party g.lanes)) g.lanes (Group.heldAt ((f.readW x.wa.val).setWidth 32)) (fun _ => ⟨rfl, rfl⟩)).trans
      (congrArg (Option.map _) ((Furrow.group?_congr on.run.groups on.run.level _).trans here))
    have step := on.run.step.trans h.step
    have lives := on.run.ending.trans h.lives
    obtain ⟨f', b, hf', hregs, hb, hst⟩ := endChain_group own held h.alone h.own step lives
    have quiet := quiet_endChain _ q g.lanes own (List.ne_nil_of_mem (Furrow.group?_some held).1) step h.alone h.own lives
    exact ⟨_, f', b, exec_rcv_issues x h, hf', hregs.trans on.regs, hb, hst.pc, hst.rcv, by rw [quiet.rest]; rfl⟩

end Sys2Proof.Machine
end

section
/-! O1 to O3: the uniform instructions. -/
namespace Sys2Proof.Machine

/-- A uniform instruction writes the value that its row names for its two operands. -/
theorem writesW_of_uniform {s : State} {q : Issue} {f : Furrow} {g : Group} {i : Instr} {x : SU} {signed : Bool} {op : W64 → W64 → W64} {v : W64}
    (he : exec i s = uniform i x signed op s) (hv : op (f.readW x.wa.val) (f.uop x.b signed) = v) : WritesW s q f g i x.wd.val v :=
  writesW_of (fun h => by rw [he, uniform, running_issues h, hv])

/-! ### Arithmetic (R184) -/

/-- The high half of 128 bits is the quotient of the exact value. -/
theorem highHalf_ofInt (x : Int) : (BitVec.ofInt 128 x).extractLsb' 64 64 = BitVec.ofInt 64 (x / 2 ^ 64) := by
  apply BitVec.eq_of_toNat_eq
  rw [BitVec.extractLsb'_toNat, BitVec.toNat_ofInt, BitVec.toNat_ofInt, Nat.shiftRight_eq_div_pow]
  omega

theorem highHalf_signed (a b : W64) : BitVec.ofInt 64 (a.toInt * b.toInt / 2 ^ 64) = (a.signExtend 128 * b.signExtend 128).extractLsb' 64 64 :=
  (highHalf_ofInt (a.toInt * b.toInt)).symm.trans (congrArg _ (BitVec.ofInt_mul _ _))

theorem highHalf_unsigned (a b : W64) : BitVec.ofNat 64 (a.toNat * b.toNat / 2 ^ 64) = (a.setWidth 128 * b.setWidth 128).extractLsb' 64 64 := by
  have product : a.setWidth 128 * b.setWidth 128 = BitVec.ofInt 128 ((a.toNat : Int) * b.toNat) := by
    rw [BitVec.ofInt_mul, BitVec.ofInt_natCast, BitVec.ofInt_natCast, BitVec.ofNat_toNat, BitVec.ofNat_toNat]
  rw [product, highHalf_ofInt]
  exact (BitVec.ofInt_natCast _ _).symm

/-- Settles O1, row by row; the high halves by the exact product in 128 bits. -/
theorem uniformArithmetic : Obligations.UniformArithmetic := by
  unfold Obligations.UniformArithmetic
  intro s q f g x a b n is
  exact ⟨writesW_of_uniform (exec_uadd s x) rfl, writesW_of_uniform (exec_usub s x) rfl, writesW_of_uniform (exec_ursub s x) rfl,
    writesW_of_uniform (exec_umul s x) rfl, writesW_of_uniform (exec_umulhI64 s x) (highHalf_signed _ _),
    writesW_of_uniform (exec_umulhN64 s x) (highHalf_unsigned _ _),
    writesW_of_uniform (exec_uminI64 s x) (if_congr BitVec.sle_iff_toInt_le rfl rfl),
    writesW_of_uniform (exec_umaxI64 s x) (if_congr BitVec.sle_iff_toInt_le rfl rfl),
    writesW_of_uniform (exec_uminN64 s x) (if_congr BitVec.ule_iff_toNat_le rfl rfl),
    writesW_of_uniform (exec_umaxN64 s x) (if_congr BitVec.ule_iff_toNat_le rfl rfl)⟩

/-! ### Division (R185) -/

theorem sdiv_eq_tdiv (a b : W64) : a.sdiv b = BitVec.ofInt 64 (a.toInt.tdiv b.toInt) := by
  apply BitVec.eq_of_toInt_eq
  rw [BitVec.toInt_sdiv, BitVec.toInt_ofInt]

theorem srem_eq_tmod (a b : W64) : a.srem b = BitVec.ofInt 64 (a.toInt.tmod b.toInt) := by
  rw [← BitVec.toInt_srem, BitVec.ofInt_toInt]

theorem udiv_eq_ofNat (a b : W64) : a / b = BitVec.ofNat 64 (a.toNat / b.toNat) := by
  rw [← BitVec.toNat_udiv, BitVec.ofNat_toNat, BitVec.setWidth_eq]

theorem umod_eq_ofNat (a b : W64) : a % b = BitVec.ofNat 64 (a.toNat % b.toNat) := by
  rw [← BitVec.toNat_umod, BitVec.ofNat_toNat, BitVec.setWidth_eq]

/-- Settles O2: the machine's division is that of the integers, cut to 64 bits, which loses -2^63 by -1 alone. -/
theorem uniformDivision : Obligations.UniformDivision := by
  unfold Obligations.UniformDivision
  refine ⟨fun s q f g x => ?_, fun a b ha hb => ?_⟩
  · exact ⟨writesW_of_uniform (exec_udivN64 s x) (if_congr Iff.rfl rfl (udiv_eq_ofNat _ _)),
      writesW_of_uniform (exec_uremN64 s x) (if_congr Iff.rfl rfl (umod_eq_ofNat _ _)),
      writesW_of_uniform (exec_udivI64 s x) (if_congr Iff.rfl rfl (sdiv_eq_tdiv _ _)),
      writesW_of_uniform (exec_uremI64 s x) (if_congr Iff.rfl rfl (srem_eq_tmod _ _))⟩
  · rw [ha, hb]
    decide

/-! ### Shifts and bit counts (R186) -/

theorem shiftLeft_eq_mul (a : W64) (k : Nat) : a <<< k = BitVec.ofNat 64 (a.toNat * 2 ^ k) := by
  rw [← Nat.shiftLeft_eq]
  rfl

theorem ushiftRight_eq_div (a : W64) (k : Nat) : a >>> k = BitVec.ofNat 64 (a.toNat / 2 ^ k) := by
  rw [← Nat.shiftRight_eq_div_pow, ← BitVec.toNat_ushiftRight, BitVec.ofNat_toNat, BitVec.setWidth_eq]

theorem sshiftRight_eq_div (a : W64) (k : Nat) : a.sshiftRight k = BitVec.ofInt 64 (a.toInt / 2 ^ k) := by
  rw [BitVec.sshiftRight, Int.shiftRight_eq_div_pow]
  push_cast
  rfl

/-- The number of set bits counts them one by one. -/
theorem popCount_eq (a : W64) : popCount a.toNat 64 = ((List.range 64).filter (fun k => a.getLsbD k)).length := rfl

/-- The leading zeros of n bits are the clear bits met from the top down. -/
theorem length_takeWhile_clear {x n : Nat} (h : x < 2 ^ n) : ((List.range n).reverse.takeWhile (fun k => !x.testBit k)).length = leadingZeros x n := by
  induction n with
  | zero => simp [leadingZeros, Nat.lt_one_iff.1 h]
  | succ n ih =>
    rw [List.range_succ, List.reverse_append, List.reverse_singleton, List.singleton_append, List.takeWhile_cons]
    by_cases hx : x < 2 ^ n
    · have shorter : x ≠ 0 → Nat.log2 x < n := fun h0 => (Nat.log2_lt h0).2 hx
      rw [Nat.testBit_lt_two_pow hx, Bool.not_false, if_pos rfl, List.length_cons, ih hx]
      unfold leadingZeros
      split_ifs with h0
      · rfl
      · have := shorter h0
        omega
    · have ne : x ≠ 0 := by rintro rfl; exact hx (Nat.two_pow_pos n)
      have top : Nat.log2 x = n := (Nat.log2_eq_iff ne).2 ⟨Nat.not_lt.1 hx, h⟩
      have set : x.testBit n = true := top ▸ Nat.testBit_log2 ne
      rw [set, Bool.not_true, if_neg Bool.false_ne_true, leadingZeros, if_neg ne, top, Nat.sub_self]
      rfl

/-- Settles O3, row by row; the leading zeros by the bits met from the top down. -/
theorem uniformLogic : Obligations.UniformLogic := by
  unfold Obligations.UniformLogic
  refine ⟨fun s q f g x => ?_, fun s q f g x => ⟨?_, ?_⟩, fun s q f g x => ?_⟩
  · intro a b n is
    exact ⟨writesW_of_uniform (exec_uand s x) rfl, writesW_of_uniform (exec_uor s x) rfl, writesW_of_uniform (exec_uxor s x) rfl,
      writesW_of_uniform (exec_uandn s x) rfl, writesW_of_uniform (exec_ushl s x) (shiftLeft_eq_mul _ _),
      writesW_of_uniform (exec_ushrN64 s x) (ushiftRight_eq_div _ _), writesW_of_uniform (exec_ushrI64 s x) (sshiftRight_eq_div _ _),
      writesW_of_uniform (exec_urot s x) rfl,
      writesW_of_uniform (exec_useq s x) (if_congr beq_iff_eq rfl rfl),
      writesW_of_uniform (exec_usne s x) ((if_congr bne_iff_ne rfl rfl).trans (ite_not _ _ _)),
      writesW_of_uniform (exec_usltI64 s x) (if_congr BitVec.slt_iff_toInt_lt rfl rfl),
      writesW_of_uniform (exec_usltN64 s x) (if_congr BitVec.ult_iff_toNat_lt rfl rfl),
      writesW_of_uniform (exec_usleI64 s x) (if_congr BitVec.sle_iff_toInt_le rfl rfl),
      writesW_of_uniform (exec_usleN64 s x) (if_congr BitVec.ule_iff_toNat_le rfl rfl)⟩
  · exact writesW_of (fun h => by rw [exec_upopc, execUpopc, running_issues h, popCount_eq])
  · exact writesW_of (fun h => by rw [exec_uclz, execUclz, running_issues h, ← length_takeWhile_clear (BitVec.isLt _)]; rfl)
  · exact writesW_of (fun h => by rw [exec_uins8, execUins8, running_issues h, BitVec.shiftLeft_eq_mul_twoPow]; rfl)

end Sys2Proof.Machine
end

section
/-! O4: predicate operations. -/
namespace Sys2Proof.Machine

/-- A predicate instruction writes its value in the lanes of its active set. -/
theorem writesP_of_predicate {s : State} {q : Issue} {f : Furrow} {g : Group} {i : Instr} {d : Fin 8} {value : Furrow → Mask} {v : Mask}
    (he : exec i s = predicate i d value s) (hv : value f = v) : WritesP s q f g i d.val v :=
  writesP_of (fun h => by rw [he, predicate, running_issues h, hv])

/-- The lanes below n (R197). -/
theorem maskOf_below (n : Nat) : maskOf (fun l => decide (l < n)) = BitVec.ofNat 32 (2 ^ n - 1) := by
  refine BitVec.eq_of_getLsbD_eq fun l hl => (inMask_maskOf _ hl).trans ?_
  rw [BitVec.getLsbD_ofNat, Nat.testBit_two_pow_sub_one, decide_eq_true hl, Bool.true_and]

/-- Settles O4: every row is a predicate instruction, and `plt` gives the lanes below its count. -/
theorem predicates : Obligations.Predicates := by
  unfold Obligations.Predicates
  intro s q f g
  exact ⟨fun x => ⟨writesP_of_predicate (exec_pand s x) rfl, writesP_of_predicate (exec_por s x) rfl, writesP_of_predicate (exec_pxor s x) rfl,
      writesP_of_predicate (exec_pandn s x) rfl⟩,
    fun x => writesP_of_predicate (exec_pnot s x) rfl,
    fun x => writesP_of_predicate (exec_plt s x) (maskOf_below _)⟩

end Sys2Proof.Machine
end

section
/-! O14: votes, value operations and shuffles. -/
namespace Sys2Proof.Machine

/-! ### Operations over the active set (R199, R200) -/

/-- What an operation over an active set that is not empty does: its change of the furrow, where that writes registers and raises no flag. -/
theorem does_of_overActive {s : State} {q : Issue} {f f1 : Furrow} {g : Group} {i : Instr} {k : Furrow → Mask → Furrow} (he : exec i s = overActive i s k)
    (hk : k f (f.activeSet i g) = f1) (hw : SameRun f f1 ∧ f1.fpenv = f.fpenv) (h : Issues s q f g i) (hm : f.activeSet i g ≠ 0)
    (hn : (NoSpill s q ∧ HitHolds s i f g (f.activeSet i g) false f1 0) ∨ vNames i.readsWrites.2 = []) : Does s q g i s f1 := by
  obtain ⟨r, hfp⟩ := hw
  have done : exec i s = s.done i q f1 g (f.activeSet i g) 0 := by
    rw [he, overActive, running_issues h]
    exact (if_neg hm).trans (by rw [hk])
  obtain ⟨t, ht, hc⟩ := done_completes h (f.activeSet i g) 0 none r (.inr (.inr (Nat.zero_and _)))
    (hn.elim (fun h => .inr (.inr ⟨h.1, hfp, h.2⟩)) .inl)
  rw [raise_zero] at hc
  exact ⟨t, done.trans ht, hc⟩

theorem fpenv_writeP (f : Furrow) (d : Nat) (m v : Mask) : (f.writeP d m v).fpenv = f.fpenv := by
  unfold Furrow.writeP
  dsimp only
  split
  · rfl
  · split <;> rfl

/-- The bits of a word read signed. -/
theorem sext_toNat (x : W32) : sext x.toNat 32 = x.toInt := by
  rw [sext, BitVec.toInt_eq_toNat_cond]
  have := x.isLt
  split_ifs <;> omega

theorem lt_of_mem_lanesOf {m : Mask} {l : Nat} (h : l ∈ lanesOf m) : l < 32 := List.mem_range.1 (List.mem_filter.1 h).1

theorem lowestLane_mem {m : Mask} (h : m ≠ 0) : lowestLane m ∈ lanesOf m := by
  obtain ⟨l, hl, hin⟩ := exists_inMask h
  have ne : lanesOf m ≠ [] := List.ne_nil_of_mem ((mem_lanesOf hl).2 hin)
  rw [lowestLane, List.headD_eq_head?_getD, List.head?_eq_some_head ne]
  exact List.head_mem ne

/-- A predicate that is true in every lane of a mask. -/
theorem and_eq_iff_all (m p : Mask) : m &&& p = m ↔ (lanesOf m).all (fun l => inMask p l) = true := by
  rw [List.all_eq_true]
  constructor
  · intro h l hl
    have hin := (mem_lanesOf (lt_of_mem_lanesOf hl)).1 hl
    rw [← h, inMask_and, Bool.and_eq_true] at hin
    exact hin.2
  · refine fun h => BitVec.eq_of_getLsbD_eq fun l hl => ?_
    change inMask (m &&& p) l = inMask m l
    rw [inMask_and]
    cases hin : inMask m l
    · rfl
    · exact h l ((mem_lanesOf hl).2 hin)

/-- A predicate that is true in some lane of a mask. -/
theorem and_ne_zero_iff_any (m p : Mask) : m &&& p ≠ 0 ↔ (lanesOf m).any (fun l => inMask p l) = true := by
  rw [List.any_eq_true]
  constructor
  · intro h
    obtain ⟨l, hl, hin⟩ := exists_inMask h
    rw [inMask_and, Bool.and_eq_true] at hin
    exact ⟨l, (mem_lanesOf hl).2 hin.1, hin.2⟩
  · rintro ⟨l, hm, hp⟩ h
    have hin : inMask (m &&& p) l = true := by rw [inMask_and, (mem_lanesOf (lt_of_mem_lanesOf hm)).1 hm, hp]; rfl
    rw [h, inMask_zero] at hin
    cases hin

/-- Elements all equal to that of the lowest lane are equal to each other. -/
theorem all_eq_lowest_iff {m : Mask} (h : m ≠ 0) (x : Nat → Nat) :
    (lanesOf m).all (fun l => x l == x (lowestLane m)) = true ↔ (lanesOf m).all (fun l => (lanesOf m).all (fun k => x l == x k)) = true := by
  simp only [List.all_eq_true, beq_iff_eq]
  exact ⟨fun e l hl k hk => (e l hl).trans (e k hk).symm, fun e l hl => e l hl _ (lowestLane_mem h)⟩

/-- A vote with its truth value spelled out. -/
theorem vote_eq {f : Furrow} {d : Nat} {m : Mask} {a b : Bool} (h : a = true ↔ b = true) : vote f d m a = f.writeP d m (if b then m else 0) := by
  rw [vote, Bool.eq_iff_iff.2 h]

/-- The element of a lane that `vfirst` delivers is its 32 bits sign-extended for `.i32`, and its bits for another type. -/
theorem vfirst_eq (f : Furrow) (x : LV) (m : Mask) :
    f.writeW x.d.val (if x.ty = .i32 then BitVec.ofInt 64 (sext (f.laneBits x.ty x.a.val (lowestLane m)) 32)
        else BitVec.ofNat 64 (f.laneBits x.ty x.a.val (lowestLane m)))
      = f.writeW x.d.val (if x.ty = .i32 then (f.laneOf x.a.val (lowestLane m)).signExtend 64
        else BitVec.ofNat 64 (f.laneBits x.ty x.a.val (lowestLane m))) := by
  by_cases ht : x.ty = .i32
  · have bits : f.laneBits x.ty x.a.val (lowestLane m) = (f.laneOf x.a.val (lowestLane m)).toNat := by rw [ht]; rfl
    rw [if_pos ht, if_pos ht, bits, sext_toNat]
    rfl
  · rw [if_neg ht, if_neg ht]

/-! ### Shuffles (R201) -/

/-- A shuffle gives each active lane the element of its source lane where that is active, and else its own. -/
theorem writesV_of_shuffle {s : State} {q : Issue} {f : Furrow} {g : Group} {i : Instr} {x : LV} {src : Nat → Nat → Int} (k : Nat → Int)
    (he : exec i s = shuffle i x src s) (hk : ∀ l, src (f.bIndex x.b l) l = k l) :
    WritesV s q f g i x.ty x.d.val (fun l =>
      (if 0 ≤ k l ∧ k l < 32 ∧ inMask (f.activeSet i g) (k l).toNat then f.laneBits x.ty x.a.val (k l).toNat else f.laneBits x.ty x.a.val l, 0)) := by
  refine vectorDone_writes (fun h => ?_)
  rw [he, shuffle, running_issues h]
  refine congrArg (vectorDone s i q f g x.ty x.d.val) (funext fun l => congrArg (Prod.mk · 0) ?_)
  simp only [hk]
  exact apply_ite (f.laneBits x.ty x.a.val) _ _ _

/-- Settles O14: each operation in the frame of R199, the votes by what their masks say of each lane, and each shuffle by its source lanes. -/
theorem votesAndShuffles : Obligations.VotesAndShuffles := by
  unfold Obligations.VotesAndShuffles
  refine ⟨fun s q f g x => ?_, fun s q f g x => ?_⟩
  · intro on
    have word : ∀ d v, SameRun f (f.writeW d v) ∧ (f.writeW d v).fpenv = f.fpenv := fun d v => ⟨sameRun_writeW f d v, fpenv_writeW f d v⟩
    have pred : ∀ d m v, SameRun f (f.writeP d m v) ∧ (f.writeP d m v).fpenv = f.fpenv := fun d m v => ⟨sameRun_writeP f d m v, fpenv_writeP f d m v⟩
    exact ⟨does_of_overActive (exec_vfirst s x) (vfirst_eq f x _) (word _ _), does_of_overActive (exec_vballot s x) rfl (word _ _),
      does_of_overActive (exec_psetw s x) rfl (pred _ _ _),
      does_of_overActive (exec_vall s x) (vote_eq (beq_iff_eq.trans (and_eq_iff_all _ _))) (pred _ _ _),
      does_of_overActive (exec_vany s x) (vote_eq (bne_iff_ne.trans (and_ne_zero_iff_any _ _))) (pred _ _ _),
      fun h hm => does_of_overActive (exec_vuni s x) (vote_eq (all_eq_lowest_iff hm _)) (pred _ _ _) h hm,
      does_of_overActive (exec_vlane s x) rfl ⟨sameRun_writeV f _ _ _, rfl⟩⟩
  · exact ⟨writesV_of_shuffle _ (exec_shflIdx s x) fun _ => rfl, writesV_of_shuffle _ (exec_shflUp s x) fun _ => rfl,
      writesV_of_shuffle _ (exec_shflDown s x) fun _ => rfl, writesV_of_shuffle _ (exec_shflXor s x) fun _ => rfl⟩

end Sys2Proof.Machine
end

section
/-! O15: reductions. -/
namespace Sys2Proof.Machine

/-! ### One value to every active lane (R202) -/

/-- A reduction writes one result of the active lanes' elements, in ascending order, to every active lane. -/
theorem writesV_of_reduction {s : State} {q : Issue} {f : Furrow} {g : Group} {i : Instr} {x : LV} {op : Furrow → List Nat → Nat × Nat}
    {r : List Nat → Nat × Nat} (he : exec i s = reduction i x op s) (hr : ∀ ys, op f ys = r ys) :
    WritesV s q f g i x.ty x.d.val (fun _ => r ((lanesOf (f.activeSet i g)).map (fun l => f.laneBits x.ty x.a.val l))) :=
  vectorDone_writes (fun h => by rw [he, reduction, running_issues h, hr]; rfl)

/-! ### Integer results -/

/-- The bits of an integer's value are its bits. -/
theorem wrap_intOf {t : Ty} {x : Nat} (h : x < 2 ^ t.width) : wrap (intOf t x) t.width = x := by
  have residue : intOf t x % 2 ^ t.width = x := by
    unfold intOf sext
    rw [Nat.mod_eq_of_lt h]
    have small : (x : Int) % 2 ^ t.width = x := Int.emod_eq_of_lt (by positivity) (by exact_mod_cast h)
    split
    · dsimp only
      split
      · rw [Int.sub_emod_right, small]
      · exact small
    · exact small
  rw [wrap]
  push_cast
  rw [residue]
  rfl

theorem isFloat_of_isInt {t : Ty} (h : t.isInt = true) : t.isFloat = false := by
  revert h
  cases t <;> decide

/-- The minimum of two integers, by their bits. -/
theorem combineBits_min {t : Ty} (ht : t.isInt = true) (rm : Mode) (ftz : Bool) {y x : Nat} (hy : y < 2 ^ t.width) (hx : x < 2 ^ t.width) :
    (combineBits .min t rm ftz y x).1 = if intOf t y ≤ intOf t x then y else x := by
  unfold combineBits
  rw [isFloat_of_isInt ht, if_neg Bool.false_ne_true]
  dsimp only
  rw [min_def, apply_ite (wrap · t.width), wrap_intOf hy, wrap_intOf hx]

/-- The maximum of two integers, by their bits. -/
theorem combineBits_max {t : Ty} (ht : t.isInt = true) (rm : Mode) (ftz : Bool) {y x : Nat} (hy : y < 2 ^ t.width) (hx : x < 2 ^ t.width) :
    (combineBits .max t rm ftz y x).1 = if intOf t x ≤ intOf t y then y else x := by
  unfold combineBits
  rw [isFloat_of_isInt ht, if_neg Bool.false_ne_true]
  dsimp only
  rw [max_def', apply_ite (wrap · t.width), wrap_intOf hy, wrap_intOf hx]

/-- Folding a choice by a total order of keys ends with an element of the list that comes first in it. -/
theorem foldl_first {le : Int → Int → Prop} [DecidableRel le] [Std.Total le] [IsTrans Int le] {key : Nat → Int} {bound : Nat} {op : Nat → Nat → Nat}
    (hop : ∀ a y, a < bound → y < bound → op a y = if le (key a) (key y) then a else y) (xs : List Nat) {x : Nat} (hx : x < bound)
    (hxs : ∀ y ∈ xs, y < bound) : xs.foldl op x ∈ x :: xs ∧ ∀ y ∈ x :: xs, le (key (xs.foldl op x)) (key y) := by
  induction xs generalizing x with
  | nil => exact ⟨List.mem_singleton_self x, fun y hy => List.mem_singleton.1 hy ▸ refl_of le (key x)⟩
  | cons z xs ih =>
    obtain ⟨hz, hzs⟩ := List.forall_mem_cons.1 hxs
    rw [List.foldl_cons, hop x z hx hz]
    by_cases h : le (key x) (key z)
    · rw [if_pos h]
      obtain ⟨hmem, hfirst⟩ := ih hx hzs
      obtain ⟨first_x, first_xs⟩ := List.forall_mem_cons.1 hfirst
      refine ⟨?_, List.forall_mem_cons.2 ⟨first_x, List.forall_mem_cons.2 ⟨trans_of le first_x h, first_xs⟩⟩⟩
      exact (List.mem_cons.1 hmem).elim (fun e => e.symm ▸ List.mem_cons_self) (fun m => List.mem_cons_of_mem _ (List.mem_cons_of_mem _ m))
    · rw [if_neg h]
      obtain ⟨hmem, hfirst⟩ := ih hz hzs
      have before : le (key z) (key x) := (total_of le (key x) (key z)).resolve_left h
      exact ⟨List.mem_cons_of_mem _ hmem, List.forall_mem_cons.2 ⟨trans_of le (hfirst z List.mem_cons_self) before, hfirst⟩⟩

/-- Settles O15: each row is a reduction, and the integer ones fold a choice by value. -/
theorem reductions : Obligations.Reductions := by
  unfold Obligations.Reductions
  refine ⟨fun s q f g x => ?_, fun t rm ftz sat x xs ht hx hxs => ?_⟩
  · intro xs is bits
    have spelled : ∀ op ys, ((ys.drop 1).foldl op (ys.headD 0), 0) = bits op ys := fun op ys => by cases ys <;> rfl
    have fold : ∀ k i, exec i s = foldReduction i x k s → is i (reduceBits k x.ty (f.rmode x.rm) f.ftz x.sat) := fun k i he =>
      writesV_of_reduction he fun _ => rfl
    have bitwise : ∀ op i, exec i s = bitReduction i x op s → is i (bits op) := fun op i he => writesV_of_reduction he (spelled op)
    exact ⟨fold _ _ (exec_vredAdd s x), fold _ _ (exec_vredMin s x), fold _ _ (exec_vredMax s x), bitwise _ _ (exec_vredAnd s x),
      bitwise _ _ (exec_vredOr s x), bitwise _ _ (exec_vredXor s x)⟩
  · have integer := isFloat_of_isInt ht
    refine ⟨?_, ?_, ?_⟩
    · rw [reduceBits, integer, if_neg Bool.false_ne_true]
    · simp only [reduceBits, integer, Bool.false_eq_true, if_false]
      exact foldl_first (le := (· ≤ ·)) (fun a y ha hy => combineBits_min ht rm ftz ha hy) xs hx hxs
    · simp only [reduceBits, integer, Bool.false_eq_true, if_false]
      exact foldl_first (le := (· ≥ ·)) (fun a y ha hy => combineBits_max ht rm ftz ha hy) xs hx hxs

end Sys2Proof.Machine
end

section
/-! O16: scans. -/
namespace Sys2Proof.Machine

/-! ### Results that matter in active lanes alone -/

theorem mergeV_active (o : VReg) {m : Mask} {a b : Nat → W32} (h : ∀ i, inMask m i = true → a i = b i) : mergeV o m a = mergeV o m b := by
  unfold mergeV
  refine congrArg vOfLanes (funext fun i => ?_)
  split
  · exact h i ‹_›
  · rfl

theorem writeV_active (f : Furrow) (d : Nat) {m : Mask} {a b : Nat → W32} (h : ∀ i, inMask m i = true → a i = b i) : f.writeV d m a = f.writeV d m b := by
  unfold Furrow.writeV; rw [mergeV_active _ h]

theorem writePair_active (f : Furrow) (d : Nat) {m : Mask} {a b : Nat → W64} (h : ∀ i, inMask m i = true → a i = b i) :
    f.writePair d m a = f.writePair d m b := by
  unfold Furrow.writePair
  rw [writeV_active f d (b := fun i => (b i).setWidth 32) (fun i hi => by rw [h i hi]),
    writeV_active _ (d + 1) (b := fun i => (b i >>> 32).setWidth 32) (fun i hi => by rw [h i hi])]

theorem writeLanes_active (f : Furrow) (t : Ty) (d : Nat) {m : Mask} {x y : Nat → Nat} (h : ∀ i, inMask m i = true → x i = y i) :
    f.writeLanes t d m x = f.writeLanes t d m y := by
  unfold Furrow.writeLanes
  split
  · exact writePair_active f d (fun i hi => by rw [h i hi])
  · exact writeV_active f d (fun i hi => by rw [h i hi])

theorem flagsOver_active {m : Mask} {x y : Nat → Nat} (h : ∀ i, inMask m i = true → x i = y i) : flagsOver m x = flagsOver m y :=
  List.foldl_ext _ _ _ (fun r i hi => by rw [h i (List.mem_filter.1 hi).2])

/-- A vector instruction's results in the other lanes are nowhere seen. -/
theorem WritesV.of_active {s : State} {q : Issue} {f : Furrow} {g : Group} {i : Instr} {t : Ty} {d : Nat} {r r' : Nat → Nat × Nat}
    (w : WritesV s q f g i t d r) (h : ∀ l, inMask (f.activeSet i g) l = true → r l = r' l) : WritesV s q f g i t d r' := by
  unfold WritesV at w ⊢
  rw [writeLanes_active f t d (y := fun l => (r' l).1) (fun l hl => by rw [h l hl]),
    flagsOver_active (y := fun l => (r' l).2) (fun l hl => by rw [h l hl])] at w
  exact w

/-! ### Running combinations (R204) -/

/-- The combination of the first n of some values, from y on. -/
def runOf (step : Nat → Nat → Nat × Nat) (y : Nat) (xs : List Nat) (n : Nat) : Nat := (xs.take n).foldl (fun y v => (step y v).1) y

/-- A scan's results and flags, from its running combinations. -/
theorem scanBits_eq (k : Fold) (t : Ty) (rm : Mode) (ftz ex : Bool) (y : Nat) (xs : List Nat) :
    scanBits k t rm ftz ex y xs =
      ((List.range xs.length).map (fun n => runOf (combineBits k t rm ftz) y xs (n + (if ex then 0 else 1))),
       (List.range xs.length).foldr (fun n a => (combineBits k t rm ftz (runOf (combineBits k t rm ftz) y xs n) (xs.getD n 0)).2 ||| a) 0) := by
  induction xs generalizing y with
  | nil => rfl
  | cons x xs ih =>
    rw [scanBits, ih, List.length_cons, List.range_succ_eq_map, List.map_cons, List.foldr_cons, List.map_map, List.foldr_map]
    cases ex <;> rfl

/-- A scan gives an active lane the running combination at its place among them. -/
theorem writesV_of_scan {s : State} {q : Issue} {f : Furrow} {g : Group} {i : Instr} {x : LV} {k : Fold} {ex : Bool} (he : exec i s = scan i x k ex s) :
    WritesV s q f g i x.ty x.d.val (f.scanned x (f.activeSet i g) k ex) := by
  refine (vectorDone_writes (fun h => (he.trans (by rw [scan, running_issues h])))).of_active fun l hl => ?_
  have place : ((lanesOf (f.activeSet i g)).filter (fun j => decide (j < l))).length < (activeElems f x (f.activeSet i g)).length := by
    rw [activeElems, List.length_map]
    exact List.length_filter_lt_length_iff_exists.2 ⟨l, (mem_lanesOf (BitVec.lt_of_getLsbD hl)).2 hl, by simp⟩
  rw [scanBits_eq]
  dsimp only
  rw [List.getElem?_map, List.getElem?_range place]
  rfl

/-- Settles O16: each row is a scan, whose running results are the combinations of the elements up to a lane's place. -/
theorem scans : Obligations.Scans := by
  unfold Obligations.Scans
  intro s q f g x
  exact ⟨writesV_of_scan (exec_vscanAdd s x), writesV_of_scan (exec_vscanMin s x), writesV_of_scan (exec_vscanMax s x),
    writesV_of_scan (exec_vscanxAdd s x), writesV_of_scan (exec_vscanxMin s x), writesV_of_scan (exec_vscanxMax s x)⟩

end Sys2Proof.Machine
end

section
/-! O18: calls and returns. -/
namespace Sys2Proof.Machine

/-! ### Stacks (R188, R189, R311) -/

@[simp] theorem Lane.depthAt_pushPc (l : Lane) (n : Nat) (pc : BitVec 24) : (l.pushPc n pc).depthAt n = l.depthAt n + 1 := by
  unfold Lane.pushPc Lane.depthAt
  split <;> rfl

@[simp] theorem Lane.depthAt_popPc (l : Lane) (n : Nat) : (l.popPc n).depthAt n = l.depthAt n - 1 := by
  unfold Lane.popPc Lane.depthAt
  split <;> rfl

@[simp] theorem Lane.stackAt_popPc (l : Lane) (n j : Nat) : (l.popPc n).stackAt n j = l.stackAt n j := by
  unfold Lane.popPc Lane.stackAt
  split <;> rfl

/-- A table of 16 entries after one is set. -/
theorem getElem_set_ofNat {α : Type} (v : Vector α 16) (x : α) {i j : Nat} (hi : i < 16) (hj : j < 16) :
    (v.set (Fin.ofNat 16 i) x)[Fin.ofNat 16 j] = if j = i then x else v[Fin.ofNat 16 j] := by
  have ei : (Fin.ofNat 16 i).val = i := Nat.mod_eq_of_lt hi
  have ej : (Fin.ofNat 16 j).val = j := Nat.mod_eq_of_lt hj
  simp only [Fin.getElem_fin, Vector.getElem_set, ei, ej, eq_comm]

theorem Lane.stackAt_pushPc (l : Lane) (n : Nat) (pc : BitVec 24) {j : Nat} (hd : l.depthAt n < 16) (hj : j < 16) :
    (l.pushPc n pc).stackAt n j = if j = l.depthAt n then pc else l.stackAt n j := by
  by_cases h : n = 0
  · simp only [Lane.pushPc, Lane.stackAt, Lane.depthAt, if_pos h] at hd ⊢
    exact getElem_set_ofNat _ _ hd hj
  · simp only [Lane.pushPc, Lane.stackAt, Lane.depthAt, if_neg h] at hd ⊢
    exact getElem_set_ofNat _ _ hd hj

@[simp] theorem Lane.status_pushPc (l : Lane) (n : Nat) (pc : BitVec 24) : (l.pushPc n pc).status = l.status := by
  unfold Lane.pushPc
  split <;> rfl

@[simp] theorem Lane.status_popPc (l : Lane) (n : Nat) : (l.popPc n).status = l.status := by
  unfold Lane.popPc
  split <;> rfl

/-! ### Transfers that change the lanes -/

/-- A change of lanes that leaves each lane's status. -/
theorem status_onLanes (f : Furrow) (m : Mask) {k : Nat → Lane → Lane} (hk : ∀ i l, (k i l).status = l.status) (l : Nat) (hl : l < 32) :
    (laneAt (f.onLanes m k).lanes l).status = (laneAt f.lanes l).status := by
  rw [Furrow.onLanes, laneAt_tableOf _ hl]
  split
  · exact hk _ _
  · rfl

/-- No lane of a mask meets a test that each of them fails. -/
theorem and_maskOf_eq_zero {m : Mask} {t : Nat → Bool} (h : ∀ l, l < 32 → inMask m l = true → t l = false) : m &&& maskOf t = 0 := by
  by_contra hn
  obtain ⟨l, hl, hin⟩ := exists_inMask hn
  rw [inMask_and, inMask_maskOf _ hl, Bool.and_eq_true] at hin
  exact Bool.false_ne_true ((h l hl hin.1).symm.trans hin.2)

/-- A call where every stack has room pushes the next word's PC in the lanes that it sends to its target. -/
theorem transfers_of_callTo {s : State} {q : Issue} {f : Furrow} {g : Group} {i : Instr} {pkt : Nat} (hw : i.words = 1)
    (room : ∀ l, l < 32 → inMask (f.activeSet i g) l = true → (laneAt f.lanes l).depthAt f.level < 16)
    (he : Issues s q f g i → exec i s = callTo i s q f g pkt) :
    Transfers s q f g i (f.onLanes (f.activeSet i g) (fun _ l => l.pushPc f.level (g.pc + 4)))
      (fun l => if inMask (f.activeSet i g) l then BitVec.ofNat 24 (12 * pkt) else g.pc + 4) := by
  refine transfers_of (sameRun_onLanes f _ _) (status_onLanes f _ fun _ l => l.status_pushPc _ _) (fun h => ?_)
  have free : f.activeSet i g &&& maskOf (fun l => decide (16 ≤ (laneAt f.lanes l).depthAt f.level)) = 0 :=
    and_maskOf_eq_zero fun l hl hin => decide_eq_false (Nat.not_le.2 (room l hl hin))
  rw [he h, callTo, free, branchTo, hw]
  exact if_neg fun hn => hn rfl

/-- A return above every lane's floor pops the PCs that it sends its lanes to. -/
theorem transfers_ret {s : State} {q : Issue} {f : Furrow} {g : Group} (x : SCg)
    (above : ∀ l, l < 32 → inMask (f.activeSet (.ret x) g) l = true → f.floorOf l < (laneAt f.lanes l).depthAt f.level) :
    Transfers s q f g (.ret x) (f.onLanes (f.activeSet (.ret x) g) (fun _ l => l.popPc f.level))
      (fun l => if inMask (f.activeSet (.ret x) g) l then (laneAt f.lanes l).stackAt f.level ((laneAt f.lanes l).depthAt f.level - 1)
        else g.pc + 4) := by
  refine transfers_of (sameRun_onLanes f _ _) (status_onLanes f _ fun _ l => l.status_popPc _) (fun h => ?_)
  have free : f.activeSet (.ret x) g &&& maskOf (fun l => decide ((laneAt f.lanes l).depthAt f.level ≤ f.floorOf l)) = 0 :=
    and_maskOf_eq_zero fun l hl hin => decide_eq_false (Nat.not_le.2 (above l hl hin))
  rw [exec_ret, execRet, running_issues h]
  dsimp only
  rw [free]
  exact if_neg fun hn => hn rfl

/-- Settles O18: calls and returns are transfers of control of the furrow with its stacks pushed or popped, and what each leaves of a stack. -/
theorem calls : Obligations.Calls := by
  unfold Obligations.Calls
  refine ⟨fun s q f g => ⟨fun x room => ?_, fun x ht room => ?_, fun x above => transfers_ret x above⟩, fun l n pc hd => ?_⟩
  · exact transfers_of_callTo rfl room (fun h => by rw [exec_call, execCall, running_issues h])
  · exact transfers_of_callTo rfl room (fun h => by rw [exec_callr, execCallr, withTarget_below h ht])
  · refine ⟨l.depthAt_pushPc n pc, ?_, fun j hj hne => ?_, ?_, l.stackAt_popPc n⟩
    · rw [l.stackAt_pushPc n pc hd hd, if_pos rfl]
    · rw [l.stackAt_pushPc n pc hd hj, if_neg hne]
    · rw [Lane.depthAt_popPc, Lane.depthAt_pushPc, Nat.add_sub_cancel]

end Sys2Proof.Machine
end

section
/-! O22: system calls and breakpoints. -/
namespace Sys2Proof.Machine

/-- An instruction that the lanes whose guard is true take as a trap below level 3 and as an illegal one there, and that retires where there is none. -/
theorem does_or_traps {s : State} {q : Issue} {f : Furrow} {g : Group} {i : Instr} {r : TrapReq} (h : Issues s q f g i)
    (he : exec i s = if f.activeSet i g = 0 then s.skip i q g
      else if f.level = 3 then trapNow s q g (f.activeSet i g) 0x20 0 else trapWith s q r) :
    (f.activeSet i g = 0 → Does s q g i s f) ∧ (f.activeSet i g ≠ 0 → f.level ≠ 3 → Traps s q f i r)
      ∧ (f.activeSet i g ≠ 0 → f.level = 3 → Traps s q f i (trapAt (f.activeSet i g) 0x20 0 g.pc)) :=
  ⟨fun hm => does_of_skip h rfl h.furrow (SameRun.refl f) rfl rfl (he.trans (if_pos hm)),
    fun hm hl => traps_of_trapIssue h (he.trans ((if_neg hm).trans (if_neg hl))),
    fun hm hl => traps_of_trapIssue h (he.trans ((if_neg hm).trans (if_pos hl)))⟩

/-- Settles O22: both rows retire, trap or are illegal by their guard and the level. -/
theorem systemCalls : Obligations.SystemCalls := by
  unfold Obligations.SystemCalls
  intro s q f g
  exact ⟨fun x h => does_or_traps h (by rw [exec_sysc, execSysc, running_issues h]; rfl),
    fun x h => does_or_traps h (by rw [exec_brk, execBrk, running_issues h]; rfl)⟩

end Sys2Proof.Machine
end

section
/-! O20: `exit` of a group that still keeps the active set of an access. -/
namespace Sys2Proof.Machine

/-- A group of lane 0 that keeps the wait of an access, whose active set names lane 1 as well. -/
def keepingGroup : Group := { lanes := 1, pc := 0, level := 0, wait := some (.access false 3 [] [] (.nop false)) }

/-- A furrow of that group alone, with lane 0 alone. -/
def keepingFurrow : Furrow :=
  { core := 0, slot := 0, field := 0, ix := 0, groups := [keepingGroup], lanes := (Vector.replicate 32 {}).set 0 { status := .live } }

/-- The group issues, and not to complete its access: nothing in the statement excludes it. -/
def keepingState : State := { State.reset with issue := some laneZeroIssue, furrows := [keepingFurrow] }

/-- `exit` in every lane. -/
def exitAll : SCg := { c := false, g := 7 }

theorem exitAll_issues : Issues keepingState laneZeroIssue keepingFurrow keepingGroup (.exit exitAll) where
  issue := rfl
  furrow := by decide +kernel
  group := by decide +kernel
  ahead := rfl
  step := rfl
  alone := rfl
  own := rfl
  lives := rfl
  block := by decide +kernel
  right := by decide +kernel

theorem keepingGroup_whole : WholeGroup keepingFurrow keepingGroup where
  live := by decide +kernel
  alone := by decide +kernel
  lanes := by decide +kernel

/-- The active set is the access's, lanes 0 and 1. -/
theorem exitAll_active : keepingFurrow.activeSet (.exit exitAll) keepingGroup = 3 := rfl

/-- No lane is left, and the furrow leaves its slot (R193). -/
theorem exitAll_leaves :
    ∃ t, exec (.exit exitAll) keepingState = .next t ∧ t.furrow? laneZeroIssue.core laneZeroIssue.slot = none :=
  ⟨_, rfl, by decide +kernel⟩

/-- Refutes O20: its second clause takes an active set that is neither empty nor the whole group for one that leaves some lane of the group running. A
group that waits for an access has the active set of that access (R4), and no hypothesis says that the group has none. Where that set names every lane of
the group and one more, all of the group's lanes exit, and the furrow is gone. -/
theorem not_exitedLanes : ¬ Obligations.ExitedLanes := by
  unfold Obligations.ExitedLanes
  intro h
  obtain ⟨-, goesOn, -⟩ := h keepingState laneZeroIssue keepingFurrow keepingGroup exitAll exitAll_issues keepingGroup_whole rfl
  rw [exitAll_active] at goesOn
  obtain ⟨t, f', ht, hf', -⟩ := goesOn (by decide) (by decide)
  obtain ⟨t', ht', gone⟩ := exitAll_leaves
  obtain rfl : t = t' := by rw [ht] at ht'; injection ht'
  rw [hf'] at gone
  cases gone

end Sys2Proof.Machine
end

section
/-! O12: compares, selections and classes (R222, R223). -/
namespace Sys2Proof.Machine

/-- An element-wise instruction whose operation reads of the furrow only what a statement names (R211). -/
theorem writesElems_of {s : State} {q : Issue} {f : Furrow} {g : Group} {i : Instr} {x : LV} {op' : Furrow → Nat → Nat → Nat → Nat × Nat}
    {op : Nat → Nat → Nat → Nat × Nat} (he : exec i s = elementwise i x s op') (hop : op' f = op) : WritesElems s q f g i x op :=
  hop ▸ elementwise_writes he

/-- A mask does not see what lies past lane 31. -/
theorem maskOf_congr {p r : Nat → Bool} (h : ∀ l, l < 32 → p l = r l) : maskOf p = maskOf r :=
  List.foldl_ext _ _ _ (fun m l hl => by rw [h l (List.mem_range.1 hl)])

/-- `vcmp` writes the conditions of its active lanes and raises their flags; no hit of the reuse table stands in for it, since it writes no `v` register. -/
theorem vcmp_does {s : State} {q : Issue} {f : Furrow} {g : Group} {cc : Cc} {x : LV} {r : Nat → Bool × Nat}
    (hr : (fun l => condition f cc x.ty (elem x.ty (f.laneBits x.ty x.a.val l) 0) (f.bElem x.ty x.b l 0)) = r)
    (h : Issues s q f g (.vcmp cc x)) (hm : f.activeSet (.vcmp cc x) g ≠ 0)
    (ht : flagsOver (f.activeSet (.vcmp cc x) g) (fun l => (r l).2) &&& f.trapEnables = 0) :
    Does s q g (.vcmp cc x) s ((f.writeP x.d.val (f.activeSet (.vcmp cc x) g) (maskOf (fun l => (r l).1))).raise
      (flagsOver (f.activeSet (.vcmp cc x) g) (fun l => (r l).2))) := by
  have run := exec_vcmp_done h hm
  dsimp only at run
  rw [hr, maskOf_congr (r := fun l => (r l).1) (fun l hl => by rw [laneAt_tableOf r hl]),
    flagsOver_congr _ (y := fun l => (r l).2) (fun l hl => by rw [laneAt_tableOf r hl])] at run
  have enables : (f.writeP x.d.val (f.activeSet (.vcmp cc x) g) (maskOf (fun l => (r l).1))).trapEnables = f.trapEnables := by
    rw [Furrow.trapEnables, fpenv_writeP]; rfl
  obtain ⟨t, done, hc⟩ := done_completes h (f.activeSet (.vcmp cc x) g) _ none (sameRun_writeP f x.d.val _ _) (.inr (.inr (enables ▸ ht))) (.inl rfl)
  exact ⟨t, run.trans done, hc⟩

/-- Integers compare by value, and no flag rises (R222). -/
theorem condition_integer (f : Furrow) (cc : Cc) {t : Ty} (a b : Nat) (ht : t.isInt = true) : condition f cc t a b = (icmp cc (intOf t a) (intOf t b), 0) :=
  if_pos ht

/-- With a NaN, only `ne` and `uno` hold; NV rises for a signalling NaN, and for any NaN under an ordering (R222). -/
theorem fcmpNum_nan (cc : Cc) {a b : Num} (h : a.isNan = true ∨ b.isNan = true) :
    fcmpNum cc a b =
      (cc == .ne || cc == .uno, if anySnan [a, b] || cc == .lt || cc == .le || cc == .gt || cc == .ge then flNV else 0) := by
  have nan : (a.isNan || b.isNan) = true := Bool.or_eq_true_iff.2 h
  unfold fcmpNum
  simp only [nan, Bool.true_and, Bool.or_assoc]
  cases cc <;> rfl

/-- Settles O12: `vcmp` by its one completion, the other rows in the frame of R211, and the conditions of integers and of NaNs. -/
theorem comparesAndSelects : Obligations.ComparesAndSelects := by
  unfold Obligations.ComparesAndSelects
  refine ⟨fun s q f g cc x => ⟨fun h hm ht => vcmp_does rfl h hm ht, writesElems_of (exec_vset s cc x) rfl,
      vectorDone_writes (fun h => by rw [exec_vsel, execVsel, running_issues h]), writesElems_of (exec_vfclass s x) rfl⟩,
    fun f cc t a b ht hord huno => ?_, fun f cc t a b ht hnan => ?_⟩
  · rw [condition_integer f cc a b ht]
    cases cc with
    | ord => exact absurd rfl hord
    | uno => exact absurd rfl huno
    | ne => exact congrArg (Prod.mk · 0) (Bool.eq_iff_iff.2 (bne_iff_ne.trans decide_eq_true_iff.symm))
    | eq | lt | le | gt | ge => rfl
  · rw [condition, ht, if_neg Bool.false_ne_true, fcmpNum_nan cc hnan]

end Sys2Proof.Machine
end

section
/-! O9: the floating-point rows (R218 to R221, R203). -/
namespace Sys2Proof.Machine

/-- A row of R218 reads its operands through operand() and gives every element its one result (R211). -/
theorem floatRow_writes {s : State} {q : Issue} {f : Furrow} {g : Group} {i : Instr} {x : LV} {op : Ty → Mode → Bool → Num → Num → Num → Nat × Nat}
    {r : Num → Num → Num → Nat × Nat} (he : exec i s = floatRow i x op s) (hr : op x.ty (f.rmode x.rm) f.ftz = r) :
    WritesV s q f g i x.ty x.d.val (f.floatLane x r) :=
  hr ▸ elementwise_writes (op := fun u a b c =>
    op x.ty (u.rmode x.rm) u.ftz (operandNum x.ty u.ftz a) (operandNum x.ty u.ftz b) (operandNum x.ty u.ftz c)) he

/-- Settles O9: each row of `floatOps` is such a row; the sign operations and `vfscale` are element-wise instructions of their own. -/
theorem vectorFloat : Obligations.VectorFloat := by
  unfold Obligations.VectorFloat
  intro s q f g x
  refine ⟨?_, writesElems_of (exec_vfabs s x) rfl, writesElems_of (exec_vfneg s x) rfl, writesElems_of (exec_vfscale s x) rfl⟩
  simp only [floatOps, List.forall_mem_cons]
  exact ⟨floatRow_writes (exec_vfadd s x) rfl, floatRow_writes (exec_vfsub s x) rfl, floatRow_writes (exec_vfmul s x) rfl, floatRow_writes (exec_vfma s x) rfl,
    floatRow_writes (exec_vfms s x) rfl, floatRow_writes (exec_vfnma s x) rfl, floatRow_writes (exec_vfdiv s x) rfl, floatRow_writes (exec_vfsqrt s x) rfl,
    floatRow_writes (exec_vfmin s x) rfl, floatRow_writes (exec_vfmax s x) rfl, floatRow_writes (exec_vfrint s x) rfl, List.forall_mem_nil _⟩

end Sys2Proof.Machine
end

section
/-! O13: conversions, E2M1S packing, scales and transcendentals (R226 to R233). -/
namespace Sys2Proof.Machine

/-! ### Packing and unpacking (R229, R230) -/

/-- The four codes that `packHalf` puts together, and the flags they raise. -/
theorem fold_packCodes (e : Nat → Nat × Nat) :
    (List.range 4).foldl (fun (acc : Nat × Nat) k => (acc.1 + (e k).1 * 2 ^ (4 * k), acc.2 ||| (e k).2)) (0, 0) =
      ((((List.range 4).map e).map Prod.fst).foldr (fun y n => y + 16 * n) 0, (((List.range 4).map e).map Prod.snd).foldl (fun a y => a ||| y) 0) := by
  simp only [show List.range 4 = [0, 1, 2, 3] from rfl, List.foldl_cons, List.foldl_nil, List.map_cons, List.map_nil, List.foldr_cons, List.foldr_nil,
    Prod.mk.injEq, and_true]
  ring

/-- `vpklo` and `vpkhi` write one half of each active lane. -/
theorem packHalf_writes {s : State} {q : Issue} {f : Furrow} {g : Group} {i : Instr} {x : LV} {half : Nat} (he : exec i s = packHalf i x half s) :
    WritesV s q f g i .n32 x.d.val (f.packHalf x half) := by
  refine vectorDone_writes (fun h => ?_)
  rw [he, packHalf, running_issues h]
  refine congrArg (vectorDone s i q f g .n32 x.d.val) (funext fun l => ?_)
  dsimp only
  rw [Furrow.packHalf, fold_packCodes (fun k => encodeE2m1s (decodeNum .f32 (f.laneOf (x.a.val + k) l).toNat) (blockMeta f x.b l).1 (blockMeta f x.b l).2)]

/-- Writes of `v` registers one after another change neither the run of the furrow nor `FPENV`. -/
theorem run_writeEach (f : Furrow) (ks : List Nat) (d : Nat) (m : Mask) (y : Nat → Nat → W32) :
    SameRun f (ks.foldl (fun (v : Furrow) k => v.writeV (d + k) m (y k)) f) ∧ (ks.foldl (fun (v : Furrow) k => v.writeV (d + k) m (y k)) f).fpenv = f.fpenv := by
  induction ks generalizing f with
  | nil => exact ⟨SameRun.refl f, rfl⟩
  | cons k ks ih =>
    obtain ⟨run, env⟩ := ih (f.writeV (d + k) m (y k))
    exact ⟨(sameRun_writeV f (d + k) m (y k)).trans run, env⟩

/-- What `vupklo` and `vupkhi` answer where their active set is not empty: the four registers written, and the flags of the active lanes. -/
theorem unpackHalf_done {s : State} {q : Issue} {f : Furrow} {g : Group} {i : Instr} {x : LV} {half : Nat} (he : exec i s = unpackHalf i x half s)
    (h : Issues s q f g i) (hm : f.activeSet i g ≠ 0) :
    exec i s = s.done i q (f.unpack x half (f.activeSet i g)).1 g (f.activeSet i g) (f.unpack x half (f.activeSet i g)).2 := by
  rw [he, unpackHalf, running_issues h]
  refine (if_neg hm).trans (congrArg₂ (fun u fl => s.done i q u g (f.activeSet i g) fl) ?_ ?_)
  · refine List.foldl_ext _ (fun (v : Furrow) k => v.writeV (x.d.val + k) (f.activeSet i g) (fun l => BitVec.ofNat 32 (f.unpacked x half k l).1)) _
      (fun v k hk => writeV_congr v _ _ (fun l hl => ?_))
    dsimp only
    rw [laneAt_tableOf _ hl, List.getElem?_map, List.getElem?_range (List.mem_range.1 hk)]
    rfl
  · refine flagsOver_congr _ (fun l hl => ?_)
    rw [laneAt_tableOf _ hl, List.foldl_map]
    rfl

/-- They write a quadruple of registers and raise the flags of the active lanes. -/
theorem unpackHalf_does {s : State} {q : Issue} {f : Furrow} {g : Group} {i : Instr} {x : LV} {half : Nat} (he : exec i s = unpackHalf i x half s)
    (h : Issues s q f g i) (hm : f.activeSet i g ≠ 0) (hn : NoSpill s q)
    (hh : HitHolds s i f g (f.activeSet i g) false (f.unpack x half (f.activeSet i g)).1 (f.unpack x half (f.activeSet i g)).2)
    (ht : (f.unpack x half (f.activeSet i g)).2 &&& f.trapEnables = 0) :
    Does s q g i s ((f.unpack x half (f.activeSet i g)).1.raise (f.unpack x half (f.activeSet i g)).2) := by
  obtain ⟨run, env⟩ := run_writeEach f (List.range 4) x.d.val (f.activeSet i g) (fun k l => BitVec.ofNat 32 (f.unpacked x half k l).1)
  have enables : (f.unpack x half (f.activeSet i g)).1.trapEnables = f.trapEnables := by rw [Furrow.trapEnables, Furrow.unpack, env]; rfl
  obtain ⟨t, done, hc⟩ := done_completes h (f.activeSet i g) (f.unpack x half (f.activeSet i g)).2 none run (.inr (.inr (enables ▸ ht)))
    (.inr (.inr ⟨hn, env, hh⟩))
  exact ⟨t, (unpackHalf_done he h hm).trans done, hc⟩

/-- A transcendental gives every element its result, whatever the free value behind it (R232, log 6). -/
theorem transcendental_writes {s : State} {q : Issue} {f : Furrow} {g : Group} {i : Instr} {x : LV} {n : Nat} (he : exec i s = transcendentalRow i x n s) :
    WritesElems s q f g i x (fun a _ _ => transNum n x.ty a f.ftz) :=
  elementwise_writes (op := fun u a _ _ => transNum n x.ty a u.ftz) he

/-- Settles O13: every row in the frame of R211 but the unpacking ones, which write a quadruple. -/
theorem conversions : Obligations.Conversions := by
  unfold Obligations.Conversions
  refine ⟨fun s q f g x => ⟨vectorDone_writes (fun h => ?_), packHalf_writes (exec_vpklo s x), packHalf_writes (exec_vpkhi s x),
      ⟨unpackHalf_does (exec_vupklo s x), unpackHalf_does (exec_vupkhi s x)⟩, vectorDone_writes (fun h => ?_)⟩, fun s q f g x => ?_⟩
  · rw [exec_vcvt, execVcvt, running_issues h]
    rfl
  · rw [exec_vscl, execVscl, running_issues h]
  · exact ⟨transcendental_writes (exec_vrcp s x), transcendental_writes (exec_vrsqrt s x), transcendental_writes (exec_vexp2 s x),
      transcendental_writes (exec_vlog2 s x), transcendental_writes (exec_vsinpi s x), transcendental_writes (exec_vcospi s x),
      transcendental_writes (exec_vtanh s x)⟩

end Sys2Proof.Machine
end

section
/-! O8: bit patterns, shifts, rotations, counts and bit fields (R214, R216, R217). -/
namespace Sys2Proof.Machine

/-! ### Rotation, reversal and counts, bit by bit -/

theorem rotateBits_testBit {n a j k : Nat} (ha : a < 2 ^ n) (hj : j < n) (hk : k < n) :
    (rotateBits n a k).testBit j = a.testBit ((j + k) % n) := by
  rw [rotateBits, Nat.testBit_or, Nat.testBit_shiftRight, Nat.testBit_mod_two_pow, Nat.testBit_shiftLeft, decide_eq_true hj, Bool.true_and]
  by_cases low : j + k < n
  · rw [Nat.mod_eq_of_lt low, Nat.add_comm k j, decide_eq_false (by omega), Bool.false_and, Bool.or_false]
  · have wrapped : (j + k) % n = j - (n - k) := by rw [Nat.mod_eq_sub_mod (by omega), Nat.mod_eq_of_lt (by omega)]; omega
    have above : a.testBit (k + j) = false := Nat.testBit_lt_two_pow (ha.trans_le (Nat.pow_le_pow_right (by norm_num) (by omega)))
    rw [wrapped, above, Bool.false_or, decide_eq_true (by omega), Bool.true_and]

/-- One more bit reversed goes below the others. -/
theorem reverseBits_succ (n a : Nat) : reverseBits (n + 1) a = Nat.bit (a.testBit n) (reverseBits n a) := by
  have doubled : (List.range n).foldl (fun r j => if a.testBit j then r + 2 ^ (n + 1 - 1 - j) else r) 0 = 2 * reverseBits n a := by
    refine (List.foldl_ext _ (fun r j => if a.testBit j then r + 2 * 2 ^ (n - 1 - j) else r) 0 (fun r j hj => ?_)).trans
      (List.foldl_hom (2 * ·) (init := 0) (fun r j => ?_))
    · have := List.mem_range.1 hj
      rw [← pow_succ', show n - 1 - j + 1 = n + 1 - 1 - j by omega]
    · split <;> ring
  rw [reverseBits, List.range_succ, List.foldl_append, doubled, List.foldl_cons, List.foldl_nil, Nat.bit_val, Nat.add_sub_cancel, Nat.sub_self]
  cases a.testBit n <;> rfl

theorem reverseBits_testBit {n j : Nat} (a : Nat) (hj : j < n) : (reverseBits n a).testBit j = a.testBit (n - 1 - j) := by
  induction n generalizing j with
  | zero => omega
  | succ n ih =>
    rw [reverseBits_succ]
    cases j with
    | zero => exact Nat.testBit_bit_zero _ _
    | succ j =>
      rw [Nat.testBit_bit_succ, ih (by omega)]
      exact congrArg a.testBit (by omega)

/-- The bits above the leading zeros: the topmost of them is set, unless there is none. -/
theorem leadingZeros_spec {n a : Nat} (ha : a < 2 ^ n) :
    leadingZeros a n ≤ n ∧ (∀ j, n - leadingZeros a n ≤ j → a.testBit j = false)
      ∧ (leadingZeros a n < n → a.testBit (n - 1 - leadingZeros a n) = true) := by
  unfold leadingZeros
  by_cases h0 : a = 0
  · rw [if_pos h0, h0]
    exact ⟨le_rfl, fun j _ => Nat.zero_testBit j, fun h => absurd h (lt_irrefl n)⟩
  · rw [if_neg h0]
    have top : Nat.log2 a < n := (Nat.log2_lt h0).2 ha
    refine ⟨Nat.sub_le _ _, fun j hj => Nat.testBit_lt_two_pow ((Nat.log2_lt h0).1 (by omega)), fun _ => ?_⟩
    rw [show n - 1 - (n - (Nat.log2 a + 1)) = Nat.log2 a by omega]
    exact Nat.testBit_log2 h0

theorem popCount_succ (a n : Nat) : popCount a (n + 1) = a % 2 + popCount (a / 2) n := by
  have shifted : (fun k => a.testBit k) ∘ Nat.succ = fun k => (a / 2).testBit k := funext fun k => Nat.testBit_succ a k
  rw [popCount, List.range_succ_eq_map, List.filter_cons, List.filter_map, shifted, Nat.testBit_zero]
  rcases Nat.mod_two_eq_zero_or_one a with h | h
  · rw [h, if_neg (by decide), List.length_map, Nat.zero_add]
    rfl
  · rw [h, if_pos (by decide), List.length_cons, List.length_map, Nat.add_comm]
    rfl

theorem popCount_eq_sum_digits {n a : Nat} (ha : a < 2 ^ n) : popCount a n = (Nat.digits 2 a).sum := by
  induction n generalizing a with
  | zero => rw [Nat.lt_one_iff.1 ha]; rfl
  | succ n ih =>
    rw [popCount_succ, ih (by rw [pow_succ] at ha; omega)]
    rcases Nat.eq_zero_or_pos a with rfl | pos
    · rfl
    · rw [Nat.digits_def' one_lt_two pos, List.sum_cons]

/-! ### Bit fields (R217) -/

/-- The low n bits read signed are those of the n-bit word. -/
theorem sext_eq_toInt (x n : Nat) : sext x n = (BitVec.ofNat n x).toInt := by
  rw [sext, BitVec.toInt_eq_toNat_cond, BitVec.toNat_ofNat]
  rcases n with _ | n
  · simp [Nat.mod_one]
  · have half : 2 ^ (n + 1) = 2 * 2 ^ n := pow_succ' 2 n
    have cond : (n + 1 ≠ 0 ∧ 2 ^ (n + 1 - 1) ≤ x % 2 ^ (n + 1)) ↔ ¬ 2 * (x % 2 ^ (n + 1)) < 2 ^ (n + 1) := by
      rw [Nat.add_sub_cancel, half]
      omega
    rw [if_congr cond rfl rfl, ite_not]
    push_cast
    rfl

/-- Wrapping a word's signed value extends its sign. -/
theorem wrap_toInt {w : Nat} (a : BitVec w) (n : Nat) : wrap a.toInt n = (a.signExtend n).toNat := (BitVec.toNat_ofInt a.toInt).symm

/-- The signed extraction as operations on words: the arithmetic shift, the field, and its sign extended. -/
theorem signedField_eq (n a pos len : Nat) :
    wrap (sext (wrap (sext a n / 2 ^ pos) len) len) n = ((((BitVec.ofNat n a).sshiftRight pos).signExtend len).signExtend n).toNat := by
  have shifted : sext a n / 2 ^ pos = ((BitVec.ofNat n a).sshiftRight pos).toInt := by
    rw [BitVec.toInt_sshiftRight, Int.shiftRight_eq_div_pow, sext_eq_toInt]
    push_cast
    rfl
  rw [shifted, wrap_toInt, sext_eq_toInt, wrap_toInt, BitVec.ofNat_toNat, BitVec.setWidth_eq]

/-- Bit j of a sign-extended word is its bit j, or its top bit past the end. -/
theorem getLsbD_signExtend_min {w : Nat} (hw : 0 < w) (a : BitVec w) {v j : Nat} (hj : j < v) :
    (a.signExtend v).getLsbD j = a.getLsbD (min j (w - 1)) := by
  rw [BitVec.getLsbD_signExtend, decide_eq_true hj, Bool.true_and]
  split
  · rw [min_eq_left (by omega)]
  · rw [BitVec.msb_eq_getLsbD_last, min_eq_right (by omega)]

theorem getLsbD_sshiftRight_min {w : Nat} (a : BitVec w) (pos : Nat) {j : Nat} (hj : j < w) :
    (a.sshiftRight pos).getLsbD j = a.getLsbD (min (pos + j) (w - 1)) := by
  rw [BitVec.getLsbD_sshiftRight, decide_eq_false (by omega), Bool.not_false, Bool.true_and]
  split
  · rw [min_eq_left (by omega)]
  · rw [BitVec.msb_eq_getLsbD_last, min_eq_right (by omega)]

theorem signedField_testBit {n a pos len j : Nat} (hlen : len ≠ 0) (hj : j < n) :
    (wrap (sext (wrap (sext a n / 2 ^ pos) len) len) n).testBit j = a.testBit (min (pos + min j (len - 1)) (n - 1)) := by
  rw [signedField_eq, BitVec.testBit_toNat, getLsbD_signExtend_min (by omega) _ hj, getLsbD_signExtend_min (by omega) _ (by omega),
    min_eq_left (show min j (len - 1) ≤ n - 1 by omega), getLsbD_sshiftRight_min _ _ (by omega), BitVec.getLsbD_ofNat, decide_eq_true (by omega),
    Bool.true_and]

theorem extractBits_testBit (t : Ty) (a b j : Nat) (hj : j < t.width) :
    (extractBits t a b).testBit j = (decide (min (b / 256 % 256) t.width ≠ 0) &&
      if t.isSigned then a.testBit (min (min (b % 256) t.width + min j (min (b / 256 % 256) t.width - 1)) (t.width - 1))
      else decide (j < min (b / 256 % 256) t.width) && a.testBit (min (b % 256) t.width + j)) := by
  unfold extractBits
  dsimp only
  generalize min (b / 256 % 256) t.width = len
  generalize min (b % 256) t.width = pos
  by_cases hlen : len = 0
  · rw [if_pos hlen, decide_eq_false (not_not.2 hlen), Nat.zero_testBit, Bool.false_and]
  rw [if_neg hlen, decide_eq_true hlen, Bool.true_and]
  by_cases signed : t.isSigned = true
  · rw [if_pos signed, if_pos signed, intOf, if_pos signed, signedField_testBit hlen hj]
  · rw [if_neg signed, if_neg signed, Nat.testBit_mod_two_pow, Nat.testBit_shiftRight]

theorem insertBits_testBit (n a b c j : Nat) (hj : j < n) :
    (insertBits n a b c).testBit j =
      if min (b % 256) n ≤ j ∧ j < min (b % 256) n + min (b / 256 % 256) n then a.testBit (j - min (b % 256) n) else c.testBit j := by
  unfold insertBits
  dsimp only
  generalize min (b / 256 % 256) n = len
  have hpos : min (b % 256) n ≤ n := Nat.min_le_right _ _
  generalize min (b % 256) n = pos at hpos ⊢
  have fields : ∀ k, (c >>> (pos + k)) * 2 ^ (pos + k) + (a % 2 ^ k) * 2 ^ pos + c % 2 ^ pos =
      2 ^ pos * (2 ^ k * (c >>> (pos + k)) + a % 2 ^ k) + c % 2 ^ pos := fun k => by ring
  rw [fields, Nat.testBit_two_pow_mul_add _ (Nat.mod_lt _ (Nat.two_pow_pos _)), Nat.testBit_two_pow_mul_add _ (Nat.mod_lt _ (Nat.two_pow_pos _)),
    Nat.testBit_mod_two_pow, Nat.testBit_mod_two_pow, Nat.testBit_shiftRight]
  by_cases below : j < pos
  · rw [if_pos below, if_neg (by omega), decide_eq_true below, Bool.true_and]
  rw [if_neg below]
  by_cases inside : j < pos + len
  · rw [if_pos (by omega), if_pos (by omega), decide_eq_true (by omega), Bool.true_and]
  · rw [if_neg (by omega), if_neg (by omega)]
    exact congrArg c.testBit (by omega)

/-! ### The rows -/

/-- A row on bit patterns writes its result, kept to the element's width, and raises no flag. -/
theorem bitRow_writes {s : State} {q : Issue} {f : Furrow} {g : Group} {i : Instr} {x : LV} {op : Nat → Nat → Nat} (he : exec i s = bitRow i x op s) :
    WritesElems s q f g i x (fun a b _ => (op a b % 2 ^ x.ty.width, 0)) :=
  elementwise_writes (op := fun _ a b _ => (op a b % 2 ^ x.ty.width, 0)) he

/-- Settles O8: the rows in the frame of R211, and what the operations on bits do bit by bit. -/
theorem vectorBits : Obligations.VectorBits := by
  unfold Obligations.VectorBits
  refine ⟨fun s q f g x => ?_, fun n a _ ha => ?_, fun t a b j hj _ => extractBits_testBit t a b j hj, fun n a b c j hj _ => insertBits_testBit n a b c j hj⟩
  · have shl : exec (.vshl x) s = bitRow (.vshl x) x (fun a b => a * 2 ^ (b % x.ty.width)) s :=
      (exec_vshl s x).trans (by simp only [execVshl, Nat.shiftLeft_eq])
    exact ⟨bitRow_writes (exec_vand s x), bitRow_writes (exec_vor s x), bitRow_writes (exec_vxor s x), bitRow_writes (exec_vandn s x),
      bitRow_writes (exec_vnot s x), bitRow_writes shl, writesElems_of (exec_vshr s x) rfl, bitRow_writes (exec_vrot s x),
      bitRow_writes (exec_vpopc s x), bitRow_writes (exec_vclz s x), bitRow_writes (exec_vbrev s x), bitRow_writes (exec_vbfe s x),
      writesElems_of (exec_vbfi s x) rfl, bitRow_writes (exec_vmov s x)⟩
  · exact ⟨fun j k hj hk => rotateBits_testBit ha hj hk, fun j hj => reverseBits_testBit a hj, leadingZeros_spec ha, popCount_eq_sum_digits ha⟩

end Sys2Proof.Machine
end

section
/-! O29: an access whose first lane's walk hands on the token that its second lane's walk needs, and rolls back a furrow that runs ahead. -/
namespace Sys2Proof.Machine

/-- The group whose lanes 0 and 1 load. -/
def walkingGroup : Group := { lanes := 3, pc := 0, level := 0 }

/-- Its furrow: both lanes load from address 0. -/
def walkingFurrow : Furrow := { core := 1, slot := 0, field := 0, ix := 0, groups := [walkingGroup] }

/-- A neighbour of the quarter that runs ahead of a speculative fence: it has read sector 0, and has written 5 to `v4`, which held 0. -/
def readerAhead : Furrow :=
  { core := 1, slot := 1, field := 0, ix := 1, groups := [{ lanes := 1, pc := 16, level := 0 }], v := (Vector.replicate 128 0).set 4 5,
    spec := some { v := Vector.replicate 128 0, unnamed := [], kept := [4], clause := none, fpenv := 0, fencePc := 0, nextPc := 8, scope := .pkg,
                   lanes := 1, readSet := [0], heldTrap := none } }

/-- The sector of the page-table root, all 0: die 0 holds one token of it, has read under a request of its own, and owes it to die 1, whose request to
write it has queued (R389). -/
def rootSector : Sector :=
  { pa := 0, holders := [
      { agent := 0, n := 1, valid := true, req := some { write := false, attempt := 0, sentAt := 0, age := 0, core := 1 }, forwards := [(1, true, 0)] },
      { agent := 8, n := 7, own := true, valid := true }] }

/-- The load issues. -/
def loadIssue : Issue := { core := 1, slot := 0, lanes := 3 }

def owingState : State :=
  { State.reset with issue := some loadIssue, furrows := [walkingFurrow, readerAhead], ctxs := [{ ctx := 0 }], cores := [{ ix := 1 }], sectors := [rootSector] }

/-- `ld.n32 v4, [w0 + 0]`. -/
def firstLoad : LM :=
  { c := false, d := 4, a := 0, b := .imm 0, c3 := 0, g := 7, am := false, scl := 0, x2 := false, ty := .n32, scope := .thread, vol := false }

theorem firstLoad_issues : Issues owingState loadIssue walkingFurrow walkingGroup (.ld firstLoad) where
  issue := rfl
  furrow := by decide +kernel
  group := by decide +kernel
  ahead := rfl
  step := rfl
  alone := rfl
  own := rfl
  lives := rfl
  block := by decide +kernel
  right := by decide +kernel

/-- The checks of its lanes. -/
def firstLoadChecks : State × List LaneAcc :=
  State.checkLanes walkingFurrow 4 1 {} (fun _ _ => false) (walkingFurrow.eaOf firstLoad)
    (lanesOf (walkingFurrow.activeSet (.ld firstLoad) walkingGroup)) owingState

/-- Lane 0 meets an entry that is not valid; the token that its read held on goes to die 1, and lane 1's walk waits for it. -/
theorem firstLoad_waits : firstRank firstLoadChecks.2 = some waitRank := by decide +kernel

/-- With the token goes what the neighbour has read ahead: it rolls back (R146), and its registers change. -/
theorem firstLoad_rolls_back :
    ∃ t, exec (.ld firstLoad) owingState = .next t ∧ ((t.regs? 1 1).map (·.v) ≠ (owingState.regs? 1 1).map (·.v)) :=
  ⟨_, rfl, by decide +kernel⟩

/-- Refutes O29: where a check waits for a walk's tokens, its second clause says that the other furrows keep their registers, and no hypothesis says
that none runs ahead of a speculative fence. A walk that reads a sector answers the forwards queued for it (R389); the die loses its token, which the
next lane's walk then waits for, and a furrow that has read the sector ahead of its fence rolls back (R146). -/
theorem not_accessTraps : ¬ Obligations.AccessTraps := by
  unfold Obligations.AccessTraps
  rintro ⟨-, faults, -⟩
  obtain ⟨-, waits⟩ := faults owingState firstLoadChecks.1 loadIssue walkingFurrow walkingGroup (.ld firstLoad) 4 1 waitRank {} (fun _ _ => false)
    (walkingFurrow.eaOf firstLoad) firstLoadChecks.2 (.inl ⟨firstLoad, by decide, rfl, rfl, rfl, rfl, rfl⟩) firstLoad_issues rfl (by decide +kernel) rfl
    firstLoad_waits
  obtain ⟨w, waits⟩ := waits rfl
  obtain ⟨t, f', h, ht, -, -, -, -, -, others, -⟩ := waits (fun u hu => by simp [loadIssue] at hu)
  obtain ⟨t', ht', changed⟩ := firstLoad_rolls_back
  obtain rfl : t = t' := by rw [ht] at ht'; injection ht'
  exact changed (congrArg (Option.map (·.v)) (others 1 1 (.inr (by decide))))

end Sys2Proof.Machine
end

section
/-! O30: `waita` of a type narrower than the register of its reference. -/
namespace Sys2Proof.Machine

/-- The group whose lane 0 waits on an address. -/
def waitingGroup : Group := { lanes := 1, pc := 0, level := 0 }

/-- Its furrow: `w1` is the base of its field's scratchpad, and lane 0 of `v4` holds 2^16. -/
def narrowWaiter : Furrow :=
  { core := 0, slot := 0, field := 1, ix := 0, groups := [waitingGroup], w := (Vector.replicate 56 0).set 1 (BitVec.ofNat 64 ownBase),
    v := (Vector.replicate 128 0).set 4 0x10000 }

/-- A field with a scratchpad of 64 bytes, all 0. -/
def padField : Field :=
  { id := 1, ctx := 0, scheme := 0, sp := { size := 64 }, tile := { size := 0 }, bsl := { size := 0 },
    kernel := { codeBase := 0, codePkts := 0, threads := 1, scratch := 64, tiles := 0, bslice := 0, extRegs := 0, noReuse := false, consts := [],
                patches := [], tensors := [] } }

/-- The wait issues. -/
def narrowState : State := { State.reset with issue := some laneZeroIssue, furrows := [narrowWaiter], fields := [padField] }

/-- `waita.eq` of an `n16` at `w1` with `v4`, which no word encodes: nothing in the statement excludes it. -/
def narrowWait : LW :=
  { c := false, d := 8, a := 1, b := .imm 0, c3 := 4, g := 7, am := false, cc := .eq, ty := .n16, scope := .thread }

theorem narrowWait_issues : Issues narrowState laneZeroIssue narrowWaiter waitingGroup (.waita narrowWait) where
  issue := rfl
  furrow := by decide +kernel
  group := by decide +kernel
  ahead := rfl
  step := rfl
  alone := rfl
  own := rfl
  lives := rfl
  block := by decide +kernel
  right := by decide +kernel

/-- Lane 0 reads the two bytes at the start of the scratchpad. -/
def narrowSpots : List (Nat × Nat × Spot) := [(0, ownBase, .scratch 1 0)]

/-- The checks of its lanes. -/
def narrowChecks : State × List LaneAcc :=
  State.checkLanes narrowWaiter 2 2 {} (fun _ _ => false) (narrowWaiter.effAddr narrowWait.am narrowWait.a.val narrowWait.b 0 2)
    (lanesOf (narrowWaiter.activeSet (.waita narrowWait) waitingGroup)) narrowState

theorem narrowWait_passes :
    Passes narrowState narrowWaiter waitingGroup (narrowWaiter.activeSet (.waita narrowWait) waitingGroup) 2 2 {} (fun _ _ => false)
      (narrowWaiter.effAddr narrowWait.am narrowWait.a.val narrowWait.b 0 2) narrowChecks.1 narrowSpots where
  fresh := rfl
  checks := ⟨narrowChecks.2, rfl, by decide +kernel, by decide +kernel⟩
  watch := by decide +kernel

/-- Its 0 equals the low 16 bits of 2^16, and not the 32 bits that the test compares (R255): the group stays where it is. -/
theorem narrowWait_stays :
    (match exec (.waita narrowWait) narrowState with
      | .next t => (t.furrow? 0 0).bind (Furrow.pcOf · 1)
      | _ => none) = some 0 := by
  decide +kernel

/-- Refutes O30: it compares for every type the values of the type's width, and no hypothesis says that the type is one of 32 or 64 bits. The test
for equality compares what was read with the whole of the lane's reference; where the type is narrower, a reference whose low bits equal what was
read and whose high bits are not 0 leaves the lane waiting. -/
theorem not_waitOnAddress : ¬ Obligations.WaitOnAddress := by
  unfold Obligations.WaitOnAddress
  intro h
  obtain ⟨completes, -⟩ := h narrowState narrowChecks.1 laneZeroIssue narrowWaiter waitingGroup narrowWait narrowSpots narrowWait_issues
    (by simp [NoneAhead, narrowState, narrowWaiter]) ⟨by decide +kernel, by decide +kernel⟩ (by decide +kernel) (by decide +kernel) rfl narrowWait_passes
    (show _ = _ by decide +kernel)
    (by decide +kernel)
  obtain ⟨t, ht, ⟨f', hf', -, hpc⟩, -⟩ := completes (by decide +kernel)
  have stays := narrowWait_stays
  rw [ht] at stays
  dsimp only at stays
  rw [show t.furrow? 0 0 = some f' from hf', Option.bind_some, show f'.pcOf 1 = _ from hpc] at stays
  exact absurd stays (by decide +kernel)

end Sys2Proof.Machine
end

section
/-! O54: a detached LD one of whose lines is recorded with more than 64 bytes. -/
namespace Sys2Proof.Machine

/-- The first line of host 0's memory (R119). -/
def hostLine : Nat := 2 ^ 51

/-- Two neighbouring lines of host 0 that the package has written: the host's memory holds 0 in the second one, and the record of the first one has a 65th
byte. -/
def overlongLines : State :=
  { State.reset with
    lds := [{ ix := 0, host := some 0, attached := true }],
    sectors := [{ pa := hostLine + 64, holders := [], homeCopy := some (List.replicate 64 0) },
                { pa := hostLine, holders := [], homeCopy := some (List.replicate 65 1) }] }

theorem overlongLines_bytesOk : BytesOk overlongLines where
  mem := by unfold MemOk; decide +kernel
  fields := List.forall_mem_nil _

/-- The LD detaches: the first line goes after the second one, and its 65th byte stands at the second one's first byte. -/
theorem overlongLines_detached :
    ∃ t, exec (.ldDetach 0) overlongLines = .next t ∧ t.bytesAt (sectorOf (hostLine + 64)) 64 ≠ List.replicate 64 0 :=
  ⟨_, rfl, by decide +kernel⟩

/-- Refutes O54: its clause on a detach says of every line of the host whose record holds 64 bytes that those bytes stand in memory afterwards, and no
hypothesis says that the other lines' records hold 64 bytes. A longer record of the line before it, discarded later, writes over the line's start. -/
theorem not_packageEvents : ¬ Obligations.PackageEvents := by
  unfold Obligations.PackageEvents
  rintro ⟨links, -⟩
  obtain ⟨detach, -⟩ := links overlongLines 0
  obtain ⟨t, ht, -, -, -, -, -, -, lines, -⟩ := detach 0 (by decide +kernel) (by decide +kernel)
  obtain ⟨t', ht', spoilt⟩ := overlongLines_detached
  obtain rfl : t = t' := by rw [ht] at ht'; injection ht'
  exact spoilt (lines overlongLines_bytesOk (hostLine + 64) _ (by decide +kernel) (by decide +kernel) List.length_replicate)

end Sys2Proof.Machine
end

section
/-! O33: stream records, handles and caddy entries (R40, R261, R273, R283). -/
namespace Sys2Proof.Machine

/-! ### Words of a stream record -/

/-- A 256-bit record with its word k replaced, as `sset` computes it (R261). -/
def putWord (r : BitVec 256) (k : Nat) (w : W64) : BitVec 256 :=
  (r &&& ~~~(0xFFFFFFFFFFFFFFFF#256 <<< (64 * k))) ||| (w.setWidth 256 <<< (64 * k))

theorem getLsbD_wordMask (n : Nat) : (0xFFFFFFFFFFFFFFFF#256).getLsbD n = decide (n < 64) := by
  rw [show (0xFFFFFFFFFFFFFFFF#256) = (BitVec.allOnes 64).setWidth 256 from rfl, BitVec.getLsbD_setWidth, BitVec.getLsbD_allOnes,
    ← Bool.decide_and]
  exact decide_eq_decide.2 (by omega)

/-- Bit i of word k of such a record. -/
theorem getLsbD_putWord (r : BitVec 256) (w : W64) (j k : Fin 4) {i : Nat} (hi : i < 64) :
    (putWord r j w).getLsbD (64 * k.val + i) = if k = j then w.getLsbD i else r.getLsbD (64 * k.val + i) := by
  have range : 64 * k.val + i < 256 := by omega
  simp only [putWord, BitVec.getLsbD_or, BitVec.getLsbD_and, BitVec.getLsbD_not, BitVec.getLsbD_shiftLeft, BitVec.getLsbD_setWidth, getLsbD_wordMask, range,
    decide_true, Bool.true_and]
  rcases Nat.lt_trichotomy k.val j.val with lt | eq | gt
  · have below : 64 * k.val + i < 64 * j.val := by omega
    simp [Fin.ne_of_lt lt, below]
  · obtain rfl : k = j := Fin.ext eq
    simp [hi]; omega
  · have above : ¬ 64 * k.val + i < 64 * j.val := by omega
    have past : ¬ 64 * k.val + i - 64 * j.val < 64 := by omega
    have high : w.getLsbD (64 * k.val + i - 64 * j.val) = false := BitVec.getLsbD_of_ge _ _ (by omega)
    simp [Fin.ne_of_gt gt, above, past, high]

/-- Its word k is the new one, and its other words are the old ones. -/
theorem extract_putWord (r : BitVec 256) (w : W64) (j k : Fin 4) :
    (putWord r j w).extractLsb' (64 * k.val) 64 = if k = j then w else r.extractLsb' (64 * k.val) 64 := by
  apply BitVec.eq_of_getLsbD_eq
  intro i hi
  rw [BitVec.getLsbD_extractLsb', getLsbD_putWord r w j k hi]
  split <;> simp [hi]

/-! ### Entries of the caddy -/

/-- What `cset` and `cclr` answer (R283): a whole entry for a group that is all of its furrow with every guard true (R40), else their trap. -/
theorem caddyWrite_does {s : State} {q : Issue} {f : Furrow} {g : Group} {i : Instr} {id : BitVec 8} {e : Vector W64 7}
    (he : Issues s q f g i → exec i s = if !f.converged i g then trapNow s q g g.lanes 0x21 0
      else (s.onField f.field (fun fl => { fl with caddy := fl.caddy.set (Fin.ofNat 64 id.toNat) e })).skip i q g) (h : Issues s q f g i) :
    (g.lanes = f.running → f.activeSet i g = g.lanes →
      Does s q g i (s.onField f.field (fun fl => { fl with caddy := fl.caddy.set (Fin.ofNat 64 id.toNat) e })) f)
    ∧ ((g.lanes ≠ f.running ∨ f.activeSet i g ≠ g.lanes) → Traps s q f i (trapAt g.lanes 0x21 0 g.pc)) := by
  refine ⟨fun all guards => ?_, fun apart => ?_⟩
  · have conv : f.converged i g = true := (f.converged_iff i g).2 ⟨all, guards⟩
    exact does_of_skip h rfl h.furrow (SameRun.refl f) rfl rfl ((he h).trans (if_neg (by simp [conv])))
  · have conv : f.converged i g ≠ true := fun hc => by
      obtain ⟨all, guards⟩ := (f.converged_iff i g).1 hc
      exact apart.elim (· all) (· guards)
    exact traps_of_trapIssue h ((he h).trans (if_pos (by simp [conv])))

/-- Settles O33: each move by the law of an instruction that completes, `cset` and `cclr` by their two cases. -/
theorem recordMoves : Obligations.RecordMoves := by
  unfold Obligations.RecordMoves
  refine fun s q f g => ⟨fun x => ⟨?sget, ?sset⟩, fun x => ⟨?hget, ?hset⟩, fun x fl hfl hid => ⟨?cget, ?idle, ?cset, ?cclr⟩⟩
  case sget => exact writesW_of (fun h => by rw [exec_sget, execSget, running_issues h])
  case sset =>
    refine fun h => ⟨putWord f.s[x.n] x.k (f.readW x.wa.val), ?_, extract_putWord _ _ x.k⟩
    rw [Does, exec_sset, execSset, running_issues h]
    exact done_plain h ⟨rfl, rfl, rfl, rfl, rfl, rfl, rfl, rfl⟩
  case hget => exact writesW_of (fun h => by rw [exec_hget, execHget, running_issues h]; rfl)
  case hset =>
    intro h
    rw [Does, exec_hset, execHset, running_issues h]
    exact done_plain h ⟨rfl, rfl, rfl, rfl, rfl, rfl, rfl, rfl⟩
  case cget =>
    intro k hk hm
    have word : Fin.ofNat 7 x.a.val = k := Fin.ext (by simp [hk])
    exact writesW_of (fun h => by rw [exec_cget, execCget, running_issues h, if_neg hm, hfl]; simp only [word])
  case idle => exact fun hm h => does_of_skip h rfl h.furrow (SameRun.refl f) rfl rfl (by rw [exec_cget, execCget, running_issues h, if_pos hm])
  case cset => exact caddyWrite_does (fun h => by rw [exec_cset, execCset, running_issues h])
  case cclr =>
    have empty : Vector.ofFn (fun _ : Fin 7 => (0 : W64)) = Vector.replicate 7 0 := by decide
    exact caddyWrite_does (fun h => by rw [exec_cclr, execCclr, running_issues h, empty])

end Sys2Proof.Machine
end

section
/-! What accesses leave of the machine besides bytes, where no furrow runs ahead of a speculative fence: each furrow's registers and where its groups
stand, and of the reuse tables no Valid entry that was not there. -/
namespace Sys2Proof.Machine

/-! ### Furrows -/

/-- Its lanes as its registers show them. -/
@[irreducible] def Furrow.shownLanes (f : Furrow) : Vector Lane 32 := f.regs.lanes

/-- A group with nothing but where it stands. -/
def Group.still (g : Group) : Group := { lanes := g.lanes, pc := g.pc, level := g.level }

/-- A furrow without what its groups wait for and what its lanes' acquires order. -/
def Furrow.calm (f : Furrow) : Furrow :=
  { f with groups := f.groups.map Group.still, lanes := f.shownLanes }

/-- Furrow v is f but for those. -/
def Furrow.Kin (f v : Furrow) : Prop := v.calm = f.calm

namespace Furrow.Kin

variable {f v : Furrow} (h : f.Kin v)
include h

theorem read {α : Type} (k : Furrow → α) : k v.calm = k f.calm := congrArg k h

theorem core : v.core = f.core := h.read Furrow.core
theorem slot : v.slot = f.slot := h.read Furrow.slot
theorem field : v.field = f.field := h.read Furrow.field
theorem level : v.level = f.level := h.read Furrow.level
theorem step : v.step = f.step := h.read Furrow.step
theorem ending : v.ending = f.ending := h.read Furrow.ending
theorem ext : v.ext = f.ext := h.read Furrow.ext
theorem spilled : v.spilled = f.spilled := h.read Furrow.spilled
theorem spec : v.spec = f.spec := h.read Furrow.spec
theorem clauses : v.clauses = f.clauses := h.read Furrow.clauses
theorem posted : v.posted = f.posted := h.read Furrow.posted
theorem unnamed : v.unnamed = f.unnamed := h.read Furrow.unnamed
theorem v_eq : v.v = f.v := h.read Furrow.v

theorem regs : v.regs = f.regs := by
  have shown : ∀ x : Furrow, x.regs = Regs.mk x.v x.w x.wbank x.p x.pbank x.s x.opq x.h x.flags x.fpenv x.ext x.level x.frames x.shownLanes :=
    fun x => by rw [Furrow.shownLanes]; rfl
  rw [shown, shown]
  exact h.read (fun x => Regs.mk x.v x.w x.wbank x.p x.pbank x.s x.opq x.h x.flags x.fpenv x.ext x.level x.frames x.lanes)

/-- A group still runs where one ran. -/
theorem group {m : Mask} {g : Group} (hg : f.group? m = some g) : ∃ g0, v.group? m = some g0 := by
  have bare : ∀ x : Furrow, (x.calm.group? m).isSome = (x.group? m).isSome := fun x => by
    unfold Furrow.group?
    rw [show x.calm.groups = x.groups.map Group.still from rfl,
      find?_map_key (fun g : Group => g.level == x.calm.level && g.lanes == m) Group.still (fun _ => rfl), Option.isSome_map]
    rfl
  exact Option.isSome_iff_exists.1 (by rw [← bare, h, bare, hg]; rfl)

end Furrow.Kin

theorem Furrow.Kin.refl (f : Furrow) : f.Kin f := rfl

theorem Furrow.Kin.trans {f v w : Furrow} (h : f.Kin v) (k : v.Kin w) : f.Kin w := Eq.trans k h

/-- Groups that change but for where they stand. -/
theorem kin_groups (f : Furrow) {k : Group → Group} (hk : ∀ g, (k g).lanes = g.lanes ∧ (k g).pc = g.pc ∧ (k g).level = g.level) :
    f.Kin { f with groups := f.groups.map k } := by
  have shown : ({ f with groups := f.groups.map k } : Furrow).shownLanes = f.shownLanes := by rw [Furrow.shownLanes, Furrow.shownLanes]; rfl
  unfold Furrow.Kin Furrow.calm
  rw [shown, List.map_map, show Group.still ∘ k = Group.still from
    funext fun g => by rw [Function.comp_apply, Group.still, (hk g).1, (hk g).2.1, (hk g).2.2]; rfl]

/-- A group that is woken stands where it stood. -/
theorem Group.wake_stands (t : Watch → Bool) (g : Group) : (g.wake t).lanes = g.lanes ∧ (g.wake t).pc = g.pc ∧ (g.wake t).level = g.level := by
  unfold Group.wake
  split <;> exact ⟨rfl, rfl, rfl⟩

/-- What some lanes have acquired. -/
theorem kin_acquired (f : Furrow) (m : Mask) (scope o : Nat) : f.Kin (f.onLanes m (fun _ l => l.acquired scope o)) := by
  have lanes := congrArg Regs.lanes (goesOnAs_acquired f m scope o).regs
  have shown : (f.onLanes m (fun _ l => l.acquired scope o)).shownLanes = f.shownLanes := by rw [Furrow.shownLanes, lanes, Furrow.shownLanes]
  unfold Furrow.Kin Furrow.calm
  rw [shown]
  unfold Furrow.onLanes
  rfl

/-! ### The relation -/

/-- State t is s after such work. -/
structure Stirred (s t : State) : Prop where
  rest : t = { s with furrows := t.furrows, cores := t.cores, dies := t.dies, sectors := t.sectors, net := t.net, order := t.order, recent := t.recent,
                      freeCtr := t.freeCtr, mem := t.mem, poison := t.poison, fields := t.fields }
  furrows : t.furrows.map Furrow.calm = s.furrows.map Furrow.calm
  reuse : ∀ (c : Nat) (n : Fin 4), ∀ e ∈ (t.core c).reuse[n], e.phase = .valid → e ∈ (s.core c).reuse[n]

/-- The bytes of memory and of the fields' stores, and their poison, are as they were. -/
structure SameBytes (s t : State) : Prop where
  mem : t.mem = s.mem
  poison : t.poison = s.poison
  fields : t.fields = s.fields

theorem SameBytes.refl (s : State) : SameBytes s s := ⟨rfl, rfl, rfl⟩

theorem SameBytes.trans {a b c : State} (h : SameBytes a b) (k : SameBytes b c) : SameBytes a c :=
  ⟨k.mem.trans h.mem, k.poison.trans h.poison, k.fields.trans h.fields⟩

theorem Stirred.refl (s : State) : Stirred s s := ⟨rfl, rfl, fun _ _ _ he _ => he⟩

theorem Stirred.trans {a b c : State} (h : Stirred a b) (k : Stirred b c) : Stirred a c where
  rest := by rw [k.rest, h.rest]
  furrows := k.furrows.trans h.furrows
  reuse x n e he hv := h.reuse x n e (k.reuse x n e he hv) hv

section
variable {s t : State} {key : Furrow → Furrow} (place : ∀ f, (key f).core = f.core ∧ (key f).slot = f.slot)
  (h : t.furrows.map key = s.furrows.map key)
include place h

theorem map_furrow?_of_map (c n : Nat) : (t.furrow? c n).map key = (s.furrow? c n).map key := by
  have look : ∀ u : State, (u.furrow? c n).map key = (u.furrows.map key).find? (fun f => f.core == c && f.slot == n) :=
    fun u => (find?_map_key (fun f : Furrow => f.core == c && f.slot == n) key (fun f => by rw [(place f).1, (place f).2]) _).symm
  rw [look, h, look]

end

/-- The furrow in a slot, where two states agree there in a key. -/
theorem furrow?_of_shown {s t : State} {key : Furrow → Furrow} {c n : Nat} (h : (t.furrow? c n).map key = (s.furrow? c n).map key) {f : Furrow}
    (hf : s.furrow? c n = some f) : ∃ v, t.furrow? c n = some v ∧ key v = key f :=
  Option.map_eq_some_iff.1 (h.trans (by rw [hf]; rfl))

theorem regs?_of_shown {s t : State} {key : Furrow → Furrow} {c n : Nat} (h : (t.furrow? c n).map key = (s.furrow? c n).map key)
    (regs : ∀ f v : Furrow, key v = key f → v.regs = f.regs) : t.regs? c n = s.regs? c n := by
  unfold State.regs?
  cases hf : s.furrow? c n with
  | some f =>
    obtain ⟨v, hv, hk⟩ := furrow?_of_shown h hf
    rw [hv, Option.map_some, Option.map_some, regs f v hk]
  | none =>
    rw [hf, Option.map_none, Option.map_eq_none_iff] at h
    rw [h]

section Stirred
variable {s t : State} (h : Stirred s t)
include h

theorem Stirred.noneAhead (hs : NoneAhead s) : NoneAhead t := by
  intro v hv
  obtain ⟨f, hf, e⟩ := List.mem_map.1 (h.furrows ▸ List.mem_map_of_mem hv)
  exact (Furrow.Kin.spec (f := f) (v := v) e.symm).trans (hs f hf)

theorem Stirred.shown (c n : Nat) : (t.furrow? c n).map Furrow.calm = (s.furrow? c n).map Furrow.calm :=
  map_furrow?_of_map (key := Furrow.calm) (fun _ => ⟨rfl, rfl⟩) h.furrows c n

/-- The furrow in a slot. -/
theorem Stirred.kin {c n : Nat} {f : Furrow} (hf : s.furrow? c n = some f) : ∃ v, t.furrow? c n = some v ∧ f.Kin v := furrow?_of_shown (h.shown c n) hf

theorem Stirred.regs? (c n : Nat) : t.regs? c n = s.regs? c n := regs?_of_shown (h.shown c n) (fun f v e => Furrow.Kin.regs (f := f) (v := v) e)

end Stirred

/-- What a filtered list shows through a key, where the key decides the test. -/
theorem filter_map_congr {α β γ : Type} {key : α → β} {p : α → Bool} {k : α → γ} (hp : ∀ a b, key a = key b → p a = p b)
    (hk : ∀ a b, key a = key b → k a = k b) : ∀ {l m : List α}, l.map key = m.map key → (l.filter p).map k = (m.filter p).map k
  | [], [], _ => rfl
  | [], _ :: _, h => by simp at h
  | _ :: _, [], h => by simp at h
  | a :: l, b :: m, h => by
    simp only [List.map_cons, List.cons.injEq] at h
    obtain ⟨hab, hlm⟩ := h
    have ih := filter_map_congr hp hk hlm
    simp only [List.filter_cons, hp a b hab]
    split
    · rw [List.map_cons, List.map_cons, hk a b hab, ih]
    · exact ih

/-- What an access may do besides its own bytes, where none runs ahead. -/
def Stirs (s t : State) : Prop := NoneAhead s → Stirred s t

/-- The same where it writes no bytes. -/
def Rouses (s t : State) : Prop := NoneAhead s → Stirred s t ∧ SameBytes s t

theorem Rouses.refl (s : State) : Rouses s s := fun _ => ⟨.refl s, .refl s⟩

theorem Rouses.trans {a b c : State} (h : Rouses a b) (k : Rouses b c) : Rouses a c := fun ha => by
  obtain ⟨h1, h2⟩ := h ha
  obtain ⟨k1, k2⟩ := k (h1.noneAhead ha)
  exact ⟨h1.trans k1, h2.trans k2⟩

theorem Rouses.foldl {α : Type} {k : State → α → State} (h : ∀ s x, Rouses s (k s x)) (l : List α) (s : State) : Rouses s (l.foldl k s) :=
  List.foldlRecOn l k (Rouses.refl s) (fun t ht x _ => ht.trans (h t x))

theorem Rouses.ite {s a b : State} {p : Prop} [Decidable p] (ha : Rouses s a) (hb : Rouses s b) : Rouses s (if p then a else b) := by
  split
  · exact ha
  · exact hb

theorem Rouses.stirs {s t : State} (h : Rouses s t) : Stirs s t := fun hs => (h hs).1

theorem Stirs.trans {a b c : State} (h : Stirs a b) (k : Stirs b c) : Stirs a c := fun ha => (h ha).trans (k ((h ha).noneAhead ha))

theorem Stirs.foldl {α : Type} {k : State → α → State} (h : ∀ s x, Stirs s (k s x)) (l : List α) (s : State) : Stirs s (l.foldl k s) :=
  List.foldlRecOn l k (Rouses.refl s).stirs (fun t ht x _ => ht.trans (h t x))

/-- Work on what neither furrows nor cores show. -/
theorem rouses_of_eq {s t : State}
    (h : t = { s with dies := t.dies, sectors := t.sectors, net := t.net, order := t.order, recent := t.recent, freeCtr := t.freeCtr }) : Rouses s t := by
  intro _
  rw [h]
  exact ⟨⟨rfl, rfl, fun _ _ _ he _ => he⟩, ⟨rfl, rfl, rfl⟩⟩

/-- Furrows changed one by one. -/
theorem rouses_map (s : State) {k : Furrow → Furrow} (hk : ∀ f ∈ s.furrows, f.Kin (k f)) : Rouses s { s with furrows := s.furrows.map k } :=
  fun _ => ⟨⟨rfl, by rw [List.map_map]; exact List.map_congr_left hk, fun _ _ _ he _ => he⟩, ⟨rfl, rfl, rfl⟩⟩

theorem rouses_onFurrow (s : State) (c n : Nat) {k : Furrow → Furrow} (hk : ∀ f ∈ s.furrows, f.Kin (k f)) : Rouses s (s.onFurrow c n k) :=
  rouses_map s (fun f hf => by
    split
    · exact hk f hf
    · exact .refl f)

/-! ### Reuse tables -/

/-- A core whose reuse tables gain no Valid entry. -/
structure Core.Forgets (c d : Core) : Prop where
  ix : d.ix = c.ix
  reuse : ∀ n : Fin 4, ∀ e ∈ d.reuse[n], e.phase = .valid → e ∈ c.reuse[n]

theorem Core.Forgets.refl (c : Core) : c.Forgets c := ⟨rfl, fun _ _ he _ => he⟩

theorem Core.Forgets.trans {a b c : Core} (h : a.Forgets b) (k : b.Forgets c) : a.Forgets c :=
  ⟨k.ix.trans h.ix, fun n e he hv => h.reuse n e (k.reuse n e he hv) hv⟩

theorem Core.forgets_of_reuse {c d : Core} (hi : d.ix = c.ix) (hr : d.reuse = c.reuse) : c.Forgets d :=
  ⟨hi, fun _ _ he _ => hr ▸ he⟩

/-- A core looked up after a change of each. -/
theorem rouses_cores (s : State) {k : Core → Core} (hk : ∀ c : Core, c.Forgets (k c)) : Rouses s { s with cores := s.cores.map k } := by
  refine fun _ => ⟨⟨rfl, rfl, fun c n e he hv => ?_⟩, ⟨rfl, rfl, rfl⟩⟩
  unfold State.core at he ⊢
  rw [find?_map_key (fun x : Core => x.ix == c) k (fun x => by rw [(hk x).ix])] at he
  cases hf : s.cores.find? (fun x => x.ix == c) with
  | none => simp [hf] at he
  | some x =>
    rw [hf] at he
    exact (hk x).reuse n e he hv

theorem rouses_onCore (s : State) (c : Nat) {k : Core → Core} (hk : ∀ x : Core, x.Forgets (k x)) : Rouses s (s.onCore c k) := by
  unfold State.onCore
  split
  · exact rouses_cores s (k := fun x => if x.ix == c then k x else x) (fun x => by
      split
      · exact hk x
      · exact .refl x)
  · rename_i hno
    refine fun _ => ⟨⟨rfl, rfl, fun d n e he hv => ?_⟩, ⟨rfl, rfl, rfl⟩⟩
    unfold State.core at he ⊢
    rw [List.find?_cons, (hk _).ix] at he
    by_cases hd : c = d
    · subst hd
      have gone : s.cores.find? (fun x => x.ix == c) = none := List.find?_eq_none.2 (fun x hx hxc => hno (List.any_eq_true.2 ⟨x, hx, hxc⟩))
      rw [gone]
      simp only [beq_self_eq_true] at he
      exact (hk _).reuse n e he hv
    · rw [beq_eq_false_iff_ne.2 hd] at he
      exact he

theorem Core.onCounters_forgets (c : Core) (x : Nat) (k : Counters → Counters) : c.Forgets (c.onCounters x k) := by
  obtain ⟨-, -, reuse⟩ := c.onCounters_keeps x k
  refine Core.forgets_of_reuse ?_ reuse
  unfold Core.onCounters
  split <;> rfl

/-- A table put back with no Valid entry that it had not. -/
theorem Core.setReuse_forgets (c : Core) (q : Fin 4) {t : List ReuseEntry} (h : ∀ e ∈ t, e.phase = .valid → e ∈ c.reuse[q]) :
    c.Forgets { c with reuse := c.reuse.set q t } := by
  refine ⟨rfl, fun n e he hv => ?_⟩
  by_cases hn : q = n
  · subst hn
    simp only [Fin.getElem_fin, Vector.getElem_set_self] at he
    exact h e he hv
  · simp only [Fin.getElem_fin] at he ⊢
    rwa [Vector.getElem_set_ne _ _ (fun e => hn (Fin.ext e))] at he

/-- A kill event leaves no Valid entry but those that stood (R83). -/
theorem Core.killQuarter_forgets (c : Core) (q : Nat) (t : ReuseEntry → Bool) : c.Forgets (c.killQuarter q t) := by
  unfold Core.killQuarter
  refine .trans (c.setReuse_forgets (Fin.ofNat 4 q) (fun e he hv => ?_))
    (List.foldlRecOn (motive := fun d => Core.Forgets _ d) _ _ (Core.Forgets.refl _) (fun d hd x _ => hd.trans (d.onCounters_forgets x.ctx _)))
  obtain ⟨x, hx, hk⟩ := List.mem_filterMap.1 he
  split at hk
  · split at hk
    · cases hk
    · cases hk; cases hv
    · cases hk; exact hx
  · cases hk; exact hx

theorem Core.kill_forgets (c : Core) (t : ReuseEntry → Bool) : c.Forgets (c.kill t) :=
  List.foldlRecOn (List.range 4) _ (Core.Forgets.refl c) (fun d hd q _ => hd.trans (d.killQuarter_forgets q t))

/-! ### Tokens (R83, R125, R146, R372 to R389) -/

section Tokens
variable (s : State)

theorem rouses_killLoads (on : Nat → Bool) (t : ReuseEntry → Bool) : Rouses s (s.killLoads on t) :=
  rouses_cores s (k := fun c => if on c.ix then c.kill t else c) (fun c => by
    split
    · exact c.kill_forgets t
    · exact .refl c)

theorem rouses_wake (t : Watch → Bool) : Rouses s (s.wake t) := rouses_map s (fun f _ => kin_groups f (Group.wake_stands t))

/-- With no furrow ahead none rolls back. -/
theorem State.rollbackReaders_noneAhead {s : State} (hs : NoneAhead s) (on : Nat → Bool) (pa : Nat) : s.rollbackReaders on pa = s :=
  List.foldlRecOn (motive := fun t => t = s) s.furrows _ rfl (fun t ht f hf => by rw [hs f hf]; exact ht)

theorem rouses_rollbackReaders (on : Nat → Bool) (pa : Nat) : Rouses s (s.rollbackReaders on pa) := fun hs => by
  rw [State.rollbackReaders_noneAhead hs]
  exact Rouses.refl s hs

theorem rouses_dropL1 (on : Nat → Bool) (pa : Nat) : Rouses s (s.dropL1 on pa) := by
  refine .trans (.trans (.trans ?_ (rouses_killLoads _ _ _)) (rouses_rollbackReaders _ _ _)) (rouses_wake _ _)
  exact rouses_cores s (fun c => by
    split
    · exact Core.forgets_of_reuse rfl rfl
    · exact .refl c)

theorem rouses_tokenLost (die pa : Nat) (last : Bool) : Rouses s (s.tokenLost die pa last) :=
  .ite (rouses_dropL1 s _ pa) (((rouses_killLoads s _ _).trans (rouses_rollbackReaders _ _ pa)).trans (rouses_wake _ _))

theorem rouses_agentLost (a pa : Nat) (last : Bool) : Rouses s (s.agentLost a pa last) := .ite (rouses_tokenLost s a pa last) (.refl s)

theorem rouses_setSector (x : Sector) : Rouses s (s.setSector x) := rouses_of_eq rfl

theorem rouses_onHolder (pa a : Nat) (k : Holder → Holder) : Rouses s (s.onHolder pa a k) := rouses_of_eq rfl

theorem rouses_send (m : Message) : Rouses s (s.send m) := rouses_of_eq rfl

theorem rouses_startHostOp (pa : Nat) (op : HostOp) : Rouses s (s.startHostOp pa op) := .ite (.refl s) (rouses_setSector s _)

theorem rouses_giveOne (pa src dst : Nat) : Rouses s (s.giveOne pa src dst) :=
  ((rouses_setSector s _).trans (rouses_agentLost _ src pa false)).trans (rouses_send _ _)

theorem rouses_giveAll (pa src dst : Nat) : Rouses s (s.giveAll pa src dst) :=
  .ite (.refl s) (((rouses_setSector s _).trans (rouses_agentLost _ src pa true)).trans (rouses_send _ _))

theorem rouses_forward (pa a r : Nat) : Rouses s (s.forward pa a r) :=
  .ite (.refl s) (.ite (rouses_startHostOp s pa _) (.ite (rouses_startHostOp s pa _) (rouses_giveAll s pa a r)))

theorem rouses_answer (pa a src : Nat) (write : Bool) : Rouses s (s.answer pa a src write) :=
  .ite (.refl s) (.ite (rouses_forward s pa a src) (.ite (.refl s) (.ite (rouses_startHostOp s pa _) (.ite (rouses_giveOne s pa a src)
    (.ite (rouses_startHostOp s pa _) (.ite (rouses_startHostOp s pa _) (rouses_giveAll s pa a src)))))))

theorem rouses_accessDone (a pa : Nat) (wr : Bool) : Rouses s (s.accessDone a pa wr) := by
  have sent : ∀ (k : Holder → Holder) (b : Bool) (m : Message), Rouses s (if b then (s.onHolder pa a k).send m else s.onHolder pa a k) :=
    fun k b m => .ite (rouses_of_eq rfl) (rouses_of_eq rfl)
  exact .ite (sent _ _ _) (.trans (.trans (sent _ _ _) (rouses_onHolder _ _ _ _)) (.foldl (fun t q => rouses_answer t _ _ _ _) _ _))

theorem rouses_request (a pa : Nat) (write : Bool) (core : Nat) : Rouses s (s.request a pa write core) :=
  .ite (.trans (rouses_onHolder s pa a _) (.foldl (fun t _ => rouses_send t _) _ _)) (.refl s)

theorem rouses_readHeld (a pa : Nat) : Rouses s (s.readHeld a pa) := .ite (rouses_accessDone s a _ false) (.refl s)

theorem rouses_requestAll (agent core : Nat) (write : Bool) (secs : List Nat) : Rouses s (s.requestAll agent core write secs) :=
  .foldl (fun t sec => rouses_request t agent sec write core) secs s

theorem rouses_accessed (agent : Nat) (secs : List Nat) (wr : Bool) : Rouses s (s.accessed agent secs wr) :=
  .foldl (fun t sec => .ite (.refl t) (rouses_accessDone t agent sec wr)) secs s

end Tokens

/-! ### Translations and checks (R239, R341) -/

section Checks

theorem rouses_onDie (s : State) (d : Nat) (k : Die → Die) : Rouses s (s.onDie d k) := rouses_of_eq rfl

theorem rouses_tlbFill (s : State) (core : Nat) (e : TlbEntry) : Rouses s (s.tlbFill core e) := by
  unfold State.tlbFill
  exact (rouses_onCore s core (fun _ => Core.forgets_of_reuse (by rfl) (by rfl))).trans (rouses_onDie _ _ _)

theorem rouses_translateNow (s : State) (ctx core va : Nat) (k : AccessKind) (level : Nat) : Rouses s (s.translateNow ctx core va k level).1 := by
  unfold State.translateNow
  split
  · exact .refl s
  split
  · exact .refl s
  split
  · exact .refl s
  · exact .ite (rouses_tlbFill s core _) (.refl s)

theorem rouses_translate (s : State) (ctx core va : Nat) (k : AccessKind) (level : Nat) : Rouses s (s.translate ctx core va k level).1 := by
  unfold State.translate
  split
  · exact rouses_request s _ _ false core
  · exact .trans (Rouses.foldl (fun t x => rouses_readHeld t (dieAgent core) x) _ s) (rouses_translateNow _ ctx core va k level)

theorem rouses_globalSpot (ctx core : Nat) (k : AccessKind) (level : Nat) (ps : List (Nat × Nat)) :
    ∀ s : State, Rouses s (s.globalSpot ctx core k level ps).1 := by
  induction ps with
  | nil => exact fun s => .refl s
  | cons p ps ih =>
    intro s
    have first := rouses_translate s ctx core p.1 k level
    unfold State.globalSpot
    split
    · rename_i ht
      rw [ht] at first
      have rest := first.trans (ih _)
      split <;> (rename_i hr; rw [hr] at rest; exact rest)
    · rename_i ht
      rw [ht] at first
      have rest := first.trans (ih _)
      dsimp only
      split <;> (rename_i hr; rw [hr] at rest; exact rest)

theorem rouses_laneSpot (s : State) (f : Furrow) (va size align : Nat) (k : AccessKind) (unsup : Spot → Bool) :
    Rouses s (s.laneSpot f va size align k unsup).1 := by
  unfold State.laneSpot
  split
  · exact .refl s
  split
  · exact .refl s
  have reach := rouses_globalSpot (s.ctxOf f) f.core k f.level (pagePieces va size) s
  by_cases hw : (inOwn va || inPeer va) = true
  · simp only [hw, if_true]
    cases s.scratchSpot f.field va size with
    | ok t => dsimp only; split <;> exact .refl s
    | error e => exact .refl s
  · simp only [hw, Bool.false_eq_true, if_false]
    generalize s.globalSpot (s.ctxOf f) f.core k f.level (pagePieces va size) = r at reach ⊢
    obtain ⟨s1, ps | e⟩ := r
    · exact reach
    · dsimp only; split <;> exact reach

theorem rouses_checkLanes (f : Furrow) (size align : Nat) (k : AccessKind) (unsup : State → Spot → Bool) (ea : Nat → Nat) (ls : List Nat) :
    ∀ s : State, Rouses s (State.checkLanes f size align k unsup ea ls s).1 := by
  induction ls with
  | nil => exact fun s => .refl s
  | cons l ls ih => exact fun s => (rouses_laneSpot s f (ea l) size align k (unsup s)).trans (ih _)

end Checks

/-! ### Caches, acquires and the record of writes -/

section Caches
variable (s : State)

theorem rouses_dropPeer (die : Nat) (secs : List Nat) : Rouses s (s.dropPeer die secs) :=
  .trans (rouses_onDie s die _) (.foldl (fun t sec => rouses_dropL1 t _ sec) secs _)

theorem rouses_dropPeers (die : Nat) : Rouses s (s.dropPeers die) := (rouses_dropPeer s die _).trans (rouses_onDie _ die _)

theorem rouses_forgetLoads (core slot : Nat) : Rouses s (s.forgetLoads core slot) := rouses_onCore s core (fun c => c.killQuarter_forgets _ _)

theorem rouses_acquire (f : Furrow) (acq : Bool) (c : Scope) : Rouses s (s.acquire f acq c) := by
  have dropped : Rouses s (if acq && Scope.atPod c then s.dropPeers (dieOf f.core) else s) := .ite (rouses_dropPeers s _) (.refl s)
  exact .ite (dropped.trans (rouses_forgetLoads _ _ _)) dropped

theorem rouses_acquiring (f : Furrow) (acq : Option Scope) : Rouses s (State.acquiring f acq s) := by
  cases acq with
  | none => exact .refl s
  | some c => exact rouses_acquire s f true c

theorem rouses_makeRoom (die pa : Nat) : Rouses s (s.makeRoom die pa) :=
  .ite (.refl s) (.ite (rouses_dropPeer s die _) (rouses_giveAll s _ die _))

theorem rouses_fillPeer (die sec : Nat) (bs : List Byte) : Rouses s (s.fillPeer die sec bs) := by
  unfold State.fillPeer
  split
  · exact .refl s
  · dsimp only
    refine .trans (.trans ?_ (rouses_makeRoom _ die sec)) (rouses_onDie _ die _)
    split
    · exact .ite ((rouses_dropPeer s die _).trans (rouses_onDie _ die _)) (rouses_onDie s die _)
    · exact rouses_onDie s die _

theorem rouses_fillL1 (core sec : Nat) : Rouses s (s.fillL1 core sec) := by
  have room : Rouses s (if (s.core core).l1.length < l1Room then s
      else s.dropL1 (fun c => c == core) ((s.core core).l1.getD (Config.cacheVictim s.freeCtr % (s.core core).l1.length) 0)) :=
    .ite (.refl s) (rouses_dropL1 s _ _)
  exact .ite (.refl s) (room.trans (rouses_onCore _ core (fun _ => Core.forgets_of_reuse rfl rfl)))

theorem rouses_afterLoad (core : Nat) (l1 : Bool) (secs : List Nat) : Rouses s (s.afterLoad core l1 secs) := by
  have filled : Rouses s (secs.foldl (fun s sec => if s.isPeer sec then s.fillPeer (dieOf core) sec (s.bytesAt sec 64) else s) s) :=
    .foldl (fun t sec => .ite (rouses_fillPeer t _ sec _) (.refl t)) secs s
  exact .ite (filled.trans (.foldl (fun t sec => rouses_fillL1 t core sec) secs _)) filled

theorem rouses_readsDone (f : Furrow) (l1 : Bool) (secs : List Nat) : Rouses s (s.readsDone f l1 secs) :=
  ((rouses_afterLoad s f.core l1 secs).trans (rouses_accessed _ _ secs false)).trans (rouses_of_eq rfl)

/-- A furrow that does not run ahead has no read set. -/
theorem Furrow.noteRead_of_none {f : Furrow} (h : f.spec = none) (secs : List Nat) : f.noteRead secs = f := by
  cases f
  subst h
  rfl

theorem rouses_noteRead (c n : Nat) (secs : List Nat) : Rouses s (s.onFurrow c n (fun f => f.noteRead secs)) := fun hs =>
  rouses_onFurrow s c n (fun f hf => by rw [Furrow.noteRead_of_none (hs f hf)]; exact .refl f) hs

theorem rouses_partsRead (f : Furrow) (l1 : Bool) (secs : List Nat) : Rouses s (State.partsRead f l1 s secs) :=
  (rouses_readsDone s f l1 secs).trans (rouses_noteRead _ _ _ secs)

theorem rouses_noteReads (p : Party) (seqs : List Nat) : Rouses s (s.noteReads p seqs) := .ite (.refl s) (rouses_of_eq rfl)

theorem rouses_noteLastSpot (p : Party) (size : Nat) (t : Spot) : Rouses s (s.noteLastSpot p size t) := by
  cases t with
  | scratch fd off => exact rouses_noteReads s p _
  | global ps => exact .foldl (fun u x => rouses_noteReads u p _) ps s

theorem rouses_publish (p : Party) (scope : Nat) (firm : Bool) : Rouses s (s.publish p scope firm) := rouses_of_eq rfl

theorem rouses_publishReleases (p : Party) : Rouses s (s.publishReleases p) := rouses_of_eq rfl

theorem rouses_raiseFloor (f : Furrow) (lanes : Mask) (scope : Nat) : Rouses s (s.raiseFloor f lanes scope) :=
  rouses_onFurrow s _ _ (fun f _ => kin_acquired f lanes _ s.order)

theorem rouses_sync (f : Furrow) (lanes : Mask) (rel acq : Bool) (c : Scope) : Rouses s (s.sync f lanes rel acq c) := by
  have released : Rouses s (if rel then s.publish (f.party lanes) c.code else s) := .ite (rouses_publish s _ _ _) (.refl s)
  exact .ite (released.trans (rouses_raiseFloor _ f lanes _)) released

theorem rouses_synced (f : Furrow) (m : Mask) (acq : Option Scope) : Rouses s (s.synced f m acq) := by
  cases acq with
  | none => exact .refl s
  | some c => exact rouses_sync s f m false true c

theorem rouses_releasing (f : Furrow) (m : Mask) (rel : Bool) (c : Scope) : Rouses s (s.releasing f m rel c) :=
  .ite (rouses_sync s f m true false c) (.refl s)

end Caches

end Sys2Proof.Machine
end

section
/-! What such work leaves for an instruction that completes after it. -/
namespace Sys2Proof.Machine

/-! ### Look-ups of the reuse table (R78, R80) -/

/-- What the look-up of an instruction finds in a table. -/
def State.lookupIn (s : State) (i : Instr) (f : Furrow) (m : Mask) (table : List ReuseEntry) : Lookup :=
  let es := table.filter (fun e => e.ctx == s.ctxOf f && e.level == f.level && e.key == f.reuseKey i m
    && liveEntry (fun c => s.liveNamed f.core (quarterOf f.slot) c) e)
  { key := f.reuseKey i m, hit := es.find? (fun e => e.phase == .valid), free := es.isEmpty }

/-- The reuse table of a furrow's quarter. -/
def State.quarterTable (s : State) (f : Furrow) : List ReuseEntry := (s.core f.core).reuse[Fin.ofNat 4 (quarterOf f.slot)]

theorem State.lookup_eq (s : State) (i : Instr) (f : Furrow) (g : Group) (m : Mask) (load : Bool) :
    s.lookup i f g m load =
      if s.reuseOn f g load && !(vNames i.readsWrites.1 ++ oldDests i m).any (fun n => f.unnamed.contains n) then some (s.lookupIn i f m (s.quarterTable f))
      else none := rfl

theorem Furrow.calm_reuseKey (f : Furrow) (i : Instr) (m : Mask) : f.calm.reuseKey i m = f.reuseKey i m := rfl

theorem Furrow.calm_namedContents (f : Furrow) : f.calm.namedContents = f.namedContents := rfl

section
variable {s t : State} (h : Stirred s t)
include h

theorem Stirred.ctxs : t.ctxs = s.ctxs := by rw [h.rest]

variable (hf : t.fields = s.fields) {f v : Furrow} (hk : f.Kin v)
include hf hk

omit h in
theorem State.ctxOf_kin : t.ctxOf v = s.ctxOf f := by
  unfold State.ctxOf State.field?
  rw [hf, hk.field]

theorem Stirred.reuseOn (g : Group) (load : Bool) : t.reuseOn v g load = s.reuseOn f g load := by
  unfold State.reuseOn
  rw [State.ctxOf_kin hf hk]
  unfold State.ctx? State.field?
  rw [h.ctxs, hf, hk.field]

omit hk in
theorem Stirred.liveNamed (c n x : Nat) : t.liveNamed c n x = s.liveNamed c n x := by
  have ctxOf : ∀ a : Furrow, t.ctxOf a = s.ctxOf a := fun a => State.ctxOf_kin hf (.refl a)
  unfold State.liveNamed State.quarterFurrows
  rw [List.filter_filter, List.filter_filter, funext ctxOf]
  congr 2
  exact filter_map_congr (key := Furrow.calm)
    (fun a b e => by rw [Furrow.Kin.core (f := b) e, Furrow.Kin.slot (f := b) e, State.ctxOf, State.ctxOf, Furrow.Kin.field (f := b) e])
    (fun a b e => by rw [← a.calm_namedContents, e, b.calm_namedContents]) h.furrows

theorem Stirred.lookupIn (i : Instr) (m : Mask) (table : List ReuseEntry) : t.lookupIn i v m table = s.lookupIn i f m table := by
  have key : v.reuseKey i m = f.reuseKey i m := by rw [← v.calm_reuseKey, show v.calm = f.calm from hk, f.calm_reuseKey]
  unfold State.lookupIn
  rw [State.ctxOf_kin hf hk, hk.level, key, hk.core, hk.slot, funext (h.liveNamed hf f.core (quarterOf f.slot))]

theorem Stirred.lookup (i : Instr) (g : Group) (m : Mask) (load : Bool) :
    t.lookup i v g m load =
      if s.reuseOn f g load && !(vNames i.readsWrites.1 ++ oldDests i m).any (fun n => f.unnamed.contains n) then some (s.lookupIn i f m (t.quarterTable v))
      else none := by
  rw [State.lookup_eq, h.reuseOn hf hk, hk.unnamed, h.lookupIn hf hk]

/-- A look-up that hits nothing hits nothing after such work. -/
theorem Stirred.lookup_misses {i : Instr} {g : Group} {m : Mask} (miss : ∀ k, s.lookup i f g m true = some k → k.hit = none) {load : Bool} {k : Lookup}
    (hl : load = true) (hlook : t.lookup i v g m load = some k) : k.hit = none := by
  rw [hl, h.lookup hf hk] at hlook
  rw [State.lookup_eq] at miss
  split at hlook
  · rename_i on
    have none := miss _ (if_pos on)
    injection hlook with hlook
    subst hlook
    simp only [State.lookupIn, List.find?_eq_none, List.mem_filter] at none ⊢
    intro e ⟨he, fits⟩ valid
    refine none e ⟨?_, fits⟩ valid
    rw [show t.quarterTable v = t.quarterTable f from hk.read t.quarterTable] at he
    exact h.reuse _ _ e he (by simpa using valid)
  · cases hlook

end

/-- A quarter keeps having no unreserved block to spill (R73). -/
theorem Stirred.noSpill {s t : State} (h : Stirred s t) {q : Issue} {f : Furrow} (hf : s.furrow? q.core q.slot = some f) (hn : NoSpill s q) :
    NoSpill t q := by
  obtain ⟨v, hv, hk⟩ := h.kin hf
  obtain ⟨last, spilled⟩ := hn
  refine ⟨?_, by rw [hf] at spilled; rw [hv]; simpa [hk.spilled] using spilled⟩
  have none_iff : ∀ l : List Furrow, bestBy (fun (a b : Furrow) => decide (b.ext.order?.getD 0 < a.ext.order?.getD 0)) l = none ↔ l.map Furrow.calm = [] :=
    fun l => by cases l <;> simp [bestBy]
  have same := filter_map_congr (key := Furrow.calm) (k := Furrow.calm)
    (p := fun f => (f.ext.order?.isSome && !f.spilled) && (f.core == q.core && quarterOf f.slot == quarterOf q.slot))
    (fun a b e => by rw [Furrow.Kin.core (f := b) e, Furrow.Kin.slot (f := b) e, Furrow.Kin.ext (f := b) e, Furrow.Kin.spilled (f := b) e])
    (fun a b e => e) h.furrows
  unfold State.lastUnreserved State.quarterFurrows at last ⊢
  rw [none_iff, List.filter_filter] at last ⊢
  rw [same, last]

/-! ### Completion -/

/-- A furrow without its stores still to be performed. -/
def Furrow.unposted (f : Furrow) : Furrow := { f with posted := [] }

/-- State t is s after such work and stores posted or performed, as far as contexts and furrows show. -/
structure Loose (s t : State) : Prop where
  ctxs : t.ctxs = s.ctxs
  shown : ∀ c n, (t.furrow? c n).map (fun f => f.unposted.calm) = (s.furrow? c n).map (fun f => f.unposted.calm)

theorem Loose.trans {a b c : State} (h : Loose a b) (k : Loose b c) : Loose a c := ⟨k.ctxs.trans h.ctxs, fun x n => (k.shown x n).trans (h.shown x n)⟩

theorem Furrow.unposted_calm (f : Furrow) : f.unposted.calm = f.calm.unposted := by
  have shown : f.unposted.shownLanes = f.shownLanes := by rw [Furrow.shownLanes, Furrow.shownLanes]; rfl
  unfold Furrow.calm
  rw [shown]
  rfl

theorem Stirred.loose {s t : State} (h : Stirred s t) : Loose s t := by
  refine ⟨h.ctxs, fun c n => ?_⟩
  have late : ∀ o : Option Furrow, o.map (fun f => f.unposted.calm) = (o.map Furrow.calm).map Furrow.unposted := fun o => by
    rw [Option.map_map]
    exact Option.map_congr (fun f _ => f.unposted_calm)
  rw [late, h.shown, late]

theorem Loose.kin {s t : State} (h : Loose s t) {c n : Nat} {f : Furrow} (hf : s.furrow? c n = some f) :
    ∃ v, t.furrow? c n = some v ∧ f.unposted.Kin v.unposted := furrow?_of_shown (key := fun f => f.unposted.calm) (h.shown c n) hf

theorem Loose.regs? {s t : State} (h : Loose s t) (c n : Nat) : t.regs? c n = s.regs? c n :=
  regs?_of_shown (key := fun f => f.unposted.calm) (h.shown c n) (fun f v e => Furrow.Kin.regs (f := f.unposted) (v := v.unposted) e)

/-- What an instruction that completes after such work leaves: registers of f1, the group at the next word, and every other furrow's registers. -/
structure Ends (s u t : State) (q : Issue) (g : Group) (i : Instr) (f1 : Furrow) : Prop where
  own : Lands t q g i f1
  others : OthersKept s t q
  rest : t = { u with furrows := t.furrows, cores := t.cores, issue := t.issue }

section
variable {s u : State} {q : Issue} {f : Furrow} {g : Group} {i : Instr} (h : Issues s q f g i)
include h

section
variable (hu : Loose s u)
include hu

/-- The next word, after such work and an effect of the furrow's own. -/
theorem stepOver_ends {w : State} {v v1 : Furrow} (hv : u.furrow? q.core q.slot = some v) (hw : w.furrow? q.core q.slot = some v1)
    (hg : v1.groups = v.groups) (hl : v1.level = v.level) (hs : v1.step = v.step) (he : v1.ending = v.ending)
    (others : ∀ c n, (c ≠ q.core ∨ n ≠ q.slot) → w.regs? c n = u.regs? c n)
    (rest : w = { u with furrows := w.furrows, cores := w.cores }) :
    Ends s u (w.stepOver q g (nextPc g.pc i.words) i.chained) q g i v1 := by
  obtain ⟨v', hv', hk⟩ := hu.kin h.furrow
  obtain rfl : v' = v := Option.some.inj (hv'.symm.trans hv)
  obtain ⟨g0, hg0⟩ := hk.group ((Furrow.group?_some h.group).2.2 ▸ h.group)
  obtain ⟨own, elsewhere, kept⟩ := stepOver_own w q g (nextPc g.pc i.words) i.chained hw (by rw [Furrow.group?_congr hg hl]; exact hg0)
    (hs.trans (hk.step.trans h.step)) h.alone h.own (he.trans (hk.ending.trans h.lives))
  exact ⟨own, fun c n hcn => (elsewhere c n hcn).trans ((others c n hcn).trans (hu.regs? c n)), by rw [kept, rest]⟩

omit h hu in
theorem Ends.congr {t : State} {f1 f2 : Furrow} (e : Ends s u t q g i f1) (hr : f1.regs = f2.regs) : Ends s u t q g i f2 := by
  obtain ⟨⟨f', hf', regs, pc⟩, others, rest⟩ := e
  exact ⟨⟨f', hf', regs.trans hr, pc⟩, others, rest⟩

/-- An instruction that has no effect on its furrow. -/
theorem skip_ends : ∃ t, u.skip i q g = .next t ∧ Ends s u t q g i f := by
  obtain ⟨v, hv, hk⟩ := hu.kin h.furrow
  have ends := stepOver_ends h hu hv hv rfl rfl rfl rfl (fun _ _ _ => rfl) rfl
  exact ⟨_, rfl, ends.congr hk.regs⟩

end

/-- An instruction that leaves the furrow f1 and raises no flag. -/
theorem done_ends (hu : Stirred s u) {v f1 : Furrow} (hv : u.furrow? q.core q.slot = some v) (r : SameRun v f1) (m : Mask) (load : Option (Nat × List Nat))
    (hn : vNames i.readsWrites.2 = [] ∨ m = 0 ∨ (NoSpill u q ∧ f1.fpenv = v.fpenv ∧ HitHolds u i v g m load.isSome f1 0)) :
    ∃ t, u.doneWith i q f1 g m 0 load = .next t ∧ Ends s u t q g i f1 := by
  obtain ⟨⟨v1, hv1, regs, groups, level, step, ending⟩, others, rest, flags⟩ := wrote_own i g m 0 load hv r h.own hn
  have ends := stepOver_ends h hu.loose hv hv1 groups level step (ending.trans r.ending) others rest
  refine ⟨_, rfl, ?_⟩
  have advance : (u.wrote i q f1 g m 0 load).1.advance i q f1 g m (u.wrote i q f1 g m 0 load).2 =
      (u.wrote i q f1 g m 0 load).1.stepOver q g (nextPc g.pc i.words) i.chained := by
    rw [flags]
    unfold State.advance
    dsimp only
    rw [if_pos (show 0 &&& f1.trapEnables = 0 from Nat.zero_and _), ite_self]
  rw [advance]
  exact ends.congr (regs.trans (by rw [raise_zero]))

end

end Sys2Proof.Machine
end

section
/-! The checks and parts of an access whose lanes pass every check and whose tokens are held (R133, R135, R239, R378). -/
namespace Sys2Proof.Machine

/-! ### Lanes that pass (R239) -/

theorem checkLanes_lanes (f : Furrow) (size align : Nat) (k : AccessKind) (unsup : State → Spot → Bool) (ea : Nat → Nat) (ls : List Nat) :
    ∀ s : State, (State.checkLanes f size align k unsup ea ls s).2.map LaneAcc.lane = ls := by
  induction ls with
  | nil => exact fun _ => rfl
  | cons l ls ih => exact fun s => congrArg (l :: ·) (ih _)

theorem firstRank_none {r : List LaneAcc} (h : firstRank r = none) : r.filterMap LaneAcc.fail? = [] := by
  unfold firstRank at h
  generalize r.filterMap LaneAcc.fail? = es at h ⊢
  have some_stays : ∀ (l : List CheckFail) (n : Nat), l.foldl (fun (b : Option Nat) e => match b with
      | none => some e.rank
      | some n => some (min n e.rank)) (some n) ≠ none := by
    intro l
    induction l with
    | nil => exact fun n => Option.some_ne_none n
    | cons e l ih => exact fun n => ih _
  cases es with
  | nil => rfl
  | cons e es => exact absurd h (some_stays es e.rank)

/-- Lanes of which none fails have each a place. -/
theorem lanes_of_firstRank_none {r : List LaneAcc} (h : firstRank r = none) : (r.filterMap LaneAcc.ok?).map Prod.fst = r.map LaneAcc.lane := by
  have all := firstRank_none h
  rw [List.filterMap_eq_nil_iff] at all
  clear h
  induction r with
  | nil => rfl
  | cons a r ih =>
    have rest := ih (fun b hb => all b (List.mem_cons_of_mem a hb))
    have head := all a List.mem_cons_self
    obtain ⟨l, ea, e | t⟩ := a
    · cases head
    · rw [List.filterMap_cons_some (show LaneAcc.ok? ⟨l, ea, .ok t⟩ = some (l, ea, t) from rfl), List.map_cons, List.map_cons, rest]

section
variable {s s1 : State} {f : Furrow} {g : Group} {m : Mask} {size align : Nat} {kind : AccessKind} {unsup : State → Spot → Bool} {ea : Nat → Nat}
  {as : List (Nat × Nat × Spot)} (h : Passes s f g m size align kind unsup ea s1 as)
include h

theorem Passes.lanes : as.map Prod.fst = lanesOf m := by
  obtain ⟨r, hr, pass, rfl⟩ := h.checks
  have lanes := checkLanes_lanes f size align kind unsup ea (lanesOf m) s
  rw [hr] at lanes
  exact (lanes_of_firstRank_none pass).trans lanes

theorem Passes.rouses : Rouses s s1 := by
  obtain ⟨r, hr, -, -⟩ := h.checks
  have work := rouses_checkLanes f size align kind unsup ea (lanesOf m) s
  rw [hr] at work
  exact work

/-- Where every lane passes, the access goes on with the places (R239, R240). -/
theorem withSpots_passes (q : Issue) (k : State → List (Nat × Nat × Spot) → Out) : withSpots s q f g m size align kind unsup ea k = k s1 as := by
  obtain ⟨r, hr, pass, rfl⟩ := h.checks
  unfold withSpots
  simp only [hr, pass, h.watch]

/-- No lane stops at a watchpoint (R333). -/
theorem Passes.watchLanes : s1.watchLanes f as size kind = 0 := by
  have watch := h.watch
  unfold State.watchTrap at watch
  unfold State.watchLanes
  split
  · rfl
  · rename_i level
    rw [if_neg level] at watch
    split
    · rfl
    · rename_i c hc
      rw [hc] at watch
      dsimp only at watch
      split at watch
      · cases watch
      · split at watch
        · cases watch
        · simp_all

/-- A gather or scatter all of whose lanes pass performs them all (R248). -/
theorem Passes.split : ∃ r, State.checkLanes f size align kind unsup ea (lanesOf m) s = (s1, r) ∧ waitSectors r = []
    ∧ s1.laneSplit f g r size kind = (as, .none) := by
  have watch := h.watchLanes
  obtain ⟨r, hr, ranks, rfl⟩ := h.checks
  refine ⟨r, hr, List.filterMap_eq_nil_iff.2 (fun a ha => ?_), ?_⟩
  · rw [List.filterMap_eq_nil_iff.1 (firstRank_none ranks) a ha]
    rfl
  · unfold State.laneSplit
    simp only [ranks, h.watch, watch]
    exact congrArg (·, Stop.none) (List.filter_eq_self.2 (fun a _ => by simp [inMask]))

end

/-! ### Sectors and pieces -/

theorem sectorOf_le (a : Nat) : sectorOf a ≤ a := Nat.div_mul_le_self a 64

theorem lt_sectorOf_add (a : Nat) : a < sectorOf a + 64 := by unfold sectorOf; omega

/-- The sectors that some bytes touch are those of the bytes. -/
theorem mem_sectorsOf {x pa n : Nat} : x ∈ sectorsOf pa n ↔ ∃ b, pa ≤ b ∧ b < pa + n ∧ sectorOf b = x := by
  unfold sectorsOf
  split
  · simp; omega
  · rename_i hn
    simp only [List.mem_map, List.mem_range, sectorOf]
    constructor
    · rintro ⟨k, hk, rfl⟩
      refine ⟨max pa (pa / 64 * 64 + 64 * k), Nat.le_max_left _ _, by omega, by omega⟩
    · rintro ⟨b, h1, h2, rfl⟩
      exact ⟨b / 64 - pa / 64, by omega, by omega⟩

/-- A piece within one sector of some bytes. -/
theorem mem_sectorPieces {p : Nat × Nat} {pa n : Nat} (h : p ∈ sectorPieces pa n) : pa ≤ p.1 ∧ p.1 + p.2 ≤ pa + n ∧ 0 < p.2 := by
  obtain ⟨x, hx, rfl⟩ := List.mem_map.1 h
  obtain ⟨b, h1, h2, rfl⟩ := mem_sectorsOf.1 hx
  have := sectorOf_le b
  have := lt_sectorOf_add b
  dsimp only
  omega

theorem mem_pieceSectors {x : Nat} {ps : List (Nat × Nat)} : x ∈ pieceSectors ps ↔ ∃ p ∈ ps, x ∈ sectorsOf p.1 p.2 := by
  simp only [pieceSectors, List.mem_dedup, List.mem_flatten, List.mem_map]
  exact ⟨fun ⟨_, ⟨p, hp, e⟩, hx⟩ => ⟨p, hp, e ▸ hx⟩, fun ⟨p, hp, hx⟩ => ⟨_, ⟨p, hp, rfl⟩, hx⟩⟩

theorem mem_spotSectors {x : Nat} {ts : List Spot} : x ∈ spotSectors ts ↔ ∃ t ∈ ts, ∃ p ∈ t.pieces, x ∈ sectorsOf p.1 p.2 := by
  unfold spotSectors
  simp only [mem_pieceSectors, List.mem_flatten, List.mem_map]
  exact ⟨fun ⟨p, ⟨_, ⟨t, ht, e⟩, hp⟩, hx⟩ => ⟨t, ht, p, e ▸ hp, hx⟩, fun ⟨t, ht, p, hp, hx⟩ => ⟨p, ⟨_, ⟨t, ht, rfl⟩, hp⟩, hx⟩⟩

theorem mem_partsFrom {p : Part} {lane ea : Nat} {ps : List (Nat × Nat)} :
    ∀ {off : Nat}, p ∈ partsFrom lane ea off ps → p.lane = lane ∧ p.ea = ea ∧ ∃ x ∈ ps, p.size = x.2 ∧ p.spot = .global [x] := by
  induction ps with
  | nil => exact fun h => absurd h List.not_mem_nil
  | cons x ps ih =>
    intro off h
    rcases List.mem_cons.1 h with rfl | h
    · exact ⟨rfl, rfl, x, List.mem_cons_self, rfl, rfl⟩
    · obtain ⟨h1, h2, y, hy, h3⟩ := ih h
      exact ⟨h1, h2, y, List.mem_cons_of_mem x hy, h3⟩

/-- Part p is of lane access a of n bytes: the whole of a scratchpad access, or bytes of one of its pieces. -/
def Part.of (p : Part) (n : Nat) (a : Nat × Nat × Spot) : Prop :=
  p.lane = a.1 ∧ p.ea = a.2.1 ∧ ((∃ fd off, a.2.2 = .scratch fd off ∧ p.spot = .scratch fd off ∧ p.size = n)
    ∨ ∃ ps, a.2.2 = .global ps ∧ ∃ x ∈ ps, ∃ y : Nat × Nat, p.spot = .global [y] ∧ p.size = y.2 ∧ x.1 ≤ y.1 ∧ y.1 + y.2 ≤ x.1 + x.2)

theorem mem_partsOf {p : Part} {n : Nat} {as : List (Nat × Nat × Spot)} (h : p ∈ partsOf n as) : ∃ a ∈ as, p.of n a := by
  obtain ⟨l, hl, hp⟩ := List.mem_flatten.1 h
  obtain ⟨⟨lane, ea, t⟩, ha, rfl⟩ := List.mem_map.1 hl
  refine ⟨_, ha, ?_⟩
  cases t with
  | scratch fd off =>
    rw [List.mem_singleton.1 hp]
    exact ⟨rfl, rfl, .inl ⟨fd, off, rfl, rfl, rfl⟩⟩
  | global ps =>
    obtain ⟨h1, h2, y, hy, h3, h4⟩ := mem_partsFrom hp
    obtain ⟨l, hl, hy⟩ := List.mem_flatten.1 hy
    obtain ⟨x, hx, rfl⟩ := List.mem_map.1 hl
    obtain ⟨lo, hi, -⟩ := mem_sectorPieces hy
    exact ⟨h1, h2, .inr ⟨ps, rfl, x, hx, y, h4, h3, lo, hi⟩⟩

/-- A part touches no other sector than its lane's access. -/
theorem Part.of_secs {p : Part} {n : Nat} {a : Nat × Nat × Spot} (h : p.of n a) {x : Nat} (hx : x ∈ p.secs) : x ∈ spotSectors [a.2.2] := by
  obtain ⟨-, -, ⟨fd, off, ha, hp, -⟩ | ⟨ps, ha, y, hy, z, hp, -, lo, hi⟩⟩ := h
  · rw [Part.secs, hp] at hx
    rwa [ha]
  · simp only [Part.secs, hp, mem_spotSectors, List.mem_singleton, exists_eq_left, Spot.pieces, mem_sectorsOf] at hx
    obtain ⟨b, h1, h2, hb⟩ := hx
    rw [ha]
    exact mem_spotSectors.2 ⟨_, List.mem_singleton_self _, y, hy, mem_sectorsOf.2 ⟨b, by omega, by omega, hb⟩⟩

theorem spotSectors_mono {t : Spot} {ts : List Spot} (h : t ∈ ts) {x : Nat} (hx : x ∈ spotSectors [t]) : x ∈ spotSectors ts := by
  obtain ⟨u, hu, p, hp, hx⟩ := mem_spotSectors.1 hx
  rw [List.mem_singleton.1 hu] at hp
  exact mem_spotSectors.2 ⟨t, h, p, hp, hx⟩

/-! ### Parts whose tokens are held (R378) -/

theorem lacking_nil_iff {s : State} {agent : Nat} {write : Bool} {secs : List Nat} :
    s.lacking agent write secs = [] ↔ ∀ x ∈ secs, s.isPeer x = false → s.mayAccess agent x write = true := by
  simp only [State.lacking, List.filter_eq_nil_iff, Bool.and_eq_true, Bool.not_eq_true', not_and, Bool.not_eq_false]

/-- Parts of an access that waits for no own store and whose tokens are held can be performed. -/
theorem partReady_of_held {s : State} {f : Furrow} {g : Group} {write : Bool} {n : Nat} {as : List (Nat × Nat × Spot)}
    (own : f.ownStore g.lanes (spotSectors (spotsOf as)) = false) (held : TokensHeld s f write (spotsOf as)) :
    ∀ p ∈ partsOf n as, s.partReady f g write p = true := by
  intro p hp
  obtain ⟨a, ha, hpa⟩ := mem_partsOf hp
  have sub : ∀ x ∈ p.secs, x ∈ spotSectors (spotsOf as) := fun x hx => spotSectors_mono (List.mem_map_of_mem ha) (Part.of_secs hpa hx)
  have tokens : s.lacking (dieAgent f.core) write p.secs = [] := lacking_nil_iff.2 (fun x hx => lacking_nil_iff.1 held x (sub x hx))
  have stores : f.ownStore g.lanes p.secs = false := by
    unfold Furrow.ownStore at own ⊢
    simp only [List.any_eq_false, Bool.and_eq_true, List.any_eq_true, List.contains_iff_mem, not_and, not_exists] at own ⊢
    exact fun y hy hl w hw z hz hm => own y hy hl w hw z hz (sub z hm)
  simp only [State.partReady, stores, tokens, Bool.not_false, List.isEmpty_nil, Bool.and_self]

theorem begun_of_fresh {g : Group} (h : g.accessing = false) : g.begun = ([], []) := by
  unfold Group.begun
  split
  · rename_i hw
    rw [Group.accessing, hw] at h
    cases h
  · rfl

/-- Nothing is read where there is no part. -/
theorem performParts_got (perform : State → Part → State × Nat × Bool) (ps : List Part) (s t : State) :
    (performParts perform ps (if ps.isEmpty then s else t)).2 = (performParts perform ps t).2 := by
  cases ps <;> rfl

/-- An access all of whose parts can be performed performs them and goes on with what they read (R378). -/
theorem withParts_ready {i : Instr} {s : State} {q : Issue} {f : Furrow} {g : Group} {m : Mask} {write : Bool} {new : List Part} {pre : State → State}
    {perform : State → Part → State × Nat × Bool} {done : State → List Nat → State} {hold : State → State} {k : State → List Got → Out}
    (fresh : g.accessing = false) (ahead : f.spec = none) (ready : ∀ p ∈ new, s.partReady f g write p = true) :
    let r := performParts perform new (if new.isEmpty then s else pre s)
    withParts i s q f g m write new pre perform done hold k =
      k (if new.isEmpty then r.1 else done r.1 (spotSectors (new.map Part.spot))) (performParts perform new (pre s)).2 := by
  have all : new.filter (s.partReady f g write) = new := List.filter_eq_self.2 ready
  have left : new.filter (fun p => !s.partReady f g write p) = [] := List.filter_eq_nil_iff.2 (fun p hp => by rw [ready p hp]; exact Bool.false_ne_true)
  intro r
  unfold withParts
  simp only [begun_of_fresh fresh, List.nil_append, all, left, ahead, Option.isSome_none, Bool.false_and, Bool.false_eq_true, if_false, List.isEmpty_nil,
    if_true, performParts_got perform new s (pre s)]
  rfl

/-- Work that each part does, all of them do. -/
theorem stirs_performParts {perform : State → Part → State × Nat × Bool} (h : ∀ s p, Stirs s (perform s p).1) (ps : List Part) :
    ∀ s : State, Stirs s (performParts perform ps s).1 := by
  induction ps with
  | nil => exact fun s => (Rouses.refl s).stirs
  | cons p ps ih => exact fun s => (h s p).trans (ih _)

theorem rouses_performParts {perform : State → Part → State × Nat × Bool} (h : ∀ s p, Rouses s (perform s p).1) (ps : List Part) :
    ∀ s : State, Rouses s (performParts perform ps s).1 := by
  induction ps with
  | nil => exact fun s => .refl s
  | cons p ps ih => exact fun s => (h s p).trans (ih _)

theorem rouses_readPart (f : Furrow) (n : Nat) (s : State) (p : Part) : Rouses s (State.readPart f n s p).1 := rouses_noteReads s _ _

/-! ### Poison (R241) -/

theorem SameBytes.spotPoison {s t : State} (h : SameBytes s t) (n : Nat) (x : Spot) : t.spotPoison n x = s.spotPoison n x := by
  unfold State.spotPoison State.field? State.poisonedPieces State.poisoned
  rw [h.poison, h.fields]

/-- What reads no poison reads none while other parts are read. -/
theorem readParts_clean (f : Furrow) (n : Nat) (ps : List Part) :
    ∀ {s : State}, NoneAhead s → (∀ p ∈ ps, s.spotPoison p.size p.spot = false) → poisonLanes (performParts (State.readPart f n) ps s).2 = [] := by
  induction ps with
  | nil => exact fun _ _ => rfl
  | cons p ps ih =>
    intro s hs clean
    obtain ⟨stirred, same⟩ := rouses_readPart f n s p hs
    have rest := ih (s := (State.readPart f n s p).1) (stirred.noneAhead hs)
      (fun x hx => by rw [same.spotPoison]; exact clean x (List.mem_cons_of_mem p hx))
    have head : (State.readPart f n s p).2.2 = false := clean p List.mem_cons_self
    unfold poisonLanes at rest ⊢
    simp only [performParts, List.filter_cons, head, Bool.false_eq_true, if_false]
    exact rest

end Sys2Proof.Machine
end

section
/-! O26: loads (R236 to R248, R265). -/
namespace Sys2Proof.Machine

/-! ### Loaded values -/

/-- A load's values reach no lane that is not active. -/
theorem writeLoad_active (f : Furrow) (t : Ty) (x2 : Bool) (d : Nat) {m : Mask} {x y : Nat → Nat} (h : ∀ i, inMask m i = true → x i = y i) :
    f.writeLoad t x2 d m x = f.writeLoad t x2 d m y := by
  unfold Furrow.writeLoad
  split
  · exact List.foldl_ext _ _ _ (fun v k _ => writeV_active v (d + k) (fun i hi => by rw [h i hi]))
  split
  · exact writePair_active f d (fun i hi => by rw [h i hi])
  · exact writeV_active f d (fun i hi => by rw [h i hi])

/-- A load's values reach `v` registers only. -/
theorem writeLoad_eq (f : Furrow) (t : Ty) (x2 : Bool) (d : Nat) (m : Mask) (x : Nat → Nat) :
    f.writeLoad t x2 d m x = { f with v := (f.writeLoad t x2 d m x).v } := by
  have only : ∃ y, f.writeLoad t x2 d m x = { f with v := y } := by
    unfold Furrow.writeLoad
    split
    · exact List.foldlRecOn (motive := fun v : Furrow => ∃ y, v = { f with v := y }) _ _ ⟨f.v, rfl⟩ (fun v hv k _ => by
        obtain ⟨y, rfl⟩ := hv
        exact ⟨_, rfl⟩)
    split <;> exact ⟨_, rfl⟩
  obtain ⟨y, hy⟩ := only
  rw [hy]

/-- They do not depend on what else the furrow has. -/
theorem writeLoad_v {f v : Furrow} (h : v.v = f.v) (t : Ty) (x2 : Bool) (d : Nat) (m : Mask) (x : Nat → Nat) :
    (v.writeLoad t x2 d m x).v = (f.writeLoad t x2 d m x).v := by
  have one : ∀ {a b : Furrow}, a.v = b.v → ∀ (n : Nat) (y : Nat → W32), (a.writeV n m y).v = (b.writeV n m y).v := fun e n y => by
    unfold Furrow.writeV Furrow.readV
    rw [e]
  unfold Furrow.writeLoad
  split
  · exact List.foldl_rel (r := fun a b : Furrow => a.v = b.v) h (fun k _ a b e => one e _ _)
  split
  · exact one (one h _ _) _ _
  · exact one h _ _

theorem sameRun_writeLoad (f : Furrow) (t : Ty) (x2 : Bool) (d : Nat) (m : Mask) (x : Nat → Nat) : SameRun f (f.writeLoad t x2 d m x) := by
  rw [writeLoad_eq]
  exact ⟨rfl, rfl, rfl, rfl, rfl, rfl, rfl, rfl⟩

theorem fpenv_writeLoad (f : Furrow) (t : Ty) (x2 : Bool) (d : Nat) (m : Mask) (x : Nat → Nat) : (f.writeLoad t x2 d m x).fpenv = f.fpenv := by
  rw [writeLoad_eq]

/-- The registers of a furrow with other `v` registers. -/
theorem regs_withV (f : Furrow) (x : Vector VReg 128) : ({ f with v := x } : Furrow).regs = { f.regs with v := x } := rfl

theorem Furrow.Kin.regs_withV {f v : Furrow} (h : f.Kin v) (x : Vector VReg 128) : ({ v with v := x } : Furrow).regs = ({ f with v := x } : Furrow).regs := by
  rw [Machine.regs_withV v x, Machine.regs_withV f x, h.regs]

theorem Furrow.Kin.regs_writeLoad {f v : Furrow} (h : f.Kin v) (t : Ty) (x2 : Bool) (d : Nat) (m : Mask) (x : Nat → Nat) :
    (v.writeLoad t x2 d m x).regs = (f.writeLoad t x2 d m x).regs := by
  rw [writeLoad_eq v, writeLoad_eq f, writeLoad_v h.v_eq, h.regs_withV]

/-- The table of what each lane read, in the lanes of a mask. -/
theorem gotTable_active (got : List Got) (m : Mask) : ∀ i, inMask m i = true → laneAt (gotTable got) i = gotOf got i :=
  fun _ hi => laneAt_tableOf (gotOf got) (BitVec.lt_of_getLsbD hi)

/-! ### Completion -/

theorem Stirred.again {s t : State} (h : Stirred s t) {f : Furrow} {c n : Nat} (hf : s.furrow? c n = some f) :
    ∃ v, t.furrow? c n = some v ∧ f.Kin v ∧ t.again f = v := by
  obtain ⟨v, hv, hk⟩ := h.kin hf
  obtain ⟨rfl, rfl⟩ := State.furrow?_place hf
  exact ⟨v, hv, hk, by rw [State.again, hv]; rfl⟩

/-- What an instruction that writes no byte leaves besides registers and PCs. -/
theorem Ends.kept {s u t : State} {q : Issue} {g : Group} {i : Instr} {f1 : Furrow} (e : Ends s u t q g i f1) (hu : Stirred s u) (b : SameBytes s u) :
    t.mem = s.mem ∧ t.poison = s.poison ∧ t.fields = s.fields ∧ t.ctxs = s.ctxs := by
  rw [e.rest]
  exact ⟨b.mem, b.poison, b.fields, hu.ctxs⟩

section
variable {s s0 s1 : State} {q : Issue} {f : Furrow} {g : Group} {i : Instr} {x : LM}

/-- A load that hits nothing in the reuse table writes what its lanes read and completes. -/
theorem load_ends {w : State} {m : Mask} (h : Issues s q f g i) (spill : NoSpill s q) (h1 : Stirred s s1) (hw : Stirred s1 w) (same : SameBytes s1 w)
    (eligible : i.reuseEligible = false) (miss : ∀ k, s1.lookup i f g m true = some k → k.hit = none) (got : List Got) (load : Option (Nat × List Nat)) :
    ∃ t, w.doneWith i q ((w.again f).writeLoad x.ty x.x2 x.d.val m (laneAt (gotTable got))) g m 0 load = .next t
      ∧ Ends s w t q g i (f.writeLoad x.ty x.x2 x.d.val m (gotOf got)) := by
  have all := h1.trans hw
  obtain ⟨v, hv, hk, again⟩ := all.again h.furrow
  rw [again, writeLoad_active v x.ty x.x2 x.d.val (gotTable_active got m)]
  obtain ⟨t, ht, ends⟩ := done_ends h all hv (sameRun_writeLoad v x.ty x.x2 x.d.val m (gotOf got)) m load
    (.inr (.inr ⟨all.noSpill h.furrow spill, fpenv_writeLoad v _ _ _ _ _, fun asked k e hl he => by
      rw [hw.lookup_misses same.fields hk miss (by simpa [eligible] using asked) hl] at he
      cases he⟩))
  exact ⟨t, ht, ends.congr (hk.regs_writeLoad _ _ _ _ _)⟩

/-- The accesses of a load all of whose parts can be read and none of which meets poison: its caches, then what follows what its lanes have read. -/
theorem loadParts {acq : Option Scope} {as : List (Nat × Nat × Spot)} {n : Nat} {l1 : Bool} (ahead : f.spec = none) (fresh : g.accessing = false)
    (hs : NoneAhead s1) (own : f.ownStore g.lanes (spotSectors (spotsOf as)) = false) (held : TokensHeld s1 f false (spotsOf as))
    (clean : ∀ p ∈ partsOf n as, s1.spotPoison p.size p.spot = false) :
    ∃ w, Stirred s1 w ∧ SameBytes s1 w ∧
      poisonLanes (performParts (State.readPart f n) (partsOf n as) (State.acquiring f acq s1)).2 = [] ∧
      ∀ (i : Instr) (q : Issue) (m : Mask) (hold : State → State) (k : State → List Got → Out),
        withParts i s1 q f g m false (partsOf n as) (State.acquiring f acq) (State.readPart f n) (State.partsRead f l1) hold k
          = k w (performParts (State.readPart f n) (partsOf n as) (State.acquiring f acq s1)).2 := by
  obtain ⟨acquired, same⟩ := rouses_acquiring s1 f acq hs
  have reads := fun u => rouses_performParts (rouses_readPart f n) (partsOf n as) u
  have work : Rouses s1 (if (partsOf n as).isEmpty then (performParts (State.readPart f n) (partsOf n as)
        (if (partsOf n as).isEmpty then s1 else State.acquiring f acq s1)).1
      else State.partsRead f l1 (performParts (State.readPart f n) (partsOf n as) (if (partsOf n as).isEmpty then s1 else State.acquiring f acq s1)).1
        (spotSectors ((partsOf n as).map Part.spot))) := by
    have begun : Rouses s1 (if (partsOf n as).isEmpty then s1 else State.acquiring f acq s1) := .ite (.refl s1) (rouses_acquiring s1 f acq)
    exact .ite (begun.trans (reads _)) ((begun.trans (reads _)).trans (rouses_partsRead _ f l1 _))
  obtain ⟨w, wsame⟩ := work hs
  exact ⟨_, w, wsame, readParts_clean f n _ (acquired.noneAhead hs) (fun p hp => by rw [same.spotPoison]; exact clean p hp),
    fun i q m hold k => withParts_ready fresh ahead (partReady_of_held own held)⟩

end

end Sys2Proof.Machine
end

section
/-! O26: a load that hits the reuse table (R80). -/
namespace Sys2Proof.Machine

/-- The `v` registers of a furrow with those that a list names taken from a list of results. -/
def Furrow.taking (f : Furrow) (d : List Nat) (e : ReuseEntry) : Vector VReg 128 :=
  Vector.ofFn (fun n : Fin 128 => match d.findIdx? (fun y => y == n.val) with
    | some j => e.results.getD j f.v[n]
    | none => f.v[n])

theorem Furrow.regs_onHit_clear (f f0 : Furrow) (d : List Nat) {e : ReuseEntry} (he : e.flags = 0) (h0 : f0.fpenv = f.fpenv) :
    (f.onHit f0 d e).regs = ({ f with v := f.taking d e } : Furrow).regs := by
  have clear : f0.fpenv ||| BitVec.ofNat 32 (e.flags % 64) = f.fpenv := by simp [he, h0]
  unfold Furrow.regs Furrow.onHit
  simp only [Regs.mk.injEq, and_true, true_and]
  exact ⟨rfl, clear⟩

theorem sameRun_onHit (f : Furrow) (sf : Option SpecFence) (f0 : Furrow) (d : List Nat) (e : ReuseEntry) :
    SameRun f (({ f with spec := sf } : Furrow).onHit f0 d e) := by
  unfold Furrow.onHit
  constructor <;> rfl

/-- What a hit without flags puts back (R80). -/
theorem afterVector_hit {s : State} {v : Furrow} {i : Instr} {g : Group} {m : Mask} {load : Option (Nat × List Nat)} {k : Lookup} {e : ReuseEntry}
    (asked : load.isSome = true) (look : s.lookup i v g m true = some k) (hit : k.hit = some e) (clear : e.flags = 0) :
    ∃ f2, SameRun v f2 ∧ f2.regs = ({ v with v := v.taking (vNames i.readsWrites.2) e } : Furrow).regs
      ∧ (s.afterVector i v v g m 0 load false).2 = 0 ∧ (s.afterVector i v v g m 0 load false).1.furrows = (s.setFurrow f2).furrows
      ∧ (s.afterVector i v v g m 0 load false).1 = { s with furrows := (s.afterVector i v v g m 0 load false).1.furrows,
                                                            cores := (s.afterVector i v v g m 0 load false).1.cores } := by
  have found : (if false || !(i.reuseEligible || load.isSome) then none else s.lookup i v g m load.isSome).bind Lookup.hit = some e := by
    rw [asked, Bool.or_true, look]
    exact hit
  unfold State.afterVector
  simp only [found]
  refine ⟨_, ?run, ?regs, clear, rfl, rfl⟩
  case run => exact sameRun_onHit v _ v _ e
  case regs => exact (Furrow.regs_onHit_clear { v with spec := _ } v _ clear rfl).trans rfl

theorem cores_noteLastSpot (s : State) (p : Party) (n : Nat) (t : Spot) : (s.noteLastSpot p n t).cores = s.cores := by
  have note : ∀ (u : State) (seqs : List Nat), (u.noteReads p seqs).cores = u.cores := fun u seqs => by
    unfold State.noteReads
    split <;> rfl
  cases t with
  | scratch fd off => exact note s _
  | global ps => exact List.foldlRecOn (motive := fun u : State => u.cores = s.cores) ps _ rfl (fun u hu x _ => (note u _).trans hu)

theorem cores_hitRead (s : State) (f : Furrow) (n : Nat) (as : List (Nat × Nat × Spot)) : (s.hitRead f n as).cores = s.cores :=
  List.foldlRecOn (motive := fun u : State => u.cores = s.cores) as _ rfl (fun u hu a _ => (cores_noteLastSpot u _ n a.2.2).trans hu)

/-- With no furrow ahead such a hit leaves every furrow. -/
theorem again_hitRead {s : State} (hs : NoneAhead s) (f : Furrow) (n : Nat) (as : List (Nat × Nat × Spot)) : (s.hitRead f n as).again f = s.again f := by
  have note : ∀ (u : State) (p : Party) (seqs : List Nat), (u.noteReads p seqs).furrows = u.furrows := fun u p seqs => by
    unfold State.noteReads
    split <;> rfl
  have spot : ∀ (u : State) (p : Party) (t : Spot), (u.noteLastSpot p n t).furrows = u.furrows := fun u p t => by
    cases t with
    | scratch fd off => exact note u p _
    | global ps => exact List.foldlRecOn (motive := fun w : State => w.furrows = u.furrows) ps _ rfl (fun w hw x _ => (note w p _).trans hw)
  have noted : (as.foldl (fun s a => s.noteLastSpot (f.party (1 <<< a.1)) n a.2.2) s).furrows = s.furrows :=
    List.foldlRecOn (motive := fun u : State => u.furrows = s.furrows) as _ rfl (fun u hu a _ => (spot u _ a.2.2).trans hu)
  have same : (s.hitRead f n as).furrows = s.furrows := by
    unfold State.hitRead State.onFurrow
    dsimp only
    rw [noted]
    refine (List.map_congr_left (fun v hv => ?_)).trans (List.map_id _)
    rw [Furrow.noteRead_of_none (hs v hv), ite_self]
    rfl
  unfold State.again State.furrow?
  rw [same]

theorem rouses_hitRead (s : State) (f : Furrow) (n : Nat) (as : List (Nat × Nat × Spot)) : Rouses s (s.hitRead f n as) :=
  (Rouses.foldl (fun u a => rouses_noteLastSpot u _ n a.2.2) as s).trans (rouses_noteRead _ _ _ _)

/-- A look-up finds the same after work that leaves the reuse tables. -/
theorem Stirred.lookup_same {s t : State} (h : Stirred s t) (hf : t.fields = s.fields) (hc : t.cores = s.cores) {f v : Furrow} (hk : f.Kin v) (i : Instr)
    (g : Group) (m : Mask) (load : Bool) : t.lookup i v g m load = s.lookup i f g m load := by
  have table : t.quarterTable v = s.quarterTable f := by
    rw [show t.quarterTable v = t.quarterTable f from hk.read t.quarterTable]
    unfold State.quarterTable State.core
    rw [hc]
  rw [h.lookup hf hk, table, State.lookup_eq]

section
variable {s s1 : State} {q : Issue} {f : Furrow} {g : Group} {i : Instr}

/-- A load that hits a Valid entry takes its results (R80). -/
theorem hit_ends {w : State} {m : Mask} {load : Option (Nat × List Nat)} {k : Lookup} {e : ReuseEntry} (h : Issues s q f g i) (h1 : Stirred s s1)
    (hw : Stirred s1 w) (fields : w.fields = s1.fields) (cores : w.cores = s1.cores) (some_m : m ≠ 0) (dests : vNames i.readsWrites.2 ≠ [])
    (asked : load.isSome = true) (look : s1.lookup i f g m true = some k) (hit : k.hit = some e) (clear : e.flags = 0) :
    ∃ t, w.doneWith i q (w.again f) g m 0 load = .next t ∧ Ends s w t q g i { f with v := f.taking (vNames i.readsWrites.2) e } := by
  have all := h1.trans hw
  obtain ⟨v, hv, hk, again⟩ := all.again h.furrow
  obtain ⟨core, slot⟩ := State.furrow?_place hv
  obtain ⟨f2, run, regs, flags, put, rest⟩ := afterVector_hit (g := g) (m := m) (load := load) asked
    ((hw.lookup_same fields cores hk i g m true).trans look) hit clear
  have wrote : w.wrote i q v g m 0 load = w.afterVector i v v g m 0 load false := by
    unfold State.wrote
    rw [raise_zero, if_neg (by simpa [dests] using some_m), hv, h.own]
    rfl
  rw [again]
  refine ⟨_, rfl, ?_⟩
  rw [wrote]
  generalize w.afterVector i v v g m 0 load false = r at flags put rest ⊢
  obtain ⟨u, fl⟩ := r
  dsimp only at flags put rest ⊢
  have look2 : ∀ c n, u.furrow? c n = (w.setFurrow f2).furrow? c n := fun c n => by unfold State.furrow?; rw [put]
  have own : u.furrow? q.core q.slot = some f2 := by
    rw [look2]
    exact State.furrow?_setFurrow_self hv (run.core.trans core) (run.slot.trans slot)
  have others : ∀ c n, (c ≠ q.core ∨ n ≠ q.slot) → u.regs? c n = w.regs? c n := fun c n hcn => by
    unfold State.regs?
    rw [look2, State.furrow?_setFurrow_ne (by rw [run.core, run.slot, core, slot]; exact hcn)]
  have ends := stepOver_ends h all.loose hv own run.groups run.level run.step run.ending others rest
  have advance : u.advance i q v g m fl = u.stepOver q g (nextPc g.pc i.words) i.chained := by
    subst flags
    unfold State.advance
    dsimp only
    rw [if_pos (show 0 &&& v.trapEnables = 0 from Nat.zero_and _), ite_self]
  rw [advance]
  refine ends.congr (regs.trans ?_)
  rw [hk.regs_withV, show v.taking (vNames i.readsWrites.2) e = f.taking (vNames i.readsWrites.2) e by unfold Furrow.taking; rw [hk.v_eq]]

end

/-- A load names a register that it writes. -/
theorem vNames_ld (x : LM) : vNames (Instr.ld x).readsWrites.2 ≠ [] := by
  have first : x.d.val ∈ vNames (Instr.ld x).readsWrites.2 := List.mem_filterMap.2 ⟨.v x.d.val, by
    show _ ∈ vSpan x.d (memWidth x.ty x.x2)
    unfold vSpan
    split_ifs <;> exact List.mem_cons_self, by simp [x.d.isLt]⟩
  exact List.ne_nil_of_mem first

end Sys2Proof.Machine
end

section
/-! O26: each kind of load, and what a lane that is bound to every write reads. -/
namespace Sys2Proof.Machine

section
variable {s s0 s1 : State} {q : Issue} {f : Furrow} {g : Group} {x : LM} {as : List (Nat × Nat × Spot)}

/-- The access of a load of each lane all of whose parts can be read: the values, the group at the next word. -/
theorem loadLanes_ends {i : Instr} {acq : Option Scope} (h : Issues s q f g i) (hs : NoneAhead s) (spill : NoSpill s q) (hm : f.activeSet i g ≠ 0)
    (eligible : i.reuseEligible = false)
    (pass : Passes s f g (f.activeSet i g) (memBytes x) 1 {} (fun _ _ => false) (f.eaOf x) s1 as)
    (held : TokensHeld s1 f false (spotsOf as)) (own : f.ownStore g.lanes (spotSectors (spotsOf as)) = false)
    (clean : ∀ p ∈ partsOf (memBytes x) as, s1.spotPoison p.size p.spot = false)
    (miss : ∀ k, s1.lookup i f g (f.activeSet i g) true = some k → k.hit = none) :
    ∃ w t, loadLanes i x acq s = .next t ∧ Stirred s w ∧ SameBytes s w ∧ Ends s w t q g i (f.writeLoad x.ty x.x2 x.d.val (f.activeSet i g)
      (gotOf (performParts (State.readPart f (memBytes x)) (partsOf (memBytes x) as) (State.acquiring f acq s1)).2)) := by
  obtain ⟨h1, same1⟩ := pass.rouses hs
  have hs1 := h1.noneAhead hs
  have no_hit : (s1.lookup i f g (f.activeSet i g) true).any (fun k => k.hit.isSome) = false := by
    cases look : s1.lookup i f g (f.activeSet i g) true with
    | none => rfl
    | some k => simp [miss k look]
  have ahead : s1.loadAhead f as = true := by unfold State.loadAhead; rw [h.ahead]
  obtain ⟨w, hw, same, none_bad, parts⟩ := loadParts (acq := acq) (l1 := !x.vol) h.ahead pass.fresh hs1 own held clean
  obtain ⟨hsync, sync_same⟩ := rouses_synced w f (f.activeSet i g) acq (hw.noneAhead hs1)
  obtain ⟨t, ht, ends⟩ := load_ends (x := x) h spill h1 (hw.trans hsync) (same.trans sync_same) eligible miss
    (performParts (State.readPart f (memBytes x)) (partsOf (memBytes x) as) (State.acquiring f acq s1)).2
    (if acq.isNone && !x.vol then w.reusable f (performParts (State.readPart f (memBytes x)) (partsOf (memBytes x) as) (State.acquiring f acq s1)).2
      else none)
  refine ⟨_, t, ?_, (h1.trans hw).trans hsync, (same1.trans same).trans sync_same, ends⟩
  unfold loadLanes
  rw [running_issues h]
  simp only [hm, pass.fresh, if_false, Bool.false_eq_true, withSpots_passes pass, ahead, no_hit, Bool.not_true, Bool.and_false, parts,
    none_bad, List.isEmpty_nil]
  exact ht

/-- A gather all of whose lanes pass, with no store-release of its group still to be performed (R248, R265). -/
theorem execGth_ends (h : Issues s q f g (.gth x)) (hs : NoneAhead s) (spill : NoSpill s q) (hm : f.activeSet (.gth x) g ≠ 0)
    (posted : ∀ p ∈ f.posted, p.lanes &&& g.lanes ≠ 0 → p.rel = 0)
    (pass : Passes (s.publishReleases (f.party g.lanes)) f g (f.activeSet (.gth x) g) (memBytes x) 1 {} (fun _ _ => false) (f.eaOf x) s1 as)
    (held : TokensHeld s1 f false (spotsOf as)) (own : f.ownStore g.lanes (spotSectors (spotsOf as)) = false)
    (clean : ∀ p ∈ partsOf (memBytes x) as, s1.spotPoison p.size p.spot = false)
    (miss : ∀ k, s1.lookup (.gth x) f g (f.activeSet (.gth x) g) true = some k → k.hit = none) :
    ∃ w t, execGth x s = .next t ∧ Stirred s w ∧ SameBytes s w ∧ Ends s w t q g (.gth x) (f.writeLoad x.ty x.x2 x.d.val (f.activeSet (.gth x) g)
      (gotOf (performParts (State.readPart f (memBytes x)) (partsOf (memBytes x) as) s1).2)) := by
  obtain ⟨h1, same1⟩ := ((rouses_publishReleases s _).trans pass.rouses) hs
  have hs1 := h1.noneAhead hs
  have waiting : f.posted.any (fun p => p.rel != 0 && p.lanes &&& g.lanes != 0) = false := by
    simp only [List.any_eq_false, Bool.and_eq_true, bne_iff_ne, not_and, not_not]
    exact fun p hp hr => by_contra fun hl => hr (posted p hp hl)
  obtain ⟨r, hr, no_wait, split⟩ := pass.split
  obtain ⟨w, hw, same, none_bad, parts⟩ := loadParts (acq := none) (l1 := !x.vol) h.ahead pass.fresh hs1 own held clean
  obtain ⟨t, ht, ends⟩ := load_ends (x := x) h spill h1 hw same rfl miss
    (performParts (State.readPart f (memBytes x)) (partsOf (memBytes x) as) s1).2 none
  refine ⟨w, t, ?_, h1.trans hw, same1.trans same, ends⟩
  unfold execGth
  rw [running_issues h]
  simp only [hm, pass.fresh, waiting, hr, no_wait, split, if_false, Bool.false_eq_true, List.isEmpty_nil, Bool.not_true]
  unfold gatherReads
  refine (parts _ _ _ _ _).trans ?_
  have none_lost : f.activeSet (.gth x) g &&& ~~~(accLanes []) = f.activeSet (.gth x) g := by
    rw [show ~~~(accLanes []) = BitVec.allOnes 32 by decide, BitVec.and_allOnes]
  unfold gatherDone State.done
  simp only [State.acquiring] at none_bad ⊢
  simp only [none_bad, List.isEmpty_nil, if_true, none_lost]
  exact ht

/-- A uniform load reads at the lowest active lane's place, and writes its `w` register (R243). -/
theorem loadUniform_ends {i : Instr} {acq : Option Scope} {a : Nat × Nat × Spot} (h : Issues s q f g i) (hs : NoneAhead s) (hm : f.activeSet i g ≠ 0)
    (pass : Passes s f g (f.activeSet i g) (memBytes x) 1 {} (fun _ _ => false) (f.eaOf x) s1 (a :: as))
    (held : TokensHeld s1 f false [a.2.2]) (own : f.ownStore g.lanes (spotSectors [a.2.2]) = false)
    (clean : ∀ p ∈ partsOf (memBytes x) [a], s1.spotPoison p.size p.spot = false) :
    let v := gotOf (performParts (State.readPart f (memBytes x)) (partsOf (memBytes x) [a]) (State.acquiring f acq s1)).2 a.1
    ∃ w t, loadUniform i x acq s = .next t ∧ Stirred s w ∧ SameBytes s w ∧
      Ends s w t q g i (f.writeW x.d.val (if x.ty.isSigned then BitVec.ofInt 64 (sext v x.ty.width) else BitVec.ofNat 64 v)) := by
  obtain ⟨h1, same1⟩ := pass.rouses hs
  have hs1 := h1.noneAhead hs
  have lowest : lowestLane (f.activeSet i g) = a.1 := by
    unfold lowestLane
    rw [← pass.lanes]
    rfl
  obtain ⟨w, hw, same, none_bad, parts⟩ := loadParts (as := [a]) (acq := acq) (l1 := !x.vol) h.ahead pass.fresh hs1 own held clean
  obtain ⟨hsync, sync_same⟩ := rouses_synced w f (1 <<< a.1) acq (hw.noneAhead hs1)
  have all := (h1.trans hw).trans hsync
  obtain ⟨v, hv, hk, again⟩ := all.again h.furrow
  intro value
  let word := if x.ty.isSigned then BitVec.ofInt 64 (sext value x.ty.width) else BitVec.ofNat 64 value
  obtain ⟨t, ht, ends⟩ := done_ends h all hv (sameRun_writeW v x.d.val word) 0 none (.inr (.inl rfl))
  refine ⟨_, t, ?_, all, (same1.trans same).trans sync_same, ends.congr (regs_writeW_congr hk.regs _ _)⟩
  unfold loadUniform
  rw [running_issues h]
  simp only [hm, pass.fresh, if_false, Bool.false_eq_true, withSpots_passes pass, List.take_succ_cons, List.take_zero, parts, none_bad, lowest]
  rw [again]
  exact ht

/-- A load that hits makes no access (R80). -/
theorem loadLanes_hit_ends {k : Lookup} {e : ReuseEntry} (h : Issues s q f g (.ld x)) (hs : NoneAhead s) (hm : f.activeSet (.ld x) g ≠ 0)
    (plain : x.vol = false) (pass : Passes s f g (f.activeSet (.ld x) g) (memBytes x) 1 {} (fun _ _ => false) (f.eaOf x) s1 as)
    (region : (reuseRegion (partsOf (memBytes x) as)).isSome = true) (look : s1.lookup (.ld x) f g (f.activeSet (.ld x) g) true = some k)
    (hit : k.hit = some e) (clear : e.flags = 0) :
    ∃ w t, execLd x s = .next t ∧ Stirred s w ∧ SameBytes s w
      ∧ Ends s w t q g (.ld x) { f with v := f.taking (vNames (Instr.ld x).readsWrites.2) e } := by
  obtain ⟨h1, same1⟩ := pass.rouses hs
  obtain ⟨hw, same⟩ := rouses_hitRead s1 f (memBytes x) as (h1.noneAhead hs)
  obtain ⟨t, ht, ends⟩ := hit_ends h h1 hw same.fields (cores_hitRead s1 f (memBytes x) as) hm (vNames_ld x) region look hit clear
  refine ⟨_, t, ?_, h1.trans hw, same1.trans same, ends⟩
  have ahead : s1.loadAhead f as = true := by unfold State.loadAhead; rw [h.ahead]
  unfold execLd loadLanes
  rw [running_issues h]
  simp only [hm, pass.fresh, if_false, Bool.false_eq_true, withSpots_passes pass, ahead, plain, Bool.not_true, Bool.not_false,
    Option.isNone_none, Bool.and_self, if_true, region, look, hit, Option.any_some, Option.isSome_some]
  rw [← again_hitRead (h1.noneAhead hs) f (memBytes x) as]
  exact ht

end

end Sys2Proof.Machine
end

section
/-! O26: what a lane that is bound to every recorded write reads (R131, R135, R137). -/
namespace Sys2Proof.Machine

/-! ### Consecutive bytes -/

theorem leNat_append (a b : List Byte) : leNat (a ++ b) = leNat a + 256 ^ a.length * leNat b := by
  induction a with
  | nil => simp [leNat]
  | cons x a ih => rw [List.cons_append, leNat, leNat, ih, List.length_cons, Nat.pow_succ]; ring

theorem bytesAt_length (s : State) (pa n : Nat) : (s.bytesAt pa n).length = n := by rw [State.bytesAt, cellsRead_eq, List.length_map, List.length_range]

theorem bytesAt_add (s : State) (pa a b : Nat) : s.bytesAt pa (a + b) = s.bytesAt pa a ++ s.bytesAt (pa + a) b := by
  simp only [State.bytesAt, cellsRead_eq, List.range_add, List.map_append, List.map_map, Function.comp_def, Nat.add_assoc]

/-- Pieces that follow each other from an address on, of n bytes together. -/
def Tiles : Nat → Nat → List (Nat × Nat) → Prop
  | _, n, [] => n = 0
  | pa, n, p :: ps => p.1 = pa ∧ p.2 ≤ n ∧ Tiles (pa + p.2) (n - p.2) ps

/-- Those of some bytes by sectors, from a sector of theirs on. -/
theorem tiles_from (lo hi m : Nat) : ∀ x : Nat, lo < x + 64 → x + 64 * m < hi → lo < hi → hi ≤ x + 64 * (m + 1) →
    Tiles (max lo x) (hi - max lo x) ((List.range (m + 1)).map (fun k => (max lo (x + 64 * k), min hi (x + 64 * k + 64) - max lo (x + 64 * k)))) := by
  induction m with
  | zero =>
    intro x h1 h2 h3 h4
    refine ⟨rfl, ?_, ?_⟩
    · dsimp only; omega
    · show _ - _ = 0
      dsimp only
      omega
  | succ m ih =>
    intro x h1 h2 h3 h4
    rw [List.range_succ_eq_map, List.map_cons, List.map_map]
    have next := ih (x + 64) (by omega) (by omega) h3 (by omega)
    have shift : ((fun k => (max lo (x + 64 * k), min hi (x + 64 * k + 64) - max lo (x + 64 * k))) ∘ Nat.succ) =
        fun k => (max lo (x + 64 + 64 * k), min hi (x + 64 + 64 * k + 64) - max lo (x + 64 + 64 * k)) := by
      funext k
      simp only [Function.comp_apply, Nat.succ_eq_add_one, show x + 64 * (k + 1) = x + 64 + 64 * k by omega]
    rw [shift]
    refine ⟨rfl, by dsimp only; omega, ?_⟩
    have here : max lo x + (min hi (x + 64 * 0 + 64) - max lo (x + 64 * 0)) = max lo (x + 64) := by omega
    have left : hi - max lo x - (min hi (x + 64 * 0 + 64) - max lo (x + 64 * 0)) = hi - max lo (x + 64) := by omega
    dsimp only
    rw [here, left]
    exact next

/-- The pieces of some bytes by sectors are all of them in their order. -/
theorem tiles_sectorPieces (pa n : Nat) : Tiles pa n (sectorPieces pa n) := by
  unfold sectorPieces sectorsOf
  split
  · rename_i h
    exact h
  · rename_i hn
    rw [List.map_map]
    have all := tiles_from pa (pa + n) ((sectorOf (pa + n - 1) - sectorOf pa) / 64) (sectorOf pa) (lt_sectorOf_add pa)
      (by unfold sectorOf; omega) (by omega) (by unfold sectorOf; omega)
    rw [Nat.max_eq_left (sectorOf_le pa), Nat.add_sub_cancel_left] at all
    exact all

/-! ### Reads of a lane that is bound to every write -/

/-- A lane of furrow f must see every recorded write. -/
def State.AllBind (s : State) (f : Furrow) (lane : Nat) : Prop := ∀ w ∈ s.recent, w.binds s.cycles (s.laneReader f lane) = true

/-- A write that is read binds whom it bound. -/
theorem Write.binds_readBy {w : Write} {now : Nat} {r : Reader} (h : w.binds now r = true) (p : Party) (at_ : Nat) : (w.readBy p at_).binds now r = true := by
  unfold Write.readBy
  split
  · exact h
  · unfold Write.binds at h ⊢
    simp only [Bool.or_eq_true, Bool.and_eq_true] at h ⊢
    rcases h with (((((h | h) | h) | h) | h) | h) | ⟨hc, h⟩
    · exact .inl (.inl (.inl (.inl (.inl (.inl h)))))
    · exact .inl (.inl (.inl (.inl (.inl (.inr h)))))
    · refine .inl (.inl (.inl (.inl (.inr ?_))))
      split
      · exact h
      · rw [List.any_cons, h, Bool.or_true]
    · exact .inl (.inl (.inl (.inr h)))
    · exact .inl (.inl (.inr h))
    · exact .inl (.inr h)
    · refine .inr ⟨hc, ?_⟩
      split
      · exact h
      · rw [List.any_cons, h, Bool.or_true]

theorem noteReads_rest (s : State) (p : Party) (seqs : List Nat) :
    s.noteReads p seqs = { s with order := (s.noteReads p seqs).order, recent := (s.noteReads p seqs).recent } := by
  unfold State.noteReads
  split <;> rfl

theorem State.AllBind.noteReads {s : State} {f : Furrow} {lane : Nat} (h : s.AllBind f lane) (p : Party) (seqs : List Nat) :
    (s.noteReads p seqs).AllBind f lane := by
  unfold State.noteReads
  split
  · exact h
  · intro w hw
    obtain ⟨y, hy, rfl⟩ := List.mem_map.1 hw
    split
    · exact Write.binds_readBy (h y hy) _ _
    · exact h y hy

/-- A write that is seen leaves the bytes read. -/
theorem Write.meet_seen (w : Write) (addr : Nat) (x : List Byte × List Bool × List Nat) : (w.meet true addr x).1 = x.1 := by
  unfold Write.meet
  dsimp only
  split
  · rfl
  · rfl

/-- Such a reader passes no write by. -/
theorem readUnit_bound {s : State} {r : Reader} (h : ∀ w ∈ s.recent, w.binds s.cycles r = true) (space field addr : Nat) (bs : List Byte) :
    (s.readUnit r space field addr bs).1 = bs := by
  unfold State.readUnit
  refine List.foldlRecOn (motive := fun x : List Byte × List Bool × List Nat => x.1 = bs) _ _ rfl (fun x hx w hw => ?_)
  have sees := h w (List.mem_filter.1 hw).1
  dsimp only
  rw [sees, Bool.true_or, Write.meet_seen]
  exact hx

theorem flatten_take_drop (bs : List Byte) : ((List.range bs.length).map (fun j => (bs.drop j).take 1)).flatten = bs := by
  induction bs with
  | nil => rfl
  | cons b bs ih =>
    rw [List.length_cons, List.range_succ_eq_map, List.map_cons, List.map_map, List.flatten_cons]
    exact congrArg (b :: ·) ih

/-- The bytes that it sees are those that stand there. -/
theorem seenBytes_bound {s : State} {r : Reader} (h : ∀ w ∈ s.recent, w.binds s.cycles r = true) (space field addr : Nat) (whole : Bool) (bs : List Byte) :
    s.seenBytes r space field addr (lsUnits whole addr bs.length) bs = bs := by
  unfold State.seenBytes State.readUnits lsUnits
  split
  · rfl
  · simp only [List.map_map, Function.comp_def, readUnit_bound h]
    split
    · simp
    · rw [List.map_map]
      simp only [Function.comp_def, Nat.add_sub_cancel_left]
      exact flatten_take_drop bs

/-- One part that it reads in memory of its package or of a host: the bytes there. -/
theorem readPart_bound {s : State} {f : Furrow} {p : Part} {pa k n : Nat} (h : s.AllBind f p.lane) (spot : p.spot = .global [(pa, k)])
    (own : s.isPeer pa = false) : (State.readPart f n s p).2.1 = leNat (s.bytesAt pa k) := by
  have bytes : s.pieceBytes f.core (pa, k) = s.bytesAt pa k := by
    unfold State.pieceBytes
    rw [own]
    rfl
  show leNat (State.spotBytes s f.core _ _ _ _) = _
  unfold State.spotBytes State.spotPieces
  simp only [spot, List.map_cons, List.map_nil, List.flatten_cons, List.flatten_nil, List.append_nil, bytes]
  rw [seenBytes_bound h]

/-- Parts that follow each other: together the bytes there. -/
theorem gotOf_bound (f : Furrow) (lane ea n : Nat) (ps : List (Nat × Nat)) : ∀ (s : State) (pa len off acc : Nat), s.AllBind f lane →
    (∀ p ∈ ps, s.isPeer p.1 = false) → Tiles pa len ps →
    (performParts (State.readPart f n) (partsFrom lane ea off ps) s).2.foldl (fun a x => if x.part.lane = lane then a + x.val * 256 ^ x.part.off else a) acc
      = acc + 256 ^ off * leNat (s.bytesAt pa len) := by
  induction ps with
  | nil =>
    rintro s pa len off acc - - rfl
    exact (Nat.add_zero acc).symm ▸ rfl
  | cons p ps ih =>
    rintro s pa len off acc bind own ⟨rfl, le, tiles⟩
    let t := (State.readPart f n s { lane := lane, ea := ea, off := off, size := p.2, spot := .global [(p.1, p.2)] }).1
    have kept : t = { s with order := t.order, recent := t.recent } := noteReads_rest s _ _
    have rest := ih t (p.1 + p.2) (len - p.2) (off + p.2) (acc + leNat (s.bytesAt p.1 p.2) * 256 ^ off) (bind.noteReads _ _)
      (fun x hx => by rw [kept]; exact own x (List.mem_cons_of_mem p hx)) tiles
    have same : t.bytesAt (p.1 + p.2) (len - p.2) = s.bytesAt (p.1 + p.2) (len - p.2) := by rw [kept]; rfl
    have first := readPart_bound (s := s) (f := f) (n := n) (p := { lane := lane, ea := ea, off := off, size := p.2, spot := .global [(p.1, p.2)] }) bind rfl
      (own p List.mem_cons_self)
    simp only [partsFrom, performParts, List.foldl_cons, if_true, first]
    refine rest.trans ?_
    have all : s.bytesAt p.1 len = s.bytesAt p.1 p.2 ++ s.bytesAt (p.1 + p.2) (len - p.2) := by rw [← bytesAt_add, Nat.add_sub_cancel' le]
    rw [same, all, leNat_append, bytesAt_length, Nat.pow_add]
    ring

/-- Settles O26, by the parts of each kind of load and what a lane bound to every write reads of them. -/
theorem loads : Obligations.Loads := by
  refine ⟨?each, ?uniform, ?hit, ?bound⟩
  case each =>
    intro s s0 s1 q f g x i acq as kind h hs spill hm posted pass held own ps clean miss
    have kept : ∀ {w t : State} {f1 : Furrow}, Stirred s w → SameBytes s w → Ends s w t q g i f1 →
        Lands t q g i f1 ∧ OthersKept s t q ∧ t.mem = s.mem ∧ t.poison = s.poison ∧ t.fields = s.fields ∧ t.ctxs = s.ctxs :=
      fun hw same e => ⟨e.own, e.others, e.kept hw same⟩
    simp only [List.mem_cons, Prod.mk.injEq, List.not_mem_nil, or_false] at kind
    rcases kind with ⟨rfl, rfl, rfl⟩ | ⟨rfl, rfl, rfl⟩ | ⟨rfl, rfl, rfl⟩
    · obtain ⟨w, t, ht, hw, same, ends⟩ := loadLanes_ends (acq := none) h hs spill hm rfl pass held own clean miss
      exact ⟨t, ht, kept hw same ends⟩
    · obtain ⟨w, t, ht, hw, same, ends⟩ := loadLanes_ends (acq := some x.scope) h hs spill hm rfl pass held own clean miss
      exact ⟨t, ht, kept hw same ends⟩
    · obtain ⟨w, t, ht, hw, same, ends⟩ := execGth_ends h hs spill hm (fun p hp hl => posted p hp hl rfl) pass held own clean miss
      exact ⟨t, ht, kept hw same ends⟩
  case uniform =>
    intro s s1 q f g x i acq a as kind h hs hm pass held own ps clean v
    simp only [List.mem_cons, Prod.mk.injEq, List.not_mem_nil, or_false] at kind
    obtain ⟨w, t, ht, hw, same, ends⟩ := loadUniform_ends (acq := acq) h hs hm pass held own clean
    refine ⟨t, ?_, ends.own, ends.others, ends.kept hw same⟩
    rcases kind with ⟨rfl, rfl⟩ | ⟨rfl, rfl⟩
    · exact ht
    · exact ht
  case hit =>
    intro s s1 q f g x as k e i m d h hs _ hm plain pass region look hit clear
    obtain ⟨w, t, ht, hw, same, ends⟩ := loadLanes_hit_ends h hs hm plain pass region look hit clear
    obtain ⟨mem, -, fields, ctxs⟩ := ends.kept hw same
    exact ⟨t, ht, ends.own, ends.others, mem, fields, ctxs⟩
  case bound =>
    intro s f n lane ea pa bind own _
    have parts : partsOf n [(lane, ea, .global [(pa, n)])] = partsFrom lane ea 0 (sectorPieces pa n) := by simp [partsOf]
    have all := gotOf_bound f lane ea n (sectorPieces pa n) s pa n 0 0 bind (fun p hp => by
      obtain ⟨lo, hi, pos⟩ := mem_sectorPieces hp
      rw [show p.1 = pa + (p.1 - pa) by omega]
      exact own _ (by omega)) (tiles_sectorPieces pa n)
    rw [parts]
    refine Eq.trans all ?_
    rw [Nat.pow_zero, Nat.one_mul, Nat.zero_add]

end Sys2Proof.Machine
end

section
/-! Writes of bytes in memory and in scratchpads: the bytes they leave, and that they are work that other furrows do not see (R125, R136, R137). -/
namespace Sys2Proof.Machine

/-! ### Bytes -/

theorem SameBytes.foldl {α : Type} {k : State → α → State} (h : ∀ s x, SameBytes s (k s x)) (l : List α) (s : State) : SameBytes s (l.foldl k s) :=
  List.foldlRecOn l k (SameBytes.refl s) (fun t ht x _ => ht.trans (h t x))

theorem SameBytes.ite {s a b : State} {p : Prop} [Decidable p] (ha : SameBytes s a) (hb : SameBytes s b) : SameBytes s (if p then a else b) := by
  split
  · exact ha
  · exact hb

theorem SameBytes.writeBytes {s t : State} (h : SameBytes s t) (pa : Nat) (bs : List Byte) : SameBytes (s.writeBytes pa bs) (t.writeBytes pa bs) :=
  ⟨congrArg (cellsWrite · pa bs) h.mem, congrArg (poisonAfter · pa bs.length) h.poison, h.fields⟩

theorem SameBytes.onField {s t : State} (h : SameBytes s t) (fd : Nat) (k : Field → Field) : SameBytes (s.onField fd k) (t.onField fd k) :=
  ⟨h.mem, h.poison, congrArg (fun l : List Field => mapIf l (fun f => f.id == fd) k) h.fields⟩

theorem SameBytes.cell {s t : State} (h : SameBytes s t) (space : Option Nat) (a : Nat) : t.cell space a = s.cell space a := by
  unfold State.cell State.byteAt State.field?
  rw [h.mem, h.fields]

section
variable (s : State)

theorem sameBytes_wake (t : Watch → Bool) : SameBytes s (s.wake t) := ⟨rfl, rfl, rfl⟩

theorem sameBytes_killLoads (on : Nat → Bool) (t : ReuseEntry → Bool) : SameBytes s (s.killLoads on t) := ⟨rfl, rfl, rfl⟩

theorem sameBytes_rollbackReaders (on : Nat → Bool) (pa : Nat) : SameBytes s (s.rollbackReaders on pa) :=
  .foldl (fun t f => by
    split
    · exact .ite (⟨rfl, rfl, rfl⟩) (.refl t)
    · exact .refl t) s.furrows s

theorem sameBytes_dropL1 (on : Nat → Bool) (pa : Nat) : SameBytes s (s.dropL1 on pa) := by
  refine .trans (.trans (.trans ?_ (sameBytes_killLoads _ _ _)) (sameBytes_rollbackReaders _ _ _)) (sameBytes_wake _ _)
  exact ⟨rfl, rfl, rfl⟩

theorem sameBytes_onDie (d : Nat) (k : Die → Die) : SameBytes s (s.onDie d k) := ⟨rfl, rfl, rfl⟩

theorem sameBytes_dropPeer (die : Nat) (secs : List Nat) : SameBytes s (s.dropPeer die secs) :=
  (sameBytes_onDie s die _).trans (.foldl (fun t x => sameBytes_dropL1 t _ x) secs _)

theorem sameBytes_keepHome (sec : Nat) : SameBytes s (s.keepHome sec) := by
  unfold State.keepHome
  split
  · exact .ite (.refl s) (⟨rfl, rfl, rfl⟩)
  · exact .refl s

theorem sameBytes_noteUnit (o : Origin) (space field addr : Nat) (old : List Byte) : SameBytes s (s.noteUnit o space field addr old) := ⟨rfl, rfl, rfl⟩

theorem sameBytes_onHolder (pa a : Nat) (k : Holder → Holder) : SameBytes s (s.onHolder pa a k) := ⟨rfl, rfl, rfl⟩

theorem sameBytes_noteWrite (o : Origin) (space field addr : Nat) (us : List (Nat × Nat)) (old : List Byte) :
    SameBytes s (s.noteWrite o space field addr us old) := .foldl (fun t _ => sameBytes_noteUnit t o space field _ _) us s

theorem sameBytes_noteReads (p : Party) (seqs : List Nat) : SameBytes s (s.noteReads p seqs) := .ite (.refl s) (⟨rfl, rfl, rfl⟩)

theorem sameBytes_noteLastSpot (p : Party) (n : Nat) (t : Spot) : SameBytes s (s.noteLastSpot p n t) := by
  cases t with
  | scratch fd off => exact sameBytes_noteReads s p _
  | global ps => exact .foldl (fun u x => sameBytes_noteReads u p _) ps s

/-- A performed write of a core's furrow or engine leaves its bytes. -/
theorem performWrite_bytes (pa : Nat) (bs : List Byte) (c : Nat × Nat) : SameBytes (s.writeBytes pa bs) (s.performWrite pa bs (some c)) := by
  have home : SameBytes s ((sectorsOf pa bs.length).foldl State.keepHome s) := .foldl sameBytes_keepHome _ s
  unfold State.performWrite
  extract_lets s0 s1 s2
  have written : SameBytes (s.writeBytes pa bs) s2 := (home.writeBytes pa bs).trans (sameBytes_killLoads _ _ _)
  refine written.trans (.foldl (fun t x => ?_) _ _)
  exact .trans (.trans (sameBytes_dropL1 t _ x) (.ite (sameBytes_onHolder _ _ _ _) (.refl _))) (sameBytes_wake _ _)

theorem putGlobal_bytes (o : Origin) (core vpage pa : Nat) (us : List (Nat × Nat)) (bs : List Byte) :
    SameBytes (s.writeBytes pa bs) (s.putGlobal o core vpage pa us bs) := by
  have noted := sameBytes_noteWrite s o 0 0 pa us (s.bytesAt pa bs.length)
  exact (SameBytes.writeBytes (.ite (noted.trans (sameBytes_dropPeer _ _ _)) noted) pa bs).trans (performWrite_bytes _ pa bs (core, vpage))

theorem writeScratch_bytes (fd a : Nat) (bs : List Byte) :
    SameBytes (s.onField fd (fun f => { f with sp := f.sp.writeBytes a bs })) (s.writeScratch fd a bs) := ⟨rfl, rfl, rfl⟩

theorem putScratch_bytes (o : Origin) (fd off : Nat) (us : List (Nat × Nat)) (bs : List Byte) :
    SameBytes (s.onField fd (fun f => { f with sp := f.sp.writeBytes off bs })) (s.putScratch o fd off us bs) :=
  .trans ((sameBytes_noteWrite s o 1 fd off us _).onField fd _) (writeScratch_bytes _ fd off bs)

/-! ### What else they change -/

theorem stirs_writeBytes (pa : Nat) (bs : List Byte) : Stirs s (s.writeBytes pa bs) := fun _ => ⟨rfl, rfl, fun _ _ _ he _ => he⟩

theorem stirs_onField (fd : Nat) (k : Field → Field) : Stirs s (s.onField fd k) := fun _ => ⟨rfl, rfl, fun _ _ _ he _ => he⟩

theorem rouses_keepHome (sec : Nat) : Rouses s (s.keepHome sec) := by
  unfold State.keepHome
  split
  · exact .ite (.refl s) (rouses_setSector s _)
  · exact .refl s

theorem rouses_noteWrite (o : Origin) (space field addr : Nat) (us : List (Nat × Nat)) (old : List Byte) :
    Rouses s (s.noteWrite o space field addr us old) := .foldl (fun _ _ => rouses_of_eq rfl) us s

theorem stirs_performWrite (pa : Nat) (bs : List Byte) (c : Nat × Nat) : Stirs s (s.performWrite pa bs (some c)) := by
  unfold State.performWrite
  extract_lets s0 s1 s2
  have written : Stirs s s2 := ((Rouses.foldl rouses_keepHome _ s).stirs.trans (stirs_writeBytes s0 pa bs)).trans (rouses_killLoads s1 _ _).stirs
  refine written.trans (Rouses.foldl (fun t x => ?_) _ _).stirs
  exact .trans (.trans (rouses_dropL1 t _ x) (.ite (rouses_onHolder _ _ _ _) (.refl _))) (rouses_wake _ _)

theorem stirs_putGlobal (o : Origin) (core vpage pa : Nat) (us : List (Nat × Nat)) (bs : List Byte) :
    Stirs s (s.putGlobal o core vpage pa us bs) := by
  have noted := rouses_noteWrite s o 0 0 pa us (s.bytesAt pa bs.length)
  exact (Rouses.ite (noted.trans (rouses_dropPeer _ _ _)) noted).stirs.trans (stirs_performWrite _ pa bs (core, vpage))

theorem stirs_putScratch (o : Origin) (fd off : Nat) (us : List (Nat × Nat)) (bs : List Byte) : Stirs s (s.putScratch o fd off us bs) :=
  ((rouses_noteWrite s o 1 fd off us _).stirs.trans (stirs_onField _ fd _)).trans (rouses_wake _ _).stirs

end

end Sys2Proof.Machine
end

section
/-! O28: atomics (R136, R138, R249 to R252). -/
namespace Sys2Proof.Machine

/-! ### Poison (R127, R241) -/

/-- What meets no poison in s meets none in t. -/
def Cleans (s t : State) : Prop := ∀ n sp, s.spotPoison n sp = false → t.spotPoison n sp = false

theorem Cleans.refl (s : State) : Cleans s s := fun _ _ h => h

theorem Cleans.trans {a b c : State} (h : Cleans a b) (k : Cleans b c) : Cleans a c := fun n sp hn => k n sp (h n sp hn)

theorem Cleans.foldl {α : Type} {k : State → α → State} (h : ∀ s x, Cleans s (k s x)) (l : List α) (s : State) : Cleans s (l.foldl k s) :=
  List.foldlRecOn l k (Cleans.refl s) (fun t ht x _ => ht.trans (h t x))

theorem SameBytes.cleans {s t : State} (h : SameBytes s t) : Cleans s t := fun n sp hn => (h.spotPoison n sp).trans hn

theorem poisonHit_after {p : List Nat} {a n : Nat} (h : poisonHit p a n = false) (b k : Nat) : poisonHit (poisonAfter p b k) a n = false := by
  unfold poisonHit at h ⊢
  rw [List.any_eq_false] at h ⊢
  exact fun w hw => h w (List.mem_filter.1 hw).1

theorem cleans_writeBytes (s : State) (pa : Nat) (bs : List Byte) : Cleans s (s.writeBytes pa bs) := by
  intro n sp hn
  cases sp with
  | scratch fd off => exact hn
  | global ps =>
    have all : ∀ p ∈ ps, poisonHit s.poison p.1 p.2 = false := fun p hp => by
      have := List.any_eq_false.1 (show ps.any (fun p => s.poisoned p.1 p.2) = false from hn) p hp
      simpa [State.poisoned] using this
    exact List.any_eq_false.2 (fun p hp => by
      rw [Bool.not_eq_true]
      exact poisonHit_after (all p hp) pa bs.length)

theorem field?_onField (s : State) (fd fe : Nat) {k : Field → Field} (hk : ∀ f, (k f).id = f.id) :
    (s.onField fd k).field? fe = (s.field? fe).map (fun f => if f.id == fd then k f else f) := by
  unfold State.onField State.field? mapIf
  exact find?_map_key (fun f : Field => f.id == fe) _ (fun f => by split <;> simp [hk]) _

theorem cleans_onScratch (s : State) (fd off : Nat) (bs : List Byte) :
    Cleans s (s.onField fd (fun f => { f with sp := f.sp.writeBytes off bs })) := by
  intro n sp hn
  cases sp with
  | global ps => exact hn
  | scratch fe o =>
    unfold State.spotPoison at hn ⊢
    dsimp only at hn ⊢
    rw [field?_onField s fd fe (k := fun f => { f with sp := f.sp.writeBytes off bs }) (fun _ => rfl)]
    cases hf : s.field? fe with
    | none => rfl
    | some f =>
      rw [hf] at hn
      rw [Option.map_some, Option.map_some, Option.getD_some]
      split
      · exact poisonHit_after hn off bs.length
      · exact hn

theorem cleans_putGlobal (s : State) (o : Origin) (core vpage pa : Nat) (us : List (Nat × Nat)) (bs : List Byte) :
    Cleans s (s.putGlobal o core vpage pa us bs) := (cleans_writeBytes s pa bs).trans (putGlobal_bytes s o core vpage pa us bs).cleans

theorem cleans_putScratch (s : State) (o : Origin) (fd off : Nat) (us : List (Nat × Nat)) (bs : List Byte) :
    Cleans s (s.putScratch o fd off us bs) := (cleans_onScratch s fd off bs).trans (putScratch_bytes s o fd off us bs).cleans

/-! ### One part -/

section
variable (s : State) (f : Furrow) (op lane ea n : Nat)

theorem stirs_putSpot (t : Spot) (bs : List Byte) : Stirs s (s.putSpot f op lane ea t bs) := by
  cases t with
  | scratch fd off => exact stirs_putScratch s _ fd off _ bs
  | global ps => exact .foldl (fun t w => stirs_putGlobal t _ _ _ _ _ _) _ s

theorem cleans_putSpot (t : Spot) (bs : List Byte) : Cleans s (s.putSpot f op lane ea t bs) := by
  cases t with
  | scratch fd off => exact cleans_putScratch s _ fd off _ bs
  | global ps => exact .foldl (fun t w => cleans_putGlobal t _ _ _ _ _ _) _ s

variable (new : Nat → Nat → Nat) (p : Part)

theorem atomicPart_clean (h : s.spotPoison n p.spot = false) :
    State.atomicPart f op n new s p =
      ((s.noteLastSpot (f.party (1 <<< p.lane)) n p.spot).putSpot f op p.lane p.ea p.spot (leBytes n (new p.lane (leNat (s.homeBytes n p.spot)))),
        leNat (s.homeBytes n p.spot), false) := by
  unfold State.atomicPart
  rw [h]
  rfl

theorem stirs_atomicPart : Stirs s (State.atomicPart f op n new s p).1 := by
  unfold State.atomicPart
  split
  · exact (Rouses.refl s).stirs
  · exact (rouses_noteLastSpot s _ n p.spot).stirs.trans (stirs_putSpot _ f op p.lane p.ea p.spot _)

theorem cleans_atomicPart : Cleans s (State.atomicPart f op n new s p).1 := by
  unfold State.atomicPart
  split
  · exact .refl s
  · exact (sameBytes_noteLastSpot s _ n p.spot).cleans.trans (cleans_putSpot _ f op p.lane p.ea p.spot _)

/-- Parts that meet no poison meet none while others are performed. -/
theorem atomicParts_clean (ps : List Part) : ∀ s : State, (∀ p ∈ ps, s.spotPoison n p.spot = false) →
    poisonLanes (performParts (State.atomicPart f op n new) ps s).2 = [] := by
  induction ps with
  | nil => exact fun _ _ => rfl
  | cons p ps ih =>
    intro s clean
    have rest := ih (State.atomicPart f op n new s p).1 (fun x hx => cleans_atomicPart s f op n new p n x.spot (clean x (List.mem_cons_of_mem p hx)))
    have head : (State.atomicPart f op n new s p).2.2 = false := by rw [atomicPart_clean s f op n new p (clean p List.mem_cons_self)]
    unfold poisonLanes at rest ⊢
    simp only [performParts, List.filter_cons, head, Bool.false_eq_true, if_false]
    exact rest

end

/-- A part of an access that meets no poison meets none. -/
theorem Part.of_clean {s : State} {p : Part} {n : Nat} {a : Nat × Nat × Spot} (h : p.of n a) (clean : s.spotPoison n a.2.2 = false) :
    s.spotPoison n p.spot = false := by
  obtain ⟨-, -, ⟨fd, off, ha, hp, -⟩ | ⟨ps, ha, x, hx, y, hp, -, lo, hi⟩⟩ := h
  · rw [hp, ← ha]
    exact clean
  · rw [ha] at clean
    rw [hp]
    have piece := List.any_eq_false.1 (show ps.any (fun p => s.poisoned p.1 p.2) = false from clean) x hx
    rw [Bool.not_eq_true] at piece
    refine List.any_eq_false.2 (fun z hz => ?_)
    rw [List.mem_singleton.1 hz, Bool.not_eq_true]
    unfold State.poisoned poisonHit at piece ⊢
    rw [List.any_eq_false] at piece ⊢
    refine fun w hw near => piece w hw ?_
    simp only [decide_eq_true_eq] at near ⊢
    omega

end Sys2Proof.Machine
end

section
/-! O28: the instruction. -/
namespace Sys2Proof.Machine

theorem writeLanes_v {f v : Furrow} (h : v.v = f.v) (t : Ty) (d : Nat) (m : Mask) (x : Nat → Nat) :
    (v.writeLanes t d m x).v = (f.writeLanes t d m x).v := by
  unfold Furrow.writeLanes Furrow.writePair Furrow.writeV Furrow.readV
  rw [h]
  split <;> rfl

theorem writeLanes_eq (f : Furrow) (t : Ty) (d : Nat) (m : Mask) (x : Nat → Nat) : f.writeLanes t d m x = { f with v := (f.writeLanes t d m x).v } := by
  unfold Furrow.writeLanes
  split <;> rfl

theorem Furrow.Kin.regs_writeLanes {f v : Furrow} (h : f.Kin v) (t : Ty) (d : Nat) (m : Mask) (x : Nat → Nat) :
    (v.writeLanes t d m x).regs = (f.writeLanes t d m x).regs := by
  rw [writeLanes_eq v, writeLanes_eq f, writeLanes_v h.v_eq, h.regs_withV]

theorem lacking_releasing (s : State) (f : Furrow) (m : Mask) (rel : Bool) (c : Scope) : (s.releasing f m rel c).lacking = s.lacking := by
  unfold State.releasing
  split <;> rfl

section
variable {s s1 : State} {q : Issue} {f : Furrow} {g : Group} {x : LA} {i : Instr} {as : List (Nat × Nat × Spot)}

/-- What follows the parts of an atomic: its sectors' accesses are done. -/
def State.partsWritten (f : Furrow) (s : State) (secs : List Nat) : State := (s.accessed (dieAgent f.core) secs true).tickFree

theorem rouses_partsWritten (s : State) (f : Furrow) (secs : List Nat) : Rouses s (State.partsWritten f s secs) :=
  (rouses_accessed s _ secs true).trans (rouses_of_eq rfl)

/-- The parts of an atomic that can all be performed and of which none meets poison. -/
theorem atomicParts_done {acq : Option Scope} {op n : Nat} {new : Nat → Nat → Nat} (ps : List Part) (ahead : f.spec = none) (fresh : g.accessing = false)
    (hs : NoneAhead s1) (ready : ∀ p ∈ ps, s1.partReady f g true p = true) (clean : ∀ p ∈ ps, s1.spotPoison n p.spot = false) :
    let r := performParts (State.atomicPart f op n new) ps (State.acquiring f acq s1)
    ∃ w, Stirred s1 w ∧ SameBytes r.1 w ∧ poisonLanes r.2 = []
      ∧ ∀ (i : Instr) (q : Issue) (m : Mask) (hold : State → State) (k : State → List Got → Out),
      withParts i s1 q f g m true ps (State.acquiring f acq) (State.atomicPart f op n new) (State.partsWritten f) hold k = k w r.2 := by
  intro r
  have acquired := rouses_acquiring s1 f acq
  have acq_same := (acquired hs).2
  have none_bad : poisonLanes r.2 = [] := atomicParts_clean f op n new ps _ (fun p hp => (acq_same.spotPoison _ _).trans (clean p hp))
  cases ps with
  | nil => exact ⟨s1, .refl s1, ⟨acq_same.mem.symm, acq_same.poison.symm, acq_same.fields.symm⟩, none_bad,
      fun i q m hold k => withParts_ready (new := []) fresh ahead ready⟩
  | cons p ps =>
    have performed : Stirs s1 r.1 := acquired.stirs.trans (stirs_performParts (fun s p => stirs_atomicPart s f op n new p) _ _)
    obtain ⟨last, same⟩ := rouses_partsWritten r.1 f (spotSectors ((p :: ps).map Part.spot)) ((performed hs).noneAhead hs)
    exact ⟨_, (performed hs).trans last, same, none_bad, fun i q m hold k => withParts_ready (new := p :: ps) fresh ahead ready⟩

/-- An atomic all of whose lanes pass, whose tokens are held and which meets no poison: its parts, the old values, the group at the next word. -/
theorem atomic_ends {fadd : Bool} {op : Nat → Nat → Nat → Nat} (h : Issues s q f g i) (hs : NoneAhead s) (spill : NoSpill s q)
    (hm : f.activeSet i g ≠ 0) (eligible : i.reuseEligible = false) (own : f.ownStore g.lanes (spotSectors (spotsOf as)) = false)
    (order : 2 ≤ x.ord.val → f.storing g.lanes = false)
    (pass : Passes s f g (f.activeSet i g) (x.ty.width / 8) (x.ty.width / 8) { rmw := true } (atomUnsupported (x.ty.width == 64) fadd)
      (f.effAddr x.am x.a.val x.b 0 (x.ty.width / 8)) s1 as)
    (held : TokensHeld s1 f true (spotsOf as)) (clean : ∀ a ∈ as, s1.spotPoison (x.ty.width / 8) a.2.2 = false) :
    let new := fun l old => op old (f.laneBits x.ty x.c3.val l) (f.laneBits x.ty (x.c3.val + x.ty.width / 32) l)
    let acq := if x.ord = 1 ∨ x.ord = 3 then some x.scope else none
    let s2 := State.acquiring f acq (s1.releasing f (f.activeSet i g) (decide (2 ≤ x.ord.val)) x.scope)
    let r := performParts (State.atomicPart f (s1.order + 1) (x.ty.width / 8) new) (partsOf (x.ty.width / 8) as) s2
    ∃ t, atomic i x fadd op s = .next t ∧ Lands t q g i (f.writeLanes x.ty x.d.val (f.activeSet i g) (gotOf r.2)) ∧ OthersKept s t q
      ∧ (∀ space a, t.cell space a = r.1.cell space a) ∧ t.ctxs = s.ctxs := by
  intro new acq s2 r
  obtain ⟨h1, -⟩ := pass.rouses hs
  have hs1 := h1.noneAhead hs
  obtain ⟨released, rel_same⟩ := rouses_releasing s1 f (f.activeSet i g) (decide (2 ≤ x.ord.val)) x.scope hs1
  obtain ⟨w, hw, same, none_bad, parts⟩ := atomicParts_done (acq := acq) (op := s1.order + 1) (new := new) (partsOf (x.ty.width / 8) as)
    h.ahead pass.fresh (released.noneAhead hs1) (partReady_of_held own (by unfold TokensHeld; rw [lacking_releasing]; exact held)) (fun p hp => by
      obtain ⟨a, ha, hpa⟩ := mem_partsOf hp
      exact (rel_same.spotPoison _ _).trans (Part.of_clean hpa (clean a ha)))
  have hw1 := (h1.trans released).trans hw
  obtain ⟨hsync, sync_same⟩ := rouses_synced w f (f.activeSet i g) acq (hw1.noneAhead hs)
  have all := hw1.trans hsync
  obtain ⟨v, hv, hk, again⟩ := all.again h.furrow
  obtain ⟨t, ht, ends⟩ := done_ends h all hv (sameRun_writeLanes v x.ty x.d.val (f.activeSet i g) (gotOf r.2)) (f.activeSet i g) none
    (.inr (.inr ⟨all.noSpill h.furrow spill, fpenv_writeLanes v _ _ _ _, fun asked => by
      rw [eligible] at asked
      cases asked⟩))
  refine ⟨t, ?_, (ends.congr (hk.regs_writeLanes _ _ _ _)).own, ends.others, fun space a => ?_, ?_⟩
  · unfold atomic
    rw [running_issues h]
    have no_drain : ¬(2 ≤ x.ord.val ∧ True ∧ f.storing g.lanes = true) := fun ⟨h2, _, hst⟩ => by
      rw [order h2] at hst
      cases hst
    have none_lost : f.activeSet i g &&& ~~~(accLanes []) = f.activeSet i g := by
      rw [show ~~~(accLanes []) = BitVec.allOnes 32 by decide, BitVec.and_allOnes]
    simp only [hm, pass.fresh, if_false, Bool.false_eq_true, withSpots_passes pass, no_drain, Bool.not_false, Bool.true_and]
    refine (parts _ _ _ _ _).trans ?_
    simp only [none_bad, List.isEmpty_nil, if_true, none_lost]
    rw [again, writeLanes_active v x.ty x.d.val (gotTable_active r.2 (f.activeSet i g))]
    exact ht
  · have kept : SameBytes (w.synced f (f.activeSet i g) acq) t := by
      rw [ends.rest]
      exact ⟨rfl, rfl, rfl⟩
    exact ((same.trans sync_same).trans kept).cell space a
  · rw [ends.rest]
    exact all.ctxs

end

/-! ### One read-modify-write of a piece of memory -/

theorem leBytes_length (n x : Nat) : (leBytes n x).length = n := by
  induction n generalizing x with
  | zero => rfl
  | succ n ih => rw [leBytes, List.length_cons, ih]

/-- A naturally aligned piece lies in one sector. -/
theorem sectorPieces_aligned {pa n : Nat} (pos : 0 < n) (aligned : pa % n = 0) (fits : 64 % n = 0) : sectorPieces pa n = [(pa, n)] := by
  obtain ⟨a, rfl⟩ := Nat.dvd_of_mod_eq_zero aligned
  obtain ⟨c, hc⟩ := Nat.dvd_of_mod_eq_zero fits
  have last : (n * a + n - 1) / 64 = n * a / 64 := by
    rw [hc, ← Nat.div_div_eq_div_mul, ← Nat.div_div_eq_div_mul, Nat.mul_div_cancel_left a pos, Nat.add_sub_assoc pos, Nat.mul_add_div pos,
      Nat.div_eq_of_lt (Nat.sub_lt pos Nat.one_pos), Nat.add_zero]
  have lo := sectorOf_le (n * a)
  have hi := lt_sectorOf_add (n * a + n - 1)
  have one : sectorOf (n * a + n - 1) = sectorOf (n * a) := congrArg (· * 64) last
  unfold sectorPieces sectorsOf
  rw [if_neg (by omega), one, Nat.sub_self]
  rw [one] at hi
  simp only [Nat.zero_div, Nat.zero_add, List.range_one, List.map_cons, List.map_nil, Nat.mul_zero, Nat.add_zero, List.cons.injEq, Prod.mk.injEq, and_true]
  omega

theorem pieceWrites_aligned {pa n : Nat} (pos : 0 < n) (aligned : pa % n = 0) (fits : 64 % n = 0) (lane ea : Nat) {bs : List Byte} (len : bs.length = n) :
    pieceWrites lane true ea [(pa, n)] bs = [{ pa := pa, vpage := ea / 4096 * 4096, bytes := bs, lane := lane, unit := true }] := by
  unfold pieceWrites
  rw [sectorPieces_aligned pos aligned fits]
  simp [pieceWrites, ← len]

/-- Such a read-modify-write leaves its bytes. -/
theorem atomicPart_bytes {s : State} {f : Furrow} {op n pa : Nat} {new : Nat → Nat → Nat} {p : Part} (pos : 0 < n)
    (aligned : pa % n = 0) (fits : 64 % n = 0) (spot : p.spot = .global [(pa, n)]) (clean : s.spotPoison n p.spot = false) :
    (State.atomicPart f op n new s p).2 = (leNat (s.bytesAt pa n), false)
      ∧ SameBytes (s.writeBytes pa (leBytes n (new p.lane (leNat (s.bytesAt pa n))))) (State.atomicPart f op n new s p).1 := by
  have home : s.homeBytes n p.spot = s.bytesAt pa n := by rw [spot]; exact List.append_nil _
  rw [atomicPart_clean s f op n new p clean, home]
  refine ⟨rfl, ((sameBytes_noteLastSpot s (f.party (1 <<< p.lane)) n p.spot).writeBytes pa _).trans ?_⟩
  unfold State.putSpot
  rw [spot]
  dsimp only
  rw [pieceWrites_aligned pos aligned fits p.lane p.ea (leBytes_length n _)]
  exact putGlobal_bytes _ _ _ _ _ _ _

/-- Settles O28, by the parts of an atomic and the bytes that one of them leaves. -/
theorem atomics : Obligations.Atomics := by
  refine ⟨?instruction, ?part⟩
  case instruction =>
    intro s s1 q f g x as p hp m n fadd new s2 r h hs spill hm own order pass held clean
    simp only [atomOps, List.mem_cons, List.not_mem_nil, or_false] at hp
    have goes : ∀ fadd op, exec p.1 s = atomic p.1 x fadd op s → p.2 = op → p.1.reuseEligible = false →
        fadd = (match p.1 with
          | .atomFadd _ => true
          | _ => false) →
        ∃ t, exec p.1 s = .next t ∧ Lands t q g p.1 (f.writeLanes x.ty x.d.val m (gotOf r.2)) ∧ OthersKept s t q
          ∧ (∀ space a, t.cell space a = r.1.cell space a) ∧ t.ctxs = s.ctxs := by
      rintro fadd op he rfl eligible rfl
      rw [he]
      exact atomic_ends h hs spill hm eligible own order pass held clean
    rcases hp with rfl | rfl | rfl | rfl | rfl | rfl | rfl | rfl | rfl
    · exact goes false _ (exec_atomAdd s x) rfl rfl rfl
    · exact goes false _ (exec_atomMin s x) rfl rfl rfl
    · exact goes false _ (exec_atomMax s x) rfl rfl rfl
    · exact goes false _ (exec_atomAnd s x) rfl rfl rfl
    · exact goes false _ (exec_atomOr s x) rfl rfl rfl
    · exact goes false _ (exec_atomXor s x) rfl rfl rfl
    · exact goes false _ (exec_atomExch s x) rfl rfl rfl
    · exact goes false _ (exec_atomCas s x) rfl rfl rfl
    · exact goes true _ (exec_atomFadd s x) rfl rfl rfl
  case part =>
    intro s f op n pa new p ok pos aligned fits spot clean r old
    obtain ⟨read, left⟩ := atomicPart_bytes (f := f) (op := op) (new := new) pos aligned fits spot clean
    refine ⟨read, fun a => (left.cell none a).trans ?_, fun fd a => left.cell (some fd) a⟩
    exact (byteAt_writeBytes ok.mem pa _ a).trans (by rw [leBytes_length])

end Sys2Proof.Machine
end

section
/-! What performed writes leave of tokens: every agent holds what it held (R371, R372, R378). -/
namespace Sys2Proof.Machine

/-! ### Sectors -/

theorem sectorOf_idem (a : Nat) : sectorOf (sectorOf a) = sectorOf a := by unfold sectorOf; omega

theorem sectorOf_of_mem {x pa n : Nat} (h : x ∈ sectorsOf pa n) : sectorOf x = x := by
  obtain ⟨b, -, -, rfl⟩ := mem_sectorsOf.1 h
  exact sectorOf_idem b

theorem sector_pa (s : State) (pa : Nat) : (s.sector pa).pa = sectorOf pa := by
  unfold State.sector
  cases hf : s.sectors.find? (fun x => x.pa == sectorOf pa) with
  | none => rfl
  | some x =>
    have found := List.find?_some hf
    exact beq_iff_eq.1 found

/-- A sector looked up after a record is put back. -/
theorem sector_setSector (s : State) (x : Sector) (pa : Nat) : (s.setSector x).sector pa = if x.pa = sectorOf pa then x else s.sector pa := by
  unfold State.sector State.setSector
  rw [List.find?_cons]
  split
  · rename_i e
    rw [if_pos (beq_iff_eq.1 e)]
    rfl
  · rename_i e
    have ne : x.pa ≠ sectorOf pa := by simpa using e
    rw [if_neg ne, List.find?_filter]
    have test : (fun y : Sector => decide ((y.pa != x.pa) = true ∧ (y.pa == sectorOf pa) = true)) = fun y => y.pa == sectorOf pa := by
      funext y
      by_cases hy : y.pa = sectorOf pa
      · simp [hy, Ne.symm ne]
      · simp [hy]
    rw [test]
    rfl

theorem holder_agent (x : Sector) (a : Nat) : (x.holder a).agent = a := by
  unfold Sector.holder
  cases hf : x.holders.find? (fun h => h.agent == a) with
  | none => rfl
  | some h =>
    have found := List.find?_some hf
    exact beq_iff_eq.1 found

/-- A holder looked up after one is put back. -/
theorem holder_setHolder (x : Sector) (h : Holder) (a : Nat) : (x.setHolder h).holder a = if h.agent = a then h else x.holder a := by
  unfold Sector.holder Sector.setHolder
  rw [List.find?_cons]
  split
  · rename_i e
    rw [if_pos (beq_iff_eq.1 e)]
    rfl
  · rename_i e
    have ne : h.agent ≠ a := by simpa using e
    rw [if_neg ne, List.find?_filter]
    have test : (fun y : Holder => decide ((y.agent != h.agent) = true ∧ (y.agent == a) = true)) = fun y => y.agent == a := by
      funext y
      by_cases hy : y.agent = a
      · simp [hy, Ne.symm ne]
      · simp [hy]
    rw [test]

/-! ### The relation -/

/-- Every agent holds in t of each sector what it holds in s, and every address lies where it lay. -/
structure SameTokens (s t : State) : Prop where
  place : t.place = s.place
  held : ∀ a pa, sectorOf pa = pa → ((t.sector pa).holder a).n = ((s.sector pa).holder a).n
    ∧ ((t.sector pa).holder a).valid = ((s.sector pa).holder a).valid

theorem SameTokens.refl (s : State) : SameTokens s s := ⟨rfl, fun _ _ _ => ⟨rfl, rfl⟩⟩

theorem SameTokens.trans {a b c : State} (h : SameTokens a b) (k : SameTokens b c) : SameTokens a c :=
  ⟨k.place.trans h.place, fun x pa hpa => ⟨(k.held x pa hpa).1.trans (h.held x pa hpa).1, (k.held x pa hpa).2.trans (h.held x pa hpa).2⟩⟩

theorem SameTokens.ite {s a b : State} {p : Prop} [Decidable p] (ha : SameTokens s a) (hb : SameTokens s b) : SameTokens s (if p then a else b) := by
  split
  · exact ha
  · exact hb

theorem SameTokens.foldl {α : Type} {k : State → α → State} (l : List α) (s : State) (h : ∀ s, ∀ x ∈ l, SameTokens s (k s x)) :
    SameTokens s (l.foldl k s) :=
  List.foldlRecOn l k (SameTokens.refl s) (fun t ht x hx => ht.trans (h t x hx))

theorem SameTokens.of_sectors {s t : State} (hp : t.place = s.place) (hs : t.sectors = s.sectors) : SameTokens s t := by
  refine ⟨hp, fun a pa _ => ?_⟩
  have same : t.sector pa = s.sector pa := by
    unfold State.sector State.homeAgent
    rw [hs, hp]
  rw [same]
  exact ⟨rfl, rfl⟩

/-- The same agents may access the same sectors. -/
theorem SameTokens.lacking {s t : State} (h : SameTokens s t) {agent : Nat} {write : Bool} {secs : List Nat} (aligned : ∀ x ∈ secs, sectorOf x = x) :
    t.lacking agent write secs = s.lacking agent write secs := by
  unfold State.lacking
  refine List.filter_congr (fun x hx => ?_)
  obtain ⟨n, valid⟩ := h.held agent x (aligned x hx)
  unfold State.isPeer State.mayAccess Holder.canWrite Holder.canRead
  dsimp only
  rw [h.place, n, valid]

/-- A record put back with what each agent holds. -/
theorem sameTokens_setSector (s : State) {x : Sector} {pa : Nat} (hx : x.pa = pa)
    (held : ∀ a, (x.holder a).n = ((s.sector pa).holder a).n ∧ (x.holder a).valid = ((s.sector pa).holder a).valid) : SameTokens s (s.setSector x) := by
  refine ⟨rfl, fun a pb hb => ?_⟩
  rw [sector_setSector, hx, hb]
  split
  · rename_i e
    rw [← e]
    exact held a
  · exact ⟨rfl, rfl⟩

/-! ### Performed writes -/

section
variable (s : State)

theorem sameTokens_wake (t : Watch → Bool) : SameTokens s (s.wake t) := .of_sectors rfl rfl

theorem sameTokens_killLoads (on : Nat → Bool) (t : ReuseEntry → Bool) : SameTokens s (s.killLoads on t) := .of_sectors rfl rfl

theorem sameTokens_writeBytes (pa : Nat) (bs : List Byte) : SameTokens s (s.writeBytes pa bs) := .of_sectors rfl rfl

theorem sameTokens_rollbackReaders (on : Nat → Bool) (pa : Nat) : SameTokens s (s.rollbackReaders on pa) :=
  .foldl s.furrows s (fun t f _ => by
    split
    · exact .ite (.of_sectors rfl rfl) (.refl t)
    · exact .refl t)

theorem sameTokens_dropL1 (on : Nat → Bool) (pa : Nat) : SameTokens s (s.dropL1 on pa) := by
  have before : SameTokens s (({ s with cores := s.cores.map (fun (c : Core) => if on c.ix then { c with l1 := setRemove c.l1 pa } else c) } : State).killLoads
    on (fun e => e.sectors.contains pa)) := .of_sectors rfl rfl
  exact (before.trans (sameTokens_rollbackReaders _ on pa)).trans (sameTokens_wake _ _)

theorem sameTokens_dropPeer (die : Nat) (secs : List Nat) : SameTokens s (s.dropPeer die secs) :=
  .trans (b := s.onDie die _) (.of_sectors rfl rfl) (.foldl secs _ (fun t x _ => sameTokens_dropL1 t _ x))

theorem sameTokens_keepHome {sec : Nat} (aligned : sectorOf sec = sec) : SameTokens s (s.keepHome sec) := by
  unfold State.keepHome
  split
  · exact .ite (.refl s) (sameTokens_setSector s ((sector_pa s sec).trans aligned) (fun _ => ⟨rfl, rfl⟩))
  · exact .refl s

/-- A holder that is marked dirty keeps its tokens. -/
theorem sameTokens_dirty {pa : Nat} (aligned : sectorOf pa = pa) (a : Nat) : SameTokens s (s.onHolder pa a (fun h => { h with dirty := true })) := by
  refine sameTokens_setSector s ((sector_pa s pa).trans aligned) (fun b => ?_)
  rw [holder_setHolder, show ({ (s.sector pa).holder a with dirty := true } : Holder).agent = a from holder_agent _ a]
  split
  · rename_i e
    rw [← e]
    exact ⟨rfl, rfl⟩
  · exact ⟨rfl, rfl⟩

theorem sameTokens_noteWrite (o : Origin) (space field addr : Nat) (us : List (Nat × Nat)) (old : List Byte) :
    SameTokens s (s.noteWrite o space field addr us old) := .foldl us s (fun _ _ _ => .of_sectors rfl rfl)

theorem sameTokens_performWrite (pa : Nat) (bs : List Byte) (c : Nat × Nat) : SameTokens s (s.performWrite pa bs (some c)) := by
  unfold State.performWrite
  extract_lets s0 s1 s2
  have home : SameTokens s s0 := .foldl _ s (fun t x hx => sameTokens_keepHome t (sectorOf_of_mem hx))
  have written : SameTokens s s2 := (home.trans (sameTokens_writeBytes s0 pa bs)).trans (sameTokens_killLoads s1 _ _)
  refine written.trans (.foldl _ _ (fun t x hx => ?_))
  exact .trans ((sameTokens_dropL1 t _ x).trans (.ite (sameTokens_dirty _ (sectorOf_of_mem hx) _) (.refl _)))
    (sameTokens_wake _ _)

theorem sameTokens_putGlobal (o : Origin) (core vpage pa : Nat) (us : List (Nat × Nat)) (bs : List Byte) :
    SameTokens s (s.putGlobal o core vpage pa us bs) := by
  have noted := sameTokens_noteWrite s o 0 0 pa us (s.bytesAt pa bs.length)
  exact (SameTokens.ite (noted.trans (sameTokens_dropPeer _ _ _)) noted).trans (sameTokens_performWrite _ pa bs (core, vpage))

theorem sameTokens_putScratch (o : Origin) (fd off : Nat) (us : List (Nat × Nat)) (bs : List Byte) : SameTokens s (s.putScratch o fd off us bs) :=
  (sameTokens_noteWrite s o 1 fd off us _).trans (.of_sectors rfl rfl)

end

end Sys2Proof.Machine
end

section
/-! O27: which bytes a list of writes leaves, and the stores of scratchpads (R137, R139, R246). -/
namespace Sys2Proof.Machine

/-! ### Writes in order -/

/-- The bytes that some writes give a place, in their order. -/
def bytesPut (ws : List (Option Nat × Nat × List Byte)) (space : Option Nat) (a : Nat) : List Byte :=
  ws.filterMap (fun w => if w.1 = space ∧ w.2.1 ≤ a then w.2.2[a - w.2.1]? else none)

theorem lastByte_eq (ws : List (Option Nat × Nat × List Byte)) (space : Option Nat) (a : Nat) : lastByte ws space a = (bytesPut ws space a).getLast? := rfl

theorem bytesPut_append (ws vs : List (Option Nat × Nat × List Byte)) (space : Option Nat) (a : Nat) :
    bytesPut (ws ++ vs) space a = bytesPut ws space a ++ bytesPut vs space a := List.filterMap_append

/-- Writes to other spaces give a place nothing. -/
theorem bytesPut_elsewhere {ws : List (Option Nat × Nat × List Byte)} {space : Option Nat} (h : ∀ w ∈ ws, w.1 ≠ space) (a : Nat) :
    bytesPut ws space a = [] :=
  List.filterMap_eq_nil_iff.2 (fun w hw => if_neg (fun e => h w hw e.1))

theorem lastByte_append (ws vs : List (Option Nat × Nat × List Byte)) (space : Option Nat) (a : Nat) :
    lastByte (ws ++ vs) space a = (lastByte vs space a).or (lastByte ws space a) := by
  rw [lastByte_eq, bytesPut_append, List.getLast?_append]
  rfl

/-- One write gives a place the byte that lies there. -/
theorem lastByte_single (w : Option Nat × Nat × List Byte) (space : Option Nat) (a : Nat) :
    lastByte [w] space a = if w.1 = space ∧ w.2.1 ≤ a then w.2.2[a - w.2.1]? else none := by
  rw [lastByte_eq, bytesPut, List.filterMap_cons]
  split
  · rename_i e
    rw [e]
    rfl
  · rename_i b e
    rw [e]
    rfl

/-! ### What a write leaves -/

/-- State t holds the bytes of s outside the places of some writes, and where a condition holds the written bytes too; its fields are those of s. -/
structure Lays (s t : State) (sure : Prop) (ws : List (Option Nat × Nat × List Byte)) : Prop where
  fields : ∀ fd, (t.field? fd).isSome = (s.field? fd).isSome
  spares : ∀ space a, (∀ fd, space = some fd → (s.field? fd).isSome = true) → lastByte ws space a = none → t.cell space a = s.cell space a
  stored : sure → Stored s t ws

theorem Lays.trans {s t u : State} {sure : Prop} {ws vs : List (Option Nat × Nat × List Byte)} (h : Lays s t sure ws) (k : Lays t u sure vs) :
    Lays s u sure (ws ++ vs) where
  fields fd := (k.fields fd).trans (h.fields fd)
  spares space a there none := by
    rw [lastByte_append, Option.or_eq_none_iff] at none
    exact (k.spares space a (fun fd e => (h.fields fd).trans (there fd e)) none.1).trans (h.spares space a there none.2)
  stored hs space a there := by
    rw [lastByte_append, k.stored hs space a (fun fd e => (h.fields fd).trans (there fd e)), h.stored hs space a there]
    cases lastByte vs space a <;> rfl

/-- Writes that give every place the same. -/
theorem Lays.congr {s t : State} {sure : Prop} {ws vs : List (Option Nat × Nat × List Byte)} (h : Lays s t sure ws)
    (same : ∀ space a, lastByte ws space a = lastByte vs space a) : Lays s t sure vs :=
  ⟨h.fields, fun space a there none => h.spares space a there (by rw [same, none]), fun hs space a there => by rw [h.stored hs space a there, same]⟩

theorem SameBytes.lays {s t : State} (h : SameBytes s t) (sure : Prop) : Lays s t sure [] :=
  ⟨fun fd => by unfold State.field?; rw [h.fields], fun space a _ _ => h.cell space a, fun _ space a _ => h.cell space a⟩

/-- Bytes left as they are, where the condition fails. -/
theorem SameBytes.lays_unsure {s t : State} (h : SameBytes s t) {sure : Prop} (unsure : ¬sure) (ws : List (Option Nat × Nat × List Byte)) :
    Lays s t sure ws :=
  ⟨fun fd => by unfold State.field?; rw [h.fields], fun space a _ _ => h.cell space a, fun hs => absurd hs unsure⟩

/-- Bytes written are stored. -/
theorem Lays.of_stored {s t : State} {ws : List (Option Nat × Nat × List Byte)} (fields : ∀ fd, (t.field? fd).isSome = (s.field? fd).isSome)
    (h : Stored s t ws) (sure : Prop) : Lays s t sure ws :=
  ⟨fields, fun space a there none => by rw [h space a there, none]; rfl, fun _ => h⟩

/-- A byte of a list, or what stood there. -/
theorem getElem?_getD_of_range (bs : List Byte) (lo a : Nat) (old : Byte) :
    (if lo ≤ a ∧ a < lo + bs.length then bs.getD (a - lo) 0 else old) = (if lo ≤ a then bs[a - lo]? else none).getD old := by
  by_cases h : lo ≤ a
  · by_cases h2 : a < lo + bs.length
    · have within : a - lo < bs.length := by omega
      rw [if_pos ⟨h, h2⟩, if_pos h, List.getElem?_eq_getElem within, List.getD_eq_getElem _ _ within]
      rfl
    · rw [if_neg (fun e => h2 e.2), if_pos h, List.getElem?_eq_none (by omega)]
      rfl
  · rw [if_neg (fun e => h e.1), if_neg h]
    rfl

theorem lays_writeBytes {s t : State} (ok : MemOk s) {pa : Nat} {bs : List Byte} (h : SameBytes (s.writeBytes pa bs) t) (sure : Prop) :
    Lays s t sure [(none, pa, bs)] := by
  refine .of_stored (fun fd => by unfold State.field?; rw [h.fields]; rfl) (fun space a _ => ?_) sure
  rw [h.cell, lastByte_single]
  cases space with
  | none =>
    rw [show (s.writeBytes pa bs).cell none a = _ from byteAt_writeBytes ok pa bs a, getElem?_getD_of_range]
    simp [State.cell]
  | some fd => simp [State.cell, State.writeBytes, State.field?]

theorem lays_onScratch {s t : State} (ok : BytesOk s) {fd off : Nat} {bs : List Byte}
    (h : SameBytes (s.onField fd (fun f => { f with sp := f.sp.writeBytes off bs })) t) (sure : Prop) : Lays s t sure [(some fd, off, bs)] := by
  have look : ∀ fe, (s.onField fd (fun f => { f with sp := f.sp.writeBytes off bs })).field? fe =
      (s.field? fe).map (fun f => if f.id == fd then { f with sp := f.sp.writeBytes off bs } else f) := fun fe => field?_onField s fd fe (fun _ => rfl)
  have same : ∀ fe, t.field? fe = (s.onField fd (fun f => { f with sp := f.sp.writeBytes off bs })).field? fe := fun fe => by
    unfold State.field?
    rw [h.fields]
  refine .of_stored (fun fe => by rw [same, look, Option.isSome_map]) (fun space a there => ?_) sure
  rw [h.cell, lastByte_single]
  cases space with
  | none => simp [State.cell, State.onField, State.byteAt]
  | some fe =>
    obtain ⟨fl, hfl⟩ := Option.isSome_iff_exists.1 (there fe rfl)
    have id : fl.id = fe := beq_iff_eq.1 (by simpa [State.field?] using List.find?_some hfl)
    have member : fl ∈ s.fields := List.mem_of_find?_eq_some hfl
    unfold State.cell
    dsimp only
    rw [look, hfl]
    simp only [Option.map_some, Option.getD_some, id, Option.some.injEq]
    by_cases e : fe = fd
    · subst e
      simp only [beq_self_eq_true, if_true, true_and]
      rw [← getElem?_getD_of_range]
      exact cellsGet_cellsWrite (ok.fields fl member).1 off bs a
    · have ne : ¬fd = fe := fun h => e h.symm
      simp [e, ne]

/-! ### Units -/

theorem filterMap_range_single {α : Type} (n k : Nat) (x : Option α) :
    (List.range n).filterMap (fun j => if j = k then x else none) = if k < n then x.toList else [] := by
  induction n with
  | zero => rfl
  | succ n ih =>
    rw [List.range_succ, List.filterMap_append, ih, List.filterMap_cons]
    rcases Nat.lt_trichotomy k n with h | rfl | h
    · simp [h, Nat.ne_of_gt h, Nat.lt_succ_of_lt h]
    · cases x <;> simp
    · simp [Nat.not_lt_of_gt h, Nat.ne_of_lt h, Nat.not_lt_of_ge (Nat.succ_le_of_lt h)]

/-- A write by its units gives every place what the whole gives. -/
theorem lastByte_units (fd off : Nat) (whole : Bool) (bs : List Byte) (space : Option Nat) (a : Nat) :
    lastByte ((lsUnits whole off bs.length).map (fun u => (some fd, u.1, (bs.drop (u.1 - off)).take u.2))) space a = lastByte [(some fd, off, bs)] space a := by
  unfold lsUnits
  split
  · simp
  · rw [List.map_map, lastByte_single, lastByte_eq, bytesPut, List.filterMap_map]
    by_cases here : some fd = space ∧ off ≤ a
    · have one : ∀ j, ((fun w : Option Nat × Nat × List Byte => if w.1 = space ∧ w.2.1 ≤ a then w.2.2[a - w.2.1]? else none)
          ∘ (fun u => (some fd, u.1, (bs.drop (u.1 - off)).take u.2)) ∘ fun j => (off + j, 1)) j = if j = a - off then bs[a - off]? else none := fun j => by
        simp only [Function.comp_apply, here.1, true_and, Nat.add_sub_cancel_left, List.getElem?_take, List.getElem?_drop]
        by_cases e : j = a - off
        · rw [if_pos (by omega), if_pos (by omega), if_pos e, show j + (a - (off + j)) = a - off by omega]
        · rw [if_neg e]
          by_cases le : off + j ≤ a
          · rw [if_pos le, if_neg (by omega)]
          · rw [if_neg le]
      rw [funext one, filterMap_range_single, if_pos here]
      cases hb : bs[a - off]? with
      | none => simp
      | some b =>
        rw [if_pos (List.getElem?_eq_some_iff.1 hb).1]
        rfl
    · have none_here : ∀ j, ((fun w : Option Nat × Nat × List Byte => if w.1 = space ∧ w.2.1 ≤ a then w.2.2[a - w.2.1]? else none)
          ∘ (fun u => (some fd, u.1, (bs.drop (u.1 - off)).take u.2)) ∘ fun j => (off + j, 1)) j = none := fun j =>
        if_neg (fun e => here ⟨e.1, le_trans (Nat.le_add_right off j) e.2⟩)
      rw [if_neg here, funext none_here, List.filterMap_eq_nil_iff.2 (fun _ _ => rfl)]
      rfl

/-! ### Stores of scratchpads -/

/-- No plain store of a scratchpad in the record, but those of instruction op, is one under which a store of lanes m may come (log 5). -/
def Unpassed (s : State) (f : Furrow) (m : Mask) (op : Nat) : Prop :=
  ∀ w ∈ s.recent, w.plain = true → w.op = op ∨ w.seen ≠ [] ∨ ∀ l, l < 32 → inMask m l = true →
    w.by_.meets (f.party (1 <<< l)) = true ∨ (w.visTo (f.party (1 <<< l))).isSome = true

theorem NonePassed.unpassed {s : State} {f : Furrow} {m : Mask} (h : NonePassed s f m) (op : Nat) : Unpassed s f m op := fun w hw hp => .inr (h w hw hp)

/-- A store of those lanes comes under none then. -/
theorem Unpassed.underWrite {s : State} {f : Furrow} {m : Mask} {o : Origin} {l : Nat} (h : Unpassed s f m o.op) (hl : l < 32) (hm : inMask m l = true)
    (by_ : o.by_ = f.party (1 <<< l)) (space field addr n : Nat) : s.underWrite o space field addr n = none := by
  unfold State.underWrite
  rw [Option.filter_eq_none_iff]
  intro w hw
  have known := h w (List.mem_of_find?_eq_some hw)
  by_cases plain : w.plain = true
  · rcases known plain with op | seen | lanes
    · simp [op]
    · simp [seen]
    · have known := lanes l hl hm
      rw [← by_] at known
      rcases known with meets | vis
      · simp [meets]
      · simp [Option.isNone_eq_false_iff.2 vis]
  · simp [plain]

/-- Units written by that instruction leave none either. -/
theorem Unpassed.noteUnit {s : State} {f : Furrow} {m : Mask} {o : Origin} (h : Unpassed s f m o.op) (space field addr : Nat) (old : List Byte) :
    Unpassed (s.noteUnit o space field addr old) f m o.op := by
  intro w hw plain
  rcases List.mem_cons.1 hw with rfl | hw
  · exact .inl rfl
  · obtain ⟨y, hy, rfl⟩ := List.mem_map.1 (List.mem_filter.1 hw).1
    split_ifs at plain ⊢
    · exact h y hy plain
    · exact h y hy plain

theorem Unpassed.noteWrite {s : State} {f : Furrow} {m : Mask} {o : Origin} (h : Unpassed s f m o.op) (space field addr : Nat) (us : List (Nat × Nat))
    (old : List Byte) : Unpassed (s.noteWrite o space field addr us old) f m o.op :=
  List.foldlRecOn (motive := fun t => Unpassed t f m o.op) us _ h (fun _ ht _ _ => ht.noteUnit _ _ _ _)

/-- One store of a scratchpad, by its units. -/
theorem storeScratch_lays {f : Furrow} {m : Mask} {o : Origin} {l : Nat} {sure : Prop} (hl : l < 32) (hm : inMask m l = true) (by_ : o.by_ = f.party (1 <<< l))
    (fd off : Nat) (bs : List Byte) (us : List (Nat × Nat)) : ∀ s : State, BytesOk s → (sure → Unpassed s f m o.op) →
      Lays s (s.storeScratch o fd off us bs) sure (us.map (fun u => (some fd, u.1, (bs.drop (u.1 - off)).take u.2)))
        ∧ BytesOk (s.storeScratch o fd off us bs) ∧ (sure → Unpassed (s.storeScratch o fd off us bs) f m o.op) := by
  induction us with
  | nil => exact fun s ok unpassed => ⟨(SameBytes.refl s).lays sure, ok, unpassed⟩
  | cons u us ih =>
    intro s ok unpassed
    let x := (bs.drop (u.1 - off)).take u.2
    let t := match s.underWrite o 1 fd u.1 u.2 with
      | some w => s.noteUnder o w x
      | none => s.putScratch o fd u.1 [u] x
    have first : Lays s t sure [(some fd, u.1, x)] ∧ BytesOk t ∧ (sure → Unpassed t f m o.op) := by
      cases under : s.underWrite o 1 fd u.1 u.2 with
      | some w =>
        have unsure : ¬sure := fun hs => by
          rw [(unpassed hs).underWrite hl hm by_] at under
          cases under
        unfold t
        rw [under]
        exact ⟨(⟨rfl, rfl, rfl⟩ : SameBytes s (s.noteUnder o w x)).lays_unsure unsure _, ok.noteUnder, fun hs => absurd hs unsure⟩
      | none =>
        unfold t
        rw [under]
        exact ⟨lays_onScratch ok (putScratch_bytes s o fd u.1 [u] x) sure, ok.putScratch, fun hs => (unpassed hs).noteWrite 1 fd u.1 [u] _⟩
    obtain ⟨lays, ok1, unpassed1⟩ := first
    obtain ⟨rest, ok2, unpassed2⟩ := ih t ok1 unpassed1
    exact ⟨lays.trans rest, ok2, unpassed2⟩

end Sys2Proof.Machine
end

section
/-! O27: the writes of memory that a store posts and performs (R141, R168, R246, R378). -/
namespace Sys2Proof.Machine

/-- Sectors of a posted write. -/
def PostWrite.secs (w : PostWrite) : List Nat := sectorsOf w.pa w.bytes.length

/-- A posted write as a write of bytes. -/
def PostWrite.laid (w : PostWrite) : Option Nat × Nat × List Byte := (none, w.pa, w.bytes)

section
variable {f : Furrow} {op : Nat} {p : Posted}

/-- Writes that each lack a token go on waiting. -/
theorem performWrites_wait (l : List PostWrite) : ∀ (blocked : List Nat) (s : State),
    (∀ w ∈ l, s.lacking (dieAgent f.core) true w.secs ≠ []) →
      ∃ left, State.performWrites f op p l blocked s = (s, l, left, []) ∧ ∀ x ∈ left, x ∈ blocked ∨ ∃ w ∈ l, x ∈ w.secs := by
  induction l with
  | nil => exact fun blocked s _ => ⟨blocked, rfl, fun x hx => .inl hx⟩
  | cons w l ih =>
    intro blocked s lacks
    obtain ⟨left, rest, sub⟩ := ih (w.secs ++ blocked) s (fun y hy => lacks y (List.mem_cons_of_mem w hy))
    refine ⟨left, ?_, fun x hx => ?_⟩
    · have waits : (s.lacking (dieAgent f.core) true (sectorsOf w.pa w.bytes.length)).isEmpty = false :=
        List.isEmpty_eq_false_iff.2 (lacks w List.mem_cons_self)
      unfold State.performWrites
      simp only [waits, Bool.and_false, Bool.false_eq_true, if_false]
      rw [show sectorsOf w.pa w.bytes.length ++ blocked = w.secs ++ blocked from rfl, rest]
    · rcases sub x hx with h | ⟨y, hy, h⟩
      · rcases List.mem_append.1 h with h | h
        · exact .inr ⟨w, List.mem_cons_self, h⟩
        · exact .inl h
      · exact .inr ⟨y, List.mem_cons_of_mem w hy, h⟩

/-- Writes of sectors that nothing blocks and whose tokens are held are all performed. -/
theorem performWrites_all (sure : Prop) (l : List PostWrite) : ∀ (blocked : List Nat) (s : State), BytesOk s → NoneAhead s →
    (∀ w ∈ l, s.lacking (dieAgent f.core) true w.secs = [] ∧ ∀ x ∈ w.secs, x ∉ blocked) →
      Stirred s (State.performWrites f op p l blocked s).1 ∧ Lays s (State.performWrites f op p l blocked s).1 sure (l.map PostWrite.laid) := by
  induction l with
  | nil => exact fun _ s _ _ _ => ⟨.refl s, (SameBytes.refl s).lays sure⟩
  | cons w l ih =>
    intro blocked s ok hs free
    obtain ⟨held, unblocked⟩ := free w List.mem_cons_self
    let t := s.putGlobal (f.storeOrigin op p w.lane) f.core w.vpage w.pa (lsUnits w.unit w.pa w.bytes.length) w.bytes
    have stirred := stirs_putGlobal s (f.storeOrigin op p w.lane) f.core w.vpage w.pa (lsUnits w.unit w.pa w.bytes.length) w.bytes hs
    have tokens := sameTokens_putGlobal s (f.storeOrigin op p w.lane) f.core w.vpage w.pa (lsUnits w.unit w.pa w.bytes.length) w.bytes
    obtain ⟨after, laid⟩ := ih blocked t ok.putGlobal (stirred.noneAhead hs) (fun y hy => by
      obtain ⟨held, unblocked⟩ := free y (List.mem_cons_of_mem w hy)
      exact ⟨(tokens.lacking (fun x hx => sectorOf_of_mem hx)).trans held, unblocked⟩)
    have goes : (State.performWrites f op p (w :: l) blocked s).1 = (State.performWrites f op p l blocked t).1 := by
      have clear : (sectorsOf w.pa w.bytes.length).all (fun x => !blocked.contains x) = true :=
        List.all_eq_true.2 (fun x hx => by simpa using unblocked x hx)
      have ready : (s.lacking (dieAgent f.core) true (sectorsOf w.pa w.bytes.length)).isEmpty = true := List.isEmpty_iff.2 held
      rw [State.performWrites]
      simp only [clear, ready, Bool.and_self, if_true]
      rfl
    rw [goes]
    exact ⟨stirred.trans after, (lays_writeBytes ok.mem (putGlobal_bytes s _ _ _ _ _ _) sure).trans laid⟩

/-- Earlier stores that go on waiting, then one that is performed. -/
theorem performList_last (sure : Prop) (new : Posted) (secs : List Nat) (s : State) (ok : BytesOk s) (hs : NoneAhead s)
    (ready : ∀ w ∈ new.writes, s.lacking (dieAgent f.core) true w.secs = [] ∧ ∀ x ∈ w.secs, x ∈ secs) (old : List Posted) : ∀ blocked : List Nat,
    (∀ x ∈ blocked, x ∉ secs) → (∀ p ∈ old, ∀ w ∈ p.writes, s.lacking (dieAgent f.core) true w.secs ≠ [] ∧ ∀ x ∈ w.secs, x ∉ secs) →
      Stirred s (State.performList f (old ++ [new]) blocked s).1 ∧ Lays s (State.performList f (old ++ [new]) blocked s).1 sure (new.writes.map PostWrite.laid) := by
  induction old with
  | nil =>
    intro blocked apart _
    obtain ⟨stirred, laid⟩ := performWrites_all (f := f) (op := s.order + 1) (p := new) sure new.writes blocked s ok hs
      (fun w hw => ⟨(ready w hw).1, fun x hx hb => apart x hb ((ready w hw).2 x hx)⟩)
    obtain ⟨done, same⟩ := rouses_accessed _ (dieAgent f.core) (State.performWrites f (s.order + 1) new new.writes blocked s).2.2.2.dedup true
      (stirred.noneAhead hs)
    refine ⟨stirred.trans done, ?_⟩
    have all := laid.trans (same.lays sure)
    rwa [List.append_nil] at all
  | cons p old ih =>
    intro blocked apart waits
    obtain ⟨left, stay, sub⟩ := performWrites_wait (f := f) (op := s.order + 1) (p := p) p.writes blocked s (fun w hw => (waits p List.mem_cons_self w hw).1)
    have goes : (State.performList f ((p :: old) ++ [new]) blocked s).1 = (State.performList f (old ++ [new]) left s).1 := by
      rw [List.cons_append, State.performList, stay]
      rfl
    rw [goes]
    refine ih left (fun x hx => ?_) (fun y hy => waits y (List.mem_cons_of_mem p hy))
    rcases sub x hx with h | ⟨w, hw, h⟩
    · exact apart x h
    · exact (waits p List.mem_cons_self w hw).2 x h

end

/-! ### A furrow's stores still to be performed -/

/-- With every clause open nothing settles (R168). -/
theorem settleClauses_open {f : Furrow} (h : ∀ c ∈ f.clauses, c.2.1 = false) : f.settleClauses = f := by
  have none_done : f.clauses.filter (fun c => c.2.1 && !f.posted.any (fun p => p.clauseInst == some c.1)) = [] :=
    List.filter_eq_nil_iff.2 (fun c hc => by rw [h c hc]; simp)
  have all_stay : f.clauses.filter (fun c => !(c.2.1 && !f.posted.any (fun p => p.clauseInst == some c.1))) = f.clauses :=
    List.filter_eq_self.2 (fun c hc => by rw [h c hc]; rfl)
  unfold Furrow.settleClauses
  rw [none_done, all_stay]
  rfl

/-- A furrow's stores replaced, and its clauses settled where all are open. -/
theorem loose_onPosted {s : State} {c n : Nat} {v : Furrow} {k : Furrow → Furrow} (hv : s.furrow? c n = some v)
    (place : ∀ f, (k f).core = f.core ∧ (k f).slot = f.slot) (same : (k v).unposted = v.unposted) : Loose s (s.onFurrow c n k) := by
  refine ⟨rfl, fun d m => ?_⟩
  rw [State.furrow?_onFurrow s c n k place]
  by_cases here : d = c ∧ m = n
  · obtain ⟨rfl, rfl⟩ := here
    obtain ⟨rfl, rfl⟩ := State.furrow?_place hv
    rw [hv]
    simp [same]
  · cases hf : s.furrow? d m with
    | none => rfl
    | some f =>
      obtain ⟨rfl, rfl⟩ := State.furrow?_place hf
      rw [Option.map_some, if_neg (by simpa using here)]

theorem NoneAhead.onFurrow {s : State} (hs : NoneAhead s) (c n : Nat) {k : Furrow → Furrow} (hk : ∀ f, (k f).spec = f.spec) : NoneAhead (s.onFurrow c n k) := by
  intro v hv
  obtain ⟨f, hf, rfl⟩ := List.mem_map.1 hv
  split
  · exact (hk f).trans (hs f hf)
  · exact hs f hf

/-- A furrow's stores after some of them are performed, its closed clauses settled. -/
def Furrow.leftPosted (l : List Posted) (f : Furrow) : Furrow := ({ f with posted := l } : Furrow).settleClauses

theorem Furrow.leftPosted_keeps (l : List Posted) (f : Furrow) :
    (f.leftPosted l).core = f.core ∧ (f.leftPosted l).slot = f.slot ∧ (f.leftPosted l).spec = f.spec := by
  have flags : f.leftPosted l = _ := Furrow.settleClauses_flags { f with posted := l }
  rw [flags]
  exact ⟨rfl, rfl, rfl⟩

theorem Furrow.leftPosted_open {l : List Posted} {f : Furrow} (h : ∀ c ∈ f.clauses, c.2.1 = false) : f.leftPosted l = { f with posted := l } :=
  settleClauses_open h

/-- The stores of the furrow in a slot performed as far as tokens allow: earlier ones that go on waiting, then one that is performed. -/
theorem performPosted_last (sure : Prop) {s : State} {v : Furrow} {old : List Posted} {new : Posted} {secs : List Nat} (ok : BytesOk s) (hs : NoneAhead s)
    (hv : s.furrow? v.core v.slot = some v) (posted : v.posted = old ++ [new]) (open_ : ∀ c ∈ v.clauses, c.2.1 = false)
    (ready : ∀ w ∈ new.writes, s.lacking (dieAgent v.core) true w.secs = [] ∧ ∀ x ∈ w.secs, x ∈ secs)
    (waits : ∀ p ∈ old, ∀ w ∈ p.writes, s.lacking (dieAgent v.core) true w.secs ≠ [] ∧ ∀ x ∈ w.secs, x ∉ secs) :
    Loose s (s.performPosted v.core v.slot) ∧ NoneAhead (s.performPosted v.core v.slot)
      ∧ Lays s (s.performPosted v.core v.slot) sure (new.writes.map PostWrite.laid) := by
  obtain ⟨stirred, laid⟩ := performList_last (f := v) sure new secs s ok hs ready old [] (fun _ h => absurd h List.not_mem_nil) waits
  rw [← posted] at stirred laid
  let r := State.performList v v.posted [] s
  have goes : s.performPosted v.core v.slot = r.1.onFurrow v.core v.slot (Furrow.leftPosted r.2) := by
    unfold State.performPosted
    rw [hv]
    dsimp only
    rw [if_neg (by simp [posted])]
    rfl
  obtain ⟨u, hu, hk⟩ := stirred.kin hv
  have same : (u.leftPosted r.2).unposted = u.unposted := by
    rw [Furrow.leftPosted_open (by rw [hk.clauses]; exact open_)]
    rfl
  rw [goes]
  have after : SameBytes r.1 (r.1.onFurrow v.core v.slot (Furrow.leftPosted r.2)) := ⟨rfl, rfl, rfl⟩
  have bytes := laid.trans (after.lays sure)
  rw [List.append_nil] at bytes
  exact ⟨stirred.loose.trans (loose_onPosted hu (fun f => ⟨(f.leftPosted_keeps _).1, (f.leftPosted_keeps _).2.1⟩) same),
    (stirred.noneAhead hs).onFurrow _ _ (fun f => (f.leftPosted_keeps _).2.2), bytes⟩

/-- What a store posts in a furrow. -/
def Furrow.posting (f : Furrow) (g : Group) (rel : Nat) (ws : List PostWrite) : Posted :=
  { lanes := g.lanes, level := g.level, writes := ws, rel := rel, diverged := if f.isDiverged then g.lanes else 0, clauseInst := g.inst }

/-- A store's writes of memory whose tokens are held, behind earlier ones that go on waiting. -/
theorem storeWrites_lays (sure : Prop) {s : State} {f v : Furrow} (g : Group) (rel : Nat) {ws : List PostWrite} {secs : List Nat} (ok : BytesOk s)
    (hs : NoneAhead s) (hv : s.furrow? f.core f.slot = some v) (hk : f.Kin v) (open_ : ∀ c ∈ f.clauses, c.2.1 = false)
    (ready : ∀ w ∈ ws, s.lacking (dieAgent f.core) true w.secs = [] ∧ ∀ x ∈ w.secs, x ∈ secs)
    (waits : ∀ p ∈ f.posted, ∀ w ∈ p.writes, s.lacking (dieAgent f.core) true w.secs ≠ [] ∧ ∀ x ∈ w.secs, x ∉ secs) :
    Loose s (s.storeWrites f g rel ws) ∧ Lays s (s.storeWrites f g rel ws) sure (ws.map PostWrite.laid) := by
  unfold State.storeWrites
  split
  · rename_i none
    rw [List.isEmpty_iff.1 none]
    exact ⟨(Stirred.refl s).loose, (SameBytes.refl s).lays sure⟩
  · extract_lets agent written pages s1 s2 s3
    obtain ⟨killed, -⟩ := rouses_killLoads s (fun c => c == f.core) (fun e => pages.contains e.region) hs
    let u : Furrow := { v with posted := v.posted ++ [v.posting g rel ws] }
    have posted : s2.furrow? u.core u.slot = some u := by
      have look := State.furrow?_onFurrow_self (s := s1) hv (fun f => { f with posted := f.posted ++ [f.posting g rel ws] }) (fun _ => ⟨rfl, rfl⟩)
      rw [show u.core = f.core from hk.core, show u.slot = f.slot from hk.slot]
      exact look
    have loose2 : Loose s s2 := killed.loose.trans (loose_onPosted (s := s1) hv (fun _ => ⟨rfl, rfl⟩) rfl)
    have hs2 : NoneAhead s2 := (killed.noneAhead hs).onFurrow _ _ (fun _ => rfl)
    have ok2 : BytesOk s2 := ok.killLoads.onFurrow
    have tokens : SameTokens s s2 := .of_sectors rfl rfl
    have lacking : ∀ w : PostWrite, s2.lacking (dieAgent u.core) true w.secs = s.lacking (dieAgent f.core) true w.secs := fun w => by
      rw [show u.core = f.core from hk.core]
      exact tokens.lacking (fun x hx => sectorOf_of_mem hx)
    obtain ⟨loose3, hs3, laid⟩ := performPosted_last sure (v := u) (old := v.posted) (new := v.posting g rel ws) (secs := secs) ok2 hs2 posted rfl
      (by rw [show u.clauses = f.clauses from hk.clauses]; exact open_) (fun w hw => by rw [lacking]; exact ready w hw)
      (fun p hp w hw => by rw [lacking]; exact waits p (hk.posted ▸ hp) w hw)
    rw [show u.core = f.core from hk.core, show u.slot = f.slot from hk.slot] at loose3 hs3 laid
    obtain ⟨asked, same⟩ := rouses_requestAll s3 agent f.core true (s3.lacking agent true written) hs3
    refine ⟨(loose2.trans loose3).trans asked.loose, ?_⟩
    have before : SameBytes s s2 := ⟨rfl, rfl, rfl⟩
    have bytes := ((before.lays sure).trans laid).trans (same.lays sure)
    rwa [List.append_nil] at bytes

end Sys2Proof.Machine
end

section
/-! O27: stores of lanes, uniform stores and scatters (R136, R139, R238, R246 to R248). -/
namespace Sys2Proof.Machine

/-! ### What a release shows (R139) -/

theorem visTo_isSome (w : Write) (p : Party) : (w.visTo p).isSome = w.vis.any (fun v => v.reaches w.by_ p) := by
  have run : ∀ (l : List Shown) (o : Option Nat), (l.foldl (fun o v => match o with
      | none => some v.since
      | some n => some (min n v.since)) o).isSome = (o.isSome || !l.isEmpty) := by
    intro l
    induction l with
    | nil => simp
    | cons v l ih => intro o; rw [List.foldl_cons, ih]; cases o <;> simp
  have any_filter : ∀ l : List Shown, (!(l.filter (fun v => v.reaches w.by_ p)).isEmpty) = l.any (fun v => v.reaches w.by_ p) := by
    intro l
    induction l with
    | nil => rfl
    | cons v l ih => rw [List.filter_cons, List.any_cons, ← ih]; cases v.reaches w.by_ p <;> simp
  exact (run _ none).trans (any_filter w.vis)

/-- A write that is published stays visible to whom it was. -/
theorem Write.visTo_publish {w : Write} {p : Party} (h : (w.visTo p).isSome = true) (scope core at_ till : Nat) (firm : Bool) :
    ((w.publish scope core at_ till firm).visTo p).isSome = true := by
  rw [visTo_isSome] at h ⊢
  unfold Write.publish
  dsimp only
  split
  · exact h
  · rw [List.any_cons, h, Bool.or_true]

theorem Unpassed.publish {s : State} {f : Furrow} {m : Mask} {op : Nat} (h : Unpassed s f m op) (p : Party) (scope : Nat) (firm : Bool) :
    Unpassed (s.publish p scope firm) f m op := by
  intro w hw plain
  obtain ⟨y, hy, rfl⟩ := List.mem_map.1 hw
  split_ifs at plain ⊢
  · rcases h y hy plain with op | seen | lanes
    · exact .inl op
    · exact .inr (.inl seen)
    · exact .inr (.inr (fun l hl hm => (lanes l hl hm).imp id (fun vis => Write.visTo_publish vis _ _ _ _ _)))
  · exact h y hy plain

theorem Unpassed.releasing {s : State} {g : Furrow} {n : Mask} {op : Nat} (h : Unpassed s g n op) (f : Furrow) (m : Mask) (rel : Bool) (c : Scope) :
    Unpassed (s.releasing f m rel c) g n op := by
  unfold State.releasing
  split
  · exact h.publish _ _ _
  · exact h

/-! ### The parts of a store by lanes -/

/-- Whether a lane's bytes are one unit (R135). -/
def oneUnit (data : Nat → List Byte) (a : Nat × Nat × Spot) : Bool := decide (a.2.1 % (data a.1).length = 0)

/-- The stores of a list of lanes that lie in scratchpads. -/
def State.storeScratches (s : State) (origin : Nat × Nat × Spot → Nat → Nat → Origin) (data : Nat → List Byte) (as : List (Nat × Nat × Spot)) : State :=
  as.foldl (fun s a => match a.2.2 with
    | .scratch fd off => s.storeScratch (origin a fd off) fd off (lsUnits (oneUnit data a) off (data a.1).length) (data a.1)
    | .global _ => s) s

/-- The bytes of a lane's store to a scratchpad. -/
def laneScratch (data : Nat → List Byte) (a : Nat × Nat × Spot) : List (Option Nat × Nat × List Byte) :=
  match a.2.2 with
  | .scratch fd off => [(some fd, off, data a.1)]
  | .global _ => []

/-- The writes of a lane's store to memory. -/
def laneMemory (data : Nat → List Byte) (a : Nat × Nat × Spot) : List PostWrite :=
  match a.2.2 with
  | .scratch _ _ => []
  | .global ps => pieceWrites a.1 (oneUnit data a) a.2.1 ps (data a.1)

/-- Whether no other lane of a store touches some bytes of a scratchpad. -/
def aloneIn (as : List (Nat × Nat × Spot)) (fd off n : Nat) : Bool := decide ((as.filter (fun b => match b.2.2 with
  | .scratch fe o => fe == fd && decide (o < off + n ∧ off < o + n)
  | .global _ => false)).length ≤ 1)

theorem storeLanes_eq (s : State) (f : Furrow) (g : Group) (rel : Nat) (as : List (Nat × Nat × Spot)) (data : Nat → List Byte) :
    s.storeLanes f g rel as data =
      (s.storeScratches (fun a fd off => { f.origin (s.order + 1) a.1 f.isDiverged with plain := aloneIn as fd off (data a.1).length, rel := rel }) data
        as).storeWrites f g rel (as.map (laneMemory data)).flatten := rfl

theorem stirs_storeScratch (s : State) (o : Origin) (fd off : Nat) (us : List (Nat × Nat)) (bs : List Byte) : Stirs s (s.storeScratch o fd off us bs) :=
  .foldl (fun t u => by
    split
    · exact (rouses_of_eq rfl).stirs
    · exact stirs_putScratch t o fd u.1 _ _) us s

theorem sameTokens_storeScratch (s : State) (o : Origin) (fd off : Nat) (us : List (Nat × Nat)) (bs : List Byte) :
    SameTokens s (s.storeScratch o fd off us bs) :=
  .foldl us s (fun t u _ => by
    split
    · exact .of_sectors rfl rfl
    · exact sameTokens_putScratch t o fd u.1 _ _)

/-- The stores that lie in scratchpads. -/
theorem storeScratches_lays {f : Furrow} {m : Mask} {op : Nat} {sure : Prop} {origin : Nat × Nat × Spot → Nat → Nat → Origin} (data : Nat → List Byte)
    (by_ : ∀ a fd off, (origin a fd off).op = op ∧ (origin a fd off).by_ = f.party (1 <<< a.1)) (as : List (Nat × Nat × Spot)) : ∀ s : State, BytesOk s →
    (sure → Unpassed s f m op) → (∀ a ∈ as, a.1 < 32 ∧ inMask m a.1 = true) →
      Lays s (s.storeScratches origin data as) sure (as.map (laneScratch data)).flatten ∧ BytesOk (s.storeScratches origin data as)
        ∧ Stirs s (s.storeScratches origin data as) ∧ SameTokens s (s.storeScratches origin data as) := by
  induction as with
  | nil => exact fun s ok _ _ => ⟨(SameBytes.refl s).lays sure, ok, (Rouses.refl s).stirs, .refl s⟩
  | cons a as ih =>
    intro s ok unpassed lanes
    obtain ⟨hl, hm⟩ := lanes a List.mem_cons_self
    have later := fun b hb => lanes b (List.mem_cons_of_mem a hb)
    obtain ⟨lane, ea, spot⟩ := a
    cases spot with
    | global ps => exact ih s ok unpassed later
    | scratch fd off =>
      obtain ⟨same_op, party⟩ := by_ (lane, ea, .scratch fd off) fd off
      let o := origin (lane, ea, .scratch fd off) fd off
      let us := lsUnits (oneUnit data (lane, ea, .scratch fd off)) off (data lane).length
      obtain ⟨first, ok1, unpassed1⟩ := storeScratch_lays (sure := sure) hl hm party fd off (data lane) us s ok (by rw [same_op]; exact unpassed)
      rw [same_op] at unpassed1
      obtain ⟨rest, ok2, stirs, tokens⟩ := ih (s.storeScratch o fd off us (data lane)) ok1 unpassed1 later
      exact ⟨(first.congr (lastByte_units fd off _ (data lane))).trans rest, ok2, (stirs_storeScratch s o fd off us _).trans stirs,
        (sameTokens_storeScratch s o fd off us _).trans tokens⟩

/-! ### All of their bytes, in the order of lanes -/

theorem pieceWrites_laid (lane ea : Nat) (unit : Bool) (ps : List (Nat × Nat)) : ∀ (e : Nat) (bs : List Byte),
    (pieceWrites lane unit e ps bs).map PostWrite.laid = (pieceWrites lane true ea ps bs).map (fun w => (none, w.pa, w.bytes)) := by
  induction ps generalizing ea with
  | nil => exact fun _ _ => rfl
  | cons p ps ih =>
    intro e bs
    unfold pieceWrites
    rw [List.map_append, List.map_append, List.map_map, List.map_map, ih (ea + p.2)]
    rfl

/-- What a lane's store gives a place of memory. -/
theorem bytesPut_lane_memory (data : Nat → List Byte) (x : Nat × Nat × Spot) (a : Nat) :
    bytesPut (laneScratch data x) none a = [] ∧
      bytesPut ((laneMemory data x).map PostWrite.laid) none a = bytesPut (writesOf [x] data) none a := by
  obtain ⟨lane, ea, spot⟩ := x
  cases spot with
  | scratch fd off =>
    have elsewhere : bytesPut [(some fd, off, data lane)] none a = [] :=
      bytesPut_elsewhere (fun w hw => by rw [List.mem_singleton.1 hw]; exact Option.some_ne_none fd) a
    exact ⟨elsewhere, elsewhere.symm⟩
  | global ps =>
    refine ⟨rfl, congrArg (bytesPut · none a) ((pieceWrites_laid lane ea _ ps ea (data lane)).trans ?_)⟩
    exact (List.append_nil _).symm

/-- What it gives a place of a scratchpad. -/
theorem bytesPut_lane_scratch (data : Nat → List Byte) (x : Nat × Nat × Spot) (fd a : Nat) :
    bytesPut (laneScratch data x) (some fd) a = bytesPut (writesOf [x] data) (some fd) a ∧
      bytesPut ((laneMemory data x).map PostWrite.laid) (some fd) a = [] := by
  obtain ⟨lane, ea, spot⟩ := x
  have memory : ∀ ws : List PostWrite, bytesPut (ws.map PostWrite.laid) (some fd) a = [] := fun ws => bytesPut_elsewhere (fun w hw => by
    obtain ⟨y, -, rfl⟩ := List.mem_map.1 hw
    exact (Option.some_ne_none fd).symm) a
  cases spot with
  | scratch fe off => exact ⟨rfl, rfl⟩
  | global ps =>
    refine ⟨Eq.symm ?_, memory _⟩
    have all : writesOf [(lane, ea, .global ps)] data = (pieceWrites lane true ea ps (data lane)).map PostWrite.laid := List.append_nil _
    rw [all, memory]
    rfl

/-- Scratchpads first and memory after them gives each place what the lanes in their order give. -/
theorem lastByte_writesOf (data : Nat → List Byte) (as : List (Nat × Nat × Spot)) (space : Option Nat) (a : Nat) :
    lastByte ((as.map (laneScratch data)).flatten ++ (as.map (laneMemory data)).flatten.map PostWrite.laid) space a = lastByte (writesOf as data) space a := by
  rw [lastByte_eq, lastByte_eq, bytesPut_append]
  have cons : ∀ x l, bytesPut (writesOf (x :: l) data) space a = bytesPut (writesOf [x] data) space a ++ bytesPut (writesOf l data) space a := fun x l => by
    rw [← bytesPut_append]
    simp [writesOf]
  cases space with
  | none =>
    have only : bytesPut (as.map (laneScratch data)).flatten none a = [] ∧
        bytesPut ((as.map (laneMemory data)).flatten.map PostWrite.laid) none a = bytesPut (writesOf as data) none a := by
      induction as with
      | nil => exact ⟨rfl, rfl⟩
      | cons x as ih =>
        obtain ⟨scratch, memory⟩ := bytesPut_lane_memory data x a
        rw [cons, List.map_cons, List.map_cons, List.flatten_cons, List.flatten_cons, List.map_append, bytesPut_append, bytesPut_append, scratch, memory, ih.1,
          ih.2]
        exact ⟨rfl, rfl⟩
    rw [only.1, only.2, List.nil_append]
  | some fd =>
    have only : bytesPut (as.map (laneScratch data)).flatten (some fd) a = bytesPut (writesOf as data) (some fd) a ∧
        bytesPut ((as.map (laneMemory data)).flatten.map PostWrite.laid) (some fd) a = [] := by
      induction as with
      | nil => exact ⟨rfl, rfl⟩
      | cons x as ih =>
        obtain ⟨scratch, memory⟩ := bytesPut_lane_scratch data x fd a
        rw [cons, List.map_cons, List.map_cons, List.flatten_cons, List.flatten_cons, List.map_append, bytesPut_append, bytesPut_append, scratch, memory, ih.1,
          ih.2]
        exact ⟨rfl, rfl⟩
    rw [only.1, only.2, List.append_nil]

end Sys2Proof.Machine
end

section
/-! O27: the instructions. -/
namespace Sys2Proof.Machine

/-! ### The sectors that a store writes -/

theorem mem_pieceWrites {w : PostWrite} {lane : Nat} {unit : Bool} {ps : List (Nat × Nat)} : ∀ {ea : Nat} {bs : List Byte},
    w ∈ pieceWrites lane unit ea ps bs → ∃ p ∈ ps, p.1 ≤ w.pa ∧ w.pa + w.bytes.length ≤ p.1 + p.2 := by
  induction ps with
  | nil => exact fun h => absurd h List.not_mem_nil
  | cons p ps ih =>
    intro ea bs h
    rcases List.mem_append.1 h with h | h
    · obtain ⟨y, hy, rfl⟩ := List.mem_map.1 h
      obtain ⟨lo, hi, -⟩ := mem_sectorPieces hy
      have len : ((bs.drop (y.1 - p.1)).take y.2).length ≤ y.2 := List.length_take_le _ _
      exact ⟨p, List.mem_cons_self, lo, by dsimp only; omega⟩
    · obtain ⟨x, hx, within⟩ := ih h
      exact ⟨x, List.mem_cons_of_mem p hx, within⟩

/-- A store writes in the sectors of its places only. -/
theorem secs_of_laneMemory {data : Nat → List Byte} {as : List (Nat × Nat × Spot)} {w : PostWrite} (hw : w ∈ (as.map (laneMemory data)).flatten) {x : Nat}
    (hx : x ∈ w.secs) : x ∈ spotSectors (spotsOf as) := by
  obtain ⟨l, hl, hw⟩ := List.mem_flatten.1 hw
  obtain ⟨⟨lane, ea, spot⟩, ha, rfl⟩ := List.mem_map.1 hl
  cases spot with
  | scratch fd off => exact absurd hw List.not_mem_nil
  | global ps =>
    obtain ⟨p, hp, lo, hi⟩ := mem_pieceWrites hw
    obtain ⟨b, h1, h2, hb⟩ := mem_sectorsOf.1 hx
    exact mem_spotSectors.2 ⟨.global ps, List.mem_map_of_mem ha, p, hp, mem_sectorsOf.2 ⟨b, by omega, by omega, hb⟩⟩

section
variable {s s1 : State} {q : Issue} {f : Furrow} {g : Group} {x : LM} {i : Instr} {as : List (Nat × Nat × Spot)}

/-- The stores of lanes whose tokens are held. -/
theorem storeLanes_lays {v : Furrow} {m : Mask} (sure : Prop) (rel : Nat) (data : Nat → List Byte) (ok : BytesOk s) (hs : NoneAhead s)
    (hv : s.furrow? f.core f.slot = some v) (hk : f.Kin v) (open_ : ∀ c ∈ f.clauses, c.2.1 = false) (unpassed : sure → Unpassed s f m (s.order + 1))
    (lanes : ∀ a ∈ as, a.1 < 32 ∧ inMask m a.1 = true) (held : TokensHeld s f true (spotsOf as)) (waits : PostedWait s f (spotSectors (spotsOf as))) :
    Loose s (s.storeLanes f g rel as data) ∧ Lays s (s.storeLanes f g rel as data) sure (writesOf as data) := by
  obtain ⟨first, ok1, stirs, tokens⟩ := storeScratches_lays (f := f) (m := m) (op := s.order + 1) (sure := sure)
    (origin := fun a fd off => { f.origin (s.order + 1) a.1 f.isDiverged with plain := aloneIn as fd off (data a.1).length, rel := rel }) data
    (fun _ _ _ => ⟨rfl, rfl⟩) as s ok unpassed lanes
  have stirred := stirs hs
  obtain ⟨u, hu, hku⟩ := stirred.kin hv
  have lacking : ∀ w : PostWrite, _ = _ := fun w => tokens.lacking (agent := dieAgent f.core) (write := true) (secs := w.secs)
    (fun x hx => sectorOf_of_mem hx)
  obtain ⟨loose, second⟩ := storeWrites_lays sure (ws := (as.map (laneMemory data)).flatten) (secs := spotSectors (spotsOf as)) g rel ok1
    (stirred.noneAhead hs) hu (hk.trans hku) open_
    (fun w hw => ⟨by rw [lacking w]; exact lacking_nil_iff.2 (fun x hx => lacking_nil_iff.1 held x (secs_of_laneMemory hw hx)),
      fun x hx => secs_of_laneMemory hw hx⟩)
    (fun p hp w hw => ⟨by rw [lacking w]; exact (waits p hp w hw).1, (waits p hp w hw).2⟩)
  rw [storeLanes_eq]
  exact ⟨stirred.loose.trans loose, (first.trans second).congr (lastByte_writesOf data as)⟩

/-- A store that has been performed, behind its checks and its release: its bytes, the group at the next word. -/
theorem store_ends {bs : List (Nat × Nat × Spot)} (h : Issues s q f g i) (hs : NoneAhead s) (ok : BytesOk s)
    (open_ : ∀ c ∈ f.clauses, c.2.1 = false)
    (pass : Passes s f g (f.activeSet i g) (memBytes x) 1 { write := true } (fun _ _ => false) (f.eaOf x) s1 as) (some_lanes : ∀ a ∈ bs, a ∈ as)
    (held : TokensHeld s1 f true (spotsOf bs)) (waits : PostedWait s1 f (spotSectors (spotsOf bs))) (m : Mask) (rel : Bool) (scope : Nat)
    (data : Nat → List Byte) :
    ∃ t, ((s1.releasing f m rel x.scope).storeLanes f g scope bs data).skip i q g = .next t ∧ Lands t q g i f ∧ OthersKept s t q
      ∧ Wrote s s1 t f (f.activeSet i g) (writesOf bs data) ∧ t.ctxs = s.ctxs := by
  obtain ⟨h1, same1⟩ := pass.rouses hs
  have ok1 : BytesOk s1 := by
    obtain ⟨r, hr, -⟩ := pass.checks
    have checked := ok.checkLanes (f := f) (size := memBytes x) (align := 1) (k := { write := true }) (unsup := fun _ _ => false) (ea := f.eaOf x)
      (l := lanesOf (f.activeSet i g))
    rwa [hr] at checked
  have hs1 := h1.noneAhead hs
  obtain ⟨released, same2⟩ := rouses_releasing s1 f m rel x.scope hs1
  obtain ⟨core, slot⟩ := State.furrow?_place h.furrow
  obtain ⟨v, hv, hk⟩ := (h1.trans released).kin h.furrow
  rw [← core, ← slot] at hv
  have lanes : ∀ a ∈ bs, a.1 < 32 ∧ inMask (f.activeSet i g) a.1 = true := fun a ha => by
    have mem : a.1 ∈ lanesOf (f.activeSet i g) := pass.lanes ▸ List.mem_map_of_mem (some_lanes a ha)
    exact ⟨lt_of_mem_lanesOf mem, (mem_lanesOf (lt_of_mem_lanesOf mem)).1 mem⟩
  obtain ⟨loose, laid⟩ := storeLanes_lays (g := g) (NonePassed s1 f (f.activeSet i g)) scope data ok1.releasing (released.noneAhead hs1) hv hk open_
    (fun none => (none.unpassed _).releasing f m rel x.scope) lanes
    (by unfold TokensHeld; rw [lacking_releasing]; exact held) (by unfold PostedWait; rw [lacking_releasing]; exact waits)
  obtain ⟨t, ht, ends⟩ := skip_ends h (((h1.trans released).loose).trans loose)
  have kept : SameBytes ((s1.releasing f m rel x.scope).storeLanes f g scope bs data) t := by
    rw [ends.rest]
    exact ⟨rfl, rfl, rfl⟩
  have all := (((same1.trans same2).lays (NonePassed s1 f (f.activeSet i g))).trans laid).trans (kept.lays _)
  rw [List.nil_append, List.append_nil] at all
  refine ⟨t, ht, ends.own, ends.others, ⟨all.spares, all.stored⟩, ?_⟩
  rw [ends.rest]
  exact (((h1.trans released).loose).trans loose).ctxs

theorem and_false_of_imp {a b : Bool} (h : a = true → b = false) : (a && b) = false := by
  cases a with
  | false => rfl
  | true => exact h rfl

/-- A store of each lane (R246). -/
theorem storeLane_ends {rel : Bool} (h : Issues s q f g i) (hs : NoneAhead s) (ok : BytesOk s) (hm : f.activeSet i g ≠ 0)
    (drained : rel = true → f.storing g.lanes = false) (open_ : ∀ c ∈ f.clauses, c.2.1 = false)
    (pass : Passes s f g (f.activeSet i g) (memBytes x) 1 { write := true } (fun _ _ => false) (f.eaOf x) s1 as)
    (held : TokensHeld s1 f true (spotsOf as)) (waits : PostedWait s1 f (spotSectors (spotsOf as))) :
    ∃ t, storeLane i x rel s = .next t ∧ Lands t q g i f ∧ OthersKept s t q ∧ Wrote s s1 t f (f.activeSet i g) (writesOf as (f.storeData x))
      ∧ t.ctxs = s.ctxs := by
  obtain ⟨t, ht, left⟩ := store_ends h hs ok open_ pass (fun _ ha => ha) held waits (f.activeSet i g) rel (if rel then x.scope.code else 0) (f.storeData x)
  refine ⟨t, ?_, left⟩
  have goes := and_false_of_imp drained
  unfold storeLane
  rw [running_issues h]
  simp only [hm, if_false, withSpots_passes pass, goes, Bool.false_eq_true]
  exact ht

/-- A uniform store (R246). -/
theorem storeUniform_ends {rel : Bool} {a : Nat × Nat × Spot} (h : Issues s q f g i) (hs : NoneAhead s) (ok : BytesOk s) (hm : f.activeSet i g ≠ 0)
    (drained : rel = true → f.storing g.lanes = false) (open_ : ∀ c ∈ f.clauses, c.2.1 = false)
    (pass : Passes s f g (f.activeSet i g) (memBytes x) 1 { write := true } (fun _ _ => false) (f.eaOf x) s1 (a :: as))
    (held : TokensHeld s1 f true [a.2.2]) (waits : PostedWait s1 f (spotSectors [a.2.2])) :
    ∃ t, storeUniform i x rel s = .next t ∧ Lands t q g i f ∧ OthersKept s t q
      ∧ Wrote s s1 t f (f.activeSet i g) (writesOf [a] (fun _ => leBytes (memBytes x) (f.readW x.c3.val).toNat)) ∧ t.ctxs = s.ctxs := by
  obtain ⟨t, ht, left⟩ := store_ends (bs := [a]) h hs ok open_ pass (fun b hb => List.mem_singleton.1 hb ▸ List.mem_cons_self) held waits
    (1 <<< lowestLane (f.activeSet i g)) rel (if rel then x.scope.code else 0) (fun _ => leBytes (memBytes x) (f.readW x.c3.val).toNat)
  refine ⟨t, ?_, left⟩
  have goes := and_false_of_imp drained
  unfold storeUniform
  rw [running_issues h]
  simp only [hm, if_false, withSpots_passes pass, goes, Bool.false_eq_true]
  exact ht

/-- A scatter all of whose lanes pass (R248). -/
theorem execSct_ends (h : Issues s q f g (.sct x)) (hs : NoneAhead s) (ok : BytesOk s) (hm : f.activeSet (.sct x) g ≠ 0)
    (open_ : ∀ c ∈ f.clauses, c.2.1 = false)
    (pass : Passes s f g (f.activeSet (.sct x) g) (memBytes x) 1 { write := true } (fun _ _ => false) (f.eaOf x) s1 as)
    (held : TokensHeld s1 f true (spotsOf as)) (waits : PostedWait s1 f (spotSectors (spotsOf as))) :
    ∃ t, execSct x s = .next t ∧ Lands t q g (.sct x) f ∧ OthersKept s t q
      ∧ Wrote s s1 t f (f.activeSet (.sct x) g) (writesOf as (f.storeData x)) ∧ t.ctxs = s.ctxs := by
  obtain ⟨t, ht, left⟩ := store_ends h hs ok open_ pass (fun _ ha => ha) held waits 0 false 0 (f.storeData x)
  refine ⟨t, ?_, left⟩
  obtain ⟨r, hr, no_wait, split⟩ := pass.split
  unfold execSct
  rw [running_issues h]
  simp only [hm, if_false, hr, no_wait, split, List.isEmpty_nil, Bool.not_true, Bool.false_eq_true]
  exact ht

end

/-- Settles O27, by the writes of each kind of store. -/
theorem stores : Obligations.Stores := by
  refine ⟨?each, ?uniform⟩
  case each =>
    intro s s1 q f g x i as kind h hs ok hm drained open_ pass held waits
    simp only [List.mem_cons, List.not_mem_nil, or_false] at kind
    rcases kind with rfl | rfl | rfl
    · exact storeLane_ends h hs ok hm (fun e => Bool.noConfusion e) open_ pass held waits
    · exact storeLane_ends h hs ok hm (fun _ => drained rfl) open_ pass held waits
    · exact execSct_ends h hs ok hm open_ pass held waits
  case uniform =>
    intro s s1 q f g x i a as kind h hs ok hm drained open_ pass held waits
    simp only [List.mem_cons, List.not_mem_nil, or_false] at kind
    have wrote : ∀ rel : Bool, (rel = true → f.storing g.lanes = false) → exec i s = storeUniform i x rel s → ∃ t, exec i s = .next t ∧ Lands t q g i f
        ∧ OthersKept s t q ∧ t.ctxs = s.ctxs
        ∧ Wrote s s1 t f (f.activeSet i g) (writesOf [a] (fun _ => leBytes (memWidth x.ty x.x2 / 8) (f.readW x.c3.val).toNat)) := fun rel free he => by
      obtain ⟨t, ht, own, others, bytes, ctxs⟩ := storeUniform_ends h hs ok hm free open_ pass held waits
      exact ⟨t, he.trans ht, own, others, ctxs, bytes⟩
    rcases kind with rfl | rfl
    · exact wrote false (fun e => Bool.noConfusion e) (exec_stw s x)
    · exact wrote true (fun _ => drained rfl) (exec_stwRel s x)

end Sys2Proof.Machine
end
